-- ==== Sys2Proof/Word.lean ====
section
/-! DEFINITION. Bytes, the 32-bit timestamp and the two fixed-size families (one value per zone, one per
encoder channel or tension loop) that the manual numbers (00_scope.md 3; 03 R40; 01 R1; 05 R79). -/

namespace Sys2Proof

/-- One byte on a serial link (11_host_link.md 11.2). -/
abbrev Byte := BitVec 8

/-- The millisecond timestamp, a 32-bit count that wraps (01 R16). -/
abbrev Timestamp := BitVec 32

/-- The six heater zones across the drum, Z0 at one edge and Z5 at the other (03 R40). -/
inductive Zone | z0 | z1 | z2 | z3 | z4 | z5
deriving DecidableEq, Repr

namespace Zone
/-- The zone's number, 0 to 5. -/
def num : Zone → Nat
  | z0 => 0 | z1 => 1 | z2 => 2 | z3 => 3 | z4 => 4 | z5 => 5

/-- The zones in ascending number. -/
def all : List Zone := [z0, z1, z2, z3, z4, z5]

/-- The zone above, wrapping from Z5 to Z0. -/
def succ : Zone → Zone
  | z0 => z1 | z1 => z2 | z2 => z3 | z3 => z4 | z4 => z5 | z5 => z0
end Zone

/-- One value for each of the six zones. -/
structure Six (α : Type) where
  z0 : α
  z1 : α
  z2 : α
  z3 : α
  z4 : α
  z5 : α
deriving DecidableEq, Repr

namespace Six
variable {α β γ : Type}

def get (x : Six α) : Zone → α
  | .z0 => x.z0 | .z1 => x.z1 | .z2 => x.z2 | .z3 => x.z3 | .z4 => x.z4 | .z5 => x.z5

def set (x : Six α) (z : Zone) (v : α) : Six α :=
  match z with
  | .z0 => { x with z0 := v } | .z1 => { x with z1 := v } | .z2 => { x with z2 := v }
  | .z3 => { x with z3 := v } | .z4 => { x with z4 := v } | .z5 => { x with z5 := v }

/-- The six values of a function of the zone. -/
def ofZone (f : Zone → α) : Six α :=
  ⟨f .z0, f .z1, f .z2, f .z3, f .z4, f .z5⟩

def map (f : α → β) (x : Six α) : Six β :=
  ofZone fun z => f (x.get z)

def zipWith (f : α → β → γ) (x : Six α) (y : Six β) : Six γ :=
  ofZone fun z => f (x.get z) (y.get z)

def modify (x : Six α) (z : Zone) (f : α → α) : Six α := x.set z (f (x.get z))

def toList (x : Six α) : List α := [x.z0, x.z1, x.z2, x.z3, x.z4, x.z5]

def all (x : Six α) (p : α → Bool) : Bool := x.toList.all p
def any (x : Six α) (p : α → Bool) : Bool := x.toList.any p
end Six

/-- The three encoder channels, numbered 0 to 2: paper (PP), fabric (FP) and drum (DC) (01 1.1). -/
inductive Chan | paper | fabric | drum
deriving DecidableEq, Repr

/-- The channel's number, as fault records and notices name it. -/
def Chan.num : Chan → Nat
  | .paper => 0 | .fabric => 1 | .drum => 2

/-- One value for each of the three encoder channels. -/
structure Channels (α : Type) where
  paper : α
  fabric : α
  drum : α
deriving DecidableEq, Repr

namespace Channels
variable {α : Type}
def get (x : Channels α) : Chan → α
  | .paper => x.paper | .fabric => x.fabric | .drum => x.drum
def set (x : Channels α) (c : Chan) (v : α) : Channels α :=
  match c with
  | .paper => { x with paper := v } | .fabric => { x with fabric := v } | .drum => { x with drum := v }
end Channels

/-- The three tension loops, numbered 0 to 2 (05, the table of loops). -/
inductive Loop | feed | unwind | rewind
deriving DecidableEq, Repr

namespace Loop
def num : Loop → Nat
  | feed => 0 | unwind => 1 | rewind => 2
def all : List Loop := [feed, unwind, rewind]
end Loop

/-- One value for each of the three tension loops. -/
structure Loops (α : Type) where
  feed : α
  unwind : α
  rewind : α
deriving DecidableEq, Repr

namespace Loops
variable {α β : Type}
def get (x : Loops α) : Loop → α
  | .feed => x.feed | .unwind => x.unwind | .rewind => x.rewind
def set (x : Loops α) (l : Loop) (v : α) : Loops α :=
  match l with
  | .feed => { x with feed := v } | .unwind => { x with unwind := v } | .rewind => { x with rewind := v }
def map (f : α → β) (x : Loops α) : Loops β := ⟨f x.feed, f x.unwind, f x.rewind⟩
def toList (x : Loops α) : List α := [x.feed, x.unwind, x.rewind]
end Loops

/-- The five action outputs (09 R154). -/
inductive Output | out0 | out1 | out2 | out3 | markout
deriving DecidableEq, Repr

/-- One value for each action output. -/
structure Outputs (α : Type) where
  out0 : α
  out1 : α
  out2 : α
  out3 : α
  markout : α
deriving DecidableEq, Repr

namespace Outputs
variable {α β : Type}
def get (x : Outputs α) : Output → α
  | .out0 => x.out0 | .out1 => x.out1 | .out2 => x.out2 | .out3 => x.out3 | .markout => x.markout
def set (x : Outputs α) (o : Output) (v : α) : Outputs α :=
  match o with
  | .out0 => { x with out0 := v } | .out1 => { x with out1 := v } | .out2 => { x with out2 := v }
  | .out3 => { x with out3 := v } | .markout => { x with markout := v }
def map (f : α → β) (x : Outputs α) : Outputs β :=
  ⟨f x.out0, f x.out1, f x.out2, f x.out3, f x.markout⟩
def toList (x : Outputs α) : List α := [x.out0, x.out1, x.out2, x.out3, x.markout]
end Outputs

end Sys2Proof
end

