-- ==== Sys2Proof/Config.lean ====
section
/-! DEFINITION. The capacities and times the manual fixes (no parameter sets them), and the two values
it leaves open, as constants with no body. -/

namespace Sys2Proof.Config

/-- Limit of every count, in ws (01 R6). -/
def countLimit : Int := 2000000000
/-- Supervision floor of v_ref, ws/s (01 R9, R10). -/
def fastFloor : Int := 1000
/-- Stall time, ms (01 R10). -/
def stallTime : Nat := 500
/-- Line maximum speed, ws/s (02 R29). -/
def lineMax : Int := 50000
/-- Consecutive invalid samples that bring HOLD (03 R45). -/
def invalidRun : Nat := 3
/-- HOLD time, ms (03 R46). -/
def holdTime : Nat := 10000
/-- Values the demand history holds at most (03 R48). -/
def demandHistory : Nat := 10
/-- Upper limit above the zone setpoint, 0.1 °C (03 R49). -/
def overBand : Int := 150
/-- Cold limit below the zone setpoint, 0.1 °C (03 R50). -/
def coldBand : Int := 300
/-- Margin beyond the ready band for the out-of-band finding, 0.1 °C (03 R51). -/
def farMargin : Int := 50
/-- Saturation of the settle timer, ms (03 R51). -/
def settleMax : Nat := 600000
/-- Cap of a firing credit, and the price of one half-cycle (03 R52). -/
def creditCap : Int := 2000
def creditUnit : Int := 1000
/-- Noise gap, band and 60 Hz boundary of the half-cycle period, 0.01 ms (03 R54, R55). -/
def noiseGap : Nat := 200
def periodLow : Nat := 750
def periodHigh : Nat := 1100
def period60 : Nat := 920
/-- Mains lost time, ms (03 R56). -/
def mainsLostTime : Nat := 25
/-- Probe list capacity and dose saturation (04 R62, R66). -/
def probeCap : Nat := 64
def doseMax : Nat := 4294967295
/-- Entries of the profile table (06 R93). -/
def profiles : Nat := 32
/-- Trim range (06 R93). -/
def trimLow : Int := 870
def trimHigh : Int := 1178
/-- Panel queue capacity, and panels with the engine at once (07 R111, R115). -/
def queueCap : Nat := 64
def engineCap : Nat := 2
/-- Head-link transmit buffer (07 R118). -/
def headCap : Nat := 8
/-- Splice list (09 R160). -/
def spliceCap : Nat := 4
/-- Transmit queue and command buffer (10 R173; 11 R179). -/
def txCap : Nat := 32
def commandCap : Nat := 4
/-- Longest body of a frame, and the longest gap inside a frame in ms (11 11.2, R178). -/
def bodyMax : Nat := 250
def gapTime : Nat := 5
/-- Start-of-frame byte (11 R178). -/
def sof : Byte := 0x5A

/-- FREE VALUE: the panel tag of a HEAD_PROTOCOL warning for a frame whose body is too short to hold
one; 07 R117 states none (notes/assumptions/11.md). -/
opaque freePanelTag : Nat → BitVec 16

/-- FREE VALUE: the direction a TRIGGER_FIRED notice carries when no count update fires or frees the
entry; 09 R154 states none (notes/assumptions/11.md). `true` stands for FORWARD. -/
opaque freeForward : Nat → Bool

end Sys2Proof.Config
end

