-- ==== Sys2Proof/Syntax.lean ====
section
/-! DEFINITION. The commands: one constructor of `Instr` for each row of spec/opcode_table.json, with the
operands its owning rule names. A host command carries its frame's TAG first; numbers that the line
computer sends are kept as the numbers sent, in range or not, because the owning rule says what a value
outside its range gives (00_scope.md 6.2). -/

namespace Sys2Proof

/-- The two serial links (00_scope.md 8). -/
inductive Link | host | head
deriving DecidableEq, Repr

/-- What an encoder channel has gathered since its last batch (01 R2, R3): ticks already counted, or the
successive level pairs of its A and B inputs, from which the tick decoder of R2 counts them. -/
inductive Ticks where
  | counted (forward reverse : Nat)
  | levels (path : List (Bool × Bool))
deriving DecidableEq, Repr

/-- A profile name in a command: an entry number, a key, or none (06 R95; 11 R182). -/
inductive ProfileName where
  | entry (n : Nat)
  | key (media ink : Nat)
  | none
deriving DecidableEq, Repr

/-- The fields PROFILE_LOAD carries beside its optional entry number (06 R97). -/
structure ProfileFields where
  media : Nat
  ink : Nat
  target : Nat
  allowUnder : Int
  allowOver : Int
  feedTension : Int
  rewindTension : Int
  trims : Six Nat
  sigma : Int
  weight : Int
deriving DecidableEq, Repr

/-- The fields TRIGGER_SET carries beside its slot number (09 R152): codes as sent. -/
structure TriggerFields where
  axis : Nat
  position : Option Int
  anchor : Option (Nat × Int)
  direction : Nat
  action : Nat
  repeated : Nat
deriving DecidableEq, Repr

/-- The fields WINDOW_SET carries beside its window number (09 R157). The effect set is one bit for each of
TENSION_HOLD, DOSE_EXCLUDE, NIP_RELIEF and SPEED_CAP; the mask is one bit for each loop. -/
structure WindowFields where
  axis : Nat
  lo : Int
  hi : Int
  effects : Nat
  mask : Nat
  cap : Int
  notify : Bool
deriving DecidableEq, Repr

/-- The commands of the block: one constructor for each row of spec/opcode_table.json. -/
inductive Instr where
  -- resets
  | powerOnReset
  | resetn
  -- events of the counting unit and the motion controller
  | tickBatch (ch : Chan) (ticks : Ticks)
  | seekDistanceReached
  | markCapture
  | spliceCapture
  | nipLimitChange (nipc nipo : Bool)
  | nipTimeout
  | nipHold
  | estop
  | estopRelease
  /-- `lc` are the converter results of LC0 (paper), LC1 (infeed) and LC2 (rewind); the two flags say
  whether the counting unit and the tension unit take the sample after the motion controller (01 R9, 05). -/
  | speedAndTensionSample (lc0 lc1 lc2 : Int) (countAfter tensionAfter : Bool)
  | encoderSilent (ch : Chan)
  | stall
  | webBreak (l : Loop)
  | overTension (l : Loop)
  | doseSample
  /-- `readings` are the converter results, `none` for the report OPEN (03 R44). -/
  | temperatureSample (readings : Six (Option Int))
  | zoneHold (z : Zone)
  | zoneSensor (z : Zone)
  | readiness
  /-- `gap` is the time since the last taken edge, in 0.01 ms (03 R54). -/
  | zeroCrossEdge (gap : Nat)
  | zoneShortfall (z : Zone)
  | mainsLost
  | pulseEnd (o : Output)
  | linkLost
  | timeDeadline (txn : Nat)
  -- link events
  | frameGapTimeout (link : Link)
  /-- `bytes` are the bytes received on RXD, without a gap. -/
  | validFrame (bytes : List Byte)
  | unknownCommand (kind tag : Byte) (body : List Byte)
  | frameSent
  | headFrameSent
  | accept (txn panel : Nat)
  | refuse (txn panel reason : Nat)
  | done (txn panel : Nat) (printed : Int)
  | fault (txn panel : Nat) (printed : Int) (reason : Nat)
  | headOtherKindFrame (kind tag : Byte) (body : List Byte)
  -- host commands
  | linkConfig (tag : Byte) (baud : Int)
  | setParam (tag : Byte) (id : Nat) (value : Int)
  | getParam (tag : Byte) (id : Nat)
  | setPosition (tag : Byte) (count : Nat) (value : Int)
  | readCounts (tag : Byte)
  | heatOn (tag : Byte) (setpoint : Int) (offsets : Six Int) (mask : Nat)
  | heatOff (tag : Byte)
  | start (tag : Byte)
  | stop (tag : Byte)
  | threadEnter (tag : Byte)
  | threadExit (tag : Byte)
  | jog (tag : Byte) (direction : Nat) (distance : Int)
  | seek (tag : Byte) (distance : Int) (condition : Nat)
  | seekStop (tag : Byte)
  | seekResume (tag : Byte)
  | readMotion (tag : Byte)
  | setDrum (tag : Byte) (setpoint : Int) (offsets : Six Int) (mask : Nat)
  | readHeat (tag : Byte) (first : Option Int)
  | readDose (tag : Byte)
  | readProbe (tag : Byte) (index : Int)
  | readTension (tag : Byte)
  | profileLoad (tag : Byte) (fields : ProfileFields) (entry : Option Nat)
  | profileFind (tag : Byte) (media ink : Nat)
  | profileRead (tag : Byte) (entry : Option Nat) (first : Option Int)
  | profileDrop (tag : Byte) (entry : Nat)
  | profilePin (tag : Byte) (count : Nat)
  | profileTrim (tag : Byte) (entry : Nat) (trims : Six Nat)
  | panelSubmit (tag : Byte) (panel : Nat) (name : ProfileName) (length : Int) (mark : Nat)
  | panelInsert (tag : Byte) (slot panel : Nat) (name : ProfileName) (length : Int) (mark : Nat)
  | panelCancel (tag : Byte) (panel : Nat)
  | dispatchEnable (tag : Byte)
  | dispatchHold (tag : Byte)
  | dispatchResume (tag : Byte)
  | dispatchOff (tag : Byte)
  | readQueue (tag : Byte) (first : Option Int)
  | readPanel (tag : Byte) (panel : Nat)
  | readMarks (tag : Byte) (first : Option Int)
  | triggerSet (tag : Byte) (slot : Nat) (fields : TriggerFields)
  | triggerArm (tag : Byte) (slot : Nat)
  | triggerClear (tag : Byte) (slot : Nat)
  | triggerRead (tag : Byte) (slot : Nat)
  | windowSet (tag : Byte) (window : Nat) (fields : WindowFields)
  | windowClear (tag : Byte) (window : Nat)
  | readWindows (tag : Byte)
  | fabricLoad (tag : Byte) (name : ProfileName)
  | spliceAhead (tag : Byte) (name : ProfileName)
  | readFabric (tag : Byte)
  | clearFault (tag : Byte)
  | readFault (tag : Byte)
  | readStatus (tag : Byte) (clear : Bool)
  | clearLine (tag : Byte)
  -- framing errors
  | lenOutOfRange (link : Link) (len : Byte)
  | headFrameBadCrc
deriving DecidableEq, Repr

end Sys2Proof
end

