-- ==== Sys2Proof/Decode.lean ====
section
/-! DEFINITION. Words of the opcode table. spec/opcode_table.json gives no row any bits (98_reader.md: no
row with "fixed", none with "fields"), so no word spells a command. The bytes of the host commands are
read and written by Sys2Proof/Machine/Frames.lean, from 11 R178 and R182. -/

namespace Sys2Proof

/-- The command a table word spells: none, since the table gives no row any bits. -/
def decodeTableWord (_nbits _w : Nat) : Option Instr := none

end Sys2Proof
end

