-- ==== Sys2Proof/Machine/State.lean ====
section
/-! DEFINITION. The state of the part, block by block (00_scope.md 3), as plain data, and the state after
power-on reset. Each structure cites the rule that lists its items; a field the rule only implies is
marked and has a row in notes/assumptions. -/

namespace Sys2Proof.Machine
open Sys2Proof

/-! ## Timers and directions -/

/-- A timer in ms: stopped, running, or standing at its limit (11 R182, the field kind Timer). -/
inductive Timer where
  | stopped
  | running (ms : Nat)
  | standing (ms : Nat)
deriving DecidableEq, Repr

/-- Direction of a channel, a move, the drive or a count update (01 R1, 02 R17). -/
inductive Dir | forward | reverse
deriving DecidableEq, Repr

/-! ## Counting unit (01) -/

/-- Input mode of an encoder channel (01 R2). -/
inductive Mode | quadrature | pulseDir | upDown | pulseOnly
deriving DecidableEq, Repr

/-- One encoder channel (01 R1). `period` is the ws moved in the period now open (R8); `levels` is the level
pair (A, B) the tick decoder holds (R2). -/
structure Channel where
  mode : Mode := .quadrature
  tpm : Int := 100000
  rem : Int := 0
  count : Int := 0
  dir : Dir := .forward
  hist : List Int := [0, 0, 0, 0, 0, 0, 0, 0, 0, 0]
  period : Int := 0
  speed : Int := 0
  silence : Timer := .stopped
  overrange : Bool := false
  levels : Bool × Bool := (false, false)
deriving DecidableEq, Repr

/-- A capture record (01 R11, R12). -/
structure Capture where
  value : Int
  dir : Dir
  at_ : Timestamp
deriving DecidableEq, Repr

/-- The counting unit (01 R1). `fast` is whether the last 10 ms sample found v_ref at the supervision floor
(R9); `lockout` is the last accepted SPLICE capture since the lockout was cleared (R12, R13). -/
structure Counting where
  chan : Channels Channel := ⟨{}, {}, {}⟩
  stall : Nat := 0
  markCap : Option Capture := none
  spliceCap : Option Capture := none
  lockout : Option Int := none
  fast : Bool := false
  clock : Timestamp := 0
deriving DecidableEq, Repr

/-! ## Motion controller (02) -/

/-- The eight line states (02 2.2). -/
inductive LineState | off | warming | ready | running | stopping | threading | halting | faulted
deriving DecidableEq, Repr

/-- The events a STATE_CHANGE notice names (02 R27). -/
inductive LineEvent
  | heatOn | readiness | outOfBand | heatOff | start | stop | nipOpened | threadEnter | threadExit
  | fault | haltComplete | clearFault
deriving DecidableEq, Repr

/-- State of the nip actuator (02 2.5). -/
inductive NipState | opened | closing | closed | opening
deriving DecidableEq, Repr

inductive SeekState | idle | moving | suspended | ended
deriving DecidableEq, Repr
inductive SeekKind | seek | jog
deriving DecidableEq, Repr
inductive SeekCond | none | mark | splice
deriving DecidableEq, Repr
inductive SeekCause | distance | condition | stopped | fault
deriving DecidableEq, Repr

/-- The seek record (02 2.7). -/
structure Seek where
  state : SeekState := .idle
  kind : SeekKind := .seek
  dir : Dir := .forward
  remaining : Int := 0
  cond : SeekCond := .none
  cause : Option SeekCause := none
  endPos : Option Int := none
  due : Bool := false
deriving DecidableEq, Repr

/-- The motion controller (02 R17). `drum` is the DRUM output (R29); `capRead` is v_dose as last read
(R39). -/
structure Motion where
  line : LineState := .off
  target : Int := 0
  vref : Int := 0
  drive : Dir := .forward
  drum : Int := 0
  nip : NipState := .opening
  nipTimer : Timer := .running 0
  hold : Timer := .stopped
  seek : Seek := {}
  capRead : Int := 50000
deriving DecidableEq, Repr

/-! ## Heat controller (03) -/

/-- Result of a temperature sample (03 R40, R44). -/
inductive Reading where
  | absent
  | opened
  | temp (t : Int)
deriving DecidableEq, Repr

inductive Sensor | normal | hold | lost
deriving DecidableEq, Repr

/-- One zone record (03 R40). -/
structure ZoneRec where
  enable : Bool := true
  offset : Int := 0
  reading : Reading := .absent
  valid : Option Bool := none
  lastValid : Int := 0
  invalid : Nat := 0
  sensor : Sensor := .normal
  hold : Timer := .stopped
  integ : Int := 0
  demand : Int := 0
  hist : List Int := []
  credit : Int := 0
  shortfall : Bool := false
  shortCount : Nat := 0
  inBand : Bool := false
  overheat : Bool := false
  cold : Bool := false
  raised : Bool := false
  ssr : Bool := false
deriving DecidableEq, Repr

inductive Freq | none | hz50 | hz60
deriving DecidableEq, Repr

/-- The heat controller (03 R41). -/
structure Heat where
  zones : Six ZoneRec := ⟨{}, {}, {}, {}, {}, {}⟩
  on : Bool := false
  setpoint : Int := 0
  pointer : Zone := .z0
  settle : Timer := .stopped
  ready : Bool := false
  freq : Freq := .none
  period : Option Nat := none
  lostTimer : Timer := .stopped
  lost : Bool := false
  excursion : Bool := false
  edgePending : Bool := false
deriving DecidableEq, Repr

/-! ## Dose unit (04) -/

/-- Zone factor of one dose sample (04 R59, R60): k after the upper clamp, and what it gives. -/
structure Factor where
  k : Int
  clamped : Bool
  uncertain : Bool
  incr : Nat
deriving DecidableEq, Repr

/-- An owner of a probe: a panel tag and whether the probe is its trailing point (04 R62). -/
structure Owner where
  tag : Nat
  final : Bool
deriving DecidableEq, Repr

/-- A probe (04 R62). -/
structure Probe where
  owners : List Owner
  entry : Int
  exit : Int
  zones : Six Bool
  dose : Six Nat := ⟨0, 0, 0, 0, 0, 0⟩
  uncertain : Bool := false
  stopped : Bool := false
  nipOpen : Bool := false
  excluded : Bool := false
deriving DecidableEq, Repr

/-- The dose unit (04 R58). -/
structure Dose where
  factors : Option (Six Factor) := none
  kMin : Option Int := none
  dMax : Option Int := none
  horizon : Option Int := none
  vDose : Int := 50000
  floorFlag : Bool := false
  probes : List Probe := []
deriving DecidableEq, Repr

/-! ## Tension unit (05) -/

inductive LoopState | off | standby | regulate | hold | fault
deriving DecidableEq, Repr
inductive LoopCause | webBreak | overTension | estop
deriving DecidableEq, Repr

/-- A loop record (05 R79). -/
structure LoopRec where
  state : LoopState := .off
  set : Option Int := none
  target : Int := 0
  work : Int := 0
  force : Int := 0
  integ : Int := 0
  out : Int := 0
  brkTimer : Nat := 0
  overTimer : Nat := 0
  cause : Option LoopCause := none
  /-- t_break, t_over and f_over as read at the latest sample: a write acts from the next one (05 R92; model's own
  items, notes/assumptions/31.md). -/
  tBreak : Int := 300
  tOver : Int := 100
  fOver : Int := 200
deriving DecidableEq, Repr

/-! ## Profile table (06) -/

/-- A profile entry (06 R93). -/
structure Entry where
  valid : Bool := false
  media : Nat := 0
  ink : Nat := 0
  target : Int := 0
  allowUnder : Int := 0
  allowOver : Int := 0
  feedTension : Int := 0
  rewindTension : Int := 0
  trims : Six Int := ⟨0, 0, 0, 0, 0, 0⟩
  sigma : Int := 0
  weight : Int := 0
  learned : Nat := 0
  refs : Nat := 0
deriving DecidableEq, Repr

/-- The profile table (06 R93). -/
structure Profiles where
  entries : List Entry := List.replicate Config.profiles {}
  pinned : Nat := 0
  pointer : Nat := 31
deriving DecidableEq, Repr

/-! ## Panel queue and dispatcher (07) -/

inductive PanelKind | normal | insert
deriving DecidableEq, Repr
inductive PanelState | queued | starting | printing | printed | spoiled | inArc | done
deriving DecidableEq, Repr
inductive Verdict | good | underDose | overDose | uncertain | spoiled | skipped | cancelled
deriving DecidableEq, Repr
inductive PrintedLen where
  | len (n : Int)
  | unknown
deriving DecidableEq, Repr
inductive EngineReason where
  | timeout
  | code (n : Nat)
deriving DecidableEq, Repr
inductive MarkResult where
  | error (e : Int)
  | missed
deriving DecidableEq, Repr

/-- The condition flags of a panel record (07 R110). -/
structure CondFlags where
  stopAffected : Bool := false
  nipOpen : Bool := false
  spliceAffected : Bool := false
  excluded : Bool := false
  sparse : Bool := false
  underspeed : Bool := false
  markMissed : Bool := false
  fabricMismatch : Bool := false
  rejectUnmarked : Bool := false
deriving DecidableEq, Repr

/-- The dose fields of a panel record (04 R63). -/
structure DoseFields where
  next : Option Int
  final : Bool
  folds : Nat := 0
  minima : Six (Option Nat) := ⟨none, none, none, none, none, none⟩
  maximum : Option Nat := none
  uncertain : Bool := false
  capHeld : Bool := false
deriving DecidableEq, Repr

/-- A panel record (07 R110). `arrived` is whether the panel has arrived at the nip (08 R145), which 09 R164
uses. -/
structure Panel where
  tag : Nat
  kind : PanelKind
  profile : Nat
  length : Int
  mark : Bool
  state : PanelState := .queued
  attempts : Nat := 0
  xs : Option Int := none
  txn : Option Nat := none
  gains : Option (Six Int) := none
  printed : Option PrintedLen := none
  reason : Option EngineReason := none
  markResult : Option MarkResult := none
  arrival : Option Int := none
  dose : Option DoseFields := none
  verdict : Option Verdict := none
  flags : CondFlags := {}
  offered : Bool := false
  arrived : Bool := false
deriving DecidableEq, Repr

/-- An insert slot (07 R111). -/
inductive Slot where
  | empty
  | armed (p : Panel)
  | cancelled (p : Panel)
deriving DecidableEq, Repr

inductive Dispatch | enabled | held | off
deriving DecidableEq, Repr

inductive Phase | awaitAccept | printing
deriving DecidableEq, Repr

/-- A live transaction (07 R111). `accTime` is the t_acc of its START (R133). -/
structure Txn where
  num : Nat
  tag : Nat
  phase : Phase
  started : Timestamp
  accTime : Int
deriving DecidableEq, Repr

/-- The panel queue and dispatcher (07 R111). `waiting` are the tags of the panels in DONE whose report
waits, the one that became DONE earliest first (R129). -/
structure PanelQueue where
  queue : List Panel := []
  slots : List Slot := [.empty, .empty, .empty, .empty]
  waiting : List Nat := []
  lastEnd : Int := 0
  dispatch : Dispatch := .off
  live : List Txn := []
  nextTxn : Nat := 1
deriving DecidableEq, Repr

/-! ## Links (07 R118, 11) -/

/-- A frame as the receive framer hands it on (11 R178). -/
structure Frame where
  kind : Byte
  tag : Byte
  body : List Byte
deriving DecidableEq, Repr

/-- The receive framer (11 R178): `got` are LEN and the bytes after it received so far, `gap` the ms since
the last byte. -/
inductive Framer where
  | hunting
  | inFrame (got : List Byte) (gap : Nat)
deriving DecidableEq, Repr

/-- A frame the part sends on the head link (07 7.5). -/
inductive HeadFrame where
  | start (txn tag : Nat) (xs length : Int) (gains : Six Int) (mark : Bool)
  | withdraw (txn tag : Nat)
deriving DecidableEq, Repr

/-- The head link (07 R118): the transmit buffer, whose first frame is the one being sent, the framer, the
speed in force and a change of it that waits for the frame being sent (R133). -/
structure HeadLink where
  buf : List HeadFrame := []
  framer : Framer := .hunting
  baud : Int := 1000000
  pendingBaud : Option Int := none
deriving DecidableEq, Repr

/-! ## Mark tracker (08) -/

inductive TrackState | unlocked | provisional | locked | holdover
deriving DecidableEq, Repr

/-- The mark tracker (08 R134). -/
structure Marks where
  state : TrackState := .unlocked
  slip : Int := 0
  high : Int := 0
  stray : Bool := false
deriving DecidableEq, Repr

/-! ## Trigger and window unit (09) -/

inductive Axis | paper | fabric
deriving DecidableEq, Repr
inductive TrigDir | forward | reverse | either
deriving DecidableEq, Repr
inductive Action where
  | pulse (o : Output)
  | notify
deriving DecidableEq, Repr
inductive Repeat | oneShot | keep
deriving DecidableEq, Repr
inductive Origin | host | panel
deriving DecidableEq, Repr

/-- An entry of the trigger table (09 R151): `anchor` is a panel tag and an offset. -/
structure Trigger where
  axis : Axis
  position : Option Int
  anchor : Option (Nat × Int)
  dir : TrigDir
  action : Action
  rep : Repeat
  armed : Bool
deriving DecidableEq, Repr

/-- A slot of the trigger table (09 R151). -/
inductive TrigSlot where
  | free
  | held (origin : Origin) (t : Trigger)
deriving DecidableEq, Repr

/-- A set range window (09 R157). -/
structure Window where
  axis : Axis
  lo : Int
  hi : Int
  hold : Option (Loops Bool)
  exclude : Bool
  relief : Bool
  cap : Option Int
  notify : Bool
  active : Bool
deriving DecidableEq, Repr

inductive SpliceState | approaching | atNip | passedNip
deriving DecidableEq, Repr

/-- A splice record (09 R160). -/
structure Splice where
  fp : Int
  next : Option Nat
  nipStart : Int
  nipEnd : Int
  rewindPoint : Int
  state : SpliceState := .approaching
  switched : Bool := false
deriving DecidableEq, Repr

/-- A pulse under way: ms elapsed and the width it was started with (09 R154, R167). -/
structure Pulse where
  elapsed : Nat
  width : Nat
deriving DecidableEq, Repr

/-- The trigger and window unit (09 R151, R157, R160, R154). An action output is high while its pulse timer
runs. -/
structure TrigUnit where
  slots : List TrigSlot := List.replicate 24 .free
  windows : List (Option Window) := List.replicate 8 none
  feed : Option Nat := none
  nip : Option Nat := none
  rewind : Option Nat := none
  announced : Option Nat := none
  splices : List Splice := []
  pulses : Outputs (Option Pulse) := ⟨none, none, none, none, none⟩
deriving DecidableEq, Repr

/-! ## Fault monitor (10) -/

/-- The critical causes, in the order of the table of 10.1. -/
inductive Cause
  | webBreak | overTension | overheat | drumCold | zoneSensor | mainsLost | nipTimeout | stall
  | encoderSilent | positionRange | spliceOverflow | linkLost | estop
deriving DecidableEq, Repr

/-- The fault latch record (10 R168). -/
structure Record where
  cause : Cause
  inst : Option Nat
  at_ : Timestamp
  line : LineState
  pp : Int
  fp : Int
  nipPanel : Option Nat
deriving DecidableEq, Repr

/-- The warnings with the data they carry, in the order of the table of 10.1. -/
inductive Warning where
  | mainsFreq (period : Nat)
  | zoneShortfall (z : Zone)
  | zoneSensor (z : Zone)
  | doseFloor (vDose : Int) (dMax : Option Int)
  | markStray (p : Int) (at_ : Timestamp)
  | markLost (slip : Int) (tag : Nat)
  | fabricMismatch (tag media : Nat) (nipMedia : Option Nat)
  | triggerFull (tag : Nat)
  | headFault (tag : Nat) (printed : Int) (reason : Nat)
  | headTimeout (tag : Nat)
  | headProtocol (kind tag : Byte) (panel : Nat)
deriving DecidableEq, Repr

inductive FireResult | fired | late | orphaned
deriving DecidableEq, Repr

/-- The notices (10 R173), with what each carries beside its timestamp. -/
inductive Notice where
  | panelReport (p : Panel)
  | stateChange (old new : LineState) (event : LineEvent)
  | faultRaised (cause : Cause) (inst : Option Nat) (asRecord : Bool) (line : LineState) (pp fp : Int)
  | warning (w : Warning)
  | triggerFired (slot : Nat) (origin : Origin) (action : Action) (position : Option Int)
      (anchor : Option Nat) (count : Int) (dir : Dir) (result : FireResult)
  | windowEdge (window : Nat) (enter : Bool) (axis : Axis) (count : Int) (dir : Dir)
  | seekEnded (kind : SeekKind) (cause : Option SeekCause) (endPos : Option Int) (remaining : Int)
      (overshoot : Option Int)
  | spliceSeen (fp : Int) (next : Option Nat) (records : Nat)
deriving DecidableEq, Repr

/-- Status codes of replies (11 R180); PERSISTS carries the cause and instance it names. -/
inductive Status where
  | ok | unknown | length | range | state | inUse | full | miss | duplicate | busy
  | persists (cause : Cause) (inst : Option Nat)
deriving DecidableEq, Repr

/-- A frame of the transmit queue (10 R173): a reply with the KIND and TAG of its command, its status, the
data after the status code and, for a taken LINK_CONFIG, the speed the link changes to when it has been
sent (11 R177); or a notice with its timestamp. -/
inductive TxFrame where
  | reply (kind tag : Byte) (status : Status) (data : List Byte) (newBaud : Option Int)
  | notice (at_ : Timestamp) (n : Notice)
deriving DecidableEq, Repr

/-- The fault monitor (10 R168, R173, R175). The transmit queue is the frame being sent and the frames that
wait; `kept` is whether a place is kept for the reply of the command being executed. -/
structure FaultMon where
  latch : Option Record := none
  further : List Cause := []
  furtherCount : Nat := 0
  current : Option TxFrame := none
  waiting : List TxFrame := []
  kept : Bool := false
  dropped : Bool := false
  link : Timer := .stopped
deriving DecidableEq, Repr

/-- The host link (11 R177 to R179). -/
structure HostLink where
  baud : Int := 115200
  framer : Framer := .hunting
  buffer : List Frame := []
deriving DecidableEq, Repr

/-! ## Parameters and inputs -/

/-- The parameters, with their defaults (the parameter tables of chapters 1 to 5 and 7 to 10). The input
modes and scales of the channels live in the channels. -/
structure Params where
  -- 01 1.12
  tSil : Int := 200
  silMask : Channels Bool := ⟨true, true, true⟩
  dSlock : Int := 5000
  -- 02 2.9
  vMax : Int := 50000
  vSet : Int := 0
  aUp : Int := 2000
  aDn : Int := 2000
  aHalt : Int := 10000
  vJog : Int := 1000
  vFloor : Int := 500
  tNip : Int := 3000
  tHold : Int := 5000
  -- 03 3.10
  kP : Int := 40
  kI : Int := 6
  mFire : Int := 6
  thAbs : Int := 2500
  bReady : Int := 30
  tSettle : Int := 30
  -- 04 4.8
  thetaRef : Int := 2000
  thetaStep : Int := 100
  arcLen : Int := 120000
  spacing : Int := 10000
  -- 05 5.9
  tPaper : Int := 0
  rSlew : Int := 20
  fStand : Int := 50
  fBreak : Int := 20
  tBreak : Int := 300
  fOver : Int := 200
  tOver : Int := 100
  loopKp : Loops Int := ⟨32, 32, 32⟩
  loopKi : Loops Int := ⟨16, 16, 16⟩
  ffUnw : Int := 0
  ffRew : Int := 0
  -- 07 7.14
  gap : Int := 2000
  lead : Int := 50000
  tAcc : Int := 200
  nRetry : Int := 2
  mDone : Int := 20000
  dMark : Int := 0
  bHead : Int := 1000000
  -- 08 8.10
  lMs : Int := 250000
  lPn : Int := 320000
  wM : Int := 500
  gain : Int := 2
  tol : Int := 2000
  -- 09 9.6
  wOut : Outputs Int := ⟨50, 50, 50, 50, 50⟩
  lFn : Int := 150000
  lFr : Int := 400000
  margin : Int := 5000
  -- 10 10.5
  tLink : Int := 2000
deriving DecidableEq, Repr

/-- The input pins whose level the part reads (00_scope.md 8). -/
structure Pins where
  estop : Bool := false
  nipc : Bool := false
  nipo : Bool := false
  zc : Bool := false
deriving DecidableEq, Repr

/-! ## The whole part -/

/-- The state of the part. `free` numbers the free values used so far and `pending` is the queue of the
commands that wait; both are the model's own. -/
structure State where
  cnt : Counting := {}
  mot : Motion := {}
  heat : Heat := {}
  dose : Dose := {}
  ten : Loops LoopRec := ⟨{}, {}, {}⟩
  prf : Profiles := {}
  pq : PanelQueue := {}
  head : HeadLink := {}
  mrk : Marks := {}
  trg : TrigUnit := {}
  flt : FaultMon := {}
  lnk : HostLink := {}
  par : Params := {}
  pins : Pins := {}
  free : Nat := 0
  pending : List Instr := []
deriving DecidableEq, Repr

/-- The part right after power-on reset, every input inactive and no command waiting: each field at the
value its rule gives (01 R1, 02 R17, 03 R40, R41, 04 R58, 05 R79, 06 R93, 07 R111, R118, 08 R134, 09 R151,
R157, R160, 10 R168, R173, R175, 11 R177). -/
def State.reset : State := {}

/-- Reasons to stop with a fault. The part has none: everything its manual calls a fault is an effect on
State (10 R169, R172), so no meaning stops with one. -/
inductive Fault
deriving DecidableEq, Repr

/-- Reasons to refuse a command. -/
inductive Refusal where
  /-- Raised by `exec` for a command that has no meaning yet (safe). No arm raises it. -/
  | notModelled (mnemonic : String)
deriving DecidableEq, Repr

end Sys2Proof.Machine
end

