-- ==== Sys2Proof/Machine/Arith.lean ====
section
/-! DEFINITION. The arithmetic words of 00_scope.md 6.3, the byte encodings of 11 R182, and an insertion
sort. -/

namespace Sys2Proof.Machine
open Sys2Proof

/-- floor of a quotient; every divisor of the manual is positive, where `Int` division rounds down. -/
def floorDiv (n d : Int) : Int := n / d

/-- trunc of a quotient, toward zero. -/
def truncDiv (n d : Int) : Int := Int.tdiv n d

/-- round of a quotient with a positive divisor: to nearest, a half away from zero. -/
def roundDiv (n d : Int) : Int :=
  if 0 ≤ n then (2 * n + d) / (2 * d) else -((-(2 * n) + d) / (2 * d))

/-- clamp of a value to the range `lo` to `hi`. -/
def clamp (lo hi v : Int) : Int := if v < lo then lo else if hi < v then hi else v

/-- An increment that saturates at a limit. -/
def satAdd (limit a b : Nat) : Nat := min limit (a + b)

/-- Is a value in a range, both ends included (00_scope.md 6.2). -/
def inRange (lo hi v : Int) : Bool := lo ≤ v && v ≤ hi

/-! ## Bytes, high byte first (11 11.2, R182) -/

/-- One byte of a number. -/
def byteOf (n : Nat) : Byte := BitVec.ofNat 8 n

def u8 (n : Nat) : List Byte := [byteOf n]
def u16 (n : Nat) : List Byte := [byteOf (n / 256), byteOf n]
def u32 (n : Nat) : List Byte :=
  [byteOf (n / 16777216), byteOf (n / 65536), byteOf (n / 256), byteOf n]

/-- Four bytes, two's complement. -/
def i32 (n : Int) : List Byte := u32 ((BitVec.ofInt 32 n).toNat)

def flag (b : Bool) : List Byte := u8 b.toNat

/-- A set, one bit for each member, bit 0 first: its value. -/
def bits : List Bool → Nat
  | [] => 0
  | b :: bs => b.toNat + 2 * bits bs

/-- A set of at most eight members in one byte, of more in two. -/
def set8 (l : List Bool) : List Byte := u8 (bits l)
def set16 (l : List Bool) : List Byte := u16 (bits l)

/-- An optional field: presence byte, then the field, sent as 0 when absent. -/
def optional {α : Type} (width : Nat) (enc : α → List Byte) : Option α → List Byte
  | some a => flag true ++ enc a
  | none => flag false ++ List.replicate width 0

/-- A value or its named alternative (`none`): selector byte 0 or 1, then the field, sent as 0 with the
alternative. -/
def orElse {α : Type} (width : Nat) (enc : α → List Byte) : Option α → List Byte
  | some a => flag false ++ enc a
  | none => flag true ++ List.replicate width 0

/-- A timer: state byte 0 running, 1 stopped, 2 standing at its limit, then the ms, 0 when stopped. -/
def timerBytes : Timer → List Byte
  | .running ms => u8 0 ++ i32 ms
  | .stopped => u8 1 ++ i32 0
  | .standing ms => u8 2 ++ i32 ms

/-- A timer that a count of ms holds: 0 is stopped, the limit is standing (notes/assumptions/14.md). -/
def timerOfCount (limit ms : Nat) : Timer :=
  if ms = 0 then .stopped else if limit ≤ ms then .standing ms else .running ms

/-! ### Reading bytes -/

/-- The unsigned number of bytes, high byte first. -/
def unsignedOf (l : List Byte) : Nat := l.foldl (fun n b => n * 256 + b.toNat) 0

/-- The `width` bytes at `at_` as an unsigned number. -/
def readU (body : List Byte) (at_ width : Nat) : Nat := unsignedOf ((body.drop at_).take width)

/-- The four bytes at `at_` as a signed number. -/
def readI (body : List Byte) (at_ : Nat) : Int := (BitVec.ofNat 32 (readU body at_ 4)).toInt

/-! ## Sorting -/

/-- Insert before the first element that `x` does not follow: equal keys keep their order. -/
def insertBy {α : Type} (key : α → Int) (x : α) : List α → List α
  | [] => [x]
  | y :: ys => if key x ≤ key y then x :: y :: ys else y :: insertBy key x ys

/-- The list in ascending key, equal keys in list order. -/
def sortBy {α : Type} (key : α → Int) (l : List α) : List α := l.foldr (insertBy key) []

/-- The first index from 0 whose element meets `p`. -/
def indexOf {α : Type} (p : α → Bool) : List α → Option Nat
  | [] => none
  | x :: xs => if p x then some 0 else (indexOf p xs).map (· + 1)

/-- Each element with its index, from `n` on. -/
def indexed {α : Type} : Nat → List α → List (Nat × α)
  | _, [] => []
  | n, x :: xs => (n, x) :: indexed (n + 1) xs

/-- The list with its element at `n` changed by `f` (the same list where there is none). -/
def modifyAt {α : Type} (f : α → α) : Nat → List α → List α
  | _, [] => []
  | 0, x :: xs => f x :: xs
  | n + 1, x :: xs => x :: modifyAt f n xs

end Sys2Proof.Machine
end

