-- ==== Sys2Proof/Machine/Operands.lean ====
section
/-! DEFINITION. Operand forms: the codes of the enumerated values, both ways (11 R182: numbered from 0 in
the order of the owning chapter's table; causes and warnings from 1). -/

namespace Sys2Proof.Machine
open Sys2Proof

/-- The zone, channel, loop or output of a number. -/
def zoneOf : Nat → Option Zone
  | 0 => some .z0 | 1 => some .z1 | 2 => some .z2 | 3 => some .z3 | 4 => some .z4 | 5 => some .z5
  | _ => none

def chanOf : Nat → Option Chan
  | 0 => some .paper | 1 => some .fabric | 2 => some .drum | _ => none

/-- The zones or channels named by the low bits of a mask (bits beyond the last member name nothing,
notes/assumptions/24.md). -/
def zonesOf (mask : Nat) : Six Bool := Six.ofZone fun z => mask.testBit z.num
def channelsOf (mask : Nat) : Channels Bool := ⟨mask.testBit 0, mask.testBit 1, mask.testBit 2⟩
def loopsOf (mask : Nat) : Loops Bool := ⟨mask.testBit 0, mask.testBit 1, mask.testBit 2⟩

def Mode.code : Mode → Nat
  | .quadrature => 0 | .pulseDir => 1 | .upDown => 2 | .pulseOnly => 3

def Mode.ofCode : Int → Option Mode
  | 0 => some .quadrature | 1 => some .pulseDir | 2 => some .upDown | 3 => some .pulseOnly | _ => none

def Dir.code : Dir → Nat
  | .forward => 0 | .reverse => 1

def Dir.ofCode : Nat → Option Dir
  | 0 => some .forward | 1 => some .reverse | _ => none

def LineState.code : LineState → Nat
  | .off => 0 | .warming => 1 | .ready => 2 | .running => 3 | .stopping => 4 | .threading => 5
  | .halting => 6 | .faulted => 7

def LineEvent.code : LineEvent → Nat
  | .heatOn => 0 | .readiness => 1 | .outOfBand => 2 | .heatOff => 3 | .start => 4 | .stop => 5
  | .nipOpened => 6 | .threadEnter => 7 | .threadExit => 8 | .fault => 9 | .haltComplete => 10
  | .clearFault => 11

def NipState.code : NipState → Nat
  | .opened => 0 | .closing => 1 | .closed => 2 | .opening => 3

def SeekState.code : SeekState → Nat
  | .idle => 0 | .moving => 1 | .suspended => 2 | .ended => 3
def SeekKind.code : SeekKind → Nat
  | .seek => 0 | .jog => 1
def SeekCond.code : SeekCond → Nat
  | .none => 0 | .mark => 1 | .splice => 2
def SeekCond.ofCode : Nat → Option SeekCond
  | 0 => some .none | 1 => some .mark | 2 => some .splice | _ => Option.none
def SeekCause.code : SeekCause → Nat
  | .distance => 0 | .condition => 1 | .stopped => 2 | .fault => 3

def Sensor.code : Sensor → Nat
  | .normal => 0 | .hold => 1 | .lost => 2
def Freq.code : Freq → Nat
  | .none => 0 | .hz50 => 1 | .hz60 => 2

def LoopState.code : LoopState → Nat
  | .off => 0 | .standby => 1 | .regulate => 2 | .hold => 3 | .fault => 4
/-- A loop's fault cause has the code of the critical cause of that name (11 R182). -/
def LoopCause.code : LoopCause → Nat
  | .webBreak => 1 | .overTension => 2 | .estop => 13

def PanelKind.code : PanelKind → Nat
  | .normal => 0 | .insert => 1
def PanelState.code : PanelState → Nat
  | .queued => 0 | .starting => 1 | .printing => 2 | .printed => 3 | .spoiled => 4 | .inArc => 5 | .done => 6
def Verdict.code : Verdict → Nat
  | .good => 0 | .underDose => 1 | .overDose => 2 | .uncertain => 3 | .spoiled => 4 | .skipped => 5
  | .cancelled => 6
/-- DESIGN CHOICE between the two orders of chapter 07: that of 7.1, ENABLED, HELD, OFF (notes/assumptions/14.md). -/
def Dispatch.code : Dispatch → Nat
  | .enabled => 0 | .held => 1 | .off => 2
def Phase.code : Phase → Nat
  | .awaitAccept => 0 | .printing => 1

/-- The mark request: 0 MARK, 1 NO_MARK (11 11.6.1). -/
def markOfCode : Nat → Option Bool
  | 0 => some true | 1 => some false | _ => none

def TrackState.code : TrackState → Nat
  | .unlocked => 0 | .provisional => 1 | .locked => 2 | .holdover => 3

def Axis.code : Axis → Nat
  | .paper => 0 | .fabric => 1
def Axis.ofCode : Nat → Option Axis
  | 0 => some .paper | 1 => some .fabric | _ => none
def TrigDir.code : TrigDir → Nat
  | .forward => 0 | .reverse => 1 | .either => 2
def TrigDir.ofCode : Nat → Option TrigDir
  | 0 => some .forward | 1 => some .reverse | 2 => some .either | _ => none
def Action.code : Action → Nat
  | .pulse .out0 => 0 | .pulse .out1 => 1 | .pulse .out2 => 2 | .pulse .out3 => 3 | .pulse .markout => 4
  | .notify => 5
def Action.ofCode : Nat → Option Action
  | 0 => some (.pulse .out0) | 1 => some (.pulse .out1) | 2 => some (.pulse .out2)
  | 3 => some (.pulse .out3) | 4 => some (.pulse .markout) | 5 => some .notify | _ => none
def Repeat.code : Repeat → Nat
  | .oneShot => 0 | .keep => 1
def Repeat.ofCode : Nat → Option Repeat
  | 0 => some .oneShot | 1 => some .keep | _ => none
/-- State of a trigger slot. DESIGN CHOICE: no table lists its three values; they are numbered in the order R151 names them,
FREE, HOST, PANEL (notes/assumptions/14.md). -/
def TrigSlot.code : TrigSlot → Nat
  | .free => 0 | .held .host _ => 1 | .held .panel _ => 2
def Origin.code : Origin → Nat
  | .host => 0 | .panel => 1
def SpliceState.code : SpliceState → Nat
  | .approaching => 0 | .atNip => 1 | .passedNip => 2
/-- Result of a firing. DESIGN CHOICE: no table lists its three values; they are numbered in the order 09 R154 names them,
FIRED, LATE, ORPHANED (notes/assumptions/14.md). -/
def FireResult.code : FireResult → Nat
  | .fired => 0 | .late => 1 | .orphaned => 2

/-- The critical causes in the order of the table of 10.1. -/
def Cause.all : List Cause :=
  [.webBreak, .overTension, .overheat, .drumCold, .zoneSensor, .mainsLost, .nipTimeout, .stall,
   .encoderSilent, .positionRange, .spliceOverflow, .linkLost, .estop]

/-- Causes are coded 1 to 13 (11 R182). -/
def Cause.code : Cause → Nat
  | .webBreak => 1 | .overTension => 2 | .overheat => 3 | .drumCold => 4 | .zoneSensor => 5
  | .mainsLost => 6 | .nipTimeout => 7 | .stall => 8 | .encoderSilent => 9 | .positionRange => 10
  | .spliceOverflow => 11 | .linkLost => 12 | .estop => 13

/-- Warnings are coded 1 to 11 (11 R182). -/
def Warning.code : Warning → Nat
  | .mainsFreq _ => 1 | .zoneShortfall _ => 2 | .zoneSensor _ => 3 | .doseFloor _ _ => 4
  | .markStray _ _ => 5 | .markLost _ _ => 6 | .fabricMismatch _ _ _ => 7 | .triggerFull _ => 8
  | .headFault _ _ _ => 9 | .headTimeout _ => 10 | .headProtocol _ _ _ => 11

/-- The seven host-link and head-link speeds (11 R177, 07 7.14). -/
def bauds : List Int := [115200, 230400, 460800, 921600, 1000000, 2000000, 3000000]

/-- Kinds of the head-link frames (11 11.5). -/
def kindStart : Byte := 0x01
def kindWithdraw : Byte := 0x02
def kindAccept : Byte := 0x81
def kindRefuse : Byte := 0x82
def kindDone : Byte := 0x83
def kindFault : Byte := 0x84

end Sys2Proof.Machine
end

