-- ==== Sys2Proof/Machine/Flags.lean ====
section
/-! DEFINITION. Conditions and views computed from the state: counts, outputs that follow the state, the
current effect set, the mark windows, the conditions of the critical causes. -/

namespace Sys2Proof.Machine
open Sys2Proof

namespace State

/-- PP, FP and DC (01 R1). -/
def pp (s : State) : Int := s.cnt.chan.paper.count
def fp (s : State) : Int := s.cnt.chan.fabric.count
def dc (s : State) : Int := s.cnt.chan.drum.count

/-- The latch holds a record; FLTn is low while it does (10 R168). -/
def latched (s : State) : Bool := s.flt.latch.isSome
def fltn (s : State) : Bool := !s.latched

/-- NIPCMD is driven while the nip is commanded closed (02 2.5). -/
def nipCmd (s : State) : Bool := s.mot.nip = .closing || s.mot.nip = .closed

/-- Level of an action output: high while its pulse timer runs (09 R154). -/
def outLevel (s : State) (o : Output) : Bool := (s.trg.pulses.get o).isSome

end State

/-! ## Line state tests -/

/-- RUNNING, STOPPING and THREADING, in which the link silence timer runs (10 R175). -/
def LineState.watched (l : LineState) : Bool := l = .running || l = .stopping || l = .threading

/-- RUNNING, STOPPING, THREADING and HALTING, in which a channel's mode and scale are kept (01 R5). -/
def LineState.moving (l : LineState) : Bool := l.watched || l = .halting

/-- The limits stand in the closed pair, in the open pair (02 R32). -/
def Pins.closedPair (p : Pins) : Bool := p.nipc && !p.nipo
def Pins.openPair (p : Pins) : Bool := p.nipo && !p.nipc

/-! ## Panels -/

/-- A panel is in the arc from its arrival until it is DONE (09 R164). -/
def Panel.inArc (p : Panel) : Bool := p.arrived && p.state ≠ .done

/-- A panel in any state but QUEUED blocks a rebase of PP and a reverse jog (01 R14, 02 R36). -/
def Panel.flying (p : Panel) : Bool := p.state ≠ .queued

def State.anyFlying (s : State) : Bool := s.pq.queue.any Panel.flying

/-- The records the insert slots hold. -/
def Slot.panel? : Slot → Option Panel
  | .empty => none | .armed p => some p | .cancelled p => some p

/-- A record of the queue or of an insert slot by its tag (07 R111: tags are unique). -/
def State.panel? (s : State) (tag : Nat) : Option Panel :=
  (s.pq.queue ++ s.pq.slots.filterMap Slot.panel?).find? (fun p => p.tag = tag)

/-- The tag is held by a record (07 R112). -/
def State.tagHeld (s : State) (tag : Nat) : Bool := (s.panel? tag).isSome

/-- A record whose dose fields are present and which is not DONE (04 R68). -/
def Panel.dosed (p : Panel) : Bool := p.dose.isSome && p.state ≠ .done

/-! ## Mark windows (08 R135, R136) -/

/-- A panel expects a mark when it asked for one, unless it is SPOILED with a printed length of 0. -/
def Panel.expectsMark (p : Panel) : Bool :=
  p.mark && !(p.state = .spoiled && p.printed = some (.len 0))

/-- PRINTING, PRINTED or SPOILED with an x_s and no arrival yet. -/
def Panel.travelling (p : Panel) : Bool :=
  p.xs.isSome && (p.state = .printing || p.state = .printed || p.state = .spoiled) && p.arrival.isNone

/-- The panel has a mark window (08 R135). -/
def Panel.hasWindow (p : Panel) : Bool := p.travelling && p.expectsMark && p.markResult.isNone

/-- Centre of the window of a panel placed at `xs` (08 R136). -/
def State.markCentre (s : State) (xs : Int) : Int :=
  xs + s.par.lMs + roundDiv (s.par.lMs * s.mrk.slip) 1000000

/-- Arrival of a panel whose mark is not seen (08 R140, R141). -/
def State.slipArrival (s : State) (xs : Int) : Int :=
  xs + s.par.lPn + roundDiv (s.par.lPn * s.mrk.slip) 1000000

/-! ## The current effect set (09 R159) -/

structure Effects where
  hold : Loops Bool
  exclude : Bool
  relief : Bool
  cap : Option Int
deriving DecidableEq, Repr

def TrigUnit.active (u : TrigUnit) : List Window := (u.windows.filterMap id).filter Window.active

def TrigUnit.spliceAtNip (u : TrigUnit) : Bool := u.splices.any fun r => r.state = .atNip

def Window.holds (w : Window) (l : Loop) : Bool :=
  match w.hold with
  | some m => m.get l
  | none => false

/-- The lesser of two optional caps. -/
def minCap : Option Int → Option Int → Option Int
  | none, c => c
  | c, none => c
  | some a, some b => some (min a b)

/-- The effect set the windows and the splice records give (09 R159). -/
def TrigUnit.effects (u : TrigUnit) : Effects where
  hold := ⟨u.active.any (·.holds .feed) || u.spliceAtNip, u.active.any (·.holds .unwind),
    u.active.any (·.holds .rewind)⟩
  exclude := u.active.any Window.exclude
  relief := u.active.any Window.relief || u.spliceAtNip
  cap := u.active.foldl (fun c w => minCap c w.cap) none

/-- The NIPREL output (02 R34). -/
def State.nipRel (s : State) : Bool := s.trg.effects.relief

/-! ## Heat -/

/-- The zone setpoint: the drum setpoint plus the zone's offset (03 R40). -/
def Heat.zoneSet (h : Heat) (z : Zone) : Int := h.setpoint + (h.zones.get z).offset

/-- The enable mask in force. -/
def Heat.enables (h : Heat) : Six Bool := h.zones.map ZoneRec.enable

/-! ## Profile references -/

/-- The entry of a number, if there is one (06 R93). -/
def Profiles.get? (t : Profiles) (n : Nat) : Option Entry := t.entries[n]?

/-- The entry a holder names; the holder's reference keeps it valid (06 R105). -/
def Profiles.entry (t : Profiles) (n : Nat) : Entry := (t.get? n).getD {}

/-! ## Transmit queue places (10 R173) -/

/-- Places taken: the frame being sent, the frames that wait, and a kept place. -/
def FaultMon.used (f : FaultMon) : Nat := f.current.isSome.toNat + f.waiting.length + f.kept.toNat

/-- A free place exists. -/
def FaultMon.room (f : FaultMon) : Bool := f.used < Config.txCap

/-! ## Conditions of the critical causes (10 10.1) -/

/-- The drum lags (01 R10). -/
def lags (vref drumSpeed : Int) : Bool := Config.fastFloor ≤ vref && 2 * |drumSpeed| < vref

/-- The OVER_TENSION condition of a loop (05 R88). -/
def overPersists (l : LoopRec) : Bool :=
  match l.set with
  | some s => l.state = .fault && l.cause = some .overTension && floorDiv (s * l.fOver) 100 < l.force
  | none => false

def Timer.isStanding : Timer → Bool
  | .standing _ => true
  | _ => false

def Timer.isRunning : Timer → Bool
  | .running _ => true
  | _ => false

/-- The ENCODER_SILENT condition of a channel (01 R9). -/
def silentPersists (vref : Int) (c : Channel) : Bool := c.silence.isStanding && Config.fastFloor ≤ vref

/-- The first instance of a list for which a condition holds. -/
def firstWhere {α : Type} (p : α → Bool) (num : α → Nat) (l : List α) : Option (Option Nat) :=
  (l.find? p).map fun a => some (num a)

/-- The condition that persists of a cause: `none` where it does not hold, else the lowest-numbered
instance for which it holds, or no instance for a cause without one (10 10.1, R170). -/
def State.persists (s : State) : Cause → Option (Option Nat)
  | .webBreak => none
  | .overTension => firstWhere (fun l => overPersists (s.ten.get l)) Loop.num Loop.all
  | .overheat => firstWhere (fun z => (s.heat.zones.get z).overheat) Zone.num Zone.all
  | .drumCold => firstWhere (fun z => (s.heat.zones.get z).cold) Zone.num Zone.all
  | .zoneSensor => firstWhere (fun z => (s.heat.zones.get z).sensor = .lost) Zone.num Zone.all
  | .mainsLost => if s.heat.lost then some none else none
  | .nipTimeout => if s.mot.nipTimer.isStanding then some none else none
  | .stall => if lags s.mot.vref s.cnt.chan.drum.speed then some (some 2) else none
  | .encoderSilent =>
      firstWhere (fun c => silentPersists s.mot.vref (s.cnt.chan.get c)) Chan.num [.paper, .fabric, .drum]
  | .positionRange =>
      firstWhere (fun c => (s.cnt.chan.get c).overrange) Chan.num [.paper, .fabric]
  | .spliceOverflow => none
  | .linkLost => none
  | .estop => if s.pins.estop then some none else none

/-- The panel whose paper lies at the nip (10 R168). DESIGN CHOICE: of two panels with the same greatest A, the first in
queue order (notes/assumptions/6.md). -/
def State.nipPanel (s : State) : Option Nat :=
  let at_ := s.pq.queue.filter fun p =>
    match p.arrival with
    | some a => a ≤ s.pp && s.pp < a + p.length
    | none => false
  match sortBy (fun p => -(p.arrival.getD 0)) at_ with
  | [] => none
  | p :: _ => some p.tag

end Sys2Proof.Machine
end

