-- ==== Sys2Proof/Machine/Encode.lean ====
section
/-! DEFINITION. Frames on the wire: the CRC and the frame form (11 R178), the bodies of notices and replies
(11 R181, R182, 11.6.2) and of the head-link frames (11 11.6.1). -/

namespace Sys2Proof.Machine
open Sys2Proof

/-! ## The frame (11 R178) -/

/-- One bit of the CRC-16 of polynomial 0x1021, most significant bit first. -/
def crcBit (c : BitVec 16) : BitVec 16 := if c.msb then (c <<< 1) ^^^ 0x1021 else c <<< 1

def crcByte (c : BitVec 16) (b : Byte) : BitVec 16 :=
  Nat.repeat crcBit 8 (c ^^^ ((b.zeroExtend 16) <<< 8))

/-- CRC-16, initial value 0xFFFF, no final inversion. -/
def crc (l : List Byte) : BitVec 16 := l.foldl crcByte 0xFFFF

/-- LEN, KIND, TAG and BODY, the bytes the CRC is taken over. -/
def Frame.core (f : Frame) : List Byte := byteOf (f.body.length + 2) :: f.kind :: f.tag :: f.body

/-- The bytes of a frame on a link. -/
def Frame.wire (f : Frame) : List Byte := Config.sof :: (f.core ++ u16 (crc f.core).toNat)

/-! ## Notices (11 R181, R182) -/

def dirBytes (d : Dir) : List Byte := u8 d.code

/-- 0xFF stands for a cause without an instance (11 R180, 11.6.3). -/
def instByte (i : Option Nat) : List Byte := u8 (i.getD 255)

def CondFlags.members (f : CondFlags) : List Bool :=
  [f.stopAffected, f.nipOpen, f.spliceAffected, f.excluded, f.sparse, f.underspeed, f.markMissed,
   f.fabricMismatch, f.rejectUnmarked]

/-- Engine reason: 0 absent, 1 to 255 the engine's code, 256 TIMEOUT (11 11.6.2). -/
def reasonCode : Option EngineReason → Nat
  | none => 0 | some (.code n) => n | some .timeout => 256

def printedValue : Option PrintedLen → Int
  | some (.len n) => n | some .unknown => -1 | none => 0

def markError : Option MarkResult → Int
  | some (.error e) => e | _ => 0

def sixBytes {α : Type} (enc : α → List Byte) (x : Six α) : List Byte := x.toList.flatMap enc

/-- PANEL_REPORT after its timestamp (11 11.6.2). -/
def reportBytes (p : Panel) : List Byte :=
  u16 p.tag ++ u8 p.kind.code ++ u8 p.profile ++ i32 p.length
    ++ u8 ((p.verdict.map Verdict.code).getD 0) ++ u8 p.attempts ++ u16 (reasonCode p.reason)
    ++ set8 [p.xs.isSome, p.printed.isSome, p.markResult.isSome, p.markResult = some .missed,
         p.arrival.isSome, p.dose.isSome, (p.dose.bind DoseFields.maximum).isSome]
    ++ set8 (((p.dose.map DoseFields.minima).getD ⟨none, none, none, none, none, none⟩).toList.map
         Option.isSome)
    ++ i32 (p.xs.getD 0) ++ i32 (printedValue p.printed) ++ i32 (markError p.markResult)
    ++ i32 (p.arrival.getD 0) ++ u16 ((p.dose.map DoseFields.folds).getD 0)
    ++ sixBytes (fun m => u32 (m.getD 0))
         ((p.dose.map DoseFields.minima).getD ⟨none, none, none, none, none, none⟩)
    ++ u32 ((p.dose.bind DoseFields.maximum).getD 0)
    ++ set16 (p.flags.members ++ [p.offered])

/-- The data a warning carries after its code (10 10.1). DESIGN CHOICE: the kind and the tag of the frame HEAD_PROTOCOL
speaks of have one byte each, as in that frame; the printed length of HEAD_FAULT, never UNKNOWN there, has a selector
byte all the same, and its reason four bytes; the NIP pointer's media code of FABRIC_MISMATCH, or none, has a selector
byte (notes/assumptions/14.md). -/
def warningData : Warning → List Byte
  | .mainsFreq period => i32 period
  | .zoneShortfall z | .zoneSensor z => u8 z.num
  | .doseFloor v d => i32 v ++ orElse 4 (fun n => u32 n.toNat) d
  | .markStray p t => i32 p ++ u32 t.toNat
  | .markLost slip tag => i32 slip ++ u16 tag
  | .fabricMismatch tag media nip => u16 tag ++ u16 media ++ orElse 2 u16 nip
  | .triggerFull tag => u16 tag
  | .headFault tag printed reason => u16 tag ++ orElse 4 i32 (some printed) ++ i32 reason
  | .headTimeout tag => u16 tag
  | .headProtocol kind tag panel => [kind, tag] ++ u16 panel

/-- KIND of a notice (11 11.5). -/
def Notice.kind : Notice → Byte
  | .panelReport _ => 0xE0 | .stateChange _ _ _ => 0xE1 | .faultRaised _ _ _ _ _ _ => 0xE2
  | .warning _ => 0xE3 | .triggerFired _ _ _ _ _ _ _ _ => 0xE4 | .windowEdge _ _ _ _ _ => 0xE5
  | .seekEnded _ _ _ _ _ => 0xE6 | .spliceSeen _ _ _ => 0xE7

/-- Contents of a notice after its timestamp. DESIGN CHOICE: SEEK_ENDED of a SUSPENDED move has its end position and its
overshoot as absent optional fields (notes/assumptions/14.md). -/
def Notice.data : Notice → List Byte
  | .panelReport p => reportBytes p
  | .stateChange old new event => u8 old.code ++ u8 new.code ++ u8 event.code
  | .faultRaised cause inst asRecord line pp fp =>
      u8 cause.code ++ optional 1 u8 inst ++ u8 (!asRecord).toNat ++ u8 line.code ++ i32 pp ++ i32 fp
  | .warning w => u8 w.code ++ warningData w
  | .triggerFired slot origin action position anchor count dir result =>
      u8 slot ++ u8 origin.code ++ u8 action.code ++ optional 4 i32 position ++ optional 2 u16 anchor
        ++ i32 count ++ dirBytes dir ++ u8 result.code
  | .windowEdge window enter axis count dir =>
      u8 window ++ u8 (!enter).toNat ++ u8 axis.code ++ i32 count ++ dirBytes dir
  | .seekEnded kind cause endPos remaining overshoot =>
      u8 kind.code ++ u8 ((cause.map SeekCause.code).getD 0) ++ optional 4 i32 endPos
        ++ i32 remaining ++ optional 4 i32 overshoot
  | .spliceSeen fp next records => i32 fp ++ orElse 1 u8 next ++ u8 records

/-! ## Replies and whole frames (11 R180, R181) -/

/-- The status code of a reply; after PERSISTS the cause and instance follow (11 R180). -/
def Status.bytes : Status → List Byte
  | .ok => [0x00] | .unknown => [0x01] | .length => [0x02] | .range => [0x03] | .state => [0x04]
  | .inUse => [0x05] | .full => [0x06] | .miss => [0x07] | .duplicate => [0x08] | .busy => [0x09]
  | .persists cause inst => [0x0A] ++ u8 cause.code ++ instByte inst

/-- A frame of the transmit queue as it goes out on TXD (11 R181): a reply has the KIND of its command plus
0x80 and its TAG, a notice has TAG 0 and begins with its timestamp. -/
def TxFrame.frame : TxFrame → Frame
  | .reply kind tag status data _ => ⟨kind + 0x80, tag, status.bytes ++ data⟩
  | .notice at_ n => ⟨n.kind, 0, u32 at_.toNat ++ n.data⟩

def TxFrame.isReply : TxFrame → Bool
  | .reply _ _ _ _ _ => true
  | .notice _ _ => false

/-- A head-link frame as it goes out on HTXD (07 7.5, 11 11.6.1). -/
def HeadFrame.frame : HeadFrame → Frame
  | .start txn tag xs length gains mark =>
      ⟨kindStart, byteOf txn,
        u16 tag ++ i32 xs ++ i32 length ++ sixBytes (fun g => u16 g.toNat) gains ++ u8 (!mark).toNat⟩
  | .withdraw txn tag => ⟨kindWithdraw, byteOf txn, u16 tag⟩

end Sys2Proof.Machine
end

