-- ==== Sys2Proof/Machine/Update.lean ====
section
/-! DEFINITION. One update per block: `s.upX f` is `s` with the block X changed by `f` and everything else
kept. Their frame lemmas are in Sys2Proof/Laws/State.lean. -/

namespace Sys2Proof.Machine.State
open Sys2Proof

def upCnt (s : State) (f : Counting → Counting) : State := { s with cnt := f s.cnt }
def upMot (s : State) (f : Motion → Motion) : State := { s with mot := f s.mot }
def upHeat (s : State) (f : Heat → Heat) : State := { s with heat := f s.heat }
def upDose (s : State) (f : Dose → Dose) : State := { s with dose := f s.dose }
def upTen (s : State) (f : Loops LoopRec → Loops LoopRec) : State := { s with ten := f s.ten }
def upPrf (s : State) (f : Profiles → Profiles) : State := { s with prf := f s.prf }
def upPq (s : State) (f : PanelQueue → PanelQueue) : State := { s with pq := f s.pq }
def upHead (s : State) (f : HeadLink → HeadLink) : State := { s with head := f s.head }
def upMrk (s : State) (f : Marks → Marks) : State := { s with mrk := f s.mrk }
def upTrg (s : State) (f : TrigUnit → TrigUnit) : State := { s with trg := f s.trg }
def upFlt (s : State) (f : FaultMon → FaultMon) : State := { s with flt := f s.flt }
def upLnk (s : State) (f : HostLink → HostLink) : State := { s with lnk := f s.lnk }
def upPar (s : State) (f : Params → Params) : State := { s with par := f s.par }
def upPins (s : State) (f : Pins → Pins) : State := { s with pins := f s.pins }

end Sys2Proof.Machine.State
end

