-- ==== Sys2Proof/Machine/Ops.lean ====
section
/-! DEFINITION. Operations shared by many commands: notices and replies, free values, references to
profiles, the change of line state, the nip actuator and the head-link transmit buffer. -/

namespace Sys2Proof.Machine
open Sys2Proof

/-! ## Transmit queue (10 R173) -/

/-- Put a frame into the queue; an idle TXD begins to send it at once. -/
def FaultMon.place (f : FaultMon) (x : TxFrame) : FaultMon :=
  match f.current with
  | none => { f with current := some x }
  | some _ => { f with waiting := f.waiting ++ [x] }

/-- A notice other than PANEL_REPORT: placed when a free place exists, else dropped with the
notices-dropped flag set (10 R173). -/
def notice (n : Notice) (s : State) : State :=
  if s.flt.room then s.upFlt fun f => f.place (.notice s.cnt.clock n)
  else s.upFlt fun f => { f with dropped := true }

/-- A warning is placed as a WARNING notice (10 R172). -/
def warn (w : Warning) (s : State) : State := notice (.warning w) s

/-- The frame TXD begins next: the oldest reply, or with no reply waiting the oldest notice (10 R173). -/
def nextFrame : List TxFrame → Option TxFrame
  | [] => none
  | x :: xs => some (((x :: xs).find? TxFrame.isReply).getD x)

/-- Begin the next frame when TXD is idle. -/
def FaultMon.begin_ (f : FaultMon) : FaultMon :=
  match f.current, nextFrame f.waiting with
  | none, some x => { f with current := some x, waiting := f.waiting.erase x }
  | _, _ => f

/-! ## Free values -/

/-- The direction a TRIGGER_FIRED notice carries: that of the update, or a free value where no update fires
the entry (notes/assumptions/11.md). -/
def noticeDir (d : Option Dir) (s : State) : Dir × State :=
  match d with
  | some d => (d, s)
  | none => (if Config.freeForward s.free then .forward else .reverse, { s with free := s.free + 1 })

/-- The panel tag a HEAD_PROTOCOL warning carries: the first two bytes of the body, or a free value where
the body is shorter (notes/assumptions/11.md). -/
def bodyPanelTag (body : List Byte) (s : State) : Nat × State :=
  if 2 ≤ body.length then (readU body 0 2, s)
  else ((Config.freePanelTag s.free).toNat, { s with free := s.free + 1 })

/-! ## References (06 R105) -/

def takeRef (n : Nat) (s : State) : State :=
  s.upPrf fun t => { t with entries := modifyAt (fun e => { e with refs := e.refs + 1 }) n t.entries }

def dropRef (n : Nat) (s : State) : State :=
  s.upPrf fun t => { t with entries := modifyAt (fun e => { e with refs := e.refs - 1 }) n t.entries }

def takeRef? (n : Option Nat) (s : State) : State :=
  match n with
  | some n => takeRef n s
  | none => s

def dropRef? (n : Option Nat) (s : State) : State :=
  match n with
  | some n => dropRef n s
  | none => s

/-- The three fabric pointers (09 R160). -/
inductive Pointer | feed | nip | rewind
deriving DecidableEq, Repr

def TrigUnit.pointer (u : TrigUnit) : Pointer → Option Nat
  | .feed => u.feed | .nip => u.nip | .rewind => u.rewind

def TrigUnit.setPointer (u : TrigUnit) (p : Pointer) (n : Option Nat) : TrigUnit :=
  match p with
  | .feed => { u with feed := n } | .nip => { u with nip := n } | .rewind => { u with rewind := n }

/-- Set a fabric pointer to an entry or to none: the old reference is dropped and the new one taken
(06 R105, 09 R160). -/
def setPointer (p : Pointer) (n : Option Nat) (s : State) : State :=
  (takeRef? n (dropRef? (s.trg.pointer p) s)).upTrg fun u => u.setPointer p n

/-! ## Line state (02 R27, 10 R175) -/

/-- The link silence timer at a change of line state (10 R175). -/
def linkTimerAt (tLink : Int) (old new : LineState) (t : Timer) : Timer :=
  if new.watched then
    if old.watched then t else if tLink = 0 then .stopped else .running 0
  else .stopped

/-- Change the line state and report it (02 R27); nothing where the line is in it already. -/
def setLine (new : LineState) (event : LineEvent) (s : State) : State :=
  if s.mot.line = new then s
  else
    notice (.stateChange s.mot.line new event)
      ((s.upFlt fun f => { f with link := linkTimerAt s.par.tLink s.mot.line new f.link }).upMot
        fun m => { m with line := new })

/-! ## Nip (02 R31, R32, R22) -/

/-- The travel is confirmed: OPENING becomes OPEN, and a STOPPING line goes to READY (02 R22, R32). -/
def nipOpened (s : State) : State :=
  let s := s.upMot fun m => { m with nip := .opened, nipTimer := .stopped }
  if s.mot.line = .stopping then setLine .ready .nipOpened s else s

/-- A command to open the nip (02 R31); limits that stand in the pair confirm it at once (R32). -/
def nipOpen (s : State) : State :=
  if s.mot.nip = .opened || s.mot.nip = .opening then s
  else
    let s := s.upMot fun m => { m with nip := .opening, nipTimer := .running 0 }
    if s.pins.openPair then nipOpened s else s

/-- A command to close the nip (02 R31); limits that stand in the pair confirm it at once (R32). -/
def nipClose (s : State) : State :=
  if s.mot.nip = .closed || s.mot.nip = .closing then s
  else if s.pins.closedPair then s.upMot fun m => { m with nip := .closed, nipTimer := .stopped }
  else s.upMot fun m => { m with nip := .closing, nipTimer := .running 0 }

/-- The hold timer starts from 0; with t_hold of 0 the nip is commanded open at once (02 R22). -/
def startHold (s : State) : State :=
  if s.par.tHold = 0 then nipOpen s else s.upMot fun m => { m with hold := .running 0 }

/-- The hold timer reaches t_hold: the nip is commanded open and the timer stops (02 R33). -/
def holdEnds (s : State) : State := nipOpen (s.upMot fun m => { m with hold := .stopped })

/-! ## Head-link transmit buffer (07 R118) -/

/-- Place WITHDRAW, or raise HEAD_PROTOCOL where the buffer is full (07 R118). -/
def withdraw (txn tag : Nat) (s : State) : State :=
  if s.head.buf.length < Config.headCap then
    s.upHead fun h => { h with buf := h.buf ++ [.withdraw txn tag] }
  else warn (.headProtocol kindWithdraw (byteOf txn) tag) s

/-! ## Suspending a move (02 R24, R37) -/

/-- A MOVING move is suspended with a cause, and its notice becomes due (02 R37). -/
def Seek.suspend (k : Seek) (c : SeekCause) : Seek :=
  if k.state = .moving then { k with state := .suspended, cause := some c, due := true } else k

/-- A MOVING move ends with a cause and an end position, and its notice becomes due (02 R37). -/
def Seek.finish (k : Seek) (c : SeekCause) (p : Int) : Seek :=
  { k with state := .ended, cause := some c, endPos := some p, due := true }

end Sys2Proof.Machine
end

