-- ==== Sys2Proof/Machine/Frames.lean ====
section
/-! DEFINITION. The host link: the receive framer (11 R178), the command buffer (R179), the reading and
writing of command frames (R180, R182, 11.5), and the execution of one command with its reply. -/

namespace Sys2Proof.Machine
open Sys2Proof

/-! ## The receive framer (11 R178) -/

/-- A collected frame (LEN, KIND, TAG, BODY, CRC): the frame where the CRC is right, else none. -/
def checkFrame (got : List Byte) : Option Frame :=
  match got with
  | len :: kind :: tag :: rest =>
      let f : Frame := ⟨kind, tag, rest.take (len.toNat - 2)⟩
      if got = f.core ++ u16 (crc f.core).toNat then some f else none
  | _ => none

/-- The framer takes one byte: its new state and the valid frame the byte completes. -/
def Framer.feed (r : Framer) (b : Byte) : Framer × Option Frame :=
  match r with
  | .hunting => (if b = Config.sof then .inFrame [] 0 else .hunting, none)
  | .inFrame [] _ => (if b.toNat < 2 || 252 < b.toNat then .hunting else .inFrame [b] 0, none)
  | .inFrame (len :: got) _ =>
      let all := len :: got ++ [b]
      if all.length < len.toNat + 3 then (.inFrame all 0, none) else (.hunting, checkFrame all)

/-- The framer takes a run of bytes: its new state and the valid frames completed, in order. -/
def Framer.feedAll (r : Framer) : List Byte → Framer × List Frame
  | [] => (r, [])
  | b :: bs =>
      let (r, f) := r.feed b
      let (r, fs) := Framer.feedAll r bs
      (r, f.toList ++ fs)

/-! ## A valid frame on RXD (11 R178, R179, 10 R175) -/

/-- The link silence timer at a valid frame (10 R175). -/
def linkTimerRestart (line : LineState) : Timer → Timer
  | .running _ => .running 0
  | .standing ms => if line.watched then .running 0 else .standing ms
  | .stopped => .stopped

/-- A valid frame restarts the link silence timer (10 R175). -/
def restartLink (s : State) : State :=
  s.upFlt fun f => { f with link := linkTimerRestart s.mot.line f.link }

/-- A KIND of 0x00 or of 0x60 or above is discarded without a reply (11 R178). -/
def Frame.isCommand (f : Frame) : Bool := f.kind ≠ 0 && f.kind.toNat < 0x60

/-- Hand a frame to the command buffer, which discards it when it holds four (11 R179). -/
def bufferFrame (f : Frame) (s : State) : State :=
  if s.lnk.buffer.length < Config.commandCap then s.upLnk fun l => { l with buffer := l.buffer ++ [f] }
  else s

/-! ## Writing a command frame (11 R182, 11.5) -/

def nameBytes : ProfileName → List Byte
  | .entry n => u8 0 ++ u8 n ++ u16 0 ++ u8 0
  | .key media ink => u8 1 ++ u8 0 ++ u16 media ++ u8 ink
  | .none => u8 2 ++ u8 0 ++ u16 0 ++ u8 0

def drumBytes (setpoint : Int) (offsets : Six Int) (mask : Nat) : List Byte :=
  i32 setpoint ++ sixBytes i32 offsets ++ u8 mask

def panelBytes (panel : Nat) (name : ProfileName) (length : Int) (mark : Nat) : List Byte :=
  u16 panel ++ nameBytes name ++ i32 length ++ u8 mark

/-- KIND, TAG and BODY of a host command; none for the other commands. DESIGN CHOICE: WINDOW_SET holds the mask and the
cap whatever its effects (notes/assumptions/14.md). -/
def commandFrame : Instr → Option Frame
  | .linkConfig tag baud => some ⟨0x01, tag, i32 baud⟩
  | .setParam tag id value => some ⟨0x02, tag, u16 id ++ i32 value⟩
  | .getParam tag id => some ⟨0x03, tag, u16 id⟩
  | .setPosition tag count value => some ⟨0x08, tag, u8 count ++ i32 value⟩
  | .readCounts tag => some ⟨0x09, tag, []⟩
  | .heatOn tag setpoint offsets mask => some ⟨0x10, tag, drumBytes setpoint offsets mask⟩
  | .heatOff tag => some ⟨0x11, tag, []⟩
  | .start tag => some ⟨0x12, tag, []⟩
  | .stop tag => some ⟨0x13, tag, []⟩
  | .threadEnter tag => some ⟨0x14, tag, []⟩
  | .threadExit tag => some ⟨0x15, tag, []⟩
  | .jog tag direction distance => some ⟨0x16, tag, u8 direction ++ i32 distance⟩
  | .seek tag distance condition => some ⟨0x17, tag, i32 distance ++ u8 condition⟩
  | .seekStop tag => some ⟨0x18, tag, []⟩
  | .seekResume tag => some ⟨0x19, tag, []⟩
  | .readMotion tag => some ⟨0x1A, tag, []⟩
  | .setDrum tag setpoint offsets mask => some ⟨0x20, tag, drumBytes setpoint offsets mask⟩
  | .readHeat tag first => some ⟨0x21, tag, optional 4 i32 first⟩
  | .readDose tag => some ⟨0x24, tag, []⟩
  | .readProbe tag index => some ⟨0x25, tag, i32 index⟩
  | .readTension tag => some ⟨0x28, tag, []⟩
  | .profileLoad tag f entry => some ⟨0x30, tag,
      u16 f.media ++ u8 f.ink ++ u32 f.target ++ i32 f.allowUnder ++ i32 f.allowOver ++ i32 f.feedTension
        ++ i32 f.rewindTension ++ sixBytes u16 f.trims ++ i32 f.sigma ++ i32 f.weight
        ++ optional 1 u8 entry⟩
  | .profileFind tag media ink => some ⟨0x31, tag, u16 media ++ u8 ink⟩
  | .profileRead tag entry first => some ⟨0x32, tag, optional 1 u8 entry ++ optional 4 i32 first⟩
  | .profileDrop tag entry => some ⟨0x33, tag, u8 entry⟩
  | .profilePin tag count => some ⟨0x34, tag, u8 count⟩
  | .profileTrim tag entry trims => some ⟨0x35, tag, u8 entry ++ sixBytes u16 trims⟩
  | .panelSubmit tag panel name length mark => some ⟨0x38, tag, panelBytes panel name length mark⟩
  | .panelInsert tag slot panel name length mark =>
      some ⟨0x39, tag, u8 slot ++ panelBytes panel name length mark⟩
  | .panelCancel tag panel => some ⟨0x3A, tag, u16 panel⟩
  | .dispatchEnable tag => some ⟨0x3B, tag, []⟩
  | .dispatchHold tag => some ⟨0x3C, tag, []⟩
  | .dispatchResume tag => some ⟨0x3D, tag, []⟩
  | .dispatchOff tag => some ⟨0x3E, tag, []⟩
  | .readQueue tag first => some ⟨0x3F, tag, optional 4 i32 first⟩
  | .readPanel tag panel => some ⟨0x40, tag, u16 panel⟩
  | .readMarks tag first => some ⟨0x44, tag, optional 4 i32 first⟩
  | .triggerSet tag slot f => some ⟨0x48, tag,
      u8 slot ++ u8 f.axis ++ optional 4 i32 f.position ++ optional 6 (fun a => u16 a.1 ++ i32 a.2) f.anchor
        ++ u8 f.direction ++ u8 f.action ++ u8 f.repeated⟩
  | .triggerArm tag slot => some ⟨0x49, tag, u8 slot⟩
  | .triggerClear tag slot => some ⟨0x4A, tag, u8 slot⟩
  | .triggerRead tag slot => some ⟨0x4B, tag, u8 slot⟩
  | .windowSet tag window f => some ⟨0x4C, tag,
      u8 window ++ u8 f.axis ++ i32 f.lo ++ i32 f.hi ++ u8 f.effects ++ u8 f.mask ++ i32 f.cap
        ++ flag f.notify⟩
  | .windowClear tag window => some ⟨0x4D, tag, u8 window⟩
  | .readWindows tag => some ⟨0x4E, tag, []⟩
  | .fabricLoad tag name => some ⟨0x4F, tag, nameBytes name⟩
  | .spliceAhead tag name => some ⟨0x50, tag, nameBytes name⟩
  | .readFabric tag => some ⟨0x51, tag, []⟩
  | .clearFault tag => some ⟨0x58, tag, []⟩
  | .readFault tag => some ⟨0x59, tag, []⟩
  | .readStatus tag clear => some ⟨0x5A, tag, flag clear⟩
  | .clearLine tag => some ⟨0x5B, tag, []⟩
  | .powerOnReset | .resetn | .tickBatch _ _ | .seekDistanceReached | .markCapture | .spliceCapture
  | .nipLimitChange _ _ | .nipTimeout | .nipHold | .estop | .estopRelease
  | .speedAndTensionSample _ _ _ _ _ | .encoderSilent _ | .stall | .webBreak _ | .overTension _
  | .doseSample | .temperatureSample _ | .zoneHold _ | .zoneSensor _ | .readiness | .zeroCrossEdge _
  | .zoneShortfall _ | .mainsLost | .pulseEnd _ | .linkLost | .timeDeadline _ | .frameGapTimeout _
  | .validFrame _ | .unknownCommand _ _ _ | .frameSent | .headFrameSent | .accept _ _ | .refuse _ _ _
  | .done _ _ _ | .fault _ _ _ _ | .headOtherKindFrame _ _ _ | .lenOutOfRange _ _
  | .headFrameBadCrc => none

/-! ## Reading a command frame (11 R180, R182) -/

/-- What the checks of 11 R180 find in a frame: a KIND that is not in the index, a body of the wrong length
or with a bad presence or selector byte, or a command. -/
inductive FrameReading where
  | unknown
  | badLength
  | command (c : Instr)
deriving DecidableEq, Repr

/-- A presence byte and the field after it: `none` for a presence byte other than 0 and 1. -/
def readOptional {α : Type} (body : List Byte) (at_ : Nat) (field : α) : Option (Option α) :=
  match readU body at_ 1 with
  | 0 => some none
  | 1 => some (some field)
  | _ => none

/-- A profile name (11 R182): `none` for a selector byte above 2. -/
def readName (body : List Byte) (at_ : Nat) : Option ProfileName :=
  match readU body at_ 1 with
  | 0 => some (.entry (readU body (at_ + 1) 1))
  | 1 => some (.key (readU body (at_ + 2) 2) (readU body (at_ + 4) 1))
  | 2 => some .none
  | _ => none

def readSix {α : Type} (f : Nat → α) (at_ width : Nat) : Six α :=
  ⟨f at_, f (at_ + width), f (at_ + 2 * width), f (at_ + 3 * width), f (at_ + 4 * width),
    f (at_ + 5 * width)⟩

def readFields (b : List Byte) : ProfileFields :=
  ⟨readU b 0 2, readU b 2 1, readU b 3 4, readI b 7, readI b 11, readI b 15, readI b 19,
    readSix (fun i => readU b i 2) 23 2, readI b 35, readI b 39⟩

/-- A command whose fields take `n` bytes, or LENGTH. -/
def sized (b : List Byte) (n : Nat) (c : Option Instr) : FrameReading :=
  if b.length = n then
    match c with
    | some c => .command c
    | none => .badLength
  else .badLength

/-- The checks of 11 R180 on a frame, by the kind-code index of 11.5. DESIGN CHOICE: a yes/no byte (NOTIFY_EDGES, the
clear option) is read by its bit 0 alone (notes/assumptions/24.md). DESIGN CHOICE: the body of WINDOW_SET holds the mask
and the cap whatever its effects, 17 bytes without a presence byte, and they go unread where TENSION_HOLD or SPEED_CAP
is not among the effects (notes/assumptions/14.md). -/
def readCommand (f : Frame) : FrameReading :=
  let b := f.body
  let t := f.tag
  match f.kind.toNat with
  | 0x01 => sized b 4 (some (.linkConfig t (readI b 0)))
  | 0x02 => sized b 6 (some (.setParam t (readU b 0 2) (readI b 2)))
  | 0x03 => sized b 2 (some (.getParam t (readU b 0 2)))
  | 0x08 => sized b 5 (some (.setPosition t (readU b 0 1) (readI b 1)))
  | 0x09 => sized b 0 (some (.readCounts t))
  | 0x10 => sized b 29 (some (.heatOn t (readI b 0) (readSix (readI b) 4 4) (readU b 28 1)))
  | 0x11 => sized b 0 (some (.heatOff t))
  | 0x12 => sized b 0 (some (.start t))
  | 0x13 => sized b 0 (some (.stop t))
  | 0x14 => sized b 0 (some (.threadEnter t))
  | 0x15 => sized b 0 (some (.threadExit t))
  | 0x16 => sized b 5 (some (.jog t (readU b 0 1) (readI b 1)))
  | 0x17 => sized b 5 (some (.seek t (readI b 0) (readU b 4 1)))
  | 0x18 => sized b 0 (some (.seekStop t))
  | 0x19 => sized b 0 (some (.seekResume t))
  | 0x1A => sized b 0 (some (.readMotion t))
  | 0x20 => sized b 29 (some (.setDrum t (readI b 0) (readSix (readI b) 4 4) (readU b 28 1)))
  | 0x21 => sized b 5 ((readOptional b 0 (readI b 1)).map (.readHeat t ·))
  | 0x24 => sized b 0 (some (.readDose t))
  | 0x25 => sized b 4 (some (.readProbe t (readI b 0)))
  | 0x28 => sized b 0 (some (.readTension t))
  | 0x30 => sized b 45 ((readOptional b 43 (readU b 44 1)).map (.profileLoad t (readFields b) ·))
  | 0x31 => sized b 3 (some (.profileFind t (readU b 0 2) (readU b 2 1)))
  | 0x32 => sized b 7 ((readOptional b 0 (readU b 1 1)).bind fun e =>
      (readOptional b 2 (readI b 3)).map (.profileRead t e ·))
  | 0x33 => sized b 1 (some (.profileDrop t (readU b 0 1)))
  | 0x34 => sized b 1 (some (.profilePin t (readU b 0 1)))
  | 0x35 => sized b 13 (some (.profileTrim t (readU b 0 1) (readSix (fun i => readU b i 2) 1 2)))
  | 0x38 => sized b 12 ((readName b 2).map fun n =>
      .panelSubmit t (readU b 0 2) n (readI b 7) (readU b 11 1))
  | 0x39 => sized b 13 ((readName b 3).map fun n =>
      .panelInsert t (readU b 0 1) (readU b 1 2) n (readI b 8) (readU b 12 1))
  | 0x3A => sized b 2 (some (.panelCancel t (readU b 0 2)))
  | 0x3B => sized b 0 (some (.dispatchEnable t))
  | 0x3C => sized b 0 (some (.dispatchHold t))
  | 0x3D => sized b 0 (some (.dispatchResume t))
  | 0x3E => sized b 0 (some (.dispatchOff t))
  | 0x3F => sized b 5 ((readOptional b 0 (readI b 1)).map (.readQueue t ·))
  | 0x40 => sized b 2 (some (.readPanel t (readU b 0 2)))
  | 0x44 => sized b 5 ((readOptional b 0 (readI b 1)).map (.readMarks t ·))
  | 0x48 => sized b 17 ((readOptional b 2 (readI b 3)).bind fun p =>
      (readOptional b 7 (readU b 8 2, readI b 10)).map fun a =>
        .triggerSet t (readU b 0 1)
          ⟨readU b 1 1, p, a, readU b 14 1, readU b 15 1, readU b 16 1⟩)
  | 0x49 => sized b 1 (some (.triggerArm t (readU b 0 1)))
  | 0x4A => sized b 1 (some (.triggerClear t (readU b 0 1)))
  | 0x4B => sized b 1 (some (.triggerRead t (readU b 0 1)))
  | 0x4C => sized b 17 (some (.windowSet t (readU b 0 1)
      ⟨readU b 1 1, readI b 2, readI b 6, readU b 10 1, readU b 11 1, readI b 12,
        (readU b 16 1).testBit 0⟩))
  | 0x4D => sized b 1 (some (.windowClear t (readU b 0 1)))
  | 0x4E => sized b 0 (some (.readWindows t))
  | 0x4F => sized b 5 ((readName b 0).map (.fabricLoad t ·))
  | 0x50 => sized b 5 ((readName b 0).map (.spliceAhead t ·))
  | 0x51 => sized b 0 (some (.readFabric t))
  | 0x58 => sized b 0 (some (.clearFault t))
  | 0x59 => sized b 0 (some (.readFault t))
  | 0x5A => sized b 1 (some (.readStatus t ((readU b 0 1).testBit 0)))
  | 0x5B => sized b 0 (some (.clearLine t))
  | _ => .unknown

/-! ## Executing one command (10 R173, 11 R179, R180) -/

/-- A reply: its status, the data after the status code, and the speed a taken LINK_CONFIG changes to. -/
structure Reply where
  status : Status
  data : List Byte := []
  baud : Option Int := none
deriving DecidableEq, Repr

/-- Reply OK with data, reply OK alone, and a refusal. -/
def okData (data : List Byte) : Reply := { status := .ok, data := data }
def ok : Reply := { status := .ok }
def refusedWith (st : Status) : Reply := { status := st }

/-- The reply is placed in the place kept for it (10 R173). -/
def answer (kind tag : Byte) (r : Reply) (s : State) : State :=
  s.upFlt fun f => { f with kept := false }.place (.reply kind tag r.status r.data r.baud)

/-- Carry a command out: a place is kept for the reply, the owning block acts and gives the reply, and the reply
is placed (10 R173, 11 R179). -/
def carryOut (kind tag : Byte) (op : State → State × Reply) (s : State) : State :=
  let (s, r) := op (s.upFlt fun f => { f with kept := true })
  answer kind tag r s

/-- Nothing is done, and the reply carries `data`. -/
def reading (data : State → List Byte) (s : State) : State × Reply := (s, okData (data s))

/-- Nothing is done, and the reply carries a status alone. -/
def refusing (st : Status) (s : State) : State × Reply := (s, refusedWith st)

end Sys2Proof.Machine
end

