-- ==== Sys2Proof/Machine/ProfileOps.lean ====
section
/-! DEFINITION. Operations of the profile table: lookup, names, placement of a new key, the learning update
(06 R94, R95, R100, R109). -/

namespace Sys2Proof.Machine
open Sys2Proof

/-- The number of the valid entry whose key is (media, ink) (06 R94). -/
def Profiles.findKey (t : Profiles) (media ink : Nat) : Option Nat :=
  indexOf (fun e : Entry => e.valid && e.media = media && e.ink = ink) t.entries

/-- A lookup: the exact key, else the any-ink key, else MISS (06 R94). -/
def Profiles.lookup (t : Profiles) (media ink : Nat) : Option Nat :=
  (t.findKey media ink).orElse fun _ => t.findKey media 0

/-- A key lies in its ranges (06 R93). -/
def keyInRange (media ink : Nat) : Bool := 1 ≤ media && media ≤ 65535 && ink ≤ 15

/-- A profile name lies in its ranges (06 R95); a selector of none is out of range in a command that does
not allow it (11 R182). -/
def ProfileName.inRange : ProfileName → Bool
  | .entry n => n ≤ 31
  | .key media ink => keyInRange media ink
  | .none => false

/-- The entry a name resolves to, or MISS (06 R95). -/
def Profiles.resolve (t : Profiles) : ProfileName → Option Nat
  | .entry n => if (t.entry n).valid then some n else none
  | .key media ink => t.lookup media ink
  | .none => none

/-! ## Placement of a new key (06 R100) -/

/-- The entries from W to 31 in the order of the scan: downward from the pointer to W, then from 31 to the entry
just above the pointer. -/
def Profiles.scan (t : Profiles) : List Nat :=
  ((List.range (t.pointer + 1)).filter (t.pinned ≤ ·)).reverse
    ++ ((List.range Config.profiles).filter (fun n => t.pointer < n && t.pinned ≤ n)).reverse

/-- The entry a new key is placed in: the first invalid entry of the scan, else its first entry without
references, else none (06 R100). -/
def Profiles.placeAt (t : Profiles) : Option Nat :=
  if t.pinned = Config.profiles then none
  else (t.scan.find? fun n => !(t.entry n).valid).orElse fun _ =>
    t.scan.find? fun n => (t.entry n).refs = 0

/-- The pointer after a placement: one down from the chosen entry, wrapping from W to 31. -/
def Profiles.stepDown (t : Profiles) (n : Nat) : Nat := if n = t.pinned then 31 else n - 1

/-! ## Learning (06 R109) -/

/-- The relative error of a measured dose, in 1/1024 of the target. -/
def learnDelta (target dose : Int) : Int :=
  clamp (-1024) 1024 (floorDiv ((target - dose) * 1024) target)

/-- The compensating trim. -/
def learnGoal (sigma delta : Int) : Int :=
  clamp Config.trimLow Config.trimHigh (1024 + floorDiv (sigma * delta) 256)

/-- The new trim: a step of 1/2^w of the way to the compensating trim, rounded to nearest. -/
def learnTrim (goal weight trim : Int) : Int :=
  clamp Config.trimLow Config.trimHigh
    (trim + floorDiv (goal - trim + 2 ^ (weight - 1).toNat) (2 ^ weight.toNat))

/-- The update of one entry by an offer: the measured dose of each zone named (06 R108, R109). -/
def Entry.learn (e : Entry) (offer : Six (Option Nat)) : Entry :=
  if e.sigma = 0 then e
  else
    { e with
      trims := Six.zipWith
        (fun d trim => match d with
          | some d => learnTrim (learnGoal e.sigma (learnDelta e.target d)) e.weight trim
          | none => trim) offer e.trims
      learned := satAdd 65535 e.learned 1 }

end Sys2Proof.Machine
end

