-- ==== Sys2Proof/Machine/TriggerOps.lean ====
section
/-! DEFINITION. Operations of the trigger table and the range windows (09 9.1 to 9.3). -/

namespace Sys2Proof.Machine
open Sys2Proof

/-- Write a slot of the trigger table. -/
def setTrigSlot (i : Nat) (x : TrigSlot) (s : State) : State :=
  s.upTrg fun u => { u with slots := u.slots.set i x }

/-- Drive an action output high and start its pulse timer from 0 with the width as it stands
(09 R154, R167). -/
def startPulse (o : Output) (s : State) : State :=
  s.upTrg fun u => { u with pulses := u.pulses.set o (some ⟨0, (s.par.wOut.get o).toNat⟩) }

/-- What becomes of an entry after it has fired (09 R153). -/
def Trigger.afterFire (t : Trigger) (origin : Origin) : TrigSlot :=
  match t.rep, origin with
  | .keep, o => .held o t
  | .oneShot, .host => .held .host { t with armed := false }
  | .oneShot, .panel => .free

/-- The count of an axis. -/
def State.axisCount (s : State) : Axis → Int
  | .paper => s.pp
  | .fabric => s.fp

/-- Place a TRIGGER_FIRED notice (09 R154). -/
def triggerNotice (i : Nat) (origin : Origin) (t : Trigger) (dir : Option Dir) (r : FireResult)
    (s : State) : State :=
  let (d, s) := noticeDir dir s
  notice (.triggerFired i origin t.action t.position (t.anchor.map Prod.fst) (s.axisCount t.axis) d r) s

/-- Fire the entry of a slot: a pulse action starts its pulse and reports only a LATE firing, a NOTIFY
action reports; then the entry is kept, disarmed or freed (09 R153, R154). -/
def fire (i : Nat) (origin : Origin) (t : Trigger) (dir : Option Dir) (late : Bool) (s : State) : State :=
  let s := match t.action with
    | .pulse o =>
        let s := startPulse o s
        if late then triggerNotice i origin t dir .late s else s
    | .notify => triggerNotice i origin t dir (if late then .late else .fired) s
  setTrigSlot i (t.afterFire origin) s

/-- An armed entry on the axis is crossed by the update from `old` to `new` (09 R153). -/
def Trigger.crossed (t : Trigger) (axis : Axis) (old new : Int) : Option Int :=
  match t.position with
  | none => none
  | some p =>
      if t.armed && t.axis = axis
          && ((old < new && old < p && p ≤ new && (t.dir = .forward || t.dir = .either))
            || (new < old && new ≤ p && p < old && (t.dir = .reverse || t.dir = .either)))
      then some p else none

/-- The entries that fire at an update, in the order in which it crosses them (09 R153). -/
def firings (slots : List TrigSlot) (axis : Axis) (old new : Int) : List (Nat × Origin × Trigger) :=
  let hits := (indexed 0 slots).filterMap fun (i, x) =>
    match x with
    | .free => none
    | .held o t => (t.crossed axis old new).map fun p => (p, i, o, t)
  (sortBy (fun h => if old < new then h.1 else -h.1) hits).map Prod.snd

/-- Direction of a count update. -/
def updateDir (old new : Int) : Dir := if old < new then .forward else .reverse

/-- The trigger table at a count update (09 R153). -/
def fireCrossed (axis : Axis) (old new : Int) (s : State) : State :=
  (firings s.trg.slots axis old new).foldl
    (fun s h => fire h.1 h.2.1 h.2.2 (some (updateDir old new)) false s) s

/-! ## Anchors (09 R155, R156) -/

/-- An entry with a position already passed at its resolution (09 R155). -/
def Trigger.passed (t : Trigger) (pp p : Int) : Bool :=
  match t.dir with
  | .forward => p ≤ pp
  | .reverse => pp ≤ p
  | .either => pp = p

/-- Resolve the entry of a slot at an arrival: its position is A plus the offset, clamped to the count range; an
armed entry already passed fires LATE (09 R155). DESIGN CHOICE: the entry keeps its anchor's offset with the tag that R151
keeps for its notices; nothing but TRIGGER_READ shows the offset from then on (notes/assumptions/46.md). -/
def resolveSlot (i : Nat) (a : Int) (dir : Option Dir) (s : State) : State :=
  match s.trg.slots[i]? with
  | some (.held o t) =>
      let p := clamp (-Config.countLimit) Config.countLimit (a + ((t.anchor.map Prod.snd).getD 0))
      let t := { t with position := some p }
      let s := setTrigSlot i (.held o t) s
      if t.armed && t.passed s.pp p then fire i o t dir true s else s
  | _ => s

/-- The entry of a slot is anchored to the panel and not resolved. -/
def TrigSlot.awaits (tag : Nat) : TrigSlot → Bool
  | .held _ t => t.position.isNone && (t.anchor.map Prod.fst) = some tag
  | .free => false

/-- Resolve every entry anchored to one of the panels whose arrival one event has set, `set` giving their tags and
arrivals: in slot order over the whole event (09 R155). -/
def resolveAnchors (set : List (Nat × Int)) (dir : Option Dir) (s : State) : State :=
  (List.range s.trg.slots.length).foldl
    (fun s i =>
      match set.find? fun x => (s.trg.slots[i]?.getD .free).awaits x.1 with
      | some x => resolveSlot i x.2 dir s
      | none => s) s

/-- Free the entry of a slot and report it ORPHANED, taking no action (09 R156); `dir` is the direction of the
update at which it is orphaned, none where no update does it (R154; notes/assumptions/11.md). -/
def orphanSlot (i : Nat) (dir : Option Dir) (s : State) : State :=
  match s.trg.slots[i]? with
  | some (.held o t) => triggerNotice i o t dir .orphaned (setTrigSlot i .free s)
  | _ => s

/-- Orphan every entry anchored to a panel that leaves without an arrival (09 R156). DESIGN CHOICE: in slot order
(notes/assumptions/6.md). -/
def orphanPanel (tag : Nat) (dir : Option Dir) (s : State) : State :=
  (List.range s.trg.slots.length).foldl
    (fun s i => if (s.trg.slots[i]?.getD .free).awaits tag then orphanSlot i dir s else s) s

/-! ## Range windows (09 R157, R158) -/

/-- The activity the count of its axis gives a window (09 R158). -/
def Window.judged (w : Window) (count : Int) : Bool := w.lo ≤ count && count ≤ w.hi

/-- One window at a count update of its axis; a change of its activity is reported with NOTIFY_EDGES (09 R158). -/
def judgeWindow (axis : Axis) (dir : Dir) (count : Int) (s : State) (i : Nat) : State :=
  match s.trg.windows[i]? with
  | some (some w) =>
      if w.axis = axis && w.active ≠ w.judged count then
        let s := s.upTrg fun u =>
          { u with windows := u.windows.set i (some { w with active := w.judged count }) }
        if w.notify then notice (.windowEdge i (w.judged count) axis count dir) s else s
      else s
  | _ => s

/-- The windows of an axis at a count update (09 R158). DESIGN CHOICE: the WINDOW_EDGE notices of several windows that
change at one update go in ascending window number (notes/assumptions/6.md). -/
def judgeWindows (axis : Axis) (old new : Int) (s : State) : State :=
  (List.range s.trg.windows.length).foldl (judgeWindow axis (updateDir old new) new) s

end Sys2Proof.Machine
end

