-- ==== Sys2Proof/Machine/PanelOps.lean ====
section
/-! DEFINITION. Operations of the panel queue and dispatcher that more than one command uses: refusal,
retirement, the placement decision, the arrival at the nip, reject triggers (07, 08 8.7). -/

namespace Sys2Proof.Machine
open Sys2Proof

/-- Change the queue record of a tag. -/
def updPanel (tag : Nat) (f : Panel → Panel) (s : State) : State :=
  s.upPq fun q => { q with queue := q.queue.map fun p => if p.tag = tag then f p else p }

/-- The queue record of a tag. -/
def State.queued? (s : State) (tag : Nat) : Option Panel := s.pq.queue.find? (fun p => p.tag = tag)

/-- The queue without the record of a tag. -/
def without (tag : Nat) (q : List Panel) : List Panel := q.filter fun p => p.tag ≠ tag

/-- Insert before the first QUEUED panel: the head of the QUEUED panels, and the end of the panels in DONE without
an x_s (07 R111). -/
def insertBeforeQueued (p : Panel) : List Panel → List Panel
  | [] => [p]
  | x :: xs => if x.state = .queued then p :: x :: xs else x :: insertBeforeQueued p xs

/-- Insert after the placed panels (07 R111). -/
def insertPlaced (p : Panel) : List Panel → List Panel
  | [] => [p]
  | x :: xs => if x.xs.isSome then x :: insertPlaced p xs else p :: x :: xs

/-- The greater of two optional ends, by their x_s. -/
def laterEnd (b : Option (Int × Int)) (p : Panel) : Option (Int × Int) :=
  match p.xs, b with
  | none, b => b
  | some x, none => some (x, x + p.length)
  | some x, some (y, e) => if y < x then some (x, x + p.length) else some (y, e)

/-- last_end after a placement is withdrawn: the end of the placed panel with the greatest x_s, else PP
(07 R121). -/
def endOfPlaced (q : List Panel) (pp : Int) : Int :=
  match q.foldl laterEnd none with
  | some (_, e) => e
  | none => pp

/-- The live transactions without one. -/
def dropTxn (num tag : Nat) (l : List Txn) : List Txn := l.filter fun t => ¬(t.num = num ∧ t.tag = tag)

/-! ## Retirement (07 R129) -/

/-- The slot of a cancelled record becomes EMPTY. -/
def Slot.emptied (tag : Nat) : Slot → Slot
  | .cancelled p => if p.tag = tag then .empty else .cancelled p
  | x => x

/-- Remove the record of a tag whose report has been placed: its profile reference is dropped, and anchors
that wait for an arrival it never had are orphaned (07 R129, 09 R156). -/
def removePanel (p : Panel) (dir : Option Dir) (s : State) : State :=
  let s := s.upPq fun q =>
    { q with queue := without p.tag q.queue, slots := q.slots.map (Slot.emptied p.tag) }
  let s := dropRef p.profile s
  if p.arrival.isNone then orphanPanel p.tag dir s else s

/-- The report of the panel waiting longest is placed when a free place exists, and the panel is retired
(07 R129, R130); `dir` is the direction of the count update at which it happens. -/
def flushReport (dir : Option Dir) (s : State) : State :=
  match s.pq.waiting with
  | [] => s
  | tag :: rest =>
      if s.flt.room then
        match s.panel? tag with
        | some p =>
            removePanel p dir
              ((s.upPq fun q => { q with waiting := rest }).upFlt fun f =>
                f.place (.notice s.cnt.clock (.panelReport p)))
        | none => s.upPq fun q => { q with waiting := rest }
      else s

/-- A panel has become DONE: its report is placed, or waits behind those that wait already (07 R129). -/
def becomeDone (tag : Nat) (dir : Option Dir) (s : State) : State :=
  flushReport dir (s.upPq fun q => { q with waiting := q.waiting ++ [tag] })

/-! ## Refusal (07 R121, R122) -/

/-- The record of a panel that is refused: x_s, transaction and gains cleared; a counted refusal adds an
attempt and sets the engine reason. -/
def Panel.refused (p : Panel) (counted : Option EngineReason) : Panel :=
  { p with
    xs := none, txn := none, gains := none,
    attempts := if counted.isSome then p.attempts + 1 else p.attempts
    reason := if counted.isSome then counted else p.reason
    state := .queued }

/-- A refusal of the STARTING panel `p`: counted with its reason (07 R121), or not counted at a withdrawal in
HALTING (R122). The panel returns to the head of the QUEUED panels, or is SKIPPED past the retry limit. -/
def refusal (num : Nat) (p : Panel) (counted : Option EngineReason) (dir : Option Dir) (s : State) : State :=
  let p' := p.refused counted
  let rest := without p.tag s.pq.queue
  let skip := counted.isSome && s.par.nRetry < p'.attempts
  let p'' := if skip then { p' with state := .done, verdict := some .skipped } else p'
  let s := s.upPq fun q =>
    { q with
      queue := insertBeforeQueued p'' rest
      live := dropTxn num p.tag q.live
      lastEnd := endOfPlaced rest s.pp }
  if skip then becomeDone p.tag dir s else s

/-- A deadline of a STARTING panel: WITHDRAW, then a refusal with reason TIMEOUT (07 R120). -/
def startingDeadline (t : Txn) (dir : Option Dir) (s : State) : State :=
  match s.queued? t.tag with
  | some p => refusal t.num p (some .timeout) dir (withdraw t.num t.tag s)
  | none => withdraw t.num t.tag (s.upPq fun q => { q with live := dropTxn t.num t.tag q.live })

/-- HALTING: the STARTING panel is withdrawn and returns QUEUED without an attempt counted (07 R122). Where its warning
HEAD_PROTOCOL stands among the notices of the fault is said at `enterHalting` and `raise`. -/
def withdrawStarting (s : State) : State :=
  match s.pq.live.find? (fun t => t.phase = .awaitAccept) with
  | none => s
  | some t =>
      match s.queued? t.tag with
      | some p => refusal t.num p none none (withdraw t.num t.tag s)
      | none => withdraw t.num t.tag (s.upPq fun q => { q with live := dropTxn t.num t.tag q.live })

/-! ## Placement (07 R115, R116) -/

def Slot.isArmed : Slot → Bool
  | .armed _ => true
  | _ => false

/-- The candidate of a decision: the armed insert of the lowest slot, else the first QUEUED panel (07 R116). -/
def State.candidate (s : State) : Option (Option Nat × Panel) :=
  match indexOf Slot.isArmed s.pq.slots with
  | some i =>
      match s.pq.slots[i]? with
      | some (.armed p) => some (some i, p)
      | _ => none
  | none => (s.pq.queue.find? (fun p => p.state = .queued)).map fun p => (none, p)

def Panel.withEngine (p : Panel) : Bool := p.state = .starting || p.state = .printing

/-- Conditions 1 to 6 of a placement decision (07 R115). -/
def State.mayDecide (s : State) (slot : Option Nat) : Bool :=
  s.mot.line = .running
    && s.pq.dispatch = .enabled
    && s.pq.queue.all (fun p => p.state ≠ .starting)
    && (s.pq.queue.filter Panel.withEngine).length < Config.engineCap
    && (slot.isNone || s.pq.queue.length < Config.queueCap)
    && s.pq.lastEnd + s.par.gap - s.par.lead ≤ s.pp
    && s.head.buf.length < Config.headCap

/-- The transaction number after `n` (07 R116). -/
def nextTxnNum (n : Nat) : Nat := if n = 255 then 1 else n + 1

/-- Place the candidate: x_s, gains, transaction, START (07 R116). -/
def placePanel (slot : Option Nat) (p : Panel) (s : State) : State :=
  let xs := max (s.pq.lastEnd + s.par.gap) (s.pp + s.par.lead)
  let gains := (s.prf.entry p.profile).trims
  let num := s.pq.nextTxn
  let p' := { p with state := .starting, xs := some xs, txn := some num, gains := some gains }
  let s := s.upPq fun q =>
    { q with
      queue := insertPlaced p' (without p.tag q.queue)
      slots := match slot with
        | some i => q.slots.set i .empty
        | none => q.slots
      lastEnd := xs + p.length
      nextTxn := nextTxnNum num
      live := q.live ++ [⟨num, p.tag, .awaitAccept, s.cnt.clock, s.par.tAcc⟩] }
  s.upHead fun h => { h with buf := h.buf ++ [.start num p.tag xs p.length gains p.mark] }

/-- A test for a placement decision (07 R115). -/
def decide_ (s : State) : State :=
  match s.candidate with
  | some (slot, p) => if s.mayDecide slot then placePanel slot p s else s
  | none => s

/-! ## Spoiled panels (07 R125 to R127) -/

def TrigSlot.isFree : TrigSlot → Bool
  | .free => true
  | _ => false

/-- Create the reject trigger of a spoiled panel that has reached its arrival, in the lowest-numbered FREE slot,
resolved at once; or mark the panel REJECT_UNMARKED and raise TRIGGER_FULL (07 R127, 09 R156). -/
def rejectTrigger (tag : Nat) (a : Int) (dir : Option Dir) (s : State) : State :=
  match indexOf TrigSlot.isFree s.trg.slots with
  | some i =>
      let t : Trigger := ⟨.paper, none, some (tag, s.par.arcLen + s.par.dMark), .forward, .pulse .markout,
        .oneShot, true⟩
      resolveSlot i a dir (setTrigSlot i (.held .panel t) s)
  | none =>
      warn (.triggerFull tag)
        (updPanel tag (fun p => { p with flags := { p.flags with rejectUnmarked := true } }) s)

/-- A panel whose print has ended: one that has arrived becomes IN_ARC, with its reject trigger if it is
SPOILED (07 R126, R127). -/
def afterPrint (tag : Nat) (dir : Option Dir) (s : State) : State :=
  match s.queued? tag with
  | some p =>
      if p.arrived then
        let s' := updPanel tag (fun p => { p with state := .inArc }) s
        if p.state = .spoiled then rejectTrigger tag (p.arrival.getD 0) dir s' else s'
      else s
  | none => s

/-- The done deadline of a PRINTING panel (07 R125). DESIGN CHOICE: HEAD_TIMEOUT comes before what the reject trigger of a
panel that has arrived brings, TRIGGER_FULL or a LATE firing (notes/assumptions/6.md). -/
def doneDeadline (t : Txn) (dir : Option Dir) (s : State) : State :=
  let s := withdraw t.num t.tag (s.upPq fun q => { q with live := dropTxn t.num t.tag q.live })
  let s := updPanel t.tag (fun p =>
    { p with
      state := .spoiled, verdict := some .spoiled, printed := some .unknown, txn := none
      reason := some .timeout }) s
  afterPrint t.tag dir (warn (.headTimeout t.tag) s)

/-! ## Arrival (08 R144, R145, R147; 04 R64; 09 R164) -/

/-- The dose fields at the moment the arrival is set, and whether a probe point has been passed (04 R63, R64): the next
probe point is the least point above PP, the trailing point where no spacing point is left, and absent where no point
is. -/
def doseFieldsAt (pp a length spacing : Int) : DoseFields × Bool :=
  let first := if pp < a then a else a + (floorDiv (pp - a) spacing + 1) * spacing
  let ahead : Bool := pp < a + length
  (⟨if ahead then some (min first (a + length)) else none, ahead, 0, ⟨none, none, none, none, none, none⟩, none,
    false, false⟩, a ≤ pp)

/-- Set a panel's arrival, and with it the dose fields (08 R144, 04 R64). -/
def setArrival (tag : Nat) (a : Int) (s : State) : State :=
  updPanel tag (fun p =>
    let (d, passed) := doseFieldsAt s.pp a p.length s.par.spacing
    { p with
      arrival := some a, dose := some d
      flags := { p.flags with sparse := p.flags.sparse || passed } }) s

/-- The fabric check of an arriving panel (08 R147). -/
def fabricCheck (p : Panel) (s : State) : State :=
  let media := (s.prf.entry p.profile).media
  let nip := s.trg.nip.map fun n => (s.prf.entry n).media
  if nip = some media then s
  else
    warn (.fabricMismatch p.tag media nip)
      (updPanel p.tag (fun p => { p with flags := { p.flags with fabricMismatch := true } }) s)

/-- A panel arrives at the nip (08 R145): the fabric check, SPLICE_AFFECTED while a splice is AT_NIP
(09 R164), and the change of state. DESIGN CHOICE: the fabric check of a SPOILED panel comes before its reject trigger
(notes/assumptions/6.md). -/
def arrive (tag : Nat) (dir : Option Dir) (s : State) : State :=
  match s.queued? tag with
  | some p =>
      let s := fabricCheck p s
      let s := updPanel tag (fun p =>
        { p with
          arrived := true
          flags := { p.flags with spliceAffected := p.flags.spliceAffected || s.trg.spliceAtNip }
          state := if p.state = .printed || p.state = .spoiled then .inArc else p.state }) s
      if p.state = .spoiled then rejectTrigger tag (p.arrival.getD 0) dir s else s
  | none => s

/-- The panels that arrive when PP stands at `pp`, in ascending order of A (08 R145). DESIGN CHOICE: at
equal A they arrive in queue order (notes/assumptions/6.md), and a panel arrives once, also where PP goes back and
crosses A again (notes/assumptions/43.md). -/
def arrivals (q : List Panel) (pp : Int) : List Nat :=
  (sortBy (fun p => p.arrival.getD 0)
    (q.filter fun p => !p.arrived && (match p.arrival with | some a => a ≤ pp | none => false))).map
    Panel.tag

/-- Every panel whose arrival PP has reached arrives (08 R145). -/
def arriveReached (dir : Option Dir) (s : State) : State :=
  (arrivals s.pq.queue s.pp).foldl (fun s tag => arrive tag dir s) s

end Sys2Proof.Machine
end

