-- ==== Sys2Proof/Machine/FaultOps.lean ====
section
/-! DEFINITION. Taking a critical fault: the latch, the motion controller's move, the notice (10 R169,
02 R24, 07 R122). -/

namespace Sys2Proof.Machine
open Sys2Proof

/-- Entry into HALTING: the target becomes 0, the hold timer stops, the nip is commanded open and the
STARTING panel is withdrawn (02 R24, 07 R122). DESIGN CHOICE: STATE_CHANGE comes before the HEAD_PROTOCOL warning of a
WITHDRAW that finds the head-link buffer full (notes/assumptions/6.md). -/
def enterHalting (s : State) : State :=
  let s := setLine .halting .fault s
  let s := s.upMot fun m => { m with target := 0, hold := .stopped }
  withdrawStarting (nipOpen s)

/-- A MOVING move is suspended with cause FAULT (02 R24, R37). -/
def suspendForFault (s : State) : State := s.upMot fun m => { m with seek := m.seek.suspend .fault }

/-- What the motion controller does with a critical fault handed to it (02 R24). -/
def faultMotion (s : State) : State :=
  match s.mot.line with
  | .running | .stopping => enterHalting (suspendForFault s)
  | .threading =>
      if 0 < s.mot.vref then enterHalting (suspendForFault s)
      else setLine .faulted .fault (suspendForFault s)
  | .off | .warming | .ready => setLine .faulted .fault (suspendForFault s)
  | .halting | .faulted => suspendForFault s

/-- The record of a fault taken now (10 R168). -/
def State.recordOf (s : State) (c : Cause) (inst : Option Nat) : Record :=
  ⟨c, inst, s.cnt.clock, s.mot.line, s.pp, s.fp, s.nipPanel⟩

/-- The latch takes a fault: it becomes the record of an empty latch, else it joins the further causes
(10 R169). -/
def FaultMon.take (f : FaultMon) (r : Record) : FaultMon :=
  match f.latch with
  | none => { f with latch := some r }
  | some _ =>
      { f with
        further := if f.further.contains r.cause then f.further else f.further ++ [r.cause]
        furtherCount := satAdd 255 f.furtherCount 1 }

/-- A critical fault is raised: taken by the latch, handed to the motion controller, reported by a
FAULT_RAISED notice, in the order of 10 R169. DESIGN CHOICE: the HEAD_PROTOCOL warning of a WITHDRAW at entry into HALTING
that finds the head-link buffer full (07 R122, R118) comes before FAULT_RAISED (notes/assumptions/6.md). -/
def raise (c : Cause) (inst : Option Nat) (s : State) : State :=
  let r := s.recordOf c inst
  let s' := faultMotion (s.upFlt fun f => f.take r)
  notice (.faultRaised c inst s.flt.latch.isNone r.line r.pp r.fp) s'

/-! ## Tension loops at a fault (05 R83) -/

/-- A loop goes to OFF (05 R83). -/
def LoopRec.toOff (l : LoopRec) : LoopRec :=
  { l with
    state := .off, out := 0, integ := 0, work := 0, target := 0, brkTimer := 0, overTimer := 0,
    cause := none }

/-- A loop enters FAULT with a cause; W is kept (05 R83, R84). -/
def LoopRec.toFault (l : LoopRec) (c : LoopCause) : LoopRec :=
  { l with state := .fault, out := 0, integ := 0, target := 0, brkTimer := 0, overTimer := 0, cause := some c }

/-- A loop at the change of ESTOP to active: FAULT with cause ESTOP unless it is OFF (05 R83). -/
def LoopRec.atEstop (l : LoopRec) : LoopRec := if l.state = .off then l else l.toFault .estop

/-- ESTOP changes to active: the fault is raised and acted on, then v_ref, the target and DRUM go to 0, the
nip is commanded open and the loops stop (02 R26, 05 R83). -/
def estopActs (s : State) : State :=
  let s := raise .estop none (s.upPins fun p => { p with estop := true })
  let s := nipOpen (s.upMot fun m => { m with vref := 0, target := 0, drum := 0 })
  s.upTen fun t => t.map LoopRec.atEstop

end Sys2Proof.Machine
end

