-- ==== Sys2Proof/Machine/CountOps.lean ====
section
/-! DEFINITION. The counting unit's arithmetic: from levels to ticks, from ticks to ws, the measured speed,
the silence and stall timers (01 R2 to R10). -/

namespace Sys2Proof.Machine
open Sys2Proof

/-! ## From edges to ticks (01 R2) -/

/-- The place of a level pair in the QUADRATURE order (0,0), (1,0), (1,1), (0,1). -/
def quadIndex : Bool × Bool → Nat
  | (false, false) => 0 | (true, false) => 1 | (true, true) => 2 | (false, true) => 3

/-- Forward and reverse ticks of one change of the levels from `p` to `q` (01 R2). DESIGN CHOICE: where A rises and B
changes in one step, PULSE_DIR takes the new level of B as the one present at the edge (notes/assumptions/18.md). -/
def tickOf (m : Mode) (p q : Bool × Bool) : Nat × Nat :=
  let riseA := !p.1 && q.1
  let riseB := !p.2 && q.2
  match m with
  | .quadrature =>
      if quadIndex q = (quadIndex p + 1) % 4 then (1, 0)
      else if quadIndex p = (quadIndex q + 1) % 4 then (0, 1)
      else (0, 0)
  | .pulseDir => if riseA then (if q.2 then (0, 1) else (1, 0)) else (0, 0)
  | .upDown => (riseA.toNat, riseB.toNat)
  | .pulseOnly => (riseA.toNat, 0)

/-- Forward and reverse ticks of a path of levels, and the levels it ends at. -/
def pathTicks (m : Mode) : Bool × Bool → List (Bool × Bool) → (Nat × Nat) × (Bool × Bool)
  | p, [] => ((0, 0), p)
  | p, q :: qs =>
      let (n, last) := pathTicks m q qs
      let d := tickOf m p q
      ((d.1 + n.1, d.2 + n.2), last)

/-- Forward and reverse ticks gathered by a channel, and the levels its decoder then holds. PULSE_ONLY has no
reverse ticks; counted ticks leave the levels (notes/assumptions/18.md). -/
def Channel.gather (c : Channel) : Ticks → (Nat × Nat) × (Bool × Bool)
  | .counted f r => ((f, if c.mode = .pulseOnly then 0 else r), c.levels)
  | .levels path => pathTicks c.mode c.levels path

/-! ## Scaling and the count (01 R3, R4, R6) -/

/-- A tick restarts a silence timer that runs or stands (01 R9). -/
def Timer.restart : Timer → Timer
  | .stopped => .stopped
  | _ => .running 0

/-- n of a batch, and the ws it adds (01 R4). -/
def Channel.sum (c : Channel) (t : Int) : Int := t * 100000 + c.rem
def Channel.delta (c : Channel) (t : Int) : Int := floorDiv (c.sum t) c.tpm

/-- A batch whose net count `t` is not 0 (01 R3, R4, R6, R8). -/
def Channel.batch (c : Channel) (t : Int) : Channel :=
  let d := c.delta t
  { c with
    dir := if 0 < t then .forward else .reverse
    rem := c.sum t - d * c.tpm
    period := c.period + d
    count := clamp (-Config.countLimit) Config.countLimit (c.count + d)
    overrange := c.overrange || !inRange (-Config.countLimit) Config.countLimit (c.count + d) }

/-- The channel after it has taken what it gathered. -/
def Channel.take (c : Channel) (x : Ticks) : Channel :=
  let ((f, r), lv) := c.gather x
  let c := { c with levels := lv, silence := if f = 0 && r = 0 then c.silence else c.silence.restart }
  if f = r then c else c.batch ((f : Int) - (r : Int))

/-! ## Speed, silence and stall at the 10 ms sample (01 R8 to R10) -/

/-- Close the period and form the measured speed (01 R8). -/
def Channel.closePeriod (c : Channel) : Channel :=
  let hist := (c.period :: c.hist).take 10
  { c with hist := hist, period := 0, speed := 10 * hist.sum }

/-- The silence timer at the sample (01 R9): `before` and `now` say whether v_ref was and is at the
supervision floor. -/
def sampleSilence (mask before now : Bool) (t : Timer) : Timer :=
  if !mask || !now then .stopped
  else if before then t
  else .running 0

/-- The stall timer at the sample (01 R10). -/
def stepStall (lag : Bool) (t : Nat) : Nat := if lag then satAdd Config.stallTime t 10 else 0

/-- The counting unit at the 10 ms sample, but for the fault it raises (01 R8 to R10). -/
def Counting.sample (c : Counting) (mask : Channels Bool) (vref : Int) : Counting :=
  let now := decide (Config.fastFloor ≤ vref)
  let one := fun (m : Bool) (x : Channel) =>
    { x.closePeriod with silence := sampleSilence m c.fast now x.silence }
  let chan : Channels Channel :=
    ⟨one mask.paper c.chan.paper, one mask.fabric c.chan.fabric, one mask.drum c.chan.drum⟩
  { c with chan := chan, fast := now, stall := stepStall (lags vref chan.drum.speed) c.stall }

/-- The stall timer reaches 500 ms at this sample (01 R10). -/
def stallReached (old new : Nat) : Bool := old < Config.stallTime && Config.stallTime ≤ new

/-- The counting unit takes the 10 ms sample (01 R8 to R10). -/
def countSample (s : State) : State :=
  let s' := s.upCnt fun c => c.sample s.par.silMask s.mot.vref
  if stallReached s.cnt.stall s'.cnt.stall then raise .stall (some 2) s' else s'

end Sys2Proof.Machine
end

