-- ==== Sys2Proof/Machine/DoseOps.lean ====
section
/-! DEFINITION. The dose arithmetic and the probe list (04 4.2, 4.3, 4.5, 4.6). -/

namespace Sys2Proof.Machine
open Sys2Proof

/-! ## Dose arithmetic (04 R59, R60, R72) -/

/-- The table F (04 R60). -/
def doseTable : List Int :=
  [65536, 68438, 71468, 74632, 77936, 81386, 84990, 88752,
   92682, 96785, 101070, 105545, 110218, 115098, 120194, 125515]

def doseF (r : Int) : Int := (doseTable[r.toNat]?).getD 0

/-- floor(n × F[r] × 2^q / d), taken once on the whole product, with q and r of the step count k (04 R60,
R72). -/
def stepScale (n d k : Int) : Int :=
  let q := floorDiv k 16
  let r := k - 16 * q
  if 0 ≤ q then floorDiv (n * doseF r * 2 ^ q.toNat) d
  else floorDiv (n * doseF r) (d * 2 ^ (-q).toNat)

/-- The step count of a reading, before the upper clamp (04 R59). -/
def stepCount (reading thetaRef thetaStep : Int) : Int := floorDiv (16 * (reading - thetaRef)) thetaStep

/-- The increment of a step count k of -128 to 63 (04 R60). -/
def increment (k : Int) : Nat := (stepScale 50000 65536 k).toNat

/-- The zone factor of a reading and a sensor state (04 R59, R60). -/
def zoneFactor (reading thetaRef thetaStep : Int) (sensor : Sensor) : Factor :=
  let k := stepCount reading thetaRef thetaStep
  if k < -128 then ⟨k, false, sensor ≠ .normal, 0⟩
  else if 63 < k then ⟨63, true, true, increment 63⟩
  else ⟨k, false, sensor ≠ .normal, increment k⟩

/-- The dose cap of a least step count and a greatest target (04 R72). -/
def doseCap (vMax arcLen : Int) (kMin : Option Int) (dMax : Option Int) : Int :=
  match kMin, dMax with
  | some k, some d =>
      if k < -128 then 0 else min vMax (stepScale (arcLen * 1000000) (65536 * d) k)
  | _, _ => vMax

/-! ## Probes joining the list (04 R64, R65) -/

/-- The trailing point A + L. -/
def Panel.trailing (p : Panel) : Int := p.arrival.getD 0 + p.length

/-- The panel's least probe point in (old, new] still to be handled (04 R65). -/
def Panel.pointIn (p : Panel) (old new : Int) : Option Int :=
  match p.dose with
  | none => none
  | some d =>
      let inside := fun x => old < x && x ≤ new
      let a := d.next.filter inside
      let b := if d.final && inside p.trailing then some p.trailing else none
      minCap a b

def nextPoint (q : List Panel) (old new : Int) : Option Int :=
  q.foldl (fun m p => minCap m (p.pointIn old new)) none

/-- The panel with the point at `pos` handled: its cursor moves on, its final mark is cleared at its trailing
point (04 R65). -/
def Panel.handle (p : Panel) (pos spacing : Int) : Panel :=
  match p.dose with
  | none => p
  | some d =>
      let next := if d.next = some pos then
          (if pos + spacing < p.trailing then some (pos + spacing) else none) else d.next
      { p with dose := some { d with next := next, final := d.final && p.trailing ≠ pos } }

/-- The probe point at `pos`: one probe for every panel whose point it is, or SPARSE for each when the list
is full (04 R65). DESIGN CHOICE: owners of equal A stand in queue order (notes/assumptions/6.md). -/
def handlePoint (pos : Int) (s : State) : State :=
  let mine := fun p : Panel => p.pointIn (pos - 1) pos = some pos
  let owners := (sortBy (fun p : Panel => p.arrival.getD 0) (s.pq.queue.filter mine)).map fun p =>
    (⟨p.tag, p.trailing = pos⟩ : Owner)
  let full := Config.probeCap ≤ s.dose.probes.length
  let s := s.upPq fun q =>
    { q with queue := q.queue.map fun p =>
        if mine p then
          let p := p.handle pos s.par.spacing
          { p with flags := { p.flags with sparse := p.flags.sparse || full } }
        else p }
  if full then s
  else s.upDose fun d =>
    { d with probes := d.probes ++ [⟨owners, pos, pos + s.par.arcLen, s.heat.enables,
        ⟨0, 0, 0, 0, 0, 0⟩, false, false, false, false⟩] }

/-- Every probe point in (old, new] in ascending order, at most `fuel` of them. -/
def createProbes : Nat → Int → Int → State → State
  | 0, _, _, s => s
  | fuel + 1, old, new, s =>
      match nextPoint s.pq.queue old new with
      | some pos => createProbes fuel old new (handlePoint pos s)
      | none => s

/-- A bound on the probe points of the panels in the queue (04 R64). -/
def pointBound (q : List Panel) (spacing : Int) : Nat :=
  q.foldl (fun n p => n + (floorDiv p.length spacing).toNat + 2) 0

/-! ## Probes leaving the list (04 R67) -/

/-- The lesser of an optional minimum and a dose; the greater of an optional maximum and a dose. -/
def foldMin (m : Option Nat) (d : Nat) : Option Nat := some (match m with | some x => min x d | none => d)
def foldMax (m : Option Nat) (d : Nat) : Option Nat := some (match m with | some x => max x d | none => d)

/-- A probe's doses over the zones of its set. -/
def Probe.doses (b : Probe) : List Nat :=
  (Zone.all.filter (fun z => b.zones.get z)).map fun z => b.dose.get z

/-- A probe folded into the dose fields of an owner (04 R67). -/
def DoseFields.fold (d : DoseFields) (b : Probe) : DoseFields :=
  { d with
    minima := Six.ofZone fun z =>
      if b.zones.get z then foldMin (d.minima.get z) (b.dose.get z) else d.minima.get z
    maximum := b.doses.foldl foldMax d.maximum
    folds := d.folds + 1
    uncertain := d.uncertain || b.uncertain }

/-- A probe folded into an owner's record (04 R67). -/
def Panel.fold (p : Panel) (b : Probe) : Panel :=
  { p with
    dose := p.dose.map fun d => d.fold b
    flags := { p.flags with
      stopAffected := p.flags.stopAffected || b.stopped
      nipOpen := p.flags.nipOpen || b.nipOpen
      excluded := p.flags.excluded || b.excluded } }

def foldProbe (s : State) (b : Probe) : State :=
  b.owners.foldl (fun s o => updPanel o.tag (fun p => p.fold b) s) s

/-- Take out of the list, from its head, every probe whose exit has been reached, folding each into its
owners (04 R67). -/
def exitProbes (new : Int) (s : State) : State :=
  let out := s.dose.probes.takeWhile fun b => b.exit ≤ new
  out.foldl foldProbe (s.upDose fun d => { d with probes := d.probes.dropWhile fun b => b.exit ≤ new })

/-! ## DONE, verdict and learning (04 R68 to R70, 07 R126) -/

def listMin : List Nat → Option Nat
  | [] => none
  | x :: xs => some (xs.foldl min x)

/-- The verdict of a panel against its profile (04 R69). -/
def verdictOf (p : Panel) (d : DoseFields) (e : Entry) : Verdict :=
  let lo := floorDiv (e.target * (100 - e.allowUnder)) 100
  let hi := floorDiv (e.target * (100 + e.allowOver)) 100
  if p.verdict = some .spoiled then .spoiled
  else if d.uncertain then .uncertain
  else
    match listMin (d.minima.toList.filterMap id) with
    | none => .uncertain
    | some m =>
        if (m : Int) < lo then .underDose
        else if hi < (d.maximum.getD 0 : Nat) then .overDose
        else .good

/-- The panel's result is offered to the profile table (04 R70). -/
def offers (v : Verdict) (f : CondFlags) : Bool :=
  !(v = .spoiled || v = .uncertain) &&
    !(f.stopAffected || f.nipOpen || f.spliceAffected || f.excluded || f.sparse)

/-- A panel becomes DONE: verdict, learning offer, report (04 R68 to R71). -/
def judgePanel (p : Panel) (s : State) : State :=
  match p.dose with
  | none => s
  | some d =>
      let v := verdictOf p d (s.prf.entry p.profile)
      let offer := offers v p.flags
      let s := updPanel p.tag (fun p =>
        { p with
          state := .done, verdict := some v, offered := offer
          dose := some { d with capHeld := false } }) s
      let s := if offer then
          s.upPrf fun t =>
            { t with entries := modifyAt (fun e => e.learn d.minima) p.profile t.entries }
        else s
      becomeDone p.tag (some .forward) s

/-- A panel reaches A + L + Lc: the done deadline is taken first where it is still PRINTING (07 R126). -/
def panelDone (tag : Nat) (s : State) : State :=
  let s := match s.queued? tag with
    | some p =>
        if p.state = .printing then
          match s.pq.live.find? (fun t => t.tag = tag) with
          | some t => doneDeadline t (some .forward) s
          | none => s
        else s
    | none => s
  match s.queued? tag with
  | some p => judgePanel p s
  | none => s

/-- The panels that become DONE at an update to `new`, in ascending order of A (04 R68). DESIGN CHOICE: at equal A
the panels go in queue order (notes/assumptions/6.md). -/
def doneAt (q : List Panel) (arcLen new : Int) : List Nat :=
  (sortBy (fun p : Panel => p.arrival.getD 0)
    (q.filter fun p => p.dosed && p.trailing + arcLen ≤ new)).map Panel.tag

/-- The dose unit at a forward count update of PP (04 R65, R67, R68). -/
def doseUpdate (old new : Int) (s : State) : State :=
  let s := createProbes (pointBound s.pq.queue s.par.spacing) old new s
  let s := exitProbes new s
  (doneAt s.pq.queue s.par.arcLen new).foldl (fun s tag => panelDone tag s) s

/-! ## The dose sample (04 R66, R71, R72, R74) -/

/-- A probe at a dose sample (04 R66). -/
def Probe.sample (b : Probe) (enables : Six Bool) (f : Six Factor) (closed rest exclude : Bool) : Probe :=
  let zones := Six.zipWith (· && ·) b.zones enables
  { b with
    zones := zones
    dose := if closed then
        Six.ofZone fun z =>
          if zones.get z then satAdd Config.doseMax (b.dose.get z) (f.get z).incr else b.dose.get z
      else b.dose
    nipOpen := b.nipOpen || !closed
    stopped := b.stopped || (closed && rest)
    uncertain := b.uncertain || Zone.all.any fun z => zones.get z && (f.get z).uncertain
    excluded := b.excluded || exclude }

/-- The zone factors of a sample (04 R59, R60). -/
def State.zoneFactors (s : State) : Six Factor :=
  s.heat.zones.map fun z => zoneFactor z.lastValid s.par.thetaRef s.par.thetaStep z.sensor

/-- The horizon H (04 R71). -/
def State.horizonNow (s : State) : Int :=
  s.par.arcLen + floorDiv (s.mot.vref * s.mot.vref) (2 * s.par.aDn)

/-- The panel gets its cap held mark when its A lies at or below PP + H (04 R71). -/
def Panel.markCap (p : Panel) (limit : Int) : Panel :=
  match p.dose, p.arrival with
  | some d, some a =>
      if p.state ≠ .done && a ≤ limit then { p with dose := some { d with capHeld := true } } else p
  | _, _ => p

def Panel.holdsCap (p : Panel) : Bool :=
  match p.dose with
  | some d => d.capHeld
  | none => false

/-- The least k over the enabled zones (04 R72). -/
def leastK (enables : Six Bool) (f : Six Factor) : Option Int :=
  Zone.all.foldl (fun m z => if enables.get z then minCap m (some (f.get z).k) else m) none

/-- The greater of two optional targets. -/
def maxTarget : Option Int → Int → Option Int
  | none, d => some d
  | some a, d => some (max a d)

/-- The greatest target of the panels that hold the cap (04 R72). -/
def State.greatestTarget (s : State) : Option Int :=
  (s.pq.queue.filter Panel.holdsCap).foldl (fun m p => maxTarget m (s.prf.entry p.profile).target) none

/-- The floor condition (04 R74). -/
def State.belowFloor (s : State) : Bool :=
  s.mot.line = .running && s.dose.vDose < s.par.vFloor && s.dose.vDose < s.mot.vref

/-- The floor condition is judged: UNDERSPEED for every panel in the arc, and one DOSE_FLOOR for each run of
samples in the condition (04 R74). -/
def judgeFloor (s : State) : State :=
  if s.belowFloor then
    let raised := !s.dose.floorFlag
    let s := (s.upDose fun d => { d with floorFlag := true }).upPq fun q =>
      { q with queue := q.queue.map fun p =>
          if p.inArc then { p with flags := { p.flags with underspeed := true } } else p }
    if raised then warn (.doseFloor s.dose.vDose s.dose.dMax) s else s
  else s.upDose fun d => { d with floorFlag := false }

/-- The dose sample: zone factors, probes, the cap held marks and the dose cap, the floor condition
(04 4.2, R59 to R74). -/
def doseSample (s : State) : State :=
  let f := s.zoneFactors
  let s := s.upDose fun d =>
    { d with
      factors := some f
      probes := d.probes.map fun b =>
        b.sample s.heat.enables f (s.mot.nip = .closed) (s.mot.vref = 0) s.trg.effects.exclude }
  let h := s.horizonNow
  let s := s.upPq fun q => { q with queue := q.queue.map fun p => p.markCap (s.pp + h) }
  let kMin := leastK s.heat.enables f
  let dMax := s.greatestTarget
  judgeFloor (s.upDose fun d =>
    { d with
      kMin := kMin, dMax := dMax, horizon := some h
      vDose := doseCap s.par.vMax s.par.arcLen kMin dMax })

end Sys2Proof.Machine
end

