-- ==== Sys2Proof/Machine/FabricOps.lean ====
section
/-! DEFINITION. The splice list: a detection, the points of the records, the panels in the arc (09 R162 to
R164). -/

namespace Sys2Proof.Machine
open Sys2Proof

/-- The record of a splice detected at `fp` (09 R160). -/
def newSplice (fp : Int) (next : Option Nat) (lFn lFr margin arcLen : Int) : Splice where
  fp := fp
  next := next
  nipStart := fp + lFn - margin
  nipEnd := fp + lFn + arcLen + margin
  rewindPoint := fp + lFr

/-- A splice detection (09 R162): the announced entry and its reference move into the record. -/
def detectSplice (fp : Int) (s : State) : State :=
  if s.trg.splices.length < Config.spliceCap then
    let next := s.trg.announced
    let r := newSplice fp next s.par.lFn s.par.lFr s.par.margin s.par.arcLen
    let s := s.upTrg fun u => { u with splices := u.splices ++ [r], announced := none }
    let s := if next.isSome then setPointer .feed next s else s
    notice (.spliceSeen fp next s.trg.splices.length) s
  else raise .spliceOverflow none s

/-- Every panel in the arc gets SPLICE_AFFECTED (09 R164). -/
def markArc (s : State) : State :=
  s.upPq fun q =>
    { q with queue := q.queue.map fun p =>
        if p.inArc then { p with flags := { p.flags with spliceAffected := true } } else p }

/-- The points of a splice record (09 R163). -/
inductive SplicePoint | nipStart | nipEnd | rewind
deriving DecidableEq, Repr

/-- The points a record acts on at a forward update to `new`, with their positions (09 R163;
notes/assumptions/33.md). -/
def Splice.points (r : Splice) (new : Int) : List (Int × SplicePoint) :=
  (if r.state = .approaching && r.nipStart ≤ new then [(r.nipStart, .nipStart)] else [])
    ++ (if r.state ≠ .passedNip && r.nipEnd < new then [(r.nipEnd, .nipEnd)] else [])
    ++ (if !r.switched && r.rewindPoint ≤ new then [(r.rewindPoint, .rewind)] else [])

/-- A point of the record at place `i` (09 R163). -/
def actPoint (s : State) (x : Nat × SplicePoint) : State :=
  match s.trg.splices[x.1]? with
  | none => s
  | some r =>
      let put := fun (f : Splice → Splice) (s : State) =>
        s.upTrg fun u => { u with splices := modifyAt f x.1 u.splices }
      let switch := fun (p : Pointer) (s : State) => if r.next.isSome then setPointer p r.next s else s
      match x.2 with
      | .nipStart => markArc (switch .nip (put (fun r => { r with state := .atNip }) s))
      | .nipEnd => put (fun r => { r with state := .passedNip }) s
      | .rewind => switch .rewind (put (fun r => { r with switched := true }) s)

def Splice.finished (r : Splice) : Bool := r.state = .passedNip && r.switched

/-- Free every record that has passed the nip with its rewind switched (09 R163). -/
def freeSplices (s : State) : State :=
  (s.trg.splices.filter Splice.finished).foldl (fun s r => dropRef? r.next s)
    (s.upTrg fun u => { u with splices := u.splices.filter fun r => !r.finished })

/-- The splice list at a count update of FP (09 R163). -/
def spliceUpdate (old new : Int) (s : State) : State :=
  if old < new then
    let points := (indexed 0 s.trg.splices).flatMap fun (i, r) =>
      (r.points new).map fun (pos, k) => (pos, i, k)
    freeSplices ((sortBy Prod.fst points).foldl (fun s x => actPoint s x.2) s)
  else s

end Sys2Proof.Machine
end

