-- ==== Sys2Proof/Machine/MarkOps.lean ====
section
/-! DEFINITION. The mark tracker: its two steps, the judging of a mark, the expiry of windows, the high
point (08 R136 to R143). -/

namespace Sys2Proof.Machine
open Sys2Proof

/-- The filter update of S (08 R137). -/
def slipFilter (slip e gain : Int) : Int := slip + floorDiv (e - slip) (2 ^ gain.toNat)

/-- A good-mark step with the mark's slip `e` (08 R137). -/
def Marks.good (m : Marks) (e gain tol : Int) : Marks :=
  match m.state with
  | .unlocked => { m with slip := e, state := .provisional }
  | .provisional =>
      if |e - m.slip| ≤ tol then { m with slip := slipFilter m.slip e gain, state := .locked }
      else { m with slip := e }
  | .locked | .holdover => { m with slip := slipFilter m.slip e gain, state := .locked }

/-- The tracker state after a miss step (08 R137). -/
def TrackState.miss : TrackState → TrackState
  | .unlocked | .provisional | .holdover => .unlocked
  | .locked => .holdover

/-- A miss step, with MARK_LOST where it finds HOLDOVER (08 R137). -/
def missStep (tag : Nat) (s : State) : State :=
  let lost := s.mrk.state = .holdover
  let s := s.upMrk fun m => { m with state := m.state.miss }
  if lost then warn (.markLost s.mrk.slip tag) s else s

/-! ## A good mark (08 R138) -/

/-- The mark's slip. -/
def markSlip (e0 lMs : Int) : Int := clamp (-20000) 20000 (truncDiv (e0 * 1000000) lMs)

/-- The correction of the arrival. -/
def markCorrection (e0 lMs lPn : Int) : Int :=
  let limit := roundDiv (2 * lPn) 100
  clamp (-limit) limit (roundDiv (e0 * lPn) lMs)

/-- `p` lies in the window of the panel (08 R136). -/
def State.inWindow (s : State) (p : Int) (q : Panel) : Bool :=
  q.hasWindow
    && (match q.xs with
        | some xs => inRange (s.markCentre xs - s.par.wM) (s.markCentre xs + s.par.wM) p
        | none => false)

/-- The steps of a good mark for a panel placed at `xs`, in their order (08 R138); a panel whose A PP has
reached already arrives at this event (R145). -/
def goodMark (tag : Nat) (xs p : Int) (s : State) : State :=
  let e0 := p - (xs + s.par.lMs)
  let s := updPanel tag (fun q => { q with markResult := some (.error e0) }) s
  let a := xs + s.par.lPn + markCorrection e0 s.par.lMs s.par.lPn
  let s := resolveAnchors [(tag, a)] none (setArrival tag a s)
  let s := s.upMrk fun m => m.good (markSlip e0 s.par.lMs) s.par.gain s.par.tol
  arriveReached none s

/-- A MARK capture handed to the mark tracker (08 R138, R139). -/
def judgeMark (cap : Capture) (s : State) : State :=
  if cap.dir = .reverse then s
  else
    match s.pq.queue.find? (s.inWindow cap.value) with
    | some q => goodMark q.tag (q.xs.getD 0) cap.value s
    | none => warn (.markStray cap.value cap.at_) (s.upMrk fun m => { m with stray := true })

/-! ## Count updates of PP (08 R140, R141, R143) -/

/-- The panels whose window, or would-be window, ends below `new`, in ascending x_s (08 R140, R141). -/
def State.expired (s : State) (new : Int) : List Panel :=
  sortBy (fun q => q.xs.getD 0)
    (s.pq.queue.filter fun q =>
      q.travelling && (q.hasWindow || !q.expectsMark)
        && (match q.xs with
            | some xs => s.markCentre xs + s.par.wM < new
            | none => false))

/-- One expired panel: MISSED with a miss step where it had a window (08 R140), else an arrival without a mark
(R141). -/
def expirePanel (s : State) (q : Panel) : State :=
  let a := s.slipArrival (q.xs.getD 0)
  if q.hasWindow then
    let s := updPanel q.tag
      (fun q => { q with markResult := some .missed, flags := { q.flags with markMissed := true } }) s
    missStep q.tag (setArrival q.tag a s)
  else setArrival q.tag a s

/-- The mark tracker at a count update of PP to `new` (08 R140, R141, R143). DESIGN CHOICE: every MARK_LOST of the update
comes before the LATE TRIGGER_FIRED notices of the anchors its arrivals resolve (notes/assumptions/6.md). -/
def markUpdate (old new : Int) (s : State) : State :=
  if old < new then
    let s := s.upMrk fun m => { m with high := max m.high new }
    let gone := s.expired new
    resolveAnchors (gone.map fun q => (q.tag, s.slipArrival (q.xs.getD 0))) (some .forward)
      (gone.foldl expirePanel s)
  else if new < s.mrk.high - s.par.wM then s.upMrk fun m => { m with state := .unlocked }
  else s

end Sys2Proof.Machine
end

