-- ==== Sys2Proof/Machine/CountUpdate.lean ====
section
/-! DEFINITION. A count update handed to the blocks that observe it, in the order of notes/assumptions/6.md
(01 R7), and the batch that brings it (01 R3). -/

namespace Sys2Proof.Machine
open Sys2Proof

/-! ## The seek (02 R37) -/

/-- The seek record at a count update of PP (02 R37). -/
def Seek.count (k : Seek) (old new : Int) : Seek :=
  match k.state with
  | .moving =>
      let k := { k with remaining := max 0 (k.remaining - |new - old|) }
      if k.remaining = 0 then k.finish .distance new else k
  | .suspended => { k with remaining := max 0 (k.remaining - |new - old|) }
  | .idle | .ended => k

def seekUpdate (old new : Int) (s : State) : State :=
  s.upMot fun m => { m with seek := m.seek.count old new }

/-! ## Position deadlines and done deadlines (07 R119, R125) -/

/-- The deadline of a live transaction that an update to `new` reaches. -/
def deadlineAt (new : Int) (s : State) (t : Txn) : State :=
  match s.queued? t.tag with
  | some p =>
      match t.phase with
      | .awaitAccept => if p.xs.getD 0 ≤ new then startingDeadline t (some .forward) s else s
      | .printing =>
          if p.xs.getD 0 + p.length + s.par.mDone ≤ new then doneDeadline t (some .forward) s else s
  | none => s

/-- The deadlines that PP reaches (07 R125). DESIGN CHOICE: two reached by one update are taken in the order of their
STARTs (notes/assumptions/6.md). -/
def deadlineUpdate (new : Int) (s : State) : State := s.pq.live.foldl (deadlineAt new) s

/-! ## The updates -/

/-- A count update of PP from `old` to `new` (01 R7). DESIGN CHOICE: only a forward update reaches a deadline of R119 or
R125 (notes/assumptions/41.md). -/
def ppUpdate (old new : Int) (s : State) : State :=
  let s := judgeWindows .paper old new (fireCrossed .paper old new s)
  let s := seekUpdate old new (markUpdate old new s)
  let s := if old < new then
      doseUpdate old new (arriveReached (some .forward) (deadlineUpdate new s))
    else s
  decide_ s

/-- A count update of FP from `old` to `new` (01 R7). -/
def fpUpdate (old new : Int) (s : State) : State :=
  spliceUpdate old new (judgeWindows .fabric old new (fireCrossed .fabric old new s))

/-- A count update handed to the blocks that observe the channel; DC is handed to none (01 R7). -/
def handOn : Chan → Int → Int → State → State
  | .paper => ppUpdate
  | .fabric => fpUpdate
  | .drum => fun _ _ s => s

/-- POSITION_RANGE is raised where the OVERRANGE flag of PP or FP has changed from clear to set (01 R6). -/
def rangeFault (ch : Chan) (old new : Channel) (s : State) : State :=
  if !old.overrange && new.overrange && ch ≠ .drum then raise .positionRange (some ch.num) s else s

/-- A batch of ticks on a channel (01 R2 to R7). -/
def tickBatch (ch : Chan) (x : Ticks) (s : State) : State :=
  let c := s.cnt.chan.get ch
  let c' := c.take x
  let s := rangeFault ch c c' (s.upCnt fun k => { k with chan := k.chan.set ch c' })
  if c'.count = c.count then s else handOn ch c.count c'.count s

end Sys2Proof.Machine
end

