-- ==== Sys2Proof/Machine/TensionOps.lean ====
section
/-! DEFINITION. The tension loops at the 10 ms sample (05). -/

namespace Sys2Proof.Machine
open Sys2Proof

/-- The measured force of a converter result (05 R80). -/
def forceOf (raw : Int) : Int := clamp (-2000) 20000 raw

/-- A tension of 0 gives no setpoint (05 R81). -/
def nonzero (n : Int) : Option Int := if n = 0 then none else some n

/-- The setpoint of a loop from its source (05 R81). -/
def State.loopSet (s : State) : Loop → Option Int
  | .feed => s.trg.feed.bind fun n => nonzero (s.prf.entry n).feedTension
  | .unwind => nonzero s.par.tPaper
  | .rewind => s.trg.rewind.bind fun n => nonzero (s.prf.entry n).rewindTension

/-- The error of a loop (05 R80). -/
def LoopRec.error (l : LoopRec) : Loop → Int
  | .feed => l.force - l.work
  | .unwind | .rewind => l.work - l.force

/-- The state a loop takes (05 R82). -/
def loopStateAt (heat estop : Bool) (l : LoopRec) (set : Option Int) (vref : Int) (hold : Bool) : LoopState :=
  if !heat then .off
  else if estop then .fault
  else if l.state = .fault then .fault
  else if set.isNone then .off
  else if vref = 0 then .standby
  else if hold then .hold
  else .regulate

/-- The target of a loop that runs (05 R84). -/
def loopTarget (fStand : Int) (st : LoopState) (set : Int) : Int :=
  if st = .standby then floorDiv (set * fStand) 100 else set

/-- W moves toward the target by at most the slew rate (05 R84). -/
def slew (w target rate : Int) : Int :=
  if w < target then min target (w + rate) else if target < w then max target (w - rate) else w

/-- Output range of a loop (05, the table of loops). -/
def outRange : Loop → Int × Int
  | .feed => (-500, 500)
  | .unwind | .rewind => (0, 1000)

/-- Base output of a loop (05 R85). -/
def State.baseOut (s : State) : Loop → Int
  | .feed => 0 | .unwind => s.par.ffUnw | .rewind => s.par.ffRew

/-- The controller of a loop (05 R85). -/
def LoopRec.control (l : LoopRec) (which : Loop) (ff kp ki : Int) : LoopRec :=
  let e := l.error which
  let (lo, hi) := outRange which
  let u := ff + floorDiv (kp * e) 64 + l.integ
  { l with
    out := clamp lo hi u
    integ := if (hi < u && 0 < e) || (u < lo && e < 0) then l.integ
      else clamp (-1000) 1000 (l.integ + floorDiv (ki * e) 256) }

/-- A loop moves into STANDBY, REGULATE or HOLD with its target, and W slews (05 R83, R84). -/
def LoopRec.enter (l : LoopRec) (st : LoopState) (target rate : Int) : LoopRec :=
  let w := if l.state = .off then clamp 0 target l.force else l.work
  let rest := decide (st = .standby)
  { l with
    state := st, target := target, work := slew w target rate
    brkTimer := if rest then 0 else l.brkTimer
    overTimer := if rest then 0 else l.overTimer }

/-- The output of a loop in STANDBY, REGULATE or HOLD (05 R85, R86, R83). -/
def LoopRec.drive (l : LoopRec) (which : Loop) (ff kp ki : Int) : LoopRec :=
  match l.state with
  | .regulate => l.control which ff kp ki
  | .standby => if which = .feed then { l with out := 0 } else l.control which ff kp ki
  | .hold | .off | .fault => l

/-- A limit timer at a sample (05 R87, R88). -/
def limitTimer (limit t : Nat) (beyond : Bool) : Nat := if beyond then satAdd limit t 10 else 0

/-- The loop judges its limits (05 R82). -/
def LoopRec.judged (l : LoopRec) : Bool := l.state = .regulate || l.state = .hold

/-- The break and over timers of a loop in REGULATE or HOLD (05 R87, R88). -/
def LoopRec.judge (l : LoopRec) (p : Params) : LoopRec :=
  if l.judged then
    { l with
      brkTimer := limitTimer p.tBreak.toNat l.brkTimer (l.force < floorDiv (l.work * p.fBreak) 100)
      overTimer := limitTimer p.tOver.toNat l.overTimer (floorDiv (l.work * p.fOver) 100 < l.force) }
  else l

/-- A loop reads its cell, its setpoint and its limits (05 R80, R81, R92). -/
def LoopRec.read (l : LoopRec) (raw : Int) (set : Option Int) (p : Params) : LoopRec :=
  { l with force := forceOf raw, set := set, tBreak := p.tBreak, tOver := p.tOver, fOver := p.fOver }

/-- A loop at the sample, up to the faults of its limits (05 R80 to R88). -/
def LoopRec.sample (l : LoopRec) (which : Loop) (s : State) (raw : Int) : LoopRec :=
  let set := s.loopSet which
  let l := l.read raw set s.par
  let st := loopStateAt s.heat.on s.pins.estop l set s.mot.vref (s.trg.effects.hold.get which)
  match st with
  | .off => l.toOff
  | .fault => if l.state = .fault then l else l.toFault .estop
  | .standby | .regulate | .hold =>
      ((l.enter st (loopTarget s.par.fStand st (set.getD 0)) s.par.rSlew).drive which (s.baseOut which)
        (s.par.loopKp.get which) (s.par.loopKi.get which)).judge s.par

/-- A limit timer of a loop that is judged has reached its time. -/
def LoopRec.reached (l : LoopRec) (limit : Int) (t : Nat) : Bool := l.judged && 0 < t && limit ≤ t

/-- A loop enters FAULT for a limit, and the critical fault is raised (05 R87, R88). -/
def loopFault (l : Loop) (c : LoopCause) (f : Cause) (s : State) : State :=
  raise f (some l.num) (s.upTen fun t => t.set l ((t.get l).toFault c))

/-- One loop takes the sample, and raises the fault of a limit timer that has reached its time. -/
def loopSample (raw : Loops Int) (s : State) (l : Loop) : State :=
  let s := s.upTen fun t => t.set l ((t.get l).sample l s (raw.get l))
  let r := s.ten.get l
  if r.reached s.par.tBreak r.brkTimer then loopFault l .webBreak .webBreak s
  else if r.reached s.par.tOver r.overTimer then loopFault l .overTension .overTension s
  else s

/-- The tension unit takes the 10 ms sample: LC1 is FEED, LC0 UNWIND, LC2 REWIND (05, the table of loops). -/
def tensionSample (lc0 lc1 lc2 : Int) (s : State) : State :=
  Loop.all.foldl (loopSample ⟨lc1, lc0, lc2⟩) s

end Sys2Proof.Machine
end

