-- ==== Sys2Proof/Machine/MotionOps.lean ====
section
/-! DEFINITION. The motion controller: the governor's sample, the nip limits and timers, moves in THREADING
(02). -/

namespace Sys2Proof.Machine
open Sys2Proof

/-! ## The speed governor (02 R26, R28, R29, R38) -/

/-- The least of a speed and an optional cap. -/
def capped (v : Int) : Option Int → Int
  | none => v
  | some c => min v c

/-- The ramp target (02 R28). -/
def State.rampTarget (s : State) : Int :=
  if s.pins.estop then 0
  else
    match s.mot.line with
    | .running =>
        if s.mot.nip = .closed then
          capped (min (min s.par.vSet s.par.vMax) (max s.dose.vDose s.par.vFloor)) s.trg.effects.cap
        else 0
    | .threading =>
        if s.mot.seek.state = .moving then
          if s.mot.seek.remaining ≤ floorDiv (s.mot.vref * s.mot.vref) (2 * s.par.aDn) then 0
          else min s.par.vJog s.par.vMax
        else 0
    | .off | .warming | .ready | .stopping | .halting | .faulted => 0

/-- One step of v_ref toward the target (02 R29). -/
def stepSpeed (p : Params) (line : LineState) (v target : Int) : Int :=
  if v < target then min target (v + floorDiv p.aUp 100)
  else if target < v then
    max target (v - floorDiv (if line = .halting then p.aHalt else p.aDn) 100)
  else v

/-- A reverse jog is MOVING. -/
def Seek.reversing (k : Seek) : Bool := k.state = .moving && k.kind = .jog && k.dir = .reverse

/-- The DRUM output for a speed and a direction (02 R29). -/
def drumOut (v : Int) (d : Dir) : Int :=
  match d with
  | .forward => floorDiv v 50
  | .reverse => -(floorDiv v 50)

/-- Target, v_ref, drive direction and DRUM at the sample (02 R26, R28, R29). -/
def governor (s : State) : State :=
  let target := s.rampTarget
  let v := if s.pins.estop then 0 else stepSpeed s.par s.mot.line s.mot.vref target
  let drive := if v = 0 && !s.mot.seek.reversing then .forward else s.mot.drive
  s.upMot fun m =>
    { m with target := target, vref := v, drive := drive, drum := drumOut v drive, capRead := s.dose.vDose }

/-- The overshoot of an ENDED move (02 R38; notes/assumptions/12.md). -/
def State.overshoot (s : State) (k : Seek) : Option Int :=
  match k.state, k.endPos with
  | .ended, some e =>
      some ((if k.cause = some .condition && k.cond = .splice then s.fp else s.pp) - e)
  | _, _ => none

/-- The SEEK_ENDED notice at the first sample at which v_ref is 0 with the notice due (02 R38). -/
def seekNotice (s : State) : State :=
  let k := s.mot.seek
  if k.due && s.mot.vref = 0 then
    notice (.seekEnded k.kind k.cause k.endPos k.remaining (s.overshoot k))
      (s.upMot fun m => { m with seek := { k with due := false } })
  else s

/-- v_ref reaches 0 in STOPPING with the nip CLOSED: the hold begins (02 R22). -/
def beginHold (before : Int) (s : State) : State :=
  if s.mot.line = .stopping && s.mot.nip = .closed && 0 < before && s.mot.vref = 0 then startHold s else s

/-- v_ref is 0 at a sample in HALTING (02 R24). -/
def haltComplete (s : State) : State :=
  if s.mot.line = .halting && s.mot.vref = 0 then setLine .faulted .haltComplete s else s

/-- The motion controller takes the 10 ms sample (02 2.4, R22, R24, R38). DESIGN CHOICE: a STATE_CHANGE of the sample comes
before SEEK_ENDED (notes/assumptions/6.md). -/
def motionSample (s : State) : State :=
  seekNotice (haltComplete (beginHold s.mot.vref (governor s)))

/-- The speed and tension sample: the motion controller, with the counting unit and the tension unit each
before or after it (01 R9, 05). DESIGN CHOICE: with both on one side of it the counting unit goes first, so that STALL
is raised before WEB_BREAK and OVER_TENSION, where 10 R169 leaves the order open (notes/assumptions/7.md). -/
def speedSample (lc0 lc1 lc2 : Int) (countAfter tensionAfter : Bool) (s : State) : State :=
  let s := if countAfter then s else countSample s
  let s := if tensionAfter then s else tensionSample lc0 lc1 lc2 s
  let s := motionSample s
  let s := if countAfter then countSample s else s
  if tensionAfter then tensionSample lc0 lc1 lc2 s else s

/-! ## Nip limits and timers (02 R32, R33) -/

/-- A confirmed nip at a change of its limits: the timer starts when they leave the pair and stops when they
return (02 R32). -/
def watchPair (pair : Bool) (s : State) : State :=
  s.upMot fun m =>
    { m with nipTimer := if pair then .stopped else if m.nipTimer = .stopped then .running 0 else m.nipTimer }

/-- NIPC and NIPO take the levels given (02 R32). -/
def nipLimits (nipc nipo : Bool) (s : State) : State :=
  let s := s.upPins fun p => { p with nipc := nipc, nipo := nipo }
  match s.mot.nip with
  | .closing =>
      if s.pins.closedPair then s.upMot fun m => { m with nip := .closed, nipTimer := .stopped } else s
  | .opening => if s.pins.openPair then nipOpened s else s
  | .closed => watchPair s.pins.closedPair s
  | .opened => watchPair s.pins.openPair s

/-- The nip timer reaches t_nip (02 R32). -/
def nipExpires (s : State) : State :=
  raise .nipTimeout none (s.upMot fun m => { m with nipTimer := .standing s.par.tNip.toNat })

/-! ## Commands on the line state (02 R20 to R23) -/

/-- START is taken in READY or STOPPING: RUNNING, the hold stopped, the nip commanded closed; the dispatcher
tests for a decision (02 R21, 07 R115). -/
def startLine (s : State) : State :=
  let s := setLine .running .start s
  decide_ (nipClose (s.upMot fun m => { m with hold := .stopped }))

/-- STOP is taken in RUNNING (02 R22). -/
def stopLine (s : State) : State :=
  let s := setLine .stopping .stop s
  let s := s.upMot fun m => { m with target := 0 }
  if s.mot.nip = .closing then nipOpen s
  else if s.mot.nip = .closed && s.mot.vref = 0 then startHold s
  else s

/-! ## Moves (02 R35 to R38) -/

/-- The refusal common to SEEK and JOG, after their RANGE (02 R35, R36). -/
def moveRefusal (s : State) : Option Status :=
  if s.mot.line ≠ .threading then some .state
  else if 0 < s.mot.vref || s.mot.seek.state = .moving then some .busy
  else none

/-- A move is taken (02 R35, R36; notes/assumptions/25.md). -/
def takeMove (kind : SeekKind) (dir : Dir) (distance : Int) (cond : SeekCond) (s : State) : State :=
  s.upMot fun m =>
    { m with
      drive := dir
      seek := { state := .moving, kind := kind, dir := dir, remaining := distance, cond := cond,
                cause := none, endPos := none, due := false } }

/-- SEEK_RESUME is taken (02 R38). -/
def resumeMove (s : State) : State :=
  let k := s.mot.seek
  if 0 < k.remaining then
    s.upMot fun m =>
      { m with drive := k.dir, seek := { k with state := .moving, cause := none, due := false } }
  else s.upMot fun m => { m with seek := k.finish .distance s.pp }

/-- A capture as a stop condition (02 R37). -/
def captureEnds (cond : SeekCond) (p : Int) (s : State) : State :=
  if s.mot.seek.state = .moving && s.mot.seek.cond = cond then
    s.upMot fun m => { m with seek := m.seek.finish .condition p }
  else s

end Sys2Proof.Machine
end

