-- ==== Sys2Proof/Machine/ParamOps.lean ====
section
/-! DEFINITION. The parameters: ids, ranges, bounds, refusals, values and the effects of a write (11 R183 and
the parameter tables of chapters 1 to 5 and 7 to 10). -/

namespace Sys2Proof.Machine
open Sys2Proof

/-- The parameters. -/
inductive Param where
  | mEnc (c : Chan) | tpm (c : Chan) | tSil | silMask | dSlock
  | vMax | vSet | aUp | aDn | aHalt | vJog | vFloor | tNip | tHold
  | kP | kI | mFire | thAbs | bReady | tSettle
  | thetaRef | thetaStep | arcLen | spacing
  | tPaper | rSlew | fStand | fBreak | tBreak | fOver | tOver | loopKp (l : Loop) | loopKi (l : Loop)
  | ffUnw | ffRew
  | gap | lead | tAcc | nRetry | mDone | dMark | bHead
  | lMs | lPn | wM | gain | tol
  | wOut (o : Output) | lFn | lFr | margin
  | tLink
deriving DecidableEq, Repr

/-- The parameter of an id (01 1.12, 02 2.9, 03 3.10, 04 4.8, 05 5.9, 07 7.14, 08 8.10, 09 9.6, 10 R175). -/
def Param.ofId : Nat → Option Param
  | 0x0101 => some (.mEnc .paper) | 0x0102 => some (.mEnc .fabric) | 0x0103 => some (.mEnc .drum)
  | 0x0111 => some (.tpm .paper) | 0x0112 => some (.tpm .fabric) | 0x0113 => some (.tpm .drum)
  | 0x0120 => some .tSil | 0x0121 => some .silMask | 0x0130 => some .dSlock
  | 0x0201 => some .vMax | 0x0202 => some .vSet | 0x0203 => some .aUp | 0x0204 => some .aDn
  | 0x0205 => some .aHalt | 0x0206 => some .vJog | 0x0207 => some .vFloor | 0x0210 => some .tNip
  | 0x0211 => some .tHold
  | 0x0301 => some .kP | 0x0302 => some .kI | 0x0303 => some .mFire | 0x0304 => some .thAbs
  | 0x0305 => some .bReady | 0x0306 => some .tSettle
  | 0x0401 => some .thetaRef | 0x0402 => some .thetaStep | 0x0403 => some .arcLen | 0x0404 => some .spacing
  | 0x0501 => some .tPaper | 0x0502 => some .rSlew | 0x0503 => some .fStand | 0x0504 => some .fBreak
  | 0x0505 => some .tBreak | 0x0506 => some .fOver | 0x0507 => some .tOver
  | 0x0511 => some (.loopKp .feed) | 0x0512 => some (.loopKi .feed)
  | 0x0513 => some (.loopKp .unwind) | 0x0514 => some (.loopKi .unwind)
  | 0x0515 => some (.loopKp .rewind) | 0x0516 => some (.loopKi .rewind)
  | 0x0521 => some .ffUnw | 0x0522 => some .ffRew
  | 0x0701 => some .gap | 0x0702 => some .lead | 0x0703 => some .tAcc | 0x0704 => some .nRetry
  | 0x0705 => some .mDone | 0x0706 => some .dMark | 0x0707 => some .bHead
  | 0x0801 => some .lMs | 0x0802 => some .lPn | 0x0803 => some .wM | 0x0804 => some .gain | 0x0805 => some .tol
  | 0x0901 => some (.wOut .out0) | 0x0902 => some (.wOut .out1) | 0x0903 => some (.wOut .out2)
  | 0x0904 => some (.wOut .out3) | 0x0905 => some (.wOut .markout)
  | 0x0910 => some .lFn | 0x0911 => some .lFr | 0x0912 => some .margin
  | 0x0A01 => some .tLink
  | _ => none

/-- A value lies in the parameter's range or list. -/
def Param.allows (p : Param) (v : Int) : Bool :=
  match p with
  | .mEnc _ => inRange 0 3 v
  | .tpm _ => inRange 1000 4000000 v
  | .tSil => inRange 20 2000 v
  | .silMask => inRange 0 7 v
  | .dSlock => inRange 0 100000 v
  | .vMax => inRange 1000 50000 v
  | .vSet => inRange 0 50000 v
  | .aUp => inRange 100 20000 v
  | .aDn => inRange 100 20000 v
  | .aHalt => inRange 1000 50000 v
  | .vJog => inRange 100 5000 v
  | .vFloor => inRange 100 5000 v
  | .tNip => inRange 100 10000 v
  | .tHold => inRange 0 60000 v
  | .kP => inRange 0 255 v
  | .kI => inRange 0 255 v
  | .mFire => inRange 1 6 v
  | .thAbs => inRange 2000 2600 v
  | .bReady => inRange 10 200 v
  | .tSettle => inRange 0 600 v
  | .thetaRef => inRange 1500 2300 v
  | .thetaStep => inRange 20 300 v
  | .arcLen => inRange 30000 300000 v
  | .spacing => inRange 2000 50000 v
  | .tPaper => inRange 0 5000 v
  | .rSlew => inRange 1 500 v
  | .fStand => inRange 10 100 v
  | .fBreak => inRange 5 80 v
  | .tBreak => inRange 50 2000 v
  | .fOver => inRange 120 400 v
  | .tOver => inRange 50 2000 v
  | .loopKp _ => inRange 0 255 v
  | .loopKi _ => inRange 0 255 v
  | .ffUnw => inRange 0 1000 v
  | .ffRew => inRange 0 1000 v
  | .gap => inRange 1000 100000 v
  | .lead => inRange 10000 200000 v
  | .tAcc => inRange 20 1000 v
  | .nRetry => inRange 0 7 v
  | .mDone => inRange 1000 100000 v
  | .dMark => inRange 0 500000 v
  | .bHead => bauds.contains v
  | .lMs => inRange 50000 1000000 v
  | .lPn => inRange 60000 1500000 v
  | .wM => inRange 50 2500 v
  | .gain => inRange 0 4 v
  | .tol => inRange 100 10000 v
  | .wOut _ => inRange 1 1000 v
  | .lFn => inRange 10000 2000000 v
  | .lFr => inRange 50000 4000000 v
  | .margin => inRange 1000 50000 v
  | .tLink => v = 0 || inRange 100 10000 v

/-- The bound of the paper path (08 8.1, R150), of the fabric path (09 R167) and of the probes in the arc
(04 R76). -/
def paperBound (lMs lPn wM : Int) : Bool := lMs + wM + 10000 ≤ lPn
def fabricBound (lFn lFr arcLen margin : Int) : Bool := lFn + arcLen + margin < lFr
def probeBound (arcLen spacing : Int) : Bool := arcLen ≤ 60 * spacing

/-- The value keeps the parameter's bounds with the others as they stand (02 R30, 03 3.10, 04 R76, 08 R150,
09 R167). -/
def State.bounded (s : State) (p : Param) (v : Int) : Bool :=
  match p with
  | .vSet => v ≤ s.par.vMax
  | .thAbs => !s.heat.on || Zone.all.all fun z => !(s.heat.zones.get z).enable || s.heat.zoneSet z ≤ v
  | .arcLen => probeBound v s.par.spacing && fabricBound s.par.lFn s.par.lFr v s.par.margin
  | .spacing => probeBound s.par.arcLen v
  | .lMs => paperBound v s.par.lPn s.par.wM
  | .lPn => paperBound s.par.lMs v s.par.wM
  | .wM => paperBound s.par.lMs s.par.lPn v
  | .lFn => fabricBound v s.par.lFr s.par.arcLen s.par.margin
  | .lFr => fabricBound s.par.lFn v s.par.arcLen s.par.margin
  | .margin => fabricBound s.par.lFn s.par.lFr s.par.arcLen v
  | _ => true

/-- The refusal of a write in the present state (01 R5, 04 R76, 07 R133, 08 R150, 09 R167). -/
def State.paramBar (s : State) (p : Param) : Option Status :=
  match p with
  | .mEnc _ | .tpm _ => if s.mot.line.moving then some .state else none
  | .thetaRef | .thetaStep | .dMark | .lFn | .lFr | .margin =>
      if s.mot.line.watched then some .state else none
  | .arcLen | .spacing =>
      if s.mot.line.watched || !s.dose.probes.isEmpty || s.pq.queue.any Panel.dosed then some .state else none
  | .lMs | .lPn | .wM =>
      if s.mot.line.watched || s.pq.queue.any (fun q => q.xs.isSome) then some .state else none
  | .bHead => if s.pq.live.isEmpty then none else some .busy
  | _ => none

/-- The value held (11 R183). -/
def State.param (s : State) : Param → Int
  | .mEnc c => (s.cnt.chan.get c).mode.code
  | .tpm c => (s.cnt.chan.get c).tpm
  | .tSil => s.par.tSil
  | .silMask => bits [s.par.silMask.paper, s.par.silMask.fabric, s.par.silMask.drum]
  | .dSlock => s.par.dSlock
  | .vMax => s.par.vMax
  | .vSet => s.par.vSet
  | .aUp => s.par.aUp
  | .aDn => s.par.aDn
  | .aHalt => s.par.aHalt
  | .vJog => s.par.vJog
  | .vFloor => s.par.vFloor
  | .tNip => s.par.tNip
  | .tHold => s.par.tHold
  | .kP => s.par.kP
  | .kI => s.par.kI
  | .mFire => s.par.mFire
  | .thAbs => s.par.thAbs
  | .bReady => s.par.bReady
  | .tSettle => s.par.tSettle
  | .thetaRef => s.par.thetaRef
  | .thetaStep => s.par.thetaStep
  | .arcLen => s.par.arcLen
  | .spacing => s.par.spacing
  | .tPaper => s.par.tPaper
  | .rSlew => s.par.rSlew
  | .fStand => s.par.fStand
  | .fBreak => s.par.fBreak
  | .tBreak => s.par.tBreak
  | .fOver => s.par.fOver
  | .tOver => s.par.tOver
  | .loopKp l => s.par.loopKp.get l
  | .loopKi l => s.par.loopKi.get l
  | .ffUnw => s.par.ffUnw
  | .ffRew => s.par.ffRew
  | .gap => s.par.gap
  | .lead => s.par.lead
  | .tAcc => s.par.tAcc
  | .nRetry => s.par.nRetry
  | .mDone => s.par.mDone
  | .dMark => s.par.dMark
  | .bHead => s.par.bHead
  | .lMs => s.par.lMs
  | .lPn => s.par.lPn
  | .wM => s.par.wM
  | .gain => s.par.gain
  | .tol => s.par.tol
  | .wOut o => s.par.wOut.get o
  | .lFn => s.par.lFn
  | .lFr => s.par.lFr
  | .margin => s.par.margin
  | .tLink => s.par.tLink

/-! ## Effects of a write -/

/-- Change one encoder channel. -/
def updChan (c : Chan) (f : Channel → Channel) (s : State) : State :=
  s.upCnt fun k => { k with chan := k.chan.set c (f (k.chan.get c)) }

/-- A write of the silence mask: a cleared bit stops its timer, a bit set again starts it from 0 with v_ref at the
floor (01 R9). -/
def maskTimer (old new : Bool) (vref : Int) (t : Timer) : Timer :=
  if !new then .stopped else if old then t else if Config.fastFloor ≤ vref then .running 0 else .stopped

def writeMask (m : Channels Bool) (s : State) : State :=
  let one := fun (c : Chan) (s : State) =>
    updChan c (fun k =>
      { k with silence := maskTimer (s.par.silMask.get c) (m.get c) s.mot.vref k.silence }) s
  (one .drum (one .fabric (one .paper s))).upPar fun p => { p with silMask := m }

/-- A write of t_nip: a timer already past the new value reaches expiry at once (02 2.9, note 3).
DESIGN CHOICE: a nip timer that stands keeps the value it stands at, and NIP_TIMEOUT its condition, whatever t_nip
becomes (notes/assumptions/35.md). -/
def writeNipTime (v : Int) (s : State) : State :=
  let s := s.upPar fun p => { p with tNip := v }
  match s.mot.nipTimer with
  | .running ms => if v ≤ ms then nipExpires s else s
  | .stopped | .standing _ => s

/-- A write of T_link starts and stops the link silence timer (10 R175). -/
def writeLinkTime (v : Int) (s : State) : State :=
  let old := s.par.tLink
  let s := s.upPar fun p => { p with tLink := v }
  if v = 0 then s.upFlt fun f => { f with link := .stopped }
  else if old = 0 && s.mot.line.watched then s.upFlt fun f => { f with link := .running 0 }
  else s

/-- The head link changes speed: a frame held in part is abandoned (07 R118). -/
def HeadLink.change (h : HeadLink) (v : Int) : HeadLink :=
  { h with baud := v, framer := if h.baud = v then h.framer else .hunting, pendingBaud := none }

/-- A write of b_head: at once with no frame being sent, else after that frame (07 R133). -/
def writeHeadBaud (v : Int) (s : State) : State :=
  (s.upPar fun p => { p with bHead := v }).upHead fun h =>
    if h.buf.isEmpty then h.change v else { h with pendingBaud := some v }

/-- A write of the input mode or the scale of a channel (01 R5). -/
def writeMode (c : Chan) (v : Int) (s : State) : State :=
  updChan c (fun k => { k with mode := (Mode.ofCode v).getD k.mode, rem := 0 }) s

def writeScale (c : Chan) (v : Int) (s : State) : State := updChan c (fun k => { k with tpm := v, rem := 0 }) s

/-- The write is taken. DESIGN CHOICE: a silence timer that stands keeps the value it stands at when t_sil is written, and
ENCODER_SILENT its condition (notes/assumptions/35.md). -/
def writeParam (p : Param) (v : Int) (s : State) : State :=
  match p with
  | .mEnc c => writeMode c v s
  | .tpm c => writeScale c v s
  | .tSil => s.upPar fun q => { q with tSil := v }
  | .silMask => writeMask (channelsOf v.toNat) s
  | .dSlock => s.upPar fun q => { q with dSlock := v }
  | .vMax => s.upPar fun q => { q with vMax := v, vSet := min q.vSet v }
  | .vSet => s.upPar fun q => { q with vSet := v }
  | .aUp => s.upPar fun q => { q with aUp := v }
  | .aDn => s.upPar fun q => { q with aDn := v }
  | .aHalt => s.upPar fun q => { q with aHalt := v }
  | .vJog => s.upPar fun q => { q with vJog := v }
  | .vFloor => s.upPar fun q => { q with vFloor := v }
  | .tNip => writeNipTime v s
  | .tHold => s.upPar fun q => { q with tHold := v }
  | .kP => s.upPar fun q => { q with kP := v }
  | .kI => s.upPar fun q => { q with kI := v }
  | .mFire => s.upPar fun q => { q with mFire := v }
  | .thAbs => s.upPar fun q => { q with thAbs := v }
  | .bReady => s.upPar fun q => { q with bReady := v }
  | .tSettle => s.upPar fun q => { q with tSettle := v }
  | .thetaRef => s.upPar fun q => { q with thetaRef := v }
  | .thetaStep => s.upPar fun q => { q with thetaStep := v }
  | .arcLen => s.upPar fun q => { q with arcLen := v }
  | .spacing => s.upPar fun q => { q with spacing := v }
  | .tPaper => s.upPar fun q => { q with tPaper := v }
  | .rSlew => s.upPar fun q => { q with rSlew := v }
  | .fStand => s.upPar fun q => { q with fStand := v }
  | .fBreak => s.upPar fun q => { q with fBreak := v }
  | .tBreak => s.upPar fun q => { q with tBreak := v }
  | .fOver => s.upPar fun q => { q with fOver := v }
  | .tOver => s.upPar fun q => { q with tOver := v }
  | .loopKp l => s.upPar fun q => { q with loopKp := q.loopKp.set l v }
  | .loopKi l => s.upPar fun q => { q with loopKi := q.loopKi.set l v }
  | .ffUnw => s.upPar fun q => { q with ffUnw := v }
  | .ffRew => s.upPar fun q => { q with ffRew := v }
  | .gap => decide_ (s.upPar fun q => { q with gap := v })
  | .lead => decide_ (s.upPar fun q => { q with lead := v })
  | .tAcc => s.upPar fun q => { q with tAcc := v }
  | .nRetry => s.upPar fun q => { q with nRetry := v }
  | .mDone => s.upPar fun q => { q with mDone := v }
  | .dMark => s.upPar fun q => { q with dMark := v }
  | .bHead => writeHeadBaud v s
  | .lMs => s.upPar fun q => { q with lMs := v }
  | .lPn => s.upPar fun q => { q with lPn := v }
  | .wM => s.upPar fun q => { q with wM := v }
  | .gain => s.upPar fun q => { q with gain := v }
  | .tol => s.upPar fun q => { q with tol := v }
  | .wOut o => s.upPar fun q => { q with wOut := q.wOut.set o v }
  | .lFn => s.upPar fun q => { q with lFn := v }
  | .lFr => s.upPar fun q => { q with lFr := v }
  | .margin => s.upPar fun q => { q with margin := v }
  | .tLink => writeLinkTime v s

/-- Id and value of a parameter, as the replies carry them (11 R183). -/
def paramBytes (id : Nat) (v : Int) : List Byte := u16 id ++ i32 v

/-- What SET_PARAM answers when it is not taken (11 R183). -/
def State.paramRefusal (s : State) (id : Nat) (v : Int) : Option Status :=
  match Param.ofId id with
  | none => some .miss
  | some p => if !p.allows v || !s.bounded p v then some .range else s.paramBar p

/-- SET_PARAM is carried out (11 R183). -/
def setParam (id : Nat) (v : Int) (s : State) : State × Reply :=
  match Param.ofId id, s.paramRefusal id v with
  | some p, none =>
      let s' := writeParam p v s
      (s', okData (paramBytes id (s'.param p)))
  | _, some st => (s, refusedWith st)
  | none, none => (s, refusedWith .miss)

/-- GET_PARAM is carried out (11 R183). -/
def getParam (id : Nat) (s : State) : State × Reply :=
  match Param.ofId id with
  | some p => (s, okData (paramBytes id (s.param p)))
  | none => (s, refusedWith .miss)

end Sys2Proof.Machine
end

