-- ==== Sys2Proof/Machine/HeadCommands.lean ====
section
/-! DEFINITION. The events of the head link (07 7.5 to 7.7). -/

namespace Sys2Proof.Machine
open Sys2Proof

/-- A complete frame has arrived on HRXD, or the framer abandons one: it hunts (11 R178). -/
def headHunts (s : State) : State := s.upHead fun h => { h with framer := .hunting }

/-- The live transaction a frame of the engine matches (07 R117). -/
def State.matched (s : State) (txn panel : Nat) (phase : Phase) : Option Txn :=
  s.pq.live.find? fun t => t.num = txn && t.tag = panel && t.phase = phase

/-- HEAD_PROTOCOL for a frame of the engine (07 R117). -/
def protocolError (kind : Byte) (txn panel : Nat) (s : State) : State :=
  warn (.headProtocol kind (byteOf txn) panel) s

/-! ## ACCEPT and REFUSE (07 R117, R120, R121) -/

/-- A matched ACCEPT (07 R120). -/
def acceptPanel (txn panel : Nat) (s : State) : State :=
  let s := s.upPq fun q =>
    { q with live := q.live.map fun t => if t.num = txn ∧ t.tag = panel then { t with phase := .printing } else t }
  decide_ (updPanel panel (fun p => { p with state := .printing }) s)

/-- ACCEPT taken: one that matches no live transaction is withdrawn (07 R117, R120). -/
def takeAccept (txn panel : Nat) (s : State) : State :=
  let s := headHunts s
  match s.matched txn panel .awaitAccept with
  | some _ => acceptPanel txn panel s
  | none => protocolError kindAccept txn panel (withdraw txn panel s)

/-- ACCEPT (07 R117, R120). -/
def execAccept (txn panel : Nat) (s : State) : Host.Outcome State Fault Refusal := .next (takeAccept txn panel s)

/-- REFUSE taken (07 R117, R121). DESIGN CHOICE: a reason of 0, which 7.5 does not give, is matched like any other and
stored as the engine's code 0 (notes/assumptions/38.md). -/
def takeRefuse (txn panel reason : Nat) (s : State) : State :=
  let s := headHunts s
  match s.matched txn panel .awaitAccept, s.queued? panel with
  | some _, some p => decide_ (refusal txn p (some (.code reason)) none s)
  | _, _ => protocolError kindRefuse txn panel s

/-- REFUSE (07 R117, R121). -/
def execRefuse (txn panel reason : Nat) (s : State) : Host.Outcome State Fault Refusal :=
  .next (takeRefuse txn panel reason s)

/-! ## DONE and FAULT (07 R123, R124) -/

/-- The print ends: the transaction is removed and the panel record takes the result. -/
def endPrint (txn panel : Nat) (f : Panel → Panel) (s : State) : State :=
  updPanel panel (fun p => { f p with txn := none })
    (s.upPq fun q => { q with live := dropTxn txn panel q.live })

/-- DONE taken (07 R117, R123, R126). -/
def takeDone (txn panel : Nat) (printed : Int) (s : State) : State :=
  let s := headHunts s
  match s.matched txn panel .printing, s.queued? panel with
  | some _, some p =>
      let s := if p.length < printed then protocolError kindDone txn panel s else s
      let s := endPrint txn panel
        (fun p => { p with printed := some (.len (min p.length printed)), state := .printed }) s
      decide_ (afterPrint panel none s)
  | _, _ => protocolError kindDone txn panel s

/-- DONE (07 R117, R123, R126). -/
def execDone (txn panel : Nat) (printed : Int) (s : State) : Host.Outcome State Fault Refusal :=
  .next (takeDone txn panel printed s)

/-- FAULT taken (07 R117, R124, R126, R127). DESIGN CHOICE: a reason of 0, which 7.5 does not give, is matched like any
other and stored as the engine's code 0 (notes/assumptions/38.md). HEAD_FAULT comes before what the reject trigger
brings (notes/assumptions/6.md). -/
def takeFault (txn panel : Nat) (printed : Int) (reason : Nat) (s : State) : State :=
  let s := headHunts s
  match s.matched txn panel .printing, s.queued? panel with
  | some _, some p =>
      let n := min p.length printed
      let s := endPrint txn panel
        (fun p =>
          { p with
            printed := some (.len n), reason := some (.code reason), state := .spoiled,
            verdict := some .spoiled }) s
      let s := warn (.headFault panel n reason) s
      let s := s.upPq fun q => { q with dispatch := if q.dispatch = .enabled then .held else q.dispatch }
      decide_ (afterPrint panel none s)
  | _, _ => protocolError kindFault txn panel s

/-- FAULT (07 R117, R124, R126, R127). -/
def execFault (txn panel : Nat) (printed : Int) (reason : Nat) (s : State) :
    Host.Outcome State Fault Refusal :=
  .next (takeFault txn panel printed reason s)

/-! ## Other frames (07 R117, R118) -/

/-- Any other frame of the engine: HEAD_PROTOCOL alone (07 R117). -/
def takeOtherFrame (kind tag : Byte) (body : List Byte) (s : State) : State :=
  let (panel, s) := bodyPanelTag body (headHunts s)
  warn (.headProtocol kind tag panel) s

/-- HEAD_OTHER_KIND_FRAME (07 R117). -/
def execHeadOtherKindFrame (kind tag : Byte) (body : List Byte) (s : State) :
    Host.Outcome State Fault Refusal :=
  .next (takeOtherFrame kind tag body s)

/-- HEAD_FRAME_BAD_CRC (07 R117, 11 R178). -/
def execHeadFrameBadCrc (s : State) : Host.Outcome State Fault Refusal := .next (headHunts s)

/-- The last byte of a head-link frame has been sent (07 R118, R133). -/
def headFrameSent (s : State) : State :=
  if s.head.buf.isEmpty then s
  else
    decide_ (s.upHead fun h =>
      let h := { h with buf := h.buf.tail }
      match h.pendingBaud with
      | some v => h.change v
      | none => h)

/-- HEAD_FRAME_SENT (07 R118, R133, R115). -/
def execHeadFrameSent (s : State) : Host.Outcome State Fault Refusal := .next (headFrameSent s)

end Sys2Proof.Machine
end

