-- ==== Sys2Proof/Machine/LinkCommands.lean ====
section
/-! DEFINITION. LINK_CONFIG, the framing events of both links, and the speed change at FRAME_SENT (11 R177, R178). -/

namespace Sys2Proof.Machine
open Sys2Proof

/-! ## Parameters and LINK_CONFIG (11 R177, R183) -/

/-- LINK_CONFIG (11 R177): the speed changes when the reply has been sent, at its FRAME_SENT. -/
def linkConfigOp (baud : Int) (s : State) : State × Reply :=
  if !bauds.contains baud then (s, refusedWith .range)
  else (s, { ok with baud := if baud = s.lnk.baud then none else some baud })

/-! ## Framing (11 R178) -/

/-- The framer of a link abandons its frame (11 R178). -/
def abandon (link : Link) (s : State) : State :=
  match link with
  | .host => s.upLnk fun l => { l with framer := .hunting }
  | .head => s.upHead fun h => { h with framer := .hunting }

/-- FRAME_GAP_TIMEOUT (11 R178). -/
def execFrameGapTimeout (link : Link) (s : State) : Host.Outcome State Fault Refusal := .next (abandon link s)

/-- A LEN byte outside 2 to 252 is abandoned; a LEN inside is no such event (11 R178). -/
def lenByte (link : Link) (len : Byte) (s : State) : State :=
  if len.toNat < 2 || 252 < len.toNat then abandon link s else s

/-- LEN_OUT_OF_RANGE (11 R178). -/
def execLenOutOfRange (link : Link) (len : Byte) (s : State) : Host.Outcome State Fault Refusal :=
  .next (lenByte link len s)

/-! ## FRAME_SENT (10 R173, 11 R177, 07 R129) -/

/-- The speed a frame that has been sent changes the link to (11 R177). -/
def TxFrame.newBaud : TxFrame → Option Int
  | .reply _ _ _ _ b => b
  | .notice _ _ => none

/-- The host link changes speed, and a frame held in part is abandoned (11 R177). -/
def changeSpeed (b : Option Int) (s : State) : State :=
  match b with
  | some v => s.upLnk fun l => { l with baud := v, framer := .hunting }
  | none => s

end Sys2Proof.Machine
end

