-- ==== Sys2Proof/Machine/Reports.lean ====
section
/-! DEFINITION. The data of the replies of the reading commands, field by field in the order the owning rule
lists them, encoded under 11 R182 (notes/assumptions/14.md). -/

namespace Sys2Proof.Machine
open Sys2Proof

/-- The timestamp of a reply. -/
def State.stamp (s : State) : List Byte := u32 s.cnt.clock.toNat

def boolSix (x : Six Bool) : List Byte := set8 x.toList

/-! ## Replies with a list (11 R182) -/

/-- The items from the head of a list that fit whole into `room` bytes. -/
def takeFit : Nat → List (List Byte) → List (List Byte)
  | _, [] => []
  | room, x :: xs => if x.length ≤ room then x :: takeFit (room - x.length) xs else []

/-- The items from an optional index on; an index outside the list leaves none. -/
def fromIndex {α : Type} (first : Option Int) (l : List α) : List α :=
  match first with
  | none => l
  | some n => if n < 0 then [] else l.drop n.toNat

/-- The fields outside the list, as many whole items as fit in a body of 250 bytes, the number sent and the
total. -/
def paged (outer : List Byte) (items : List (List Byte)) (first : Option Int) : List Byte :=
  let fit := takeFit (Config.bodyMax - 3 - outer.length) (fromIndex first items)
  outer ++ fit.flatten ++ u8 fit.length ++ u8 items.length

/-! ## Counting unit (01 R15) -/

/-- Running, stopped or standing. -/
def Timer.stateByte : Timer → List Byte
  | .running _ => u8 0 | .stopped => u8 1 | .standing _ => u8 2

def channelBytes (c : Channel) : List Byte :=
  i32 c.count ++ i32 c.speed ++ dirBytes c.dir ++ u8 c.mode.code ++ flag c.overrange ++ c.silence.stateByte

def captureBytes (c : Option Capture) : List Byte :=
  optional 9 (fun c : Capture => i32 c.value ++ dirBytes c.dir ++ u32 c.at_.toNat) c

/-- READ_COUNTS (01 R15). -/
def State.countsData (s : State) : List Byte :=
  s.stamp ++ channelBytes s.cnt.chan.paper ++ channelBytes s.cnt.chan.fabric ++ channelBytes s.cnt.chan.drum
    ++ timerBytes (timerOfCount Config.stallTime s.cnt.stall)
    ++ captureBytes s.cnt.markCap ++ captureBytes s.cnt.spliceCap

/-! ## Motion controller (02 R39) -/

def seekBytes (k : Seek) : List Byte :=
  u8 k.state.code ++ u8 k.kind.code ++ dirBytes k.dir ++ i32 k.remaining ++ u8 k.cond.code
    ++ optional 1 (fun c : SeekCause => u8 c.code) k.cause ++ optional 4 i32 k.endPos ++ flag k.due

/-- READ_MOTION (02 R39). DESIGN CHOICE: the levels of NIPCMD and NIPREL share one byte, bit 0 first, and those of NIPC,
NIPO and ESTOP another (notes/assumptions/14.md). -/
def State.motionData (s : State) : List Byte :=
  s.stamp ++ u8 s.mot.line.code ++ i32 s.par.vSet ++ i32 s.mot.target ++ i32 s.mot.vref
    ++ dirBytes s.mot.drive ++ orElse 4 i32 s.trg.effects.cap ++ i32 s.mot.capRead ++ u8 s.mot.nip.code
    ++ set8 [s.nipCmd, s.nipRel] ++ set8 [s.pins.nipc, s.pins.nipo, s.pins.estop]
    ++ timerBytes s.mot.nipTimer ++ timerBytes s.mot.hold ++ seekBytes s.mot.seek

/-! ## Heat controller (03 R57) -/

def readingBytes : Reading → List Byte
  | .absent => optional 5 i32 none
  | .opened => flag true ++ orElse 4 i32 none
  | .temp t => flag true ++ orElse 4 i32 (some t)

/-- The heat state: on, off in the order of the table of 03 R41. -/
def onCode (b : Bool) : Nat := (!b).toNat

/-- The fields of one zone in the reply to READ_HEAT (03 R57). DESIGN CHOICE: a hold timer at 10,000 ms and a settle
timer at 600,000 ms are sent as running; in band, OVERHEAT, COLD and raised share one byte, the shortfall and the SSR
output have a byte each (notes/assumptions/14.md). -/
def zoneBytes (h : Heat) (z : Zone) : List Byte :=
  let r := h.zones.get z
  i32 r.offset ++ i32 (h.zoneSet z) ++ readingBytes r.reading
    ++ optional 1 (fun v : Bool => u8 (onCode v)) r.valid ++ i32 r.lastValid ++ u8 r.invalid
    ++ u8 r.sensor.code ++ timerBytes r.hold ++ i32 r.integ ++ i32 r.demand ++ i32 r.credit
    ++ flag r.shortfall ++ i32 r.shortCount ++ set8 [r.inBand, r.overheat, r.cold, r.raised] ++ flag r.ssr

/-- READ_HEAT (03 R57). DESIGN CHOICE: the ready flag, the mains lost flag and the excursion flag have a byte each
(notes/assumptions/14.md). -/
def State.heatData (s : State) (first : Option Int) : List Byte :=
  let h := s.heat
  paged
    (s.stamp ++ u8 (onCode h.on) ++ i32 h.setpoint ++ boolSix h.enables
      ++ u8 h.pointer.num ++ timerBytes h.settle ++ flag h.ready ++ u8 h.freq.code
      ++ optional 4 (fun n : Nat => i32 n) h.period ++ flag h.lost ++ flag h.excursion)
    (Zone.all.map (zoneBytes h)) first

/-! ## Dose unit (04 R77, R78) -/

/-- A set of up to 8 members in one byte, and of more in two (11 R182). -/
def setOf (l : List Bool) : List Byte := if l.length ≤ 8 then set8 l else set16 l

/-- A step count, or the mark that it was below the cut-off (04 R59). -/
def stepBytes (k : Int) : List Byte := orElse 4 i32 (if k < -128 then none else some k)

/-- Of one zone in READ_DOSE, k, the indications and the increment (04 R77). DESIGN CHOICE: CLAMPED and uncertain share
one byte (notes/assumptions/14.md). -/
def factorBytes (f : Option (Six Factor)) (z : Zone) : List Byte :=
  optional 10
    (fun f : Six Factor =>
      let x := f.get z
      stepBytes x.k ++ set8 [x.clamped, x.uncertain] ++ u32 x.incr) f

def ends {α : Type} (l : List α) : Option (α × α) :=
  match l.head?, l.getLast? with
  | some a, some b => some (a, b)
  | _, _ => none

/-- READ_DOSE (04 R77). DESIGN CHOICE: a zone counts as enabled by the zone mask as it stands at the command
(notes/assumptions/39.md). -/
def State.doseData (s : State) : List Byte :=
  let d := s.dose
  s.stamp ++ Zone.all.flatMap (fun z => flag (s.heat.zones.get z).enable ++ factorBytes d.factors z)
    ++ optional 4 i32 d.kMin ++ orElse 4 (fun n : Int => u32 n.toNat) d.dMax
    ++ optional 4 i32 d.horizon ++ i32 d.vDose ++ flag d.floorFlag ++ u8 d.probes.length
    ++ optional 8 (fun e : Probe × Probe => i32 e.1.entry ++ i32 e.2.entry) (ends d.probes)

/-- READ_PROBE for one probe (04 R78). DESIGN CHOICE: the final marks of its owners stand together, in one byte for
up to eight of them (notes/assumptions/14.md). -/
def probeBytes (b : Probe) : List Byte :=
  u8 b.owners.length ++ b.owners.flatMap (fun o => u16 o.tag) ++ i32 b.entry ++ i32 b.exit
    ++ setOf (b.owners.map Owner.final) ++ boolSix b.zones
    ++ Zone.all.flatMap (fun z => u32 (if b.zones.get z then b.dose.get z else 0))
    ++ set8 [b.uncertain, b.stopped, b.nipOpen, b.excluded]

/-! ## Tension unit (05 R91) -/

/-- One loop in the reply to READ_TENSION (05 R91). DESIGN CHOICE: the hold condition is that of the effect set as it
stands at the command, not at the latest sample (notes/assumptions/44.md). -/
def loopBytes (s : State) (l : Loop) : List Byte :=
  let r := s.ten.get l
  u8 r.state.code ++ optional 4 i32 r.set ++ i32 r.target ++ i32 r.work ++ i32 r.force ++ i32 r.integ
    ++ i32 r.out ++ timerBytes (timerOfCount r.tBreak.toNat r.brkTimer)
    ++ timerBytes (timerOfCount r.tOver.toNat r.overTimer)
    ++ optional 1 (fun c : LoopCause => u8 c.code) r.cause ++ flag (s.trg.effects.hold.get l)

/-- READ_TENSION (05 R91). -/
def State.tensionData (s : State) : List Byte := s.stamp ++ Loop.all.flatMap (loopBytes s)

/-! ## Profile table (06 R96, R103) -/

def keyBytes (media ink : Nat) : List Byte := u16 media ++ u8 ink

/-- PROFILE_READ of one entry (06 R103). -/
def entryBytes (t : Profiles) (n : Nat) : List Byte :=
  let e := t.entry n
  flag e.valid ++ u16 e.refs
    ++ (if e.valid then
          keyBytes e.media e.ink ++ u32 e.target.toNat ++ i32 e.allowUnder ++ i32 e.allowOver
            ++ i32 e.feedTension ++ i32 e.rewindTension ++ sixBytes (fun x : Int => u16 x.toNat) e.trims
            ++ i32 e.sigma ++ i32 e.weight ++ u16 e.learned ++ flag (decide (n < t.pinned))
        else [])

def entryItem (e : Entry) : List Byte :=
  flag e.valid ++ optional 3 (fun e : Entry => keyBytes e.media e.ink) (if e.valid then some e else none)
    ++ u16 e.refs ++ u16 e.learned

/-- PROFILE_READ without an entry number (06 R103). -/
def tableData (t : Profiles) (first : Option Int) : List Byte :=
  paged (u8 t.pinned ++ u8 t.pointer) (t.entries.map entryItem) first

/-! ## Panel queue (07 R132) -/

def txnBytes (now : Timestamp) (t : Txn) : List Byte :=
  u8 t.num ++ u16 t.tag ++ u8 t.phase.code ++ i32 (now - t.started).toNat

def slotBytes : Slot → List Byte
  | .empty => u8 0 ++ optional 2 u16 none
  | .armed p => u8 1 ++ optional 2 u16 (some p.tag)
  | .cancelled p => u8 2 ++ optional 2 u16 (some p.tag)

def queueItem (s : State) (p : Panel) : List Byte :=
  u16 p.tag ++ u8 p.kind.code ++ u8 p.state.code ++ optional 1 (fun v : Verdict => u8 v.code) p.verdict
    ++ optional 4 i32 p.xs ++ flag (s.pq.waiting.contains p.tag)

/-- READ_QUEUE (07 R132). DESIGN CHOICE: the live transactions go in the order of their STARTs, not of their numbers, with
a one-byte count in front (notes/assumptions/14.md). -/
def State.queueData (s : State) (first : Option Int) : List Byte :=
  let q := s.pq
  paged
    (s.stamp ++ u8 q.dispatch.code ++ i32 q.lastEnd ++ u8 q.nextTxn ++ u8 q.live.length
      ++ q.live.flatMap (txnBytes s.cnt.clock) ++ q.slots.flatMap slotBytes ++ u8 q.queue.length)
    (q.queue.map (queueItem s)) first

def printedBytes : PrintedLen → List Byte
  | .len n => orElse 4 i32 (some n)
  | .unknown => orElse 4 i32 none

def markBytes : MarkResult → List Byte
  | .error e => orElse 4 i32 (some e)
  | .missed => orElse 4 i32 none

/-- An engine reason is a value or the mark TIMEOUT (07 R110): a selector byte and four bytes (11 R182). DEDUCED: a
reason is no count, and so is not sent in one byte (notes/assumptions/14.md). -/
def engineReasonBytes : EngineReason → List Byte
  | .code n => orElse 4 i32 (some (n : Int))
  | .timeout => orElse 4 i32 none

/-- The dose fields (04 R63) in READ_PANEL. DESIGN CHOICE: the uncertain and cap held marks share one byte, final
pending has its own (notes/assumptions/14.md). -/
def doseBytes (d : DoseFields) : List Byte :=
  optional 4 i32 d.next ++ flag d.final ++ i32 d.folds ++ sixBytes (optional 4 u32) d.minima
    ++ optional 4 u32 d.maximum ++ set8 [d.uncertain, d.capHeld]

/-- READ_PANEL (07 R132): every field of R110. -/
def panelData (p : Panel) : List Byte :=
  u16 p.tag ++ u8 p.kind.code ++ u8 p.profile ++ i32 p.length ++ u8 (!p.mark).toNat ++ u8 p.state.code
    ++ u8 p.attempts ++ optional 4 i32 p.xs ++ optional 1 u8 p.txn
    ++ optional 12 (sixBytes fun g : Int => u16 g.toNat) p.gains ++ optional 5 printedBytes p.printed
    ++ optional 5 engineReasonBytes p.reason ++ optional 5 markBytes p.markResult
    ++ optional 4 i32 p.arrival ++ optional 46 doseBytes p.dose
    ++ optional 1 (fun v : Verdict => u8 v.code) p.verdict ++ set16 p.flags.members ++ flag p.offered

/-! ## Mark tracker (08 R149) -/

def windowItem (s : State) (p : Panel) : List Byte :=
  let xs := p.xs.getD 0
  let c := s.markCentre xs
  u16 p.tag ++ i32 xs ++ i32 c ++ i32 (c - s.par.wM) ++ i32 (c + s.par.wM)

/-- READ_MARKS (08 R149). -/
def State.marksData (s : State) (first : Option Int) : List Byte :=
  paged
    (s.stamp ++ u8 s.mrk.state.code ++ i32 s.mrk.slip ++ i32 s.mrk.high ++ flag s.mrk.stray)
    ((sortBy (fun p : Panel => p.xs.getD 0) (s.pq.queue.filter Panel.hasWindow)).map (windowItem s)) first

/-! ## Trigger and window unit (09 R166) -/

/-- The level of the output an action names. -/
def State.actionLevel (s : State) : Action → Bool
  | .pulse o => s.outLevel o
  | .notify => false

/-- An occupied slot in TRIGGER_READ: every field of R151 (09 R166). DESIGN CHOICE: a resolved entry still shows its anchor as
present, with the tag and the offset (notes/assumptions/46.md). -/
def triggerBytes (s : State) (t : Trigger) : List Byte :=
  u8 t.axis.code ++ optional 4 i32 t.position ++ optional 6 (fun a : Nat × Int => u16 a.1 ++ i32 a.2) t.anchor
    ++ u8 t.dir.code ++ u8 t.action.code ++ u8 t.rep.code ++ flag t.armed ++ flag (s.actionLevel t.action)

/-- TRIGGER_READ (09 R166). -/
def State.triggerData (s : State) (x : TrigSlot) : List Byte :=
  s.stamp ++ u8 x.code
    ++ (match x with
        | .free => []
        | .held _ t => triggerBytes s t)

/-- A window in READ_WINDOWS (09 R166). DESIGN CHOICE: NOTIFY_EDGES and the activity have a byte each, and the mask and
the cap are sent whatever the effects (notes/assumptions/14.md). -/
def windowBytes (w : Window) : List Byte :=
  u8 w.axis.code ++ i32 w.lo ++ i32 w.hi ++ set8 [w.hold.isSome, w.exclude, w.relief, w.cap.isSome]
    ++ set8 ((w.hold.getD ⟨false, false, false⟩).toList) ++ i32 (w.cap.getD 0) ++ flag w.notify ++ flag w.active

/-- The current effect set in READ_WINDOWS (09 R159, R166). DESIGN CHOICE: Exclude and Relief share one byte
(notes/assumptions/14.md). -/
def effectBytes (e : Effects) : List Byte :=
  set8 e.hold.toList ++ set8 [e.exclude, e.relief] ++ orElse 4 i32 e.cap

/-- READ_WINDOWS (09 R166). -/
def State.windowsData (s : State) : List Byte :=
  s.stamp ++ s.trg.windows.flatMap (optional 17 windowBytes) ++ effectBytes s.trg.effects

/-- A splice record in READ_FABRIC (09 R160, R166). DESIGN CHOICE: the next profile goes out as an entry or none, with a
selector byte (notes/assumptions/14.md). -/
def spliceBytes (r : Splice) : List Byte :=
  i32 r.fp ++ orElse 1 u8 r.next ++ i32 r.nipStart ++ i32 r.nipEnd ++ i32 r.rewindPoint ++ u8 r.state.code
    ++ flag r.switched

/-- READ_FABRIC (09 R166). -/
def State.fabricData (s : State) : List Byte :=
  let u := s.trg
  s.stamp ++ orElse 1 u8 u.feed ++ orElse 1 u8 u.nip ++ orElse 1 u8 u.rewind ++ orElse 1 u8 u.announced
    ++ u8 u.splices.length ++ u.splices.flatMap spliceBytes

/-! ## Fault monitor (10 R171, R174) -/

def recordBytes (r : Record) : List Byte :=
  u8 r.cause.code ++ optional 1 u8 r.inst ++ u32 r.at_.toNat ++ u8 r.line.code ++ i32 r.pp ++ i32 r.fp
    ++ optional 2 u16 r.nipPanel

/-- READ_FAULT (10 R171). DESIGN CHOICE: the further-cause set goes out as a set of thirteen bits in two bytes
(notes/assumptions/14.md). -/
def State.faultData (s : State) : List Byte :=
  s.stamp ++ optional 19 recordBytes s.flt.latch ++ set16 (Cause.all.map s.flt.further.contains)
    ++ u8 s.flt.furtherCount

/-- The byte of a zone in the status image (11 11.6.3). -/
def zoneSummary (z : ZoneRec) : List Byte :=
  u8 (bits [z.enable, z.sensor.code.testBit 0, z.sensor.code.testBit 1, z.inBand, z.overheat, z.shortfall])

def latchBytes : Option Record → List Byte
  | some r => flag true ++ u8 r.cause.code ++ instByte r.inst
  | none => flag false ++ u8 0 ++ instByte none

/-- How many panels of the queue are in a state. -/
def countIn (q : List Panel) (st : PanelState) : Nat := (q.filter fun p => p.state = st).length

def panelStates : List PanelState := [.queued, .starting, .printing, .printed, .spoiled, .inArc, .done]

/-- Panels of the queue in DONE that wait for room (10 R174). -/
def State.waitingCount (s : State) : Nat :=
  (s.pq.queue.filter fun p => p.state = .done && s.pq.waiting.contains p.tag).length

/-- The status image after the status code (10 R174, 11 11.6.3). -/
def State.statusData (s : State) : List Byte :=
  u8 s.mot.line.code ++ latchBytes s.flt.latch ++ set8 [s.heat.on, s.heat.ready]
    ++ sixBytes zoneSummary s.heat.zones ++ Loop.all.flatMap (fun l => u8 (s.ten.get l).state.code)
    ++ u8 s.mrk.state.code ++ i32 s.mrk.slip ++ u8 s.pq.dispatch.code
    ++ panelStates.flatMap (fun st => u8 (countIn s.pq.queue st)) ++ u8 s.waitingCount
    ++ u8 (s.pq.slots.filter Slot.isArmed).length ++ i32 s.mot.vref ++ i32 s.dose.vDose ++ i32 s.pp
    ++ i32 s.fp ++ set8 [s.mrk.stray, s.flt.dropped]
    ++ set8 (s.trg.pulses.map Option.isSome).toList ++ s.stamp

end Sys2Proof.Machine
end

