-- ==== Sys2Proof/Machine/ProfileCommands.lean ====
section
/-! DEFINITION. The operations of the profile table's commands (06). -/

namespace Sys2Proof.Machine
open Sys2Proof

/-! ## PROFILE_LOAD (06 R97 to R100) -/

/-- Every field lies in its range (06 R93). -/
def loadInRange (f : ProfileFields) : Bool :=
  keyInRange f.media f.ink && inRange 1000000 600000000 f.target && inRange 0 50 f.allowUnder
    && inRange 0 200 f.allowOver && inRange 0 5000 f.feedTension && inRange 0 5000 f.rewindTension
    && f.trims.all (fun t => inRange Config.trimLow Config.trimHigh t) && inRange 0 255 f.sigma
    && inRange 1 6 f.weight

/-- The entry a load writes; its reference count is kept (06 R97). -/
def Entry.load (e : Entry) (f : ProfileFields) : Entry where
  valid := true
  media := f.media
  ink := f.ink
  target := f.target
  allowUnder := f.allowUnder
  allowOver := f.allowOver
  feedTension := f.feedTension
  rewindTension := f.rewindTension
  trims := f.trims.map fun t : Nat => (t : Int)
  sigma := f.sigma
  weight := f.weight
  learned := 0
  refs := e.refs

/-- Write an entry of the table. -/
def Profiles.modify (t : Profiles) (n : Nat) (f : Entry → Entry) : Profiles :=
  { t with entries := modifyAt f n t.entries }

/-- Outcome of a load: a refusal, or the entry to write and the key it replaces, with the pointer after it. -/
inductive LoadAt where
  | refused (st : Status)
  | at_ (n : Nat) (lost : Option (Nat × Nat)) (pointer : Nat)
deriving DecidableEq, Repr

/-- A load with an entry number (06 R97, R98). -/
def Profiles.loadNumbered (t : Profiles) (f : ProfileFields) (n : Nat) : LoadAt :=
  match t.findKey f.media f.ink with
  | some m =>
      if m ≠ n then .refused .duplicate
      else if (t.entry n).refs = 0 then .at_ n none t.pointer else .refused .inUse
  | none => if (t.entry n).refs = 0 then .at_ n none t.pointer else .refused .inUse

/-- A load without an entry number (06 R97, R99, R100). -/
def Profiles.loadKeyed (t : Profiles) (f : ProfileFields) : LoadAt :=
  match t.findKey f.media f.ink with
  | some m => if (t.entry m).refs = 0 then .at_ m none t.pointer else .refused .inUse
  | none =>
      match t.placeAt with
      | some n =>
          let e := t.entry n
          .at_ n (if e.valid then some (e.media, e.ink) else none) (t.stepDown n)
      | none => .refused .full

/-- Where a load writes (06 R97). -/
def Profiles.loadAt (t : Profiles) (f : ProfileFields) (entry : Option Nat) : LoadAt :=
  if !loadInRange f then .refused .range
  else
    match entry with
    | some n => if n ≤ 31 then t.loadNumbered f n else .refused .range
    | none => t.loadKeyed f

/-- PROFILE_LOAD (06 R97). -/
def profileLoadOp (f : ProfileFields) (entry : Option Nat) (s : State) : State × Reply :=
  match s.prf.loadAt f entry with
  | .refused st => (s, refusedWith st)
  | .at_ n lost pointer =>
      (s.upPrf fun t => { t.modify n (fun e => e.load f) with pointer := pointer },
        okData (u8 n ++ optional 3 (fun k : Nat × Nat => keyBytes k.1 k.2) lost))

/-! ## The other commands -/

/-- PROFILE_FIND (06 R96). -/
def profileFindOp (media ink : Nat) (s : State) : State × Reply :=
  if !keyInRange media ink then (s, refusedWith .range)
  else
    match s.prf.lookup media ink with
    | some n =>
        let e := s.prf.entry n
        (s, okData (u8 n ++ keyBytes e.media e.ink))
    | none => (s, refusedWith .miss)

/-- PROFILE_READ (06 R103). -/
def profileReadOp (entry : Option Nat) (first : Option Int) (s : State) : State × Reply :=
  match entry with
  | some n => if n ≤ 31 then (s, okData (entryBytes s.prf n)) else (s, refusedWith .range)
  | none => (s, okData (tableData s.prf first))

/-- PROFILE_DROP (06 R102). -/
def profileDropOp (n : Nat) (s : State) : State × Reply :=
  let e := s.prf.entry n
  if 31 < n then (s, refusedWith .range)
  else if !e.valid then (s, refusedWith .miss)
  else if e.refs ≠ 0 then (s, refusedWith .inUse)
  else (s.upPrf fun t => t.modify n (fun e => { e with valid := false, learned := 0 }), ok)

/-- PROFILE_PIN (06 R101). -/
def profilePinOp (count : Nat) (s : State) : State × Reply :=
  if Config.profiles < count then (s, refusedWith .range)
  else (s.upPrf fun t => { t with pinned := count, pointer := 31 }, ok)

/-- PROFILE_TRIM (06 R104). DESIGN CHOICE: RANGE of the entry number or of a trim comes before MISS
(notes/assumptions/23.md). -/
def profileTrimOp (n : Nat) (trims : Six Nat) (s : State) : State × Reply :=
  if 31 < n || !trims.all (fun t => inRange Config.trimLow Config.trimHigh t) then (s, refusedWith .range)
  else if !(s.prf.entry n).valid then (s, refusedWith .miss)
  else
    (s.upPrf fun t =>
      t.modify n (fun e => { e with trims := trims.map fun t : Nat => (t : Int), learned := 0 }), ok)

end Sys2Proof.Machine
end

