-- ==== Sys2Proof/Machine/Counting.lean ====
section
/-! DEFINITION. The operations of the counting unit's commands and events (01), and the two resets. -/

namespace Sys2Proof.Machine
open Sys2Proof

/-! ## Resets -/

/-- Power-on reset: every block at its reset values; the levels of the inputs, the waiting commands and the
model's own counter are kept (notes/assumptions/27.md). Limits that show the nip open confirm it, and an ESTOP
found active is a change to active (02 R17, R26, R32). -/
def resetPart (s : State) : State :=
  let levels := fun (c : Chan) => (s.cnt.chan.get c).levels
  let s' : State := { State.reset with pins := s.pins, free := s.free, pending := s.pending }
  let s' := s'.upCnt fun k =>
    { k with chan := ⟨{ k.chan.paper with levels := levels .paper },
        { k.chan.fabric with levels := levels .fabric }, { k.chan.drum with levels := levels .drum }⟩ }
  let s' := if s'.pins.openPair then nipOpened s' else s'
  if s'.pins.estop then estopActs s' else s'

/-- POWER_ON_RESET (01 R1 and the reset rule of each chapter). -/
def execPowerOnReset (s : State) : Host.Outcome State Fault Refusal := .next (resetPart s)

/-- RESETN: a low level on RESETn and its return high, taken as one event (00_scope.md 8, note 1;
notes/assumptions/27.md). -/
def execResetn (s : State) : Host.Outcome State Fault Refusal := .next (resetPart s)

/-! ## Ticks and captures (01 R3, R11, R12) -/

/-- TICK_BATCH (01 R2 to R7). -/
def execTickBatch (ch : Chan) (ticks : Ticks) (s : State) : Host.Outcome State Fault Refusal :=
  .next (tickBatch ch ticks s)

/-- A capture of a channel, now. -/
def State.captureOf (s : State) (c : Chan) : Capture :=
  ⟨(s.cnt.chan.get c).count, (s.cnt.chan.get c).dir, s.cnt.clock⟩

/-- A rising edge on MARK (01 R11). -/
def markCapture (s : State) : State :=
  let cap := s.captureOf .paper
  captureEnds .mark cap.value (judgeMark cap (s.upCnt fun k => { k with markCap := some cap }))

/-- MARK_CAPTURE (01 R11). -/
def execMarkCapture (s : State) : Host.Outcome State Fault Refusal := .next (markCapture s)

/-- A SPLICE capture is accepted (01 R12). -/
def Capture.accepted (c : Capture) (lockout : Option Int) (dSlock : Int) : Bool :=
  c.dir = .forward && (match lockout with
    | none => true
    | some last => last + dSlock < c.value)

/-- A rising edge on SPLICE (01 R12). -/
def spliceCapture (s : State) : State :=
  let cap := s.captureOf .fabric
  if cap.accepted s.cnt.lockout s.par.dSlock then
    captureEnds .splice cap.value
      (detectSplice cap.value
        (s.upCnt fun k => { k with spliceCap := some cap, lockout := some cap.value }))
  else s

/-- SPLICE_CAPTURE (01 R12). -/
def execSpliceCapture (s : State) : Host.Outcome State Fault Refusal := .next (spliceCapture s)

/-! ## Supervision (01 R9, R10) -/

/-- A running silence timer reaches t_sil: it stands there and ENCODER_SILENT is raised (01 R9). -/
def silenceExpires (c : Chan) (s : State) : State :=
  if (s.cnt.chan.get c).silence.isRunning then
    raise .encoderSilent (some c.num)
      (updChan c (fun k => { k with silence := .standing s.par.tSil.toNat }) s)
  else s

/-- ENCODER_SILENT (01 R9; notes/assumptions/2.md). -/
def execEncoderSilent (c : Chan) (s : State) : Host.Outcome State Fault Refusal := .next (silenceExpires c s)

/-- The stall timer, counting, reaches 500 ms (01 R10). -/
def stallExpires (s : State) : State :=
  if 0 < s.cnt.stall && s.cnt.stall < Config.stallTime then
    raise .stall (some 2) (s.upCnt fun k => { k with stall := Config.stallTime })
  else s

/-- STALL (01 R10; notes/assumptions/2.md). -/
def execStall (s : State) : Host.Outcome State Fault Refusal := .next (stallExpires s)

/-! ## SET_POSITION and READ_COUNTS (01 R13 to R15) -/

/-- The refusal of SET_POSITION (01 R14). -/
def positionRefusal (count : Nat) (v : Int) (s : State) : Option Status :=
  match chanOf count with
  | none => some .range
  | some c =>
      if !inRange (-Config.countLimit) Config.countLimit v then some .range
      else
        match c with
        | .paper =>
            if s.anyFlying || s.mot.vref ≠ 0 || s.cnt.chan.paper.speed ≠ 0 then some .state else none
        | .fabric => if s.trg.splices.isEmpty then none else some .state
        | .drum => none

/-- A channel's count is rebased (01 R13). -/
def rebase (c : Chan) (v : Int) (s : State) : State :=
  let s := updChan c (fun k => { k with count := v, rem := 0, overrange := false }) s
  match c with
  | .paper =>
      (s.upMrk fun m => { m with state := .unlocked, high := v }).upPq fun q => { q with lastEnd := v }
  | .fabric => s.upCnt fun k => { k with lockout := none }
  | .drum => s

/-- SET_POSITION (01 R13, R14). -/
def setPositionOp (count : Nat) (v : Int) (s : State) : State × Reply :=
  match chanOf count, positionRefusal count v s with
  | some c, none => (rebase c v s, okData (i32 (s.cnt.chan.get c).count))
  | _, some st => (s, refusedWith st)
  | none, none => (s, refusedWith .range)

end Sys2Proof.Machine
end

