-- ==== Sys2Proof/Machine/FaultCommands.lean ====
section
/-! DEFINITION. The operations of the fault monitor's commands, and its events (10). -/

namespace Sys2Proof.Machine
open Sys2Proof

/-! ## LINK_LOST (10 R175) -/

/-- A running link silence timer reaches T_link: it stops there and LINK_LOST is raised (10 R175). -/
def linkExpires (s : State) : State :=
  if s.flt.link.isRunning then
    raise .linkLost none (s.upFlt fun f => { f with link := .standing s.par.tLink.toNat })
  else s

/-- LINK_LOST (10 R175; notes/assumptions/2.md). -/
def execLinkLost (s : State) : Host.Outcome State Fault Refusal := .next (linkExpires s)

/-! ## CLEAR_FAULT (10 R170, 02 R25, 05 R83) -/

/-- The recorded causes in the order in which CLEAR_FAULT tests them (10 R170). -/
def FaultMon.recorded (f : FaultMon) : List Cause :=
  (f.latch.map Record.cause).toList ++ Cause.all.filter f.further.contains

/-- The first recorded cause whose condition holds, with its instance (10 R170). -/
def State.persisting (s : State) : Option (Cause × Option Nat) :=
  s.flt.recorded.findSome? fun c => (s.persists c).map fun i => (c, i)

/-- The line state a cleared latch leaves (02 R25). -/
def Heat.clearedLine (h : Heat) : LineState := if h.on then (if h.ready then .ready else .warming) else .off

/-- The latch is emptied (10 R170): the line state from the heat state, the loops in FAULT to OFF. -/
def clearLatch (s : State) : State :=
  let s := s.upFlt fun f => { f with latch := none, further := [], furtherCount := 0 }
  let s := setLine s.heat.clearedLine .clearFault s
  s.upTen fun t => t.map fun l => if l.state = .fault then l.toOff else l

/-- CLEAR_FAULT (10 R170). -/
def clearFaultOp (s : State) : State × Reply :=
  if !s.latched then (s, ok)
  else if s.mot.line = .halting then (s, refusedWith .busy)
  else
    match s.persisting with
    | some (c, i) => (s, refusedWith (.persists c i))
    | none => (clearLatch s, ok)

/-! ## Reading (10 R171, R174) -/

/-- The clear option of READ_STATUS (10 R174). -/
def clearFlags (s : State) : State :=
  (s.upMrk fun m => { m with stray := false }).upFlt fun f => { f with dropped := false }

/-- READ_STATUS (10 R174). -/
def readStatusOp (clear : Bool) (s : State) : State × Reply :=
  (if clear then clearFlags s else s, okData s.statusData)

end Sys2Proof.Machine
end

