-- ==== Sys2Proof/Machine/HeatOps.lean ====
section
/-! DEFINITION. The heat controller: setpoints, the stages of the temperature sample, the firing distributor
and the mains monitor (03). -/

namespace Sys2Proof.Machine
open Sys2Proof

/-- Change one zone record. -/
def updZone (z : Zone) (f : ZoneRec → ZoneRec) (s : State) : State :=
  s.upHeat fun h => { h with zones := h.zones.modify z f }

/-- Change the whole heat controller zone by zone. -/
def Heat.mapZones (f : ZoneRec → ZoneRec) (h : Heat) : Heat := { h with zones := h.zones.map f }

/-! ## SET_DRUM, HEAT_ON and HEAT_OFF (03 R42, R43) -/

/-- The values of SET_DRUM lie in their ranges and bounds (03 R42, its cases of RANGE). -/
def drumRange (thAbs setpoint : Int) (offsets : Six Int) (mask : Nat) : Bool :=
  inRange 1000 2600 setpoint && offsets.all (inRange (-100) 100) && (zonesOf mask).any id
    && Zone.all.all fun z => !(zonesOf mask).get z || setpoint + offsets.get z ≤ thAbs

/-- A zone that becomes enabled starts afresh (03 R42). -/
def ZoneRec.enabled (z : ZoneRec) : ZoneRec :=
  { z with
    enable := true, integ := 0, demand := 0, credit := 0, shortCount := 0, hist := [], invalid := 0,
    sensor := .normal, hold := .stopped, raised := false, inBand := false, overheat := false, cold := false }

/-- A zone that becomes disabled stops firing (03 R42). -/
def ZoneRec.disabled (z : ZoneRec) : ZoneRec :=
  { z with
    enable := false, ssr := false, demand := 0, integ := 0, credit := 0, hist := [], shortfall := false,
    shortCount := 0, inBand := false, cold := false, raised := false, sensor := .normal, hold := .stopped }

def ZoneRec.setEnable (z : ZoneRec) (e : Bool) : ZoneRec :=
  if z.enable = e then z else if e then z.enabled else z.disabled

/-- SET_DRUM is taken (03 R42). -/
def takeDrum (setpoint : Int) (offsets : Six Int) (mask : Nat) (s : State) : State :=
  s.upHeat fun h =>
    { h with
      setpoint := setpoint
      zones := Six.ofZone fun z =>
        { (h.zones.get z).setEnable ((zonesOf mask).get z) with offset := offsets.get z } }

/-- The status SET_DRUM gives (03 R42): OK where it is taken. -/
def drumStatus (setpoint : Int) (offsets : Six Int) (mask : Nat) (s : State) : Status :=
  if !s.heat.on then .state
  else if !drumRange s.par.thAbs setpoint offsets mask then .range
  else if zonesOf mask ≠ s.heat.enables
      && (s.mot.line = .running || s.mot.line = .stopping || s.mot.line = .halting) then .state
  else .ok

/-- A zone at HEAT_ON (03 R43). -/
def ZoneRec.heatOn (z : ZoneRec) : ZoneRec :=
  { z with
    integ := 0, demand := 0, credit := 0, shortCount := 0, hist := [], invalid := 0, sensor := .normal,
    hold := .stopped, inBand := false, cold := false, raised := false }

/-- HEAT_ON is taken in OFF (03 R43). -/
def takeHeatOn (setpoint : Int) (offsets : Six Int) (mask : Nat) (s : State) : State :=
  s.upHeat fun h =>
    { h with
      on := true, setpoint := setpoint
      zones := Six.ofZone fun z =>
        { (h.zones.get z).heatOn with enable := (zonesOf mask).get z, offset := offsets.get z }
      settle := .stopped, ready := false, pointer := .z0, freq := .none, period := none, excursion := false,
      lost := false, lostTimer := .running 0, edgePending := false }

/-- A zone at HEAT_OFF (03 R43). -/
def ZoneRec.heatOff (z : ZoneRec) : ZoneRec :=
  { z with
    ssr := false, demand := 0, integ := 0, credit := 0, hist := [], shortfall := false, shortCount := 0,
    inBand := false, cold := false, raised := false, sensor := .normal, hold := .stopped, invalid := 0 }

/-- HEAT_OFF is taken: the heat controller's part (03 R43). -/
def Heat.turnOff (h : Heat) : Heat :=
  { h.mapZones ZoneRec.heatOff with
    on := false, settle := .stopped, ready := false, lostTimer := .stopped, lost := false, excursion := false,
    freq := .none }

/-! ## Validity and sensor state (03 R44 to R46) -/

/-- A converter result is VALID (03 R44). -/
def validReading : Option Int → Bool
  | some t => inRange 0 3000 t
  | none => false

/-- The reading is taken (03 R44). -/
def ZoneRec.read (z : ZoneRec) (r : Option Int) : ZoneRec :=
  { z with
    reading := match r with | some t => .temp t | none => .opened
    valid := some (validReading r)
    lastValid := if validReading r then r.getD 0 else z.lastValid }

/-- The average of the demand history, 0 where it is empty (03 R45). -/
def histAverage (l : List Int) : Int := if l = [] then 0 else floorDiv l.sum l.length

/-- The zone enters HOLD (03 R45). -/
def ZoneRec.enterHold (z : ZoneRec) : ZoneRec :=
  { z with invalid := Config.invalidRun, sensor := .hold, hold := .running 0, demand := histAverage z.hist }

/-- Firing stops for the zone: credit 0, SHORTFALL cleared (03 R46, R49). -/
def ZoneRec.noCredit (z : ZoneRec) : ZoneRec := { z with credit := 0, shortfall := false, shortCount := 0 }

/-- The zone leaves HOLD for LOST (03 R46). -/
def ZoneRec.enterLost (z : ZoneRec) : ZoneRec :=
  { z.noCredit with sensor := .lost, hold := .stopped, demand := 0, ssr := false }

/-- ZONE_SENSOR for a zone found LOST, with the line in `line`: critical, with the raised flag set, in
RUNNING and STOPPING; a warning otherwise (03 R46). -/
def raiseZoneSensor (z : Zone) (line : LineState) (s : State) : State :=
  if line = .running || line = .stopping then
    raise .zoneSensor (some z.num) (updZone z (fun r => { r with raised := true }) s)
  else warn (.zoneSensor z) s

/-- A zone in HOLD goes LOST and is reported (03 R46). -/
def goLost (z : Zone) (line : LineState) (s : State) : State :=
  raiseZoneSensor z line (updZone z ZoneRec.enterLost s)

/-- The hold timer has reached 10,000 ms (03 R46). -/
def Timer.heldOut : Timer → Bool
  | .running ms => Config.holdTime ≤ ms
  | .standing _ => true
  | .stopped => false

/-- The sensor state of an enabled zone with heat on, after its reading (03 R45, R46). -/
def sensorStage (line : LineState) (s : State) (z : Zone) : State :=
  let r := s.heat.zones.get z
  if !s.heat.on || !r.enable then s
  else if r.valid = some true then
    updZone z (fun r =>
      { r with
        invalid := 0
        raised := r.sensor = .normal && r.raised
        hold := if r.sensor = .normal then r.hold else .stopped
        sensor := .normal }) s
  else
    let n := satAdd Config.invalidRun r.invalid 1
    let s := updZone z (fun r => { r with invalid := n }) s
    match r.sensor with
    | .normal => if n = Config.invalidRun then updZone z ZoneRec.enterHold s else s
    | .hold => if r.hold.heldOut then goLost z line s else s
    | .lost =>
        if (line = .running || line = .stopping) && !r.raised then raiseZoneSensor z line s else s

/-! ## Limits (03 R49, R50) -/

/-- The zone is over its limits (03 R49). -/
def Heat.overLimits (h : Heat) (thAbs : Int) (z : Zone) : Bool :=
  let r := h.zones.get z
  thAbs < r.lastValid || (h.on && r.enable && h.zoneSet z + Config.overBand < r.lastValid)

/-- OVERHEAT of a zone (03 R49). DESIGN CHOICE: the demand of a zone in HOLD stays 0 when the flag is cleared, and the
average it was frozen at is not taken up again (notes/assumptions/37.md). -/
def overheatStage (s : State) (z : Zone) : State :=
  let r := s.heat.zones.get z
  if s.heat.overLimits s.par.thAbs z then
    let s' := updZone z (fun r =>
      { r.noCredit with overheat := true, demand := 0, ssr := r.ssr && r.overheat }) s
    if r.overheat then s' else raise .overheat (some z.num) s'
  else updZone z (fun r => { r with overheat := false }) s

/-- DRUM_COLD of a zone (03 R50; notes/assumptions/15.md). -/
def coldStage (line : LineState) (s : State) (z : Zone) : State :=
  let r := s.heat.zones.get z
  if line ≠ .running then updZone z (fun r => { r with cold := false }) s
  else if r.enable && r.valid = some true then
    if r.lastValid < s.heat.zoneSet z - Config.coldBand then
      let s' := updZone z (fun r => { r with cold := true }) s
      if r.cold then s' else raise .drumCold (some z.num) s'
    else updZone z (fun r => { r with cold := false }) s
  else s

/-! ## Demand (03 R48) -/

/-- Append a demand to the history, newest last, ten at most (03 R48). -/
def pushDemand (l : List Int) (d : Int) : List Int :=
  if Config.demandHistory ≤ l.length then l.tail ++ [d] else l ++ [d]

/-- The controller of a zone with error `e` (03 R48). -/
def ZoneRec.control (z : ZoneRec) (e kP kI : Int) : ZoneRec :=
  let u := floorDiv (kP * e) 16 + z.integ
  let d := clamp 0 1000 u
  { z with
    demand := d
    integ := if (1000 < u && 0 < e) || (u < 0 && e < 0) then z.integ
      else clamp 0 1000 (z.integ + floorDiv (kI * e) 256)
    hist := pushDemand z.hist d }

/-- The demand of one zone (03 R48). -/
def Heat.demandStage (h : Heat) (kP kI : Int) (z : Zone) : ZoneRec :=
  let r := h.zones.get z
  if h.on && r.enable && r.valid = some true then
    if r.overheat then { r with demand := 0, hist := pushDemand r.hist 0 }
    else r.control (h.zoneSet z - r.lastValid) kP kI
  else r

/-! ## Readiness (03 R51, 02 R19) -/

/-- The zone is in the ready band (03 R51). -/
def Heat.inBandNow (h : Heat) (bReady : Int) (z : Zone) : Bool :=
  let r := h.zones.get z
  r.enable && r.sensor = .normal && r.valid = some true && |r.lastValid - h.zoneSet z| ≤ bReady

/-- An enabled zone lies more than the ready band plus 5.0 °C from its setpoint (03 R51). -/
def Heat.farOut (h : Heat) (bReady : Int) : Bool :=
  Zone.all.any fun z =>
    let r := h.zones.get z
    r.enable && r.sensor = .normal && r.valid = some true
      && bReady + Config.farMargin < |r.lastValid - h.zoneSet z|

/-- Every enabled zone is in band. -/
def Heat.allInBand (h : Heat) : Bool := Zone.all.all fun z => !(h.zones.get z).enable || (h.zones.get z).inBand

/-- The settle timer at a sample with all enabled zones in band (03 R51). DESIGN CHOICE: saturated it counts as
running, not as standing at a limit (notes/assumptions/14.md). -/
def settleStep : Timer → Timer
  | .stopped => .running 0
  | .running ms => .running (satAdd Config.settleMax ms 100)
  | .standing ms => .standing ms

/-- The settle timer stands at t_settle or more. -/
def settled (tSettle : Int) : Timer → Bool
  | .stopped => false
  | .running ms | .standing ms => tSettle * 1000 ≤ ms

/-- The in-band flags, the settle timer and readiness (03 R51). -/
def Heat.readyStage (h : Heat) (bReady tSettle : Int) : Heat :=
  if !h.on then h
  else
    let h := { h with zones := Six.ofZone fun z => { h.zones.get z with inBand := h.inBandNow bReady z } }
    if h.allInBand then
      let t := settleStep h.settle
      { h with settle := t, ready := settled tSettle t }
    else { h with settle := .stopped, ready := false }

/-- The findings handed to the motion controller (02 R19). -/
def findings (far : Bool) (s : State) : State :=
  match s.mot.line with
  | .warming => if s.heat.ready then setLine .ready .readiness s else s
  | .ready => if far then setLine .warming .outOfBand s else s
  | _ => s

/-- The temperature sample (03 3.3): readings and sensor states, limits, demands, readiness, with the line
state as it stands at the sample (notes/assumptions/8.md). DESIGN CHOICE: each stage runs over all six zones in ascending
number before the next, ZONE_SENSOR, OVERHEAT, DRUM_COLD (notes/assumptions/7.md). -/
def temperatureSample (readings : Six (Option Int)) (s : State) : State :=
  let line := s.mot.line
  let s := s.upHeat fun h => { h with zones := Six.ofZone fun z => (h.zones.get z).read (readings.get z) }
  let s := Zone.all.foldl (sensorStage line) s
  let s := Zone.all.foldl (coldStage line) (Zone.all.foldl overheatStage s)
  let s := s.upHeat fun h => { h with zones := Six.ofZone (h.demandStage s.par.kP s.par.kI) }
  let s := s.upHeat fun h => h.readyStage s.par.bReady s.par.tSettle
  if s.heat.on then findings (s.heat.farOut s.par.bReady) s else s

/-! ## The firing distributor (03 R52, R53) -/

/-- The zones from `z` upward, wrapping, each once. -/
def rotation (z : Zone) : List Zone :=
  [z, z.succ, z.succ.succ, z.succ.succ.succ, z.succ.succ.succ.succ, z.succ.succ.succ.succ.succ]

/-- The zone takes part in the distributor (03 R52). -/
def ZoneRec.fires (z : ZoneRec) : Bool := z.enable && z.sensor ≠ .lost && !z.overheat

/-- A demand added to the credit; a sum past 2000 sets SHORTFALL (03 R52, step 1). -/
def ZoneRec.addCredit (z : ZoneRec) : ZoneRec :=
  if !z.fires then z
  else if Config.creditCap < z.credit + z.demand then
    { z with
      credit := Config.creditCap, shortfall := true
      shortCount := if z.shortfall then z.shortCount else 0 }
  else { z with credit := z.credit + z.demand }

/-- The zones granted: the first `m` candidates of the scan (03 R52, steps 2 and 3). -/
def granted (m : Nat) (zones : Six ZoneRec) (pointer : Zone) : List Zone :=
  ((rotation pointer).filter fun z => (zones.get z).fires && Config.creditUnit ≤ (zones.get z).credit).take m

/-- A zone after the grants (03 R52, step 4). -/
def ZoneRec.grant (z : ZoneRec) (g : Bool) : ZoneRec :=
  let credit := if g then z.credit - Config.creditUnit else z.credit
  if credit < Config.creditUnit then
    { z with ssr := g, credit := credit, shortfall := false, shortCount := if z.shortfall then 0 else z.shortCount }
  else { z with ssr := g, credit := credit }

/-- The SHORTFALL count reached at 5 s of half-cycles (03 R53). -/
def shortLimit : Freq → Nat
  | .hz60 => 600
  | _ => 500

/-- The next enabled zone above the pointer (03 R52, step 5). -/
def Heat.nextPointer (h : Heat) : Zone :=
  ((rotation h.pointer.succ).find? fun z => (h.zones.get z).enable).getD h.pointer

/-- A zone's SHORTFALL count after a run, where its flag was set before it too (03 R53). -/
def ZoneRec.countShort (z : ZoneRec) (before : Bool) (limit : Nat) : ZoneRec :=
  if z.shortfall && before then { z with shortCount := satAdd limit z.shortCount 1 } else z

/-- One run of the distributor, but for the warnings (03 R52, R53). -/
def Heat.distribute (h : Heat) (mFire : Nat) : Heat :=
  let added := h.zones.map ZoneRec.addCredit
  let g := granted mFire added h.pointer
  { h with
    zones := Six.ofZone fun z =>
      ((added.get z).grant (g.contains z)).countShort (h.zones.get z).shortfall (shortLimit h.freq)
    pointer := h.nextPointer }

/-- The zones whose SHORTFALL count reaches its limit from `old` to `new` (03 R53). -/
def shortReached (old new : Heat) : List Zone :=
  Zone.all.filter fun z =>
    (old.zones.get z).shortfall && (new.zones.get z).shortfall
      && (old.zones.get z).shortCount < shortLimit old.freq && (new.zones.get z).shortCount = shortLimit old.freq

/-- The distributor runs (03 R52, R53). DESIGN CHOICE: the ZONE_SHORTFALL warnings of one run go in ascending zone number
(notes/assumptions/7.md). -/
def distribute (s : State) : State :=
  let s' := s.upHeat fun h => h.distribute s.par.mFire.toNat
  (shortReached s.heat s'.heat).foldl (fun s z => warn (.zoneShortfall z) s) s'

/-! ## The mains monitor (03 R54 to R56) -/

/-- An edge that ends a mains loss, or the first edge after HEAT_ON: it fires no zone (03 R52, R56). -/
def Heat.firstEdge (h : Heat) : Heat :=
  { h.mapZones fun z => { z with ssr := false } with edgePending := true, lostTimer := .running 0 }

/-- The edge that ends a mains loss (03 R56). -/
def Heat.mainsBack (h : Heat) : Heat := { h.firstEdge with lost := false, freq := .none, period := none }

/-- A half-cycle period is measured (03 R54, R55). -/
def Heat.measure (h : Heat) (period : Nat) : Heat :=
  { h with
    lostTimer := .running 0, period := some period
    freq := if h.freq = .none then (if period < Config.period60 then .hz60 else .hz50) else h.freq
    excursion := decide (period < Config.periodLow ∨ Config.periodHigh < period) }

/-- A taken edge that ends a half-cycle of `period` (03 R54, R55, R52). DESIGN CHOICE: MAINS_FREQ comes before the
ZONE_SHORTFALL warnings of the run (notes/assumptions/7.md). -/
def takeEdge (period : Nat) (s : State) : State :=
  let was := s.heat.excursion
  let s := s.upHeat fun h => h.measure period
  distribute (if s.heat.excursion && !was then warn (.mainsFreq period) s else s)

/-- A zero-cross edge `gap` hundredths of a ms after the last taken edge (03 R54). -/
def zeroCross (gap : Nat) (s : State) : State :=
  let s := s.upPins fun p => { p with zc := !p.zc }
  if !s.heat.on then s
  else if s.heat.lost then s.upHeat Heat.mainsBack
  else if !s.heat.edgePending then s.upHeat Heat.firstEdge
  else if gap < Config.noiseGap then s
  else takeEdge gap s

/-- Heat after the mains is found gone (03 R56). -/
def Heat.mainsGone (h : Heat) : Heat :=
  { h.mapZones fun z => { z.noCredit with ssr := false } with
    lost := true, lostTimer := .stopped, edgePending := false }

/-- The mains lost timer reaches 25 ms (03 R56). -/
def mainsLost (s : State) : State := raise .mainsLost none (s.upHeat Heat.mainsGone)

end Sys2Proof.Machine
end

