-- ==== Sys2Proof/Machine/HeatCommands.lean ====
section
/-! DEFINITION. The operations of the heat controller's commands, and its events (03, 02 R18 and R20). -/

namespace Sys2Proof.Machine
open Sys2Proof

/-! ## Events -/

/-- TEMPERATURE_SAMPLE (03 3.3). -/
def execTemperatureSample (readings : Six (Option Int)) (s : State) : Host.Outcome State Fault Refusal :=
  .next (temperatureSample readings s)

/-- The invalid count of an enabled zone in NORMAL, counting, reaches 3 (03 R45); the demand of a zone flagged
OVERHEAT stays 0 (R49). -/
def zoneHold (z : Zone) (s : State) : State :=
  let r := s.heat.zones.get z
  if s.heat.on && r.enable && r.sensor = .normal && 0 < r.invalid then
    updZone z (fun r => if r.overheat then { r.enterHold with demand := 0 } else r.enterHold) s
  else s

/-- ZONE_HOLD (03 R45; notes/assumptions/2.md). -/
def execZoneHold (z : Zone) (s : State) : Host.Outcome State Fault Refusal := .next (zoneHold z s)

/-- The hold timer of a zone in HOLD reaches 10 s (03 R46). -/
def zoneSensor (z : Zone) (s : State) : State :=
  if (s.heat.zones.get z).sensor = .hold then goLost z s.mot.line s else s

/-- ZONE_SENSOR (03 R46; notes/assumptions/2.md). -/
def execZoneSensor (z : Zone) (s : State) : Host.Outcome State Fault Refusal := .next (zoneSensor z s)

/-- The settle timer at t_settle or more (03 R51). -/
def settleAt (tSettle : Int) : Timer → Timer
  | .running ms => .running (max ms (tSettle * 1000).toNat)
  | t => t

/-- A running settle timer reaches t_settle with every enabled zone in band: readiness holds (03 R51, 02 R19). -/
def readiness (s : State) : State :=
  if s.heat.on && s.heat.settle.isRunning && s.heat.allInBand then
    findings false (s.upHeat fun h => { h with settle := settleAt s.par.tSettle h.settle, ready := true })
  else s

/-- READINESS (03 R51, 02 R19; notes/assumptions/2.md). -/
def execReadiness (s : State) : Host.Outcome State Fault Refusal := .next (readiness s)

/-- ZERO_CROSS_EDGE (03 R52 to R56). -/
def execZeroCrossEdge (gap : Nat) (s : State) : Host.Outcome State Fault Refusal := .next (zeroCross gap s)

/-- The SHORTFALL count of a zone, counting, reaches 5 s of half-cycles (03 R53). -/
def zoneShortfall (z : Zone) (s : State) : State :=
  let r := s.heat.zones.get z
  if r.shortfall && r.shortCount < shortLimit s.heat.freq then
    warn (.zoneShortfall z) (updZone z (fun r => { r with shortCount := shortLimit s.heat.freq }) s)
  else s

/-- ZONE_SHORTFALL (03 R53; notes/assumptions/2.md). -/
def execZoneShortfall (z : Zone) (s : State) : Host.Outcome State Fault Refusal := .next (zoneShortfall z s)

/-- A running mains lost timer reaches 25 ms (03 R56). -/
def mainsExpires (s : State) : State := if s.heat.lostTimer.isRunning then mainsLost s else s

/-- MAINS_LOST (03 R56; notes/assumptions/2.md). -/
def execMainsLost (s : State) : Host.Outcome State Fault Refusal := .next (mainsExpires s)

/-! ## Commands -/

/-- SET_DRUM as carried out (03 R42). -/
def setDrumOp (setpoint : Int) (offsets : Six Int) (mask : Nat) (s : State) : State × Reply :=
  match drumStatus setpoint offsets mask s with
  | .ok => (takeDrum setpoint offsets mask s, ok)
  | st => (s, refusedWith st)

/-- HEAT_ON as carried out (02 R18; notes/assumptions/20.md). -/
def heatOnOp (setpoint : Int) (offsets : Six Int) (mask : Nat) (s : State) : State × Reply :=
  if !drumRange s.par.thAbs setpoint offsets mask then (s, refusedWith .range)
  else if s.latched then (s, refusedWith .state)
  else
    match s.mot.line with
    | .off => (setLine .warming .heatOn (takeHeatOn setpoint offsets mask s), ok)
    | .halting | .faulted => (s, refusedWith .state)
    | .warming | .ready | .running | .stopping | .threading => setDrumOp setpoint offsets mask s

/-- HEAT_OFF is taken (02 R20, 03 R43, 05 R83). -/
def heatOffLine (s : State) : State :=
  setLine .off .heatOff ((s.upHeat Heat.turnOff).upTen fun t => t.map LoopRec.toOff)

/-- HEAT_OFF (02 R20). -/
def heatOffOp (s : State) : State × Reply :=
  match s.mot.line with
  | .off => (s, ok)
  | .warming | .ready | .faulted => (heatOffLine s, ok)
  | .threading =>
      if 0 < s.mot.vref || s.mot.seek.state = .moving then (s, refusedWith .state) else (heatOffLine s, ok)
  | .running | .stopping | .halting => (s, refusedWith .state)

end Sys2Proof.Machine
end

