-- ==== Sys2Proof/Machine/MotionCommands.lean ====
section
/-! DEFINITION. The operations of the motion controller's commands, and its events (02). -/

namespace Sys2Proof.Machine
open Sys2Proof

/-! ## Events -/

/-- The remaining distance of a MOVING move falls to 0 (02 R37). -/
def seekDistance (s : State) : State :=
  if s.mot.seek.state = .moving then
    s.upMot fun m => { m with seek := { m.seek with remaining := 0 }.finish .distance s.pp }
  else s

/-- SEEK_DISTANCE_REACHED (02 R37; notes/assumptions/2.md). -/
def execSeekDistanceReached (s : State) : Host.Outcome State Fault Refusal := .next (seekDistance s)

/-- NIP_LIMIT_CHANGE (02 R32, R22). -/
def execNipLimitChange (nipc nipo : Bool) (s : State) : Host.Outcome State Fault Refusal :=
  .next (nipLimits nipc nipo s)

/-- A running nip timer reaches t_nip (02 R32). -/
def nipTimeout (s : State) : State := if s.mot.nipTimer.isRunning then nipExpires s else s

/-- NIP_TIMEOUT (02 R32; notes/assumptions/2.md). -/
def execNipTimeout (s : State) : Host.Outcome State Fault Refusal := .next (nipTimeout s)

/-- A running hold timer reaches t_hold (02 R33). -/
def nipHold (s : State) : State := if s.mot.hold.isRunning then holdEnds s else s

/-- NIP_HOLD (02 R33, R22; notes/assumptions/2.md). -/
def execNipHold (s : State) : Host.Outcome State Fault Refusal := .next (nipHold s)

/-- ESTOP changes from inactive to active (02 R26); an input already active does not change. -/
def estopEdge (s : State) : State := if s.pins.estop then s else estopActs s

/-- ESTOP (02 R26). -/
def execEstop (s : State) : Host.Outcome State Fault Refusal := .next (estopEdge s)

/-- ESTOP_RELEASE (02 R26). -/
def execEstopRelease (s : State) : Host.Outcome State Fault Refusal :=
  .next (s.upPins fun p => { p with estop := false })

/-- SPEED_AND_TENSION_SAMPLE (01 R8 to R10, 02 2.4, 05). -/
def execSpeedAndTensionSample (lc0 lc1 lc2 : Int) (countAfter tensionAfter : Bool) (s : State) :
    Host.Outcome State Fault Refusal :=
  .next (speedSample lc0 lc1 lc2 countAfter tensionAfter s)

/-! ## Commands on the line state -/

/-- START (02 R21). -/
def startOp (s : State) : State × Reply :=
  match s.mot.line with
  | .ready | .stopping => (startLine s, ok)
  | .running => (s, ok)
  | .off | .warming | .threading | .halting | .faulted => (s, refusedWith .state)

/-- STOP (02 R22). -/
def stopOp (s : State) : State × Reply :=
  match s.mot.line with
  | .running => (stopLine s, ok)
  | .stopping => (s, ok)
  | .off | .warming | .ready | .threading | .halting | .faulted => (s, refusedWith .state)

/-- THREAD_ENTER (02 R23). -/
def threadEnterOp (s : State) : State × Reply :=
  match s.mot.line with
  | .ready => (setLine .threading .threadEnter s, ok)
  | .threading => (s, ok)
  | .off | .warming | .running | .stopping | .halting | .faulted => (s, refusedWith .state)

/-- THREAD_EXIT (02 R23). DESIGN CHOICE: a SEEK_ENDED notice still due is dropped with the seek record
(notes/assumptions/13.md). -/
def threadExitOp (s : State) : State × Reply :=
  if s.mot.line = .threading && s.mot.vref = 0 && s.mot.seek.state ≠ .moving then
    (setLine .ready .threadExit (s.upMot fun m => { m with seek := {} }), ok)
  else (s, refusedWith .state)

/-! ## Moves -/

/-- JOG (02 R36). -/
def jogOp (direction : Nat) (distance : Int) (s : State) : State × Reply :=
  match Dir.ofCode direction with
  | none => (s, refusedWith .range)
  | some d =>
      if !inRange 1 200000 distance then (s, refusedWith .range)
      else
        match moveRefusal s with
        | some st => (s, refusedWith st)
        | none =>
            if d = .reverse && s.anyFlying then (s, refusedWith .state)
            else (takeMove .jog d distance .none s, ok)

/-- SEEK (02 R35). -/
def seekOp (distance : Int) (condition : Nat) (s : State) : State × Reply :=
  match SeekCond.ofCode condition with
  | none => (s, refusedWith .range)
  | some c =>
      if !inRange 1 10000000 distance then (s, refusedWith .range)
      else
        match moveRefusal s with
        | some st => (s, refusedWith st)
        | none => (takeMove .seek .forward distance c s, ok)

/-- SEEK_STOP (02 R37). -/
def seekStopOp (s : State) : State × Reply :=
  if s.mot.line = .threading then (s.upMot fun m => { m with seek := m.seek.suspend .stopped }, ok)
  else (s, refusedWith .state)

/-- SEEK_RESUME (02 R38). -/
def seekResumeOp (s : State) : State × Reply :=
  let k := s.mot.seek
  if s.mot.line ≠ .threading || k.state ≠ .suspended then (s, refusedWith .state)
  else if k.kind = .jog && k.dir = .reverse && s.anyFlying then (s, refusedWith .state)
  else (resumeMove s, ok)

end Sys2Proof.Machine
end

