-- ==== Sys2Proof/Machine/PanelCommands.lean ====
section
/-! DEFINITION. The operations of the panel queue's and dispatcher's commands, CLEAR_LINE, and the time deadline
(07, 10 10.6). -/

namespace Sys2Proof.Machine
open Sys2Proof

/-! ## Admitting panels (07 R112, R113) -/

/-- A record as it is admitted (07 R110, R112). -/
def newPanel (kind : PanelKind) (panel entry : Nat) (length : Int) (mark : Bool) : Panel :=
  { tag := panel, kind := kind, profile := entry, length := length, mark := mark }

/-- The checks of R112 without the capacity: the entry and the mark request, or a refusal. -/
def newRecord (panel : Nat) (name : ProfileName) (length : Int) (mark : Nat) (s : State) :
    Except Status (Nat × Bool) :=
  match markOfCode mark with
  | none => .error .range
  | some m =>
      if panel = 0 || !inRange 5000 600000 length || !ProfileName.inRange name then .error .range
      else if s.tagHeld panel then .error .duplicate
      else
        match s.prf.resolve name with
        | none => .error .miss
        | some n => .ok (n, m)

/-- PANEL_SUBMIT (07 R112). -/
def panelSubmitOp (panel : Nat) (name : ProfileName) (length : Int) (mark : Nat) (s : State) :
    State × Reply :=
  match newRecord panel name length mark s with
  | .error st => (s, refusedWith st)
  | .ok (n, m) =>
      if Config.queueCap ≤ s.pq.queue.length then (s, refusedWith .full)
      else
        (decide_ (takeRef n (s.upPq fun q =>
          { q with queue := q.queue ++ [newPanel .normal panel n length m] })), okData (u8 n))

/-- PANEL_INSERT (07 R113). DESIGN CHOICE: its reply OK carries the entry number, as that of PANEL_SUBMIT does
(notes/assumptions/40.md). -/
def panelInsertOp (slot panel : Nat) (name : ProfileName) (length : Int) (mark : Nat) (s : State) :
    State × Reply :=
  if 3 < slot then (s, refusedWith .range)
  else if s.pq.slots[slot]? ≠ some .empty then (s, refusedWith .inUse)
  else
    match newRecord panel name length mark s with
    | .error st => (s, refusedWith st)
    | .ok (n, m) =>
        (decide_ (takeRef n (s.upPq fun q =>
          { q with slots := q.slots.set slot (.armed (newPanel .insert panel n length m)) })), okData (u8 n))

/-! ## Cancelling (07 R128) -/

/-- The record of a cancelled panel (07 R128). -/
def Panel.cancelled (p : Panel) : Panel :=
  { p with state := .done, verdict := some .cancelled, xs := none, txn := none, gains := none }

def Slot.cancel (tag : Nat) : Slot → Slot
  | .armed p => if p.tag = tag then .cancelled p.cancelled else .armed p
  | x => x

/-- The slot is armed with the panel. -/
def Slot.armedWith (tag : Nat) : Slot → Bool
  | .armed p => p.tag = tag
  | _ => false

/-- A panel of the queue becomes CANCELLED: DONE without an x_s (07 R128, R111). -/
def cancelQueued (p : Panel) (s : State) : State :=
  s.upPq fun q => { q with queue := insertBeforeQueued p.cancelled (without p.tag q.queue) }

/-- A STARTING panel is withdrawn for a cancellation (07 R128). -/
def cancelStarting (p : Panel) (s : State) : State :=
  match s.pq.live.find? (fun t => t.tag = p.tag) with
  | some t =>
      let s := withdraw t.num t.tag s
      let s := s.upPq fun q =>
        { q with live := dropTxn t.num t.tag q.live, lastEnd := endOfPlaced (without p.tag q.queue) s.pp }
      cancelQueued p s
  | none => cancelQueued p s

/-- PANEL_CANCEL (07 R128), answered by the record as it stands. DESIGN CHOICE: a panel that a refusal skipped is answered
STATE while its record is held, and MISS once its report is placed and the record is gone, where the last sentence of R128
gives STATE and its table MISS (notes/assumptions/45.md). -/
def panelCancelOp (panel : Nat) (s : State) : State × Reply :=
  if panel = 0 then (s, refusedWith .range)
  else if s.pq.slots.any (Slot.armedWith panel) then
    (decide_ (becomeDone panel none
      (s.upPq fun q => { q with slots := q.slots.map (Slot.cancel panel) })), ok)
  else
    match s.queued? panel with
    | some p =>
        match p.state with
        | .queued => (decide_ (becomeDone panel none (cancelQueued p s)), ok)
        | .starting => (decide_ (becomeDone panel none (cancelStarting p s)), ok)
        | .printing | .printed | .spoiled | .inArc | .done => (s, refusedWith .state)
    | none => (s, refusedWith (if s.tagHeld panel then .state else .miss))

/-! ## Dispatch state (07 R114) -/

/-- Set the dispatch state. -/
def setDispatch (d : Dispatch) (s : State) : State := s.upPq fun q => { q with dispatch := d }

/-- DISPATCH_ENABLE (07 R114). -/
def dispatchEnableOp (s : State) : State × Reply :=
  match s.pq.dispatch with
  | .off | .enabled => (decide_ (setDispatch .enabled s), ok)
  | .held => (s, refusedWith .state)

/-- DISPATCH_HOLD (07 R114). -/
def dispatchHoldOp (s : State) : State × Reply :=
  match s.pq.dispatch with
  | .enabled => (setDispatch .held s, ok)
  | .off | .held => (s, ok)

/-- DISPATCH_RESUME (07 R114). -/
def dispatchResumeOp (s : State) : State × Reply :=
  match s.pq.dispatch with
  | .held | .enabled => (decide_ (setDispatch .enabled s), ok)
  | .off => (s, refusedWith .state)

/-- DISPATCH_OFF (07 R114). -/
def dispatchOffOp (s : State) : State × Reply := (setDispatch .off s, ok)

/-! ## Reading (07 R132) -/

/-- READ_PANEL (07 R132). -/
def readPanelOp (panel : Nat) (s : State) : State × Reply :=
  match s.panel? panel with
  | some p => (s, okData (panelData p))
  | none => (s, refusedWith .miss)

/-! ## TIME_DEADLINE (07 R119, R120) -/

/-- t_acc has passed for a STARTING transaction (07 R120). -/
def timeDeadline (num : Nat) (s : State) : State :=
  match s.pq.live.find? (fun t => t.num = num && t.phase = .awaitAccept) with
  | some t => decide_ (startingDeadline t none s)
  | none => s

/-- TIME_DEADLINE (07 R119, R120; notes/assumptions/2.md). -/
def execTimeDeadline (txn : Nat) (s : State) : Host.Outcome State Fault Refusal := .next (timeDeadline txn s)

/-! ## CLEAR_LINE (10 R176) -/

/-- CLEAR_LINE is taken in this state (10 R176). -/
def State.mayClear (s : State) : Bool :=
  (s.mot.line = .off || s.mot.line = .ready || s.mot.line = .faulted) && s.mot.vref = 0
    && s.cnt.chan.paper.speed = 0 && s.cnt.chan.fabric.speed = 0 && s.cnt.chan.drum.speed = 0

/-- The panel queue and dispatcher (07 R131). -/
def clearQueue (s : State) : State :=
  let s := (sortBy (fun t : Txn => (t.num : Int)) s.pq.live).foldl (fun s t => withdraw t.num t.tag s) s
  let s := (s.pq.queue ++ s.pq.slots.filterMap Slot.panel?).foldl (fun s p => dropRef p.profile s) s
  s.upPq fun q =>
    { q with
      queue := [], slots := [.empty, .empty, .empty, .empty], waiting := [], dispatch := .off,
      lastEnd := s.pp, live := [] }

/-- The slot at CLEAR_LINE is a HOST entry with an unresolved anchor (09 R165). -/
def TrigSlot.unresolved : TrigSlot → Bool
  | .held .host t => t.position.isNone && t.anchor.isSome
  | _ => false

def TrigSlot.dropPanel : TrigSlot → TrigSlot
  | .held .panel _ => .free
  | x => x

/-- The trigger and window unit (09 R165). DESIGN CHOICE: entries are orphaned in slot order (notes/assumptions/6.md). -/
def clearTriggers (s : State) : State :=
  let s := s.upTrg fun u => { u with slots := u.slots.map TrigSlot.dropPanel }
  let s := (List.range s.trg.slots.length).foldl
    (fun s i => if (s.trg.slots[i]?.getD .free).unresolved then orphanSlot i none s else s) s
  let s := s.trg.splices.foldl (fun s r => dropRef? r.next s) s
  let s := dropRef? s.trg.announced s
  s.upTrg fun u => { u with splices := [], announced := none }

/-- The blocks act together at CLEAR_LINE (10 R176). DESIGN CHOICE: the HEAD_PROTOCOL warnings of its withdrawals come
before its ORPHANED notices (notes/assumptions/6.md). -/
def clearLine (s : State) : State :=
  let s := clearQueue s
  let s := s.upDose fun d => { d with probes := [], floorFlag := false }
  let s := s.upMrk fun m => { m with state := .unlocked, slip := 0, high := s.pp }
  clearTriggers s

/-- CLEAR_LINE (10 R176). -/
def clearLineOp (s : State) : State × Reply :=
  if s.mayClear then (clearLine s, ok) else (s, refusedWith .state)

end Sys2Proof.Machine
end

