-- ==== Sys2Proof/Machine/TriggerCommands.lean ====
section
/-! DEFINITION. The operations of the trigger and window unit's commands, and its events (09). -/

namespace Sys2Proof.Machine
open Sys2Proof

/-! ## Pulses (09 R154) -/

/-- A running pulse timer reaches its width: the output goes low and the timer stops (09 R154). -/
def pulseEnd (o : Output) (s : State) : State := s.upTrg fun u => { u with pulses := u.pulses.set o none }

/-- PULSE_END (09 R154; notes/assumptions/2.md). -/
def execPulseEnd (o : Output) (s : State) : Host.Outcome State Fault Refusal := .next (pulseEnd o s)

/-! ## Triggers (09 R152) -/

/-- The entry TRIGGER_SET writes, or none where a field is out of range (09 R152). -/
def readTrigger (f : TriggerFields) : Option Trigger :=
  match Axis.ofCode f.axis, TrigDir.ofCode f.direction, Action.ofCode f.action, Repeat.ofCode f.repeated with
  | some axis, some dir, some action, some rep =>
      let fits : Bool := match f.position, f.anchor with
        | some p, none => inRange (-Config.countLimit) Config.countLimit p
        | none, some (panel, off) => axis = .paper && panel ≠ 0 && inRange (-1000000) 1000000 off
        | _, _ => false
      if fits then some ⟨axis, f.position, f.anchor, dir, action, rep, true⟩ else none
  | _, _, _, _ => none

/-- The entry's anchor tag is held by no record (09 R152). -/
def State.anchorMissing (s : State) (t : Trigger) : Bool :=
  match t.anchor with
  | some (panel, _) => !s.tagHeld panel
  | none => false

/-- The arrival of the panel an entry is anchored to, if it is set. -/
def State.anchorArrival (s : State) (t : Trigger) : Option Int :=
  match t.anchor with
  | some (panel, _) => (s.panel? panel).bind Panel.arrival
  | none => none

/-- The slot belongs to the panel queue. -/
def TrigSlot.isPanel : TrigSlot → Bool
  | .held .panel _ => true
  | _ => false

/-- The slot of a number, FREE where there is none. -/
def State.slot (s : State) (i : Nat) : TrigSlot := s.trg.slots[i]?.getD .free

/-- An entry written by TRIGGER_SET; one anchored to a panel whose A is set is resolved at once (09 R155). -/
def writeTrigger (i : Nat) (t : Trigger) (s : State) : State :=
  let s := setTrigSlot i (.held .host t) s
  match s.anchorArrival t with
  | some a => resolveSlot i a none s
  | none => s

/-- TRIGGER_SET (09 R152, R155). -/
def triggerSetOp (i : Nat) (f : TriggerFields) (s : State) : State × Reply :=
  if 23 < i then (s, refusedWith .range)
  else
    match readTrigger f with
    | none => (s, refusedWith .range)
    | some t =>
        if (s.slot i).isPanel then (s, refusedWith .inUse)
        else if s.anchorMissing t then (s, refusedWith .miss)
        else (writeTrigger i t s, ok)

/-- TRIGGER_ARM (09 R152). -/
def triggerArmOp (i : Nat) (s : State) : State × Reply :=
  if 23 < i then (s, refusedWith .range)
  else
    match s.slot i with
    | .held .panel _ => (s, refusedWith .inUse)
    | .free => (s, refusedWith .miss)
    | .held .host t => (setTrigSlot i (.held .host { t with armed := true }) s, ok)

/-- TRIGGER_CLEAR (09 R152). -/
def triggerClearOp (i : Nat) (s : State) : State × Reply :=
  if 23 < i then (s, refusedWith .range)
  else
    match s.slot i with
    | .held .panel _ => (s, refusedWith .inUse)
    | .free => (s, ok)
    | .held .host _ => (setTrigSlot i .free s, ok)

/-- TRIGGER_READ (09 R166). -/
def triggerReadOp (i : Nat) (s : State) : State × Reply :=
  if 23 < i then (s, refusedWith .range) else (s, okData (s.triggerData (s.slot i)))

/-! ## Windows (09 R157) -/

/-- The window WINDOW_SET writes, not yet judged, or none where a value is out of range (09 R157). -/
def readWindow (f : WindowFields) : Option Window :=
  match Axis.ofCode f.axis with
  | none => none
  | some axis =>
      let mask := loopsOf f.mask
      let hold := f.effects.testBit 0
      let cap := f.effects.testBit 3
      let any := hold || f.effects.testBit 1 || f.effects.testBit 2 || cap
      if f.lo < f.hi && inRange (-Config.countLimit) Config.countLimit f.lo
          && inRange (-Config.countLimit) Config.countLimit f.hi && any
          && (!hold || mask.feed || mask.unwind || mask.rewind) && (!cap || inRange 100 50000 f.cap) then
        some ⟨axis, f.lo, f.hi, if hold then some mask else none, f.effects.testBit 1, f.effects.testBit 2,
          if cap then some f.cap else none, f.notify, false⟩
      else none

/-- Write a window. -/
def setWindow (i : Nat) (w : Option Window) (s : State) : State :=
  s.upTrg fun u => { u with windows := u.windows.set i w }

/-- WINDOW_SET (09 R157). -/
def windowSetOp (i : Nat) (f : WindowFields) (s : State) : State × Reply :=
  if 7 < i then (s, refusedWith .range)
  else
    match readWindow f with
    | none => (s, refusedWith .range)
    | some w =>
        let active := w.judged (s.axisCount w.axis)
        (setWindow i (some { w with active := active }) s, okData (flag active))

/-- WINDOW_CLEAR (09 R157). -/
def windowClearOp (i : Nat) (s : State) : State × Reply :=
  if 7 < i then (s, refusedWith .range) else (setWindow i none s, okData (flag false))

/-! ## Fabric (09 R161) -/

/-- A name that may be none: the entry it resolves to, or a refusal (06 R95, 09 R161). -/
def resolveName (t : Profiles) (n : ProfileName) : Except Status (Option Nat) :=
  match n with
  | .none => .ok none
  | _ =>
      if !ProfileName.inRange n then .error .range
      else
        match t.resolve n with
        | some i => .ok (some i)
        | none => .error .miss

/-- FABRIC_LOAD (09 R161). DESIGN CHOICE: STATE for a splice record in the list comes before RANGE and MISS of the name,
and the pointers are set one by one (notes/assumptions/22.md). -/
def fabricLoadOp (n : ProfileName) (s : State) : State × Reply :=
  if !s.trg.splices.isEmpty then (s, refusedWith .state)
  else
    match resolveName s.prf n with
    | .error st => (s, refusedWith st)
    | .ok e => (setPointer .rewind e (setPointer .nip e (setPointer .feed e s)), okData (orElse 1 u8 e))

/-- The announced-fabric slot drops its reference and takes one (09 R161). -/
def announce (e : Option Nat) (s : State) : State :=
  (takeRef? e (dropRef? s.trg.announced s)).upTrg fun u => { u with announced := e }

/-- SPLICE_AHEAD (09 R161). -/
def spliceAheadOp (n : ProfileName) (s : State) : State × Reply :=
  match resolveName s.prf n with
  | .error st => (s, refusedWith st)
  | .ok e => (announce e s, ok)

end Sys2Proof.Machine
end

