-- ==== Sys2Proof/Machine/Tick.lean ====
section
/-! DEFINITION. One millisecond of the part's time base, which passes when no command waits
(notes/assumptions/1.md): the timestamp and every timer stated in ms, in the order of notes/assumptions/5.md. The
periodic samples are commands. -/

namespace Sys2Proof.Machine
open Sys2Proof

/-- A running timer one ms later. -/
def Timer.next : Timer → Timer
  | .running ms => .running (ms + 1)
  | t => t

/-- A running timer stands at its limit or past it. -/
def Timer.due (limit : Int) : Timer → Bool
  | .running ms => limit ≤ ms
  | _ => false

/-- A zone's hold timer one ms later; it stays at 10,000 ms until the sample that judges it (03 R46).
DESIGN CHOICE: there it counts as running, not as standing (notes/assumptions/14.md). -/
def ZoneRec.holdTick (z : ZoneRec) : ZoneRec :=
  match z.hold with
  | .running ms => { z with hold := .running (satAdd Config.holdTime ms 1) }
  | _ => z

/-- A pulse one ms later: it ends at its width (09 R154). -/
def Pulse.tick (p : Pulse) : Option Pulse :=
  if p.elapsed + 1 < p.width then some { p with elapsed := p.elapsed + 1 } else none

/-- A framer: more than 5 ms after a byte the frame is abandoned (11 R178). -/
def Framer.tick : Framer → Framer
  | .inFrame got gap => if gap < Config.gapTime then .inFrame got (gap + 1) else .hunting
  | .hunting => .hunting

/-- The timestamp and every timer one ms later, no expiry taken. -/
def advance (s : State) : State :=
  { s with
    cnt := { s.cnt with
      clock := s.cnt.clock + 1
      chan := ⟨{ s.cnt.chan.paper with silence := s.cnt.chan.paper.silence.next },
        { s.cnt.chan.fabric with silence := s.cnt.chan.fabric.silence.next },
        { s.cnt.chan.drum with silence := s.cnt.chan.drum.silence.next }⟩ }
    mot := { s.mot with nipTimer := s.mot.nipTimer.next, hold := s.mot.hold.next }
    heat := { s.heat with zones := s.heat.zones.map ZoneRec.holdTick, lostTimer := s.heat.lostTimer.next }
    trg := { s.trg with pulses := s.trg.pulses.map fun p => p.bind Pulse.tick }
    flt := { s.flt with link := s.flt.link.next }
    head := { s.head with framer := s.head.framer.tick }
    lnk := { s.lnk with framer := s.lnk.framer.tick } }

/-- The silence timer of a channel expires (01 R9). -/
def silenceDue (s : State) (c : Chan) : State :=
  if (s.cnt.chan.get c).silence.due s.par.tSil then silenceExpires c s else s

/-- The nip timer (02 R32), the hold timer (R33), the mains lost timer (03 R56) and the link silence timer (10 R175)
expire. -/
def nipDue (s : State) : State := if s.mot.nipTimer.due s.par.tNip then nipExpires s else s
def holdDue (s : State) : State := if s.mot.hold.due s.par.tHold then holdEnds s else s
def mainsDue (s : State) : State := if s.heat.lostTimer.due Config.mainsLostTime then mainsLost s else s
def linkDue (s : State) : State := if s.flt.link.due s.par.tLink then linkExpires s else s

/-- The time deadline of a transaction is due (07 R119). -/
def Txn.due (now : Timestamp) (t : Txn) : Bool := t.phase = .awaitAccept && t.accTime ≤ (now - t.started).toNat

/-- The time deadline (07 R120); at most one transaction awaits its answer (07 R115). -/
def deadlineDue (s : State) : State :=
  match s.pq.live.find? (Txn.due s.cnt.clock) with
  | some t => decide_ (startingDeadline t none s)
  | none => s

/-- One millisecond: every timer runs on, and then those at their limits expire (notes/assumptions/5.md). -/
def tick (s : State) : State :=
  deadlineDue (linkDue (mainsDue (holdDue (nipDue ([Chan.paper, .fabric, .drum].foldl silenceDue (advance s))))))

end Sys2Proof.Machine
end

