-- ==== Sys2Proof/Machine/WebCommands.lean ====
section
/-! DEFINITION. The events of the dose unit (04) and the tension unit (05), and READ_PROBE. -/

namespace Sys2Proof.Machine
open Sys2Proof

/-! ## Dose unit -/

/-- DOSE_SAMPLE (04 R59 to R74). -/
def execDoseSample (s : State) : Host.Outcome State Fault Refusal := .next (doseSample s)

/-- READ_PROBE (04 R78). DESIGN CHOICE: an index below 0, which the four signed bytes of the command can carry, is
refused with RANGE like one beyond the list (notes/assumptions/42.md). -/
def readProbeOp (index : Int) (s : State) : State × Reply :=
  if index < 0 then (s, refusedWith .range)
  else
    match s.dose.probes[index.toNat]? with
    | some b => (s, okData (probeBytes b))
    | none => (s, refusedWith .range)

/-! ## Tension unit -/

/-- A counting break timer reaches t_break (05 R87). -/
def webBreak (l : Loop) (s : State) : State :=
  if (s.ten.get l).judged && 0 < (s.ten.get l).brkTimer then loopFault l .webBreak .webBreak s else s

/-- WEB_BREAK (05 R87; notes/assumptions/2.md). -/
def execWebBreak (l : Loop) (s : State) : Host.Outcome State Fault Refusal := .next (webBreak l s)

/-- A counting over timer reaches t_over (05 R88). -/
def overTension (l : Loop) (s : State) : State :=
  if (s.ten.get l).judged && 0 < (s.ten.get l).overTimer then loopFault l .overTension .overTension s else s

/-- OVER_TENSION (05 R88; notes/assumptions/2.md). -/
def execOverTension (l : Loop) (s : State) : Host.Outcome State Fault Refusal := .next (overTension l s)

end Sys2Proof.Machine
end

