-- ==== Sys2Proof/Machine/HostLink.lean ====
section
/-! DEFINITION. The host link at work: a command frame is taken from the command buffer as soon as the transmit queue
has a free place, checked, carried out by its owning block and answered (11 R178 to R180, 10 R173). -/

namespace Sys2Proof.Machine
open Sys2Proof

/-! ## One command (11 R179, R180) -/

/-- The owning block's part of each host command: what it does, and its reply. -/
def hostOp (c : Instr) : State → State × Reply :=
  match c with
  | .linkConfig _ baud => linkConfigOp baud
  | .setParam _ id value => setParam id value
  | .getParam _ id => getParam id
  | .setPosition _ count value => setPositionOp count value
  | .readCounts _ => reading State.countsData
  | .heatOn _ setpoint offsets mask => heatOnOp setpoint offsets mask
  | .heatOff _ => heatOffOp
  | .start _ => startOp
  | .stop _ => stopOp
  | .threadEnter _ => threadEnterOp
  | .threadExit _ => threadExitOp
  | .jog _ direction distance => jogOp direction distance
  | .seek _ distance condition => seekOp distance condition
  | .seekStop _ => seekStopOp
  | .seekResume _ => seekResumeOp
  | .readMotion _ => reading State.motionData
  | .setDrum _ setpoint offsets mask => setDrumOp setpoint offsets mask
  | .readHeat _ first => reading (State.heatData · first)
  | .readDose _ => reading State.doseData
  | .readProbe _ index => readProbeOp index
  | .readTension _ => reading State.tensionData
  | .profileLoad _ fields entry => profileLoadOp fields entry
  | .profileFind _ media ink => profileFindOp media ink
  | .profileRead _ entry first => profileReadOp entry first
  | .profileDrop _ entry => profileDropOp entry
  | .profilePin _ count => profilePinOp count
  | .profileTrim _ entry trims => profileTrimOp entry trims
  | .panelSubmit _ panel name length mark => panelSubmitOp panel name length mark
  | .panelInsert _ slot panel name length mark => panelInsertOp slot panel name length mark
  | .panelCancel _ panel => panelCancelOp panel
  | .dispatchEnable _ => dispatchEnableOp
  | .dispatchHold _ => dispatchHoldOp
  | .dispatchResume _ => dispatchResumeOp
  | .dispatchOff _ => dispatchOffOp
  | .readQueue _ first => reading (State.queueData · first)
  | .readPanel _ panel => readPanelOp panel
  | .readMarks _ first => reading (State.marksData · first)
  | .triggerSet _ slot fields => triggerSetOp slot fields
  | .triggerArm _ slot => triggerArmOp slot
  | .triggerClear _ slot => triggerClearOp slot
  | .triggerRead _ slot => triggerReadOp slot
  | .windowSet _ window fields => windowSetOp window fields
  | .windowClear _ window => windowClearOp window
  | .readWindows _ => reading State.windowsData
  | .fabricLoad _ name => fabricLoadOp name
  | .spliceAhead _ name => spliceAheadOp name
  | .readFabric _ => reading State.fabricData
  | .clearFault _ => clearFaultOp
  | .readFault _ => reading State.faultData
  | .readStatus _ clear => readStatusOp clear
  | .clearLine _ => clearLineOp
  | .powerOnReset | .resetn | .tickBatch _ _ | .seekDistanceReached | .markCapture | .spliceCapture
  | .nipLimitChange _ _ | .nipTimeout | .nipHold | .estop | .estopRelease
  | .speedAndTensionSample _ _ _ _ _ | .encoderSilent _ | .stall | .webBreak _ | .overTension _
  | .doseSample | .temperatureSample _ | .zoneHold _ | .zoneSensor _ | .readiness | .zeroCrossEdge _
  | .zoneShortfall _ | .mainsLost | .pulseEnd _ | .linkLost | .timeDeadline _ | .frameGapTimeout _
  | .validFrame _ | .unknownCommand _ _ _ | .frameSent | .headFrameSent | .accept _ _ | .refuse _ _ _
  | .done _ _ _ | .fault _ _ _ _ | .headOtherKindFrame _ _ _ | .lenOutOfRange _ _
  | .headFrameBadCrc => refusing .unknown

/-- A command frame that has been taken: the checks of 11 R180, then the command itself, and one reply. -/
def runFrame (f : Frame) (s : State) : State :=
  match readCommand f with
  | .unknown => carryOut f.kind f.tag (refusing .unknown) s
  | .badLength => carryOut f.kind f.tag (refusing .length) s
  | .command c => carryOut f.kind f.tag (hostOp c) s

/-! ## The command buffer (11 R179) -/

/-- Take the frame at the head of the command buffer out of it. -/
def popFrame (s : State) : State := s.upLnk fun l => { l with buffer := l.buffer.tail }

/-- At most `n` frames are taken, oldest first, each only while the transmit queue has a free place. -/
def takeFrames : Nat → State → State
  | 0, s => s
  | n + 1, s =>
      match s.lnk.buffer with
      | [] => s
      | f :: _ => if s.flt.room then takeFrames n (runFrame f (popFrame s)) else s

/-- The host link takes every frame it can (11 R179). -/
def takeWaiting (s : State) : State := takeFrames s.lnk.buffer.length s

/-- A valid frame on RXD: the link silence timer restarts, and a command frame is handed to the command buffer,
from which it is taken at once where that can be (11 R178, R179). -/
def hostFrameArrives (s : State) (f : Frame) : State :=
  let s := restartLink s
  if f.isCommand then takeWaiting (bufferFrame f s) else s

/-- The row of the host command `c`, whose frame `f` arrives (notes/assumptions/3.md): with the command buffer
empty and a free place it is taken at once and acts on its operands; else its frame goes through the buffer. -/
def hostExec (c : Instr) (f : Frame) (s : State) : State :=
  if s.lnk.buffer.isEmpty && s.flt.room then carryOut f.kind f.tag (hostOp c) (restartLink s)
  else hostFrameArrives s f

/-- `hostExec` with the frame the command is written as. -/
def hostCommand (c : Instr) (s : State) : State :=
  match commandFrame c with
  | some f => hostExec c f s
  | none => s

/-! ## VALID_FRAME and UNKNOWN_COMMAND -/

/-- Bytes received on RXD: the valid frames they complete arrive one after the other (11 R178). -/
def receive (bytes : List Byte) (s : State) : State :=
  let (r, frames) := s.lnk.framer.feedAll bytes
  frames.foldl hostFrameArrives (s.upLnk fun l => { l with framer := r })

/-- VALID_FRAME (11 R178, R179). -/
def execValidFrame (bytes : List Byte) (s : State) : Host.Outcome State Fault Refusal :=
  .next (receive bytes s)

/-- UNKNOWN_COMMAND (11 R180): a frame whose KIND is not in the index, or whose body does not fit its command,
arrives. -/
def execUnknownCommand (kind tag : Byte) (body : List Byte) (s : State) :
    Host.Outcome State Fault Refusal :=
  .next (hostFrameArrives s ⟨kind, tag, body⟩)

/-! ## FRAME_SENT (10 R173, 11 R177, 07 R129, R115) -/

/-- A waiting report can be placed: its panel is retired (07 R129). -/
def State.reportDue (s : State) : Bool :=
  match s.pq.waiting with
  | [] => false
  | tag :: _ => s.flt.room && (s.panel? tag).isSome

/-- A freed place: the report waiting longest takes it, with a test for a decision at the panel's retirement
(07 R129, R115), then the waiting commands (11 R179; notes/assumptions/3.md). DESIGN CHOICE: it does so within the
FRAME_SENT itself, so that no notice takes the freed place before it, where 10 R173 allows either order (3.md). -/
def placeFreed (s : State) : State :=
  let t := flushReport none s
  takeWaiting (if s.reportDue then decide_ t else t)

/-- The last byte of a frame has been sent on TXD: it leaves the queue, a LINK_CONFIG takes effect, the next frame is
begun, and the freed place is taken. DESIGN CHOICE: with notices alone waiting, the oldest is begun before a waiting
command is taken, whose reply then comes after it (10 R173; notes/assumptions/3.md). -/
def frameSent (s : State) : State :=
  match s.flt.current with
  | none => s
  | some x => placeFreed ((changeSpeed x.newBaud s).upFlt fun f => { f with current := none }.begin_)

/-- FRAME_SENT (10 R173). -/
def execFrameSent (s : State) : Host.Outcome State Fault Refusal := .next (frameSent s)

end Sys2Proof.Machine
end

