-- ==== Sys2Proof/Machine/HostCommands.lean ====
section
/-! DEFINITION. The host commands: each is its frame arriving at the host link, which has the owning block carry it
out (`hostOp`) and answers it. -/

namespace Sys2Proof.Machine
open Sys2Proof

/-- LINK_CONFIG (11 R177): the speed changes when the reply has been sent, at its FRAME_SENT. -/
def execLinkConfig (tag : Byte) (baud : Int) (s : State) : Host.Outcome State Fault Refusal :=
  .next (hostCommand (.linkConfig tag baud) s)

/-- SET_PARAM (11 R183). -/
def execSetParam (tag : Byte) (id : Nat) (value : Int) (s : State) : Host.Outcome State Fault Refusal :=
  .next (hostCommand (.setParam tag id value) s)

/-- GET_PARAM (11 R183). -/
def execGetParam (tag : Byte) (id : Nat) (s : State) : Host.Outcome State Fault Refusal :=
  .next (hostCommand (.getParam tag id) s)

/-- SET_POSITION (01 R13, R14). -/
def execSetPosition (tag : Byte) (count : Nat) (value : Int) (s : State) :
    Host.Outcome State Fault Refusal :=
  .next (hostCommand (.setPosition tag count value) s)

/-- READ_COUNTS (01 R15). -/
def execReadCounts (tag : Byte) (s : State) : Host.Outcome State Fault Refusal :=
  .next (hostCommand (.readCounts tag) s)

/-- HEAT_ON (02 R18). -/
def execHeatOn (tag : Byte) (setpoint : Int) (offsets : Six Int) (mask : Nat) (s : State) :
    Host.Outcome State Fault Refusal :=
  .next (hostCommand (.heatOn tag setpoint offsets mask) s)

/-- HEAT_OFF (02 R20). -/
def execHeatOff (tag : Byte) (s : State) : Host.Outcome State Fault Refusal :=
  .next (hostCommand (.heatOff tag) s)

/-- START (02 R21). -/
def execStart (tag : Byte) (s : State) : Host.Outcome State Fault Refusal :=
  .next (hostCommand (.start tag) s)

/-- STOP (02 R22). -/
def execStop (tag : Byte) (s : State) : Host.Outcome State Fault Refusal :=
  .next (hostCommand (.stop tag) s)

/-- THREAD_ENTER (02 R23). -/
def execThreadEnter (tag : Byte) (s : State) : Host.Outcome State Fault Refusal :=
  .next (hostCommand (.threadEnter tag) s)

/-- THREAD_EXIT (02 R23). -/
def execThreadExit (tag : Byte) (s : State) : Host.Outcome State Fault Refusal :=
  .next (hostCommand (.threadExit tag) s)

/-- JOG (02 R36). -/
def execJog (tag : Byte) (direction : Nat) (distance : Int) (s : State) : Host.Outcome State Fault Refusal :=
  .next (hostCommand (.jog tag direction distance) s)

/-- SEEK (02 R35). -/
def execSeek (tag : Byte) (distance : Int) (condition : Nat) (s : State) :
    Host.Outcome State Fault Refusal :=
  .next (hostCommand (.seek tag distance condition) s)

/-- SEEK_STOP (02 R37). -/
def execSeekStop (tag : Byte) (s : State) : Host.Outcome State Fault Refusal :=
  .next (hostCommand (.seekStop tag) s)

/-- SEEK_RESUME (02 R38). -/
def execSeekResume (tag : Byte) (s : State) : Host.Outcome State Fault Refusal :=
  .next (hostCommand (.seekResume tag) s)

/-- READ_MOTION (02 R39). -/
def execReadMotion (tag : Byte) (s : State) : Host.Outcome State Fault Refusal :=
  .next (hostCommand (.readMotion tag) s)

/-- SET_DRUM (03 R42). -/
def execSetDrum (tag : Byte) (setpoint : Int) (offsets : Six Int) (mask : Nat) (s : State) :
    Host.Outcome State Fault Refusal :=
  .next (hostCommand (.setDrum tag setpoint offsets mask) s)

/-- READ_HEAT (03 R57). -/
def execReadHeat (tag : Byte) (first : Option Int) (s : State) : Host.Outcome State Fault Refusal :=
  .next (hostCommand (.readHeat tag first) s)

/-- READ_DOSE (04 R77). -/
def execReadDose (tag : Byte) (s : State) : Host.Outcome State Fault Refusal :=
  .next (hostCommand (.readDose tag) s)

/-- READ_PROBE (04 R78). -/
def execReadProbe (tag : Byte) (index : Int) (s : State) : Host.Outcome State Fault Refusal :=
  .next (hostCommand (.readProbe tag index) s)

/-- READ_TENSION (05 R91). -/
def execReadTension (tag : Byte) (s : State) : Host.Outcome State Fault Refusal :=
  .next (hostCommand (.readTension tag) s)

/-- PROFILE_LOAD (06 R97). -/
def execProfileLoad (tag : Byte) (fields : ProfileFields) (entry : Option Nat) (s : State) :
    Host.Outcome State Fault Refusal :=
  .next (hostCommand (.profileLoad tag fields entry) s)

/-- PROFILE_FIND (06 R96). -/
def execProfileFind (tag : Byte) (media ink : Nat) (s : State) : Host.Outcome State Fault Refusal :=
  .next (hostCommand (.profileFind tag media ink) s)

/-- PROFILE_READ (06 R103). -/
def execProfileRead (tag : Byte) (entry : Option Nat) (first : Option Int) (s : State) :
    Host.Outcome State Fault Refusal :=
  .next (hostCommand (.profileRead tag entry first) s)

/-- PROFILE_DROP (06 R102). -/
def execProfileDrop (tag : Byte) (entry : Nat) (s : State) : Host.Outcome State Fault Refusal :=
  .next (hostCommand (.profileDrop tag entry) s)

/-- PROFILE_PIN (06 R101). -/
def execProfilePin (tag : Byte) (count : Nat) (s : State) : Host.Outcome State Fault Refusal :=
  .next (hostCommand (.profilePin tag count) s)

/-- PROFILE_TRIM (06 R104). -/
def execProfileTrim (tag : Byte) (entry : Nat) (trims : Six Nat) (s : State) :
    Host.Outcome State Fault Refusal :=
  .next (hostCommand (.profileTrim tag entry trims) s)

/-- PANEL_SUBMIT (07 R112). -/
def execPanelSubmit (tag : Byte) (panel : Nat) (name : ProfileName) (length : Int) (mark : Nat) (s : State) :
    Host.Outcome State Fault Refusal :=
  .next (hostCommand (.panelSubmit tag panel name length mark) s)

/-- PANEL_INSERT (07 R113). -/
def execPanelInsert (tag : Byte) (slot panel : Nat) (name : ProfileName) (length : Int) (mark : Nat)
    (s : State) : Host.Outcome State Fault Refusal :=
  .next (hostCommand (.panelInsert tag slot panel name length mark) s)

/-- PANEL_CANCEL (07 R128). -/
def execPanelCancel (tag : Byte) (panel : Nat) (s : State) : Host.Outcome State Fault Refusal :=
  .next (hostCommand (.panelCancel tag panel) s)

/-- DISPATCH_ENABLE (07 R114). -/
def execDispatchEnable (tag : Byte) (s : State) : Host.Outcome State Fault Refusal :=
  .next (hostCommand (.dispatchEnable tag) s)

/-- DISPATCH_HOLD (07 R114). -/
def execDispatchHold (tag : Byte) (s : State) : Host.Outcome State Fault Refusal :=
  .next (hostCommand (.dispatchHold tag) s)

/-- DISPATCH_RESUME (07 R114). -/
def execDispatchResume (tag : Byte) (s : State) : Host.Outcome State Fault Refusal :=
  .next (hostCommand (.dispatchResume tag) s)

/-- DISPATCH_OFF (07 R114). -/
def execDispatchOff (tag : Byte) (s : State) : Host.Outcome State Fault Refusal :=
  .next (hostCommand (.dispatchOff tag) s)

/-- READ_QUEUE (07 R132). -/
def execReadQueue (tag : Byte) (first : Option Int) (s : State) : Host.Outcome State Fault Refusal :=
  .next (hostCommand (.readQueue tag first) s)

/-- READ_PANEL (07 R132). -/
def execReadPanel (tag : Byte) (panel : Nat) (s : State) : Host.Outcome State Fault Refusal :=
  .next (hostCommand (.readPanel tag panel) s)

/-- READ_MARKS (08 R149). -/
def execReadMarks (tag : Byte) (first : Option Int) (s : State) : Host.Outcome State Fault Refusal :=
  .next (hostCommand (.readMarks tag first) s)

/-- TRIGGER_SET (09 R152, R155). -/
def execTriggerSet (tag : Byte) (slot : Nat) (fields : TriggerFields) (s : State) :
    Host.Outcome State Fault Refusal :=
  .next (hostCommand (.triggerSet tag slot fields) s)

/-- TRIGGER_ARM (09 R152). -/
def execTriggerArm (tag : Byte) (slot : Nat) (s : State) : Host.Outcome State Fault Refusal :=
  .next (hostCommand (.triggerArm tag slot) s)

/-- TRIGGER_CLEAR (09 R152). -/
def execTriggerClear (tag : Byte) (slot : Nat) (s : State) : Host.Outcome State Fault Refusal :=
  .next (hostCommand (.triggerClear tag slot) s)

/-- TRIGGER_READ (09 R166). -/
def execTriggerRead (tag : Byte) (slot : Nat) (s : State) : Host.Outcome State Fault Refusal :=
  .next (hostCommand (.triggerRead tag slot) s)

/-- WINDOW_SET (09 R157). -/
def execWindowSet (tag : Byte) (window : Nat) (fields : WindowFields) (s : State) :
    Host.Outcome State Fault Refusal :=
  .next (hostCommand (.windowSet tag window fields) s)

/-- WINDOW_CLEAR (09 R157). -/
def execWindowClear (tag : Byte) (window : Nat) (s : State) : Host.Outcome State Fault Refusal :=
  .next (hostCommand (.windowClear tag window) s)

/-- READ_WINDOWS (09 R166). -/
def execReadWindows (tag : Byte) (s : State) : Host.Outcome State Fault Refusal :=
  .next (hostCommand (.readWindows tag) s)

/-- FABRIC_LOAD (09 R161; notes/assumptions/22.md). -/
def execFabricLoad (tag : Byte) (name : ProfileName) (s : State) : Host.Outcome State Fault Refusal :=
  .next (hostCommand (.fabricLoad tag name) s)

/-- SPLICE_AHEAD (09 R161). -/
def execSpliceAhead (tag : Byte) (name : ProfileName) (s : State) : Host.Outcome State Fault Refusal :=
  .next (hostCommand (.spliceAhead tag name) s)

/-- READ_FABRIC (09 R166). -/
def execReadFabric (tag : Byte) (s : State) : Host.Outcome State Fault Refusal :=
  .next (hostCommand (.readFabric tag) s)

/-- CLEAR_FAULT (10 R170). -/
def execClearFault (tag : Byte) (s : State) : Host.Outcome State Fault Refusal :=
  .next (hostCommand (.clearFault tag) s)

/-- READ_FAULT (10 R171). -/
def execReadFault (tag : Byte) (s : State) : Host.Outcome State Fault Refusal :=
  .next (hostCommand (.readFault tag) s)

/-- READ_STATUS (10 R174). -/
def execReadStatus (tag : Byte) (clear : Bool) (s : State) : Host.Outcome State Fault Refusal :=
  .next (hostCommand (.readStatus tag clear) s)

/-- CLEAR_LINE (10 R176). -/
def execClearLine (tag : Byte) (s : State) : Host.Outcome State Fault Refusal :=
  .next (hostCommand (.clearLine tag) s)

end Sys2Proof.Machine
end

