-- ==== Sys2Proof/Machine/Dispatch.lean ====
section
/-! DEFINITION. The dispatch: one arm for each command, in the order of Sys2Proof/Syntax.lean. -/

namespace Sys2Proof.Machine
open Sys2Proof

def exec (i : Instr) (s : State) : Host.Outcome State Fault Refusal :=
  match i with
  | .powerOnReset => Sys2Proof.Machine.execPowerOnReset s
  | .resetn => Sys2Proof.Machine.execResetn s
  | .tickBatch ch ticks => Sys2Proof.Machine.execTickBatch ch ticks s
  | .seekDistanceReached => Sys2Proof.Machine.execSeekDistanceReached s
  | .markCapture => Sys2Proof.Machine.execMarkCapture s
  | .spliceCapture => Sys2Proof.Machine.execSpliceCapture s
  | .nipLimitChange nipc nipo => Sys2Proof.Machine.execNipLimitChange nipc nipo s
  | .nipTimeout => Sys2Proof.Machine.execNipTimeout s
  | .nipHold => Sys2Proof.Machine.execNipHold s
  | .estop => Sys2Proof.Machine.execEstop s
  | .estopRelease => Sys2Proof.Machine.execEstopRelease s
  | .speedAndTensionSample lc0 lc1 lc2 countAfter tensionAfter => Sys2Proof.Machine.execSpeedAndTensionSample lc0 lc1 lc2 countAfter tensionAfter s
  | .encoderSilent ch => Sys2Proof.Machine.execEncoderSilent ch s
  | .stall => Sys2Proof.Machine.execStall s
  | .webBreak l => Sys2Proof.Machine.execWebBreak l s
  | .overTension l => Sys2Proof.Machine.execOverTension l s
  | .doseSample => Sys2Proof.Machine.execDoseSample s
  | .temperatureSample readings => Sys2Proof.Machine.execTemperatureSample readings s
  | .zoneHold z => Sys2Proof.Machine.execZoneHold z s
  | .zoneSensor z => Sys2Proof.Machine.execZoneSensor z s
  | .readiness => Sys2Proof.Machine.execReadiness s
  | .zeroCrossEdge gap => Sys2Proof.Machine.execZeroCrossEdge gap s
  | .zoneShortfall z => Sys2Proof.Machine.execZoneShortfall z s
  | .mainsLost => Sys2Proof.Machine.execMainsLost s
  | .pulseEnd o => Sys2Proof.Machine.execPulseEnd o s
  | .linkLost => Sys2Proof.Machine.execLinkLost s
  | .timeDeadline txn => Sys2Proof.Machine.execTimeDeadline txn s
  | .frameGapTimeout link => Sys2Proof.Machine.execFrameGapTimeout link s
  | .validFrame bytes => Sys2Proof.Machine.execValidFrame bytes s
  | .unknownCommand kind tag body => Sys2Proof.Machine.execUnknownCommand kind tag body s
  | .frameSent => Sys2Proof.Machine.execFrameSent s
  | .headFrameSent => Sys2Proof.Machine.execHeadFrameSent s
  | .accept txn panel => Sys2Proof.Machine.execAccept txn panel s
  | .refuse txn panel reason => Sys2Proof.Machine.execRefuse txn panel reason s
  | .done txn panel printed => Sys2Proof.Machine.execDone txn panel printed s
  | .fault txn panel printed reason => Sys2Proof.Machine.execFault txn panel printed reason s
  | .headOtherKindFrame kind tag body => Sys2Proof.Machine.execHeadOtherKindFrame kind tag body s
  | .linkConfig tag baud => Sys2Proof.Machine.execLinkConfig tag baud s
  | .setParam tag id value => Sys2Proof.Machine.execSetParam tag id value s
  | .getParam tag id => Sys2Proof.Machine.execGetParam tag id s
  | .setPosition tag count value => Sys2Proof.Machine.execSetPosition tag count value s
  | .readCounts tag => Sys2Proof.Machine.execReadCounts tag s
  | .heatOn tag setpoint offsets mask => Sys2Proof.Machine.execHeatOn tag setpoint offsets mask s
  | .heatOff tag => Sys2Proof.Machine.execHeatOff tag s
  | .start tag => Sys2Proof.Machine.execStart tag s
  | .stop tag => Sys2Proof.Machine.execStop tag s
  | .threadEnter tag => Sys2Proof.Machine.execThreadEnter tag s
  | .threadExit tag => Sys2Proof.Machine.execThreadExit tag s
  | .jog tag direction distance => Sys2Proof.Machine.execJog tag direction distance s
  | .seek tag distance condition => Sys2Proof.Machine.execSeek tag distance condition s
  | .seekStop tag => Sys2Proof.Machine.execSeekStop tag s
  | .seekResume tag => Sys2Proof.Machine.execSeekResume tag s
  | .readMotion tag => Sys2Proof.Machine.execReadMotion tag s
  | .setDrum tag setpoint offsets mask => Sys2Proof.Machine.execSetDrum tag setpoint offsets mask s
  | .readHeat tag first => Sys2Proof.Machine.execReadHeat tag first s
  | .readDose tag => Sys2Proof.Machine.execReadDose tag s
  | .readProbe tag index => Sys2Proof.Machine.execReadProbe tag index s
  | .readTension tag => Sys2Proof.Machine.execReadTension tag s
  | .profileLoad tag fields entry => Sys2Proof.Machine.execProfileLoad tag fields entry s
  | .profileFind tag media ink => Sys2Proof.Machine.execProfileFind tag media ink s
  | .profileRead tag entry first => Sys2Proof.Machine.execProfileRead tag entry first s
  | .profileDrop tag entry => Sys2Proof.Machine.execProfileDrop tag entry s
  | .profilePin tag count => Sys2Proof.Machine.execProfilePin tag count s
  | .profileTrim tag entry trims => Sys2Proof.Machine.execProfileTrim tag entry trims s
  | .panelSubmit tag panel name length mark => Sys2Proof.Machine.execPanelSubmit tag panel name length mark s
  | .panelInsert tag slot panel name length mark => Sys2Proof.Machine.execPanelInsert tag slot panel name length mark s
  | .panelCancel tag panel => Sys2Proof.Machine.execPanelCancel tag panel s
  | .dispatchEnable tag => Sys2Proof.Machine.execDispatchEnable tag s
  | .dispatchHold tag => Sys2Proof.Machine.execDispatchHold tag s
  | .dispatchResume tag => Sys2Proof.Machine.execDispatchResume tag s
  | .dispatchOff tag => Sys2Proof.Machine.execDispatchOff tag s
  | .readQueue tag first => Sys2Proof.Machine.execReadQueue tag first s
  | .readPanel tag panel => Sys2Proof.Machine.execReadPanel tag panel s
  | .readMarks tag first => Sys2Proof.Machine.execReadMarks tag first s
  | .triggerSet tag slot fields => Sys2Proof.Machine.execTriggerSet tag slot fields s
  | .triggerArm tag slot => Sys2Proof.Machine.execTriggerArm tag slot s
  | .triggerClear tag slot => Sys2Proof.Machine.execTriggerClear tag slot s
  | .triggerRead tag slot => Sys2Proof.Machine.execTriggerRead tag slot s
  | .windowSet tag window fields => Sys2Proof.Machine.execWindowSet tag window fields s
  | .windowClear tag window => Sys2Proof.Machine.execWindowClear tag window s
  | .readWindows tag => Sys2Proof.Machine.execReadWindows tag s
  | .fabricLoad tag name => Sys2Proof.Machine.execFabricLoad tag name s
  | .spliceAhead tag name => Sys2Proof.Machine.execSpliceAhead tag name s
  | .readFabric tag => Sys2Proof.Machine.execReadFabric tag s
  | .clearFault tag => Sys2Proof.Machine.execClearFault tag s
  | .readFault tag => Sys2Proof.Machine.execReadFault tag s
  | .readStatus tag clear => Sys2Proof.Machine.execReadStatus tag clear s
  | .clearLine tag => Sys2Proof.Machine.execClearLine tag s
  | .lenOutOfRange link len => Sys2Proof.Machine.execLenOutOfRange link len s
  | .headFrameBadCrc => Sys2Proof.Machine.execHeadFrameBadCrc s

end Sys2Proof.Machine
end

