-- ==== Sys2Proof/Safety.lean ====
section
/-! DEFINITION. The terms in which claims are stated: a command taken at once and its reply, a fault raised and a notice
placed, last_end, the dose fields and the anchored triggers an arrival leaves, the blocks a command may touch, the
invariants, and the manual's parameter tables. -/

namespace Sys2Proof.Machine
open Sys2Proof

/-! ## A command taken at once, and its reply (11 R179, R180, 10 R173) -/

/-- A host command that arrives now is taken at once: the command buffer is empty and the transmit queue has a free
place (11 R179). -/
def State.takes (s : State) : Prop := s.lnk.buffer = [] ∧ s.flt.room = true

/-- The state in which the owning block acts on a command taken at once: its frame has restarted the link silence
timer (10 R175) and a place is kept for its reply (10 R173). -/
def State.acting (s : State) : State := (restartLink s).upFlt fun f => { f with kept := true }

/-- The state with the reply placed in the place kept for it (11 R180): KIND of the command, its TAG, the status and
the data after it. -/
def State.replied (kind tag : Byte) (st : Status) (data : List Byte) (s : State) : State :=
  answer kind tag { status := st, data := data } s

/-- `exec` answers the host command at once: the owning block leaves `t`, and the reply is placed in it. -/
def Answered (c : Instr) (kind tag : Byte) (st : Status) (data : List Byte) (s t : State) : Prop :=
  exec c s = .next (t.replied kind tag st data)

/-- The host command is refused with a status: nothing changes but for the reply (11 R180). -/
def Refused (c : Instr) (kind tag : Byte) (st : Status) (s : State) : Prop :=
  Answered c kind tag st [] s s.acting

/-- The frames of the transmit queue, the one being sent first. -/
def FaultMon.frames (f : FaultMon) : List TxFrame := f.current.toList ++ f.waiting

/-! ## Critical faults (10 R169, 02 R24) -/

/-- The latch takes a fault (10 R169): it becomes the record of an empty latch, else it joins the further causes, and
the count of them grows by one and saturates at 255. -/
def LatchTakes (c : Cause) (inst : Option Nat) (s t : State) : Prop :=
  match s.flt.latch with
  | none =>
      t.flt.latch = some ⟨c, inst, s.cnt.clock, s.mot.line, s.pp, s.fp, s.nipPanel⟩
        ∧ t.flt.further = s.flt.further ∧ t.flt.furtherCount = s.flt.furtherCount
  | some r =>
      t.flt.latch = some r
        ∧ t.flt.further = (if c ∈ s.flt.further then s.flt.further else s.flt.further ++ [c])
        ∧ t.flt.furtherCount = min 255 (s.flt.furtherCount + 1)

/-- The line state a critical fault leaves (the table of 02 R24). -/
def faultLine (line : LineState) (vref : Int) : LineState :=
  match line with
  | .running | .stopping => .halting
  | .threading => if 0 < vref then .halting else .faulted
  | .off | .warming | .ready => .faulted
  | .halting => .halting
  | .faulted => .faulted

/-- A critical fault is taken: the latch and the line state. -/
def FaultTaken (c : Cause) (inst : Option Nat) (s t : State) : Prop :=
  LatchTakes c inst s t ∧ t.mot.line = faultLine s.mot.line s.mot.vref

/-- A critical fault has been raised on the way from `s` to `t`: it is the record of a latch that was empty, or one of
the further causes, and the line is in HALTING or FAULTED (10 R169, 02 R24). -/
def Raised (c : Cause) (inst : Option Nat) (s t : State) : Prop :=
  (∃ r, t.flt.latch = some r ∧ (s.flt.latch = none ∧ r.cause = c ∧ r.inst = inst ∨ c ∈ t.flt.further))
    ∧ (t.mot.line = .halting ∨ t.mot.line = .faulted)

/-- A notice produced in `s` stands in the transmit queue of `t`, or notices have been dropped (10 R173). -/
def Noticed (n : Notice) (s t : State) : Prop :=
  .notice s.cnt.clock n ∈ t.flt.frames ∨ t.flt.dropped = true

/-! ## Panels: last_end, the dose fields at the arrival, anchored triggers -/

/-- last_end where a placement is taken back (07 R121): the end of the placed panel of `queue` with the greatest x_s,
PP where none is placed. -/
def EndsAt (queue : List Panel) (pp lastEnd : Int) : Prop :=
  ((∀ p ∈ queue, p.xs = none) → lastEnd = pp)
    ∧ ∀ p ∈ queue, ∀ x, p.xs = some x → (∀ q ∈ queue, q.tag ≠ p.tag → ∀ y, q.xs = some y → y < x) →
        lastEnd = x + p.length

/-- The dose fields of a panel of length `length` whose arrival `a` is set with PP at `pp` (04 R63, R64): nothing folded,
the next probe point the least point above PP, the trailing point among them, and absent where there is none, final
pending while the trailing point lies above PP. -/
def FreshDose (pp a length spacing : Int) (d : DoseFields) : Prop :=
  let point := fun n : Int => pp < n ∧ (a ≤ n ∧ n < a + length ∧ (n - a) % spacing = 0 ∨ n = a + length)
  (∀ n, d.next = some n ↔ point n ∧ ∀ m, point m → n ≤ m)
    ∧ d = { next := d.next, final := decide (pp < a + length), folds := 0,
            minima := ⟨none, none, none, none, none, none⟩, maximum := none, uncertain := false, capHeld := false }

/-- `x` is a probe point of the panel that a forward count update of PP from `old` to `new` handles (04 R64, R65): in the
interval of the update, its next probe point, a point that follows that one at the spacing before A + L, or, while final
is pending, the trailing point A + L. -/
def Panel.handles (p : Panel) (spacing old new x : Int) : Bool :=
  match p.dose with
  | none => false
  | some d =>
      let trailing := p.arrival.getD 0 + p.length
      let spaced := match d.next with
        | some n => decide (old < n ∧ n ≤ x ∧ (x = n ∨ x < trailing ∧ (x - n) % spacing = 0))
        | none => false
      decide (old < x ∧ x ≤ new) && (spaced || d.final && decide (x = trailing))

/-- The next probe point of a panel after a forward count update of PP from `old` to `new` (04 R65): a point the update has
reached is followed by the least point beyond `new` at the spacing before `trailing`, if there is one. -/
def pointAfter (next : Option Int) (spacing trailing old new : Int) : Option Int :=
  next.bind fun n =>
    if old < n ∧ n ≤ new then
      let m := n + ((new - n) / spacing + 1) * spacing
      if m < trailing then some m else none
    else some n

/-- The record of panel `tag` that `s` leaves at `t`: in the queue, or in the report with which `t` has retired it (07
R129, R130). -/
def Leaves (tag : Nat) (q : Panel) (s t : State) : Prop :=
  q.tag = tag ∧ (q ∈ t.pq.queue ∨ .notice s.cnt.clock (.panelReport q) ∈ t.flt.frames)

/-- The probes of panel `tag` that a forward count update of PP to `new` takes out of the list, from its head (04
R67). -/
def State.leaving (s : State) (tag : Nat) (new : Int) : List Probe :=
  (s.dose.probes.takeWhile fun b => decide (b.exit ≤ new)).filter fun b => b.owners.any fun o => o.tag = tag

/-- The doses of a probe over the zones of its set, all of them or that of one zone (04 R67). -/
def Probe.folds (b : Probe) (zones : List Zone) : List Nat :=
  (zones.filter fun z => b.zones.get z).map fun z => b.dose.get z

/-- The dose fields of panel `tag` after its probes `gone` have been folded into them (04 R67): each zone's minimum the
least of what it was and the doses of the probes with that zone in their set, the maximum the greatest. -/
def DoseFields.after (d : DoseFields) (gone : List Probe) (tag : Nat) : DoseFields :=
  { d with
    minima := Six.ofZone fun z => ((d.minima.get z).toList ++ gone.flatMap fun b => b.folds [z]).min?
    maximum := (d.maximum.toList ++ gone.flatMap fun b => b.folds Zone.all).max?
    folds := d.folds + (gone.map fun b => b.owners.countP fun o => o.tag = tag).sum
    uncertain := d.uncertain || gone.any Probe.uncertain }

/-- The condition flags of a panel after its probes `gone` have been folded (04 R67). -/
def CondFlags.after (f : CondFlags) (gone : List Probe) : CondFlags :=
  { f with
    stopAffected := f.stopAffected || gone.any Probe.stopped
    nipOpen := f.nipOpen || gone.any Probe.nipOpen
    excluded := f.excluded || gone.any Probe.excluded }

/-- The reject trigger of panel `tag` whose arrival is `a` (07 R127): resolved at once, to A + Lc + d_mark clamped to the
count range (09 R155). -/
def State.reject (s : State) (tag : Nat) (a : Int) : Trigger :=
  let offset := s.par.arcLen + s.par.dMark
  ⟨.paper, some (max (-2000000000) (min 2000000000 (a + offset))), some (tag, offset), .forward, .pulse .markout,
    .oneShot, true⟩

/-- The HOST entry `e` of slot `i`, anchored to a panel, is resolved at the arrival `a` with PP at `pp` (09 R155): its
position is `a` plus its offset, clamped to the count range; armed and already passed, it fires LATE, and is disarmed
unless it is kept. The direction of the notice is `dir` where a count update gives one. -/
def Resolved (i : Nat) (e : Trigger) (a pp : Int) (dir : Option Dir) (s t : State) : Prop :=
  let p := max (-2000000000) (min 2000000000 (a + (e.anchor.map Prod.snd).getD 0))
  let passed : Bool := match e.dir with | .forward => p ≤ pp | .reverse => pp ≤ p | .either => pp = p
  if e.armed = true ∧ passed = true then
    t.slot i = .held .host { e with position := some p, armed := decide (e.rep = .keep) }
    ∧ (∀ o, e.action = .pulse o → t.trg.pulses.get o = some ⟨0, (s.par.wOut.get o).toNat⟩)
    ∧ ∃ d, (∀ x ∈ dir, d = x)
        ∧ Noticed (.triggerFired i .host e.action (some p) (e.anchor.map Prod.fst) pp d .late) s t
  else t.slot i = .held .host { e with position := some p }

/-! ## Frames: the blocks a command may touch (00_scope.md 3) -/

/-- The blocks of 00_scope.md 3, with the parameters, the input pins and the model's own two fields. -/
inductive Block
  | cnt | mot | heat | dose | ten | prf | pq | head | mrk | trg | flt | lnk | par | pins | free | pending
deriving DecidableEq, Repr

/-- The block is the same in both states. -/
def Block.same (s t : State) : Block → Prop
  | .cnt => t.cnt = s.cnt | .mot => t.mot = s.mot | .heat => t.heat = s.heat | .dose => t.dose = s.dose
  | .ten => t.ten = s.ten | .prf => t.prf = s.prf | .pq => t.pq = s.pq | .head => t.head = s.head
  | .mrk => t.mrk = s.mrk | .trg => t.trg = s.trg | .flt => t.flt = s.flt | .lnk => t.lnk = s.lnk
  | .par => t.par = s.par | .pins => t.pins = s.pins | .free => t.free = s.free
  | .pending => t.pending = s.pending

/-- Every block outside `l` is the same in both states. -/
def Keeps (l : List Block) (s t : State) : Prop := ∀ b, b ∉ l → b.same s t

/-- The blocks a critical fault may touch: the latch and its notice, the motion controller, and the STARTING panel
withdrawn in HALTING (10 R169, 02 R24, 07 R122). -/
def faultBlocks : List Block := [.mot, .pq, .head, .flt]

/-- No command frame waits while the transmit queue has a free place (11 R179): a host command that arrives is taken
alone, or waits. -/
def State.settled (s : State) : Bool := s.lnk.buffer.isEmpty || !s.flt.room

/-- The command is a frame arriving on RXD, which goes through the command buffer (11 R178, R179). -/
def viaBuffer : Instr → Bool
  | .unknownCommand _ _ _ => true
  | c => (commandFrame c).isSome

/-- The blocks that some host command may touch: all but the input pins and the queue of commands. -/
def hostTouches : List Block :=
  [.cnt, .mot, .heat, .dose, .ten, .prf, .pq, .head, .mrk, .trg, .flt, .lnk, .par, .free]

/-- The blocks each command may touch. A host command touches the host link and the transmit queue beside those of
its effect. -/
def touches : Instr → List Block
  | .powerOnReset | .resetn =>
      [.cnt, .mot, .heat, .dose, .ten, .prf, .pq, .head, .mrk, .trg, .flt, .lnk, .par]
  | .tickBatch .paper _ => [.cnt, .mot, .dose, .prf, .pq, .head, .mrk, .trg, .flt, .free]
  | .tickBatch .fabric _ => [.cnt, .mot, .prf, .pq, .head, .trg, .flt]
  | .tickBatch .drum _ => [.cnt]
  | .seekDistanceReached => [.mot]
  | .markCapture => [.cnt, .mot, .pq, .mrk, .trg, .flt, .free]
  | .spliceCapture => [.cnt, .mot, .prf, .pq, .head, .trg, .flt]
  | .nipLimitChange _ _ => [.mot, .flt, .pins]
  | .nipTimeout => faultBlocks
  | .nipHold => [.mot, .flt]
  | .estop => [.mot, .ten, .pq, .head, .flt, .pins]
  | .estopRelease => [.pins]
  | .speedAndTensionSample _ _ _ _ _ => [.cnt, .mot, .ten, .pq, .head, .flt]
  | .encoderSilent _ | .stall => .cnt :: faultBlocks
  | .webBreak _ | .overTension _ => .ten :: faultBlocks
  | .doseSample => [.dose, .pq, .flt]
  | .temperatureSample _ | .zoneSensor _ | .mainsLost => .heat :: faultBlocks
  | .zoneHold _ => [.heat]
  | .readiness => [.mot, .heat, .flt]
  | .zeroCrossEdge _ => [.heat, .flt, .pins]
  | .zoneShortfall _ => [.heat, .flt]
  | .pulseEnd _ => [.trg]
  | .linkLost => faultBlocks
  | .timeDeadline _ | .refuse _ _ _ => [.prf, .pq, .head, .trg, .flt, .free]
  | .frameGapTimeout .host | .lenOutOfRange .host _ => [.lnk]
  | .frameGapTimeout .head | .lenOutOfRange .head _ | .headFrameBadCrc => [.head]
  | .validFrame _ | .frameSent => hostTouches
  | .headFrameSent => [.pq, .head]
  | .accept _ _ | .done _ _ _ => [.pq, .head, .flt]
  | .fault _ _ _ _ => [.pq, .head, .trg, .flt, .free]
  | .headOtherKindFrame _ _ _ => [.head, .flt, .free]
  | .setParam _ _ _ => [.cnt, .mot, .pq, .head, .flt, .lnk, .par]
  | .setPosition _ _ _ => [.cnt, .pq, .mrk, .flt, .lnk]
  | .heatOn _ _ _ _ => [.mot, .heat, .flt, .lnk]
  | .heatOff _ => [.mot, .heat, .ten, .flt, .lnk]
  | .setDrum _ _ _ _ => [.heat, .flt, .lnk]
  | .start _ => [.mot, .pq, .head, .flt, .lnk]
  | .stop _ | .threadEnter _ | .threadExit _ | .jog _ _ _ | .seek _ _ _ | .seekStop _ | .seekResume _ =>
      [.mot, .flt, .lnk]
  | .profileLoad _ _ _ | .profileDrop _ _ | .profilePin _ _ | .profileTrim _ _ _ => [.prf, .flt, .lnk]
  | .panelSubmit _ _ _ _ _ | .panelInsert _ _ _ _ _ _ => [.prf, .pq, .head, .flt, .lnk]
  | .panelCancel _ _ => [.prf, .pq, .head, .trg, .flt, .lnk, .free]
  | .dispatchEnable _ | .dispatchResume _ => [.pq, .head, .flt, .lnk]
  | .dispatchHold _ | .dispatchOff _ => [.pq, .flt, .lnk]
  | .triggerSet _ _ _ => [.trg, .flt, .lnk, .free]
  | .triggerArm _ _ | .triggerClear _ _ | .windowSet _ _ _ | .windowClear _ _ => [.trg, .flt, .lnk]
  | .fabricLoad _ _ | .spliceAhead _ _ => [.prf, .trg, .flt, .lnk]
  | .clearFault _ => [.mot, .ten, .flt, .lnk]
  | .readStatus _ _ => [.mrk, .flt, .lnk]
  | .clearLine _ => [.dose, .prf, .pq, .head, .mrk, .trg, .flt, .lnk, .free]
  | .unknownCommand kind tag body =>
      match readCommand ⟨kind, tag, body⟩ with
      | .command _ => hostTouches
      | .unknown | .badLength => [.flt, .lnk]
  | .linkConfig _ _ | .getParam _ _ | .readCounts _ | .readMotion _ | .readHeat _ _
  | .readDose _ | .readProbe _ _ | .readTension _ | .profileFind _ _ _ | .profileRead _ _ _ | .readQueue _ _
  | .readPanel _ _ | .readMarks _ _ | .triggerRead _ _ | .readWindows _ | .readFabric _ | .readFault _ =>
      [.flt, .lnk]

/-- The blocks one millisecond on an empty queue may touch. -/
def tickTouches : List Block := [.cnt, .mot, .heat, .prf, .pq, .head, .trg, .flt, .lnk, .free]

/-! ## Invariants -/

/-- Every parameter holds a value its range or list allows, and the bounds between parameters hold (11 R183,
02 R30, 04 R76, 08 R150, 09 R167). -/
structure ParamsOk (s : State) : Prop where
  ranges : ∀ p : Param, p.allows (s.param p) = true
  speed : s.par.vSet ≤ s.par.vMax
  paper : paperBound s.par.lMs s.par.lPn s.par.wM = true
  fabric : fabricBound s.par.lFn s.par.lFr s.par.arcLen s.par.margin = true
  probes : probeBound s.par.arcLen s.par.spacing = true

/-- Every count stays in its range, and every remainder in 0 to TPM - 1, with TPM in its range (01 R1, R4, R6). -/
structure CountsOk (s : State) : Prop where
  scale : ∀ c, 1000 ≤ (s.cnt.chan.get c).tpm ∧ (s.cnt.chan.get c).tpm ≤ 4000000
  remainder : ∀ c, 0 ≤ (s.cnt.chan.get c).rem ∧ (s.cnt.chan.get c).rem < (s.cnt.chan.get c).tpm
  count : ∀ c, -2000000000 ≤ (s.cnt.chan.get c).count ∧ (s.cnt.chan.get c).count ≤ 2000000000

/-- Every speed cap of a window lies in its range (09 R157). -/
def CapsOk (s : State) : Prop := ∀ w, some w ∈ s.trg.windows → ∀ c, w.cap = some c → 100 ≤ c ∧ c ≤ 50000

/-- The line states against the latch, the heat, the nip and the speed (02 2.2, 2.5, R20 to R26, 10 R168). -/
structure LineOk (s : State) : Prop where
  /-- HALTING and FAULTED are reached by a critical fault only, and left with the latch emptied or by HEAT_OFF. -/
  faulted : s.mot.line = .halting ∨ s.mot.line = .faulted → s.flt.latch ≠ none
  latched : s.flt.latch ≠ none → s.mot.line = .halting ∨ s.mot.line = .faulted ∨ s.mot.line = .off
  /-- The column Heat of the table of 2.2. -/
  heatOff : s.mot.line = .off → s.heat.on = false
  heatOn : s.mot.line ≠ .off → s.mot.line ≠ .faulted → s.heat.on = true
  /-- The nip is commanded closed only in RUNNING and STOPPING, and always in RUNNING. -/
  nipClosed : s.nipCmd = true → s.mot.line = .running ∨ s.mot.line = .stopping
  running : s.mot.line = .running → s.nipCmd = true
  /-- v_ref lies in its range, is 0 in a line state at rest, and while a nip that is commanded closed or was, is not
  CLOSED. -/
  speed : 0 ≤ s.mot.vref ∧ s.mot.vref ≤ 50000
  atRest : s.mot.vref ≠ 0 → s.mot.line.moving = true
  nipOpen : s.mot.line = .running ∨ s.mot.line = .stopping → s.mot.nip ≠ .closed → s.mot.vref = 0
  /-- The hold timer runs in STOPPING only, with the nip CLOSED and the line at rest. -/
  hold : s.mot.hold.isRunning = true → s.mot.line = .stopping ∧ s.mot.nip = .closed ∧ s.mot.vref = 0

/-- The invariant of the motion controller. -/
structure MotionInv (s : State) : Prop where
  params : ParamsOk s
  caps : CapsOk s
  line : LineOk s

/-- A zone record within its ranges, its SSR output on only where the zone may be fired (03 R40, R52). -/
structure ZoneOk (h : Heat) (z : ZoneRec) : Prop where
  credit : 0 ≤ z.credit ∧ z.credit ≤ 2000
  demand : 0 ≤ z.demand ∧ z.demand ≤ 1000
  integ : 0 ≤ z.integ ∧ z.integ ≤ 1000
  history : z.hist.length ≤ 10 ∧ ∀ d ∈ z.hist, 0 ≤ d ∧ d ≤ 1000
  fired : z.ssr = true →
    h.on = true ∧ h.lost = false ∧ z.enable = true ∧ z.sensor ≠ .lost ∧ z.overheat = false

def HeatOk (s : State) : Prop := ∀ z, ZoneOk s.heat (s.heat.zones.get z)

/-- The profile table: 32 entries, no two valid ones with one key, trims in range, the pointer in the unpinned part
(06 R93, R94, R100, R109). -/
structure ProfilesOk (s : State) : Prop where
  size : s.prf.entries.length = 32
  keys : ∀ i j, (s.prf.entry i).valid = true → (s.prf.entry j).valid = true →
    (s.prf.entry i).media = (s.prf.entry j).media → (s.prf.entry i).ink = (s.prf.entry j).ink → i = j
  trims : ∀ i, (s.prf.entry i).valid = true →
    ∀ z, 870 ≤ (s.prf.entry i).trims.get z ∧ (s.prf.entry i).trims.get z ≤ 1178
  pinned : s.prf.pinned ≤ 32
  pointer : (s.prf.pinned ≤ s.prf.pointer ∧ s.prf.pointer ≤ 31) ∨ (s.prf.pinned = 32 ∧ s.prf.pointer = 31)

/-- No queue or list holds more than the manual gives it room for; no place is kept between two steps; TXD is never
idle while a frame waits; no command waits while a place is free (10 R173, 11 R179, 07 R111, R118, 04 R62, 09 R151, R157, R160). -/
structure BuffersOk (s : State) : Prop where
  transmit : s.flt.frames.length ≤ 32
  kept : s.flt.kept = false
  sending : s.flt.current = none → s.flt.waiting = []
  commands : s.lnk.buffer.length ≤ 4
  settled : s.settled = true
  headLink : s.head.buf.length ≤ 8
  panels : s.pq.queue.length ≤ 64
  inserts : s.pq.slots.length = 4
  probes : s.dose.probes.length ≤ 64
  triggers : s.trg.slots.length = 24
  windows : s.trg.windows.length = 8
  splices : s.trg.splices.length ≤ 4

/-- The records of the insert slots. -/
def PanelQueue.inserts (q : PanelQueue) : List Panel := q.slots.filterMap Slot.panel?

/-- The holders of references to entry `n`: panel records, insert slots, pointers, the announced-fabric slot and splice
records (06 R105). -/
def State.holders (s : State) (n : Nat) : Nat :=
  (s.pq.queue.countP fun p => p.profile = n) + (s.pq.inserts.countP fun p => p.profile = n)
    + ([s.trg.feed, s.trg.nip, s.trg.rewind, s.trg.announced] ++ s.trg.splices.map Splice.next).count (some n)

/-- The state of the panel of a live transaction (07 R111, R120). -/
def Phase.panelState : Phase → PanelState
  | .awaitAccept => .starting
  | .printing => .printing

/-- The panel queue is consistent, and the reference count of every entry is the number of its holders (07 R111,
R112, R116, R129, 06 R105). -/
structure QueueOk (s : State) : Prop where
  /-- Tags are unique across the queue and the four insert slots together (R111). -/
  tags : ((s.pq.queue ++ s.pq.inserts).map Panel.tag).Nodup
  /-- A waiting report is that of a record in DONE, once (R129). -/
  waiting : ∀ tag ∈ s.pq.waiting, ∃ p ∈ s.pq.queue ++ s.pq.inserts, p.tag = tag ∧ p.state = .done
  waitingOnce : s.pq.waiting.Nodup
  /-- A live transaction is that of a STARTING or PRINTING panel of the queue, one for a panel (R111, R116, R120). -/
  live : ∀ t ∈ s.pq.live, ∃ p ∈ s.pq.queue, p.tag = t.tag ∧ p.state = t.phase.panelState
  liveOnce : (s.pq.live.map Txn.tag).Nodup
  /-- A panel that has not been printed has no arrival and no dose fields (08 R135, 04 R63). -/
  unseen : ∀ p ∈ s.pq.queue, p.state = .queued ∨ p.state = .starting → p.arrival = none ∧ p.dose = none
  /-- The dose fields are set with the arrival, and with nothing else (08 R144, 04 R63). -/
  measured : ∀ p ∈ s.pq.queue, p.arrival = none ↔ p.dose = none
  armed : ∀ p, Slot.armed p ∈ s.pq.slots → p.state = .queued ∧ p.arrival = none ∧ p.dose = none
  cancelled : ∀ p, Slot.cancelled p ∈ s.pq.slots → p.state = .done
  /-- An entry's reference count is the number of holders that name it (06 R105). -/
  refs : ∀ n, (s.prf.entry n).refs = s.holders n
  /-- A profile entry that holds one or more references is valid (06 R105). -/
  held : ∀ n, (s.prf.entry n).refs ≠ 0 → (s.prf.entry n).valid = true

/-- A report waits only while the transmit queue has no free place (07 R129). -/
def ReportsOk (s : State) : Prop := s.pq.waiting ≠ [] → s.flt.room = false

/-- The next probe point of a panel is one of its own: it lies between its arrival A and its trailing point A + L (04
R64, R65). -/
def PointsOk (s : State) : Prop :=
  ∀ p ∈ s.pq.queue, ∀ a, p.arrival = some a → ∀ d, p.dose = some d → ∀ n, d.next = some n →
    a ≤ n ∧ n ≤ a + p.length

/-- The placed panels come first, in the order of their x_s and clear of one another, all at or before last_end (07
R111, R116), and their next probe points lie on them. -/
structure PlacedOk (s : State) : Prop where
  gap : 0 ≤ s.par.gap
  first : s.pq.queue.Pairwise fun p q => q.xs ≠ none → p.xs ≠ none
  clear : s.pq.queue.Pairwise fun p q => ∀ x y, p.xs = some x → q.xs = some y → x + p.length ≤ y
  ends : ∀ p ∈ s.pq.queue, ∀ x, p.xs = some x → x + p.length ≤ s.pq.lastEnd
  queued : ∀ p ∈ s.pq.queue, p.state = .queued → p.xs = none
  armed : ∀ p, Slot.armed p ∈ s.pq.slots → p.state = .queued ∧ p.xs = none
  lengths : ∀ p ∈ s.pq.queue ++ s.pq.inserts, 0 < p.length
  points : PointsOk s

/-- The frame is a START (07 7.5). -/
def HeadFrame.isStart : HeadFrame → Bool
  | .start _ _ _ _ _ _ => true
  | .withdraw _ _ => false

/-! ## The parameter tables (11 R183) -/

/-- A row of a parameter table: id, least and greatest value, default. -/
structure ParamRow where
  id : Nat
  low : Int
  high : Int
  default : Int
deriving DecidableEq, Repr

/-- The parameter tables of the manual (01 1.12, 02 2.9, 03 3.10, 04 4.8, 05 5.9, 07 7.14, 08 8.10, 09 9.6), for the
parameters whose range is one interval: all but b_head, a list, and T_link, which may also be 0. v_set lies below v_max
as well (02 R30). -/
def paramTable : List ParamRow :=
  [⟨0x0101, 0, 3, 0⟩, ⟨0x0102, 0, 3, 0⟩, ⟨0x0103, 0, 3, 0⟩, ⟨0x0111, 1000, 4000000, 100000⟩,
   ⟨0x0112, 1000, 4000000, 100000⟩, ⟨0x0113, 1000, 4000000, 100000⟩, ⟨0x0120, 20, 2000, 200⟩,
   ⟨0x0121, 0, 7, 7⟩, ⟨0x0130, 0, 100000, 5000⟩]
  ++
  [⟨0x0201, 1000, 50000, 50000⟩, ⟨0x0202, 0, 50000, 0⟩, ⟨0x0203, 100, 20000, 2000⟩,
   ⟨0x0204, 100, 20000, 2000⟩, ⟨0x0205, 1000, 50000, 10000⟩, ⟨0x0206, 100, 5000, 1000⟩,
   ⟨0x0207, 100, 5000, 500⟩, ⟨0x0210, 100, 10000, 3000⟩, ⟨0x0211, 0, 60000, 5000⟩]
  ++
  [⟨0x0301, 0, 255, 40⟩, ⟨0x0302, 0, 255, 6⟩, ⟨0x0303, 1, 6, 6⟩, ⟨0x0304, 2000, 2600, 2500⟩,
   ⟨0x0305, 10, 200, 30⟩, ⟨0x0306, 0, 600, 30⟩]
  ++
  [⟨0x0401, 1500, 2300, 2000⟩, ⟨0x0402, 20, 300, 100⟩, ⟨0x0403, 30000, 300000, 120000⟩,
   ⟨0x0404, 2000, 50000, 10000⟩]
  ++
  [⟨0x0501, 0, 5000, 0⟩, ⟨0x0502, 1, 500, 20⟩, ⟨0x0503, 10, 100, 50⟩, ⟨0x0504, 5, 80, 20⟩,
   ⟨0x0505, 50, 2000, 300⟩, ⟨0x0506, 120, 400, 200⟩, ⟨0x0507, 50, 2000, 100⟩, ⟨0x0511, 0, 255, 32⟩,
   ⟨0x0512, 0, 255, 16⟩, ⟨0x0513, 0, 255, 32⟩, ⟨0x0514, 0, 255, 16⟩, ⟨0x0515, 0, 255, 32⟩,
   ⟨0x0516, 0, 255, 16⟩, ⟨0x0521, 0, 1000, 0⟩, ⟨0x0522, 0, 1000, 0⟩]
  ++
  [⟨0x0701, 1000, 100000, 2000⟩, ⟨0x0702, 10000, 200000, 50000⟩, ⟨0x0703, 20, 1000, 200⟩,
   ⟨0x0704, 0, 7, 2⟩, ⟨0x0705, 1000, 100000, 20000⟩, ⟨0x0706, 0, 500000, 0⟩]
  ++
  [⟨0x0801, 50000, 1000000, 250000⟩, ⟨0x0802, 60000, 1500000, 320000⟩, ⟨0x0803, 50, 2500, 500⟩,
   ⟨0x0804, 0, 4, 2⟩, ⟨0x0805, 100, 10000, 2000⟩]
  ++
  [⟨0x0901, 1, 1000, 50⟩, ⟨0x0902, 1, 1000, 50⟩, ⟨0x0903, 1, 1000, 50⟩, ⟨0x0904, 1, 1000, 50⟩,
   ⟨0x0905, 1, 1000, 50⟩, ⟨0x0910, 10000, 2000000, 150000⟩, ⟨0x0911, 50000, 4000000, 400000⟩,
   ⟨0x0912, 1000, 50000, 5000⟩]

end Sys2Proof.Machine
end

