-- ==== Sys2Proof/WellFormed.lean ====
section
/-! DEFINITION. Well-formed commands: every operand fits the bytes 11 R182 gives it (host commands) or the
range the owning rule gives the event that brings it. An operand that fits its bytes but lies outside the
range of its rule is well formed: the owning rule refuses it by a status code. -/

namespace Sys2Proof

/-- One unsigned byte (11 R182). -/
def fitsU8 (n : Nat) : Bool := n < 256
/-- Two unsigned bytes (11 R182). -/
def fitsU16 (n : Nat) : Bool := n < 65536
/-- Four unsigned bytes (11 R182). -/
def fitsU32 (n : Nat) : Bool := n < 4294967296
/-- Four bytes, signed (11 R182). -/
def fitsI32 (n : Int) : Bool := -2147483648 ≤ n && n < 2147483648

def fitsOption {α : Type} (p : α → Bool) : Option α → Bool
  | none => true
  | some a => p a

/-- A profile name fits its five bytes (11 R182). -/
def ProfileName.wf : ProfileName → Bool
  | .entry n => fitsU8 n
  | .key media ink => fitsU16 media && fitsU8 ink
  | .none => true

def ProfileFields.wf (f : ProfileFields) : Bool :=
  fitsU16 f.media && fitsU8 f.ink && fitsU32 f.target && fitsI32 f.allowUnder && fitsI32 f.allowOver
    && fitsI32 f.feedTension && fitsI32 f.rewindTension && f.trims.all fitsU16
    && fitsI32 f.sigma && fitsI32 f.weight

def TriggerFields.wf (f : TriggerFields) : Bool :=
  fitsU8 f.axis && fitsOption fitsI32 f.position
    && fitsOption (fun a => fitsU16 a.1 && fitsI32 a.2) f.anchor
    && fitsU8 f.direction && fitsU8 f.action && fitsU8 f.repeated

def WindowFields.wf (f : WindowFields) : Bool :=
  fitsU8 f.axis && fitsI32 f.lo && fitsI32 f.hi && fitsU8 f.effects && fitsU8 f.mask && fitsI32 f.cap

/-- The command's operands fit the bytes or the event that carries them. -/
def Instr.wf : Instr → Bool
  | .zeroCrossEdge gap => gap ≤ 2500
  | .timeDeadline txn => 1 ≤ txn && txn ≤ 255
  | .validFrame bytes => bytes ≠ []
  | .unknownCommand kind _ body => kind ≠ 0 && kind.toNat < 0x60 && body.length ≤ Config.bodyMax
  | .accept txn panel => fitsU8 txn && fitsU16 panel
  | .refuse txn panel reason => fitsU8 txn && fitsU16 panel && 1 ≤ reason && reason ≤ 255
  | .done txn panel printed => fitsU8 txn && fitsU16 panel && fitsI32 printed
  | .fault txn panel printed reason =>
      fitsU8 txn && fitsU16 panel && fitsI32 printed && 1 ≤ reason && reason ≤ 255
  | .headOtherKindFrame kind _ body => body.length ≤ Config.bodyMax && !(kind = 0x81 && body.length = 2)
  | .lenOutOfRange _ len => len.toNat < 2 || 252 < len.toNat
  | .linkConfig _ baud => fitsI32 baud
  | .setParam _ id value => fitsU16 id && fitsI32 value
  | .getParam _ id => fitsU16 id
  | .setPosition _ count value => fitsU8 count && fitsI32 value
  | .heatOn _ setpoint offsets mask => fitsI32 setpoint && offsets.all fitsI32 && fitsU8 mask
  | .jog _ direction distance => fitsU8 direction && fitsI32 distance
  | .seek _ distance condition => fitsI32 distance && fitsU8 condition
  | .setDrum _ setpoint offsets mask => fitsI32 setpoint && offsets.all fitsI32 && fitsU8 mask
  | .readHeat _ first => fitsOption fitsI32 first
  | .readProbe _ index => fitsI32 index
  | .profileLoad _ fields entry => fields.wf && fitsOption fitsU8 entry
  | .profileFind _ media ink => fitsU16 media && fitsU8 ink
  | .profileRead _ entry first => fitsOption fitsU8 entry && fitsOption fitsI32 first
  | .profileDrop _ entry => fitsU8 entry
  | .profilePin _ count => fitsU8 count
  | .profileTrim _ entry trims => fitsU8 entry && trims.all fitsU16
  | .panelSubmit _ panel name length mark => fitsU16 panel && name.wf && fitsI32 length && fitsU8 mark
  | .panelInsert _ slot panel name length mark =>
      fitsU8 slot && fitsU16 panel && name.wf && fitsI32 length && fitsU8 mark
  | .panelCancel _ panel => fitsU16 panel
  | .readQueue _ first => fitsOption fitsI32 first
  | .readPanel _ panel => fitsU16 panel
  | .readMarks _ first => fitsOption fitsI32 first
  | .triggerSet _ slot fields => fitsU8 slot && fields.wf
  | .triggerArm _ slot => fitsU8 slot
  | .triggerClear _ slot => fitsU8 slot
  | .triggerRead _ slot => fitsU8 slot
  | .windowSet _ window fields => fitsU8 window && fields.wf
  | .windowClear _ window => fitsU8 window
  | .fabricLoad _ name => name.wf
  | .spliceAhead _ name => name.wf
  | .powerOnReset | .resetn | .tickBatch _ _ | .seekDistanceReached | .markCapture | .spliceCapture
  | .nipLimitChange _ _ | .nipTimeout | .nipHold | .estop | .estopRelease
  | .speedAndTensionSample _ _ _ _ _ | .encoderSilent _ | .stall | .webBreak _ | .overTension _
  | .doseSample | .temperatureSample _ | .zoneHold _ | .zoneSensor _ | .readiness | .zoneShortfall _
  | .mainsLost | .pulseEnd _ | .linkLost | .frameGapTimeout _ | .frameSent | .headFrameSent
  | .readCounts _ | .heatOff _ | .start _ | .stop _ | .threadEnter _ | .threadExit _ | .seekStop _
  | .seekResume _ | .readMotion _ | .readDose _ | .readTension _ | .dispatchEnable _ | .dispatchHold _
  | .dispatchResume _ | .dispatchOff _ | .readWindows _ | .readFabric _ | .clearFault _ | .readFault _
  | .readStatus _ _ | .clearLine _ | .headFrameBadCrc => true

end Sys2Proof
end

