-- ==== Sys2Proof/Certificates/Slice0/Obligations.lean ====
section
/-! DEFINITION. The statements about the model, grouped as the chapters of spec/ are. A statement about a host command
takes it at once (`State.takes`); how it waits otherwise is `Obligations.CommandsWaitOrAreRefused`. `Keeps l s t` says that
every block outside `l` is as before. -/

open Sys2Proof Sys2Proof.Machine

/-! ## The step and the resets -/

/-- A step runs the command at the front of the queue on the queue's rest (the form this row fixes). -/
def Obligations.StepRunsTheFront : Prop :=
  ∀ (c : Instr) (rest : List Instr) (s : State),
    step { s with pending := c :: rest } = exec c { s with pending := rest }

/-- On an empty queue one millisecond passes (the model's choice, notes/assumptions/1.md): the timestamp grows by one
(01 R16), every pulse runs on or ends at its width (09 R154), and only the blocks that hold timers change. Every timer
that runs grows by one: silence, nip, hold, mains lost and link silence timers, and the hold timer of a zone up to
10,000; a framer abandons its frame after 5 ms. With none of them and no time deadline at its limit nothing else
happens; one that alone reaches its limit does what the row of its expiry does in the state with the timers advanced
(01 R9, 02 R32, R33, 03 R56, 07 R120, 10 R175). -/
def Obligations.IdleStepIsOneMillisecond : Prop :=
  ∀ s : State, s.pending = [] →
    ∃ t, step s = .next t ∧ t.cnt.clock = s.cnt.clock + 1 ∧ Keeps tickTouches s t
      ∧ (∀ o, t.trg.pulses.get o =
          (s.trg.pulses.get o).bind fun p =>
            if p.elapsed + 1 < p.width then some { p with elapsed := p.elapsed + 1 } else none)
      ∧ let up := fun x : Timer => match x with | .running ms => Timer.running (ms + 1) | x => x
        let gap := fun r : Framer => match r with
          | .inFrame got ms => if ms < 5 then Framer.inFrame got (ms + 1) else .hunting
          | .hunting => .hunting
        let quiet := fun c : Channel => { c with silence := up c.silence }
        let a : State :=
          { s with
            cnt := { s.cnt with
              clock := s.cnt.clock + 1
              chan := ⟨quiet s.cnt.chan.paper, quiet s.cnt.chan.fabric, quiet s.cnt.chan.drum⟩ }
            mot := { s.mot with nipTimer := up s.mot.nipTimer, hold := up s.mot.hold }
            heat := { s.heat with
              zones := s.heat.zones.map fun z =>
                { z with hold := match z.hold with | .running ms => .running (min 10000 (ms + 1)) | x => x }
              lostTimer := up s.heat.lostTimer }
            trg := { s.trg with
              pulses := s.trg.pulses.map fun p => p.bind fun p =>
                if p.elapsed + 1 < p.width then some { p with elapsed := p.elapsed + 1 } else none }
            flt := { s.flt with link := up s.flt.link }
            head := { s.head with framer := gap s.head.framer }
            lnk := { s.lnk with framer := gap s.lnk.framer } }
        let due := fun (limit : Int) (x : Timer) => match x with
          | .running ms => decide (limit ≤ (ms : Int) + 1)
          | _ => false
        let late := fun x : Txn => decide (x.phase = .awaitAccept ∧ x.accTime ≤ (a.cnt.clock - x.started).toNat)
        let dues := [due s.par.tSil s.cnt.chan.paper.silence, due s.par.tSil s.cnt.chan.fabric.silence,
          due s.par.tSil s.cnt.chan.drum.silence, due s.par.tNip s.mot.nipTimer, due s.par.tHold s.mot.hold,
          due 25 s.heat.lostTimer, due s.par.tLink s.flt.link, s.pq.live.any late]
        let alone := fun i : Nat => dues = (List.replicate 8 false).set i true
        (dues = List.replicate 8 false → t = a)
        ∧ (ParamsOk s →
            (alone 0 → exec (.encoderSilent .paper) a = .next t)
            ∧ (alone 1 → exec (.encoderSilent .fabric) a = .next t)
            ∧ (alone 2 → exec (.encoderSilent .drum) a = .next t)
            ∧ (alone 3 → exec .nipTimeout a = .next t)
            ∧ (alone 4 → exec .nipHold a = .next t)
            ∧ (alone 5 → exec .mainsLost a = .next t)
            ∧ (alone 6 → exec .linkLost a = .next t)
            ∧ (alone 7 → ∀ x ∈ s.pq.live, late x = true →
                (∀ y ∈ s.pq.live, y.phase = .awaitAccept → y = x) → exec (.timeDeadline x.num) a = .next t))

/-- What power-on reset leaves, item by item, where the manual gives a value (01 R1, 02 R17, 03 R40, R41, 04 R58, 05
R79, 06 R93, 07 R111, R118, 08 R134, 09 R151, R154, R157, R160, 10 R168, R173, R175, 11 R177), and the default of every
parameter (`paramTable` writes the manual's parameter tables out again, with b_head and T_link beside it). -/
def Obligations.ResetValues : Prop :=
  let s := State.reset
  (∀ c, let k := s.cnt.chan.get c
    k.mode = .quadrature ∧ k.tpm = 100000 ∧ k.rem = 0 ∧ k.count = 0 ∧ k.dir = .forward
      ∧ k.hist = List.replicate 10 0 ∧ k.speed = 0 ∧ k.silence = .stopped ∧ k.overrange = false)
  ∧ s.cnt.stall = 0 ∧ s.cnt.markCap = none ∧ s.cnt.spliceCap = none ∧ s.cnt.clock = 0
  ∧ s.mot.line = .off ∧ s.mot.target = 0 ∧ s.mot.vref = 0 ∧ s.mot.drive = .forward ∧ s.mot.drum = 0
  ∧ s.mot.nip = .opening ∧ s.mot.nipTimer = .running 0 ∧ s.mot.hold = .stopped
  ∧ s.mot.seek.state = .idle ∧ s.mot.seek.cause = none ∧ s.mot.seek.endPos = none ∧ s.mot.seek.due = false
  ∧ (∀ z, let r := s.heat.zones.get z
    r.enable = true ∧ r.offset = 0 ∧ r.reading = .absent ∧ r.valid = none ∧ r.lastValid = 0 ∧ r.invalid = 0
      ∧ r.sensor = .normal ∧ r.hold = .stopped ∧ r.integ = 0 ∧ r.demand = 0 ∧ r.hist = [] ∧ r.credit = 0
      ∧ r.shortfall = false ∧ r.shortCount = 0 ∧ r.inBand = false ∧ r.overheat = false ∧ r.cold = false
      ∧ r.raised = false ∧ r.ssr = false)
  ∧ s.heat.on = false ∧ s.heat.setpoint = 0 ∧ s.heat.pointer = .z0 ∧ s.heat.settle = .stopped
  ∧ s.heat.ready = false ∧ s.heat.freq = .none ∧ s.heat.period = none ∧ s.heat.lostTimer = .stopped
  ∧ s.heat.lost = false ∧ s.heat.excursion = false ∧ s.heat.edgePending = false
  ∧ s.dose.factors = none ∧ s.dose.kMin = none ∧ s.dose.dMax = none ∧ s.dose.horizon = none
  ∧ s.dose.vDose = 50000 ∧ s.dose.floorFlag = false ∧ s.dose.probes = []
  ∧ (∀ l, let r := s.ten.get l
    r.state = .off ∧ r.set = none ∧ r.target = 0 ∧ r.work = 0 ∧ r.force = 0 ∧ r.integ = 0 ∧ r.out = 0
      ∧ r.brkTimer = 0 ∧ r.overTimer = 0 ∧ r.cause = none)
  ∧ s.prf.entries.length = 32 ∧ (∀ e ∈ s.prf.entries, e.valid = false ∧ e.refs = 0)
  ∧ s.prf.pinned = 0 ∧ s.prf.pointer = 31
  ∧ s.pq.queue = [] ∧ s.pq.slots = List.replicate 4 .empty ∧ s.pq.lastEnd = 0 ∧ s.pq.dispatch = .off
  ∧ s.pq.live = [] ∧ s.pq.nextTxn = 1 ∧ s.head.buf = [] ∧ s.head.framer = .hunting ∧ s.head.baud = 1000000
  ∧ s.mrk.state = .unlocked ∧ s.mrk.slip = 0 ∧ s.mrk.high = 0 ∧ s.mrk.stray = false
  ∧ s.trg.slots = List.replicate 24 .free ∧ s.trg.windows = List.replicate 8 none ∧ (∀ o, s.outLevel o = false)
  ∧ s.trg.feed = none ∧ s.trg.nip = none ∧ s.trg.rewind = none ∧ s.trg.announced = none ∧ s.trg.splices = []
  ∧ s.flt.latch = none ∧ s.flt.further = [] ∧ s.flt.furtherCount = 0 ∧ s.flt.frames = []
  ∧ s.flt.dropped = false ∧ s.flt.link = .stopped
  ∧ s.lnk.baud = 115200 ∧ s.lnk.framer = .hunting ∧ s.lnk.buffer = []
  ∧ (∀ row ∈ paramTable, (Param.ofId row.id).map s.param = some row.default)
  ∧ s.par.bHead = 1000000 ∧ s.par.tLink = 2000

/-- POWER_ON_RESET and RESETN complete alike: with ESTOP inactive and the limits not in the open pair, every block
stands at its reset values. The input levels and the model's own fields are kept (the model's choice,
notes/assumptions/27.md). An ESTOP found active is a change to active (02 R26); limits found in the open pair confirm
the opening (02 R32). -/
def Obligations.ResetsRestoreTheResetValues : Prop :=
  ∀ s : State, ∃ t, exec .powerOnReset s = .next t ∧ exec .resetn s = .next t
    ∧ t.pins = s.pins ∧ t.free = s.free ∧ t.pending = s.pending
    ∧ (∀ c, t.cnt.chan.get c = { State.reset.cnt.chan.get c with levels := (s.cnt.chan.get c).levels })
    ∧ { t.cnt with chan := State.reset.cnt.chan } = State.reset.cnt
    ∧ (s.pins.estop = false → s.pins.openPair = false → Keeps [.cnt, .pins, .free, .pending] State.reset t)
    ∧ (s.pins.openPair = true → t.mot.nip = .opened ∧ t.mot.nipTimer = .stopped)
    ∧ (s.pins.estop = true →
        t.mot.line = .faulted ∧ t.flt.latch = some ⟨.estop, none, 0, .off, 0, 0, none⟩)

/-- The state after reset meets every invariant stated below. -/
def Obligations.ResetMeetsTheInvariants : Prop :=
  CountsOk State.reset ∧ MotionInv State.reset ∧ HeatOk State.reset ∧ ProfilesOk State.reset
    ∧ BuffersOk State.reset ∧ QueueOk State.reset ∧ PlacedOk State.reset ∧ ReportsOk State.reset

/-! ## Counting (01) -/

/-- Edges become ticks as the input mode says (01 R2): the four steps of QUADRATURE forward and backward, a change of
both levels giving none; a rising A with B low or high in PULSE_DIR, where B's new level counts if it changes in the
same step (the model's choice, notes/assumptions/18.md); a rising A and a rising B in UP_DOWN; a rising A in
PULSE_ONLY. A path of levels gives the ticks of its steps, and the decoder then holds its last pair. -/
def Obligations.EdgesGiveTicks : Prop :=
  let next : Bool × Bool → Bool × Bool := fun p => (!p.2, p.1)
  (∀ p q, tickOf .quadrature p q = if q = next p then (1, 0) else if p = next q then (0, 1) else (0, 0))
  ∧ [next (false, false), next (true, false), next (true, true), next (false, true)]
      = [(true, false), (true, true), (false, true), (false, false)]
  ∧ (∀ p q, tickOf .pulseDir p q =
      if p.1 = false ∧ q.1 = true then (if q.2 = false then (1, 0) else (0, 1)) else (0, 0))
  ∧ (∀ p q, tickOf .upDown p q =
      (if p.1 = false ∧ q.1 = true then 1 else 0, if p.2 = false ∧ q.2 = true then 1 else 0))
  ∧ (∀ p q, tickOf .pulseOnly p q = (if p.1 = false ∧ q.1 = true then 1 else 0, 0))
  ∧ ∀ (c : Channel) (p : Bool × Bool) (qs : List (Bool × Bool)),
      c.gather (.levels []) = ((0, 0), c.levels)
      ∧ c.gather (.levels (p :: qs)) =
          (((tickOf c.mode c.levels p).1 + (Channel.gather { c with levels := p } (.levels qs)).1.1,
            (tickOf c.mode c.levels p).2 + (Channel.gather { c with levels := p } (.levels qs)).1.2),
           (Channel.gather { c with levels := p } (.levels qs)).2)

/-- TICK_BATCH completes in every state. With f forward and r reverse ticks gathered, a net count of 0 changes only the
silence timer; another sets the direction, scales n = (f - r) x 100,000 + rem by TPM, and adds the quotient to the
period and, saturated, to the count (01 R3, R4, R6, R8). The counting unit otherwise keeps its state. -/
def Obligations.TickBatchScalesItsChannel : Prop :=
  ∀ (ch : Chan) (ticks : Ticks) (s : State), ∃ t, exec (.tickBatch ch ticks) s = .next t
    ∧ Keeps (touches (.tickBatch ch ticks)) s t
    ∧ t.cnt = { s.cnt with chan := s.cnt.chan.set ch ((s.cnt.chan.get ch).take ticks) }
    ∧ let c := s.cnt.chan.get ch
      let c' := c.take ticks
      let f := (c.gather ticks).1.1
      let r := (c.gather ticks).1.2
      let n := ((f : Int) - r) * 100000 + c.rem
      let d := n / c.tpm
      c'.mode = c.mode ∧ c'.tpm = c.tpm ∧ c'.hist = c.hist ∧ c'.speed = c.speed
      ∧ (f = 0 ∧ r = 0 ∨ c.silence = .stopped → c'.silence = c.silence)
      ∧ (¬(f = 0 ∧ r = 0) → c.silence ≠ .stopped → c'.silence = .running 0)
      ∧ (f = r → c'.count = c.count ∧ c'.rem = c.rem ∧ c'.dir = c.dir ∧ c'.period = c.period
          ∧ c'.overrange = c.overrange)
      ∧ (f ≠ r → c'.dir = (if r < f then .forward else .reverse) ∧ c'.rem = n - d * c.tpm
          ∧ c'.period = c.period + d ∧ c'.count = max (-2000000000) (min 2000000000 (c.count + d))
          ∧ (c'.overrange = true ↔
              c.overrange = true ∨ c.count + d < -2000000000 ∨ 2000000000 < c.count + d))

/-- The scaler loses nothing (01 R4): over any run of batches, ws moved x TPM + remainder grows by 100,000 for each net
forward tick, the remainder stays in 0 to TPM - 1, and a run that totals TPM ticks moves exactly 100,000 ws. -/
def Obligations.ScalerLosesNothing : Prop :=
  ∀ (c : Channel) (batches : List (Nat × Nat)), 0 ≤ c.rem → c.rem < c.tpm → c.mode ≠ .pulseOnly →
    let c' := batches.foldl (fun c b => c.take (.counted b.1 b.2)) c
    let ticks := (batches.map fun b => (b.1 : Int) - b.2).sum
    c'.period * c.tpm + c'.rem = c.period * c.tpm + c.rem + 100000 * ticks
      ∧ 0 ≤ c'.rem ∧ c'.rem < c.tpm ∧ (ticks = c.tpm → c'.period = c.period + 100000 ∧ c'.rem = c.rem)

/-- SET_POSITION, whole (01 R13, R14): the refusals in their order, and what a taken one sets; the reply carries the
count as it stood. -/
def Obligations.SetPositionRebases : Prop :=
  ∀ (tag : Byte) (n : Nat) (v : Int) (s : State), s.takes →
    let c : Instr := .setPosition tag n v
    let k := s.cnt.chan
    let a := s.acting
    if 2 < n then Refused c 0x08 tag .range s
    else if v < -2000000000 ∨ 2000000000 < v then Refused c 0x08 tag .range s
    else if n = 0 then
      if ∃ p ∈ s.pq.queue, p.state ≠ .queued then Refused c 0x08 tag .state s
      else if s.mot.vref ≠ 0 ∨ k.paper.speed ≠ 0 then Refused c 0x08 tag .state s
      else
        Answered c 0x08 tag .ok (i32 s.pp) s
          { a with
            cnt := { s.cnt with
              chan := { k with paper := { k.paper with count := v, rem := 0, overrange := false } } }
            mrk := { s.mrk with state := .unlocked, high := v }
            pq := { s.pq with lastEnd := v } }
    else if n = 1 then
      if s.trg.splices ≠ [] then Refused c 0x08 tag .state s
      else
        Answered c 0x08 tag .ok (i32 s.fp) s
          { a with
            cnt := { s.cnt with
              chan := { k with fabric := { k.fabric with count := v, rem := 0, overrange := false } }
              lockout := none } }
    else
      Answered c 0x08 tag .ok (i32 s.dc) s
        { a with
          cnt := { s.cnt with
            chan := { k with drum := { k.drum with count := v, rem := 0, overrange := false } } } }

/-- MARK_CAPTURE completes in every state: the record takes PP, the direction and the timestamp (01 R11); a MOVING move
with condition MARK ends at it (02 R37); a reverse capture touches no more (08 R138); a forward one in no window sets
STRAY and is warned of (R139). -/
def Obligations.MarkCaptureIsRecordedAndJudged : Prop :=
  ∀ s : State, ∃ t, exec .markCapture s = .next t ∧ Keeps (touches .markCapture) s t
    ∧ t.cnt = { s.cnt with markCap := some ⟨s.pp, s.cnt.chan.paper.dir, s.cnt.clock⟩ }
    ∧ t.mot = (if s.mot.seek.state = .moving ∧ s.mot.seek.cond = .mark then
        { s.mot with
          seek := { s.mot.seek with
            state := .ended, cause := some .condition, endPos := some s.pp, due := true } }
      else s.mot)
    ∧ (s.cnt.chan.paper.dir = .reverse → Keeps [.cnt, .mot] s t)
    ∧ (s.cnt.chan.paper.dir = .forward → (∀ q ∈ s.pq.queue, s.inWindow s.pp q = false) →
        Keeps [.cnt, .mot, .mrk, .flt] s t ∧ t.mrk = { s.mrk with stray := true }
        ∧ (s.flt.room = true →
            t.flt = s.flt.place (.notice s.cnt.clock (.warning (.markStray s.pp s.cnt.clock)))))

/-- A forward MARK capture in the window of a panel is good for it (08 R136, R138): p lies within W_m of the centre;
the panel's mark result becomes e0, its arrival x_s + L_pn and the clamped correction; the tracker takes a good-mark
step. At a forward count update of PP the high point follows PP (R143); a panel whose window ends below the new PP is
MISSED with its arrival from S, one that expects no mark takes that arrival without a mark, the others take none (R140,
R141); each MISSED panel is a miss step (R137), with MARK_LOST in HOLDOVER. A reverse update more than W_m below the
high point unlocks the tracker (R143). The dose fields set with an arrival hold nothing folded, the first probe point
above PP, and SPARSE where a point is passed already (04 R63, R64). A position lies in the window of a panel exactly
where the panel travels with an x_s, expects a mark and has no result yet, within W_m of its centre (R135, R136). -/
def Obligations.GoodMarkSetsTheArrival : Prop :=
  let fresh := fun (pp a : Int) (q q' : Panel) (s : State) => 0 < s.par.spacing → 0 < q.length →
    (∀ b ∈ s.dose.probes, ∀ o ∈ b.owners, o.tag ≠ q.tag) →
    (∃ d, q'.dose = some d ∧ FreshDose pp a q.length s.par.spacing d)
      ∧ q'.flags.sparse = (q.flags.sparse || decide (a ≤ pp))
  (∀ (s : State) (p : Int) (q : Panel), s.inWindow p q = true ↔ ∃ x, q.xs = some x
    ∧ (q.state = .printing ∨ q.state = .printed ∨ q.state = .spoiled) ∧ q.arrival = none ∧ q.markResult = none
    ∧ q.mark = true ∧ ¬(q.state = .spoiled ∧ q.printed = some (.len 0))
    ∧ let c := x + s.par.lMs + roundDiv (s.par.lMs * s.mrk.slip) 1000000
      c - s.par.wM ≤ p ∧ p ≤ c + s.par.wM)
  ∧ (∀ (s : State) (q : Panel), s.cnt.chan.paper.dir = .forward →
    s.pq.queue.find? (s.inWindow s.pp) = some q →
    ∃ xs t q', q.xs = some xs ∧ exec .markCapture s = .next t ∧ q' ∈ t.pq.queue ∧ q'.tag = q.tag
      ∧ let e0 := s.pp - (xs + s.par.lMs)
        let c := xs + s.par.lMs + roundDiv (s.par.lMs * s.mrk.slip) 1000000
        let limit := roundDiv (2 * s.par.lPn) 100
        let corr := clamp (-limit) limit (roundDiv (e0 * s.par.lPn) s.par.lMs)
        let ppm := clamp (-20000) 20000 (truncDiv (e0 * 1000000) s.par.lMs)
        c - s.par.wM ≤ s.pp ∧ s.pp ≤ c + s.par.wM
        ∧ q'.markResult = some (.error e0) ∧ q'.arrival = some (xs + s.par.lPn + corr)
        ∧ q'.dose.isSome = true ∧ t.mrk = s.mrk.good ppm s.par.gain s.par.tol
        ∧ fresh s.pp (xs + s.par.lPn + corr) q q' s)
  ∧ ∀ (ticks : Ticks) (s : State), QueueOk s →
    let new := (s.cnt.chan.paper.take ticks).count
    let centre := fun x : Int => x + s.par.lMs + roundDiv (s.par.lMs * s.mrk.slip) 1000000
    let arrival := fun x : Int => x + s.par.lPn + roundDiv (s.par.lPn * s.mrk.slip) 1000000
    let travels := fun q : Panel =>
      (q.state = .printing ∨ q.state = .printed ∨ q.state = .spoiled) ∧ q.arrival = none
    let expects := fun q : Panel => q.mark = true ∧ ¬(q.state = .spoiled ∧ q.printed = some (.len 0))
    let past := fun q : Panel => ∃ x, q.xs = some x ∧ centre x + s.par.wM < new
    let missed := fun q : Panel => travels q ∧ expects q ∧ q.markResult = none ∧ past q
    let n := s.pq.queue.countP fun q => missed q
    ∃ t, exec (.tickBatch .paper ticks) s = .next t
      ∧ (new = s.pp → t.mrk = s.mrk)
      ∧ (new < s.pp → t.mrk =
          if new < s.mrk.high - s.par.wM then { s.mrk with state := .unlocked } else s.mrk)
      ∧ (s.pp < new →
          t.mrk = { s.mrk with
            high := max s.mrk.high new
            state := if n = 0 then s.mrk.state
              else if n = 1 ∧ s.mrk.state = .locked then .holdover else .unlocked }
          ∧ (n = 1 → s.mrk.state = .holdover → ∀ q ∈ s.pq.queue, missed q →
              .notice s.cnt.clock (.warning (.markLost s.mrk.slip q.tag)) ∈ t.flt.frames ∨ t.flt.dropped = true)
          ∧ ∀ q ∈ s.pq.queue, travels q → ∀ x, q.xs = some x →
              (past q → new < arrival x + q.length + s.par.arcLen → ∃ q' ∈ t.pq.queue, q'.tag = q.tag)
              ∧ ∀ q' ∈ t.pq.queue, q'.tag = q.tag →
                (q'.arrival ≠ none → fresh new (arrival x) q q' s)
                ∧ if past q ∧ expects q ∧ q.markResult = none then
                  q'.markResult = some .missed ∧ q'.flags.markMissed = true ∧ q'.arrival = some (arrival x)
                else
                  q'.markResult = q.markResult ∧ q'.flags.markMissed = q.flags.markMissed
                  ∧ q'.arrival = if past q ∧ ¬expects q then some (arrival x) else none)

/-- SPLICE_CAPTURE completes in every state (01 R12, 09 R162): a capture that is reverse or within the lockout changes
nothing; an accepted one is recorded, and becomes a splice record with the announced fabric, to which FEED switches,
with its SPLICE_SEEN notice; with four records it raises SPLICE_OVERFLOW and leaves the splice list. At a forward count
update of FP (R163, R164) every record passes the points reached: AT_NIP, PASSED_NIP, the rewind point; NIP and REWIND
switch to the next profile of the record furthest on; a record entering AT_NIP marks every panel in the arc; a record
done with is freed. A reverse update moves no record. A point at or before the new count counts as reached, whenever it
was passed (the model's reading, notes/assumptions/33.md). -/
def Obligations.SpliceCaptureDetectsOrIsDiscarded : Prop :=
  (∀ s : State, ∃ t, exec .spliceCapture s = .next t ∧ Keeps (touches .spliceCapture) s t
    ∧ let ok := s.cnt.chan.fabric.dir = .forward ∧ ∀ last, s.cnt.lockout = some last → last + s.par.dSlock < s.fp
      (¬ok → t = s)
      ∧ (ok → t.cnt = { s.cnt with
          spliceCap := some ⟨s.fp, .forward, s.cnt.clock⟩, lockout := some s.fp })
      ∧ (ok → s.trg.splices.length < 4 →
          t.trg = { s.trg with
            splices := s.trg.splices ++
              [{ fp := s.fp, next := s.trg.announced, nipStart := s.fp + s.par.lFn - s.par.margin,
                 nipEnd := s.fp + s.par.lFn + s.par.arcLen + s.par.margin,
                 rewindPoint := s.fp + s.par.lFr, state := .approaching, switched := false }]
            announced := none
            feed := if s.trg.announced.isSome then s.trg.announced else s.trg.feed }
          ∧ t.mot = (if s.mot.seek.state = .moving ∧ s.mot.seek.cond = .splice then
              { s.mot with
                seek := { s.mot.seek with
                  state := .ended, cause := some .condition, endPos := some s.fp, due := true } }
            else s.mot)
          ∧ t.flt = (if s.flt.room = true then
              s.flt.place (.notice s.cnt.clock
                (.spliceSeen s.fp s.trg.announced (s.trg.splices.length + 1)))
            else { s.flt with dropped := true }))
      ∧ (ok → 4 ≤ s.trg.splices.length → t.trg = s.trg ∧ FaultTaken .spliceOverflow none s t))
  ∧ ∀ (ticks : Ticks) (s : State),
    let new := (s.cnt.chan.fabric.take ticks).count
    let enters := fun r : Splice => r.state = .approaching ∧ r.nipStart ≤ new
    let rewinds := fun r : Splice => r.switched = false ∧ r.rewindPoint ≤ new
    let moved := fun r : Splice =>
      { r with
        state := if r.nipEnd < new then .passedNip else if enters r then .atNip else r.state
        switched := r.switched || decide (r.rewindPoint ≤ new) }
    let points := fun (acts : Splice → Prop) (at_ : Splice → Int) (old now : Option Nat) =>
      ((∀ r ∈ s.trg.splices, acts r → r.next = none) → now = old)
      ∧ ∀ r ∈ s.trg.splices, acts r → r.next ≠ none →
          (∀ q ∈ s.trg.splices, acts q → q.next ≠ none → at_ q < at_ r ∨ q.next = r.next) → now = r.next
    (∀ r ∈ s.trg.splices, r.nipStart ≤ r.nipEnd) →
    (s.cnt.chan.fabric.take ticks).overrange = s.cnt.chan.fabric.overrange →
    ∃ t, exec (.tickBatch .fabric ticks) s = .next t
      ∧ t.trg.feed = s.trg.feed ∧ t.trg.announced = s.trg.announced
      ∧ (∀ n, { t.prf.entry n with refs := 0 } = { s.prf.entry n with refs := 0 })
      ∧ (new ≤ s.fp → t.trg.splices = s.trg.splices ∧ t.trg.nip = s.trg.nip ∧ t.trg.rewind = s.trg.rewind
          ∧ t.pq = s.pq ∧ t.prf = s.prf)
      ∧ (s.fp < new →
          t.trg.splices =
            (s.trg.splices.map moved).filter (fun r => !(decide (r.state = .passedNip) && r.switched))
          ∧ points enters Splice.nipStart s.trg.nip t.trg.nip
          ∧ points rewinds Splice.rewindPoint s.trg.rewind t.trg.rewind
          ∧ t.pq = (if ∃ r ∈ s.trg.splices, enters r then
              { s.pq with
                queue := s.pq.queue.map fun p =>
                  if p.arrived = true ∧ p.state ≠ .done then
                    { p with flags := { p.flags with spliceAffected := true } } else p }
            else s.pq))

/-! ## Critical faults (10 R169, 02 R24) -/

/-- A critical fault raised in any state is taken (10 R169, 02 R24): by the latch, with its record, and by the motion
controller, which moves the line by the table of R24, suspends a MOVING move and, entering HALTING, commands the nip
open, stops the hold and zeroes the target; v_ref keeps its value. With room its FAULT_RAISED notice is placed, and the
change of line state is reported. Entering HALTING, a panel in STARTING is withdrawn and returns QUEUED without an
attempt counted (07 R122). Of two panels with the same greatest A at the nip the record names the first in queue order
(the model's choice, notes/assumptions/6.md). -/
def Obligations.CriticalFaultIsTaken : Prop :=
  ∀ (c : Cause) (i : Option Nat) (s : State),
    let t := raise c i s
    FaultTaken c i s t ∧ Keeps faultBlocks s t ∧ t.mot.vref = s.mot.vref
    ∧ t.mot.seek = (if s.mot.seek.state = .moving then
        { s.mot.seek with state := .suspended, cause := some .fault, due := true } else s.mot.seek)
    ∧ (t.mot.line = .halting → s.mot.line ≠ .halting →
        t.mot.target = 0 ∧ t.mot.hold = .stopped ∧ (t.mot.nip = .opening ∨ t.mot.nip = .opened))
    ∧ (s.mot.nip = .closed ∨ s.mot.nip = .closing → t.mot.line ≠ .halting ∨ s.mot.line = .halting →
        t.mot.nip = s.mot.nip)
    ∧ (s.flt.used + 3 ≤ 32 →
        .notice s.cnt.clock (.faultRaised c i s.flt.latch.isNone s.mot.line s.pp s.fp) ∈ t.flt.frames
        ∧ (t.mot.line ≠ s.mot.line →
            .notice s.cnt.clock (.stateChange s.mot.line t.mot.line .fault) ∈ t.flt.frames))
    ∧ (t.mot.line ≠ .halting ∨ s.mot.line = .halting → t.pq = s.pq ∧ t.head = s.head)
    ∧ (QueueOk s → t.mot.line = .halting → s.mot.line ≠ .halting →
        (∀ x ∈ s.pq.live, x.phase = .printing → x ∈ t.pq.live)
        ∧ ∀ x ∈ s.pq.live, x.phase = .awaitAccept → (∀ y ∈ s.pq.live, y.phase = .awaitAccept → y = x) →
          (∀ y ∈ t.pq.live, y.tag ≠ x.tag)
          ∧ (s.head.buf.length < 8 → t.head.buf = s.head.buf ++ [.withdraw x.num x.tag])
          ∧ ∀ p ∈ s.pq.queue, p.tag = x.tag →
              { p with state := .queued, xs := none, txn := none, gains := none } ∈ t.pq.queue)

/-- The supervision events complete where their timer runs, and raise their fault (01 R6, R9, R10, 02 R32, 03 R56, 05
R87, R88, 10 R175); a row that names an expiry brings a timer that runs, wherever it stands, to its limit (the model's
choice, notes/assumptions/2.md): the timer stands at its limit, a loop enters FAULT with output 0, a mains loss turns
every SSR off and clears the credits. -/
def Obligations.SupervisionRaisesItsFault : Prop :=
  (∀ (ch : Chan) (s : State), (s.cnt.chan.get ch).silence.isRunning = true →
    ∃ t, exec (.encoderSilent ch) s = .next t ∧ FaultTaken .encoderSilent (some ch.num) s t
      ∧ Keeps (touches (.encoderSilent ch)) s t
      ∧ (t.cnt.chan.get ch).silence = .standing s.par.tSil.toNat)
  ∧ (∀ s : State, 0 < s.cnt.stall → s.cnt.stall < 500 →
    ∃ t, exec .stall s = .next t ∧ FaultTaken .stall (some 2) s t ∧ Keeps (touches .stall) s t
      ∧ t.cnt = { s.cnt with stall := 500 })
  ∧ (∀ s : State, s.mot.nipTimer.isRunning = true →
    ∃ t, exec .nipTimeout s = .next t ∧ FaultTaken .nipTimeout none s t ∧ Keeps (touches .nipTimeout) s t
      ∧ (t.mot.line ≠ .halting → t.mot.nipTimer = .standing s.par.tNip.toNat ∧ t.mot.nip = s.mot.nip))
  ∧ (∀ (l : Loop) (s : State), (s.ten.get l).state = .regulate ∨ (s.ten.get l).state = .hold →
    0 < (s.ten.get l).brkTimer →
    ∃ t, exec (.webBreak l) s = .next t ∧ FaultTaken .webBreak (some l.num) s t
      ∧ Keeps (touches (.webBreak l)) s t
      ∧ (t.ten.get l).state = .fault ∧ (t.ten.get l).cause = some .webBreak ∧ (t.ten.get l).out = 0)
  ∧ (∀ (l : Loop) (s : State), (s.ten.get l).state = .regulate ∨ (s.ten.get l).state = .hold →
    0 < (s.ten.get l).overTimer →
    ∃ t, exec (.overTension l) s = .next t ∧ FaultTaken .overTension (some l.num) s t
      ∧ Keeps (touches (.overTension l)) s t
      ∧ (t.ten.get l).state = .fault ∧ (t.ten.get l).cause = some .overTension ∧ (t.ten.get l).out = 0)
  ∧ (∀ s : State, s.heat.lostTimer.isRunning = true →
    ∃ t, exec .mainsLost s = .next t ∧ FaultTaken .mainsLost none s t ∧ Keeps (touches .mainsLost) s t
      ∧ t.heat.lost = true ∧ t.heat.lostTimer = .stopped ∧ t.heat.edgePending = false
      ∧ ∀ z, (t.heat.zones.get z).ssr = false ∧ (t.heat.zones.get z).credit = 0
          ∧ (t.heat.zones.get z).shortfall = false ∧ (t.heat.zones.get z).shortCount = 0)
  ∧ (∀ s : State, s.flt.link.isRunning = true →
    ∃ t, exec .linkLost s = .next t ∧ FaultTaken .linkLost none s t ∧ Keeps (touches .linkLost) s t)
  ∧ (∀ (ch : Chan) (ticks : Ticks) (s : State), ch ≠ .drum → (s.cnt.chan.get ch).overrange = false →
    ((s.cnt.chan.get ch).take ticks).overrange = true →
    ∃ t r, exec (.tickBatch ch ticks) s = .next t ∧ t.flt.latch = some r
      ∧ (s.flt.latch = none → r.cause = .positionRange ∧ r.inst = some ch.num)
      ∧ t.mot.line = faultLine s.mot.line s.mot.vref)

/-! ## Motion (02) -/

/-- The nip commands (02 R31): a command in the direction held changes nothing; any other starts the travel and the nip
timer from 0 or, with the limits in the target pair already, is confirmed at once (R32), an opened nip taking a
STOPPING line to READY (R22). NIP_LIMIT_CHANGE completes in every state (R32, R22): a travel is confirmed by its pair,
a STOPPING line whose nip opens goes to READY, a confirmed nip whose limits leave the pair starts the timer and stops
it when they return. NIP_HOLD commands the nip open (R33); that it acts at any running hold timer is the model's choice
(notes/assumptions/2.md). -/
def Obligations.NipFollowsCommandsAndLimits : Prop :=
  (∀ s : State,
    (s.pins.closedPair = false →
      nipClose s = if s.mot.nip = .closed ∨ s.mot.nip = .closing then s
        else { s with mot := { s.mot with nip := .closing, nipTimer := .running 0 } })
    ∧ (s.pins.openPair = false →
      nipOpen s = if s.mot.nip = .opened ∨ s.mot.nip = .opening then s
        else { s with mot := { s.mot with nip := .opening, nipTimer := .running 0 } })
    ∧ (s.pins.closedPair = true →
      nipClose s = if s.mot.nip = .closed ∨ s.mot.nip = .closing then s
        else { s with mot := { s.mot with nip := .closed, nipTimer := .stopped } })
    ∧ (s.pins.openPair = true →
      Keeps [.mot, .flt] s (nipOpen s)
      ∧ if s.mot.nip = .opened ∨ s.mot.nip = .opening then nipOpen s = s
        else (nipOpen s).mot =
          { s.mot with
            nip := .opened, nipTimer := .stopped,
            line := if s.mot.line = .stopping then .ready else s.mot.line })
    ∧ (nipClose s).nipCmd = true ∧ (nipOpen s).nipCmd = false)
  ∧ ((∀ (nipc nipo : Bool) (s : State), ∃ t, exec (.nipLimitChange nipc nipo) s = .next t
    ∧ Keeps (touches (.nipLimitChange nipc nipo)) s t ∧ t.pins = { s.pins with nipc := nipc, nipo := nipo }
    ∧ t.mot.vref = s.mot.vref ∧ t.mot.seek = s.mot.seek ∧ t.mot.hold = s.mot.hold
    ∧ let closedPair := nipc = true ∧ nipo = false
      let openPair := nipo = true ∧ nipc = false
      (s.mot.nip = .closing → closedPair → t.mot.nip = .closed ∧ t.mot.nipTimer = .stopped)
      ∧ (s.mot.nip = .closing → ¬closedPair → t.mot = s.mot)
      ∧ (s.mot.nip = .opening → openPair → t.mot.nip = .opened ∧ t.mot.nipTimer = .stopped
          ∧ t.mot.line = if s.mot.line = .stopping then .ready else s.mot.line)
      ∧ (s.mot.nip = .opening → ¬openPair → t.mot = s.mot)
      ∧ (s.mot.nip = .closed ∧ closedPair ∨ s.mot.nip = .opened ∧ openPair →
          t.mot = { s.mot with nipTimer := .stopped })
      ∧ (s.mot.nip = .closed ∧ ¬closedPair ∨ s.mot.nip = .opened ∧ ¬openPair →
          t.mot = if s.mot.nipTimer = .stopped then { s.mot with nipTimer := .running 0 } else s.mot))
  ∧ ∀ s : State, s.mot.hold.isRunning = true → s.pins.openPair = false → s.mot.nip = .closed →
      exec .nipHold s =
        .next { s with mot := { s.mot with hold := .stopped, nip := .opening, nipTimer := .running 0 } })

/-- ESTOP completes where the input was inactive (02 R26, 05 R83): the fault is taken with v_ref as it stood, then
v_ref, the target and DRUM are 0, the nip is commanded open, and every loop that was not OFF is in FAULT with cause
ESTOP, its output, integrator, target and timers 0. ESTOP_RELEASE changes the input alone. -/
def Obligations.EstopStopsTheLine : Prop :=
  (∀ s : State, s.pins.estop = false →
    ∃ t, exec .estop s = .next t ∧ FaultTaken .estop none s t ∧ Keeps (touches .estop) s t
      ∧ t.pins = { s.pins with estop := true } ∧ t.mot.vref = 0 ∧ t.mot.target = 0 ∧ t.mot.drum = 0
      ∧ (t.mot.nip = .opening ∨ t.mot.nip = .opened)
      ∧ ∀ l, (t.ten.get l) =
          if (s.ten.get l).state = .off then s.ten.get l
          else { s.ten.get l with
            state := .fault, out := 0, integ := 0, target := 0, brkTimer := 0, overTimer := 0,
            cause := some .estop })
  ∧ ∀ s : State, exec .estopRelease s = .next { s with pins := { s.pins with estop := false } }

/-- The ramp target and the step of v_ref at the sample (02 R26, R28, R29). SPEED_AND_TENSION_SAMPLE completes in every
state and in every order of the blocks (an operand, notes/assumptions/4.md); v_ref moves toward the target by at most
floor(a / 100) and never passes it, with the line and the move as a STALL, WEB_BREAK or OVER_TENSION raised before the
motion controller leaves them (R24); the drive goes back to FORWARD at v_ref 0 with no reverse jog MOVING, and DRUM
follows v_ref and the drive direction. In either order a HALTING line goes to FAULTED at v_ref 0 (R24); with no fault
latched, v_ref reaching 0 in STOPPING with the nip CLOSED starts the hold or, with t_hold 0, commands the nip open,
limits in the open pair taking the line to READY at once (R22, R32, R33), and line, nip and hold are else kept. In
either order of the blocks the counting unit closes the period of each channel and forms its measured speed from the
last ten (01 R8), and with v the v_ref it finds (the order is an operand, notes/assumptions/4.md) the silence timers
run in the channels of the mask while v is 1,000 or more (R9), and the stall timer counts while DC moves at less than
half of v, raising STALL at 500 ms (R10). -/
def Obligations.GovernorMovesTowardItsTarget : Prop :=
  (∀ (lc0 lc1 lc2 : Int) (countAfter tensionAfter : Bool) (s : State), ParamsOk s →
    ∃ t, exec (.speedAndTensionSample lc0 lc1 lc2 countAfter tensionAfter) s = .next t
      ∧ Keeps [.cnt, .mot, .ten, .pq, .head, .flt] s t
      ∧ let stalls := countAfter = false ∧ 1000 ≤ s.mot.vref ∧ 2 * |t.cnt.chan.drum.speed| < s.mot.vref
          ∧ s.cnt.stall < 500 ∧ 490 ≤ s.cnt.stall
        let trips := tensionAfter = false ∧ ∃ l ∈ Loop.all, (s.ten.get l).state ≠ .fault ∧ (t.ten.get l).state = .fault
          ∧ ((t.ten.get l).cause = some .webBreak ∨ (t.ten.get l).cause = some .overTension)
        let line := if stalls ∨ trips then faultLine s.mot.line s.mot.vref else s.mot.line
        let moves := s.mot.seek.state = .moving ∧ ¬(stalls ∨ trips)
        let target : Int :=
          if s.pins.estop = true then 0
          else if line = .running ∧ s.mot.nip = .closed then
            let v := min (min s.par.vSet s.par.vMax) (max s.dose.vDose s.par.vFloor)
            match s.trg.effects.cap with
            | none => v
            | some cap => min v cap
          else if line = .threading ∧ moves then
            if s.mot.seek.remaining ≤ s.mot.vref * s.mot.vref / (2 * s.par.aDn) then 0 else min s.par.vJog s.par.vMax
          else 0
        let down := if line = .halting then s.par.aHalt / 100 else s.par.aDn / 100
        t.mot.vref = (if s.pins.estop = true then 0
          else if s.mot.vref < target then min target (s.mot.vref + s.par.aUp / 100)
          else if target < s.mot.vref then max target (s.mot.vref - down)
          else s.mot.vref)
      ∧ min s.mot.vref target ≤ t.mot.vref ∧ t.mot.vref ≤ max s.mot.vref target
      ∧ (t.mot.vref = s.mot.vref → s.pins.estop = false → s.mot.vref = target)
      ∧ t.mot.drum = (if t.mot.drive = .forward then t.mot.vref / 50 else -(t.mot.vref / 50))
      ∧ t.mot.drive =
          (if t.mot.vref = 0 ∧ ¬(moves ∧ s.mot.seek.kind = .jog ∧ s.mot.seek.dir = .reverse)
          then .forward else s.mot.drive))
  ∧ (∀ (lc0 lc1 lc2 : Int) (countAfter tensionAfter : Bool) (s : State),
    ∃ t, exec (.speedAndTensionSample lc0 lc1 lc2 countAfter tensionAfter) s = .next t
      ∧ (s.mot.line = .halting →
          if t.mot.vref = 0 then
            t.mot.line = .faulted ∧ Noticed (.stateChange .halting .faulted .haltComplete) s t
          else t.mot.line = .halting)
      ∧ (s.mot.line ≠ .halting → t.flt.latch = none →
          let ends := s.mot.line = .stopping ∧ s.mot.nip = .closed ∧ 0 < s.mot.vref ∧ t.mot.vref = 0
          let rest := { t.mot with line := s.mot.line, nip := s.mot.nip, nipTimer := s.mot.nipTimer, hold := s.mot.hold }
          t.mot =
            if ¬ends then rest
            else if s.par.tHold ≠ 0 then { rest with hold := .running 0 }
            else if s.pins.openPair = false then { rest with nip := .opening, nipTimer := .running 0 }
            else { rest with nip := .opened, nipTimer := .stopped, line := .ready }))
  ∧ ∀ (lc0 lc1 lc2 : Int) (countAfter tensionAfter : Bool) (s : State),
    ∃ t, exec (.speedAndTensionSample lc0 lc1 lc2 countAfter tensionAfter) s = .next t
      ∧ let v := if countAfter = true then t.mot.vref else s.mot.vref
        let lag := 1000 ≤ v ∧ 2 * |t.cnt.chan.drum.speed| < v
        (∀ ch,
          let c := s.cnt.chan.get ch
          let hist := (c.period :: c.hist).take 10
          t.cnt.chan.get ch =
            { c with
              hist := hist, period := 0, speed := 10 * hist.sum
              silence := if s.par.silMask.get ch = false ∨ v < 1000 then .stopped
                else if s.cnt.fast = true then c.silence else .running 0 })
        ∧ t.cnt = { s.cnt with
            chan := t.cnt.chan, fast := decide (1000 ≤ v)
            stall := if lag then min 500 (s.cnt.stall + 10) else 0 }
        ∧ (lag → s.cnt.stall < 500 → 490 ≤ s.cnt.stall → Raised .stall (some 2) s t)

/-- SEEK and JOG (02 R35, R36): the refusals in their order, and the record a taken one fills. SEEK_STOP, SEEK_RESUME
and SEEK_DISTANCE_REACHED (R37, R38): a MOVING move is suspended, a SUSPENDED one goes on or, with nothing left, ends;
a MOVING one whose distance is covered ends at PP. A notice due is sent at the first sample that finds v_ref 0, with
the overshoot of an ENDED move (R38; the model's reading of it, notes/assumptions/12.md). The model's choices: a SEEK
sets the drive direction FORWARD (notes/assumptions/25.md), an unknown direction or condition is RANGE (21.md),
SEEK_DISTANCE_REACHED ends the move whatever distance is left (2.md). A count update of PP takes |new - old| from the
distance left of a MOVING or SUSPENDED move, not below 0; a MOVING one left with 0 ends with DISTANCE at the new PP
(R37). -/
def Obligations.MovesFollowTheirCommands : Prop :=
  ((∀ (tag : Byte) (distance : Int) (cond : Nat) (s : State), s.takes →
    let c : Instr := .seek tag distance cond
    if distance < 1 ∨ 10000000 < distance ∨ 2 < cond then Refused c 0x17 tag .range s
    else if s.mot.line ≠ .threading then Refused c 0x17 tag .state s
    else if 0 < s.mot.vref ∨ s.mot.seek.state = .moving then Refused c 0x17 tag .busy s
    else
      ∃ k, SeekCond.code k = cond ∧
        Answered c 0x17 tag .ok [] s
          { s.acting with
            mot := { s.mot with
              drive := .forward
              seek := ⟨.moving, .seek, .forward, distance, k, none, none, false⟩ } })
  ∧ ∀ (tag : Byte) (direction : Nat) (distance : Int) (s : State), s.takes →
    let c : Instr := .jog tag direction distance
    if distance < 1 ∨ 200000 < distance ∨ 1 < direction then Refused c 0x16 tag .range s
    else if s.mot.line ≠ .threading then Refused c 0x16 tag .state s
    else if 0 < s.mot.vref ∨ s.mot.seek.state = .moving then Refused c 0x16 tag .busy s
    else if direction = 1 ∧ ∃ p ∈ s.pq.queue, p.state ≠ .queued then Refused c 0x16 tag .state s
    else
      ∃ d, Dir.code d = direction ∧
        Answered c 0x16 tag .ok [] s
          { s.acting with
            mot := { s.mot with
              drive := d, seek := ⟨.moving, .jog, d, distance, .none, none, none, false⟩ } })
  ∧ ((∀ (tag : Byte) (s : State), s.takes →
    if s.mot.line ≠ .threading then Refused (.seekStop tag) 0x18 tag .state s
    else if s.mot.seek.state ≠ .moving then Answered (.seekStop tag) 0x18 tag .ok [] s s.acting
    else
      Answered (.seekStop tag) 0x18 tag .ok [] s
        { s.acting with
          mot := { s.mot with
            seek := { s.mot.seek with state := .suspended, cause := some .stopped, due := true } } })
  ∧ (∀ (tag : Byte) (s : State), s.takes →
    let k := s.mot.seek
    if s.mot.line ≠ .threading ∨ k.state ≠ .suspended then Refused (.seekResume tag) 0x19 tag .state s
    else if k.kind = .jog ∧ k.dir = .reverse ∧ ∃ p ∈ s.pq.queue, p.state ≠ .queued then
      Refused (.seekResume tag) 0x19 tag .state s
    else if 0 < k.remaining then
      Answered (.seekResume tag) 0x19 tag .ok [] s
        { s.acting with
          mot := { s.mot with
            drive := k.dir, seek := { k with state := .moving, cause := none, due := false } } }
    else
      Answered (.seekResume tag) 0x19 tag .ok [] s
        { s.acting with
          mot := { s.mot with
            seek := { k with state := .ended, cause := some .distance, endPos := some s.pp, due := true } } })
  ∧ (∀ s : State, s.mot.seek.state = .moving →
      exec .seekDistanceReached s =
        .next { s with
          mot := { s.mot with
            seek := { s.mot.seek with
              state := .ended, remaining := 0, cause := some .distance, endPos := some s.pp, due := true } } }))
  ∧ (∀ (ticks : Ticks) (s : State),
    (s.cnt.chan.paper.take ticks).overrange = s.cnt.chan.paper.overrange →
    let new := (s.cnt.chan.paper.take ticks).count
    let k := s.mot.seek
    let left := max 0 (k.remaining - |new - s.pp|)
    ∃ t, exec (.tickBatch .paper ticks) s = .next t
      ∧ t.mot = { s.mot with
          seek :=
            if new = s.pp ∨ k.state = .idle ∨ k.state = .ended then k
            else if k.state = .moving ∧ left = 0 then
              { k with state := .ended, remaining := 0, cause := some .distance, endPos := some new, due := true }
            else { k with remaining := left } })
  ∧ ∀ (lc0 lc1 lc2 : Int) (countAfter tensionAfter : Bool) (s : State), s.mot.seek.state ≠ .moving →
    ∃ t, exec (.speedAndTensionSample lc0 lc1 lc2 countAfter tensionAfter) s = .next t
      ∧ let k := s.mot.seek
        let here := if k.cause = some .condition ∧ k.cond = .splice then s.fp else s.pp
        let overshoot := if k.state = .ended then k.endPos.map (here - ·) else none
        if k.due = true ∧ t.mot.vref = 0 then
          t.mot.seek = { k with due := false }
          ∧ Noticed (.seekEnded k.kind k.cause k.endPos k.remaining overshoot) s t
        else t.mot.seek = k

/-- START (02 R21): in READY and STOPPING the line goes to RUNNING, the hold stops and the nip is commanded closed; in
RUNNING nothing changes; elsewhere STATE; a taken START ends in a test for a placement decision (07 R115). STOP (R22):
in RUNNING the line goes to STOPPING with target 0, and a nip still CLOSING is commanded open; in STOPPING nothing
changes; elsewhere STATE. THREAD_ENTER and THREAD_EXIT as R23 says. The link silence timer starts from 0 at a change
from READY to RUNNING or THREADING, where T_link is not 0, and stops at a change to READY (10 R175). -/
def Obligations.LineCommandsMoveTheLine : Prop :=
  let fresh := fun s : State => if s.par.tLink = 0 then Timer.stopped else .running 0
  ((∀ (tag : Byte) (s : State), s.takes →
    if s.mot.line = .ready ∨ s.mot.line = .stopping then
      ∃ t, Answered (.start tag) 0x12 tag .ok [] s t ∧ Keeps [.mot, .pq, .head, .flt] s.acting t
        ∧ t.mot = { s.mot with line := .running, hold := .stopped, nip := t.mot.nip, nipTimer := t.mot.nipTimer }
        ∧ t.nipCmd = true ∧ t.flt.link = (if s.mot.line = .ready then fresh s else s.acting.flt.link)
        ∧ (∃ u, t = decide_ u ∧ Keeps [.mot, .flt] s.acting u ∧ u.mot = t.mot)
        ∧ (s.mot.nip = .closed → t.mot.nip = .closed)
        ∧ (s.mot.nip = .opening ∨ s.mot.nip = .opened → s.pins.closedPair = false →
            t.mot.nip = .closing ∧ t.mot.nipTimer = .running 0)
    else if s.mot.line = .running then Answered (.start tag) 0x12 tag .ok [] s s.acting
    else Refused (.start tag) 0x12 tag .state s)
  ∧ ∀ (tag : Byte) (s : State), s.takes →
    if s.mot.line = .running then
      ∃ t, Answered (.stop tag) 0x13 tag .ok [] s t ∧ Keeps [.mot, .flt] s.acting t
        ∧ t.mot.target = 0 ∧ t.mot.vref = s.mot.vref
        ∧ t.flt.link = (if t.mot.line = .stopping then s.acting.flt.link else .stopped)
        ∧ (s.mot.nip = .closed → 0 < s.mot.vref → t.mot = { s.mot with line := .stopping, target := 0 })
        ∧ (s.mot.nip = .closed → s.mot.vref = 0 → 0 < s.par.tHold →
            t.mot = { s.mot with line := .stopping, target := 0, hold := .running 0 })
        ∧ (s.mot.nip = .closing ∨ s.mot.nip = .closed ∧ s.mot.vref = 0 ∧ s.par.tHold = 0 →
            s.pins.openPair = false →
            t.mot.line = .stopping ∧ t.mot.nip = .opening ∧ t.mot.nipTimer = .running 0)
    else if s.mot.line = .stopping then Answered (.stop tag) 0x13 tag .ok [] s s.acting
    else Refused (.stop tag) 0x13 tag .state s)
  ∧ ((∀ (tag : Byte) (s : State), s.takes →
    if s.mot.line = .ready then
      ∃ t, Answered (.threadEnter tag) 0x14 tag .ok [] s t ∧ Keeps [.mot, .flt] s.acting t
        ∧ t.mot = { s.mot with line := .threading } ∧ t.flt.link = fresh s
    else if s.mot.line = .threading then Answered (.threadEnter tag) 0x14 tag .ok [] s s.acting
    else Refused (.threadEnter tag) 0x14 tag .state s)
  ∧ ∀ (tag : Byte) (s : State), s.takes →
    if s.mot.line = .threading ∧ s.mot.vref = 0 ∧ s.mot.seek.state ≠ .moving then
      ∃ t, Answered (.threadExit tag) 0x15 tag .ok [] s t ∧ Keeps [.mot, .flt] s.acting t
        ∧ t.mot = { s.mot with line := .ready, seek := t.mot.seek } ∧ t.mot.seek.state = .idle
        ∧ t.flt.link = .stopped
    else Refused (.threadExit tag) 0x15 tag .state s)

/-- CLEAR_FAULT (10 R170, 02 R25): OK with the latch empty; BUSY in HALTING; PERSISTS with the first recorded cause
whose condition holds and its least instance; else the latch is emptied, the line state set from the heat state, and
the loops in FAULT go to OFF. The conditions are those of the table of 10.1: the over value is that of the loop's last
sample (05 R88; notes/assumptions/31.md), the drum lags as 01 R10 says, a silence timer stands with v_ref at 1,000 ws/s
or more (R9); WEB_BREAK, SPLICE_OVERFLOW and LINK_LOST never persist. -/
def Obligations.ClearFaultEmptiesTheLatch : Prop :=
  (∀ s : State,
    let zone := fun (flag : ZoneRec → Prop) (i : Option Nat) => ∃ z : Zone, i = some z.num ∧ flag (s.heat.zones.get z)
    let holds : Cause → Option Nat → Prop := fun c i => match c with
      | .webBreak | .spliceOverflow | .linkLost => False
      | .overTension => ∃ l : Loop, i = some l.num ∧ (s.ten.get l).state = .fault
          ∧ (s.ten.get l).cause = some .overTension
          ∧ ∃ w, (s.ten.get l).set = some w ∧ w * (s.ten.get l).fOver / 100 < (s.ten.get l).force
      | .overheat => zone (fun r => r.overheat = true) i
      | .drumCold => zone (fun r => r.cold = true) i
      | .zoneSensor => zone (fun r => r.sensor = .lost) i
      | .mainsLost => i = none ∧ s.heat.lost = true
      | .nipTimeout => i = none ∧ ∃ ms, s.mot.nipTimer = .standing ms
      | .stall => i = some 2 ∧ 1000 ≤ s.mot.vref ∧ 2 * |s.cnt.chan.drum.speed| < s.mot.vref
      | .encoderSilent => 1000 ≤ s.mot.vref
          ∧ ∃ k : Chan, i = some k.num ∧ ∃ ms, (s.cnt.chan.get k).silence = .standing ms
      | .positionRange => ∃ k : Chan, i = some k.num ∧ k ≠ .drum ∧ (s.cnt.chan.get k).overrange = true
      | .estop => i = none ∧ s.pins.estop = true
    ∀ c, (s.persists c = none ↔ ∀ i, ¬holds c i)
      ∧ ∀ i, s.persists c = some i ↔ holds c i ∧ ∀ j, holds c j → i.getD 0 ≤ j.getD 0)
  ∧ ∀ (tag : Byte) (s : State), s.takes →
    let c : Instr := .clearFault tag
    match s.flt.latch with
    | none => Answered c 0x58 tag .ok [] s s.acting
    | some r =>
        if s.mot.line = .halting then Refused c 0x58 tag .busy s
        else
          match (r.cause :: Cause.all.filter (· ∈ s.flt.further)).find? (fun k => (s.persists k).isSome) with
          | some k => Refused c 0x58 tag (.persists k ((s.persists k).getD none)) s
          | none =>
              ∃ t, Answered c 0x58 tag .ok [] s t ∧ Keeps [.mot, .ten, .flt] s.acting t
                ∧ t.flt.latch = none ∧ t.flt.further = [] ∧ t.flt.furtherCount = 0
                ∧ t.mot = { s.mot with
                    line := if s.heat.on = false then .off else if s.heat.ready = true then .ready else .warming }
                ∧ ∀ l, t.ten.get l =
                    if (s.ten.get l).state = .fault then
                      { s.ten.get l with
                        state := .off, out := 0, integ := 0, work := 0, target := 0, brkTimer := 0,
                        overTimer := 0, cause := none }
                    else s.ten.get l

/-! ## Heat (03) -/

/-- SET_DRUM (03 R42): the refusals in their order, and what a taken one writes; a zone that becomes enabled starts
afresh, one that becomes disabled stops firing. HEAT_ON in OFF with an empty latch and values in range turns heat on
and sends the line to WARMING (02 R18, 03 R43); with a latched record it is refused with STATE; in the states with heat
on it is SET_DRUM. HEAT_OFF turns heat and every SSR off, the loops and the line go to OFF; in OFF it changes nothing;
elsewhere STATE (02 R20, 03 R43, 05 R83). Bits of a mask beyond Z5 name no zone (the model's reading,
notes/assumptions/24.md). -/
def Obligations.HeatCommandsAct : Prop :=
  (∀ (tag : Byte) (setpoint : Int) (offsets : Six Int) (mask : Nat) (s : State), s.takes →
    let c : Instr := .setDrum tag setpoint offsets mask
    let named := fun z : Zone => mask.testBit z.num
    let old := fun z => s.heat.zones.get z
    if s.heat.on = false then Refused c 0x20 tag .state s
    else if setpoint < 1000 ∨ 2600 < setpoint ∨ (∃ z ∈ Zone.all, offsets.get z < -100 ∨ 100 < offsets.get z)
        ∨ (∀ z ∈ Zone.all, named z = false)
        ∨ (∃ z ∈ Zone.all, named z = true ∧ s.par.thAbs < setpoint + offsets.get z) then
      Refused c 0x20 tag .range s
    else if (∃ z ∈ Zone.all, named z ≠ (old z).enable)
        ∧ (s.mot.line = .running ∨ s.mot.line = .stopping ∨ s.mot.line = .halting) then
      Refused c 0x20 tag .state s
    else
      ∃ t, Answered c 0x20 tag .ok [] s t ∧ Keeps [.heat] s.acting t
        ∧ { t.heat with zones := s.heat.zones, setpoint := s.heat.setpoint } = s.heat
        ∧ t.heat.setpoint = setpoint
        ∧ ∀ z, t.heat.zones.get z =
            if named z = (old z).enable then { old z with offset := offsets.get z }
            else if named z = true then
              { old z with
                enable := true, offset := offsets.get z, integ := 0, demand := 0, credit := 0, shortCount := 0,
                hist := [], invalid := 0, sensor := .normal, hold := .stopped, raised := false, inBand := false,
                overheat := false, cold := false }
            else
              { old z with
                enable := false, offset := offsets.get z, ssr := false, demand := 0, integ := 0, credit := 0,
                hist := [], shortfall := false, shortCount := 0, inBand := false, cold := false, raised := false,
                sensor := .normal, hold := .stopped })
  ∧ ((∀ (tag : Byte) (setpoint : Int) (offsets : Six Int) (mask : Nat) (s : State), s.takes →
    let c : Instr := .heatOn tag setpoint offsets mask
    if drumRange s.par.thAbs setpoint offsets mask = false then Refused c 0x10 tag .range s
    else if s.flt.latch ≠ none ∨ s.mot.line = .halting then Refused c 0x10 tag .state s
    else if s.mot.line = .off then
      ∃ t, Answered c 0x10 tag .ok [] s t ∧ Keeps [.mot, .heat, .flt] s.acting t
        ∧ t.mot = { s.mot with line := .warming }
        ∧ t.heat = { on := true, setpoint := setpoint, lostTimer := .running 0, zones := t.heat.zones }
        ∧ ∀ z, t.heat.zones.get z =
            { s.heat.zones.get z with
              enable := mask.testBit z.num, offset := offsets.get z, integ := 0, demand := 0, credit := 0,
              shortCount := 0, hist := [], invalid := 0, sensor := .normal, hold := .stopped, inBand := false,
              cold := false, raised := false }
    else s.mot.line ≠ .faulted → ∀ t r, setDrumOp setpoint offsets mask s.acting = (t, r) →
      Answered c 0x10 tag r.status r.data s t)
  ∧ ∀ (tag : Byte) (s : State), s.takes →
    let c : Instr := .heatOff tag
    if s.mot.line = .off then Answered c 0x11 tag .ok [] s s.acting
    else if s.mot.line = .running ∨ s.mot.line = .stopping ∨ s.mot.line = .halting
        ∨ s.mot.line = .threading ∧ (0 < s.mot.vref ∨ s.mot.seek.state = .moving) then
      Refused c 0x11 tag .state s
    else
      ∃ t, Answered c 0x11 tag .ok [] s t ∧ Keeps [.mot, .heat, .ten, .flt] s.acting t
        ∧ t.mot = { s.mot with line := .off } ∧ t.flt.latch = s.flt.latch
        ∧ t.heat.on = false ∧ t.heat.ready = false ∧ t.heat.settle = .stopped ∧ t.heat.lostTimer = .stopped
        ∧ t.heat.lost = false ∧ t.heat.excursion = false ∧ t.heat.freq = .none
        ∧ t.heat.setpoint = s.heat.setpoint ∧ t.heat.pointer = s.heat.pointer
        ∧ (∀ z, t.heat.zones.get z =
            { s.heat.zones.get z with
              ssr := false, demand := 0, integ := 0, credit := 0, hist := [], shortfall := false,
              shortCount := 0, inBand := false, cold := false, raised := false, sensor := .normal,
              hold := .stopped, invalid := 0 })
        ∧ ∀ l, t.ten.get l =
            { s.ten.get l with
              state := .off, out := 0, integ := 0, work := 0, target := 0, brkTimer := 0, overTimer := 0,
              cause := none })

/-- TEMPERATURE_SAMPLE completes in every state. Each zone takes its reading and validity, and a VALID one as its last
valid reading (03 R44); the OVERHEAT flag is the judgement of that reading against the limits (R49). An enabled zone
with heat on, a VALID reading and no OVERHEAT is NORMAL (R45), its demand is floor(k_p e / 16) plus the integrator,
clamped to 0 to 1000, and the integrator takes its step unless the demand is clamped the way e pushes; with OVERHEAT
the demand is 0, the integrator is kept and the 0 joins the history (R48). An enabled zone with heat on and an INVALID
reading counts it: at three it enters HOLD with the average of its demand history, after 10,000 ms in HOLD it is LOST,
and LOST is raised in RUNNING and STOPPING (R45, R46). A zone newly over its limits raises OVERHEAT (R49), in RUNNING
one newly below its cold limit DRUM_COLD (R50). The zones in band, the settle timer, readiness, and with no fault the
line, follow (R51, 02 R19); the line state judged is that at the start of the sample (notes/assumptions/8.md). Two more
of its clauses are the model's choices: DRUM_COLD's flag is clear outside RUNNING whatever the reading, and in RUNNING
kept by a disabled zone and at an INVALID reading (notes/assumptions/15.md); a zone in HOLD, or not yet there, keeps
its demand as it stands, 0 after a cleared OVERHEAT (37.md). -/
def Obligations.TemperatureSampleReadsJudgesAndDrives : Prop :=
  (∀ (readings : Six (Option Int)) (s : State), ∃ t, exec (.temperatureSample readings) s = .next t
    ∧ Keeps (touches (.temperatureSample readings)) s t
    ∧ t.heat.on = s.heat.on ∧ t.heat.setpoint = s.heat.setpoint
    ∧ ∀ z,
      let r := s.heat.zones.get z
      let r' := t.heat.zones.get z
      let valid := ∃ v, readings.get z = some v ∧ 0 ≤ v ∧ v ≤ 3000
      let limit := s.heat.setpoint + r.offset + 150
      r'.enable = r.enable ∧ r'.offset = r.offset
      ∧ r'.reading = (match readings.get z with | some v => .temp v | none => .opened)
      ∧ (r'.valid = some true ↔ valid) ∧ r'.valid ≠ none
      ∧ (valid → readings.get z = some r'.lastValid) ∧ (¬valid → r'.lastValid = r.lastValid)
      ∧ (r'.overheat = true ↔ s.par.thAbs < r'.lastValid ∨
          s.heat.on = true ∧ r.enable = true ∧ limit < r'.lastValid)
      ∧ (r'.overheat = true → r'.demand = 0 ∧ r'.credit = 0 ∧ r'.shortfall = false)
      ∧ (s.heat.on = false ∨ r.enable = false → r'.sensor = r.sensor ∧ r'.hold = r.hold ∧ r'.integ = r.integ
          ∧ r'.hist = r.hist ∧ r'.invalid = r.invalid))
  ∧ (∀ (readings : Six (Option Int)) (s : State) (z : Zone) (v : Int),
    s.heat.on = true → (s.heat.zones.get z).enable = true → readings.get z = some v → 0 ≤ v → v ≤ 3000 →
    v ≤ s.par.thAbs → v ≤ s.heat.setpoint + (s.heat.zones.get z).offset + 150 →
    ∃ t, exec (.temperatureSample readings) s = .next t
      ∧ let r := s.heat.zones.get z
        let r' := t.heat.zones.get z
        let e := s.heat.setpoint + r.offset - v
        let u := s.par.kP * e / 16 + r.integ
        r'.demand = max 0 (min 1000 u)
        ∧ r'.integ = (if 1000 < u ∧ 0 < e ∨ u < 0 ∧ e < 0 then r.integ
            else max 0 (min 1000 (r.integ + s.par.kI * e / 256)))
        ∧ r'.hist = (if r.hist.length < 10 then r.hist else r.hist.tail) ++ [r'.demand]
        ∧ r'.sensor = .normal ∧ r'.invalid = 0 ∧ r'.overheat = false)
  ∧ (∀ (readings : Six (Option Int)) (s : State) (z : Zone) (v : Int),
    s.heat.on = true → (s.heat.zones.get z).enable = true → readings.get z = some v → 0 ≤ v → v ≤ 3000 →
    s.par.thAbs < v ∨ s.heat.setpoint + (s.heat.zones.get z).offset + 150 < v →
    ∃ t, exec (.temperatureSample readings) s = .next t
      ∧ let r := s.heat.zones.get z
        let r' := t.heat.zones.get z
        r'.overheat = true ∧ r'.demand = 0 ∧ r'.integ = r.integ ∧ r'.sensor = .normal ∧ r'.invalid = 0
        ∧ r'.hist = (if r.hist.length < 10 then r.hist else r.hist.tail) ++ [0])
  ∧ (∀ (readings : Six (Option Int)) (s : State) (z : Zone),
    s.heat.on = true → (s.heat.zones.get z).enable = true →
    (∀ v, readings.get z = some v → v < 0 ∨ 3000 < v) →
    ∃ t, exec (.temperatureSample readings) s = .next t
      ∧ let r := s.heat.zones.get z
        let r' := t.heat.zones.get z
        let n := min 3 (r.invalid + 1)
        let critical := s.mot.line = .running ∨ s.mot.line = .stopping
        let reports := if critical then Raised .zoneSensor (some z.num) s t ∧ r'.raised = true
          else Noticed (.warning (.zoneSensor z)) s t
        let held := match r.hold with | .running ms => decide (10000 ≤ ms) | .standing _ => true | .stopped => false
        r'.invalid = n ∧ r'.integ = r.integ ∧ r'.hist = r.hist
        ∧ match r.sensor with
          | .normal =>
              if n = 3 then
                r'.sensor = .hold ∧ r'.hold = .running 0
                ∧ r'.demand = if r'.overheat = true ∨ r.hist = [] then 0 else r.hist.sum / r.hist.length
              else r'.sensor = .normal ∧ r'.hold = r.hold ∧ r'.demand = if r'.overheat = true then 0 else r.demand
          | .hold =>
              if held = true then
                r'.sensor = .lost ∧ r'.hold = .stopped ∧ r'.demand = 0 ∧ r'.credit = 0 ∧ r'.shortfall = false
                ∧ r'.ssr = false ∧ reports
              else r'.sensor = .hold ∧ r'.hold = r.hold ∧ r'.demand = if r'.overheat = true then 0 else r.demand
          | .lost => r'.sensor = .lost ∧ (critical → r.raised = false → reports))
  ∧ ∀ (readings : Six (Option Int)) (s : State), ∃ t, exec (.temperatureSample readings) s = .next t
    ∧ let set := fun z => s.heat.setpoint + (s.heat.zones.get z).offset
      let valid := fun z => ∃ v ∈ readings.get z, 0 ≤ v ∧ v ≤ 3000
      let usable := fun z => (s.heat.zones.get z).enable = true ∧ (t.heat.zones.get z).sensor = .normal ∧ valid z
      let off := fun z => |(t.heat.zones.get z).lastValid - set z|
      let all := ∀ z ∈ Zone.all, (s.heat.zones.get z).enable = true → usable z ∧ off z ≤ s.par.bReady
      (∀ z, let r := s.heat.zones.get z
        let r' := t.heat.zones.get z
        (r'.overheat = true → r.overheat = false → Raised .overheat (some z.num) s t)
        ∧ (r'.cold = true ↔ s.mot.line = .running ∧
            if r.enable = true ∧ valid z then r'.lastValid < set z - 300 else r.cold = true)
        ∧ (r'.cold = true → r.cold = false → Raised .drumCold (some z.num) s t)
        ∧ (s.heat.on = true → (r'.inBand = true ↔ usable z ∧ off z ≤ s.par.bReady)))
      ∧ (s.heat.on = true →
          t.heat.settle =
            (if all then
              match s.heat.settle with
              | .stopped => .running 0
              | .running ms => .running (min 600000 (ms + 100))
              | .standing ms => .standing ms
            else .stopped)
          ∧ (t.heat.ready = true ↔ match t.heat.settle with
            | .stopped => False
            | .running ms | .standing ms => s.par.tSettle * 1000 ≤ (ms : Int)))
      ∧ (s.heat.on = false → t.heat.settle = s.heat.settle ∧ t.heat.ready = s.heat.ready)
      ∧ (t.flt.latch = none →
          t.mot = { s.mot with
            line :=
              if s.heat.on = true ∧ s.mot.line = .warming ∧ t.heat.ready = true then .ready
              else if s.heat.on = true ∧ s.mot.line = .ready ∧ (∃ z ∈ Zone.all, usable z ∧ s.par.bReady + 50 < off z) then .warming
              else s.mot.line })

/-- The zone events complete where what they count is under way, and bring it to its limit wherever it stands (the
model's choice, notes/assumptions/2.md): ZONE_HOLD (03 R45, with demand 0 where OVERHEAT is set, R49), ZONE_SENSOR
(R46; a warning outside RUNNING and STOPPING), READINESS, which needs every enabled zone in band (R51, 02 R19), and
ZONE_SHORTFALL (R53). -/
def Obligations.ZoneEventsAct : Prop :=
  (∀ (z : Zone) (s : State), s.heat.on = true → (s.heat.zones.get z).enable = true →
    (s.heat.zones.get z).sensor = .normal → 0 < (s.heat.zones.get z).invalid →
    ∃ t, exec (.zoneHold z) s = .next t ∧ Keeps [.heat] s t
      ∧ (t.heat.zones.get z).sensor = .hold ∧ (t.heat.zones.get z).hold = .running 0
      ∧ (t.heat.zones.get z).invalid = 3 ∧ (t.heat.zones.get z).integ = (s.heat.zones.get z).integ
      ∧ (t.heat.zones.get z).demand =
          (if (s.heat.zones.get z).overheat = true ∨ (s.heat.zones.get z).hist = [] then 0
          else (s.heat.zones.get z).hist.sum / (s.heat.zones.get z).hist.length))
  ∧ (∀ (z : Zone) (s : State), (s.heat.zones.get z).sensor = .hold →
    ∃ t, exec (.zoneSensor z) s = .next t ∧ Keeps (touches (.zoneSensor z)) s t
      ∧ (t.heat.zones.get z).sensor = .lost ∧ (t.heat.zones.get z).hold = .stopped
      ∧ (t.heat.zones.get z).demand = 0 ∧ (t.heat.zones.get z).credit = 0
      ∧ (t.heat.zones.get z).shortfall = false ∧ (t.heat.zones.get z).ssr = false
      ∧ (if s.mot.line = .running ∨ s.mot.line = .stopping then
          FaultTaken .zoneSensor (some z.num) s t ∧ (t.heat.zones.get z).raised = true
        else t.mot = s.mot ∧ t.flt.latch = s.flt.latch
          ∧ (s.flt.room = true → t.flt = s.flt.place (.notice s.cnt.clock (.warning (.zoneSensor z))))))
  ∧ (∀ s : State, s.heat.on = true → s.heat.settle.isRunning = true →
    (∃ z, (s.heat.zones.get z).enable = true ∧ (s.heat.zones.get z).inBand = false) → exec .readiness s = .next s)
  ∧ (∀ s : State, s.heat.on = true → s.heat.settle.isRunning = true →
    (∀ z, (s.heat.zones.get z).enable = true → (s.heat.zones.get z).inBand = true) →
    ∃ t, exec .readiness s = .next t ∧ Keeps (touches .readiness) s t ∧ t.heat.ready = true
      ∧ t.mot = (if s.mot.line = .warming then { s.mot with line := .ready } else s.mot))
  ∧ ∀ (z : Zone) (s : State), (s.heat.zones.get z).shortfall = true →
    (s.heat.zones.get z).shortCount < (if s.heat.freq = .hz60 then 600 else 500) →
    ∃ t, exec (.zoneShortfall z) s = .next t ∧ Keeps [.heat, .flt] s t
      ∧ (t.heat.zones.get z).shortCount = (if s.heat.freq = .hz60 then 600 else 500)
      ∧ (s.flt.room = true → t.flt = s.flt.place (.notice s.cnt.clock (.warning (.zoneShortfall z))))

/-- ZERO_CROSS_EDGE completes in every state (03 R52 to R56). With heat off it has no effect; it ends a mains loss or
starts the timing, firing no zone, whatever the gap before it (the model's reading, notes/assumptions/16.md); within
2.0 ms it is noise; else its period is measured, one outside the band where the one before was not being warned of as
MAINS_FREQ (R55), and at most m_fire zones are fired, each enabled, not LOST, not OVERHEAT, and paying 1000 of the
credit it then holds: the first m_fire candidates upward from the pointer, which then moves to the next enabled zone. A
credit that passes 2000 sets SHORTFALL, one left below 1000 clears it; the runs with the flag set before and after are
counted, and at 5 s of them ZONE_SHORTFALL is a warning (R53). -/
def Obligations.ZeroCrossFiresWithinTheLimit : Prop :=
  ∀ (gap : Nat) (s : State), ∃ t, exec (.zeroCrossEdge gap) s = .next t ∧ Keeps [.heat, .flt, .pins] s t
    ∧ t.pins = { s.pins with zc := !s.pins.zc }
    ∧ (s.heat.on = false → t.heat = s.heat)
    ∧ (s.heat.on = true → s.heat.lost = true ∨ s.heat.edgePending = false →
        t.heat.lost = false ∧ t.heat.edgePending = true ∧ t.heat.lostTimer = .running 0
        ∧ (s.heat.lost = true → t.heat.freq = .none ∧ t.heat.period = none)
        ∧ ∀ z, t.heat.zones.get z = { s.heat.zones.get z with ssr := false })
    ∧ (s.heat.on = true → s.heat.lost = false → s.heat.edgePending = true → gap < 200 → t.heat = s.heat)
    ∧ (s.heat.on = true → s.heat.lost = false → s.heat.edgePending = true → 200 ≤ gap →
        t.heat.period = some gap ∧ t.heat.lostTimer = .running 0
        ∧ (t.heat.excursion = true ↔ gap < 750 ∨ 1100 < gap)
        ∧ (t.heat.excursion = true → s.heat.excursion = false → Noticed (.warning (.mainsFreq gap)) s t)
        ∧ (s.heat.freq ≠ .none → t.heat.freq = s.heat.freq)
        ∧ (s.heat.freq = .none → t.heat.freq = if gap < 920 then .hz60 else .hz50)
        ∧ (Zone.all.countP fun z => (t.heat.zones.get z).ssr) ≤ s.par.mFire.toNat
        ∧ (∀ z, let r := s.heat.zones.get z
            let may := r.enable = true ∧ r.sensor ≠ .lost ∧ r.overheat = false
            let sum := min 2000 (r.credit + r.demand)
            ((t.heat.zones.get z).ssr = true →
              may ∧ 1000 ≤ sum ∧ (t.heat.zones.get z).credit = sum - 1000)
            ∧ ((t.heat.zones.get z).ssr = false →
              (t.heat.zones.get z).credit = if may then sum else r.credit))
        ∧ (let fired := fun z => (t.heat.zones.get z).ssr = true
          let sum := fun z => (s.heat.zones.get z).credit + (s.heat.zones.get z).demand
          let may := fun z => (s.heat.zones.get z).enable = true ∧ (s.heat.zones.get z).sensor ≠ .lost
            ∧ (s.heat.zones.get z).overheat = false
          let candidate := fun z => may z ∧ 1000 ≤ min 2000 (sum z)
          let rank := fun z : Zone => (z.num + 6 - s.heat.pointer.num) % 6
          let limit := if t.heat.freq = .hz60 then 600 else 500
          (∀ z, fired z ↔ candidate z
            ∧ (Zone.all.countP fun y => candidate y ∧ rank y < rank z) < s.par.mFire.toNat)
          ∧ (∀ z, (s.heat.zones.get z).enable = true →
              (∀ y, (s.heat.zones.get y).enable = true → (rank z + 5) % 6 ≤ (rank y + 5) % 6) →
              t.heat.pointer = z)
          ∧ ∀ z, let r := s.heat.zones.get z
              let r' := t.heat.zones.get z
              (r'.shortfall = true ↔ 1000 ≤ r'.credit ∧ (r.shortfall = true ∨ may z ∧ 2000 < sum z))
              ∧ (r'.shortfall = true → r.shortfall = false → r'.shortCount = 0)
              ∧ (r'.shortfall = true → r.shortfall = true → r'.shortCount = min limit (r.shortCount + 1))
              ∧ (r'.shortfall = true → r.shortfall = true → r.shortCount + 1 = limit →
                  Noticed (.warning (.zoneShortfall z)) s t)))

/-! ## Dose and tension (04, 05) -/

/-- The increment of a step count (04 R60), taken once on the whole product and rounded down: at 0 it is exactly
50,000, and it ranges from 195 to 766,082. The verdict of a panel that becomes DONE is the first of the table that
applies (R69), in the order R69 gives them. A forward count update of PP that reaches A + L + Lc of a panel that has
arrived, with its last probe points handled, makes it DONE (R68): the probes of it still in the list, the trailing one
among them, are folded at this update (R67), its verdict is set on the dose fields they leave, its result offered to
the profile table unless it is SPOILED or UNCERTAIN or was affected (R70), its cap held mark cleared (R71), and its
report placed, which retires it, or waits (07 R129). -/
def Obligations.DoseArithmeticFollowsItsTables : Prop :=
  ((∀ k : Int, -128 ≤ k → k ≤ 63 →
    let f : Nat := [65536, 68438, 71468, 74632, 77936, 81386, 84990, 88752,
      92682, 96785, 101070, 105545, 110218, 115098, 120194, 125515][(k % 16).toNat]?.getD 0
    increment k = 50000 * f * 2 ^ (k / 16 + 8).toNat / (65536 * 2 ^ 8) ∧ 195 ≤ increment k ∧ increment k ≤ 766082)
  ∧ increment 0 = 50000 ∧ increment (-128) = 195 ∧ increment 63 = 766082)
  ∧ (∀ (p : Panel) (d : DoseFields) (e : Entry),
    let lo := e.target * (100 - e.allowUnder) / 100
    let hi := e.target * (100 + e.allowOver) / 100
    verdictOf p d e =
      if p.verdict = some .spoiled then .spoiled
      else if d.uncertain = true ∨ (∀ z ∈ Zone.all, d.minima.get z = none) then .uncertain
      else if ∃ z ∈ Zone.all, ∃ m ∈ d.minima.get z, (m : Int) < lo then .underDose
      else if hi < (d.maximum.getD 0 : Nat) then .overDose
      else .good)
  ∧ ∀ (ticks : Ticks) (s : State), QueueOk s →
    let new := (s.cnt.chan.paper.take ticks).count
    s.pp < new → ∀ q ∈ s.pq.queue, ∀ d, q.dose = some d → ∀ a, q.arrival = some a → q.arrived = true →
    q.state ≠ .printing → q.state ≠ .done → a + q.length + s.par.arcLen ≤ new → d.next = none → d.final = false →
    (∀ b ∈ s.dose.probes.dropWhile fun b => decide (b.exit ≤ new), ∀ o ∈ b.owners, o.tag ≠ q.tag) →
    ∃ t, exec (.tickBatch .paper ticks) s = .next t
      ∧ let gone := s.leaving q.tag new
        let d' := d.after gone q.tag
        let v := verdictOf q d' (s.prf.entry q.profile)
        let f := q.flags.after gone
        let affected := f.stopAffected = true ∨ f.nipOpen = true ∨ f.spliceAffected = true ∨ f.excluded = true
          ∨ f.sparse = true
        let q' := { q with
          state := .done, verdict := some v, dose := some { d' with capHeld := false }, flags := f
          offered := decide (v ≠ .spoiled ∧ v ≠ .uncertain ∧ ¬affected) }
        (q' ∈ t.pq.queue ∧ q.tag ∈ t.pq.waiting)
          ∨ (∀ p ∈ t.pq.queue, p.tag ≠ q.tag) ∧ .notice s.cnt.clock (.panelReport q') ∈ t.flt.frames

/-- DOSE_SAMPLE completes in every state (04 R59, R66, R71, R72, R74). Each zone's step count and indications are
formed from its last valid reading; each probe keeps its place, loses the zones now disabled, and with the nip CLOSED
gains each zone's increment, saturating; H is Lc plus the braking distance; a panel with an A at or below PP + H holds
the cap; k_min is the least k of the enabled zones, D_max the greatest target of the panels that hold the cap, and
v_dose follows from them by R72; below the floor every panel in the arc is UNDERSPEED, with one DOSE_FLOOR for each run
of samples. -/
def Obligations.DoseSampleDosesTheProbes : Prop :=
  ∀ s : State, ∃ (t : State) (f : Six Factor), exec .doseSample s = .next t ∧ Keeps (touches .doseSample) s t
    ∧ t.dose.factors = some f
    ∧ (∀ z, let r := s.heat.zones.get z
        let k := 16 * (r.lastValid - s.par.thetaRef) / s.par.thetaStep
        (f.get z).k = min 63 k ∧ ((f.get z).clamped = true ↔ 63 < k)
        ∧ ((f.get z).uncertain = true ↔ r.sensor ≠ .normal ∨ 63 < k)
        ∧ (f.get z).incr = if k < -128 then 0 else increment (min 63 k))
    ∧ t.dose.probes.length = s.dose.probes.length
    ∧ (∀ (i : Nat) (b : Probe), s.dose.probes[i]? = some b → ∃ b' : Probe, t.dose.probes[i]? = some b'
        ∧ b'.owners = b.owners ∧ b'.entry = b.entry ∧ b'.exit = b.exit
        ∧ (∀ z, b'.zones.get z = (b.zones.get z && (s.heat.zones.get z).enable))
        ∧ (∀ z, b'.dose.get z = if s.mot.nip = .closed ∧ b'.zones.get z = true
            then min 4294967295 (b.dose.get z + (f.get z).incr) else b.dose.get z)
        ∧ (b'.nipOpen = true ↔ b.nipOpen = true ∨ s.mot.nip ≠ .closed)
        ∧ (b'.stopped = true ↔ b.stopped = true ∨ s.mot.nip = .closed ∧ s.mot.vref = 0)
        ∧ (b'.excluded = true ↔ b.excluded = true ∨ s.trg.effects.exclude = true)
        ∧ (b'.uncertain = true ↔
            b.uncertain = true ∨ ∃ z, b'.zones.get z = true ∧ (f.get z).uncertain = true))
    ∧ t.dose.horizon = some (s.par.arcLen + s.mot.vref * s.mot.vref / (2 * s.par.aDn))
    ∧ (let enabled := Zone.all.filter fun z => (s.heat.zones.get z).enable
      t.dose.kMin = (enabled.map fun z => (f.get z).k).min?)
    ∧ t.dose.dMax = ((t.pq.queue.filter fun p => (p.dose.map DoseFields.capHeld).getD false).map fun p =>
        (s.prf.entry p.profile).target).max?
    ∧ (t.dose.dMax = none → t.dose.vDose = s.par.vMax)
    ∧ (∀ d, t.dose.dMax = some d → ∀ k, t.dose.kMin = some k →
        let f : Nat := [65536, 68438, 71468, 74632, 77936, 81386, 84990, 88752,
          92682, 96785, 101070, 105545, 110218, 115098, 120194, 125515][(k % 16).toNat]?.getD 0
        let n := s.par.arcLen * 1000000 * f
        t.dose.vDose = (if k < -128 then 0
          else min s.par.vMax (n * 2 ^ (k / 16 + 8).toNat / (65536 * d * 2 ^ 8))))
    ∧ (let below := s.mot.line = .running ∧ t.dose.vDose < s.par.vFloor ∧ t.dose.vDose < s.mot.vref
      (t.dose.floorFlag = true ↔ below)
      ∧ t.pq = { s.pq with
          queue := s.pq.queue.map fun p =>
            { p with
              dose := p.dose.map fun d =>
                { d with
                  capHeld := d.capHeld || (decide (p.state ≠ .done)
                    && decide (∃ a ∈ p.arrival, a ≤ s.pp + s.par.arcLen + s.mot.vref * s.mot.vref / (2 * s.par.aDn))) }
              flags := { p.flags with
                underspeed := p.flags.underspeed
                  || (decide below && p.arrived && decide (p.state ≠ .done)) } } }
      ∧ t.flt = (if below ∧ s.dose.floorFlag = false then
          if s.flt.room = true then
            s.flt.place (.notice s.cnt.clock (.warning (.doseFloor t.dose.vDose t.dose.dMax)))
          else { s.flt with dropped := true }
        else s.flt))

/-- SPEED_AND_TENSION_SAMPLE completes in every state, in either order of the blocks, and each loop reads its cell,
clamped to -2,000 to 20,000 (05 R80). With v_ref as it stands when the tension unit takes the sample, each loop takes
the state of the first line of R82 that applies, but for one that raises WEB_BREAK or OVER_TENSION and enters FAULT: W
begins at the force, or the target if that is less, in a loop that was OFF and moves toward the target by at most the
slew rate (R84); the controller gives the output and the integrator its step in REGULATE and, but for FEED, in STANDBY,
and is held in HOLD (R85, R86, R83); the break and over timers count while the force is beyond its limit, and one that
reaches its time raises its fault (R87, R88). The limits read at the sample are those a fault and a reply then use
(R92, notes/assumptions/31.md). -/
def Obligations.LoopsTakeTheirStates : Prop :=
  ∀ (lc0 lc1 lc2 : Int) (countAfter tensionAfter : Bool) (s : State),
    ∃ t, exec (.speedAndTensionSample lc0 lc1 lc2 countAfter tensionAfter) s = .next t
      ∧ Keeps (touches (.speedAndTensionSample lc0 lc1 lc2 countAfter tensionAfter)) s t
      ∧ (t.ten.get .feed).force = max (-2000) (min 20000 lc1)
      ∧ (t.ten.get .unwind).force = max (-2000) (min 20000 lc0)
      ∧ (t.ten.get .rewind).force = max (-2000) (min 20000 lc2)
      ∧ (∀ l,
          let v := if tensionAfter = true then t.mot.vref else s.mot.vref
          let st : LoopState :=
            if s.heat.on = false then .off
            else if s.pins.estop = true ∨ (s.ten.get l).state = .fault then .fault
            else if s.loopSet l = none then .off
            else if v = 0 then .standby
            else if s.trg.effects.hold.get l = true then .hold
            else .regulate
          (t.ten.get l).set = s.loopSet l
          ∧ ((t.ten.get l).state = st ∨ (t.ten.get l).state = .fault ∧ (st = .regulate ∨ st = .hold))
          ∧ (st = .off ∨ (st = .fault ∧ (s.ten.get l).state ≠ .fault) → (t.ten.get l).out = 0))
      ∧ (∀ l,
          let r := s.ten.get l
          let r' := t.ten.get l
          let f := r'.force
          let nonzero := fun n : Int => if n = 0 then none else some n
          let set := match l with
            | .feed => s.trg.feed.bind fun n => nonzero (s.prf.entry n).feedTension
            | .unwind => nonzero s.par.tPaper
            | .rewind => s.trg.rewind.bind fun n => nonzero (s.prf.entry n).rewindTension
          let rest := (if tensionAfter = true then t.mot.vref else s.mot.vref) = 0
          let held := s.trg.effects.hold.get l = true
          let target := if rest then set.getD 0 * s.par.fStand / 100 else set.getD 0
          let w0 := if r.state = .off then (if f < 0 then 0 else min target f) else r.work
          let w := if w0 < target then min target (w0 + s.par.rSlew)
            else if target < w0 then max target (w0 - s.par.rSlew) else w0
          let e := if l = .feed then f - w else w - f
          let ff := match l with | .feed => 0 | .unwind => s.par.ffUnw | .rewind => s.par.ffRew
          let lo : Int := if l = .feed then -500 else 0
          let hi : Int := if l = .feed then 500 else 1000
          let u := ff + s.par.loopKp.get l * e / 64 + r.integ
          let drives := if rest then l ≠ .feed else ¬held
          let out := if drives then (if u < lo then lo else if hi < u then hi else u) else if rest then 0 else r.out
          let integ := if drives then
              (if hi < u ∧ 0 < e ∨ u < lo ∧ e < 0 then r.integ
                else max (-1000) (min 1000 (r.integ + s.par.loopKi.get l * e / 256)))
            else r.integ
          let brk := if ¬rest ∧ f < w * s.par.fBreak / 100 then min s.par.tBreak.toNat (r.brkTimer + 10) else 0
          let beyond := if ¬rest ∧ w * s.par.fOver / 100 < f then min s.par.tOver.toNat (r.overTimer + 10) else 0
          let read := { r with
            force := f, set := set, tBreak := s.par.tBreak, tOver := s.par.tOver, fOver := s.par.fOver }
          let fault := fun c => { read with
            state := .fault, out := 0, integ := 0, target := 0, brkTimer := 0, overTimer := 0, cause := some c }
          if s.heat.on = false ∨ s.pins.estop = false ∧ r.state ≠ .fault ∧ set = none then
            r' = { read with
              state := .off, out := 0, integ := 0, work := 0, target := 0, brkTimer := 0, overTimer := 0,
              cause := none }
          else if r.state = .fault then r' = read
          else if s.pins.estop = true then r' = fault .estop
          else if 0 < brk ∧ s.par.tBreak ≤ brk then
            r' = { fault .webBreak with work := w } ∧ Raised .webBreak (some l.num) s t
          else if 0 < beyond ∧ s.par.tOver ≤ beyond then
            r' = { fault .overTension with work := w } ∧ Raised .overTension (some l.num) s t
          else
            r' = { read with
              state := if rest then .standby else if held then .hold else .regulate
              target := target, work := w, out := out, integ := integ, brkTimer := brk, overTimer := beyond })

/-! ## Profiles (06) -/

/-- A lookup gives the valid entry with the exact key, else the valid entry with ink set 0, else MISS (06 R94);
PROFILE_FIND answers with it and its key, with RANGE for a key outside its ranges and MISS where there is none (R96).
-/
def Obligations.LookupFindsTheKey : Prop :=
  (∀ (t : Profiles) (media ink : Nat),
    let has := fun (n i : Nat) =>
      ∃ e, t.entries[n]? = some e ∧ e.valid = true ∧ e.media = media ∧ e.ink = i
    (∀ n, t.lookup media ink = some n → has n ink ∨ has n 0 ∧ ∀ m, ¬has m ink)
    ∧ (t.lookup media ink = none → ∀ m, ¬has m ink ∧ ¬has m 0))
  ∧ ∀ (tag : Byte) (media ink : Nat) (s : State), s.takes →
    let c : Instr := .profileFind tag media ink
    if media = 0 ∨ 65535 < media ∨ 15 < ink then Refused c 0x31 tag .range s
    else
      match s.prf.lookup media ink with
      | none => Refused c 0x31 tag .miss s
      | some n =>
          Answered c 0x31 tag .ok (u8 n ++ u16 (s.prf.entry n).media ++ u8 (s.prf.entry n).ink) s s.acting

/-- PROFILE_LOAD (06 R97 to R100): RANGE, then DUPLICATE for a numbered load whose key another entry has, IN_USE where
the entry to write holds references, FULL where a new key finds no place; a taken load writes that one entry, its
references kept, and for a new key moves the pointer one down from it. A new key goes to the first invalid entry of the
scan, which runs downward from the pointer to W and then from 31 to just above the pointer, else to its first entry
without references; FULL comes only where the scan holds neither (W 32 among them). The bytes of an absent replaced key
are the model's choice (notes/assumptions/14.md). The ranges are those of the table of R93. -/
def Obligations.ProfileLoadWritesOneEntry : Prop :=
  (∀ f : ProfileFields, loadInRange f = true ↔
    (1 ≤ f.media ∧ f.media ≤ 65535) ∧ f.ink ≤ 15 ∧ (1000000 ≤ f.target ∧ f.target ≤ 600000000)
      ∧ (0 ≤ f.allowUnder ∧ f.allowUnder ≤ 50) ∧ (0 ≤ f.allowOver ∧ f.allowOver ≤ 200)
      ∧ (0 ≤ f.feedTension ∧ f.feedTension ≤ 5000) ∧ (0 ≤ f.rewindTension ∧ f.rewindTension ≤ 5000)
      ∧ (∀ z, 870 ≤ f.trims.get z ∧ f.trims.get z ≤ 1178) ∧ (0 ≤ f.sigma ∧ f.sigma ≤ 255)
      ∧ 1 ≤ f.weight ∧ f.weight ≤ 6)
  ∧ ∀ (tag : Byte) (f : ProfileFields) (entry : Option Nat) (s : State), s.takes → ProfilesOk s →
    let c : Instr := .profileLoad tag f entry
    let holder := s.prf.findKey f.media f.ink
    let key := fun n => u16 (s.prf.entry n).media ++ u8 (s.prf.entry n).ink
    let write := fun n pointer data => ∃ t, Answered c 0x30 tag .ok (u8 n ++ data) s t ∧ Keeps [.prf] s.acting t
      ∧ t.prf.pinned = s.prf.pinned ∧ t.prf.pointer = pointer ∧ (∀ m, m ≠ n → t.prf.entry m = s.prf.entry m)
      ∧ t.prf.entry n =
          { valid := true, media := f.media, ink := f.ink, target := f.target, allowUnder := f.allowUnder,
            allowOver := f.allowOver, feedTension := f.feedTension, rewindTension := f.rewindTension,
            trims := f.trims.map fun x : Nat => (x : Int), sigma := f.sigma, weight := f.weight, learned := 0,
            refs := (s.prf.entry n).refs }
    if loadInRange f = false ∨ (∃ n ∈ entry, 31 < n) then Refused c 0x30 tag .range s
    else
      match entry, holder with
      | some n, some m =>
          if m ≠ n then Refused c 0x30 tag .duplicate s
          else if (s.prf.entry n).refs ≠ 0 then Refused c 0x30 tag .inUse s
          else write n s.prf.pointer [0, 0, 0, 0]
      | some n, none =>
          if (s.prf.entry n).refs ≠ 0 then Refused c 0x30 tag .inUse s
          else write n s.prf.pointer [0, 0, 0, 0]
      | none, some m =>
          if (s.prf.entry m).refs ≠ 0 then Refused c 0x30 tag .inUse s
          else write m s.prf.pointer [0, 0, 0, 0]
      | none, none =>
          let open_ := fun n => s.prf.pinned ≤ n ∧ n ≤ 31
          let empty := fun n => open_ n ∧ (s.prf.entry n).valid = false
          let idle := fun n => open_ n ∧ (s.prf.entry n).refs = 0
          let rank := fun n => (s.prf.pointer + 32 - n) % 32
          let nearest := fun (p : Nat → Prop) n => p n ∧ ∀ m, p m → rank n ≤ rank m
          ((∀ n, ¬empty n ∧ ¬idle n) → Refused c 0x30 tag .full s)
          ∧ ∀ n, (nearest empty n ∨ (∀ m, ¬empty m) ∧ nearest idle n) →
              write n (if n = s.prf.pinned then 31 else n - 1)
                (if (s.prf.entry n).valid = true then [1] ++ key n else [0, 0, 0, 0])

/-- PROFILE_PIN, PROFILE_DROP and PROFILE_TRIM, whole (06 R101, R102, R104). The order of the refusals of PROFILE_DROP
and PROFILE_TRIM and the fields a dropped entry keeps are the model's reading (notes/assumptions/23.md). -/
def Obligations.ProfilesArePinnedDroppedAndTrimmed : Prop :=
  (∀ (tag : Byte) (n : Nat) (s : State), s.takes →
    if 32 < n then Refused (.profilePin tag n) 0x34 tag .range s
    else
      Answered (.profilePin tag n) 0x34 tag .ok [] s
        { s.acting with prf := { s.prf with pinned := n, pointer := 31 } })
  ∧ (∀ (tag : Byte) (n : Nat) (s : State), s.takes →
    let c : Instr := .profileDrop tag n
    if 31 < n then Refused c 0x33 tag .range s
    else if (s.prf.entry n).valid = false then Refused c 0x33 tag .miss s
    else if (s.prf.entry n).refs ≠ 0 then Refused c 0x33 tag .inUse s
    else
      ∃ t, Answered c 0x33 tag .ok [] s t ∧ Keeps [.prf] s.acting t
        ∧ { t.prf with entries := s.prf.entries } = s.prf
        ∧ t.prf.entry n = { s.prf.entry n with valid := false, learned := 0 }
        ∧ ∀ m, m ≠ n → t.prf.entry m = s.prf.entry m)
  ∧ ∀ (tag : Byte) (n : Nat) (trims : Six Nat) (s : State), s.takes →
    let c : Instr := .profileTrim tag n trims
    if 31 < n ∨ (∃ z ∈ Zone.all, trims.get z < 870 ∨ 1178 < trims.get z) then Refused c 0x35 tag .range s
    else if (s.prf.entry n).valid = false then Refused c 0x35 tag .miss s
    else
      ∃ t, Answered c 0x35 tag .ok [] s t ∧ Keeps [.prf] s.acting t
        ∧ { t.prf with entries := s.prf.entries } = s.prf
        ∧ t.prf.entry n =
            { s.prf.entry n with trims := trims.map fun x : Nat => (x : Int), learned := 0 }
        ∧ ∀ m, m ≠ n → t.prf.entry m = s.prf.entry m

/-- The learning update (06 R108, R109): with σ of 0 nothing changes; else each zone named takes the trim of R109, the
others keep theirs, learned grows by one, and every trim stays within 870 to 1178; key, fields and references are kept.
The offer of a panel that becomes DONE at a count update of PP and is not affected updates the entry of its profile
with the minima its last probes, folded at this update (04 R67), leave, where no other panel of that profile becomes
DONE at it; an entry that no panel becoming DONE at that update names keeps everything but its references (R108, 04
R70). -/
def Obligations.LearningKeepsTheTrimsInRange : Prop :=
  (∀ (e : Entry) (offer : Six (Option Nat)),
    let e' := e.learn offer
    (e.sigma = 0 → e' = e)
    ∧ { e' with trims := e.trims, learned := e.learned } = e
    ∧ (e.sigma ≠ 0 → e'.learned = min 65535 (e.learned + 1) ∧ ∀ z,
        match offer.get z with
        | none => e'.trims.get z = e.trims.get z
        | some d =>
            let delta := max (-1024) (min 1024 ((e.target - d) * 1024 / e.target))
            let goal := max 870 (min 1178 (1024 + e.sigma * delta / 256))
            let step := (goal - e.trims.get z + 2 ^ (e.weight - 1).toNat) / 2 ^ e.weight.toNat
            e'.trims.get z = max 870 (min 1178 (e.trims.get z + step))
              ∧ 870 ≤ e'.trims.get z ∧ e'.trims.get z ≤ 1178)
    ∧ ((∀ z, 870 ≤ e.trims.get z ∧ e.trims.get z ≤ 1178) →
        ∀ z, 870 ≤ e'.trims.get z ∧ e'.trims.get z ≤ 1178))
  ∧ (∀ (ticks : Ticks) (s : State), QueueOk s → ∃ t, exec (.tickBatch .paper ticks) s = .next t
    ∧ ∀ m, (∀ q ∈ s.pq.queue, q.profile = m → q.state = .done ∨ ∃ q' ∈ t.pq.queue, q'.tag = q.tag ∧ q'.state ≠ .done) →
        { t.prf.entry m with refs := 0 } = { s.prf.entry m with refs := 0 })
  ∧ ∀ (ticks : Ticks) (s : State), QueueOk s →
    let new := (s.cnt.chan.paper.take ticks).count
    s.pp < new → ∀ q ∈ s.pq.queue, ∀ d, q.dose = some d → ∀ a, q.arrival = some a → q.arrived = true →
    q.state ≠ .printing → q.state ≠ .done → a + q.length + s.par.arcLen ≤ new → d.next = none → d.final = false →
    (∀ b ∈ s.dose.probes.dropWhile fun b => decide (b.exit ≤ new), ∀ o ∈ b.owners, o.tag ≠ q.tag) →
    ∃ t, exec (.tickBatch .paper ticks) s = .next t
      ∧ let gone := s.leaving q.tag new
        let d' := d.after gone q.tag
        let v := verdictOf q d' (s.prf.entry q.profile)
        let f := q.flags.after gone
        let offers := v ≠ .spoiled ∧ v ≠ .uncertain ∧ f.stopAffected = false ∧ f.nipOpen = false
          ∧ f.spliceAffected = false ∧ f.excluded = false ∧ f.sparse = false
        (∀ p ∈ s.pq.queue, p.profile = q.profile →
          p.tag = q.tag ∨ p.state = .done ∨ ∃ p' ∈ t.pq.queue, p'.tag = p.tag ∧ p'.state ≠ .done) →
        { t.prf.entry q.profile with refs := 0 } =
          { (if offers then (s.prf.entry q.profile).learn d'.minima else s.prf.entry q.profile) with refs := 0 }

/-! ## Panels and the head link (07) -/

/-- PANEL_SUBMIT and PANEL_INSERT (07 R112, R113): the refusals in their order; a taken one adds one QUEUED record with
every optional field absent, at the end of the queue or in its slot, takes one reference, and then tests for a
placement decision (R115); outside RUNNING it stays as added. That the reply of PANEL_INSERT carries the entry number
is the model's choice (notes/assumptions/40.md). -/
def Obligations.PanelsAreAdmitted : Prop :=
  ∀ (tag : Byte) (panel : Nat) (name : ProfileName) (length : Int) (mark : Nat) (s : State), s.takes →
    let bad := panel = 0 ∨ length < 5000 ∨ 600000 < length ∨ 1 < mark ∨ ProfileName.inRange name = false
    let held := ∃ p ∈ s.pq.queue ++ s.pq.inserts, p.tag = panel
    let record := fun kind n =>
      ({ tag := panel, kind := kind, profile := n, length := length, mark := decide (mark = 0) } : Panel)
    let taken := fun (n : Nat) (t : State) =>
      Keeps [.prf, .pq, .head] s.acting t
        ∧ t.prf.entry n = { s.prf.entry n with refs := (s.prf.entry n).refs + 1 }
        ∧ ∀ m, m ≠ n → t.prf.entry m = s.prf.entry m
    (let c : Instr := .panelSubmit tag panel name length mark
      if bad then Refused c 0x38 tag .range s
      else if held then Refused c 0x38 tag .duplicate s
      else
        match s.prf.resolve name with
        | none => Refused c 0x38 tag .miss s
        | some n =>
            if 64 ≤ s.pq.queue.length then Refused c 0x38 tag .full s
            else
              ∃ t, Answered c 0x38 tag .ok (u8 n) s t ∧ taken n t
                ∧ (∃ u, t = decide_ u ∧ Keeps [.prf, .pq] s.acting u ∧ u.prf = t.prf
                    ∧ u.pq = { s.pq with queue := s.pq.queue ++ [record .normal n] })
                ∧ (∃ p ∈ t.pq.queue, p.tag = panel ∧ p.kind = .normal ∧ p.profile = n ∧ p.length = length
                    ∧ p.attempts = 0)
                ∧ (s.mot.line ≠ .running →
                    t.head = s.head ∧ t.pq = { s.pq with queue := s.pq.queue ++ [record .normal n] }))
    ∧ ∀ slot : Nat,
      let c : Instr := .panelInsert tag slot panel name length mark
      if 3 < slot then Refused c 0x39 tag .range s
      else if s.pq.slots[slot]? ≠ some .empty then Refused c 0x39 tag .inUse s
      else if bad then Refused c 0x39 tag .range s
      else if held then Refused c 0x39 tag .duplicate s
      else
        match s.prf.resolve name with
        | none => Refused c 0x39 tag .miss s
        | some n =>
            ∃ t, Answered c 0x39 tag .ok (u8 n) s t ∧ taken n t
              ∧ (∃ u, t = decide_ u ∧ Keeps [.prf, .pq] s.acting u ∧ u.prf = t.prf
                  ∧ u.pq = { s.pq with slots := s.pq.slots.set slot (.armed (record .insert n)) })
              ∧ (s.mot.line ≠ .running → t.head = s.head
                  ∧ t.pq = { s.pq with slots := s.pq.slots.set slot (.armed (record .insert n)) })

/-- PANEL_CANCEL (07 R128): RANGE for tag 0, MISS for no record (that of a panel skipped and already retired too: the
model's choice, notes/assumptions/45.md), STATE for a record past STARTING; a QUEUED, armed or STARTING panel becomes DONE with verdict CANCELLED, and is retired or waits for its report; a STARTING one has WITHDRAW
sent and its transaction removed, last_end being set as at a refusal (R121). A test for a placement decision follows
(R115). -/
def Obligations.PanelCancelRetiresThePanel : Prop :=
  ∀ (tag : Byte) (panel : Nat) (s : State), s.takes → QueueOk s →
    let c : Instr := .panelCancel tag panel
    if panel = 0 then Refused c 0x3A tag .range s
    else
      match s.panel? panel with
      | none => Refused c 0x3A tag .miss s
      | some p =>
          if p.state = .queued ∨ p.state = .starting then
            ∃ t, Answered c 0x3A tag .ok [] s t ∧ Keeps [.prf, .pq, .head, .trg, .flt, .free] s.acting t
              ∧ (∀ q ∈ t.pq.queue ++ t.pq.inserts, q.tag = panel →
                  q.state = .done ∧ q.verdict = some .cancelled ∧ q.xs = none ∧ panel ∈ t.pq.waiting)
              ∧ (s.pq.waiting = [] → s.acting.flt.room = true → (p.state = .starting → s.head.buf.length < 8) →
                  (∀ q ∈ t.pq.queue ++ t.pq.inserts, q.tag ≠ panel)
                  ∧ ∃ q, q.tag = panel ∧ q.verdict = some .cancelled
                      ∧ .notice s.cnt.clock (.panelReport q) ∈ t.flt.frames)
              ∧ (p.state = .starting → ∀ x ∈ s.pq.live, x.tag = panel →
                  (∀ y ∈ t.pq.live, y.tag ≠ panel)
                  ∧ (s.head.buf.length < 8 → .withdraw x.num panel ∈ t.head.buf)
                  ∧ ∃ u, t = decide_ u ∧ u.pq.live = s.pq.live.filter (fun y => y.tag ≠ panel)
                    ∧ EndsAt (s.pq.queue.filter fun q => q.tag ≠ panel) s.pp u.pq.lastEnd
                    ∧ (s.head.buf.length < 8 → u.head.buf = s.head.buf ++ [.withdraw x.num panel]))
              ∧ (p.state = .queued → ∃ u, t = decide_ u ∧ u.pq.live = s.pq.live ∧ u.head = s.head
                  ∧ u.pq.lastEnd = s.pq.lastEnd)
          else Refused c 0x3A tag .state s

/-- The dispatch commands follow the table of 07 R114; ENABLE and RESUME then test for a decision (R115), and leave
what `decide_` leaves of the state with dispatch ENABLED. -/
def Obligations.DispatchCommandsFollowTheTable : Prop :=
  ∀ (tag : Byte) (s : State), s.takes →
    let becomes := fun (c : Instr) (kind : Byte) (d : Dispatch) =>
      Answered c kind tag .ok [] s { s.acting with pq := { s.pq with dispatch := d } }
    let decides := fun (c : Instr) (kind : Byte) =>
      Answered c kind tag .ok [] s (decide_ { s.acting with pq := { s.pq with dispatch := .enabled } })
    match s.pq.dispatch with
    | .off =>
        decides (.dispatchEnable tag) 0x3B ∧ becomes (.dispatchHold tag) 0x3C .off
        ∧ Refused (.dispatchResume tag) 0x3D tag .state s ∧ becomes (.dispatchOff tag) 0x3E .off
    | .held =>
        Refused (.dispatchEnable tag) 0x3B tag .state s ∧ becomes (.dispatchHold tag) 0x3C .held
        ∧ decides (.dispatchResume tag) 0x3D ∧ becomes (.dispatchOff tag) 0x3E .off
    | .enabled =>
        decides (.dispatchEnable tag) 0x3B ∧ becomes (.dispatchHold tag) 0x3C .held
        ∧ decides (.dispatchResume tag) 0x3D ∧ becomes (.dispatchOff tag) 0x3E .off

/-- A placement decision (07 R115, R116): the candidate is the armed insert of the lowest slot, else the first QUEUED
panel; with every condition met it is placed at max(last_end + gap, PP + lead) with its profile's trims, a transaction
and a START; with any failing nothing changes. The decision is made at the events of R115: a count update of PP, an end
of a STARTING or PRINTING phase, a frame leaving the transmit buffer, a write of gap or lead, and a retirement at a
place freed leave no decision open (`decide_` changes nothing more), and with every panel QUEUED and no probe out a
count update of PP leaves queue and head link as the decision at the new PP does. START and the panel and dispatch
commands say the same of themselves. -/
def Obligations.PlacementDecisionPlacesTheCandidate : Prop :=
  (∀ s : State,
    (∀ i p, s.pq.slots[i]? = some (.armed p) → (∀ j < i, ∀ q, s.pq.slots[j]? ≠ some (.armed q)) →
      s.candidate = some (some i, p))
    ∧ ((∀ (i : Nat) p, s.pq.slots[i]? ≠ some (.armed p)) →
      s.candidate = (s.pq.queue.find? fun p => p.state = .queued).map fun p => (none, p))
    ∧ (s.candidate = none → decide_ s = s)
    ∧ ∀ slot p, s.candidate = some (slot, p) →
      let t := decide_ s
      let may := s.mot.line = .running ∧ s.pq.dispatch = .enabled ∧ (∀ q ∈ s.pq.queue, q.state ≠ .starting)
        ∧ (s.pq.queue.countP fun q => q.state = .starting ∨ q.state = .printing) < 2
        ∧ (slot ≠ none → s.pq.queue.length < 64) ∧ s.pq.lastEnd + s.par.gap - s.par.lead ≤ s.pp
        ∧ s.head.buf.length < 8
      let xs := max (s.pq.lastEnd + s.par.gap) (s.pp + s.par.lead)
      let gains := (s.prf.entry p.profile).trims
      let num := s.pq.nextTxn
      (¬may → t = s)
      ∧ (may → Keeps [.pq, .head] s t ∧ t.pq.lastEnd = xs + p.length
          ∧ t.pq.nextTxn = (if num = 255 then 1 else num + 1)
          ∧ t.pq.live = s.pq.live ++ [⟨num, p.tag, .awaitAccept, s.cnt.clock, s.par.tAcc⟩]
          ∧ t.head.buf = s.head.buf ++ [.start num p.tag xs p.length gains p.mark]
          ∧ { p with state := .starting, xs := some xs, txn := some num, gains := some gains } ∈ t.pq.queue
          ∧ ∀ i, slot = some i → t.pq.slots = s.pq.slots.set i .empty))
  ∧ let decided := fun (c : Instr) (s : State) => ∃ t, exec c s = .next t ∧ decide_ t = t
    (∀ (ticks : Ticks) (s : State), (s.cnt.chan.paper.take ticks).count ≠ s.pp → decided (.tickBatch .paper ticks) s)
    ∧ (∀ (ticks : Ticks) (s : State), QueueOk s → s.dose.probes = [] → (∀ p ∈ s.pq.queue, p.state = .queued) →
      (s.cnt.chan.paper.take ticks).overrange = s.cnt.chan.paper.overrange →
      (s.cnt.chan.paper.take ticks).count ≠ s.pp →
      ∃ t, exec (.tickBatch .paper ticks) s = .next t
        ∧ let k := s.cnt.chan
          let u := decide_ { s with cnt := { s.cnt with chan := { k with paper := k.paper.take ticks } } }
          t.pq = u.pq ∧ t.head = u.head)
    ∧ (∀ s : State, s.head.buf ≠ [] → decided .headFrameSent s)
    ∧ (∀ (s : State) (x : Txn), QueueOk s → x ∈ s.pq.live →
      (x.phase = .awaitAccept → decided (.accept x.num x.tag) s ∧ decided (.timeDeadline x.num) s
        ∧ ∀ reason, decided (.refuse x.num x.tag reason) s)
      ∧ (x.phase = .printing → ∀ printed, decided (.done x.num x.tag printed) s
        ∧ ∀ reason, decided (.fault x.num x.tag printed reason) s))
    ∧ (∀ (tag : Byte) (v : Int) (s : State), s.takes →
      (1000 ≤ v → v ≤ 100000 → decided (.setParam tag 0x0701 v) s)
      ∧ (10000 ≤ v → v ≤ 200000 → decided (.setParam tag 0x0702 v) s))
    ∧ ∀ (s : State) (p : Panel), s.flt.current ≠ none → s.flt.used ≤ 32 → s.lnk.buffer = [] →
      s.pq.waiting.head? = some p.tag → s.panel? p.tag = some p → decided .frameSent s

/-- A command adds at most one START to the head link, and only where the line is RUNNING and dispatch ENABLED (07
R115). With command frames waiting, or with several in one VALID_FRAME, more than one command may be taken, and each
adds its own. -/
def Obligations.StartNeedsRunningAndEnabled : Prop :=
  ∀ (c : Instr) (s t : State), s.lnk.buffer = [] → (∀ bytes, c ≠ .validFrame bytes) → exec c s = .next t →
    t.head.buf.countP HeadFrame.isStart ≤ s.head.buf.countP HeadFrame.isStart + 1
    ∧ (s.head.buf.countP HeadFrame.isStart < t.head.buf.countP HeadFrame.isStart →
        t.mot.line = .running ∧ t.pq.dispatch = .enabled)

/-- The engine's answers (07 R117, R120, R121, R123, R124, R126): a matched ACCEPT makes the panel PRINTING; a matched
REFUSE removes the transaction, sets last_end by the panels still placed and counts an attempt, and the panel returns
QUEUED or is SKIPPED; a matched DONE or FAULT ends the print; a test for a decision follows (R115), which may place a
returned panel again under the next number; an unmatched frame changes no panel and no transaction and raises
HEAD_PROTOCOL, and so does an overlong DONE; a matched FAULT raises HEAD_FAULT, and one for a panel that has arrived
creates its reject trigger in the first free slot, firing LATE where PP has passed its position (its direction a free
value, 11.md), or with none free marks it REJECT_UNMARKED with TRIGGER_FULL (R127). A printed length is stored up to
the panel's length (the model's reading, notes/assumptions/17.md). A reason of 0 is taken like any other (the model's
choice, 38.md). -/
def Obligations.EngineAnswersAct : Prop :=
  ∀ (txn panel : Nat) (s : State), QueueOk s →
    let awaiting := ∃ x ∈ s.pq.live, x.num = txn ∧ x.tag = panel ∧ x.phase = .awaitAccept
    let printing := ∃ x ∈ s.pq.live, x.num = txn ∧ x.tag = panel ∧ x.phase = .printing
    let protocol := fun kind : Byte => Notice.warning (.headProtocol kind (BitVec.ofNat 8 txn) panel)
    (∃ t, exec (.accept txn panel) s = .next t ∧ Keeps (touches (.accept txn panel)) s t
      ∧ (awaiting → ∃ p ∈ t.pq.queue, p.tag = panel ∧ p.state = .printing
          ∧ ∃ x ∈ t.pq.live, x.num = txn ∧ x.tag = panel ∧ x.phase = .printing)
      ∧ (awaiting → t = decide_ { s with
          head := { s.head with framer := .hunting }
          pq := { s.pq with
            live := s.pq.live.map fun x => if x.num = txn ∧ x.tag = panel then { x with phase := .printing } else x
            queue := s.pq.queue.map fun p => if p.tag = panel then { p with state := .printing } else p } })
      ∧ (¬awaiting → t.pq = s.pq ∧ Noticed (protocol 0x81) s t
          ∧ (s.head.buf.length < 8 → t.head.buf = s.head.buf ++ [.withdraw txn panel])
          ∧ (8 ≤ s.head.buf.length → t.head.buf = s.head.buf ∧ Noticed (protocol 0x02) s t)))
    ∧ (∀ reason : Nat, ∃ t, exec (.refuse txn panel reason) s = .next t
      ∧ Keeps (touches (.refuse txn panel reason)) s t
      ∧ (¬awaiting → t.pq = s.pq ∧ Noticed (protocol 0x82) s t)
      ∧ (awaiting → ∀ p ∈ s.pq.queue, p.tag = panel →
          (∃ u, t = decide_ u ∧ u.pq.live = s.pq.live.filter (fun x => x.tag ≠ panel)
            ∧ u.head = { s.head with framer := .hunting }
            ∧ EndsAt (s.pq.queue.filter fun q => q.tag ≠ panel) s.pp u.pq.lastEnd
            ∧ ((p.attempts : Int) + 1 ≤ s.par.nRetry →
              { p with
                state := .queued, xs := none, txn := none, gains := none, attempts := p.attempts + 1,
                reason := some (.code reason) } ∈ u.pq.queue))
          ∧ (∀ x ∈ t.pq.live, x.tag = panel → x.num = s.pq.nextTxn)
          ∧ ((p.attempts : Int) + 1 ≤ s.par.nRetry → ∃ q ∈ t.pq.queue, q.tag = panel
            ∧ q.attempts = p.attempts + 1 ∧ q.reason = some (.code reason) ∧ q.kind = p.kind)
          ∧ (s.par.nRetry < (p.attempts : Int) + 1 → ∀ q ∈ t.pq.queue, q.tag = panel →
            q.state = .done ∧ q.verdict = some .skipped ∧ panel ∈ t.pq.waiting)))
    ∧ (∀ printed : Int, ∃ t, exec (.done txn panel printed) s = .next t
      ∧ Keeps (touches (.done txn panel printed)) s t
      ∧ (¬printing → t.pq = s.pq ∧ Noticed (protocol 0x83) s t)
      ∧ (printing → ∀ p ∈ s.pq.queue, p.tag = panel → p.length < printed → Noticed (protocol 0x83) s t)
      ∧ (printing → ∀ p ∈ s.pq.queue, p.tag = panel → ∃ q ∈ t.pq.queue, q.tag = panel
          ∧ q.printed = some (.len (min p.length printed)) ∧ q.txn = none
          ∧ q.state = if p.arrived = true then .inArc else .printed)
      ∧ (printing → ∀ x ∈ t.pq.live, x.tag ≠ panel))
    ∧ ∀ (printed : Int) (reason : Nat), ∃ t, exec (.fault txn panel printed reason) s = .next t
      ∧ Keeps (touches (.fault txn panel printed reason)) s t
      ∧ (¬printing → t.pq = s.pq ∧ t.trg = s.trg ∧ Noticed (protocol 0x84) s t)
      ∧ (printing → ∀ p ∈ s.pq.queue, p.tag = panel →
          Noticed (.warning (.headFault panel (min p.length printed) reason)) s t
          ∧ (p.arrived = false → t.trg = s.trg)
          ∧ (p.arrived = true → (∀ x ∈ s.trg.slots, x ≠ .free) →
              t.trg = s.trg ∧ Noticed (.warning (.triggerFull panel)) s t
              ∧ ∀ q ∈ t.pq.queue, q.tag = panel → q.flags.rejectUnmarked = true)
          ∧ (p.arrived = true → ∀ a, p.arrival = some a → ∀ l r, s.trg.slots = l ++ .free :: r → .free ∉ l →
              let e := s.reject panel a
              if e.position.getD 0 ≤ s.pp then
                t.trg = { s.trg with pulses := s.trg.pulses.set .markout (some ⟨0, s.par.wOut.markout.toNat⟩) }
                ∧ ∃ d, Noticed (.triggerFired l.length .panel e.action e.position (some panel) s.pp d .late) s t
              else t.trg = { s.trg with slots := l ++ .held .panel e :: r }))
      ∧ (printing → (∀ x ∈ t.pq.live, x.tag ≠ panel)
          ∧ t.pq.dispatch = (if s.pq.dispatch = .enabled then .held else s.pq.dispatch)
          ∧ ∀ p ∈ s.pq.queue, p.tag = panel → ∃ q ∈ t.pq.queue, q.tag = panel
            ∧ q.printed = some (.len (min p.length printed)) ∧ q.reason = some (.code reason) ∧ q.txn = none
            ∧ q.verdict = some .spoiled ∧ q.state = if p.arrived = true then .inArc else .spoiled)

/-- The other head-link events complete in every state (07 R117 to R121, R133): another frame raises HEAD_PROTOCOL
alone, a bad CRC nothing; a sent frame leaves the buffer and a waiting speed change takes effect; a time deadline sends
WITHDRAW and refuses the STARTING panel with reason TIMEOUT, SKIPPED past the retry limit; the row takes effect
whatever time has passed (the model's choice, notes/assumptions/2.md). A forward count update of PP does the same to a
STARTING panel whose x_s it reaches (R119, R120), last_end being set by the panels still placed (R121), and at x_s + L
+ m_done of a PRINTING one sends WITHDRAW, spoils the panel with an unknown printed length and reason TIMEOUT, and
warns HEAD_TIMEOUT (R125), a panel that has arrived getting its reject trigger or TRIGGER_FULL (R127); short of it the
transaction stays. Each of them then tests for a decision (R115), which may place a returned panel again under the next
number. -/
def Obligations.HeadLinkEventsAct : Prop :=
  (∀ (kind tag : Byte) (body : List Byte) (s : State),
    ∃ t, exec (.headOtherKindFrame kind tag body) s = .next t ∧ Keeps [.head, .flt, .free] s t
      ∧ t.head = { s.head with framer := .hunting }
      ∧ (s.flt.room = true → ∃ panel : Nat,
          t.flt = s.flt.place (.notice s.cnt.clock (.warning (.headProtocol kind tag panel)))
          ∧ (2 ≤ body.length → panel = 256 * (body[0]?.getD 0).toNat + (body[1]?.getD 0).toNat)))
  ∧ (∀ s : State, exec .headFrameBadCrc s = .next { s with head := { s.head with framer := .hunting } })
  ∧ (∀ s : State, ∃ t, exec .headFrameSent s = .next t ∧ Keeps [.pq, .head] s t
      ∧ (s.head.buf = [] → t = s)
      ∧ (s.head.buf ≠ [] → t.head.pendingBaud = none ∧ t.head.baud = s.head.pendingBaud.getD s.head.baud
          ∧ (t.head.buf = s.head.buf.tail ∨ ∃ f, f.isStart = true ∧ t.head.buf = s.head.buf.tail ++ [f])
          ∧ t = decide_ { s with head := { s.head with
              buf := s.head.buf.tail, pendingBaud := none, baud := s.head.pendingBaud.getD s.head.baud
              framer := if s.head.pendingBaud.getD s.head.baud = s.head.baud then s.head.framer else .hunting } }))
  ∧ (∀ (s : State) (x : Txn), QueueOk s → x ∈ s.pq.live → x.phase = .awaitAccept →
      (∀ y ∈ s.pq.live, y.num = x.num → y = x) →
      ∃ t, exec (.timeDeadline x.num) s = .next t ∧ Keeps (touches (.timeDeadline x.num)) s t
        ∧ (∃ u, t = decide_ u ∧ u.pq.live = s.pq.live.filter (fun y => y.tag ≠ x.tag)
            ∧ EndsAt (s.pq.queue.filter fun q => q.tag ≠ x.tag) s.pp u.pq.lastEnd
            ∧ (s.head.buf.length < 8 → u.head.buf = s.head.buf ++ [.withdraw x.num x.tag])
            ∧ ∀ p ∈ s.pq.queue, p.tag = x.tag → (p.attempts : Int) + 1 ≤ s.par.nRetry →
              { p with
                state := .queued, xs := none, txn := none, gains := none, attempts := p.attempts + 1,
                reason := some .timeout } ∈ u.pq.queue)
        ∧ (s.head.buf.length < 8 → .withdraw x.num x.tag ∈ t.head.buf)
        ∧ (∀ y ∈ t.pq.live, y.tag = x.tag → y.num = s.pq.nextTxn)
        ∧ (∀ p ∈ s.pq.queue, p.tag = x.tag → (p.attempts : Int) + 1 ≤ s.par.nRetry →
            ∃ q ∈ t.pq.queue, q.tag = x.tag ∧ q.attempts = p.attempts + 1 ∧ q.reason = some .timeout)
        ∧ ∀ p ∈ s.pq.queue, p.tag = x.tag → s.par.nRetry < (p.attempts : Int) + 1 → ∀ q ∈ t.pq.queue, q.tag = x.tag →
            q.state = .done ∧ q.verdict = some .skipped ∧ q.reason = some .timeout ∧ x.tag ∈ t.pq.waiting)
  ∧ ∀ (ticks : Ticks) (s : State), QueueOk s →
    let new := (s.cnt.chan.paper.take ticks).count
    s.pp < new → (s.cnt.chan.paper.take ticks).overrange = s.cnt.chan.paper.overrange →
    ∃ u, exec (.tickBatch .paper ticks) s = .next (decide_ u)
      ∧ let t := decide_ u
        ∀ x ∈ s.pq.live, ∀ p ∈ s.pq.queue, p.tag = x.tag → ∀ xs, p.xs = some xs →
        let reached := if x.phase = .awaitAccept then xs ≤ new else xs + p.length + s.par.mDone ≤ new
        let arcEnd := fun a : Int => a + p.length + s.par.arcLen
        (¬reached → (∀ a ∈ p.arrival, new < arcEnd a) → (x.phase = .printing → p.arrival ≠ none) → x ∈ t.pq.live)
        ∧ (reached → (∀ y ∈ u.pq.live, y.tag ≠ x.tag)
            ∧ (∀ y ∈ t.pq.live, y.tag = x.tag → y.num = s.pq.nextTxn)
            ∧ (s.head.buf.length + s.pq.live.length ≤ 8 →
                .withdraw x.num x.tag ∈ u.head.buf ∧ .withdraw x.num x.tag ∈ t.head.buf))
        ∧ (reached → x.phase = .awaitAccept → (∀ y ∈ s.pq.live, y.phase = .awaitAccept → y = x) →
            EndsAt (s.pq.queue.filter fun q => q.tag ≠ x.tag) new u.pq.lastEnd)
        ∧ (reached → x.phase = .printing → p.arrived = true → (∀ y ∈ s.pq.live, y.phase = .printing → y = x) →
            (∀ a, p.arrival = some a → .free ∈ s.trg.slots →
              let e := s.reject x.tag a
              if e.position.getD 0 ≤ new then
                t.trg.pulses.markout = some ⟨0, s.par.wOut.markout.toNat⟩
                ∧ ∃ i, Noticed (.triggerFired i .panel e.action e.position (some x.tag) new .forward .late) s t
              else .held .panel e ∈ t.trg.slots)
            ∧ ((∀ y ∈ s.trg.slots, ∃ e : Trigger, y = .held .host e ∧ e.position ≠ none) →
              Noticed (.warning (.triggerFull x.tag)) s t
              ∧ ∀ q ∈ t.pq.queue, q.tag = x.tag → q.flags.rejectUnmarked = true))
        ∧ (∀ q ∈ u.pq.queue, q.tag = x.tag → reached → x.phase = .awaitAccept →
            (p.attempts : Int) + 1 ≤ s.par.nRetry →
            q.state = .queued ∧ q.xs = none ∧ q.txn = none ∧ q.gains = none)
        ∧ ∀ q ∈ t.pq.queue, q.tag = x.tag → reached →
            if x.phase = .printing then
              q.verdict = some .spoiled ∧ q.printed = some .unknown ∧ q.reason = some .timeout ∧ q.txn = none
              ∧ Noticed (.warning (.headTimeout x.tag)) s t
            else
              q.attempts = p.attempts + 1 ∧ q.reason = some .timeout
              ∧ (s.par.nRetry < (p.attempts : Int) + 1 →
                  q.state = .done ∧ q.verdict = some .skipped ∧ x.tag ∈ t.pq.waiting)

/-! ## Marks (08) -/

/-- The tracker's table, whole (08 R137): both steps in every state, and MARK_LOST with S and the panel's tag at a miss
in HOLDOVER. -/
def Obligations.TrackerFollowsItsTable : Prop :=
  (∀ (m : Marks) (e gain tol : Int),
    let filtered := m.slip + (e - m.slip) / 2 ^ gain.toNat
    m.good e gain tol =
      match m.state with
      | .unlocked => { m with state := .provisional, slip := e }
      | .provisional =>
          if |e - m.slip| ≤ tol then { m with state := .locked, slip := filtered } else { m with slip := e }
      | .locked => { m with slip := filtered }
      | .holdover => { m with state := .locked, slip := filtered })
  ∧ (∀ m : Marks, -20000 ≤ m.slip → m.slip ≤ 20000 → ∀ e gain tol : Int, -20000 ≤ e → e ≤ 20000 →
      -20000 ≤ (m.good e gain tol).slip ∧ (m.good e gain tol).slip ≤ 20000)
  ∧ ∀ (tag : Nat) (s : State),
      let t := missStep tag s
      Keeps [.mrk, .flt] s t ∧ t.mrk.slip = s.mrk.slip ∧ t.mrk.high = s.mrk.high ∧ t.mrk.stray = s.mrk.stray
      ∧ t.mrk.state =
          (match s.mrk.state with
            | .unlocked => .unlocked | .provisional => .unlocked | .locked => .holdover | .holdover => .unlocked)
      ∧ (s.mrk.state ≠ .holdover → t.flt = s.flt)
      ∧ (s.mrk.state = .holdover → s.flt.room = true →
          t.flt = s.flt.place (.notice s.cnt.clock (.warning (.markLost s.mrk.slip tag))))

/-- A panel's arrival, once set, is never changed while its record stays in the queue (08 R144); several commands executed
in one go, from the command buffer or one VALID_FRAME, may remove the record and admit its tag anew, with no arrival. At a
forward count update of PP of any length, that sets OVERRANGE or not, every panel whose A is reached has arrived (R145),
and each panel with an arrival is left, in the queue or in its report, with what the update does to it and no more. One
newly arrived that was PRINTED or SPOILED is IN_ARC (07 R126), unless it reaches A + L + Lc and is DONE (04 R68); its
fabric is checked against that at the nip (R147), and it is SPLICE_AFFECTED while a splice is at the nip (09 R164); a
SPOILED one, alone in being so, gets its reject trigger in a free slot, firing LATE where PP has passed its position, or
with none free is REJECT_UNMARKED with TRIGGER_FULL raised (07 R127, 09 R155, R156). The update takes the probe points in
its interval in ascending order (04 R65): each gives one probe for the panels whose point it is, in the order of their A,
up to 64 in the list, and the panels of those beyond are SPARSE; the next points follow. Then it takes out of the list
the probes whose exit it reaches and folds them into their owners (R67). That a report waits only while the transmit queue
has no free place, and that a next probe point lies on its panel, is kept by every step, as StepKeepsTheReferences and
StepKeepsPlacementsClear say. -/
def Obligations.ArrivalsHoldAndProbesFollow : Prop :=
  (∀ (c : Instr) (s t : State), QueueOk s → exec c s = .next t →
    ∀ p ∈ s.pq.queue, ∀ a, p.arrival = some a → ∀ q ∈ t.pq.queue, q.tag = p.tag →
      q.arrival = some a
      ∨ (s.lnk.buffer ≠ [] ∨ ∃ bytes, c = .validFrame bytes)
        ∧ q.arrival = none ∧ q.dose = none ∧ q.printed = none ∧ q.attempts = 0)
  ∧ ∀ (ticks : Ticks) (s : State), QueueOk s → ReportsOk s → PointsOk s → 0 < s.par.spacing →
    let new := (s.cnt.chan.paper.take ticks).count
    s.pp < new →
    ∃ (t : State) (points : List Int) (joined : List Probe), exec (.tickBatch .paper ticks) s = .next t
      ∧ (∀ q ∈ t.pq.queue, ∀ a, q.arrival = some a → a ≤ new → q.arrived = true)
      ∧ points.Pairwise (· < ·)
      ∧ (∀ x, x ∈ points ↔ ∃ p ∈ s.pq.queue, p.handles s.par.spacing s.pp new x = true)
      ∧ joined.map Probe.entry = points.take (64 - s.dose.probes.length)
      ∧ (∀ b ∈ joined,
          { b with owners := [] } =
            { owners := [], entry := b.entry, exit := b.entry + s.par.arcLen, zones := s.heat.zones.map ZoneRec.enable }
          ∧ ∃ ps : List Panel,
              ps.Perm (s.pq.queue.filter fun p => p.handles s.par.spacing s.pp new b.entry)
              ∧ ps.Pairwise (fun p q => p.arrival.getD 0 ≤ q.arrival.getD 0)
              ∧ b.owners = ps.map fun p => ⟨p.tag, decide (p.arrival.getD 0 + p.length = b.entry)⟩)
      ∧ let list := s.dose.probes ++ joined
        t.dose.probes = list.dropWhile (fun b => decide (b.exit ≤ new))
        ∧ ∀ q ∈ s.pq.queue, ∀ a, q.arrival = some a → ∀ d, q.dose = some d →
          let gone := (list.takeWhile fun b => decide (b.exit ≤ new)).filter fun b => b.owners.any fun o => o.tag = q.tag
          let trailing := a + q.length
          let done := q.state ≠ .done ∧ trailing + s.par.arcLen ≤ new
          let arrives := q.arrived = false ∧ a ≤ new
          let media := (s.prf.entry q.profile).media
          let nip := s.trg.nip.map fun n => (s.prf.entry n).media
          let spliced := ∃ r ∈ s.trg.splices, r.state = .atNip
          let mark : Int := max (-2000000000) (min 2000000000 (a + s.par.arcLen + s.par.dMark))
          let reject : Trigger := ⟨.paper, some mark, some (q.tag, s.par.arcLen + s.par.dMark), .forward,
            .pulse .markout, .oneShot, true⟩
          let alone := ∀ p ∈ s.pq.queue, p.state = .spoiled ∨ p.state = .printing → p.tag = q.tag
          let full := ∀ x ∈ s.trg.slots, ∃ e : Trigger, x = .held .host e ∧ e.position ≠ none
          (arrives → nip ≠ some media → Noticed (.warning (.fabricMismatch q.tag media nip)) s t)
          ∧ (arrives → q.state = .spoiled → alone → .free ∈ s.trg.slots →
              if new < mark then .held .panel reject ∈ t.trg.slots
              else
                t.trg.pulses.markout = some ⟨0, s.par.wOut.markout.toNat⟩
                ∧ ∃ i, Noticed (.triggerFired i .panel (.pulse .markout) (some mark) (some q.tag) new .forward .late) s t)
          ∧ (arrives → q.state = .spoiled → alone → full → Noticed (.warning (.triggerFull q.tag)) s t)
          ∧ ∃ q' : Panel, Leaves q.tag q' s t
            ∧ q' = { q with
                state := q'.state, verdict := q'.verdict, printed := q'.printed, reason := q'.reason, txn := q'.txn,
                offered := q'.offered, arrived := q.arrived || decide (a ≤ new), flags := q'.flags, dose := q'.dose }
            ∧ (done → q'.state = .done)
            ∧ (¬done → q.state ≠ .printing → q'.state =
                if arrives ∧ (q.state = .printed ∨ q.state = .spoiled) then .inArc else q.state)
            ∧ (¬done → q.state = .printing → (∃ x, q.xs = some x ∧ new < x + q.length + s.par.mDone) →
                q'.state = .printing)
            ∧ (¬done → q.state ≠ .printing → q'.verdict = q.verdict ∧ q'.offered = q.offered)
            ∧ (q.state ≠ .printing → q'.printed = q.printed ∧ q'.reason = q.reason ∧ q'.txn = q.txn)
            ∧ q'.dose = some { d.after gone q.tag with
                next := pointAfter d.next s.par.spacing trailing s.pp new
                final := d.final && !decide (s.pp < trailing ∧ trailing ≤ new)
                capHeld := d.capHeld && !decide done }
            ∧ q'.flags = { q.flags.after gone with
                sparse := q.flags.sparse || (points.drop (64 - s.dose.probes.length)).any fun x =>
                  q.handles s.par.spacing s.pp new x
                fabricMismatch := q.flags.fabricMismatch || decide (arrives ∧ nip ≠ some media)
                spliceAffected := q.flags.spliceAffected || decide (arrives ∧ spliced)
                rejectUnmarked := q'.flags.rejectUnmarked }
            ∧ (arrives → q.state = .spoiled → alone → full → q'.flags.rejectUnmarked = true)
            ∧ (q.state ≠ .printing → (arrives → q.state ≠ .spoiled) → q'.flags.rejectUnmarked = q.flags.rejectUnmarked)

/-! ## Triggers, windows and splices (09) -/

/-- TRIGGER_SET, TRIGGER_ARM and TRIGGER_CLEAR (09 R152, R155): the refusals in their order; a taken TRIGGER_SET writes
an armed HOST entry, resolved at once where its panel's arrival is set: at A plus the offset, firing LATE where PP has
passed that already (the direction of its notice is a free value, notes/assumptions/11.md). -/
def Obligations.TriggerCommandsWriteHostSlots : Prop :=
  ∀ (tag : Byte) (i : Nat) (s : State), s.takes → s.trg.slots.length = 24 →
    let here := s.slot i
    (∀ f : TriggerFields,
      let c : Instr := .triggerSet tag i f
      let fits : Bool := match f.position, f.anchor with
        | some p, none => -2000000000 ≤ p && p ≤ 2000000000
        | none, some (panel, off) => f.axis = 0 && panel ≠ 0 && -1000000 ≤ off && off ≤ 1000000
        | _, _ => false
      if 23 < i ∨ fits = false ∨ 1 < f.axis ∨ 2 < f.direction ∨ 5 < f.action ∨ 1 < f.repeated then
        Refused c 0x48 tag .range s
      else if here.isPanel = true then Refused c 0x48 tag .inUse s
      else if ∃ a ∈ f.anchor, s.panel? a.1 = none then Refused c 0x48 tag .miss s
      else
        ∃ t e, Answered c 0x48 tag .ok [] s t ∧ Keeps [.trg, .flt, .free] s.acting t
          ∧ (∀ j, j ≠ i → t.slot j = s.slot j)
          ∧ { t.trg with slots := s.trg.slots, pulses := s.trg.pulses } = s.trg
          ∧ e.axis.code = f.axis ∧ e.dir.code = f.direction ∧ e.action.code = f.action
          ∧ e.rep.code = f.repeated ∧ e.anchor = f.anchor ∧ e.position = f.position ∧ e.armed = true
          ∧ (match f.anchor.bind fun a => (s.panel? a.1).bind Panel.arrival with
              | none => t.slot i = .held .host e ∧ t.trg.pulses = s.trg.pulses ∧ t.flt = s.acting.flt
              | some a => Resolved i e a s.pp none s.acting t))
    ∧ (let c : Instr := .triggerArm tag i
      if 23 < i then Refused c 0x49 tag .range s
      else
        match here with
        | .held .panel _ => Refused c 0x49 tag .inUse s
        | .free => Refused c 0x49 tag .miss s
        | .held .host e =>
            Answered c 0x49 tag .ok [] s
              { s.acting with
                trg := { s.trg with slots := s.trg.slots.set i (.held .host { e with armed := true }) } })
    ∧ (let c : Instr := .triggerClear tag i
      if 23 < i then Refused c 0x4A tag .range s
      else
        match here with
        | .held .panel _ => Refused c 0x4A tag .inUse s
        | .free => Answered c 0x4A tag .ok [] s s.acting
        | .held .host _ =>
            Answered c 0x4A tag .ok [] s
              { s.acting with trg := { s.trg with slots := s.trg.slots.set i .free } })

/-- At a count update an armed entry that it crosses in its direction fires (09 R153, R154): a pulse drives its output
with the width as it stands, a NOTIFY places TRIGGER_FIRED with the position, the new count and the direction; a
ONE_SHOT HOST entry is disarmed, a ONE_SHOT PANEL one freed, a KEEP one stays. An entry not crossed stays as it is, and
an output no crossed and no resolving entry drives keeps its pulse. A MARK capture or count update of PP that sets a
panel's arrival resolves the HOST entries anchored to it, an armed one already passed firing LATE (R155). PULSE_END
takes the output low, at whatever elapsed time (the model's choice, notes/assumptions/2.md). -/
def Obligations.CrossedTriggersFire : Prop :=
  (∀ (ch : Chan) (ticks : Ticks) (s : State) (i : Nat) (origin : Origin) (e : Trigger) (p : Int) (o : Output),
    let old := (s.cnt.chan.get ch).count
    let new := ((s.cnt.chan.get ch).take ticks).count
    s.trg.slots[i]? = some (.held origin e) → e.armed = true → e.position = some p → e.action = .pulse o →
    (ch = .paper ∧ e.axis = .paper ∨ ch = .fabric ∧ e.axis = .fabric) →
    (old < p ∧ p ≤ new ∧ e.dir ≠ .reverse ∨ new ≤ p ∧ p < old ∧ e.dir ≠ .forward) →
    ∃ t, exec (.tickBatch ch ticks) s = .next t
      ∧ t.trg.pulses.get o = some ⟨0, (s.par.wOut.get o).toNat⟩ ∧ t.outLevel o = true
      ∧ (e.rep = .keep → t.trg.slots[i]? = some (.held origin e))
      ∧ (e.rep = .oneShot → origin = .host →
          t.trg.slots[i]? = some (.held .host { e with armed := false })))
  ∧ (∀ (ch : Chan) (ticks : Ticks) (s : State), ch ≠ .drum →
    let axis := if ch = .paper then Axis.paper else Axis.fabric
    let old := (s.cnt.chan.get ch).count
    let new := ((s.cnt.chan.get ch).take ticks).count
    let crossed := fun (e : Trigger) (p : Int) => e.armed = true ∧ e.axis = axis
      ∧ (old < p ∧ p ≤ new ∧ e.dir ≠ .reverse ∨ new ≤ p ∧ p < old ∧ e.dir ≠ .forward)
    ∃ t, exec (.tickBatch ch ticks) s = .next t
      ∧ ∀ i < 24, ∀ origin e, s.trg.slots[i]? = some (.held origin e) → ∀ p, e.position = some p →
        if crossed e p then
          (e.action = .notify →
            Noticed (.triggerFired i origin .notify (some p) (e.anchor.map Prod.fst) new
              (if old < new then .forward else .reverse) .fired) s t)
          ∧ (e.rep = .keep → t.trg.slots[i]? = some (.held origin e))
          ∧ (e.rep = .oneShot → origin = .host → t.trg.slots[i]? = some (.held .host { e with armed := false }))
          ∧ (e.rep = .oneShot → origin = .panel → t.trg.slots[i]? ≠ some (.held .panel e)
              ∧ ((∀ q ∈ s.pq.queue, q.state ≠ .spoiled ∧ q.state ≠ .printing) → t.trg.slots[i]? = some .free))
        else t.trg.slots[i]? = some (.held origin e))
  ∧ (∀ (ch : Chan) (ticks : Ticks) (o : Output) (s : State), ch ≠ .drum → o ≠ .markout →
    let axis := if ch = .paper then Axis.paper else Axis.fabric
    let old := (s.cnt.chan.get ch).count
    let new := ((s.cnt.chan.get ch).take ticks).count
    let idle := fun e : Trigger => e.action ≠ .pulse o ∨ e.armed = false ∨ ∃ p ∈ e.position, e.axis ≠ axis
      ∨ ¬(old < p ∧ p ≤ new ∧ e.dir ≠ .reverse ∨ new ≤ p ∧ p < old ∧ e.dir ≠ .forward)
    (∀ x ∈ s.trg.slots, x = .free ∨ ∃ origin e, x = .held origin e ∧ idle e) →
    ∃ t, exec (.tickBatch ch ticks) s = .next t ∧ t.trg.pulses.get o = s.trg.pulses.get o)
  ∧ (∀ (c : Instr) (dir : Option Dir) (s : State), QueueOk s →
    (c = .markCapture ∧ dir = none ∨ ∃ ticks, c = .tickBatch .paper ticks ∧ dir = some .forward) →
    ∃ t, exec c s = .next t
      ∧ ∀ q ∈ s.pq.queue, q.arrival = none → ∀ q' ∈ t.pq.queue, q'.tag = q.tag → ∀ a, q'.arrival = some a →
        ∀ i e, s.slot i = .held .host e → e.anchor.map Prod.fst = some q.tag → e.position = none → e.axis = .paper →
          Resolved i e a t.pp dir s t)
  ∧ ∀ (o : Output) (s : State),
      exec (.pulseEnd o) s = .next { s with trg := { s.trg with pulses := s.trg.pulses.set o none } }

/-- WINDOW_SET and WINDOW_CLEAR (09 R157); the activity of a window after a count update of its axis, for which the new
count alone is judged, a change of a window with NOTIFY_EDGES being reported (R158); and the current effect set, item
by item (R159). RANGE for an unknown axis is the model's reading (notes/assumptions/21.md), as is that bits of the
effects and of the mask beyond the members count for nothing (24.md). -/
def Obligations.WindowsAreSetJudgedAndCombined : Prop :=
  ((∀ (tag : Byte) (i : Nat) (f : WindowFields) (s : State), s.takes →
    let c : Instr := .windowSet tag i f
    let bad := 7 < i ∨ 1 < f.axis ∨ f.hi ≤ f.lo ∨ f.lo < -2000000000 ∨ 2000000000 < f.lo ∨ f.hi < -2000000000
      ∨ 2000000000 < f.hi ∨ f.effects % 16 = 0 ∨ (f.effects.testBit 0 = true ∧ f.mask % 8 = 0)
      ∨ (f.effects.testBit 3 = true ∧ (f.cap < 100 ∨ 50000 < f.cap))
    let now := if f.axis = 0 then s.pp else s.fp
    let active := decide (f.lo ≤ now ∧ now ≤ f.hi)
    if bad then Refused c 0x4C tag .range s
    else
      ∃ axis, Axis.code axis = f.axis
        ∧ Answered c 0x4C tag .ok [if active then 1 else 0] s
            { s.acting with
              trg := { s.trg with
                windows := s.trg.windows.set i
                  (some
                    { axis := axis, lo := f.lo, hi := f.hi,
                      hold := if f.effects.testBit 0 = true
                        then some ⟨f.mask.testBit 0, f.mask.testBit 1, f.mask.testBit 2⟩ else none
                      exclude := f.effects.testBit 1, relief := f.effects.testBit 2,
                      cap := if f.effects.testBit 3 = true then some f.cap else none,
                      notify := f.notify, active := active }) } })
  ∧ (∀ (tag : Byte) (i : Nat) (s : State), s.takes →
    let c : Instr := .windowClear tag i
    if 7 < i then Refused c 0x4D tag .range s
    else
      Answered c 0x4D tag .ok [0] s
        { s.acting with trg := { s.trg with windows := s.trg.windows.set i none } })
  ∧ ∀ (ch : Chan) (ticks : Ticks) (s : State) (i : Nat) (w : Window),
      let old := (s.cnt.chan.get ch).count
      let new := ((s.cnt.chan.get ch).take ticks).count
      s.trg.windows[i]? = some (some w) →
      (ch = .paper ∧ w.axis = .paper ∨ ch = .fabric ∧ w.axis = .fabric) →
      ∃ t, exec (.tickBatch ch ticks) s = .next t
        ∧ t.trg.windows[i]? = some (some
            (if new = old then w else { w with active := decide (w.lo ≤ new ∧ new ≤ w.hi) }))
        ∧ (new ≠ old → w.notify = true → w.active ≠ decide (w.lo ≤ new ∧ new ≤ w.hi) →
            Noticed (.windowEdge i (!w.active) w.axis new (if old < new then .forward else .reverse)) s t))
  ∧ (∀ u : TrigUnit,
    let e := u.effects
    let active := fun w : Window => some w ∈ u.windows ∧ w.active = true
    let atNip := ∃ r ∈ u.splices, r.state = .atNip
    (∀ l, e.hold.get l = true ↔
      (∃ w m, active w ∧ w.hold = some m ∧ m.get l = true) ∨ l = .feed ∧ atNip)
    ∧ (e.exclude = true ↔ ∃ w, active w ∧ w.exclude = true)
    ∧ (e.relief = true ↔ (∃ w, active w ∧ w.relief = true) ∨ atNip)
    ∧ (e.cap = none ↔ ∀ w, active w → w.cap = none)
    ∧ ∀ c, e.cap = some c → (∃ w, active w ∧ w.cap = some c) ∧ ∀ w d, active w → w.cap = some d → c ≤ d)

/-- FABRIC_LOAD and SPLICE_AHEAD (09 R161): STATE for a load with splice records, RANGE and MISS as the name resolves;
a taken load sets the three pointers, an announcement the announced slot; entries change in their reference counts
alone. That STATE comes before the name is looked at is the model's choice (notes/assumptions/22.md). -/
def Obligations.FabricIsNamed : Prop :=
  ∀ (tag : Byte) (name : ProfileName) (s : State), s.takes →
    let bad := name ≠ .none ∧ ProfileName.inRange name = false
    let found := s.prf.resolve name
    let onlyRefs := fun t : State => Keeps [.prf, .trg] s.acting t ∧ t.prf.pinned = s.prf.pinned
      ∧ t.prf.pointer = s.prf.pointer
      ∧ ∀ n, { t.prf.entry n with refs := 0 } = { s.prf.entry n with refs := 0 }
    (let c : Instr := .fabricLoad tag name
      if s.trg.splices ≠ [] then Refused c 0x4F tag .state s
      else if bad then Refused c 0x4F tag .range s
      else if name ≠ .none ∧ found = none then Refused c 0x4F tag .miss s
      else
        ∃ t, Answered c 0x4F tag .ok (match found with | some n => [0] ++ u8 n | none => [1, 0]) s t ∧ onlyRefs t
          ∧ t.trg = { s.trg with feed := found, nip := found, rewind := found })
    ∧ let c : Instr := .spliceAhead tag name
      if bad then Refused c 0x50 tag .range s
      else if name ≠ .none ∧ found = none then Refused c 0x50 tag .miss s
      else
        ∃ t, Answered c 0x50 tag .ok [] s t ∧ onlyRefs t ∧ t.trg = { s.trg with announced := found }

/-! ## The fault monitor's commands (10) -/

/-- CLEAR_LINE (10 R176, with 04 R75, 07 R131, 08 R148, 09 R165): STATE unless the line is OFF, READY or FAULTED and
everything is at rest; else OK, and the queue, the insert slots, the waiting reports and the live transactions are
emptied, with dispatch OFF, last_end at PP and the next transaction number kept; the probes go and the floor flag is
cleared; the tracker is UNLOCKED with S 0 and its high point at PP; the splice records, the announced entry, the PANEL
slots and the HOST entries with an unresolved anchor go. With room in the head-link buffer a WITHDRAW for each live
transaction joins it, in an order left open here. Kept, as stated here: the fault latch's record, the other fields of
the dose unit, the tracker and the trigger unit, and the whole of the counting unit, the motion and heat controllers,
the tension loops, the parameters, the host link, the input pins and the command queue. Nothing more is stated here:
of the fault monitor not the further causes, their count, the frames of the transmit queue with the ORPHANED notices,
the notices-dropped flag or the link silence timer; of the head link not its speed or its framer; of the profile table
neither the entries nor their references. -/
def Obligations.ClearLineEmptiesTheLine : Prop :=
  ∀ (tag : Byte) (s : State), s.takes →
    let c : Instr := .clearLine tag
    let rest := s.mot.vref = 0 ∧ s.cnt.chan.paper.speed = 0 ∧ s.cnt.chan.fabric.speed = 0
      ∧ s.cnt.chan.drum.speed = 0
    if (s.mot.line = .off ∨ s.mot.line = .ready ∨ s.mot.line = .faulted) ∧ rest then
      ∃ t, Answered c 0x5B tag .ok [] s t
        ∧ Keeps [.dose, .prf, .pq, .head, .mrk, .trg, .flt, .free] s.acting t
        ∧ t.flt.latch = s.flt.latch
        ∧ t.pq = { s.pq with
            queue := [], slots := List.replicate 4 .empty, waiting := [], dispatch := .off,
            lastEnd := s.pp, live := [] }
        ∧ (s.head.buf.length + s.pq.live.length ≤ 8 →
            ∃ l, l.Perm (s.pq.live.map fun x => HeadFrame.withdraw x.num x.tag)
              ∧ t.head.buf = s.head.buf ++ l)
        ∧ t.dose = { s.dose with probes := [], floorFlag := false }
        ∧ t.mrk = { s.mrk with state := .unlocked, slip := 0, high := s.pp }
        ∧ t.trg = { s.trg with
            splices := [], announced := none
            slots := s.trg.slots.map fun x =>
              match x with
              | .held .panel _ => .free
              | .held .host e => if e.position = none ∧ e.anchor ≠ none then .free else .held .host e
              | .free => .free }
    else Refused c 0x5B tag .state s

/-- The reading commands answer OK with their data in every state and change nothing (01 R15, 02 R39, 03 R57, 04 R77,
R78, 05 R91, 06 R103, 07 R132, 08 R149, 09 R166, 10 R171), with RANGE or MISS where they name nothing; READ_STATUS
clears two flags with its clear option (R174). The status image is laid out byte for byte as 11.6.3 says, PANEL_REPORT
as 11.6.2, START as 11.6.1. The layouts of the other replies are those of 11 R182 with the choices of the model
(notes/assumptions/14.md), among them the code of the dispatch state and the order of the live transactions. RANGE for a READ_PROBE index below 0 is the
model's choice (notes/assumptions/42.md). -/
def Obligations.ReadingCommandsAnswer : Prop :=
  ∀ (tag : Byte) (first : Option Int) (n : Nat) (i : Int) (s : State), s.takes →
    Answered (.readCounts tag) 0x09 tag .ok s.countsData s s.acting
    ∧ Answered (.readMotion tag) 0x1A tag .ok s.motionData s s.acting
    ∧ Answered (.readHeat tag first) 0x21 tag .ok (s.heatData first) s s.acting
    ∧ Answered (.readDose tag) 0x24 tag .ok s.doseData s s.acting
    ∧ Answered (.readTension tag) 0x28 tag .ok s.tensionData s s.acting
    ∧ Answered (.readQueue tag first) 0x3F tag .ok (s.queueData first) s s.acting
    ∧ Answered (.readMarks tag first) 0x44 tag .ok (s.marksData first) s s.acting
    ∧ Answered (.readWindows tag) 0x4E tag .ok s.windowsData s s.acting
    ∧ Answered (.readFabric tag) 0x51 tag .ok s.fabricData s s.acting
    ∧ Answered (.readFault tag) 0x59 tag .ok s.faultData s s.acting
    ∧ Answered (.profileRead tag none first) 0x32 tag .ok (tableData s.prf first) s s.acting
    ∧ (if 31 < n then Refused (.profileRead tag (some n) first) 0x32 tag .range s
      else Answered (.profileRead tag (some n) first) 0x32 tag .ok (entryBytes s.prf n) s s.acting)
    ∧ (if 23 < n then Refused (.triggerRead tag n) 0x4B tag .range s
      else Answered (.triggerRead tag n) 0x4B tag .ok (s.triggerData (s.slot n)) s s.acting)
    ∧ (match s.panel? n with
      | none => Refused (.readPanel tag n) 0x40 tag .miss s
      | some p => Answered (.readPanel tag n) 0x40 tag .ok (panelData p) s s.acting)
    ∧ (i < 0 ∨ (s.dose.probes.length : Int) ≤ i → Refused (.readProbe tag i) 0x25 tag .range s)
    ∧ (∀ (k : Nat) b, s.dose.probes[k]? = some b →
        Answered (.readProbe tag k) 0x25 tag .ok (probeBytes b) s s.acting)
    ∧ Answered (.readStatus tag false) 0x5A tag .ok s.statusData s s.acting
    ∧ Answered (.readStatus tag true) 0x5A tag .ok s.statusData s
        { s.acting with
          mrk := { s.mrk with stray := false }, flt := { s.acting.flt with dropped := false } }
    ∧ s.statusData.length = 51
    ∧ let be := fun (width : Nat) (n : Int) =>
        (List.range width).map fun i => (BitVec.ofInt 8 (n / 256 ^ (width - 1 - i)) : Byte)
      let set := fun l : List Bool => (((l.zipIdx).filter Prod.fst).map fun x => 2 ^ x.2).sum
      let verdicts := [Verdict.good, .underDose, .overDose, .uncertain, .spoiled, .skipped, .cancelled]
      (let f := (TxFrame.reply 0x5A tag .ok s.statusData none).frame
        let part := fun at_ width => (f.body.drop at_).take width
       f.kind = 0xDA ∧ f.tag = tag ∧ f.body.length = 52 ∧ part 0 1 = [0] ∧ part 1 1 = be 1 ([.off, .warming, .ready, .running, .stopping, .threading, .halting, .faulted].idxOf s.mot.line)
        ∧ part 2 3 = (match s.flt.latch with
            | none => [0, 0, 0xFF]
            | some r => [1] ++ be 1 (([.webBreak, .overTension, .overheat, .drumCold, .zoneSensor, .mainsLost,
                .nipTimeout, .stall, .encoderSilent, .positionRange, .spliceOverflow, .linkLost,
                .estop].idxOf r.cause) + 1) ++ be 1 (r.inst.getD 0xFF))
        ∧ part 5 1 = be 1 (set [s.heat.on, s.heat.ready])
        ∧ (∀ z : Zone, let r := s.heat.zones.get z
            part (6 + z.num) 1 = be 1 (set [r.enable, r.sensor = .hold, r.sensor = .lost, r.inBand, r.overheat,
              r.shortfall]))
        ∧ part 12 3 = [Loop.feed, .unwind, .rewind].flatMap (fun l =>
            be 1 ([.off, .standby, .regulate, .hold, .fault].idxOf (s.ten.get l).state))
        ∧ part 15 1 = be 1 ([.unlocked, .provisional, .locked, .holdover].idxOf s.mrk.state)
        ∧ part 16 4 = be 4 s.mrk.slip ∧ part 20 1 = be 1 ([.enabled, .held, .off].idxOf s.pq.dispatch)
        ∧ part 21 7 = [PanelState.queued, .starting, .printing, .printed, .spoiled, .inArc, .done].flatMap
            (fun st => be 1 (s.pq.queue.countP fun p => p.state = st))
        ∧ part 28 1 = be 1 (s.pq.queue.countP fun p => p.state = .done && s.pq.waiting.contains p.tag)
        ∧ part 29 1 = be 1 (s.pq.slots.countP fun x => match x with | .armed _ => true | _ => false)
        ∧ part 30 4 = be 4 s.mot.vref ∧ part 34 4 = be 4 s.dose.vDose ∧ part 38 4 = be 4 s.pp ∧ part 42 4 = be 4 s.fp
        ∧ part 46 1 = be 1 (set [s.mrk.stray, s.flt.dropped])
        ∧ part 47 1 = be 1 (set ([Output.out0, .out1, .out2, .out3, .markout].map s.outLevel))
        ∧ part 48 4 = be 4 s.cnt.clock.toNat)
      ∧ (∀ p : Panel, let f := (TxFrame.notice s.cnt.clock (.panelReport p)).frame
        let d := p.dose.getD ⟨none, false, 0, ⟨none, none, none, none, none, none⟩, none, false, false⟩
        let g := p.flags
        f.kind = 0xE0 ∧ f.tag = 0
        ∧ f.body = be 4 s.cnt.clock.toNat ++ be 2 p.tag ++ be 1 (if p.kind = .normal then 0 else 1) ++ be 1 p.profile
          ++ be 4 p.length ++ be 1 ((p.verdict.map verdicts.idxOf).getD 0) ++ be 1 p.attempts
          ++ be 2 (match p.reason with | none => 0 | some (.code n) => n | some .timeout => 256)
          ++ be 1 (set [p.xs.isSome, p.printed.isSome, p.markResult.isSome, p.markResult = some .missed,
            p.arrival.isSome, p.dose.isSome, d.maximum.isSome])
          ++ be 1 (set (Zone.all.map fun z => (d.minima.get z).isSome)) ++ be 4 (p.xs.getD 0)
          ++ be 4 (match p.printed with | none => 0 | some (.len n) => n | some .unknown => -1)
          ++ be 4 (match p.markResult with | some (.error e) => e | _ => 0) ++ be 4 (p.arrival.getD 0) ++ be 2 d.folds
          ++ Zone.all.flatMap (fun z => be 4 ((d.minima.get z).getD 0)) ++ be 4 (d.maximum.getD 0)
          ++ be 2 (set [g.stopAffected, g.nipOpen, g.spliceAffected, g.excluded, g.sparse, g.underspeed, g.markMissed,
            g.fabricMismatch, g.rejectUnmarked, p.offered]))
      ∧ ∀ (txn panel : Nat) (xs length : Int) (gains : Six Int) (mark : Bool),
        let f := (HeadFrame.start txn panel xs length gains mark).frame
        f.kind = 0x01 ∧ [f.tag] = be 1 txn
        ∧ ((∀ z, 0 ≤ gains.get z) → f.body = be 2 panel ++ be 4 xs ++ be 4 length
            ++ Zone.all.flatMap (fun z => be 2 (gains.get z)) ++ be 1 (if mark = true then 0 else 1))

/-! ## The host link (11) -/

/-- SET_PARAM and GET_PARAM, whole (11 R183), with the parameter tables of chapters 1 to 10 (`paramTable`) and their
notes: every id, what it holds, its range or list, the bounds between parameters and the states in which a write is
refused. The checks in their order; a taken write is held, the reply gives the id and the value now held, and no other
parameter changes but v_set, which a lower v_max brings down (02 R30). Beside the value, a write of an input mode or a
scale clears the remainder (01 R5), of sil_mask stops and starts the silence timers (01 R9), of t_nip at or below the
running nip timer raises NIP_TIMEOUT at once (02 2.9; a standing timer stays, notes/assumptions/35.md), of T_link stops
or starts the link silence timer (10 R175), of b_head changes the head link's speed, abandoning a frame held in part
(07 R118, R133; at once on an idle link, 30.md), of gap or lead tests for a decision (07 R115); any other changes the
parameter alone. That a standing nip or silence timer stays at a write of its limit is the model's choice
(notes/assumptions/35.md), and so is that b_head acts at once on an idle link and that a write of the speed in force
keeps the framer (notes/assumptions/30.md). -/
def Obligations.ParametersAreWrittenAndRead : Prop :=
  (∀ (tag : Byte) (id : Nat) (s : State), s.takes →
    match Param.ofId id with
    | none =>
        Refused (.getParam tag id) 0x03 tag .miss s ∧ ∀ v, Refused (.setParam tag id v) 0x02 tag .miss s
    | some p =>
        Answered (.getParam tag id) 0x03 tag .ok (u16 id ++ i32 (s.param p)) s s.acting
        ∧ ∀ v,
          let c : Instr := .setParam tag id v
          if p.allows v = false then Refused c 0x02 tag .range s
          else if s.bounded p v = false then Refused c 0x02 tag .range s
          else
            match s.paramBar p with
            | some st => Refused c 0x02 tag st s
            | none =>
                ∃ t, Answered c 0x02 tag .ok (u16 id ++ i32 v) s t
                  ∧ Keeps [.cnt, .mot, .pq, .head, .flt, .par] s.acting t
                  ∧ t.param p = v ∧ (∀ q, q ≠ p → q ≠ .vSet → t.param q = s.param q)
                  ∧ (p ≠ .vSet → t.par.vSet = if p = .vMax then min s.par.vSet v else s.par.vSet)
                  ∧ (let u := s.acting
                    let chan := fun ch => s.cnt.chan.get ch
                    let line := s.mot.line
                    match p with
                    | .mEnc ch => Keeps [.cnt] u t ∧ { t.cnt with chan := s.cnt.chan } = s.cnt
                        ∧ t.cnt.chan = s.cnt.chan.set ch { chan ch with mode := (t.cnt.chan.get ch).mode, rem := 0 }
                    | .tpm ch => Keeps [.cnt] u t ∧ { t.cnt with chan := s.cnt.chan } = s.cnt
                        ∧ t.cnt.chan = s.cnt.chan.set ch { chan ch with tpm := v, rem := 0 }
                    | .silMask => Keeps [.cnt, .par] u t ∧ { t.cnt with chan := s.cnt.chan } = s.cnt
                        ∧ ∀ ch, t.cnt.chan.get ch = { chan ch with
                            silence := if v.toNat.testBit ch.num = false then .stopped
                              else if s.par.silMask.get ch = true then (chan ch).silence
                              else if 1000 ≤ s.mot.vref then .running 0 else .stopped }
                    | .tNip =>
                        let w := { u with par := { s.par with tNip := v } }
                        match s.mot.nipTimer with
                        | .running ms =>
                            if v ≤ ms then
                              t = raise .nipTimeout none { w with mot := { s.mot with nipTimer := .standing v.toNat } }
                            else t = w
                        | .stopped | .standing _ => t = w
                    | .tLink => t = { u with
                        par := { s.par with tLink := v }
                        flt := { u.flt with
                          link := if v = 0 then .stopped
                            else if s.par.tLink = 0 ∧ (line = .running ∨ line = .stopping ∨ line = .threading) then
                              .running 0
                            else u.flt.link } }
                    | .bHead => t = { u with
                        par := { s.par with bHead := v }
                        head := if s.head.buf ≠ [] then { s.head with pendingBaud := some v }
                          else { s.head with
                            baud := v, pendingBaud := none
                            framer := if s.head.baud = v then s.head.framer else .hunting } }
                    | .gap => t = decide_ { u with par := { s.par with gap := v } }
                    | .lead => t = decide_ { u with par := { s.par with lead := v } }
                    | _ => Keeps [.par] u t)
                  ∧ ∀ ch, (t.cnt.chan.get ch).rem =
                      if p = .mEnc ch ∨ p = .tpm ch then 0 else (s.cnt.chan.get ch).rem)
  ∧ (∀ row ∈ paramTable, ∃ p, Param.ofId row.id = some p ∧ ∀ v, p.allows v = decide (row.low ≤ v ∧ v ≤ row.high))
  ∧ (∀ v, Param.bHead.allows v = decide (v ∈ [115200, 230400, 460800, 921600, 1000000, 2000000, 3000000]))
  ∧ (∀ v, Param.tLink.allows v = decide (v = 0 ∨ 100 ≤ v ∧ v ≤ 10000))
  ∧ (∀ id, (Param.ofId id).isSome = decide (id ∈ [0x0707, 0x0A01] ++ paramTable.map ParamRow.id))
  ∧ (∀ s : State,
    let holds := fun id v => (Param.ofId id).map s.param = some v
    let c := s.cnt.chan
    let p := s.par
    let modes := [Mode.quadrature, .pulseDir, .upDown, .pulseOnly]
    let bit := fun b : Bool => if b = true then (1 : Int) else 0
    (holds 0x0101 (modes.idxOf c.paper.mode) ∧ holds 0x0102 (modes.idxOf c.fabric.mode)
      ∧ holds 0x0103 (modes.idxOf c.drum.mode) ∧ holds 0x0111 c.paper.tpm ∧ holds 0x0112 c.fabric.tpm
      ∧ holds 0x0113 c.drum.tpm ∧ holds 0x0120 p.tSil
      ∧ holds 0x0121 (bit p.silMask.paper + 2 * bit p.silMask.fabric + 4 * bit p.silMask.drum)
      ∧ holds 0x0130 p.dSlock)
    ∧ (holds 0x0201 p.vMax ∧ holds 0x0202 p.vSet ∧ holds 0x0203 p.aUp ∧ holds 0x0204 p.aDn ∧ holds 0x0205 p.aHalt
      ∧ holds 0x0206 p.vJog ∧ holds 0x0207 p.vFloor ∧ holds 0x0210 p.tNip ∧ holds 0x0211 p.tHold)
    ∧ (holds 0x0301 p.kP ∧ holds 0x0302 p.kI ∧ holds 0x0303 p.mFire ∧ holds 0x0304 p.thAbs ∧ holds 0x0305 p.bReady
      ∧ holds 0x0306 p.tSettle)
    ∧ (holds 0x0401 p.thetaRef ∧ holds 0x0402 p.thetaStep ∧ holds 0x0403 p.arcLen ∧ holds 0x0404 p.spacing)
    ∧ (holds 0x0501 p.tPaper ∧ holds 0x0502 p.rSlew ∧ holds 0x0503 p.fStand ∧ holds 0x0504 p.fBreak
      ∧ holds 0x0505 p.tBreak ∧ holds 0x0506 p.fOver ∧ holds 0x0507 p.tOver
      ∧ holds 0x0511 p.loopKp.feed ∧ holds 0x0512 p.loopKi.feed ∧ holds 0x0513 p.loopKp.unwind
      ∧ holds 0x0514 p.loopKi.unwind ∧ holds 0x0515 p.loopKp.rewind ∧ holds 0x0516 p.loopKi.rewind
      ∧ holds 0x0521 p.ffUnw ∧ holds 0x0522 p.ffRew)
    ∧ (holds 0x0701 p.gap ∧ holds 0x0702 p.lead ∧ holds 0x0703 p.tAcc ∧ holds 0x0704 p.nRetry ∧ holds 0x0705 p.mDone
      ∧ holds 0x0706 p.dMark ∧ holds 0x0707 p.bHead)
    ∧ (holds 0x0801 p.lMs ∧ holds 0x0802 p.lPn ∧ holds 0x0803 p.wM ∧ holds 0x0804 p.gain ∧ holds 0x0805 p.tol)
    ∧ (holds 0x0901 p.wOut.out0 ∧ holds 0x0902 p.wOut.out1 ∧ holds 0x0903 p.wOut.out2 ∧ holds 0x0904 p.wOut.out3
      ∧ holds 0x0905 p.wOut.markout ∧ holds 0x0910 p.lFn ∧ holds 0x0911 p.lFr ∧ holds 0x0912 p.margin)
    ∧ holds 0x0A01 p.tLink)
  ∧ ∀ (s : State) (p : Param) (v : Int),
    let q := s.par
    let tied := s.mot.line = .running ∨ s.mot.line = .stopping ∨ s.mot.line = .threading
    let bar := fun (b : Prop) [Decidable b] => if b then some Status.state else none
    (s.bounded p v = true ↔
      match p with
      | .vSet => v ≤ q.vMax
      | .thAbs => s.heat.on = true → ∀ z, (s.heat.zones.get z).enable = true →
          s.heat.setpoint + (s.heat.zones.get z).offset ≤ v
      | .arcLen => v ≤ 60 * q.spacing ∧ q.lFn + v + q.margin < q.lFr
      | .spacing => q.arcLen ≤ 60 * v
      | .lMs => v + q.wM + 10000 ≤ q.lPn
      | .lPn => q.lMs + q.wM + 10000 ≤ v
      | .wM => q.lMs + v + 10000 ≤ q.lPn
      | .lFn => v + q.arcLen + q.margin < q.lFr
      | .lFr => q.lFn + q.arcLen + q.margin < v
      | .margin => q.lFn + q.arcLen + v < q.lFr
      | _ => True)
    ∧ s.paramBar p =
      match p with
      | .mEnc _ | .tpm _ => bar (tied ∨ s.mot.line = .halting)
      | .thetaRef | .thetaStep | .dMark | .lFn | .lFr | .margin => bar tied
      | .arcLen | .spacing =>
          bar (tied ∨ s.dose.probes ≠ [] ∨ ∃ x ∈ s.pq.queue, x.dose ≠ none ∧ x.state ≠ .done)
      | .lMs | .lPn | .wM => bar (tied ∨ ∃ x ∈ s.pq.queue, x.xs ≠ none)
      | .bHead => if s.pq.live = [] then none else some .busy
      | _ => none

/-- A command frame that finds no free place waits: it joins the command buffer, or is discarded where four wait (11
R179); the row of a command and UNKNOWN_COMMAND with the bytes of its frame do the same (notes/assumptions/3.md). A
frame taken is checked (R178, R180): a KIND of 0x00 or of 0x60 and above is discarded, restarting the link silence
timer alone; a KIND not in the index is answered UNKNOWN, a body that does not fit LENGTH, a command by its owning
block. A place freed by FRAME_SENT goes to the oldest waiting frame, which has the effect it has when taken at once in
the state with that place free, and the others keep their order; a report that waits goes before it (the model's
choice, 3.md). LINK_CONFIG (R177): RANGE for a speed not in the list, else OK, the speed changing when the reply has
been sent. -/
def Obligations.CommandsWaitOrAreRefused : Prop :=
  (∀ (c : Instr) (f : Frame) (s : State), commandFrame c = some f → s.flt.room = false →
    exec c s = .next ((restartLink s).upLnk fun l =>
      { l with buffer := if l.buffer.length < 4 then l.buffer ++ [f] else l.buffer }))
  ∧ (∀ (kind tag : Byte) (body : List Byte) (s : State), kind ≠ 0 → kind.toNat < 0x60 → s.flt.room = false →
    exec (.unknownCommand kind tag body) s = .next ((restartLink s).upLnk fun l =>
      { l with buffer := if l.buffer.length < 4 then l.buffer ++ [⟨kind, tag, body⟩] else l.buffer }))
  ∧ (∀ (kind tag : Byte) (body : List Byte) (s : State), kind = 0 ∨ 0x60 ≤ kind.toNat →
    exec (.unknownCommand kind tag body) s = .next (restartLink s))
  ∧ (∀ (kind tag : Byte) (body : List Byte) (s : State), s.takes → kind ≠ 0 → kind.toNat < 0x60 →
    let c : Instr := .unknownCommand kind tag body
    let frame : Frame := ⟨kind, tag, body⟩
    (kind.toNat ∉ [0x01, 0x02, 0x03, 0x08, 0x09, 0x10, 0x11, 0x12, 0x13, 0x14, 0x15, 0x16, 0x17, 0x18, 0x19,
        0x1A, 0x20, 0x21, 0x24, 0x25, 0x28, 0x30, 0x31, 0x32, 0x33, 0x34, 0x35, 0x38, 0x39, 0x3A, 0x3B, 0x3C,
        0x3D, 0x3E, 0x3F, 0x40, 0x44, 0x48, 0x49, 0x4A, 0x4B, 0x4C, 0x4D, 0x4E, 0x4F, 0x50, 0x51, 0x58, 0x59,
        0x5A, 0x5B] ↔ readCommand frame = .unknown)
    ∧ (readCommand frame = .unknown → Refused c kind tag .unknown s)
    ∧ (readCommand frame = .badLength → Refused c kind tag .length s))
  ∧ (∀ (c : Instr) (f : Frame) (s : State), c.wf = true → commandFrame c = some f →
    (exec (.unknownCommand f.kind f.tag f.body) s = exec c s
      ∧ ∀ body, body.length ≠ f.body.length → readCommand ⟨f.kind, f.tag, body⟩ = .badLength))
  ∧ (∀ (c : Instr) (g : Frame) (rest : List Frame) (s : State), c.wf = true → commandFrame c = some g →
    s.lnk.buffer = g :: rest → s.flt.current ≠ none → s.flt.used = 32 → s.flt.kept = false → s.pq.waiting = [] →
    restartLink s = s →
    ∃ a, exec .frameSent { s with lnk := { s.lnk with buffer := [] } } = .next a
      ∧ ∃ u, exec c a = .next u ∧ exec .frameSent s = .next { u with lnk := { u.lnk with buffer := rest } })
  ∧ (∀ s : State, s.flt.current ≠ none → s.flt.used = 32 → s.flt.kept = false → s.pq.waiting ≠ [] →
    (∀ tag ∈ s.pq.waiting, s.panel? tag ≠ none) →
    ∃ t, exec .frameSent s = .next t ∧ t.lnk.buffer = s.lnk.buffer ∧ t.pq.waiting = s.pq.waiting.tail)
  ∧ ∀ (tag : Byte) (baud : Int) (s : State), s.takes →
    let c : Instr := .linkConfig tag baud
    if baud ∉ [115200, 230400, 460800, 921600, 1000000, 2000000, 3000000] then Refused c 0x01 tag .range s
    else
      exec c s = .next (answer 0x01 tag ⟨.ok, [], if baud = s.lnk.baud then none else some baud⟩ s.acting)

/-- FRAME_SENT completes in every state (10 R173, 11 R177): with TXD idle nothing happens; else the frame leaves, its
LINK_CONFIG takes effect, and the oldest waiting reply, or with none the oldest waiting frame, is begun; the others
keep their order; what a waiting command does then is `Obligations.CommandsWaitOrAreRefused`. The framing events
abandon the frame held (R178). A change of line state is noticed (02 R27); whatever command brings it, one into
RUNNING, STOPPING or THREADING from outside them starts the link silence timer from 0, one out of them stops it (10
R175). Notices are dropped only by a full queue (R173). That the next frame is begun before a waiting command is taken
is the model's choice (notes/assumptions/3.md). -/
def Obligations.FramesLeaveInOrder : Prop :=
  (∀ s : State, ∃ t, exec .frameSent s = .next t ∧ Keeps (touches .frameSent) s t
    ∧ (s.flt.current = none → t = s)
    ∧ (s.lnk.buffer = [] → Keeps [.prf, .pq, .head, .trg, .flt, .lnk, .free] s t)
    ∧ ∀ x, s.flt.current = some x →
      t.lnk.baud = x.newBaud.getD s.lnk.baud
      ∧ t.lnk.framer = (if x.newBaud = none then s.lnk.framer else .hunting)
      ∧ (s.lnk.buffer = [] → t.lnk.buffer = [])
      ∧ (s.lnk.buffer = [] → s.pq.waiting = [] → s.flt.waiting = [] → t.flt = { s.flt with current := none })
      ∧ ∀ l y r, s.flt.waiting = l ++ y :: r →
          (y.isReply = true ∧ (∀ f ∈ l, f.isReply = false)
            ∨ l = [] ∧ ∀ f ∈ s.flt.waiting, f.isReply = false) →
          t.flt.current = some y ∧ (s.lnk.buffer = [] → s.pq.waiting = [] → t.flt = { s.flt with current := some y, waiting := l ++ r }))
  ∧ (∀ s : State,
    exec (.frameGapTimeout .host) s = .next { s with lnk := { s.lnk with framer := .hunting } }
    ∧ exec (.frameGapTimeout .head) s = .next { s with head := { s.head with framer := .hunting } }
    ∧ ∀ len : Byte, len.toNat < 2 ∨ 252 < len.toNat →
      exec (.lenOutOfRange .host len) s = .next { s with lnk := { s.lnk with framer := .hunting } }
      ∧ exec (.lenOutOfRange .head len) s = .next { s with head := { s.head with framer := .hunting } })
  ∧ ∀ (c : Instr) (s t : State), s.settled = true → s.flt.kept = false → c ≠ .powerOnReset → c ≠ .resetn →
    (∀ bytes, c ≠ .validFrame bytes) → exec c s = .next t →
    (t.mot.line ≠ s.mot.line →
      (∃ new event, Noticed (.stateChange s.mot.line new event) s t)
      ∧ ∃ old event, Noticed (.stateChange old t.mot.line event) s t)
    ∧ (let watched := fun l : LineState => l = .running ∨ l = .stopping ∨ l = .threading
      (¬watched s.mot.line → watched t.mot.line → t.flt.link = if t.par.tLink = 0 then .stopped else .running 0)
      ∧ (t.mot.line ≠ s.mot.line → ¬watched t.mot.line → t.flt.link = .stopped))
    ∧ (s.flt.dropped = false → t.flt.dropped = true → 32 ≤ t.flt.frames.length)

/-- Every well-formed host command survives the wire: the framer finds in the bytes of its frame exactly that frame (11
R178), and the checks of R180 read it back as the command, with every operand at every value its bytes allow (R182).
That the body of WINDOW_SET always holds the mask and the cap is the model's choice (notes/assumptions/14.md). -/
def Obligations.CommandFramesRoundTrip : Prop :=
  ∀ (c : Instr) (f : Frame), c.wf = true → commandFrame c = some f →
    f.isCommand = true ∧ Framer.hunting.feedAll f.wire = (.hunting, [f]) ∧ readCommand f = .command c

/-- A frame received whole on RXD (11 R178, R179, 10 R175): with a right CRC it arrives, as UNKNOWN_COMMAND with its
bytes says, and a well-formed command as its own row says; with no free place it restarts the link silence timer and, a
command, joins a command buffer that holds fewer than four; with a wrong CRC it has no effect. -/
def Obligations.ReceivedFramesAreDelivered : Prop :=
  ∀ (f : Frame) (s : State), s.lnk.framer = .hunting → f.body.length ≤ 250 →
    exec (.validFrame f.wire) s = exec (.unknownCommand f.kind f.tag f.body) s
    ∧ (∀ c, c.wf = true → commandFrame c = some f → exec (.validFrame f.wire) s = exec c s)
    ∧ (s.flt.room = false →
      exec (.validFrame f.wire) s =
        .next ((restartLink s).upLnk fun l =>
          { l with
            buffer := if f.kind ≠ 0 ∧ f.kind.toNat < 0x60 ∧ l.buffer.length < 4 then l.buffer ++ [f] else l.buffer }))
    ∧ ∀ a b : Byte, [a, b] ≠ u16 (crc f.core).toNat →
        exec (.validFrame (Config.sof :: (f.core ++ [a, b]))) s = .next s

/-! ## All commands -/

/-- Every host command that is taken is answered with its KIND and TAG (11 R180); a status other than OK leaves
everything as it was but for the reply. -/
def Obligations.RefusedCommandsChangeNothing : Prop :=
  ∀ (c : Instr) (f : Frame) (s : State), commandFrame c = some f → s.takes →
    ∃ st data b t, exec c s = .next (answer f.kind f.tag ⟨st, data, b⟩ t)
      ∧ (st ≠ .ok → t = s.acting ∧ data = [] ∧ b = none)

/-- Every command completes, and keeps every block it has no business with (00_scope.md 3). A frame arriving while
frames wait although a place is free, which no step leaves (`BuffersOk`), may bring on any host command. -/
def Obligations.CommandsKeepTheOtherBlocks : Prop :=
  ∀ (c : Instr) (s : State), ∃ t, exec c s = .next t
    ∧ Keeps (if s.settled = true ∨ viaBuffer c = false then touches c else hostTouches) s t

/-! ## Invariants: every step keeps them, from every state that meets them -/

/-- Counts and remainders stay in their ranges (01 R1, R4, R6). -/
def Obligations.StepKeepsCountsInRange : Prop :=
  ∀ s t : State, CountsOk s → step s = .next t → CountsOk t

/-- Parameters stay in their ranges and bounds, and the line, the latch, the heat, the nip and v_ref stay consistent:
v_ref is in 0 to 50,000 and 0 at rest, the nip is commanded closed only in RUNNING and STOPPING (02 2.2, R20 to R33, 11
R183). -/
def Obligations.StepKeepsTheLineConsistent : Prop :=
  ∀ s t : State, MotionInv s → step s = .next t → MotionInv t

/-- Zone records stay in their ranges, and an SSR output is on only for an enabled zone with heat on, mains present,
its sensor not LOST and no OVERHEAT (03 R40 to R56). The premise on the line is kept by every step, as
StepKeepsTheLineConsistent says: with the line OFF heat is off. -/
def Obligations.StepKeepsTheHeatSafe : Prop :=
  ∀ s t : State, MotionInv s → HeatOk s → step s = .next t → HeatOk t

/-- No two valid profiles share a key, every valid entry's trims stay within 870 to 1178, and the pointer stays in the
unpinned part (06 R94, R100, R101, R109). -/
def Obligations.StepKeepsTheProfileTable : Prop :=
  ∀ s t : State, ProfilesOk s → step s = .next t → ProfilesOk t

/-- No queue, list or table outgrows its capacity, no place stays kept, and TXD is never idle while a frame waits (10
R173, 11 R179, 07 R111, R118, 04 R62, 09 R160). -/
def Obligations.StepKeepsTheCapacities : Prop :=
  ∀ s t : State, BuffersOk s → step s = .next t → BuffersOk t

/-- Tags stay unique, live transactions match their panels, and every entry's reference count stays the number of its
holders, an entry with references valid (07 R111, R116, R129, 06 R105). Where a report waits, besides, only while the transmit
queue has no free place (07 R129), every step keeps that as well. -/
def Obligations.StepKeepsTheReferences : Prop :=
  (∀ s t : State, QueueOk s → step s = .next t → QueueOk t)
  ∧ ∀ s t : State, QueueOk s → ReportsOk s → step s = .next t → ReportsOk t

/-- Placed panels stay first, in ascending x_s and clear of one another, at or before last_end (07 R111, R116), and the
next probe point of a panel stays between its A and its A + L (04 R64, R65). -/
def Obligations.StepKeepsPlacementsClear : Prop :=
  ∀ s t : State, ParamsOk s → QueueOk s → PlacedOk s → step s = .next t → PlacedOk t
end

