-- ==== Sys2Proof/Laws/State.lean ====
section
/-! SUPPORT. Frame lemmas of the block updates: one for each field and each update, true by definition. -/

namespace Sys2Proof.Machine.State
open Sys2Proof

@[simp] theorem upCnt_cnt (s : State) (f : Counting → Counting) : (s.upCnt f).cnt = f s.cnt := rfl
@[simp] theorem upCnt_mot (s : State) (f : Counting → Counting) : (s.upCnt f).mot = s.mot := rfl
@[simp] theorem upCnt_heat (s : State) (f : Counting → Counting) : (s.upCnt f).heat = s.heat := rfl
@[simp] theorem upCnt_dose (s : State) (f : Counting → Counting) : (s.upCnt f).dose = s.dose := rfl
@[simp] theorem upCnt_ten (s : State) (f : Counting → Counting) : (s.upCnt f).ten = s.ten := rfl
@[simp] theorem upCnt_prf (s : State) (f : Counting → Counting) : (s.upCnt f).prf = s.prf := rfl
@[simp] theorem upCnt_pq (s : State) (f : Counting → Counting) : (s.upCnt f).pq = s.pq := rfl
@[simp] theorem upCnt_head (s : State) (f : Counting → Counting) : (s.upCnt f).head = s.head := rfl
@[simp] theorem upCnt_mrk (s : State) (f : Counting → Counting) : (s.upCnt f).mrk = s.mrk := rfl
@[simp] theorem upCnt_trg (s : State) (f : Counting → Counting) : (s.upCnt f).trg = s.trg := rfl
@[simp] theorem upCnt_flt (s : State) (f : Counting → Counting) : (s.upCnt f).flt = s.flt := rfl
@[simp] theorem upCnt_lnk (s : State) (f : Counting → Counting) : (s.upCnt f).lnk = s.lnk := rfl
@[simp] theorem upCnt_par (s : State) (f : Counting → Counting) : (s.upCnt f).par = s.par := rfl
@[simp] theorem upCnt_pins (s : State) (f : Counting → Counting) : (s.upCnt f).pins = s.pins := rfl
@[simp] theorem upCnt_free (s : State) (f : Counting → Counting) : (s.upCnt f).free = s.free := rfl
@[simp] theorem upCnt_pending (s : State) (f : Counting → Counting) : (s.upCnt f).pending = s.pending := rfl
@[simp] theorem upMot_cnt (s : State) (f : Motion → Motion) : (s.upMot f).cnt = s.cnt := rfl
@[simp] theorem upMot_mot (s : State) (f : Motion → Motion) : (s.upMot f).mot = f s.mot := rfl
@[simp] theorem upMot_heat (s : State) (f : Motion → Motion) : (s.upMot f).heat = s.heat := rfl
@[simp] theorem upMot_dose (s : State) (f : Motion → Motion) : (s.upMot f).dose = s.dose := rfl
@[simp] theorem upMot_ten (s : State) (f : Motion → Motion) : (s.upMot f).ten = s.ten := rfl
@[simp] theorem upMot_prf (s : State) (f : Motion → Motion) : (s.upMot f).prf = s.prf := rfl
@[simp] theorem upMot_pq (s : State) (f : Motion → Motion) : (s.upMot f).pq = s.pq := rfl
@[simp] theorem upMot_head (s : State) (f : Motion → Motion) : (s.upMot f).head = s.head := rfl
@[simp] theorem upMot_mrk (s : State) (f : Motion → Motion) : (s.upMot f).mrk = s.mrk := rfl
@[simp] theorem upMot_trg (s : State) (f : Motion → Motion) : (s.upMot f).trg = s.trg := rfl
@[simp] theorem upMot_flt (s : State) (f : Motion → Motion) : (s.upMot f).flt = s.flt := rfl
@[simp] theorem upMot_lnk (s : State) (f : Motion → Motion) : (s.upMot f).lnk = s.lnk := rfl
@[simp] theorem upMot_par (s : State) (f : Motion → Motion) : (s.upMot f).par = s.par := rfl
@[simp] theorem upMot_pins (s : State) (f : Motion → Motion) : (s.upMot f).pins = s.pins := rfl
@[simp] theorem upMot_free (s : State) (f : Motion → Motion) : (s.upMot f).free = s.free := rfl
@[simp] theorem upMot_pending (s : State) (f : Motion → Motion) : (s.upMot f).pending = s.pending := rfl
@[simp] theorem upHeat_cnt (s : State) (f : Heat → Heat) : (s.upHeat f).cnt = s.cnt := rfl
@[simp] theorem upHeat_mot (s : State) (f : Heat → Heat) : (s.upHeat f).mot = s.mot := rfl
@[simp] theorem upHeat_heat (s : State) (f : Heat → Heat) : (s.upHeat f).heat = f s.heat := rfl
@[simp] theorem upHeat_dose (s : State) (f : Heat → Heat) : (s.upHeat f).dose = s.dose := rfl
@[simp] theorem upHeat_ten (s : State) (f : Heat → Heat) : (s.upHeat f).ten = s.ten := rfl
@[simp] theorem upHeat_prf (s : State) (f : Heat → Heat) : (s.upHeat f).prf = s.prf := rfl
@[simp] theorem upHeat_pq (s : State) (f : Heat → Heat) : (s.upHeat f).pq = s.pq := rfl
@[simp] theorem upHeat_head (s : State) (f : Heat → Heat) : (s.upHeat f).head = s.head := rfl
@[simp] theorem upHeat_mrk (s : State) (f : Heat → Heat) : (s.upHeat f).mrk = s.mrk := rfl
@[simp] theorem upHeat_trg (s : State) (f : Heat → Heat) : (s.upHeat f).trg = s.trg := rfl
@[simp] theorem upHeat_flt (s : State) (f : Heat → Heat) : (s.upHeat f).flt = s.flt := rfl
@[simp] theorem upHeat_lnk (s : State) (f : Heat → Heat) : (s.upHeat f).lnk = s.lnk := rfl
@[simp] theorem upHeat_par (s : State) (f : Heat → Heat) : (s.upHeat f).par = s.par := rfl
@[simp] theorem upHeat_pins (s : State) (f : Heat → Heat) : (s.upHeat f).pins = s.pins := rfl
@[simp] theorem upHeat_free (s : State) (f : Heat → Heat) : (s.upHeat f).free = s.free := rfl
@[simp] theorem upHeat_pending (s : State) (f : Heat → Heat) : (s.upHeat f).pending = s.pending := rfl
@[simp] theorem upDose_cnt (s : State) (f : Dose → Dose) : (s.upDose f).cnt = s.cnt := rfl
@[simp] theorem upDose_mot (s : State) (f : Dose → Dose) : (s.upDose f).mot = s.mot := rfl
@[simp] theorem upDose_heat (s : State) (f : Dose → Dose) : (s.upDose f).heat = s.heat := rfl
@[simp] theorem upDose_dose (s : State) (f : Dose → Dose) : (s.upDose f).dose = f s.dose := rfl
@[simp] theorem upDose_ten (s : State) (f : Dose → Dose) : (s.upDose f).ten = s.ten := rfl
@[simp] theorem upDose_prf (s : State) (f : Dose → Dose) : (s.upDose f).prf = s.prf := rfl
@[simp] theorem upDose_pq (s : State) (f : Dose → Dose) : (s.upDose f).pq = s.pq := rfl
@[simp] theorem upDose_head (s : State) (f : Dose → Dose) : (s.upDose f).head = s.head := rfl
@[simp] theorem upDose_mrk (s : State) (f : Dose → Dose) : (s.upDose f).mrk = s.mrk := rfl
@[simp] theorem upDose_trg (s : State) (f : Dose → Dose) : (s.upDose f).trg = s.trg := rfl
@[simp] theorem upDose_flt (s : State) (f : Dose → Dose) : (s.upDose f).flt = s.flt := rfl
@[simp] theorem upDose_lnk (s : State) (f : Dose → Dose) : (s.upDose f).lnk = s.lnk := rfl
@[simp] theorem upDose_par (s : State) (f : Dose → Dose) : (s.upDose f).par = s.par := rfl
@[simp] theorem upDose_pins (s : State) (f : Dose → Dose) : (s.upDose f).pins = s.pins := rfl
@[simp] theorem upDose_free (s : State) (f : Dose → Dose) : (s.upDose f).free = s.free := rfl
@[simp] theorem upDose_pending (s : State) (f : Dose → Dose) : (s.upDose f).pending = s.pending := rfl
@[simp] theorem upTen_cnt (s : State) (f : Loops LoopRec → Loops LoopRec) : (s.upTen f).cnt = s.cnt := rfl
@[simp] theorem upTen_mot (s : State) (f : Loops LoopRec → Loops LoopRec) : (s.upTen f).mot = s.mot := rfl
@[simp] theorem upTen_heat (s : State) (f : Loops LoopRec → Loops LoopRec) : (s.upTen f).heat = s.heat := rfl
@[simp] theorem upTen_dose (s : State) (f : Loops LoopRec → Loops LoopRec) : (s.upTen f).dose = s.dose := rfl
@[simp] theorem upTen_ten (s : State) (f : Loops LoopRec → Loops LoopRec) : (s.upTen f).ten = f s.ten := rfl
@[simp] theorem upTen_prf (s : State) (f : Loops LoopRec → Loops LoopRec) : (s.upTen f).prf = s.prf := rfl
@[simp] theorem upTen_pq (s : State) (f : Loops LoopRec → Loops LoopRec) : (s.upTen f).pq = s.pq := rfl
@[simp] theorem upTen_head (s : State) (f : Loops LoopRec → Loops LoopRec) : (s.upTen f).head = s.head := rfl
@[simp] theorem upTen_mrk (s : State) (f : Loops LoopRec → Loops LoopRec) : (s.upTen f).mrk = s.mrk := rfl
@[simp] theorem upTen_trg (s : State) (f : Loops LoopRec → Loops LoopRec) : (s.upTen f).trg = s.trg := rfl
@[simp] theorem upTen_flt (s : State) (f : Loops LoopRec → Loops LoopRec) : (s.upTen f).flt = s.flt := rfl
@[simp] theorem upTen_lnk (s : State) (f : Loops LoopRec → Loops LoopRec) : (s.upTen f).lnk = s.lnk := rfl
@[simp] theorem upTen_par (s : State) (f : Loops LoopRec → Loops LoopRec) : (s.upTen f).par = s.par := rfl
@[simp] theorem upTen_pins (s : State) (f : Loops LoopRec → Loops LoopRec) : (s.upTen f).pins = s.pins := rfl
@[simp] theorem upTen_free (s : State) (f : Loops LoopRec → Loops LoopRec) : (s.upTen f).free = s.free := rfl
@[simp] theorem upTen_pending (s : State) (f : Loops LoopRec → Loops LoopRec) : (s.upTen f).pending = s.pending := rfl
@[simp] theorem upPrf_cnt (s : State) (f : Profiles → Profiles) : (s.upPrf f).cnt = s.cnt := rfl
@[simp] theorem upPrf_mot (s : State) (f : Profiles → Profiles) : (s.upPrf f).mot = s.mot := rfl
@[simp] theorem upPrf_heat (s : State) (f : Profiles → Profiles) : (s.upPrf f).heat = s.heat := rfl
@[simp] theorem upPrf_dose (s : State) (f : Profiles → Profiles) : (s.upPrf f).dose = s.dose := rfl
@[simp] theorem upPrf_ten (s : State) (f : Profiles → Profiles) : (s.upPrf f).ten = s.ten := rfl
@[simp] theorem upPrf_prf (s : State) (f : Profiles → Profiles) : (s.upPrf f).prf = f s.prf := rfl
@[simp] theorem upPrf_pq (s : State) (f : Profiles → Profiles) : (s.upPrf f).pq = s.pq := rfl
@[simp] theorem upPrf_head (s : State) (f : Profiles → Profiles) : (s.upPrf f).head = s.head := rfl
@[simp] theorem upPrf_mrk (s : State) (f : Profiles → Profiles) : (s.upPrf f).mrk = s.mrk := rfl
@[simp] theorem upPrf_trg (s : State) (f : Profiles → Profiles) : (s.upPrf f).trg = s.trg := rfl
@[simp] theorem upPrf_flt (s : State) (f : Profiles → Profiles) : (s.upPrf f).flt = s.flt := rfl
@[simp] theorem upPrf_lnk (s : State) (f : Profiles → Profiles) : (s.upPrf f).lnk = s.lnk := rfl
@[simp] theorem upPrf_par (s : State) (f : Profiles → Profiles) : (s.upPrf f).par = s.par := rfl
@[simp] theorem upPrf_pins (s : State) (f : Profiles → Profiles) : (s.upPrf f).pins = s.pins := rfl
@[simp] theorem upPrf_free (s : State) (f : Profiles → Profiles) : (s.upPrf f).free = s.free := rfl
@[simp] theorem upPrf_pending (s : State) (f : Profiles → Profiles) : (s.upPrf f).pending = s.pending := rfl
@[simp] theorem upPq_cnt (s : State) (f : PanelQueue → PanelQueue) : (s.upPq f).cnt = s.cnt := rfl
@[simp] theorem upPq_mot (s : State) (f : PanelQueue → PanelQueue) : (s.upPq f).mot = s.mot := rfl
@[simp] theorem upPq_heat (s : State) (f : PanelQueue → PanelQueue) : (s.upPq f).heat = s.heat := rfl
@[simp] theorem upPq_dose (s : State) (f : PanelQueue → PanelQueue) : (s.upPq f).dose = s.dose := rfl
@[simp] theorem upPq_ten (s : State) (f : PanelQueue → PanelQueue) : (s.upPq f).ten = s.ten := rfl
@[simp] theorem upPq_prf (s : State) (f : PanelQueue → PanelQueue) : (s.upPq f).prf = s.prf := rfl
@[simp] theorem upPq_pq (s : State) (f : PanelQueue → PanelQueue) : (s.upPq f).pq = f s.pq := rfl
@[simp] theorem upPq_head (s : State) (f : PanelQueue → PanelQueue) : (s.upPq f).head = s.head := rfl
@[simp] theorem upPq_mrk (s : State) (f : PanelQueue → PanelQueue) : (s.upPq f).mrk = s.mrk := rfl
@[simp] theorem upPq_trg (s : State) (f : PanelQueue → PanelQueue) : (s.upPq f).trg = s.trg := rfl
@[simp] theorem upPq_flt (s : State) (f : PanelQueue → PanelQueue) : (s.upPq f).flt = s.flt := rfl
@[simp] theorem upPq_lnk (s : State) (f : PanelQueue → PanelQueue) : (s.upPq f).lnk = s.lnk := rfl
@[simp] theorem upPq_par (s : State) (f : PanelQueue → PanelQueue) : (s.upPq f).par = s.par := rfl
@[simp] theorem upPq_pins (s : State) (f : PanelQueue → PanelQueue) : (s.upPq f).pins = s.pins := rfl
@[simp] theorem upPq_free (s : State) (f : PanelQueue → PanelQueue) : (s.upPq f).free = s.free := rfl
@[simp] theorem upPq_pending (s : State) (f : PanelQueue → PanelQueue) : (s.upPq f).pending = s.pending := rfl
@[simp] theorem upHead_cnt (s : State) (f : HeadLink → HeadLink) : (s.upHead f).cnt = s.cnt := rfl
@[simp] theorem upHead_mot (s : State) (f : HeadLink → HeadLink) : (s.upHead f).mot = s.mot := rfl
@[simp] theorem upHead_heat (s : State) (f : HeadLink → HeadLink) : (s.upHead f).heat = s.heat := rfl
@[simp] theorem upHead_dose (s : State) (f : HeadLink → HeadLink) : (s.upHead f).dose = s.dose := rfl
@[simp] theorem upHead_ten (s : State) (f : HeadLink → HeadLink) : (s.upHead f).ten = s.ten := rfl
@[simp] theorem upHead_prf (s : State) (f : HeadLink → HeadLink) : (s.upHead f).prf = s.prf := rfl
@[simp] theorem upHead_pq (s : State) (f : HeadLink → HeadLink) : (s.upHead f).pq = s.pq := rfl
@[simp] theorem upHead_head (s : State) (f : HeadLink → HeadLink) : (s.upHead f).head = f s.head := rfl
@[simp] theorem upHead_mrk (s : State) (f : HeadLink → HeadLink) : (s.upHead f).mrk = s.mrk := rfl
@[simp] theorem upHead_trg (s : State) (f : HeadLink → HeadLink) : (s.upHead f).trg = s.trg := rfl
@[simp] theorem upHead_flt (s : State) (f : HeadLink → HeadLink) : (s.upHead f).flt = s.flt := rfl
@[simp] theorem upHead_lnk (s : State) (f : HeadLink → HeadLink) : (s.upHead f).lnk = s.lnk := rfl
@[simp] theorem upHead_par (s : State) (f : HeadLink → HeadLink) : (s.upHead f).par = s.par := rfl
@[simp] theorem upHead_pins (s : State) (f : HeadLink → HeadLink) : (s.upHead f).pins = s.pins := rfl
@[simp] theorem upHead_free (s : State) (f : HeadLink → HeadLink) : (s.upHead f).free = s.free := rfl
@[simp] theorem upHead_pending (s : State) (f : HeadLink → HeadLink) : (s.upHead f).pending = s.pending := rfl
@[simp] theorem upMrk_cnt (s : State) (f : Marks → Marks) : (s.upMrk f).cnt = s.cnt := rfl
@[simp] theorem upMrk_mot (s : State) (f : Marks → Marks) : (s.upMrk f).mot = s.mot := rfl
@[simp] theorem upMrk_heat (s : State) (f : Marks → Marks) : (s.upMrk f).heat = s.heat := rfl
@[simp] theorem upMrk_dose (s : State) (f : Marks → Marks) : (s.upMrk f).dose = s.dose := rfl
@[simp] theorem upMrk_ten (s : State) (f : Marks → Marks) : (s.upMrk f).ten = s.ten := rfl
@[simp] theorem upMrk_prf (s : State) (f : Marks → Marks) : (s.upMrk f).prf = s.prf := rfl
@[simp] theorem upMrk_pq (s : State) (f : Marks → Marks) : (s.upMrk f).pq = s.pq := rfl
@[simp] theorem upMrk_head (s : State) (f : Marks → Marks) : (s.upMrk f).head = s.head := rfl
@[simp] theorem upMrk_mrk (s : State) (f : Marks → Marks) : (s.upMrk f).mrk = f s.mrk := rfl
@[simp] theorem upMrk_trg (s : State) (f : Marks → Marks) : (s.upMrk f).trg = s.trg := rfl
@[simp] theorem upMrk_flt (s : State) (f : Marks → Marks) : (s.upMrk f).flt = s.flt := rfl
@[simp] theorem upMrk_lnk (s : State) (f : Marks → Marks) : (s.upMrk f).lnk = s.lnk := rfl
@[simp] theorem upMrk_par (s : State) (f : Marks → Marks) : (s.upMrk f).par = s.par := rfl
@[simp] theorem upMrk_pins (s : State) (f : Marks → Marks) : (s.upMrk f).pins = s.pins := rfl
@[simp] theorem upMrk_free (s : State) (f : Marks → Marks) : (s.upMrk f).free = s.free := rfl
@[simp] theorem upMrk_pending (s : State) (f : Marks → Marks) : (s.upMrk f).pending = s.pending := rfl
@[simp] theorem upTrg_cnt (s : State) (f : TrigUnit → TrigUnit) : (s.upTrg f).cnt = s.cnt := rfl
@[simp] theorem upTrg_mot (s : State) (f : TrigUnit → TrigUnit) : (s.upTrg f).mot = s.mot := rfl
@[simp] theorem upTrg_heat (s : State) (f : TrigUnit → TrigUnit) : (s.upTrg f).heat = s.heat := rfl
@[simp] theorem upTrg_dose (s : State) (f : TrigUnit → TrigUnit) : (s.upTrg f).dose = s.dose := rfl
@[simp] theorem upTrg_ten (s : State) (f : TrigUnit → TrigUnit) : (s.upTrg f).ten = s.ten := rfl
@[simp] theorem upTrg_prf (s : State) (f : TrigUnit → TrigUnit) : (s.upTrg f).prf = s.prf := rfl
@[simp] theorem upTrg_pq (s : State) (f : TrigUnit → TrigUnit) : (s.upTrg f).pq = s.pq := rfl
@[simp] theorem upTrg_head (s : State) (f : TrigUnit → TrigUnit) : (s.upTrg f).head = s.head := rfl
@[simp] theorem upTrg_mrk (s : State) (f : TrigUnit → TrigUnit) : (s.upTrg f).mrk = s.mrk := rfl
@[simp] theorem upTrg_trg (s : State) (f : TrigUnit → TrigUnit) : (s.upTrg f).trg = f s.trg := rfl
@[simp] theorem upTrg_flt (s : State) (f : TrigUnit → TrigUnit) : (s.upTrg f).flt = s.flt := rfl
@[simp] theorem upTrg_lnk (s : State) (f : TrigUnit → TrigUnit) : (s.upTrg f).lnk = s.lnk := rfl
@[simp] theorem upTrg_par (s : State) (f : TrigUnit → TrigUnit) : (s.upTrg f).par = s.par := rfl
@[simp] theorem upTrg_pins (s : State) (f : TrigUnit → TrigUnit) : (s.upTrg f).pins = s.pins := rfl
@[simp] theorem upTrg_free (s : State) (f : TrigUnit → TrigUnit) : (s.upTrg f).free = s.free := rfl
@[simp] theorem upTrg_pending (s : State) (f : TrigUnit → TrigUnit) : (s.upTrg f).pending = s.pending := rfl
@[simp] theorem upFlt_cnt (s : State) (f : FaultMon → FaultMon) : (s.upFlt f).cnt = s.cnt := rfl
@[simp] theorem upFlt_mot (s : State) (f : FaultMon → FaultMon) : (s.upFlt f).mot = s.mot := rfl
@[simp] theorem upFlt_heat (s : State) (f : FaultMon → FaultMon) : (s.upFlt f).heat = s.heat := rfl
@[simp] theorem upFlt_dose (s : State) (f : FaultMon → FaultMon) : (s.upFlt f).dose = s.dose := rfl
@[simp] theorem upFlt_ten (s : State) (f : FaultMon → FaultMon) : (s.upFlt f).ten = s.ten := rfl
@[simp] theorem upFlt_prf (s : State) (f : FaultMon → FaultMon) : (s.upFlt f).prf = s.prf := rfl
@[simp] theorem upFlt_pq (s : State) (f : FaultMon → FaultMon) : (s.upFlt f).pq = s.pq := rfl
@[simp] theorem upFlt_head (s : State) (f : FaultMon → FaultMon) : (s.upFlt f).head = s.head := rfl
@[simp] theorem upFlt_mrk (s : State) (f : FaultMon → FaultMon) : (s.upFlt f).mrk = s.mrk := rfl
@[simp] theorem upFlt_trg (s : State) (f : FaultMon → FaultMon) : (s.upFlt f).trg = s.trg := rfl
@[simp] theorem upFlt_flt (s : State) (f : FaultMon → FaultMon) : (s.upFlt f).flt = f s.flt := rfl
@[simp] theorem upFlt_lnk (s : State) (f : FaultMon → FaultMon) : (s.upFlt f).lnk = s.lnk := rfl
@[simp] theorem upFlt_par (s : State) (f : FaultMon → FaultMon) : (s.upFlt f).par = s.par := rfl
@[simp] theorem upFlt_pins (s : State) (f : FaultMon → FaultMon) : (s.upFlt f).pins = s.pins := rfl
@[simp] theorem upFlt_free (s : State) (f : FaultMon → FaultMon) : (s.upFlt f).free = s.free := rfl
@[simp] theorem upFlt_pending (s : State) (f : FaultMon → FaultMon) : (s.upFlt f).pending = s.pending := rfl
@[simp] theorem upLnk_cnt (s : State) (f : HostLink → HostLink) : (s.upLnk f).cnt = s.cnt := rfl
@[simp] theorem upLnk_mot (s : State) (f : HostLink → HostLink) : (s.upLnk f).mot = s.mot := rfl
@[simp] theorem upLnk_heat (s : State) (f : HostLink → HostLink) : (s.upLnk f).heat = s.heat := rfl
@[simp] theorem upLnk_dose (s : State) (f : HostLink → HostLink) : (s.upLnk f).dose = s.dose := rfl
@[simp] theorem upLnk_ten (s : State) (f : HostLink → HostLink) : (s.upLnk f).ten = s.ten := rfl
@[simp] theorem upLnk_prf (s : State) (f : HostLink → HostLink) : (s.upLnk f).prf = s.prf := rfl
@[simp] theorem upLnk_pq (s : State) (f : HostLink → HostLink) : (s.upLnk f).pq = s.pq := rfl
@[simp] theorem upLnk_head (s : State) (f : HostLink → HostLink) : (s.upLnk f).head = s.head := rfl
@[simp] theorem upLnk_mrk (s : State) (f : HostLink → HostLink) : (s.upLnk f).mrk = s.mrk := rfl
@[simp] theorem upLnk_trg (s : State) (f : HostLink → HostLink) : (s.upLnk f).trg = s.trg := rfl
@[simp] theorem upLnk_flt (s : State) (f : HostLink → HostLink) : (s.upLnk f).flt = s.flt := rfl
@[simp] theorem upLnk_lnk (s : State) (f : HostLink → HostLink) : (s.upLnk f).lnk = f s.lnk := rfl
@[simp] theorem upLnk_par (s : State) (f : HostLink → HostLink) : (s.upLnk f).par = s.par := rfl
@[simp] theorem upLnk_pins (s : State) (f : HostLink → HostLink) : (s.upLnk f).pins = s.pins := rfl
@[simp] theorem upLnk_free (s : State) (f : HostLink → HostLink) : (s.upLnk f).free = s.free := rfl
@[simp] theorem upLnk_pending (s : State) (f : HostLink → HostLink) : (s.upLnk f).pending = s.pending := rfl
@[simp] theorem upPar_cnt (s : State) (f : Params → Params) : (s.upPar f).cnt = s.cnt := rfl
@[simp] theorem upPar_mot (s : State) (f : Params → Params) : (s.upPar f).mot = s.mot := rfl
@[simp] theorem upPar_heat (s : State) (f : Params → Params) : (s.upPar f).heat = s.heat := rfl
@[simp] theorem upPar_dose (s : State) (f : Params → Params) : (s.upPar f).dose = s.dose := rfl
@[simp] theorem upPar_ten (s : State) (f : Params → Params) : (s.upPar f).ten = s.ten := rfl
@[simp] theorem upPar_prf (s : State) (f : Params → Params) : (s.upPar f).prf = s.prf := rfl
@[simp] theorem upPar_pq (s : State) (f : Params → Params) : (s.upPar f).pq = s.pq := rfl
@[simp] theorem upPar_head (s : State) (f : Params → Params) : (s.upPar f).head = s.head := rfl
@[simp] theorem upPar_mrk (s : State) (f : Params → Params) : (s.upPar f).mrk = s.mrk := rfl
@[simp] theorem upPar_trg (s : State) (f : Params → Params) : (s.upPar f).trg = s.trg := rfl
@[simp] theorem upPar_flt (s : State) (f : Params → Params) : (s.upPar f).flt = s.flt := rfl
@[simp] theorem upPar_lnk (s : State) (f : Params → Params) : (s.upPar f).lnk = s.lnk := rfl
@[simp] theorem upPar_par (s : State) (f : Params → Params) : (s.upPar f).par = f s.par := rfl
@[simp] theorem upPar_pins (s : State) (f : Params → Params) : (s.upPar f).pins = s.pins := rfl
@[simp] theorem upPar_free (s : State) (f : Params → Params) : (s.upPar f).free = s.free := rfl
@[simp] theorem upPar_pending (s : State) (f : Params → Params) : (s.upPar f).pending = s.pending := rfl
@[simp] theorem upPins_cnt (s : State) (f : Pins → Pins) : (s.upPins f).cnt = s.cnt := rfl
@[simp] theorem upPins_mot (s : State) (f : Pins → Pins) : (s.upPins f).mot = s.mot := rfl
@[simp] theorem upPins_heat (s : State) (f : Pins → Pins) : (s.upPins f).heat = s.heat := rfl
@[simp] theorem upPins_dose (s : State) (f : Pins → Pins) : (s.upPins f).dose = s.dose := rfl
@[simp] theorem upPins_ten (s : State) (f : Pins → Pins) : (s.upPins f).ten = s.ten := rfl
@[simp] theorem upPins_prf (s : State) (f : Pins → Pins) : (s.upPins f).prf = s.prf := rfl
@[simp] theorem upPins_pq (s : State) (f : Pins → Pins) : (s.upPins f).pq = s.pq := rfl
@[simp] theorem upPins_head (s : State) (f : Pins → Pins) : (s.upPins f).head = s.head := rfl
@[simp] theorem upPins_mrk (s : State) (f : Pins → Pins) : (s.upPins f).mrk = s.mrk := rfl
@[simp] theorem upPins_trg (s : State) (f : Pins → Pins) : (s.upPins f).trg = s.trg := rfl
@[simp] theorem upPins_flt (s : State) (f : Pins → Pins) : (s.upPins f).flt = s.flt := rfl
@[simp] theorem upPins_lnk (s : State) (f : Pins → Pins) : (s.upPins f).lnk = s.lnk := rfl
@[simp] theorem upPins_par (s : State) (f : Pins → Pins) : (s.upPins f).par = s.par := rfl
@[simp] theorem upPins_pins (s : State) (f : Pins → Pins) : (s.upPins f).pins = f s.pins := rfl
@[simp] theorem upPins_free (s : State) (f : Pins → Pins) : (s.upPins f).free = s.free := rfl
@[simp] theorem upPins_pending (s : State) (f : Pins → Pins) : (s.upPins f).pending = s.pending := rfl

end Sys2Proof.Machine.State
end

