-- ==== Sys2Proof/Laws/Keeps.lean ====
section
/-! SUPPORT. Frames of the shared operations: the blocks each may touch, and how frames compose. Every lemma ends in
`_keeps` and names the operation. -/

namespace Sys2Proof.Machine
open Sys2Proof

/-! ## Frames compose -/

theorem keeps_refl {l : List Block} {s : State} : Keeps l s s := by
  intro b _; cases b <;> rfl

theorem keeps_trans {l : List Block} {s t u : State} (h : Keeps l s t) (k : Keeps l t u) : Keeps l s u := by
  intro b hb
  have h1 := h b hb
  have h2 := k b hb
  cases b <;> exact Eq.trans h2 h1

theorem keeps_mono {l m : List Block} {s t : State} (h : Keeps l s t) (sub : ∀ b ∈ l, b ∈ m) : Keeps m s t :=
  fun b hb => h b fun hl => hb (sub b hl)

/-- Two frames one after the other, within a third. -/
theorem keeps_seq {l m n : List Block} {s t u : State} (h : Keeps l s t) (k : Keeps m t u)
    (hl : ∀ b ∈ l, b ∈ n) (hm : ∀ b ∈ m, b ∈ n) : Keeps n s u :=
  keeps_trans (keeps_mono h hl) (keeps_mono k hm)

theorem keeps_foldl {α : Type} {l : List Block} {f : State → α → State} (h : ∀ s x, Keeps l s (f s x))
    (xs : List α) (s : State) : Keeps l s (xs.foldl f s) := by
  induction xs generalizing s with
  | nil => exact keeps_refl
  | cons x xs ih => exact keeps_trans (h s x) (ih _)

theorem keeps_ite {l : List Block} {c : Prop} [Decidable c] {s t u : State} (h : c → Keeps l s t)
    (k : ¬c → Keeps l s u) : Keeps l s (if c then t else u) := by
  split
  · exact h ‹_›
  · exact k ‹_›

/-! ## The block updates -/

theorem upCnt_keeps {s : State} {f : Counting → Counting} : Keeps [.cnt] s (s.upCnt f) := by
  intro b hb; cases b <;> first | rfl | simp at hb
theorem upMot_keeps {s : State} {f : Motion → Motion} : Keeps [.mot] s (s.upMot f) := by
  intro b hb; cases b <;> first | rfl | simp at hb
theorem upHeat_keeps {s : State} {f : Heat → Heat} : Keeps [.heat] s (s.upHeat f) := by
  intro b hb; cases b <;> first | rfl | simp at hb
theorem upDose_keeps {s : State} {f : Dose → Dose} : Keeps [.dose] s (s.upDose f) := by
  intro b hb; cases b <;> first | rfl | simp at hb
theorem upTen_keeps {s : State} {f : Loops LoopRec → Loops LoopRec} : Keeps [.ten] s (s.upTen f) := by
  intro b hb; cases b <;> first | rfl | simp at hb
theorem upPrf_keeps {s : State} {f : Profiles → Profiles} : Keeps [.prf] s (s.upPrf f) := by
  intro b hb; cases b <;> first | rfl | simp at hb
theorem upPq_keeps {s : State} {f : PanelQueue → PanelQueue} : Keeps [.pq] s (s.upPq f) := by
  intro b hb; cases b <;> first | rfl | simp at hb
theorem upHead_keeps {s : State} {f : HeadLink → HeadLink} : Keeps [.head] s (s.upHead f) := by
  intro b hb; cases b <;> first | rfl | simp at hb
theorem upMrk_keeps {s : State} {f : Marks → Marks} : Keeps [.mrk] s (s.upMrk f) := by
  intro b hb; cases b <;> first | rfl | simp at hb
theorem upTrg_keeps {s : State} {f : TrigUnit → TrigUnit} : Keeps [.trg] s (s.upTrg f) := by
  intro b hb; cases b <;> first | rfl | simp at hb
theorem upFlt_keeps {s : State} {f : FaultMon → FaultMon} : Keeps [.flt] s (s.upFlt f) := by
  intro b hb; cases b <;> first | rfl | simp at hb
theorem upLnk_keeps {s : State} {f : HostLink → HostLink} : Keeps [.lnk] s (s.upLnk f) := by
  intro b hb; cases b <;> first | rfl | simp at hb
theorem upPar_keeps {s : State} {f : Params → Params} : Keeps [.par] s (s.upPar f) := by
  intro b hb; cases b <;> first | rfl | simp at hb
theorem upPins_keeps {s : State} {f : Pins → Pins} : Keeps [.pins] s (s.upPins f) := by
  intro b hb; cases b <;> first | rfl | simp at hb

/-! ## Notices, free values, references (10 R172, R173, 06 R105) -/

theorem notice_keeps {n : Notice} {s : State} : Keeps [.flt] s (notice n s) :=
  keeps_ite (fun _ => upFlt_keeps) fun _ => upFlt_keeps

theorem warn_keeps {w : Warning} {s : State} : Keeps [.flt] s (warn w s) := notice_keeps

theorem noticeDir_keeps {d : Option Dir} {s : State} : Keeps [.free] s (noticeDir d s).2 := by
  intro b hb; cases d <;> cases b <;> first | rfl | simp at hb

theorem bodyPanelTag_keeps {body : List Byte} {s : State} : Keeps [.free] s (bodyPanelTag body s).2 := by
  unfold bodyPanelTag
  split
  · exact keeps_refl
  · intro b hb; cases b <;> first | rfl | simp at hb

theorem takeRef_keeps {n : Nat} {s : State} : Keeps [.prf] s (takeRef n s) := upPrf_keeps
theorem dropRef_keeps {n : Nat} {s : State} : Keeps [.prf] s (dropRef n s) := upPrf_keeps

theorem takeRef?_keeps {n : Option Nat} {s : State} : Keeps [.prf] s (takeRef? n s) := by
  cases n with
  | none => exact keeps_refl
  | some n => exact takeRef_keeps

theorem dropRef?_keeps {n : Option Nat} {s : State} : Keeps [.prf] s (dropRef? n s) := by
  cases n with
  | none => exact keeps_refl
  | some n => exact dropRef_keeps

theorem setPointer_keeps {p : Pointer} {n : Option Nat} {s : State} : Keeps [.prf, .trg] s (setPointer p n s) :=
  keeps_seq (keeps_trans dropRef?_keeps takeRef?_keeps) upTrg_keeps (by decide) (by decide)

/-! ## Line state, nip, hold (02 R27, R31 to R33) -/

theorem setLine_keeps {new : LineState} {event : LineEvent} {s : State} :
    Keeps [.mot, .flt] s (setLine new event s) :=
  keeps_ite (fun _ => keeps_refl) fun _ =>
    keeps_seq (keeps_seq upFlt_keeps upMot_keeps (n := [.mot, .flt]) (by decide) (by decide))
      notice_keeps (by decide) (by decide)

theorem nipOpened_keeps {s : State} : Keeps [.mot, .flt] s (nipOpened s) :=
  keeps_trans (keeps_mono upMot_keeps (by decide))
    (keeps_ite (fun _ => setLine_keeps) fun _ => keeps_refl)

theorem nipOpen_keeps {s : State} : Keeps [.mot, .flt] s (nipOpen s) :=
  keeps_ite (fun _ => keeps_refl) fun _ =>
    keeps_trans (keeps_mono upMot_keeps (by decide))
      (keeps_ite (fun _ => nipOpened_keeps) fun _ => keeps_refl)

theorem nipClose_keeps {s : State} : Keeps [.mot] s (nipClose s) :=
  keeps_ite (fun _ => keeps_refl) fun _ =>
    keeps_ite (fun _ => upMot_keeps) fun _ => upMot_keeps

theorem startHold_keeps {s : State} : Keeps [.mot, .flt] s (startHold s) :=
  keeps_ite (fun _ => nipOpen_keeps) fun _ => keeps_mono upMot_keeps (by decide)

theorem holdEnds_keeps {s : State} : Keeps [.mot, .flt] s (holdEnds s) :=
  keeps_trans (keeps_mono upMot_keeps (by decide)) nipOpen_keeps

/-! ## Trigger table and windows (09 R153 to R158) -/

theorem setTrigSlot_keeps {i : Nat} {x : TrigSlot} {s : State} : Keeps [.trg] s (setTrigSlot i x s) :=
  upTrg_keeps

theorem startPulse_keeps {o : Output} {s : State} : Keeps [.trg] s (startPulse o s) := upTrg_keeps

theorem triggerNotice_keeps {i : Nat} {o : Origin} {t : Trigger} {d : Option Dir} {r : FireResult} {s : State} :
    Keeps [.flt, .free] s (triggerNotice i o t d r s) :=
  keeps_seq noticeDir_keeps notice_keeps (by decide) (by decide)

theorem fire_keeps {i : Nat} {o : Origin} {t : Trigger} {d : Option Dir} {late : Bool} {s : State} :
    Keeps [.trg, .flt, .free] s (fire i o t d late s) := by
  unfold fire
  refine keeps_trans ?_ (keeps_mono setTrigSlot_keeps (by decide))
  cases t.action with
  | notify => exact keeps_mono triggerNotice_keeps (by decide)
  | pulse o =>
    exact keeps_ite
      (fun _ => keeps_seq startPulse_keeps triggerNotice_keeps (by decide) (by decide))
      fun _ => keeps_mono startPulse_keeps (by decide)

/-- A fired entry whose notice has the direction of an update uses no free value. -/
theorem fire_some_keeps {i : Nat} {o : Origin} {t : Trigger} {d : Dir} {late : Bool} {s : State} :
    Keeps [.trg, .flt] s (fire i o t (some d) late s) := by
  unfold fire
  refine keeps_trans ?_ (keeps_mono setTrigSlot_keeps (by decide))
  cases t.action with
  | notify => exact keeps_mono notice_keeps (by decide)
  | pulse o =>
    exact keeps_ite
      (fun _ => keeps_seq startPulse_keeps notice_keeps (by decide) (by decide))
      fun _ => keeps_mono startPulse_keeps (by decide)

theorem fireCrossed_keeps {axis : Axis} {old new : Int} {s : State} :
    Keeps [.trg, .flt] s (fireCrossed axis old new s) :=
  keeps_foldl (fun _ _ => fire_some_keeps) _ s

theorem judgeWindow_keeps {axis : Axis} {dir : Dir} {count : Int} {s : State} {i : Nat} :
    Keeps [.trg, .flt] s (judgeWindow axis dir count s i) := by
  unfold judgeWindow
  split
  · refine keeps_ite (fun _ => ?_) fun _ => keeps_refl
    exact keeps_trans (keeps_mono upTrg_keeps (by decide))
      (keeps_ite (fun _ => keeps_mono notice_keeps (by decide)) fun _ => keeps_refl)
  · exact keeps_refl

theorem judgeWindows_keeps {axis : Axis} {old new : Int} {s : State} :
    Keeps [.trg, .flt] s (judgeWindows axis old new s) :=
  keeps_foldl (fun _ _ => judgeWindow_keeps) _ s

theorem resolveSlot_keeps {i : Nat} {a : Int} {d : Option Dir} {s : State} :
    Keeps [.trg, .flt, .free] s (resolveSlot i a d s) := by
  unfold resolveSlot
  split
  · exact keeps_trans (keeps_mono setTrigSlot_keeps (by decide))
      (keeps_ite (fun _ => fire_keeps) fun _ => keeps_refl)
  · exact keeps_refl

theorem resolveAnchors_keeps {set : List (Nat × Int)} {d : Option Dir} {s : State} :
    Keeps [.trg, .flt, .free] s (resolveAnchors set d s) := by
  refine keeps_foldl (fun s i => ?_) _ s
  split
  · exact resolveSlot_keeps
  · exact keeps_refl

theorem orphanSlot_keeps {i : Nat} {d : Option Dir} {s : State} :
    Keeps [.trg, .flt, .free] s (orphanSlot i d s) := by
  unfold orphanSlot
  split
  · exact keeps_seq setTrigSlot_keeps triggerNotice_keeps (by decide) (by decide)
  · exact keeps_refl

theorem orphanPanel_keeps {tag : Nat} {d : Option Dir} {s : State} :
    Keeps [.trg, .flt, .free] s (orphanPanel tag d s) :=
  keeps_foldl (fun _ _ => keeps_ite (fun _ => orphanSlot_keeps) fun _ => keeps_refl) _ s

/-! ## Panel queue and dispatcher (07 R115 to R130) -/

theorem updPanel_keeps {tag : Nat} {f : Panel → Panel} {s : State} : Keeps [.pq] s (updPanel tag f s) :=
  upPq_keeps

theorem removePanel_keeps {p : Panel} {d : Option Dir} {s : State} :
    Keeps [.prf, .pq, .trg, .flt, .free] s (removePanel p d s) := by
  unfold removePanel
  dsimp only
  refine keeps_ite (fun _ => ?_) fun _ => keeps_seq upPq_keeps dropRef_keeps (by decide) (by decide)
  exact keeps_trans (keeps_seq upPq_keeps dropRef_keeps (by decide) (by decide))
    (keeps_mono orphanPanel_keeps (by decide))

theorem flushReport_keeps {d : Option Dir} {s : State} : Keeps [.prf, .pq, .trg, .flt, .free] s (flushReport d s) := by
  unfold flushReport
  split
  · exact keeps_refl
  · refine keeps_ite (fun _ => ?_) fun _ => keeps_refl
    split
    · exact keeps_trans
        (keeps_seq upPq_keeps upFlt_keeps (by decide) (by decide)) removePanel_keeps
    · exact keeps_mono upPq_keeps (by decide)

theorem becomeDone_keeps {tag : Nat} {d : Option Dir} {s : State} :
    Keeps [.prf, .pq, .trg, .flt, .free] s (becomeDone tag d s) :=
  keeps_trans (keeps_mono upPq_keeps (by decide)) flushReport_keeps

theorem withdraw_keeps {txn tag : Nat} {s : State} : Keeps [.head, .flt] s (withdraw txn tag s) :=
  keeps_ite (fun _ => keeps_mono upHead_keeps (by decide)) fun _ => keeps_mono warn_keeps (by decide)

theorem refusal_keeps {num : Nat} {p : Panel} {counted : Option EngineReason} {d : Option Dir} {s : State} :
    Keeps [.prf, .pq, .trg, .flt, .free] s (refusal num p counted d s) :=
  keeps_trans (keeps_mono upPq_keeps (by decide))
    (keeps_ite (fun _ => becomeDone_keeps) fun _ => keeps_refl)

/-- A refusal that counts no attempt skips no panel. -/
theorem refusal_uncounted_keeps {num : Nat} {p : Panel} {d : Option Dir} {s : State} :
    Keeps [.pq] s (refusal num p none d s) := by
  simpa [refusal] using upPq_keeps

theorem startingDeadline_keeps {t : Txn} {d : Option Dir} {s : State} :
    Keeps [.prf, .pq, .head, .trg, .flt, .free] s (startingDeadline t d s) := by
  unfold startingDeadline
  split
  · exact keeps_seq withdraw_keeps refusal_keeps (by decide) (by decide)
  · exact keeps_seq upPq_keeps withdraw_keeps (by decide) (by decide)

theorem withdrawStarting_keeps {s : State} : Keeps [.pq, .head, .flt] s (withdrawStarting s) := by
  unfold withdrawStarting
  split
  · exact keeps_refl
  · split
    · exact keeps_seq withdraw_keeps refusal_uncounted_keeps (by decide) (by decide)
    · exact keeps_seq upPq_keeps withdraw_keeps (by decide) (by decide)

theorem placePanel_keeps {slot : Option Nat} {p : Panel} {s : State} :
    Keeps [.pq, .head] s (placePanel slot p s) :=
  keeps_seq upPq_keeps upHead_keeps (by decide) (by decide)

theorem decide_keeps {s : State} : Keeps [.pq, .head] s (decide_ s) := by
  unfold decide_
  split
  · exact keeps_ite (fun _ => placePanel_keeps) fun _ => keeps_refl
  · exact keeps_refl

theorem rejectTrigger_keeps {tag : Nat} {a : Int} {d : Option Dir} {s : State} :
    Keeps [.pq, .trg, .flt, .free] s (rejectTrigger tag a d s) := by
  unfold rejectTrigger
  split
  · exact keeps_seq setTrigSlot_keeps resolveSlot_keeps (by decide) (by decide)
  · exact keeps_seq updPanel_keeps warn_keeps (by decide) (by decide)

theorem afterPrint_keeps {tag : Nat} {d : Option Dir} {s : State} :
    Keeps [.pq, .trg, .flt, .free] s (afterPrint tag d s) := by
  unfold afterPrint
  split
  · refine keeps_ite (fun _ => ?_) fun _ => keeps_refl
    exact keeps_ite (fun _ => keeps_trans (keeps_mono updPanel_keeps (by decide)) rejectTrigger_keeps)
      fun _ => keeps_mono updPanel_keeps (by decide)
  · exact keeps_refl

theorem setArrival_keeps {tag : Nat} {a : Int} {s : State} : Keeps [.pq] s (setArrival tag a s) :=
  updPanel_keeps

theorem fabricCheck_keeps {p : Panel} {s : State} : Keeps [.pq, .flt] s (fabricCheck p s) :=
  keeps_ite (fun _ => keeps_refl) fun _ =>
    keeps_seq updPanel_keeps warn_keeps (by decide) (by decide)

theorem arrive_keeps {tag : Nat} {d : Option Dir} {s : State} :
    Keeps [.pq, .trg, .flt, .free] s (arrive tag d s) := by
  unfold arrive
  split
  · dsimp only
    refine keeps_ite (fun _ => ?_) fun _ => keeps_seq fabricCheck_keeps updPanel_keeps (by decide) (by decide)
    exact keeps_trans (keeps_seq fabricCheck_keeps updPanel_keeps (by decide) (by decide)) rejectTrigger_keeps
  · exact keeps_refl

theorem arriveReached_keeps {d : Option Dir} {s : State} :
    Keeps [.pq, .trg, .flt, .free] s (arriveReached d s) :=
  keeps_foldl (fun _ _ => arrive_keeps) _ s

/-! ## Critical faults (02 R24, 10 R169) -/

theorem enterHalting_keeps {s : State} : Keeps faultBlocks s (enterHalting s) := by
  refine keeps_trans (t := nipOpen ((setLine .halting .fault s).upMot _)) ?_
    (keeps_mono withdrawStarting_keeps (by decide))
  exact keeps_seq (keeps_seq setLine_keeps upMot_keeps (n := [.mot, .flt]) (by decide) (by decide))
    nipOpen_keeps (by decide) (by decide)

theorem faultMotion_keeps {s : State} : Keeps faultBlocks s (faultMotion s) := by
  have seek : Keeps faultBlocks s (suspendForFault s) := keeps_mono upMot_keeps (by decide)
  have line : Keeps faultBlocks s (setLine .faulted .fault (suspendForFault s)) :=
    keeps_trans seek (keeps_mono setLine_keeps (by decide))
  have halt : Keeps faultBlocks s (enterHalting (suspendForFault s)) := keeps_trans seek enterHalting_keeps
  unfold faultMotion
  split
  · exact halt
  · exact halt
  · exact keeps_ite (fun _ => halt) fun _ => line
  · exact line
  · exact line
  · exact line
  · exact seek
  · exact seek

end Sys2Proof.Machine
end

