-- ==== Sys2Proof/Laws/Ops.lean ====
section
/-! SUPPORT. What each shared operation does, said once: notices and the transmit queue, the line state, the nip, the
head-link buffer, the latch, a host command that is taken at once, reports that wait, and the cursor of a panel's probe
points. -/

namespace Sys2Proof.Machine
open Sys2Proof

/-! ## Transmit queue (10 R173) -/

@[simp] theorem place_latch (f : FaultMon) (x : TxFrame) : (f.place x).latch = f.latch := by
  unfold FaultMon.place; split <;> rfl
@[simp] theorem place_further (f : FaultMon) (x : TxFrame) : (f.place x).further = f.further := by
  unfold FaultMon.place; split <;> rfl
@[simp] theorem place_furtherCount (f : FaultMon) (x : TxFrame) : (f.place x).furtherCount = f.furtherCount := by
  unfold FaultMon.place; split <;> rfl
@[simp] theorem place_kept (f : FaultMon) (x : TxFrame) : (f.place x).kept = f.kept := by
  unfold FaultMon.place; split <;> rfl
@[simp] theorem place_dropped (f : FaultMon) (x : TxFrame) : (f.place x).dropped = f.dropped := by
  unfold FaultMon.place; split <;> rfl
@[simp] theorem place_link (f : FaultMon) (x : TxFrame) : (f.place x).link = f.link := by
  unfold FaultMon.place; split <;> rfl

/-- A frame placed comes after every frame of the queue, or is sent at once by an idle TXD that holds none. -/
theorem place_frames (f : FaultMon) (x : TxFrame) (h : f.current = none → f.waiting = []) :
    (f.place x).frames = f.frames ++ [x] := by
  unfold FaultMon.place FaultMon.frames
  cases hc : f.current with
  | none => simp [h hc]
  | some y => simp

/-- A frame placed takes one place. -/
theorem place_used (f : FaultMon) (x : TxFrame) : (f.place x).used = f.used + 1 := by
  unfold FaultMon.place FaultMon.used
  cases f.current <;> simp <;> omega

theorem mem_place_frames (f : FaultMon) (x y : TxFrame) (h : y ∈ f.frames) : y ∈ (f.place x).frames := by
  unfold FaultMon.place FaultMon.frames at *
  cases hc : f.current <;> simp [hc] at h ⊢ <;> tauto

theorem self_mem_place_frames (f : FaultMon) (x : TxFrame) : x ∈ (f.place x).frames := by
  unfold FaultMon.place FaultMon.frames
  cases f.current <;> simp

/-- With room a notice is placed with the timestamp (10 R173). -/
theorem notice_room {n : Notice} {s : State} (h : s.flt.room = true) :
    notice n s = s.upFlt fun f => f.place (.notice s.cnt.clock n) := by simp [notice, h]

/-- Without room it is dropped and the flag set (10 R173). -/
theorem notice_full {n : Notice} {s : State} (h : s.flt.room = false) :
    notice n s = s.upFlt fun f => { f with dropped := true } := by simp [notice, h]

@[simp] theorem notice_latch (n : Notice) (s : State) : (notice n s).flt.latch = s.flt.latch := by
  unfold notice; split <;> simp
@[simp] theorem notice_further (n : Notice) (s : State) : (notice n s).flt.further = s.flt.further := by
  unfold notice; split <;> simp
@[simp] theorem notice_furtherCount (n : Notice) (s : State) :
    (notice n s).flt.furtherCount = s.flt.furtherCount := by unfold notice; split <;> simp
@[simp] theorem notice_kept (n : Notice) (s : State) : (notice n s).flt.kept = s.flt.kept := by
  unfold notice; split <;> simp
@[simp] theorem notice_link (n : Notice) (s : State) : (notice n s).flt.link = s.flt.link := by
  unfold notice; split <;> simp
@[simp] theorem notice_mot (n : Notice) (s : State) : (notice n s).mot = s.mot := by
  unfold notice; split <;> simp
@[simp] theorem notice_pq (n : Notice) (s : State) : (notice n s).pq = s.pq := by
  unfold notice; split <;> simp
@[simp] theorem notice_head (n : Notice) (s : State) : (notice n s).head = s.head := by
  unfold notice; split <;> simp
@[simp] theorem notice_trg (n : Notice) (s : State) : (notice n s).trg = s.trg := by
  unfold notice; split <;> simp
@[simp] theorem notice_cnt (n : Notice) (s : State) : (notice n s).cnt = s.cnt := by
  unfold notice; split <;> simp
@[simp] theorem notice_par (n : Notice) (s : State) : (notice n s).par = s.par := by
  unfold notice; split <;> simp
@[simp] theorem notice_pins (n : Notice) (s : State) : (notice n s).pins = s.pins := by
  unfold notice; split <;> simp

/-! ## Line state and nip (02 R27, R31, R32) -/

/-- The motion controller after a change of line state: the line state alone has changed. -/
@[simp] theorem setLine_mot (new : LineState) (e : LineEvent) (s : State) :
    (setLine new e s).mot = { s.mot with line := new } := by
  unfold setLine
  split
  · rename_i h; cases h; rfl
  · simp

@[simp] theorem setLine_latch (new : LineState) (e : LineEvent) (s : State) :
    (setLine new e s).flt.latch = s.flt.latch := by
  unfold setLine; split <;> simp

/-- A nip command leaves v_ref, the target and the seek record; only a STOPPING line may change (R22). -/
theorem nipOpen_mot (s : State) :
    (nipOpen s).mot.vref = s.mot.vref ∧ (nipOpen s).mot.target = s.mot.target
      ∧ (nipOpen s).mot.seek = s.mot.seek ∧ (nipOpen s).mot.hold = s.mot.hold
      ∧ (s.mot.line ≠ .stopping → (nipOpen s).mot.line = s.mot.line)
      ∧ ((nipOpen s).mot.nip = .opened ∨ (nipOpen s).mot.nip = .opening) := by
  unfold nipOpen nipOpened
  by_cases h : s.mot.nip = .opened
  · simp [h]
  · by_cases h' : s.mot.nip = .opening
    · simp [h']
    · cases hp : s.pins.openPair <;> by_cases hl : s.mot.line = .stopping <;> simp [h, h', hl, hp]

/-- A close command leaves everything but the nip state and its timer. -/
theorem nipClose_mot (s : State) :
    ∃ nip timer, nipClose s = s.upMot (fun m => { m with nip := nip, nipTimer := timer })
      ∧ (nip = .closed ∨ nip = .closing) := by
  unfold nipClose
  by_cases h : s.mot.nip = .closed
  · exact ⟨s.mot.nip, s.mot.nipTimer, by rw [if_pos (by simp [h])]; rfl, .inl h⟩
  · by_cases h' : s.mot.nip = .closing
    · exact ⟨s.mot.nip, s.mot.nipTimer, by rw [if_pos (by simp [h'])]; rfl, .inr h'⟩
    · by_cases hp : s.pins.closedPair = true
      · exact ⟨.closed, .stopped, by simp [h, h', hp], .inl rfl⟩
      · exact ⟨.closing, .running 0, by simp [h, h', hp], .inr rfl⟩

/-! ## Head-link buffer (07 R118) -/

theorem withdraw_room {txn tag : Nat} {s : State} (h : s.head.buf.length < 8) :
    withdraw txn tag s = s.upHead fun k => { k with buf := k.buf ++ [.withdraw txn tag] } := by
  simp [withdraw, Config.headCap, h]

theorem withdraw_pq (txn tag : Nat) (s : State) : (withdraw txn tag s).pq = s.pq :=
  withdraw_keeps .pq (by decide)

/-! ## The latch (10 R169) -/

/-- The latch takes a fault: first its record, then further causes, each once, and their count. -/
theorem take_latch (f : FaultMon) (r : Record) :
    (f.take r).latch = some (f.latch.getD r)
      ∧ (f.latch = none → (f.take r).further = f.further ∧ (f.take r).furtherCount = f.furtherCount)
      ∧ (f.latch ≠ none →
          (f.take r).further = (if r.cause ∈ f.further then f.further else f.further ++ [r.cause])
          ∧ (f.take r).furtherCount = satAdd 255 f.furtherCount 1) := by
  unfold FaultMon.take
  cases h : f.latch <;> simp

/-! ## A host command taken at once (11 R179, R180, 10 R173, R175) -/

@[simp] theorem restartLink_lnk (s : State) : (restartLink s).lnk = s.lnk := rfl

@[simp] theorem restartLink_room (s : State) : (restartLink s).flt.room = s.flt.room := rfl

@[simp] theorem restartLink_settled (s : State) : (restartLink s).settled = s.settled := rfl

theorem takes_settled {s : State} (h : s.takes) : s.settled = true := by simp [State.settled, h.1]

/-- A host command that is taken at once: its block acts on `s.acting`, and the reply is placed. -/
theorem hostCommand_taken {c : Instr} {f : Frame} {s : State} (h : s.takes) (hf : commandFrame c = some f) :
    hostCommand c s = answer f.kind f.tag (hostOp c s.acting).2 (hostOp c s.acting).1 := by
  simp [hostCommand, hf, hostExec, h.1, h.2, carryOut, State.acting]

/-- The frames that wait while no place is free. -/
@[simp] theorem takeWaiting_full {s : State} (h : s.flt.room = false) : takeWaiting s = s := by
  unfold takeWaiting
  cases hb : s.lnk.buffer <;> simp [takeFrames, hb, h]

theorem takeWaiting_empty {s : State} (h : s.lnk.buffer = []) : takeWaiting s = s := by
  simp [takeWaiting, takeFrames, h]

/-- With no free place an arriving command waits, and nothing else happens (11 R179, 10 R175). -/
theorem hostFrameArrives_waits {f : Frame} {s : State} (hr : s.flt.room = false) (hf : f.isCommand = true) :
    hostFrameArrives s f = bufferFrame f (restartLink s) := by
  have room : (bufferFrame f (restartLink s)).flt.room = false := by
    unfold bufferFrame; split <;> simpa using hr
  simp [hostFrameArrives, hf, room]

/-- With no free place a host command waits. -/
theorem hostCommand_waits {c : Instr} {f : Frame} {s : State} (hr : s.flt.room = false)
    (hf : commandFrame c = some f) (hk : f.isCommand = true) :
    hostCommand c s = bufferFrame f (restartLink s) := by
  simp [hostCommand, hf, hostExec, hr, hostFrameArrives_waits hr hk]

/-- Acting keeps every block but the transmit queue's. -/
theorem acting_keeps {s : State} : Keeps [.flt] s s.acting := by
  intro b hb; cases b <;> first | rfl | simp at hb

/-- The reply touches the transmit queue alone. -/
theorem answer_keeps {kind tag : Byte} {r : Reply} {s : State} : Keeps [.flt] s (answer kind tag r s) :=
  upFlt_keeps

/-- Carrying a command out touches what its block's operation touches, and the transmit queue. -/
theorem carryOut_keeps {kind tag : Byte} {op : State → State × Reply} {s : State} {l : List Block}
    (hop : ∀ s, Keeps l s (op s).1) (hl : .flt ∈ l) : Keeps l s (carryOut kind tag op s) := by
  have one : ∀ b ∈ [Block.flt], b ∈ l := by simpa using hl
  exact keeps_trans (keeps_mono upFlt_keeps one) (keeps_trans (hop _) (keeps_mono answer_keeps one))

/-- A command taken at once touches what its block's operation touches, and the transmit queue. -/
theorem hostCommand_taken_keeps {c : Instr} {f : Frame} {s : State} {l : List Block}
    (h : s.takes) (hf : commandFrame c = some f) (hop : Keeps l s.acting (hostOp c s.acting).1) (hl : .flt ∈ l) :
    Keeps l s (hostCommand c s) := by
  have one : ∀ b ∈ [Block.flt], b ∈ l := by simpa using hl
  rw [hostCommand_taken h hf]
  exact keeps_trans (keeps_mono acting_keeps one) (keeps_trans hop (keeps_mono answer_keeps one))

/-! ## Reports that wait (07 R129) -/

@[simp] theorem removePanel_waiting (p : Panel) (dir : Option Dir) (s : State) :
    (removePanel p dir s).pq.waiting = s.pq.waiting := by
  unfold removePanel
  dsimp only
  split
  · exact (congrArg PanelQueue.waiting
      (show (orphanPanel p.tag dir _).pq = State.pq _ from orphanPanel_keeps .pq (by decide))).trans rfl
  · rfl

/-- With a free place the report waiting longest leaves the list, its record placed in a notice and retired where there is
one; else nothing happens (07 R129). -/
theorem flushReport_cases (dir : Option Dir) (s : State) :
    (s.pq.waiting = [] ∨ s.flt.room = false) ∧ flushReport dir s = s
    ∨ s.flt.room = true ∧ ∃ tag rest, s.pq.waiting = tag :: rest ∧ (flushReport dir s).pq.waiting = rest
        ∧ (s.panel? tag = none ∨ ∃ p, s.panel? tag = some p ∧
            flushReport dir s = removePanel p dir ((s.upPq fun q => { q with waiting := rest }).upFlt fun f =>
              f.place (.notice s.cnt.clock (.panelReport p)))) := by
  unfold flushReport
  cases hw : s.pq.waiting with
  | nil => exact .inl ⟨.inl rfl, rfl⟩
  | cons tag rest =>
    cases hr : s.flt.room with
    | false => exact .inl ⟨.inr rfl, by simp⟩
    | true =>
      cases hp : s.panel? tag with
      | none => exact .inr ⟨rfl, tag, rest, rfl, by simp [hp], .inl hp⟩
      | some p => exact .inr ⟨rfl, tag, rest, rfl, by simp [hp], .inr ⟨p, hp, by simp [hp]⟩⟩

/-- A panel that becomes DONE leaves no report waiting beside a free place, where none did before (07 R129). -/
theorem becomeDone_reportsOk {tag : Nat} {dir : Option Dir} {s : State} (h : ReportsOk s) :
    ReportsOk (becomeDone tag dir s) := by
  unfold becomeDone
  obtain ⟨hw, e⟩ | ⟨hr, x, rest, hw, e, -⟩ := flushReport_cases dir (s.upPq fun q => { q with waiting := q.waiting ++ [tag] })
  · rw [e]
    exact fun _ => hw.resolve_left (List.append_ne_nil_of_right_ne_nil _ (List.cons_ne_nil _ _))
  · intro hne
    rw [e] at hne
    have hs : s.pq.waiting ≠ [] := fun hs => hne (by
      have hw : s.pq.waiting ++ [tag] = x :: rest := hw
      rw [hs] at hw
      exact (List.cons.inj hw).2.symm)
    exact absurd (hr.symm.trans (h hs)) (by decide)

/-! ## The dose fields of a panel (04 R63 to R65) -/

/-- The next probe point set with an arrival lies above PP, and between the arrival and the trailing point. -/
theorem doseFieldsAt_next {pp a length spacing n : Int} (hs : 0 < spacing) (hl : 0 ≤ length)
    (h : (doseFieldsAt pp a length spacing).1.next = some n) : pp < n ∧ a ≤ n ∧ n ≤ a + length := by
  have hq := Int.lt_ediv_add_one_mul_self (pp - a) hs
  simp only [doseFieldsAt, floorDiv] at h
  split at h
  · next hp =>
    simp only [decide_eq_true_eq] at hp
    injection h with h
    split at h
    · omega
    · next hpa =>
      have : 0 ≤ (pp - a) / spacing := Int.ediv_nonneg (by omega) (Int.le_of_lt hs)
      have := Int.mul_nonneg (Int.add_nonneg this (Int.le_of_lt Int.one_pos)) (Int.le_of_lt hs)
      omega
  · exact nomatch h

/-- A point handled leaves the next probe point of a panel where it was, or moves it one spacing on, short of the
trailing point (04 R65). -/
theorem handle_next {p : Panel} {pos spacing n : Int} {d' : DoseFields} (h : (p.handle pos spacing).dose = some d')
    (hn : d'.next = some n) :
    ∃ d, p.dose = some d ∧ (d.next = some n ∨ d.next = some pos ∧ n = pos + spacing ∧ n < p.trailing) := by
  unfold Panel.handle at h
  split at h
  · next hd => rw [hd] at h; exact nomatch h
  · next d hd =>
    injection h with h
    subst h
    refine ⟨d, hd, ?_⟩
    dsimp only at hn
    split at hn
    · next hp =>
      split at hn
      · next ht => injection hn with hn; subst hn; exact .inr ⟨hp, rfl, ht⟩
      · exact nomatch hn
    · exact .inl hn

end Sys2Proof.Machine
end

