-- ==== Sys2Proof/Laws/PerInstr.lean ====
section
/-! SUPPORT. The family `Encoding`, one lemma for each constructor of `Instr`: the frame a well-formed command is
written as has the KIND of a command and a body that fits a frame (11 R178, R182). -/

namespace Sys2Proof.Laws.Encoding
open Sys2Proof Sys2Proof.Machine

/-- A frame of the command is a command frame, and its body is no longer than a frame allows. -/
def Statement (i : Instr) : Prop :=
  i.wf = true → ∀ f, commandFrame i = some f → f.isCommand = true ∧ f.body.length ≤ Config.bodyMax

/-! ## Lengths of the fields (11 R182) -/

@[simp] theorem u8_length (n : Nat) : (u8 n).length = 1 := rfl
@[simp] theorem u16_length (n : Nat) : (u16 n).length = 2 := rfl
@[simp] theorem u32_length (n : Nat) : (u32 n).length = 4 := rfl
@[simp] theorem i32_length (n : Int) : (i32 n).length = 4 := rfl
@[simp] theorem flag_length (b : Bool) : (flag b).length = 1 := rfl
theorem optional_length {α : Type} (w : Nat) (enc : α → List Byte) (h : ∀ a, (enc a).length = w)
    (x : Option α) : (Machine.optional w enc x).length = w + 1 := by
  cases x <;> simp [Machine.optional, h, Nat.add_comm]
@[simp] theorem optional_i32_length (x : Option Int) : (Machine.optional 4 i32 x).length = 5 :=
  optional_length 4 i32 i32_length x
@[simp] theorem optional_u8_length (x : Option Nat) : (Machine.optional 1 u8 x).length = 2 :=
  optional_length 1 u8 u8_length x
@[simp] theorem optional_anchor_length (x : Option (Nat × Int)) :
    (Machine.optional 6 (fun a => u16 a.1 ++ i32 a.2) x).length = 7 :=
  optional_length 6 _ (fun _ => rfl) x
@[simp] theorem sixBytes_length {α : Type} (w : Nat) (enc : α → List Byte) (h : ∀ a, (enc a).length = w)
    (x : Six α) : (sixBytes enc x).length = 6 * w := by
  simp [sixBytes, Six.toList, h]; omega
@[simp] theorem nameBytes_length (n : ProfileName) : (nameBytes n).length = 5 := by cases n <;> rfl
@[simp] theorem drumBytes_length (setpoint : Int) (offsets : Six Int) (mask : Nat) :
    (drumBytes setpoint offsets mask).length = 29 := by simp [drumBytes]
@[simp] theorem panelBytes_length (panel : Nat) (name : ProfileName) (length : Int) (mark : Nat) :
    (panelBytes panel name length mark).length = 12 := by simp [panelBytes]

theorem powerOnReset : Statement .powerOnReset :=
  fun _ _ h => nomatch h
theorem resetn : Statement .resetn :=
  fun _ _ h => nomatch h
theorem tickBatch (ch : Chan) (ticks : Ticks) : Statement (.tickBatch ch ticks) :=
  fun _ _ h => nomatch h
theorem seekDistanceReached : Statement .seekDistanceReached :=
  fun _ _ h => nomatch h
theorem markCapture : Statement .markCapture :=
  fun _ _ h => nomatch h
theorem spliceCapture : Statement .spliceCapture :=
  fun _ _ h => nomatch h
theorem nipLimitChange (nipc nipo : Bool) : Statement (.nipLimitChange nipc nipo) :=
  fun _ _ h => nomatch h
theorem nipTimeout : Statement .nipTimeout :=
  fun _ _ h => nomatch h
theorem nipHold : Statement .nipHold :=
  fun _ _ h => nomatch h
theorem estop : Statement .estop :=
  fun _ _ h => nomatch h
theorem estopRelease : Statement .estopRelease :=
  fun _ _ h => nomatch h
theorem speedAndTensionSample (lc0 lc1 lc2 : Int) (countAfter tensionAfter : Bool) : Statement (.speedAndTensionSample lc0 lc1 lc2 countAfter tensionAfter) :=
  fun _ _ h => nomatch h
theorem encoderSilent (ch : Chan) : Statement (.encoderSilent ch) :=
  fun _ _ h => nomatch h
theorem stall : Statement .stall :=
  fun _ _ h => nomatch h
theorem webBreak (l : Loop) : Statement (.webBreak l) :=
  fun _ _ h => nomatch h
theorem overTension (l : Loop) : Statement (.overTension l) :=
  fun _ _ h => nomatch h
theorem doseSample : Statement .doseSample :=
  fun _ _ h => nomatch h
theorem temperatureSample (readings : Six (Option Int)) : Statement (.temperatureSample readings) :=
  fun _ _ h => nomatch h
theorem zoneHold (z : Zone) : Statement (.zoneHold z) :=
  fun _ _ h => nomatch h
theorem zoneSensor (z : Zone) : Statement (.zoneSensor z) :=
  fun _ _ h => nomatch h
theorem readiness : Statement .readiness :=
  fun _ _ h => nomatch h
theorem zeroCrossEdge (gap : Nat) : Statement (.zeroCrossEdge gap) :=
  fun _ _ h => nomatch h
theorem zoneShortfall (z : Zone) : Statement (.zoneShortfall z) :=
  fun _ _ h => nomatch h
theorem mainsLost : Statement .mainsLost :=
  fun _ _ h => nomatch h
theorem pulseEnd (o : Output) : Statement (.pulseEnd o) :=
  fun _ _ h => nomatch h
theorem linkLost : Statement .linkLost :=
  fun _ _ h => nomatch h
theorem timeDeadline (txn : Nat) : Statement (.timeDeadline txn) :=
  fun _ _ h => nomatch h
theorem frameGapTimeout (link : Link) : Statement (.frameGapTimeout link) :=
  fun _ _ h => nomatch h
theorem validFrame (bytes : List Byte) : Statement (.validFrame bytes) :=
  fun _ _ h => nomatch h
theorem unknownCommand (kind tag : Byte) (body : List Byte) : Statement (.unknownCommand kind tag body) :=
  fun _ _ h => nomatch h
theorem frameSent : Statement .frameSent :=
  fun _ _ h => nomatch h
theorem headFrameSent : Statement .headFrameSent :=
  fun _ _ h => nomatch h
theorem accept (txn panel : Nat) : Statement (.accept txn panel) :=
  fun _ _ h => nomatch h
theorem refuse (txn panel reason : Nat) : Statement (.refuse txn panel reason) :=
  fun _ _ h => nomatch h
theorem done (txn panel : Nat) (printed : Int) : Statement (.done txn panel printed) :=
  fun _ _ h => nomatch h
theorem fault (txn panel : Nat) (printed : Int) (reason : Nat) : Statement (.fault txn panel printed reason) :=
  fun _ _ h => nomatch h
theorem headOtherKindFrame (kind tag : Byte) (body : List Byte) : Statement (.headOtherKindFrame kind tag body) :=
  fun _ _ h => nomatch h
theorem linkConfig (tag : Byte) (baud : Int) : Statement (.linkConfig tag baud) :=
  fun _ _ h => by cases h; exact ⟨rfl, by simp [Config.bodyMax]⟩
theorem setParam (tag : Byte) (id : Nat) (value : Int) : Statement (.setParam tag id value) :=
  fun _ _ h => by cases h; exact ⟨rfl, by simp [Config.bodyMax]⟩
theorem getParam (tag : Byte) (id : Nat) : Statement (.getParam tag id) :=
  fun _ _ h => by cases h; exact ⟨rfl, by simp [Config.bodyMax]⟩
theorem setPosition (tag : Byte) (count : Nat) (value : Int) : Statement (.setPosition tag count value) :=
  fun _ _ h => by cases h; exact ⟨rfl, by simp [Config.bodyMax]⟩
theorem readCounts (tag : Byte) : Statement (.readCounts tag) :=
  fun _ _ h => by cases h; exact ⟨rfl, Nat.zero_le _⟩
theorem heatOn (tag : Byte) (setpoint : Int) (offsets : Six Int) (mask : Nat) :
    Statement (.heatOn tag setpoint offsets mask) :=
  fun _ _ h => by cases h; exact ⟨rfl, by simp [Config.bodyMax]⟩
theorem heatOff (tag : Byte) : Statement (.heatOff tag) :=
  fun _ _ h => by cases h; exact ⟨rfl, Nat.zero_le _⟩
theorem start (tag : Byte) : Statement (.start tag) :=
  fun _ _ h => by cases h; exact ⟨rfl, Nat.zero_le _⟩
theorem stop (tag : Byte) : Statement (.stop tag) :=
  fun _ _ h => by cases h; exact ⟨rfl, Nat.zero_le _⟩
theorem threadEnter (tag : Byte) : Statement (.threadEnter tag) :=
  fun _ _ h => by cases h; exact ⟨rfl, Nat.zero_le _⟩
theorem threadExit (tag : Byte) : Statement (.threadExit tag) :=
  fun _ _ h => by cases h; exact ⟨rfl, Nat.zero_le _⟩
theorem jog (tag : Byte) (direction : Nat) (distance : Int) : Statement (.jog tag direction distance) :=
  fun _ _ h => by cases h; exact ⟨rfl, by simp [Config.bodyMax]⟩
theorem seek (tag : Byte) (distance : Int) (condition : Nat) : Statement (.seek tag distance condition) :=
  fun _ _ h => by cases h; exact ⟨rfl, by simp [Config.bodyMax]⟩
theorem seekStop (tag : Byte) : Statement (.seekStop tag) :=
  fun _ _ h => by cases h; exact ⟨rfl, Nat.zero_le _⟩
theorem seekResume (tag : Byte) : Statement (.seekResume tag) :=
  fun _ _ h => by cases h; exact ⟨rfl, Nat.zero_le _⟩
theorem readMotion (tag : Byte) : Statement (.readMotion tag) :=
  fun _ _ h => by cases h; exact ⟨rfl, Nat.zero_le _⟩
theorem setDrum (tag : Byte) (setpoint : Int) (offsets : Six Int) (mask : Nat) :
    Statement (.setDrum tag setpoint offsets mask) :=
  fun _ _ h => by cases h; exact ⟨rfl, by simp [Config.bodyMax]⟩
theorem readHeat (tag : Byte) (first : Option Int) : Statement (.readHeat tag first) :=
  fun _ _ h => by cases h; exact ⟨rfl, by simp [Config.bodyMax]⟩
theorem readDose (tag : Byte) : Statement (.readDose tag) :=
  fun _ _ h => by cases h; exact ⟨rfl, Nat.zero_le _⟩
theorem readProbe (tag : Byte) (index : Int) : Statement (.readProbe tag index) :=
  fun _ _ h => by cases h; exact ⟨rfl, by simp [Config.bodyMax]⟩
theorem readTension (tag : Byte) : Statement (.readTension tag) :=
  fun _ _ h => by cases h; exact ⟨rfl, Nat.zero_le _⟩
theorem profileLoad (tag : Byte) (fields : ProfileFields) (entry : Option Nat) : Statement (.profileLoad tag fields entry) :=
  fun _ _ h => by cases h; exact ⟨rfl, by simp [Config.bodyMax]⟩
theorem profileFind (tag : Byte) (media ink : Nat) : Statement (.profileFind tag media ink) :=
  fun _ _ h => by cases h; exact ⟨rfl, by simp [Config.bodyMax]⟩
theorem profileRead (tag : Byte) (entry : Option Nat) (first : Option Int) : Statement (.profileRead tag entry first) :=
  fun _ _ h => by cases h; exact ⟨rfl, by simp [Config.bodyMax]⟩
theorem profileDrop (tag : Byte) (entry : Nat) : Statement (.profileDrop tag entry) :=
  fun _ _ h => by cases h; exact ⟨rfl, by simp [Config.bodyMax]⟩
theorem profilePin (tag : Byte) (count : Nat) : Statement (.profilePin tag count) :=
  fun _ _ h => by cases h; exact ⟨rfl, by simp [Config.bodyMax]⟩
theorem profileTrim (tag : Byte) (entry : Nat) (trims : Six Nat) : Statement (.profileTrim tag entry trims) :=
  fun _ _ h => by cases h; exact ⟨rfl, by simp [Config.bodyMax]⟩
theorem panelSubmit (tag : Byte) (panel : Nat) (name : ProfileName) (length : Int) (mark : Nat) :
    Statement (.panelSubmit tag panel name length mark) :=
  fun _ _ h => by cases h; exact ⟨rfl, by simp [Config.bodyMax]⟩
theorem panelInsert (tag : Byte) (slot panel : Nat) (name : ProfileName) (length : Int) (mark : Nat) :
    Statement (.panelInsert tag slot panel name length mark) :=
  fun _ _ h => by cases h; exact ⟨rfl, by simp [Config.bodyMax]⟩
theorem panelCancel (tag : Byte) (panel : Nat) : Statement (.panelCancel tag panel) :=
  fun _ _ h => by cases h; exact ⟨rfl, by simp [Config.bodyMax]⟩
theorem dispatchEnable (tag : Byte) : Statement (.dispatchEnable tag) :=
  fun _ _ h => by cases h; exact ⟨rfl, Nat.zero_le _⟩
theorem dispatchHold (tag : Byte) : Statement (.dispatchHold tag) :=
  fun _ _ h => by cases h; exact ⟨rfl, Nat.zero_le _⟩
theorem dispatchResume (tag : Byte) : Statement (.dispatchResume tag) :=
  fun _ _ h => by cases h; exact ⟨rfl, Nat.zero_le _⟩
theorem dispatchOff (tag : Byte) : Statement (.dispatchOff tag) :=
  fun _ _ h => by cases h; exact ⟨rfl, Nat.zero_le _⟩
theorem readQueue (tag : Byte) (first : Option Int) : Statement (.readQueue tag first) :=
  fun _ _ h => by cases h; exact ⟨rfl, by simp [Config.bodyMax]⟩
theorem readPanel (tag : Byte) (panel : Nat) : Statement (.readPanel tag panel) :=
  fun _ _ h => by cases h; exact ⟨rfl, by simp [Config.bodyMax]⟩
theorem readMarks (tag : Byte) (first : Option Int) : Statement (.readMarks tag first) :=
  fun _ _ h => by cases h; exact ⟨rfl, by simp [Config.bodyMax]⟩
theorem triggerSet (tag : Byte) (slot : Nat) (fields : TriggerFields) : Statement (.triggerSet tag slot fields) :=
  fun _ _ h => by cases h; exact ⟨rfl, by simp [Config.bodyMax]⟩
theorem triggerArm (tag : Byte) (slot : Nat) : Statement (.triggerArm tag slot) :=
  fun _ _ h => by cases h; exact ⟨rfl, by simp [Config.bodyMax]⟩
theorem triggerClear (tag : Byte) (slot : Nat) : Statement (.triggerClear tag slot) :=
  fun _ _ h => by cases h; exact ⟨rfl, by simp [Config.bodyMax]⟩
theorem triggerRead (tag : Byte) (slot : Nat) : Statement (.triggerRead tag slot) :=
  fun _ _ h => by cases h; exact ⟨rfl, by simp [Config.bodyMax]⟩
theorem windowSet (tag : Byte) (window : Nat) (fields : WindowFields) : Statement (.windowSet tag window fields) :=
  fun _ _ h => by cases h; exact ⟨rfl, by simp [Config.bodyMax]⟩
theorem windowClear (tag : Byte) (window : Nat) : Statement (.windowClear tag window) :=
  fun _ _ h => by cases h; exact ⟨rfl, by simp [Config.bodyMax]⟩
theorem readWindows (tag : Byte) : Statement (.readWindows tag) :=
  fun _ _ h => by cases h; exact ⟨rfl, Nat.zero_le _⟩
theorem fabricLoad (tag : Byte) (name : ProfileName) : Statement (.fabricLoad tag name) :=
  fun _ _ h => by cases h; exact ⟨rfl, by simp [Config.bodyMax]⟩
theorem spliceAhead (tag : Byte) (name : ProfileName) : Statement (.spliceAhead tag name) :=
  fun _ _ h => by cases h; exact ⟨rfl, by simp [Config.bodyMax]⟩
theorem readFabric (tag : Byte) : Statement (.readFabric tag) :=
  fun _ _ h => by cases h; exact ⟨rfl, Nat.zero_le _⟩
theorem clearFault (tag : Byte) : Statement (.clearFault tag) :=
  fun _ _ h => by cases h; exact ⟨rfl, Nat.zero_le _⟩
theorem readFault (tag : Byte) : Statement (.readFault tag) :=
  fun _ _ h => by cases h; exact ⟨rfl, Nat.zero_le _⟩
theorem readStatus (tag : Byte) (clear : Bool) : Statement (.readStatus tag clear) :=
  fun _ _ h => by cases h; exact ⟨rfl, by simp [Config.bodyMax]⟩
theorem clearLine (tag : Byte) : Statement (.clearLine tag) :=
  fun _ _ h => by cases h; exact ⟨rfl, Nat.zero_le _⟩
theorem lenOutOfRange (link : Link) (len : Byte) : Statement (.lenOutOfRange link len) :=
  fun _ _ h => nomatch h
theorem headFrameBadCrc : Statement .headFrameBadCrc :=
  fun _ _ h => nomatch h

end Sys2Proof.Laws.Encoding
end

