-- ==== Sys2Proof/Tests/Slice0.lean ====
section
/-! SUPPORT. The model's own tests: small states, a witness for the hypotheses of each statement, an ill-formed command
for each check of WellFormed, the manual's worked examples, and single commands. -/

namespace Sys2Proof.Tests
open Sys2Proof Sys2Proof.Machine

def entry0 : Entry :=
  { valid := true, media := 1, target := 1000000, allowUnder := 10, allowOver := 10, feedTension := 800,
    rewindTension := 600, trims := ⟨1024, 1024, 1024, 1024, 870, 1178⟩, sigma := 128, weight := 2, refs := 1 }

/-- A panel of 60 mm placed at 50,000, in a state. -/
def panel (st : PanelState) : Panel :=
  { tag := 1, kind := .normal, profile := 0, length := 6000, mark := true, state := st
    xs := if st = .queued then none else some 50000 }

/-- A line RUNNING at 12 m/min with one panel in the queue. -/
def work (p : Panel) (live : List Txn) : State :=
  { State.reset with
    mot := { line := .running, vref := 20000, nip := .closed, nipTimer := .stopped }
    heat := { on := true, setpoint := 2000, ready := true, lostTimer := .running 0 }
    prf := { entries := entry0 :: List.replicate 31 {} }
    pq := { queue := [p], lastEnd := 60000, dispatch := .enabled, live := live }
    par := { vSet := 30000 }
    pins := { nipc := true } }

theorem work_entry (p : Panel) (live : List Txn) (n : Nat) : (work p live).prf.entry (n + 1) = {} := by
  show ((List.replicate 31 ({} : Entry))[n]?).getD {} = {}
  rw [List.getElem?_replicate]
  split <;> rfl

theorem work_queueOk {p : Panel} {live : List Txn} (hp : p.profile = 0) (ht : p.tag = 1)
    (hu : p.state = .queued ∨ p.state = .starting → p.arrival = none ∧ p.dose = none)
    (hm : p.arrival = none ↔ p.dose = none) (hl : ∀ t ∈ live, (1 : Nat) = t.tag ∧ p.state = t.phase.panelState) (once : (live.map Txn.tag).Nodup) :
    QueueOk (work p live) where
  tags := List.nodup_singleton _
  waiting := fun _ h => nomatch h
  waitingOnce := List.nodup_nil
  live := fun t h => ⟨p, List.mem_singleton.2 rfl, ht.trans (hl t h).1, (hl t h).2⟩
  liveOnce := once
  unseen := fun q hq h => by rw [List.mem_singleton.1 hq] at h ⊢; exact hu h
  measured := fun q hq => by rw [List.mem_singleton.1 hq]; exact hm
  armed := fun q h => by simp [work, State.reset] at h
  cancelled := fun q h => by simp [work, State.reset] at h
  refs := fun n => by
    cases n with
    | zero => simp [State.holders, PanelQueue.inserts, work, Slot.panel?, State.reset, List.filterMap, hp, entry0,
        Profiles.entry, Profiles.get?]
    | succ n =>
      rw [work_entry]
      simp [State.holders, PanelQueue.inserts, work, Slot.panel?, State.reset, List.filterMap, hp]
  held := fun n h => by
    cases n with
    | zero => rfl
    | succ n => rw [work_entry] at h; exact absurd rfl h

/-- `QueueOk` speaks of three blocks. -/
theorem queueOk_of {s t : State} (h : QueueOk s) (hq : t.pq = s.pq) (hp : t.prf = s.prf) (ht : t.trg = s.trg) :
    QueueOk t := by
  obtain ⟨h1, h2, h3, h4, h5, h6, h7, h8, h9, h10, h11⟩ := h
  constructor <;> simp only [State.holders, hq, hp, ht] at * <;> assumption

/-- The panel PRINTING with its transaction. -/
def working : State := work (panel .printing) [⟨1, 1, .printing, 0, 200⟩]

/-- The panel STARTING with its transaction, and QUEUED. -/
def starting : State := work (panel .starting) [⟨1, 1, .awaitAccept, 0, 200⟩]
def waiting : State := work (panel .queued) []

theorem working_queueOk : QueueOk working := work_queueOk rfl rfl (by decide) (by decide) (by decide) (by decide)

theorem starting_queueOk : QueueOk starting := work_queueOk rfl rfl (by decide) (by decide) (by decide) (by decide)
theorem waiting_queueOk : QueueOk waiting := work_queueOk rfl rfl (by decide) (by decide) (by decide) (by decide)

theorem work_paramsOk (p : Panel) (live : List Txn) : ParamsOk (work p live) where
  ranges := fun q => by
    cases q <;> first | rfl | (rename_i x; cases x <;> rfl)
  speed := by show (30000 : Int) ≤ 50000; decide
  paper := rfl
  fabric := rfl
  probes := rfl

theorem working_motionInv : MotionInv working where
  params := work_paramsOk _ _
  caps := fun w hw => by simp [working, work, State.reset] at hw
  line := by constructor <;> decide

theorem working_countsOk : CountsOk working where
  scale := fun c => by cases c <;> decide
  remainder := fun c => by cases c <;> decide
  count := fun c => by cases c <;> decide

theorem working_heatOk : HeatOk working := fun z => by
  cases z <;> constructor <;> decide

theorem working_profilesOk : ProfilesOk working where
  size := rfl
  keys := fun i j hi hj _ _ => by
    cases i with
    | zero => cases j with
      | zero => rfl
      | succ j => exact absurd (hj.symm.trans (congrArg Entry.valid (work_entry _ _ j))) (by decide)
    | succ i => exact absurd (hi.symm.trans (congrArg Entry.valid (work_entry _ _ i))) (by decide)
  trims := fun i hi z => by
    cases i with
    | zero => cases z <;> decide
    | succ i => exact absurd (hi.symm.trans (congrArg Entry.valid (work_entry _ _ i))) (by decide)
  pinned := Nat.zero_le _
  pointer := .inl ⟨Nat.zero_le _, Nat.le_refl _⟩

theorem working_buffersOk : BuffersOk working := by
  constructor <;> decide

theorem working_placedOk : PlacedOk working where
  gap := by decide
  first := List.pairwise_singleton _ _
  clear := List.pairwise_singleton _ _
  ends := by decide
  queued := by decide
  armed := fun p hp => by simp [working, work, State.reset] at hp
  lengths := by decide
  points := fun p hp a _ d hd => by simp [working, work, panel] at hp; simp [hp] at hd


/-! ## Witnesses: a state and operands that meet the hypotheses of each statement -/

theorem test_witness_takes : State.reset.takes ∧ working.takes := by
  constructor <;> constructor <;> decide

/-- A running timer of each supervision event of `SupervisionRaisesItsFault`, one ms before its limit or at 0. -/
def watched : State :=
  { working with
    cnt := { working.cnt with
      stall := 499
      chan := { working.cnt.chan with paper := { working.cnt.chan.paper with silence := .running 199 } } }
    mot := { working.mot with nipTimer := .running 0 }
    ten := { working.ten with feed := { state := .regulate, brkTimer := 1 }, rewind := { state := .hold, overTimer := 90 } }
    flt := { link := .running 0 } }

theorem defaults_paramsOk {s : State} (hp : s.par = {})
    (hm : ∀ c, (s.cnt.chan.get c).mode = .quadrature ∧ (s.cnt.chan.get c).tpm = 100000) : ParamsOk s where
  ranges := fun q => by
    cases q <;> first
      | (show Param.allows _ ((s.cnt.chan.get _).mode.code : Int) = true; rw [(hm _).1]; rfl)
      | (show Param.allows _ (s.cnt.chan.get _).tpm = true; rw [(hm _).2]; rfl)
      | (simp only [State.param, hp]; rfl)
      | (rename_i x; cases x <;> simp only [State.param, hp] <;> rfl)
  speed := by rw [hp]; decide
  paper := by rw [hp]; rfl
  fabric := by rw [hp]; rfl
  probes := by rw [hp]; rfl

/-- `starting` with the line OFF, no command waiting and one timer one ms before its limit, the `i`-th of those
`IdleStepIsOneMillisecond` lists. -/
def atLimit (i : Nat) : State :=
  let at_ := fun j ms => if i = j then Timer.running ms else .stopped
  { starting with
    cnt := { chan := ⟨{ silence := at_ 0 199 }, { silence := at_ 1 199 }, { silence := at_ 2 199 }⟩
             clock := if i = 7 then 199 else 0 }
    mot := { nipTimer := at_ 3 2999, hold := at_ 4 4999 }
    heat := { lostTimer := at_ 5 24 }
    par := {}
    flt := { link := at_ 6 1999 } }

theorem test_witness_IdleStep :
    (∀ i, (atLimit i).pending = [] ∧ ParamsOk (atLimit i))
      ∧ (∀ i ∈ List.range 9,
          let s := advance (atLimit i)
          [s.cnt.chan.paper.silence.due 200, s.cnt.chan.fabric.silence.due 200, s.cnt.chan.drum.silence.due 200,
            s.mot.nipTimer.due 3000, s.mot.hold.due 5000, s.heat.lostTimer.due 25, s.flt.link.due 2000,
            s.pq.live.any (Txn.due s.cnt.clock)] = (List.range 8).map fun j => decide (j = i))
      ∧ ∀ x ∈ (atLimit 7).pq.live, ∀ y ∈ (atLimit 7).pq.live, y.phase = .awaitAccept → y = x :=
  ⟨fun i => ⟨rfl, defaults_paramsOk rfl fun c => by cases c <;> exact ⟨rfl, rfl⟩⟩, by decide +kernel, by decide⟩

theorem test_witness_Resets :
    (State.reset.pins.estop = false ∧ State.reset.pins.openPair = false)
      ∧ (∃ s : State, s.pins.openPair = true) ∧ ∃ s : State, s.pins.estop = true :=
  ⟨by decide, ⟨{ State.reset with pins := { nipo := true } }, rfl⟩, { State.reset with pins := { estop := true } }, rfl⟩

theorem test_witness_TickBatch :
    let c := watched.cnt.chan.paper
    c.silence ≠ .stopped ∧ (c.gather (.counted 0 0)).1 = (0, 0) ∧ (c.gather (.counted 5 5)).1 = (5, 5)
      ∧ (c.gather (.counted 5 4)).1 = (5, 4) ∧ State.reset.cnt.chan.paper.silence = .stopped := by decide

theorem test_witness_ScalerLosesNothing :
    let c := State.reset.cnt.chan.paper
    0 ≤ c.rem ∧ c.rem < c.tpm ∧ c.mode ≠ .pulseOnly
      ∧ (([(60000, 10), (40010, 0)] : List (Nat × Nat)).map fun b => (b.1 : Int) - b.2).sum = c.tpm := by decide

/-- `working` with its panel at the centre of its mark window, 370 ws from it. -/
def atMark (d : Int) : State :=
  { working with
    cnt := { working.cnt with
      chan := { working.cnt.chan with paper := { working.cnt.chan.paper with count := 300000 + d } } } }

theorem test_witness_MarkCapture :
    (atMark 0).cnt.chan.paper.dir = .forward
      ∧ (∀ q ∈ (atMark 501).pq.queue, (atMark 501).inWindow (atMark 501).pp q = false)
      ∧ (∃ s : State, s.cnt.chan.paper.dir = .reverse)
      ∧ (∃ s : State, s.mot.seek.state = .moving ∧ s.mot.seek.cond = .mark) :=
  ⟨rfl, by decide,
    ⟨{ State.reset with cnt := { chan := { State.reset.cnt.chan with paper := { dir := .reverse } } } }, rfl⟩,
    { State.reset with mot := { seek := { state := .moving, cond := .mark } } }, rfl, rfl⟩

theorem test_witness_GoodMark :
    ((atMark 500).pq.queue.find? ((atMark 500).inWindow (atMark 500).pp)).isSome = true
      ∧ ((atMark (-500)).pq.queue.find? ((atMark (-500)).inWindow (atMark (-500)).pp)).isSome = true := by decide

/-- The premises of the fresh dose fields, and an arrival set at PP itself, past the last spacing point: the next probe
point is the trailing point (04 R64). -/
theorem test_witness_GoodMark_fresh :
    let s : State := { atMark 0 with par := { lPn := 250000 } }
    0 < s.par.spacing ∧ (∀ q ∈ s.pq.queue, 0 < q.length) ∧ s.dose.probes = []
      ∧ ∃ t, exec .markCapture s = .next t ∧ t.pq.queue.map Panel.arrival = [some 300000]
        ∧ t.pq.queue.map Panel.dose = [some ⟨some 306000, true, 0, ⟨none, none, none, none, none, none⟩, none, false, false⟩]
        ∧ t.pq.queue.map (fun q => q.flags.sparse) = [true] :=
  ⟨by decide, by decide, rfl, _, rfl, by decide +kernel⟩

/-- A printed panel with the dose fields of an arrival at `a`. -/
def arriving (st : PanelState) (a : Int) (d : DoseFields) : Panel :=
  { panel st with arrival := some a, dose := some d }

def noDose : DoseFields := ⟨none, false, 0, ⟨none, none, none, none, none, none⟩, none, false, false⟩

/-- The line at rest in READY with PP and FP as given. -/
def atCounts (p : Panel) (live : List Txn) (pp fp : Int) : State :=
  { work p live with
    mot := { line := .ready }
    cnt := { chan := ⟨{ count := pp }, { count := fp }, {}⟩ } }

theorem atCounts_queueOk {p : Panel} {live : List Txn} (pp fp : Int) (h : QueueOk (work p live)) :
    QueueOk (atCounts p live pp fp) := queueOk_of h rfl rfl rfl

/-- A panel whose mark window ends at 300,500, at that edge, with the tracker in HOLDOVER, and one that expects no
mark; a reverse update past the unlock distance. -/
theorem test_witness_GoodMark_expiry :
    let s : State := { atCounts (panel .printed) [] 300500 0 with mrk := { state := .holdover, high := 300500 } }
    let new := fun f r => (s.cnt.chan.paper.take (.counted f r)).count
    QueueOk s ∧ s.pp < new 1 0 ∧ (50000 : Int) + s.par.lMs + s.par.wM < new 1 0 ∧ new 0 501 < s.mrk.high - s.par.wM
      ∧ (s.pq.queue.all fun q => q.mark && q.arrival.isNone && q.markResult.isNone) = true
      ∧ QueueOk (atCounts { panel .printed with mark := false } [] 300500 0) :=
  ⟨queueOk_of (work_queueOk (p := panel .printed) (live := []) rfl rfl (by decide) (by decide) (by decide) (by decide)) rfl rfl rfl,
    by decide, by decide, by decide, by decide,
    atCounts_queueOk _ _ (work_queueOk rfl rfl (by decide) (by decide) (by decide) (by decide))⟩

def splice : Splice :=
  { fp := 0, next := none, nipStart := 145000, nipEnd := 275000, rewindPoint := 400000, state := .approaching,
    switched := false }

theorem test_witness_SpliceCapture :
    (State.reset.cnt.chan.fabric.dir = .forward ∧ State.reset.cnt.lockout = none ∧ State.reset.trg.splices.length < 4)
      ∧ (∃ s : State, 4 ≤ s.trg.splices.length)
      ∧ ∃ s : State, s.cnt.lockout = some 0 ∧ ¬(0 + s.par.dSlock < s.fp) :=
  ⟨by decide, ⟨{ State.reset with trg := { splices := List.replicate 4 splice } }, by decide⟩,
    { State.reset with cnt := { lockout := some 0 } }, by decide⟩

/-- FP at each point of a record. -/
theorem test_witness_SpliceCapture_points :
    ∀ fp ∈ [144999, 275000, 399999],
      let s : State := { atCounts (panel .queued) [] 0 fp with trg := { splices := [splice] } }
      (∀ r ∈ s.trg.splices, r.nipStart ≤ r.nipEnd) ∧ s.fp < (s.cnt.chan.fabric.take (.counted 1 0)).count
        ∧ (s.cnt.chan.fabric.take (.counted 1 0)).overrange = s.cnt.chan.fabric.overrange
        ∧ (s.cnt.chan.fabric.take (.counted 0 1)).count ≤ s.fp := by decide

theorem test_witness_CriticalFault_withdraws :
    QueueOk starting ∧ (raise .stall (some 2) starting).mot.line = .halting ∧ starting.mot.line ≠ .halting
      ∧ starting.head.buf.length < 8
      ∧ ∀ x ∈ starting.pq.live, x.phase = .awaitAccept ∧ ∀ y ∈ starting.pq.live, y.phase = .awaitAccept → y = x :=
  ⟨starting_queueOk, by decide +kernel, by decide, by decide, by decide⟩

theorem test_witness_CriticalFault :
    (raise .stall (some 2) working).mot.line = .halting ∧ working.mot.line ≠ .halting ∧ working.flt.used + 3 ≤ 32
      ∧ (raise .linkLost none State.reset).mot.line ≠ .halting := by decide +kernel

theorem test_witness_Supervision :
    (watched.cnt.chan.get .paper).silence.isRunning = true ∧ 0 < watched.cnt.stall ∧ watched.cnt.stall < 500
      ∧ watched.mot.nipTimer.isRunning = true
      ∧ (watched.ten.get .feed).state = .regulate ∧ 0 < (watched.ten.get .feed).brkTimer
      ∧ (watched.ten.get .rewind).state = .hold ∧ 0 < (watched.ten.get .rewind).overTimer
      ∧ watched.heat.lostTimer.isRunning = true ∧ watched.flt.link.isRunning = true := by decide

theorem test_witness_Supervision_range :
    let s : State := { State.reset with
      cnt := { chan := { State.reset.cnt.chan with paper := { count := 2000000000 } } } }
    (s.cnt.chan.get .paper).overrange = false
      ∧ ((s.cnt.chan.get .paper).take (.counted 1 0)).overrange = true := by decide

/-- Nip states and limits. -/
def nipAt (n : NipState) (t : Timer) (line : LineState) : State :=
  { State.reset with mot := { line := line, nip := n, nipTimer := t, hold := .running 0 } }

theorem test_witness_Nip :
    (nipAt .closed .stopped .stopping).pins.closedPair = false ∧ (nipAt .closed .stopped .stopping).pins.openPair = false
      ∧ (nipAt .closing (.running 0) .running).mot.nip = .closing
      ∧ (nipAt .opening (.running 0) .stopping).mot.nip = .opening
      ∧ (nipAt .opened .stopped .ready).mot.nip = .opened ∧ (nipAt .closed .stopped .stopping).mot.hold.isRunning = true := by
  decide

theorem test_witness_Nip_pairs :
    { nipAt .opened .stopped .ready with pins := { nipc := true } }.pins.closedPair = true
      ∧ { nipAt .closed .stopped .stopping with pins := { nipo := true } }.pins.openPair = true := by decide

theorem test_witness_Estop : State.reset.pins.estop = false := rfl

theorem test_witness_Governor : ParamsOk working := work_paramsOk _ _

/-- HALTING at v_ref 0; the step of v_ref to 0 in STOPPING with the nip CLOSED, with t_hold and without. -/
theorem test_witness_Governor_rest :
    let c : Instr := .speedAndTensionSample 0 0 0 false false
    let s := fun (line : LineState) (hold : Int) => ({ working with
      mot := { working.mot with line := line, vref := if line = .halting then 0 else 20 }, par := { tHold := hold } } : State)
    (∃ t, exec c (s .halting 1) = .next t ∧ t.mot.vref = 0 ∧ t.mot.line = .faulted)
      ∧ (∃ t, exec c (s .stopping 1) = .next t ∧ t.mot.vref = 0 ∧ t.flt.latch = none ∧ t.mot.hold = .running 0)
      ∧ ∃ t, exec c (s .stopping 0) = .next t ∧ t.mot.vref = 0 ∧ t.flt.latch = none ∧ t.mot.nip = .opening :=
  ⟨⟨_, rfl, by decide +kernel⟩, ⟨_, rfl, by decide +kernel⟩, _, rfl, by decide +kernel⟩

theorem test_witness_Governor_stall :
    let s : State := { working with cnt := { stall := 490 } }
    s.cnt.stall < 500 ∧ 490 ≤ s.cnt.stall
      ∧ ∃ t, exec (.speedAndTensionSample 0 0 0 true true) s = .next t
        ∧ 1000 ≤ t.mot.vref ∧ 2 * |t.cnt.chan.drum.speed| < t.mot.vref := ⟨by decide, by decide, _, rfl, by decide +kernel⟩

/-- STALL raised before the motion controller takes the sample: v_ref steps down by a_halt (02 R24, R29). -/
theorem test_witness_Governor_early :
    let s : State := { working with cnt := { stall := 490 } }
    ParamsOk s ∧ ∃ t, exec (.speedAndTensionSample 0 0 0 false true) s = .next t
      ∧ 2 * |t.cnt.chan.drum.speed| < s.mot.vref ∧ t.mot.line = .halting ∧ t.mot.vref = 19900 :=
  ⟨⟨fun q => by cases q <;> first | rfl | (rename_i x; cases x <;> rfl), by decide, rfl, rfl, rfl⟩, _, rfl,
    by decide +kernel⟩

theorem test_witness_Moves_notice :
    let k : Seek := { state := .ended, cause := some .condition, cond := .splice, endPos := some 5, due := true }
    let s : State := { State.reset with mot := { line := .threading, seek := k } }
    s.mot.seek.state ≠ .moving ∧ s.mot.seek.due = true
      ∧ ∃ t, exec (.speedAndTensionSample 0 0 0 true true) s = .next t ∧ t.mot.vref = 0 :=
  ⟨by decide, by decide, _, rfl, by decide +kernel⟩

/-- A move with 1 ws left, and one with 2, at an update of 1 ws. -/
theorem test_witness_Moves_count :
    let s := fun n : Int => ({ State.reset with mot := { seek := { state := .moving, remaining := n } } } : State)
    ((s 1).cnt.chan.paper.take (.counted 0 1)).overrange = (s 1).cnt.chan.paper.overrange
      ∧ (∃ t, exec (.tickBatch .paper (.counted 0 1)) (s 1) = .next t ∧ t.mot.seek.endPos = some (-1))
      ∧ ∃ t, exec (.tickBatch .paper (.counted 0 1)) (s 2) = .next t ∧ t.mot.seek.remaining = 1 :=
  ⟨by decide, ⟨_, rfl, by decide +kernel⟩, _, rfl, by decide +kernel⟩

theorem test_witness_Moves :
    (∃ s : State, s.takes ∧ s.mot.line = .threading ∧ s.mot.vref = 0 ∧ s.mot.seek.state = .moving)
      ∧ ∃ s : State, s.takes ∧ s.mot.line = .threading ∧ s.mot.seek.state = .suspended ∧ s.mot.seek.remaining = 0 :=
  ⟨⟨{ State.reset with mot := { line := .threading, seek := { state := .moving, remaining := 1 } } }, ⟨rfl, rfl⟩, by decide⟩,
    { State.reset with mot := { line := .threading, seek := { state := .suspended } } }, ⟨rfl, rfl⟩, by decide⟩

/-- START and STOP: the nip states of their clauses. -/
theorem test_witness_LineCommands :
    (∃ s : State, s.takes ∧ s.mot.line = .ready ∧ s.mot.nip = .opening ∧ s.pins.closedPair = false)
      ∧ (∃ s : State, s.takes ∧ s.mot.line = .stopping ∧ s.mot.nip = .closed)
      ∧ (working.takes ∧ working.mot.line = .running ∧ working.mot.nip = .closed ∧ 0 < working.mot.vref)
      ∧ (∃ s : State, s.takes ∧ s.mot.line = .running ∧ s.mot.nip = .closed ∧ s.mot.vref = 0 ∧ 0 < s.par.tHold)
      ∧ (∃ s : State, s.takes ∧ s.mot.line = .running ∧ s.mot.nip = .closed ∧ s.mot.vref = 0 ∧ s.par.tHold = 0)
      ∧ ∃ s : State, s.takes ∧ s.mot.line = .running ∧ s.mot.nip = .closing ∧ s.pins.openPair = false :=
  ⟨⟨{ State.reset with mot := { line := .ready } }, ⟨rfl, rfl⟩, by decide⟩,
    ⟨nipAt .closed .stopped .stopping, ⟨rfl, rfl⟩, by decide⟩, ⟨⟨rfl, by decide⟩, by decide⟩,
    ⟨nipAt .closed .stopped .running, ⟨rfl, rfl⟩, by decide⟩,
    ⟨{ nipAt .closed .stopped .running with par := { tHold := 0 } }, ⟨rfl, rfl⟩, by decide⟩,
    nipAt .closing (.running 0) .running, ⟨rfl, rfl⟩, by decide⟩

/-- SET_POSITION: the states its refusals look at, and limits of its value. -/
theorem test_witness_SetPosition :
    working.takes ∧ (∃ p ∈ working.pq.queue, p.state ≠ .queued) ∧ State.reset.mot.vref = 0
      ∧ (∃ s : State, s.takes ∧ s.trg.splices ≠ [])
      ∧ exec (.setPosition 1 2 2000000001) State.reset ≠ exec (.setPosition 1 2 2000000000) State.reset :=
  ⟨⟨rfl, by decide⟩, by decide, rfl, ⟨{ State.reset with trg := { splices := [splice] } }, ⟨rfl, rfl⟩, by decide⟩, by
    intro h
    injection h with h
    exact absurd (congrArg (fun t : State => t.dc) h) (by decide +kernel)⟩

theorem test_witness_ClearFault :
    ∃ s : State, s.takes ∧ s.mot.line = .faulted ∧ s.flt.latch ≠ none
      ∧ (s.persists .estop).isSome = false :=
  ⟨{ State.reset with
      mot := { line := .faulted }, flt := { latch := some ⟨.estop, none, 0, .ready, 0, 0, none⟩ } },
    ⟨rfl, by decide⟩, by decide⟩

/-- The drum lags at 499 ws/s and not at 500 with v_ref at 1,000 (01 R10); the least zone with OVERHEAT is named (10
R170). -/
theorem test_persists :
    let drum := fun v : Int => { working with
      mot := { vref := 1000 }, cnt := { chan := ⟨{}, {}, { speed := v }⟩ } }
    let z : Six ZoneRec := ⟨{}, {}, { overheat := true }, {}, { overheat := true }, {}⟩
    (drum 499).persists .stall = some (some 2) ∧ (drum 500).persists .stall = none
      ∧ { working with heat := { zones := z } }.persists .overheat = some (some 2) := by decide

/-- SET_DRUM at its bounds, taken with a zone going off; HEAT_ON in OFF; HEAT_OFF in READY. -/
theorem test_witness_HeatCommands :
    let s : State := { working with mot := { line := .ready } }
    s.takes ∧ s.heat.on = true ∧ drumRange s.par.thAbs 1000 ⟨-100, 0, 0, 0, 0, 0⟩ 1 = true
      ∧ drumRange s.par.thAbs 2400 ⟨100, 0, 0, 0, 0, 100⟩ 0x3F = true
      ∧ drumRange s.par.thAbs 2401 ⟨100, 0, 0, 0, 0, 100⟩ 0x3F = false ∧ (0x1F : Nat).testBit 5 = false
      ∧ State.reset.takes ∧ State.reset.mot.line = .off ∧ State.reset.flt.latch = none :=
  ⟨⟨rfl, by decide⟩, by decide, by decide, by decide, by decide, by decide, ⟨rfl, rfl⟩, rfl, rfl⟩

/-- INVALID readings in the three sensor states, with the count and the hold timer at their limits. -/
theorem test_witness_TemperatureSample_invalid :
    let z : Six ZoneRec := ⟨{ invalid := 2 }, { sensor := .hold, hold := .running 10000 }, { sensor := .lost }, {}, {}, {}⟩
    let s : State := { working with heat := { working.heat with zones := z } }
    s.heat.on = true ∧ (∀ z ∈ Zone.all, (s.heat.zones.get z).enable = true) ∧ s.mot.line = .running
      ∧ ∀ z ∈ Zone.all, ∀ v, (⟨none, some (-1), some 3001, none, none, none⟩ : Six (Option Int)).get z = some v →
          v < 0 ∨ 3000 < v := ⟨by decide, by decide, by decide, fun z _ v h => by cases z <;> cases h <;> decide⟩

/-- A zone over its limit by 0.1 °C, one below the cold limit by 0.1 °C, and a READY line with a zone 8.1 °C out. -/
theorem test_witness_TemperatureSample_faults :
    (∃ t, exec (.temperatureSample ⟨some 2151, some 1699, some 2150, some 1700, some 2000, some 2000⟩) working = .next t
      ∧ t.heat.zones.map ZoneRec.overheat = ⟨true, false, false, false, false, false⟩
      ∧ t.heat.zones.map ZoneRec.cold = ⟨false, true, false, false, false, false⟩)
    ∧ ∃ t, exec (.temperatureSample ⟨some 2081, some 2000, some 2000, some 2000, some 2000, some 2000⟩)
        { working with mot := { line := .ready } } = .next t ∧ t.flt.latch = none ∧ t.mot.line = .warming :=
  ⟨⟨_, rfl, by decide +kernel⟩, _, rfl, by decide +kernel⟩

/-- A VALID reading 0.1 °C over the limit of its zone, with a history of ten. -/
theorem test_witness_TemperatureSample_over :
    let z : Six ZoneRec := ⟨{ integ := 7, hist := [1, 2, 3, 4, 5, 6, 7, 8, 9, 10] }, {}, {}, {}, {}, {}⟩
    let s : State := { working with heat := { working.heat with zones := z } }
    s.heat.setpoint + (s.heat.zones.get .z0).offset + 150 < 2151
      ∧ ∃ t, exec (.temperatureSample ⟨some 2151, none, none, none, none, none⟩) s = .next t
        ∧ (t.heat.zones.get .z0).hist = [2, 3, 4, 5, 6, 7, 8, 9, 10, 0] ∧ (t.heat.zones.get .z0).integ = 7 :=
  ⟨by decide, _, rfl, by decide +kernel⟩

theorem test_witness_TemperatureSample :
    working.heat.on = true ∧ (working.heat.zones.get .z5).enable = true ∧ (0 : Int) ≤ 2150
      ∧ (2150 : Int) ≤ working.par.thAbs
      ∧ (2150 : Int) ≤ working.heat.setpoint + (working.heat.zones.get .z5).offset + 150 := by decide

theorem test_witness_ZoneEvents :
    let z : Six ZoneRec := ⟨{ invalid := 1 }, { sensor := .hold, hold := .running 9999 }, { shortfall := true, shortCount := 499 },
      {}, {}, {}⟩
    let s : State := { working with heat := { working.heat with zones := z, settle := .running 0 } }
    s.heat.on = true ∧ (s.heat.zones.get .z0).enable = true ∧ (s.heat.zones.get .z0).sensor = .normal
      ∧ 0 < (s.heat.zones.get .z0).invalid ∧ (s.heat.zones.get .z1).sensor = .hold
      ∧ s.heat.settle.isRunning = true ∧ (∃ z ∈ Zone.all, (s.heat.zones.get z).enable = true ∧ (s.heat.zones.get z).inBand = false)
      ∧ (∀ z ∈ Zone.all, (({ inBand := true } : ZoneRec).enable = true → ({ inBand := true } : ZoneRec).inBand = true))
      ∧ (s.heat.zones.get .z2).shortfall = true
      ∧ (s.heat.zones.get .z2).shortCount < (if s.heat.freq = .hz60 then 600 else 500) := by decide

theorem test_witness_ZeroCross :
    let s : State := { working with heat := { working.heat with edgePending := true } }
    let m : State := { working with heat := { working.heat with lost := true } }
    s.heat.on = true ∧ s.heat.lost = false ∧ s.heat.edgePending = true ∧ m.heat.lost = true
      ∧ State.reset.heat.on = false ∧ (199 : Nat) < 200 ∧ (200 : Nat) ≤ 200 := by decide

/-- A period of 7.49 ms after one in the band, and one of 7.50 ms. -/
theorem test_witness_ZeroCross_excursion :
    let s : State := { working with heat := { working.heat with edgePending := true } }
    (∃ t, exec (.zeroCrossEdge 749) s = .next t ∧ t.heat.excursion = true ∧ s.heat.excursion = false)
      ∧ ∃ t, exec (.zeroCrossEdge 750) s = .next t ∧ t.heat.excursion = false :=
  ⟨⟨_, rfl, by decide +kernel⟩, _, rfl, by decide +kernel⟩

/-- A run that fires one zone of two candidates, sets SHORTFALL in the other and counts a third to its limit. -/
theorem test_witness_ZeroCross_run :
    let z : Six ZoneRec := ⟨{ credit := 1000, demand := 1000 }, { credit := 1001, demand := 1000 },
      { credit := 2000, demand := 1000, shortfall := true, shortCount := 499 }, {}, {}, {}⟩
    let s : State := { working with
      heat := { working.heat with zones := z, edgePending := true, freq := .hz50 }, par := { mFire := 1 } }
    ∃ t, exec (.zeroCrossEdge 200) s = .next t ∧ t.heat.zones.map ZoneRec.ssr = ⟨true, false, false, false, false, false⟩
      ∧ t.heat.zones.map ZoneRec.shortfall = ⟨false, true, true, false, false, false⟩ ∧ t.heat.pointer = .z1
      ∧ (t.heat.zones.get .z2).shortCount = 500 := ⟨_, rfl, by decide +kernel⟩

def probe : Probe :=
  { owners := [⟨1, false⟩], entry := 0, exit := 120000, zones := ⟨true, true, true, true, true, false⟩ }

theorem test_witness_DoseSample :
    let s : State := { working with dose := { probes := [probe] } }
    s.dose.probes[0]?.isSome = true ∧ working.trg.effects.exclude = false := by decide

/-- A panel in the arc that reaches A + L + Lc = 127,000 at one ws, where its trailing probe leaves the list: it is GOOD
and its result is offered (04 R67 to R70). -/
theorem test_witness_Done :
    let p := { arriving .inArc 1000 noDose with arrived := true }
    let b : Probe := { probe with
      owners := [⟨1, true⟩], entry := 7000, exit := 127000
      dose := ⟨30000000, 30000000, 30000000, 30000000, 30000000, 0⟩ }
    let s : State := { atCounts p [] 126999 0 with dose := { probes := [b] } }
    (QueueOk s ∧ s.pp < (s.cnt.chan.paper.take (.counted 1 0)).count
      ∧ (1000 : Int) + p.length + s.par.arcLen ≤ (s.cnt.chan.paper.take (.counted 1 0)).count
      ∧ (∀ b ∈ s.dose.probes.dropWhile fun b => decide (b.exit ≤ 127000), ∀ o ∈ b.owners, o.tag ≠ p.tag)
      ∧ ∀ q ∈ s.pq.queue, q.profile = p.profile → q.tag = p.tag)
      ∧ s.leaving 1 127000 = [b] ∧ ∃ t, exec (.tickBatch .paper (.counted 1 0)) s = .next t
        ∧ (t.prf.entry 0).learned = 1 ∧ t.pq.queue = [] :=
  ⟨⟨queueOk_of (work_queueOk (p := { arriving .inArc 1000 noDose with arrived := true }) (live := []) rfl rfl
    (by decide) (by decide) (by decide) (by decide)) rfl rfl rfl, by decide, by decide, by decide, by decide⟩,
    by decide, _, rfl, by decide +kernel⟩

/-- The break and the over timer one sample before their limits. -/
theorem test_witness_Loops :
    let s : State := { working with
      trg := { feed := some 0 }
      ten := { feed := { state := .regulate, work := 800, brkTimer := 290 }, unwind := {}, rewind := {} } }
    let u : State := { s with ten := { feed := { state := .hold, work := 800, overTimer := 90 }, unwind := {}, rewind := {} } }
    (∃ t, exec (.speedAndTensionSample 0 159 0 true true) s = .next t ∧ (t.ten.get .feed).cause = some .webBreak)
      ∧ ∃ t, exec (.speedAndTensionSample 0 1601 0 true true) u = .next t ∧ (t.ten.get .feed).cause = some .overTension :=
  ⟨⟨_, rfl, by decide +kernel⟩, _, rfl, by decide +kernel⟩

theorem test_witness_Lookup :
    working.prf.lookup 1 3 = some 0 ∧ working.prf.lookup 2 0 = none := by decide +kernel

theorem test_witness_ProfileLoad : working.takes ∧ ProfilesOk working :=
  ⟨test_witness_takes.2, working_profilesOk⟩

/-- FULL with W 32; the least empty entry of the scan; an unpinned entry that is idle where none is empty. -/
theorem test_witness_ProfileLoad_places :
    let w : Profiles := { working.prf with pinned := 32 }
    let i : Profiles := { entries := List.replicate 31 {} ++ [{ entry0 with refs := 0 }], pinned := 31 }
    (∀ n, ¬(w.pinned ≤ n ∧ n ≤ 31)) ∧ working.prf.pinned ≤ 31 ∧ (working.prf.entry 31).valid = false
      ∧ (∀ m, i.pinned ≤ m → m ≤ 31 → (i.entry m).valid = true ∧ (i.entry m).refs = 0) :=
  ⟨fun n h => absurd (show 32 ≤ n from h.1) (by omega), by decide, by decide, fun m h h' => by
    have : m = 31 := Nat.le_antisymm h' h
    subst this
    exact ⟨by decide, by decide⟩⟩

theorem test_witness_Learning :
    entry0.sigma ≠ 0 ∧ ∀ z ∈ Zone.all, 870 ≤ entry0.trims.get z ∧ entry0.trims.get z ≤ 1178 := by decide

/-- A count update at which no panel of profile 0 becomes DONE. -/
theorem test_witness_Learning_kept :
    ∃ t, exec (.tickBatch .paper (.counted 1 0)) working = .next t ∧ ∀ q ∈ working.pq.queue, q.profile = 0 →
      q.state = .done ∨ ∃ q' ∈ t.pq.queue, q'.tag = q.tag ∧ q'.state ≠ .done := ⟨_, rfl, by decide +kernel⟩

theorem test_witness_PanelsAreAdmitted :
    waiting.takes ∧ State.reset.takes ∧ State.reset.mot.line ≠ .running
      ∧ waiting.prf.resolve (.entry 0) = some 0 := ⟨⟨rfl, by decide⟩, ⟨rfl, rfl⟩, by decide, by decide +kernel⟩

theorem test_witness_PanelCancel :
    starting.takes ∧ QueueOk starting ∧ (∃ p, starting.panel? 1 = some p ∧ p.state = .starting)
      ∧ (∃ p, waiting.panel? 1 = some p ∧ p.state = .queued) ∧ starting.pq.waiting = []
      ∧ starting.acting.flt.room = true ∧ starting.head.buf.length < 8 :=
  ⟨⟨rfl, by decide⟩, starting_queueOk, ⟨_, rfl, rfl⟩, ⟨_, rfl, rfl⟩, rfl, by decide, by decide⟩

/-- The same with the line STOPPING, and with the retry limit reached. -/
theorem test_witness_stopping :
    let s : State := { starting with mot := { line := .stopping } }
    QueueOk s ∧ s.takes ∧ s.mot.line ≠ .running ∧ (∃ x ∈ s.pq.live, x.tag = 1) :=
  ⟨queueOk_of starting_queueOk rfl rfl rfl, ⟨rfl, by decide⟩, by decide, by decide⟩

theorem test_witness_retry :
    let p := { panel .starting with attempts := 2 }
    let s := work p [⟨1, 1, .awaitAccept, 0, 200⟩]
    QueueOk s ∧ s.par.nRetry < (p.attempts : Int) + 1
      ∧ ((panel .starting).attempts : Int) + 1 ≤ starting.par.nRetry :=
  ⟨work_queueOk rfl rfl (by decide) (by decide) (by decide) (by decide), by decide, by decide⟩

theorem test_witness_Placement :
    waiting.candidate = some (none, panel .queued) ∧ waiting.mot.line = .running ∧ waiting.pq.dispatch = .enabled
      ∧ State.reset.candidate = none
      ∧ { waiting with pq := { waiting.pq with slots := [.empty, .armed (panel .queued), .empty, .empty] } }.candidate
          = some (some 1, panel .queued) := by decide

/-- `waiting` where PP lets the panel be placed: 62,000 - 50,000. -/
def mayPlace (pp : Int) : State :=
  { waiting with
    cnt := { waiting.cnt with
      chan := { waiting.cnt.chan with paper := { waiting.cnt.chan.paper with count := pp } } } }

theorem test_witness_StartNeeds :
    ∃ t, exec (.dispatchEnable 1) (mayPlace 12000) = .next t
      ∧ (mayPlace 12000).head.buf.countP HeadFrame.isStart < t.head.buf.countP HeadFrame.isStart :=
  ⟨_, rfl, by decide +kernel⟩

/-- A transmit queue with no free place, and one with a single one. -/
def fullQueue (n : Nat) : FaultMon :=
  { current := some (.reply 3 0 .ok [] none), waiting := List.replicate n (.reply 3 0 .ok [] none) }

/-- The events of a decision: an update of PP that opens condition 5, a frame that leaves, a write of gap at its bound, a
report that frees its panel. -/
theorem test_witness_Placement_events :
    let s := mayPlace 11999
    let r : State := { waiting with
      flt := fullQueue 31, pq := { waiting.pq with queue := [{ panel .queued with state := .done }], waiting := [1] } }
    (QueueOk s ∧ s.dose.probes = [] ∧ (∀ p ∈ s.pq.queue, p.state = .queued)
      ∧ (s.cnt.chan.paper.take (.counted 1 0)).overrange = s.cnt.chan.paper.overrange
      ∧ (s.cnt.chan.paper.take (.counted 1 0)).count = 12000 ∧ s.pp = 11999)
      ∧ (∃ t, exec (.tickBatch .paper (.counted 1 0)) s = .next t ∧ t.head.buf.length = 1)
      ∧ (∃ t, exec (.setParam 1 0x0701 1000) s = .next t ∧ t.head.buf.length = 1)
      ∧ (∃ t, exec .headFrameSent { mayPlace 12000 with head := { buf := List.replicate 8 (.withdraw 1 1) } } = .next t
        ∧ t.head.buf.length = 8)
      ∧ r.flt.current ≠ none ∧ r.flt.used ≤ 32 ∧ r.pq.waiting.head? = some 1 ∧ (r.panel? 1).isSome = true :=
  ⟨⟨queueOk_of waiting_queueOk rfl rfl rfl, rfl, by decide, by decide, by decide, by decide⟩,
    ⟨_, rfl, by decide +kernel⟩, ⟨_, rfl, by decide +kernel⟩, ⟨_, rfl, by decide +kernel⟩, by decide +kernel⟩

/-- A refusal in RUNNING with PP at x_s less lead: the panel is placed again at once, under the next number. -/
theorem test_witness_replaced :
    let s : State := { starting with
      cnt := { starting.cnt with chan := { starting.cnt.chan with paper := { count := 12000 } } }
      pq := { starting.pq with nextTxn := 2 } }
    ∃ t, exec (.refuse 1 1 5) s = .next t ∧ t.pq.live.map (fun x => (x.num, x.tag)) = [(2, 1)]
      ∧ t.pq.queue.map (fun p => (p.state, p.attempts, p.txn)) = [(.starting, 1, some 2)] := ⟨_, rfl, by decide +kernel⟩

theorem test_witness_EngineAnswers :
    (QueueOk starting ∧ ∃ x ∈ starting.pq.live, x.num = 1 ∧ x.tag = 1 ∧ x.phase = .awaitAccept)
      ∧ QueueOk working ∧ (∃ x ∈ working.pq.live, x.num = 1 ∧ x.tag = 1 ∧ x.phase = .printing)
      ∧ ¬∃ x ∈ working.pq.live, x.num = 1 ∧ x.tag = 1 ∧ x.phase = .awaitAccept :=
  ⟨⟨starting_queueOk, by decide⟩, working_queueOk, by decide, by decide⟩

/-- A PRINTING panel that has arrived is spoiled by a FAULT (07 R124, R127): with every slot free, and with none. -/
theorem test_witness_EngineAnswers_reject :
    let p := { arriving .printing 1000 noDose with arrived := true }
    let s := atCounts p [⟨1, 1, .printing, 0, 200⟩] 2000 0
    let e : Trigger := ⟨.paper, some 100, none, .either, .pulse .out0, .oneShot, true⟩
    let u : State := { s with trg := { slots := List.replicate 24 (.held .host e) } }
    QueueOk s ∧ QueueOk u ∧ (∀ x ∈ u.trg.slots, x ≠ .free)
      ∧ s.trg.slots = [] ++ .free :: List.replicate 23 .free ∧ s.pp < (s.reject 1 1000).position.getD 0
      ∧ (∃ t, exec (.fault 1 1 500 7) s = .next t ∧ t.slot 0 = .held .panel (s.reject 1 1000))
      ∧ ∃ t, exec (.fault 1 1 500 7) u = .next t ∧ t.pq.queue.map (fun q => q.flags.rejectUnmarked) = [true] :=
  have h := work_queueOk (p := { arriving .printing 1000 noDose with arrived := true })
    (live := [⟨1, 1, .printing, 0, 200⟩]) rfl rfl (by decide) (by decide) (by decide) (by decide)
  ⟨queueOk_of h rfl rfl rfl, by
      obtain ⟨h1, h2, h3, h4, h5, h6, h7, h8, h9, h10, h11⟩ := h
      constructor <;> assumption,
    by decide, rfl, by decide, ⟨_, rfl, by decide +kernel⟩, _, rfl, by decide +kernel⟩

theorem test_witness_HeadLinkEvents :
    QueueOk starting ∧ (∃ x ∈ starting.pq.live, x.phase = .awaitAccept ∧ ∀ y ∈ starting.pq.live, y.num = x.num → y = x)
      ∧ State.reset.flt.room = true ∧ State.reset.head.buf = []
      ∧ ∃ s : State, s.head.buf ≠ [] :=
  ⟨starting_queueOk, by decide, rfl, rfl, { State.reset with head := { buf := [.withdraw 1 1] } }, by decide⟩

/-- The deadlines of a STARTING and of a PRINTING panel at one ws, reached and not. -/
theorem test_witness_Deadlines :
    let s := atCounts (panel .starting) [⟨1, 1, .awaitAccept, 0, 200⟩] 49999 0
    let u := atCounts (panel .printing) [⟨1, 1, .printing, 0, 200⟩] 75999 0
    (QueueOk s ∧ s.pp < (s.cnt.chan.paper.take (.counted 1 0)).count ∧ s.mot.line ≠ .running
      ∧ (s.cnt.chan.paper.take (.counted 1 0)).count = 50000
      ∧ (s.cnt.chan.paper.take (.counted 1 0)).overrange = s.cnt.chan.paper.overrange)
      ∧ QueueOk u ∧ 50000 + (panel .printing).length + u.par.mDone = (u.cnt.chan.paper.take (.counted 1 0)).count
      ∧ QueueOk (atCounts (panel .starting) [⟨1, 1, .awaitAccept, 0, 200⟩] 49998 0) :=
  ⟨⟨atCounts_queueOk _ _ starting_queueOk, by decide⟩, atCounts_queueOk _ _ working_queueOk, by decide,
    atCounts_queueOk _ _ starting_queueOk⟩

/-- The done deadline of a PRINTING panel that has arrived: its reject trigger stands in the table (07 R127). -/
theorem test_witness_Deadlines_reject :
    let p := { arriving .printing 1000 noDose with arrived := true }
    let s := atCounts p [⟨1, 1, .printing, 0, 200⟩] 75999 0
    QueueOk s ∧ .free ∈ s.trg.slots ∧ (s.cnt.chan.paper.take (.counted 1 0)).count < (s.reject 1 1000).position.getD 0
      ∧ (∀ y ∈ s.pq.live, y.phase = .printing → y = ⟨1, 1, .printing, 0, 200⟩)
      ∧ ∃ t, exec (.tickBatch .paper (.counted 1 0)) s = .next t ∧ t.slot 0 = .held .panel (s.reject 1 1000) :=
  ⟨queueOk_of (work_queueOk (p := { arriving .printing 1000 noDose with arrived := true })
    (live := [⟨1, 1, .printing, 0, 200⟩]) rfl rfl (by decide) (by decide) (by decide) (by decide)) rfl rfl rfl,
    by decide, by decide, by decide, _, rfl, by decide +kernel⟩

theorem test_witness_Tracker :
    -20000 ≤ State.reset.mrk.slip ∧ State.reset.mrk.slip ≤ 20000
      ∧ ∃ s : State, s.mrk.state = .holdover ∧ s.flt.room = true :=
  ⟨by decide, by decide, { State.reset with mrk := { state := .holdover } }, rfl, rfl⟩

theorem test_witness_Arrival :
    let p := { panel .printed with arrival := some 370000, dose := some ⟨some 370000, true, 0, ⟨none, none, none, none, none, none⟩, none, false, false⟩ }
    QueueOk (work p []) ∧ (∃ t, exec .markCapture (work p []) = .next t) ∧ p ∈ (work p []).pq.queue
      ∧ p.arrival = some 370000 :=
  ⟨work_queueOk rfl rfl (by decide) (by decide) (by decide) (by decide), ⟨_, rfl⟩, List.mem_singleton.2 rfl, rfl⟩

/-- CLEAR_LINE and a PANEL_SUBMIT of the same tag in one VALID_FRAME: the tag's new record has no arrival (08 R144, 07 R112,
R131). -/
theorem test_witness_Arrival_anew :
    let p := arriving .inArc 1000 noDose
    let s := atCounts p [] 2000 0
    let wire := fun c => ((commandFrame c).map Frame.wire).getD []
    QueueOk s ∧ ∃ t, exec (.validFrame (wire (.clearLine 1) ++ wire (.panelSubmit 2 1 (.entry 0) 6000 0))) s = .next t
      ∧ t.pq.queue.map Panel.tag = [1] ∧ t.pq.queue.map Panel.arrival = [none] :=
  ⟨atCounts_queueOk _ _ (work_queueOk rfl rfl (by decide) (by decide) (by decide) (by decide)), _, rfl, by decide +kernel⟩

/-- A panel with the probe points 1,001, 3,001, 5,001 and the trailing point 7,001, PP at 1,000, and `n` probes in the list. -/
def probing (n : Nat) : State :=
  let s := atCounts (arriving .printed 1001 { noDose with next := some 1001, final := true }) [] 1000 0
  { s with dose := { probes := List.replicate n { probe with exit := 500000 } }, par := { s.par with spacing := 2000 } }

theorem probing_ok (n : Nat) : QueueOk (probing n) ∧ ReportsOk (probing n) ∧ PointsOk (probing n) :=
  ⟨queueOk_of (work_queueOk (p := arriving .printed 1001 { noDose with next := some 1001, final := true }) (live := [])
    rfl rfl (by decide) (by decide) (by decide) (by decide)) rfl rfl rfl,
    fun h => absurd rfl h,
    fun p hp a ha d hd n hn => by
      simp [probing, atCounts, work] at hp; subst hp; simp [arriving] at ha hd; subst ha hd; simp at hn; subst hn
      exact ⟨Int.le_refl _, by decide⟩⟩

/-- One update handles the four points: four probes join, or with 62 in the list two, and the panel is SPARSE (04 R65); an
update longer than the arc takes them out again at once, and the panel, DONE, is left in its report (R65 note 2, R68). -/
theorem test_witness_Arrival_points :
    let q := arriving .printed 1001 { noDose with next := some 1001, final := true }
    (∀ n, 0 < (probing n).par.spacing ∧ (probing n).pp < ((probing n).cnt.chan.paper.take (.counted 6001 0)).count)
      ∧ ([1001, 3001, 5001, 7001].all fun x => q.handles 2000 1000 7001 x) = true
      ∧ pointAfter (some 1001) 2000 7001 1000 1001 = some 3001 ∧ pointAfter (some 1001) 2000 7001 1000 5001 = none
      ∧ (∃ t, exec (.tickBatch .paper (.counted 6001 0)) (probing 1) = .next t
        ∧ t.dose.probes.map Probe.entry = [0, 1001, 3001, 5001, 7001] ∧ t.pq.queue.map (fun p => p.flags.sparse) = [false])
      ∧ (∃ t, exec (.tickBatch .paper (.counted 6001 0)) (probing 62) = .next t
        ∧ (t.dose.probes.drop 62).map Probe.entry = [1001, 3001] ∧ t.pq.queue.map (fun p => p.flags.sparse) = [true])
      ∧ ∃ t, exec (.tickBatch .paper (.counted 126001 0)) (probing 0) = .next t ∧ t.dose.probes = [] ∧ t.pq.queue = []
        ∧ t.flt.frames.any (fun x => match x with
          | .notice _ (.panelReport p) => p.tag = 1 && p.state = .done && (p.dose.map DoseFields.folds) = some 4
          | _ => false) = true :=
  ⟨fun n => (by decide : 0 < (probing 0).par.spacing
      ∧ (probing 0).pp < ((probing 0).cnt.chan.paper.take (.counted 6001 0)).count), by decide, by decide, by decide,
    ⟨_, rfl, by decide +kernel⟩, ⟨_, rfl, by decide +kernel⟩, _, rfl, by decide +kernel⟩

/-- A SPOILED panel arriving at one ws, with every slot free and with none; at an update that passes its reject position; and
at one that brings PP to the end of its range and sets OVERRANGE. -/
theorem test_witness_Arrival_spoiled :
    let p := { arriving .spoiled 1001 noDose with verdict := some .spoiled }
    let s := atCounts p [] 1000 0
    let e : Trigger := ⟨.paper, some 100, none, .either, .pulse .out0, .oneShot, true⟩
    let far := { arriving .spoiled 2000000000 noDose with verdict := some .spoiled }
    let edge := (atCounts far [] 1999999999 0).cnt.chan.paper
    QueueOk s ∧ ReportsOk s ∧ PointsOk s ∧ s.pp < (s.cnt.chan.paper.take (.counted 1 0)).count
      ∧ (s.cnt.chan.paper.take (.counted 1 0)).count < 1001 + s.par.arcLen + s.par.dMark
      ∧ 1001 + s.par.arcLen + s.par.dMark ≤ (s.cnt.chan.paper.take (.counted 120001 0)).count
      ∧ (s.pq.queue.all fun q => !q.arrived && decide (q.arrival = some 1001)) = true
      ∧ (∃ x ∈ s.trg.slots, x = .free)
      ∧ (List.replicate 24 (TrigSlot.held .host e)).all (fun x => match x with
          | .held .host e => e.position.isSome | _ => false) = true
      ∧ (s.prf.entry p.profile).media = 1 ∧ s.trg.nip = none
      ∧ QueueOk (atCounts far [] 1999999999 0) ∧ edge.overrange = false
      ∧ (edge.take (.counted 5 0)).overrange = true ∧ (edge.take (.counted 5 0)).count = 2000000000 :=
  ⟨atCounts_queueOk _ _ (work_queueOk rfl rfl (by decide) (by decide) (by decide) (by decide)), fun h => absurd rfl h,
    fun p hp a ha d hd n hn => by
      simp [atCounts, work] at hp; subst hp; simp [arriving] at hd; subst hd; simp [noDose] at hn,
    by decide, by decide, by decide, by decide, by decide, by decide, by decide, by decide,
    atCounts_queueOk _ _ (work_queueOk rfl rfl (by decide) (by decide) (by decide) (by decide)), by decide, by decide,
    by decide⟩

/-- A panel whose report waits: the transmit queue is full; the frame sent gives it its place (07 R129). -/
theorem test_witness_Reports :
    let p := { panel .done with verdict := some .skipped, xs := none }
    let full : FaultMon :=
      { current := some (.reply 0 0 .ok [] none), waiting := List.replicate 31 (.reply 0 0 .ok [] none) }
    let s := work p []
    let s : State := { s with pq := { s.pq with waiting := [1] }, flt := full }
    (QueueOk s ∧ ReportsOk s) ∧ s.pq.waiting ≠ [] ∧ ∃ t, step { s with pending := [.frameSent] } = .next t
      ∧ t.pq.waiting = [] ∧ t.pq.queue = [] ∧ t.flt.room = false := by
  refine ⟨⟨?_, fun _ => by decide⟩, by decide, _, rfl, by decide +kernel⟩
  have h : QueueOk (work { panel .done with verdict := some .skipped, xs := none } []) :=
    work_queueOk rfl rfl (by decide) (by decide) (by decide) (by decide)
  exact ⟨h.tags, by decide, by decide, h.live, h.liveOnce, h.unseen, h.measured, h.armed, h.cancelled, h.refs, h.held⟩

theorem test_witness_TriggerCommands : State.reset.takes ∧ State.reset.trg.slots.length = 24 := ⟨⟨rfl, rfl⟩, rfl⟩

/-- TRIGGER_SET on a panel whose arrival PP has reached: the position is PP itself, and the entry fires LATE. -/
theorem test_witness_TriggerCommands_late :
    let s := atCounts (arriving .inArc 1000 noDose) [] 1000 0
    s.takes ∧ (s.panel? 1).bind Panel.arrival = some 1000
      ∧ ∃ t, exec (.triggerSet 5 23 ⟨0, none, some (1, 0), 0, 1, 0⟩) s = .next t ∧ t.outLevel .out1 = true
        ∧ t.slot 23 = .held .host ⟨.paper, some 1000, some (1, 0), .forward, .pulse .out1, .oneShot, false⟩ :=
  ⟨⟨rfl, by decide⟩, by decide, _, rfl, by decide +kernel⟩

def trigger : Trigger := ⟨.paper, some 100, none, .either, .pulse .out0, .oneShot, true⟩

theorem test_witness_CrossedTriggers :
    let s : State := { State.reset with
      trg := { State.reset.trg with slots := State.reset.trg.slots.set 0 (.held .host trigger) } }
    s.trg.slots[0]? = some (.held .host trigger)
      ∧ (s.cnt.chan.get .paper).count < 100 ∧ 100 ≤ ((s.cnt.chan.get .paper).take (.counted 100 0)).count
      ∧ (let r := { s with cnt := { chan := { State.reset.cnt.chan with paper := { count := 101 } } } }
        ((r.cnt.chan.get .paper).take (.counted 0 1)).count ≤ 100 ∧ 100 < (r.cnt.chan.get .paper).count) := by decide

/-- A mark that sets the arrival 370,000 of tag 1: an armed entry whose position is PP itself fires LATE, one a ws further
waits. -/
theorem test_witness_CrossedTriggers_anchored :
    let e := fun off : Int => ({ trigger with position := none, anchor := some (1, off), dir := .forward } : Trigger)
    let s := fun off : Int => ({ atMark 0 with
      trg := { State.reset.trg with slots := State.reset.trg.slots.set 23 (.held .host (e off)) } } : State)
    (QueueOk (s (-70000)) ∧ (s (-70000)).slot 23 = .held .host (e (-70000))
      ∧ ∀ q ∈ (s (-70000)).pq.queue, q.arrival = none)
      ∧ (∃ t, exec .markCapture (s (-70000)) = .next t ∧ t.outLevel .out0 = true
        ∧ t.slot 23 = .held .host { e (-70000) with position := some 300000, armed := false })
      ∧ ∃ t, exec .markCapture (s (-69999)) = .next t ∧ t.outLevel .out0 = false
        ∧ t.slot 23 = .held .host { e (-69999) with position := some 300001 } :=
  ⟨⟨{ working_queueOk with }, by decide, by decide⟩, ⟨_, rfl, by decide +kernel⟩, _, rfl, by decide +kernel⟩

/-- The same entry with NOTIFY, as a PANEL entry, and not crossed; every other slot is free. -/
theorem test_witness_CrossedTriggers_kinds :
    let s := fun o e => ({ State.reset with
      trg := { State.reset.trg with slots := State.reset.trg.slots.set 23 (.held o e) } } : State)
    (s .host { trigger with action := .notify }).trg.slots[23]? = some (.held .host { trigger with action := .notify })
      ∧ (s .panel trigger).trg.slots[23]? = some (.held .panel trigger)
      ∧ ((s .host trigger).cnt.chan.paper.take (.counted 99 0)).count < 100
      ∧ (∀ q ∈ (s .panel trigger).pq.queue, q.state ≠ .spoiled ∧ q.state ≠ .printing) := by decide

/-- WINDOW_SET at its bounds; a window with NOTIFY_EDGES whose activity an update changes. -/
theorem test_witness_Windows_bounds :
    (∃ t, exec (.windowSet 1 7 ⟨1, -2000000000, 2000000000, 15, 7, 50000, true⟩) State.reset = .next t
      ∧ t.trg.effects.cap = some 50000)
    ∧ (let w : Window := ⟨.paper, 0, 10, none, true, false, none, true, true⟩
      (w.judged 10 = true ∧ w.judged 11 = false)
      ∧ (State.reset.cnt.chan.paper.take (.counted 11 0)).count = 11) := ⟨⟨_, rfl, by decide +kernel⟩, by decide⟩

theorem test_witness_Windows :
    let w : Window := ⟨.paper, 0, 10, none, true, false, none, false, false⟩
    let s : State := { State.reset with trg := { State.reset.trg with windows := State.reset.trg.windows.set 7 (some w) } }
    s.trg.windows[7]? = some (some w) := by decide

theorem test_witness_Reading :
    (∃ s : State, s.takes ∧ ∃ b, s.dose.probes[0]? = some b) ∧ ((State.reset.dose.probes.length : Int) ≤ 0) :=
  ⟨⟨{ State.reset with dose := { probes := [probe] } },
    ⟨rfl, rfl⟩, _, rfl⟩, by decide⟩

/-- A full transmit queue and one waiting frame; a frame to be discarded; a report that waits. -/
theorem test_witness_CommandsWait_buffer :
    let s : State := { waiting with flt := fullQueue 31, lnk := { buffer := [⟨0x12, 5, []⟩] } }
    let r : State := { s with pq := { s.pq with waiting := [1] } }
    (Instr.start 5).wf = true ∧ commandFrame (.start 5) = some ⟨0x12, 5, []⟩ ∧ s.flt.current ≠ none ∧ s.flt.used = 32
      ∧ s.flt.kept = false ∧ s.pq.waiting = [] ∧ restartLink s = s ∧ s.flt.room = false ∧ s.settled = true
      ∧ r.pq.waiting ≠ [] ∧ (∀ tag ∈ r.pq.waiting, r.panel? tag ≠ none)
      ∧ (0x60 : Byte).toNat = 0x60 ∧ (0x5F : Byte).toNat < 0x60 := by decide +kernel

/-- A LINK_CONFIG is taken at once, and so is an unknown frame. -/
theorem test_witness_CommandsWait_taken :
    State.reset.takes ∧ (0x04 : Byte) ≠ 0 ∧ viaBuffer (.linkConfig 1 115200) = true
      ∧ exec (.unknownCommand 4 9 []) State.reset ≠ .next State.reset :=
  ⟨⟨rfl, rfl⟩, by decide, by decide, by
    intro h
    injection h with h
    exact absurd (congrArg (fun t : State => t.flt.current) h) (by decide +kernel)⟩

/-- A change of line state with room for its notice, and one with none. -/
theorem test_witness_FramesLeave_notices :
    (∃ t, exec (.stop 1) working = .next t ∧ t.mot.line ≠ working.mot.line ∧ working.settled = true)
      ∧ ∃ t, exec .estop { working with flt := fullQueue 31 } = .next t ∧ t.flt.dropped = true
        ∧ t.flt.frames.length = 32 := ⟨⟨_, rfl, by decide +kernel⟩, _, rfl, by decide +kernel⟩

theorem test_witness_CommandsWait :
    let full : State := { State.reset with flt := fullQueue 31 }
    let held : State := { full with lnk := { buffer := [⟨0x12, 5, []⟩] } }
    commandFrame (.start 5) = some ⟨0x12, 5, []⟩
      ∧ full.lnk.buffer = [] ∧ full.flt.room = false
      ∧ readCommand ⟨0x12, 5, []⟩ = .command (.start 5) ∧ held.flt.room = false
      ∧ { held with flt := fullQueue 30 }.flt.room = true
      ∧ readCommand ⟨0x12, 5, []⟩ ≠ .command (.stop 5)
      ∧ readCommand ⟨0x04, 0, []⟩ = .unknown ∧ readCommand ⟨0x12, 0, [1]⟩ = .badLength := by decide +kernel

theorem test_witness_FramesLeave :
    let n : TxFrame := .notice 0 (.stateChange .off .warming .heatOn)
    let r : TxFrame := .reply 3 0 .ok [] none
    let s : State := { State.reset with flt := { current := some n, waiting := [n, r, n] } }
    s.flt.current = some n ∧ s.flt.waiting = [n] ++ r :: [n] ∧ r.isReply = true
      ∧ (∀ f ∈ [n], f.isReply = false) ∧ State.reset.flt.current = none
      ∧ (1 : Byte).toNat < 2 ∧ 252 < (253 : Byte).toNat := by decide

theorem test_witness_Layouts :
    (∀ z ∈ Zone.all, (0 : Int) ≤ entry0.trims.get z)
      ∧ (HeadFrame.start 1 1 62000 6000 entry0.trims true).frame.body.length = 23
      ∧ (TxFrame.notice 0 (.panelReport (panel .done))).frame.body.length = 66 := by decide +kernel

/-- An engine reason in READ_PANEL: presence, selector, four bytes (11 R182). -/
theorem test_engineReason :
    optional 5 engineReasonBytes (some (.code 7)) = [1, 0, 0, 0, 0, 7]
      ∧ optional 5 engineReasonBytes (some .timeout) = [1, 1, 0, 0, 0, 0]
      ∧ optional 5 engineReasonBytes none = [0, 0, 0, 0, 0, 0] := by decide

theorem test_witness_RoundTrip :
    (Instr.setParam 7 0x0202 (-2147483648)).wf = true ∧ (Instr.setParam 7 0x0202 2147483647).wf = true
      ∧ (commandFrame (.setParam 7 0x0202 2147483647)).isSome = true := by decide

theorem test_witness_ReceivedFrames :
    State.reset.lnk.framer = .hunting ∧ (List.replicate 250 (0 : Byte)).length ≤ 250
      ∧ [0, 0] ≠ u16 (crc (Frame.core ⟨0x12, 5, []⟩)).toNat := by decide +kernel

theorem test_witness_Refused :
    State.reset.takes ∧ commandFrame (.start 5) = some ⟨0x12, 5, []⟩ := ⟨⟨rfl, rfl⟩, rfl⟩

theorem test_witness_Invariants :
    (CountsOk working ∧ MotionInv working ∧ HeatOk working ∧ ProfilesOk working ∧ BuffersOk working ∧ QueueOk working
      ∧ ParamsOk working ∧ PlacedOk working ∧ ReportsOk working) ∧ ∃ t, step working = .next t :=
  ⟨⟨working_countsOk, working_motionInv, working_heatOk, working_profilesOk, working_buffersOk, working_queueOk,
    work_paramsOk _ _, working_placedOk, fun h => absurd rfl h⟩, _, rfl⟩

/-! ## Well-formedness: an ill-formed command for each check -/

theorem test_wf_events :
    [Instr.zeroCrossEdge 2501, .timeDeadline 0, .timeDeadline 256, .validFrame [], .unknownCommand 0 0 [],
      .unknownCommand 0x60 0 [], .unknownCommand 4 0 (List.replicate 251 0), .accept 256 1, .accept 1 65536,
      .refuse 256 1 1, .refuse 1 65536 1, .refuse 1 1 0, .refuse 1 1 256, .done 256 1 0, .done 1 65536 0,
      .done 1 1 2147483648, .fault 256 1 0 1, .fault 1 65536 0 1, .fault 1 1 (-2147483649) 1, .fault 1 1 0 0,
      .fault 1 1 0 256, .headOtherKindFrame 1 0 (List.replicate 251 0), .headOtherKindFrame 0x81 0 [0, 1],
      .lenOutOfRange .host 2, .lenOutOfRange .head 252].all (fun i => !i.wf) = true := by decide +kernel

theorem test_wf_commands_one :
    [Instr.linkConfig 0 2147483648, .setParam 0 65536 0, .setParam 0 1 2147483648, .getParam 0 65536,
      .setPosition 0 256 0, .setPosition 0 0 2147483648, .heatOn 0 2147483648 ⟨0, 0, 0, 0, 0, 0⟩ 63,
      .heatOn 0 2000 ⟨0, 0, 0, 0, 0, 2147483648⟩ 63, .heatOn 0 2000 ⟨0, 0, 0, 0, 0, 0⟩ 256, .jog 0 256 1,
      .jog 0 0 2147483648, .seek 0 2147483648 0, .seek 0 1 256, .setDrum 0 2147483648 ⟨0, 0, 0, 0, 0, 0⟩ 63,
      .setDrum 0 2000 ⟨2147483648, 0, 0, 0, 0, 0⟩ 63, .setDrum 0 2000 ⟨0, 0, 0, 0, 0, 0⟩ 256,
      .readHeat 0 (some 2147483648), .readProbe 0 2147483648, .profileFind 0 65536 0, .profileFind 0 1 256,
      .profileRead 0 (some 256) none, .profileRead 0 none (some 2147483648), .profileDrop 0 256,
      .profilePin 0 256, .profileTrim 0 256 ⟨0, 0, 0, 0, 0, 0⟩,
      .profileTrim 0 0 ⟨0, 0, 65536, 0, 0, 0⟩].all (fun i => !i.wf) = true := by decide

def fields : ProfileFields := ⟨1, 0, 1000000, 10, 10, 800, 600, ⟨1024, 1024, 1024, 1024, 1024, 1024⟩, 128, 2⟩

theorem test_wf_profileLoad :
    (Instr.profileLoad 0 fields (some 255)).wf = true
      ∧ [Instr.profileLoad 0 fields (some 256), .profileLoad 0 { fields with media := 65536 } none,
          .profileLoad 0 { fields with ink := 256 } none, .profileLoad 0 { fields with target := 4294967296 } none,
          .profileLoad 0 { fields with allowUnder := 2147483648 } none,
          .profileLoad 0 { fields with allowOver := 2147483648 } none,
          .profileLoad 0 { fields with feedTension := 2147483648 } none,
          .profileLoad 0 { fields with rewindTension := 2147483648 } none,
          .profileLoad 0 { fields with trims := ⟨0, 0, 0, 0, 0, 65536⟩ } none,
          .profileLoad 0 { fields with sigma := 2147483648 } none,
          .profileLoad 0 { fields with weight := 2147483648 } none].all (fun i => !i.wf) = true := by decide

theorem test_wf_commands_two :
    [Instr.panelSubmit 0 65536 .none 0 0, .panelSubmit 0 1 (.entry 256) 0 0, .panelSubmit 0 1 (.key 65536 0) 0 0,
      .panelSubmit 0 1 (.key 1 256) 0 0, .panelSubmit 0 1 .none 2147483648 0, .panelSubmit 0 1 .none 0 256,
      .panelInsert 0 256 1 .none 0 0, .panelInsert 0 0 65536 .none 0 0, .panelInsert 0 0 1 (.entry 256) 0 0,
      .panelInsert 0 0 1 .none 2147483648 0, .panelInsert 0 0 1 .none 0 256, .panelCancel 0 65536,
      .readQueue 0 (some 2147483648), .readPanel 0 65536, .readMarks 0 (some 2147483648), .triggerArm 0 256,
      .triggerClear 0 256, .triggerRead 0 256, .windowClear 0 256, .fabricLoad 0 (.entry 256),
      .spliceAhead 0 (.key 65536 0)].all (fun i => !i.wf) = true := by decide

theorem test_wf_tables :
    let f : TriggerFields := ⟨0, some 0, none, 0, 0, 0⟩
    let w : WindowFields := ⟨0, 0, 1, 2, 0, 0, false⟩
    (Instr.triggerSet 0 0 f).wf = true ∧ (Instr.windowSet 0 0 w).wf = true
      ∧ [Instr.triggerSet 0 256 f, .triggerSet 0 0 { f with axis := 256 },
          .triggerSet 0 0 { f with position := some 2147483648 },
          .triggerSet 0 0 { f with anchor := some (65536, 0) },
          .triggerSet 0 0 { f with anchor := some (1, 2147483648) }, .triggerSet 0 0 { f with direction := 256 },
          .triggerSet 0 0 { f with action := 256 }, .triggerSet 0 0 { f with repeated := 256 },
          .windowSet 0 256 w, .windowSet 0 0 { w with axis := 256 }, .windowSet 0 0 { w with lo := 2147483648 },
          .windowSet 0 0 { w with hi := 2147483648 }, .windowSet 0 0 { w with effects := 256 },
          .windowSet 0 0 { w with mask := 256 }, .windowSet 0 0 { w with cap := 2147483648 }].all
            (fun i => !i.wf) = true := by decide

/-! ## The manual's worked examples -/

/-- 11.2: the CRC of the nine ASCII bytes 123456789 is 0x29B1. -/
theorem test_crc : crc [0x31, 0x32, 0x33, 0x34, 0x35, 0x36, 0x37, 0x38, 0x39] = 0x29B1 := by decide +kernel

/-- 01 1.3.1: a fine encoder, seven batches, and the same ticks in one. -/
theorem test_fineEncoder :
    let c : Channel := { tpm := 250000, count := 1000000 }
    let steps := fun l : List (Nat × Nat) => l.foldl (fun c b => c.take (.counted b.1 b.2)) c
    (let e := steps [(1, 0), (1, 0), (1, 0)]; e.rem = 50000 ∧ e.count = 1000001)
      ∧ (let e := steps [(1, 0), (1, 0), (1, 0), (0, 1)]; e.rem = 200000 ∧ e.count = 1000000)
      ∧ (let e := steps [(1, 0), (1, 0), (1, 0), (0, 1), (1, 0), (1, 0), (1, 0)]; e.rem = 0 ∧ e.count = 1000002)
      ∧ let e := steps [(5, 0)]; e.rem = 0 ∧ e.count = 1000002 := by decide

/-- 01 1.3.2: a coarse encoder, three ticks, 5 ws. -/
theorem test_coarseEncoder :
    let c : Channel := { tpm := 60000 }
    let one := fun c : Channel => c.take (.counted 1 0)
    (one c).rem = 40000 ∧ (one (one c)).rem = 20000 ∧ (one (one (one c))).rem = 0
      ∧ (one (one (one c))).count = 5 := by decide

/-- 03 3.4.1: one zone through four samples, k_p 40, k_i 6. -/
theorem test_zoneDemand :
    let z := fun i : Int => ({ integ := i } : ZoneRec)
    (let r := (z 0).control 800 40 6; r.demand = 1000 ∧ r.integ = 0)
      ∧ (let r := (z 300).control 50 40 6; r.demand = 425 ∧ r.integ = 301)
      ∧ (let r := (z 301).control (-10) 40 6; r.demand = 276 ∧ r.integ = 300)
      ∧ let r := (z 300).control (-150) 40 6; r.demand = 0 ∧ r.integ = 300 := by decide

/-- 03 3.7.1: six zones under a mains limit of two; the credits and the pointer after half-cycles 2, 5 and 7. -/
theorem test_distributor :
    let d := fun n : Int => ({ demand := n } : ZoneRec)
    let h : Heat := { zones := ⟨d 600, d 600, d 600, d 600, d 200, d 0⟩ }
    let after := fun n : Nat => (List.range n).foldl (fun h _ => Heat.distribute h 2) h
    let credits := fun n => (after n).zones.map ZoneRec.credit
    credits 2 = ⟨1200, 200, 200, 1200, 400, 0⟩ ∧ (after 2).pointer = .z2
      ∧ credits 5 = ⟨0, 2000, 2000, 1000, 0, 0⟩ ∧ (after 5).pointer = .z5
      ∧ credits 7 = ⟨200, 600, 1600, 2000, 400, 0⟩ ∧ (after 7).pointer = .z1
      ∧ (after 6).zones.map ZoneRec.shortfall = ⟨false, true, true, false, false, false⟩
      ∧ (after 7).zones.map ZoneRec.shortfall = ⟨false, false, true, true, false, false⟩
      ∧ ((after 7).zones.get .z2).shortCount = 1 := by decide +kernel

/-- 04 4.2.1: the four worked cases, and a reading below the last. -/
theorem test_zoneFactors :
    zoneFactor 2037 2000 100 .normal = ⟨5, false, false, 62092⟩
      ∧ zoneFactor 1950 2000 100 .normal = ⟨-8, false, false, 35355⟩
      ∧ zoneFactor 2450 2000 100 .normal = ⟨63, true, true, 766082⟩
      ∧ zoneFactor 1200 2000 100 .normal = ⟨-128, false, false, 195⟩
      ∧ zoneFactor 1199 2000 100 .normal = ⟨-129, false, false, 0⟩ := by decide

/-- 04 4.6.1: the cap of a panel of 30,000,000 rµs at k of 5 is 4,967 ws/s. -/
theorem test_doseCap : doseCap 50000 120000 (some 5) (some 30000000) = 4967 := by decide

/-- 06 6.7.1: one offer over five zones. -/
theorem test_learning :
    let e : Entry :=
      { target := 30000000, sigma := 128, weight := 3, learned := 41, trims := ⟨1024, 1024, 1175, 1024, 1000, 1100⟩ }
    let e' := e.learn ⟨some 28500000, some 33000000, some 9000000, some 30003000, none, some 28500000⟩
    e'.trims = ⟨1027, 1018, 1175, 1024, 1000, 1094⟩ ∧ e'.learned = 42 := by decide

/-- 08 8.8: the slip, the correction and S of the marks of P20, P21 and P23, and P22's correction from S. -/
theorem test_marks :
    markSlip 300 250000 = 1200 ∧ markCorrection 300 250000 320000 = 384
      ∧ markSlip 250 250000 = 1000 ∧ markCorrection 250 250000 320000 = 320
      ∧ (let m := (({} : Marks).good 1200 2 2000).good 1000 2 2000; m.slip = 1150 ∧ m.state = .locked
        ∧ (let n := { m with state := m.state.miss }; n.state = .holdover
            ∧ (n.good 1600 2 2000).slip = 1262 ∧ (n.good 1600 2 2000).state = .locked))
      ∧ roundDiv (320000 * 1150) 1000000 = 368 ∧ roundDiv (250000 * 1150) 1000000 = 288 := by decide

/-- 08 8.8: the mark of P20 through the whole command. -/
theorem test_markCapture :
    let p : Panel :=
      { tag := 20, kind := .normal, profile := 0, length := 30000, mark := true, state := .printed, xs := some 2000000 }
    let s := work p []
    let s : State := { s with
      cnt := { chan := { s.cnt.chan with paper := { count := 2250300 } } } }
    ∃ t, exec .markCapture s = .next t
      ∧ t.pq.queue.map (fun q => (q.markResult, q.arrival)) = [(some (.error 300), some 2320384)]
      ∧ t.mrk.state = .provisional ∧ t.mrk.slip = 1200 := ⟨_, rfl, by decide +kernel⟩

/-- 09 9.2.1: crossings in both directions. -/
theorem test_crossings :
    let slots : List TrigSlot := [.free, .held .panel ⟨.paper, some 1000400, some (9, 0), .forward, .pulse .markout, .oneShot, true⟩,
      .free, .held .host ⟨.paper, some 1000200, none, .forward, .pulse .out0, .oneShot, true⟩,
      .held .host ⟨.paper, some 1000100, none, .reverse, .notify, .keep, true⟩, .free, .free,
      .held .host ⟨.paper, some 1000200, none, .either, .notify, .keep, true⟩]
    (firings slots .paper 1000000 1000400).map Prod.fst = [3, 7, 1]
      ∧ (firings slots .paper 1000400 1000050).map Prod.fst = [7, 4] := by decide +kernel

/-! ## Commands -/

theorem test_setParam : ∃ t, exec (.setParam 7 0x0202 30000) State.reset = .next t ∧ t.par.vSet = 30000
    ∧ t.flt.current = some (.reply 0x02 7 .ok [0x02, 0x02, 0, 0, 0x75, 0x30] none) := ⟨_, rfl, by decide +kernel⟩

/-- A write of t_nip at the running nip timer raises NIP_TIMEOUT (02 2.9, note 3); a write of sil_mask starts and stops
silence timers (01 R9). -/
theorem test_setParam_timers :
    let s : State := { working with
      mot := { working.mot with nipTimer := .running 200 }
      cnt := { chan := ⟨{ silence := .running 9 }, {}, {}⟩ }, par := { silMask := ⟨true, false, false⟩ } }
    s.takes ∧ (∃ t, exec (.setParam 7 0x0210 200) s = .next t ∧ t.flt.latch.map Record.cause = some .nipTimeout)
      ∧ (∃ t, exec (.setParam 7 0x0210 201) s = .next t ∧ t.flt.latch = none)
      ∧ ∃ t, exec (.setParam 7 0x0121 2) s = .next t
        ∧ (t.cnt.chan.paper.silence, t.cnt.chan.fabric.silence) = (.stopped, .running 0) :=
  ⟨⟨rfl, by decide⟩, ⟨_, rfl, by decide +kernel⟩, ⟨_, rfl, by decide +kernel⟩, _, rfl, by decide +kernel⟩

theorem test_setParam_range : ∃ t, exec (.setParam 7 0x0202 50001) State.reset = .next t ∧ t.par.vSet = 0
    ∧ t.flt.current = some (.reply 0x02 7 .range [] none) := ⟨_, rfl, by decide +kernel⟩

theorem test_heatOn : ∃ t, exec (.heatOn 1 2000 ⟨0, 0, 0, 0, 0, 10⟩ 0x3F) State.reset = .next t
    ∧ t.mot.line = .warming ∧ t.heat.on = true ∧ t.heat.zoneSet .z5 = 2010 := ⟨_, rfl, by decide +kernel⟩

/-- The line READY with the nip open. -/
def ready : State :=
  { State.reset with
    mot := { line := .ready, nip := .opened, nipTimer := .stopped }
    heat := { on := true, setpoint := 2000, ready := true }
    pins := { nipo := true } }

theorem test_start : ∃ t, exec (.start 9) ready = .next t ∧ t.mot.line = .running ∧ t.mot.nip = .closing
    ∧ t.mot.nipTimer = .running 0 ∧ t.nipCmd = true := ⟨_, rfl, by decide +kernel⟩

theorem test_stop_holds : ∃ t, exec (.stop 9) { working with mot := { working.mot with vref := 0 } } = .next t
    ∧ t.mot.line = .stopping ∧ t.mot.hold = .running 0 ∧ t.mot.nip = .closed := ⟨_, rfl, by decide +kernel⟩

theorem test_estop : ∃ t, exec .estop working = .next t ∧ t.mot.line = .halting ∧ t.mot.vref = 0
    ∧ t.mot.nip = .opening ∧ t.fltn = false ∧ (t.flt.latch.map Record.cause) = some .estop :=
  ⟨_, rfl, by decide +kernel⟩

theorem test_placement : ∃ t, exec (.dispatchEnable 1) (mayPlace 12000) = .next t
    ∧ t.head.buf = [.start 1 1 62000 6000 ⟨1024, 1024, 1024, 1024, 870, 1178⟩ true]
    ∧ t.pq.lastEnd = 68000 ∧ t.pq.nextTxn = 2 := ⟨_, rfl, by decide +kernel⟩

theorem test_placement_tooEarly : ∃ t, exec (.dispatchEnable 1) (mayPlace 11999) = .next t ∧ t.head.buf = [] :=
  ⟨_, rfl, by decide +kernel⟩

theorem test_refuse : ∃ t, exec (.refuse 1 1 5) { starting with mot := {} } = .next t ∧ t.pq.live = []
    ∧ t.pq.queue.map (fun p => (p.state, p.attempts, p.reason)) = [(.queued, 1, some (.code 5))] :=
  ⟨_, rfl, by decide +kernel⟩

theorem test_doseSample :
    let p := { panel .printed with
      arrival := some 1000, dose := some { next := some 1000, final := true } }
    let s := work p []
    let s : State := { s with
      heat := { s.heat with zones := s.heat.zones.map fun z => { z with lastValid := 2000 } } }
    ∃ t, exec .doseSample s = .next t ∧ t.dose.dMax = some 1000000 ∧ t.dose.kMin = some 0
      ∧ t.dose.vDose = 50000 ∧ t.dose.horizon = some 220000 := ⟨_, rfl, by decide +kernel⟩

theorem test_readStatus : State.reset.statusData.length = 51 := by decide +kernel

theorem test_fabricLoad : ∃ t, exec (.fabricLoad 4 (.entry 0)) { waiting with mot := { waiting.mot with line := .ready } } = .next t
    ∧ t.trg.feed = some 0 ∧ t.trg.nip = some 0 ∧ t.trg.rewind = some 0 ∧ (t.prf.entry 0).refs = 4 :=
  ⟨_, rfl, by decide +kernel⟩

theorem test_linkConfig : ∃ t, exec (.linkConfig 2 921600) State.reset = .next t ∧ t.lnk.baud = 115200
    ∧ ∃ u, exec .frameSent t = .next u ∧ u.lnk.baud = 921600 :=
  ⟨_, rfl, by decide +kernel, _, rfl, by decide +kernel⟩

theorem test_validFrame : ∃ t, exec (.validFrame (Frame.wire ⟨0x12, 5, []⟩)) State.reset = .next t
    ∧ t.lnk.buffer = [] ∧ t.lnk.framer = .hunting
    ∧ t.flt.current = some (.reply 0x12 5 .state [] none) := ⟨_, rfl, by decide +kernel⟩

theorem test_clearLine : ∃ t, exec (.clearLine 3) { starting with mot := {}, heat := {} } = .next t
    ∧ t.pq.queue = [] ∧ t.pq.live = [] ∧ t.head.buf = [.withdraw 1 1] ∧ (t.prf.entry 0).refs = 0 :=
  ⟨_, rfl, by decide +kernel⟩

theorem test_profileLoad : ∃ t, exec (.profileLoad 1 fields none) State.reset = .next t
    ∧ (t.prf.entry 31).valid = true ∧ t.prf.pointer = 30 := ⟨_, rfl, by decide +kernel⟩

theorem test_windowSet : ∃ t, exec (.windowSet 1 7 ⟨0, -1, 0, 8, 0, 1000, true⟩) State.reset = .next t
    ∧ t.trg.effects.cap = some 1000 := ⟨_, rfl, by decide +kernel⟩

theorem test_spliceCapture :
    let s := working
    let s : State := { s with
      cnt := { s.cnt with lockout := some 0, chan := { s.cnt.chan with fabric := { count := 5001 } } } }
    ∃ t, exec .spliceCapture s = .next t ∧ t.trg.splices.map (fun r => (r.fp, r.nipStart, r.nipEnd, r.rewindPoint))
      = [(5001, 150001, 280001, 405001)] := ⟨_, rfl, by decide +kernel⟩

end Sys2Proof.Tests
end

