-- ==== Sys2Proof/Proofs/Frames.lean ====
section
/-! SUPPORT. Frames of the operations that the shared operations build, up to the two that say it of whole rows:
`hostOp_keeps` for a host command's operation and `exec_keeps` for every row that does not go through the command
buffer. -/

namespace Sys2Proof.Machine
open Sys2Proof

/-- A frame goes on through a step within it. -/
theorem keeps_then {n m : List Block} {s t u : State} (h : Keeps n s t) (k : Keeps m t u) (hm : ∀ b ∈ m, b ∈ n) :
    Keeps n s u :=
  keeps_trans h (keeps_mono k hm)

/-! ## Critical faults -/

theorem raise_keeps {c : Cause} {i : Option Nat} {s : State} : Keeps faultBlocks s (raise c i s) :=
  keeps_seq (keeps_seq upFlt_keeps faultMotion_keeps (n := faultBlocks) (by decide) (by decide)) notice_keeps
    (by decide) (by decide)

@[simp] theorem raise_cnt (c : Cause) (i : Option Nat) (s : State) : (raise c i s).cnt = s.cnt :=
  raise_keeps .cnt (by decide)
@[simp] theorem raise_heat (c : Cause) (i : Option Nat) (s : State) : (raise c i s).heat = s.heat :=
  raise_keeps .heat (by decide)
@[simp] theorem raise_ten (c : Cause) (i : Option Nat) (s : State) : (raise c i s).ten = s.ten :=
  raise_keeps .ten (by decide)
@[simp] theorem raise_trg (c : Cause) (i : Option Nat) (s : State) : (raise c i s).trg = s.trg :=
  raise_keeps .trg (by decide)
@[simp] theorem raise_par (c : Cause) (i : Option Nat) (s : State) : (raise c i s).par = s.par :=
  raise_keeps .par (by decide)
@[simp] theorem raise_pins (c : Cause) (i : Option Nat) (s : State) : (raise c i s).pins = s.pins :=
  raise_keeps .pins (by decide)
@[simp] theorem raise_dose (c : Cause) (i : Option Nat) (s : State) : (raise c i s).dose = s.dose :=
  raise_keeps .dose (by decide)
@[simp] theorem raise_prf (c : Cause) (i : Option Nat) (s : State) : (raise c i s).prf = s.prf :=
  raise_keeps .prf (by decide)

theorem estopActs_keeps {s : State} : Keeps [.mot, .ten, .pq, .head, .flt, .pins] s (estopActs s) := by
  have h : Keeps [.mot, .ten, .pq, .head, .flt, .pins] s (raise .estop none (s.upPins fun p => { p with estop := true })) :=
    keeps_seq upPins_keeps raise_keeps (by decide) (by decide)
  exact keeps_then (keeps_then (keeps_then h upMot_keeps (by decide)) nipOpen_keeps (by decide)) upTen_keeps (by decide)

theorem nipExpires_keeps {s : State} : Keeps faultBlocks s (nipExpires s) :=
  keeps_seq upMot_keeps raise_keeps (by decide) (by decide)

theorem linkExpires_keeps {s : State} : Keeps faultBlocks s (linkExpires s) :=
  keeps_ite (fun _ => keeps_seq upFlt_keeps raise_keeps (by decide) (by decide)) fun _ => keeps_refl

theorem mainsLost_keeps {s : State} : Keeps (.heat :: faultBlocks) s (mainsLost s) :=
  keeps_seq upHeat_keeps raise_keeps (by decide) (by decide)

theorem updChan_keeps {c : Chan} {f : Channel → Channel} {s : State} : Keeps [.cnt] s (updChan c f s) := upCnt_keeps

theorem silenceExpires_keeps {c : Chan} {s : State} : Keeps (.cnt :: faultBlocks) s (silenceExpires c s) :=
  keeps_ite (fun _ => keeps_seq updChan_keeps raise_keeps (by decide) (by decide)) fun _ => keeps_refl

theorem stallExpires_keeps {s : State} : Keeps (.cnt :: faultBlocks) s (stallExpires s) :=
  keeps_ite (fun _ => keeps_seq upCnt_keeps raise_keeps (by decide) (by decide)) fun _ => keeps_refl

theorem loopFault_keeps {l : Loop} {c : LoopCause} {f : Cause} {s : State} :
    Keeps (.ten :: faultBlocks) s (loopFault l c f s) :=
  keeps_seq upTen_keeps raise_keeps (by decide) (by decide)

theorem estopActs_pins (s : State) : (estopActs s).pins = { s.pins with estop := true } :=
  Eq.trans (nipOpen_keeps .pins (by decide)) (raise_keeps .pins (by decide))

/-- The part at its reset values, but for what a reset keeps: input pins, free-value counter, commands that wait and the
levels the decoders hold. -/
def State.cleared (s : State) : State :=
  { State.reset with
    pins := s.pins, free := s.free, pending := s.pending
    cnt := { State.reset.cnt with
      chan := ⟨{ levels := s.cnt.chan.paper.levels }, { levels := s.cnt.chan.fabric.levels },
        { levels := s.cnt.chan.drum.levels }⟩ } }

/-- A reset: the limits in the open pair confirm the opening, and an ESTOP found active is taken. -/
theorem resetPart_eq (s : State) :
    resetPart s = (let t := if s.pins.openPair then nipOpened s.cleared else s.cleared
      if s.pins.estop then estopActs t else t) := by
  have hp : ∀ b : Bool, (if b then nipOpened s.cleared else s.cleared).pins = s.pins := by
    intro b
    cases b
    · rfl
    · exact nipOpened_keeps (s := s.cleared) .pins (by decide)
  show (if (if s.pins.openPair then nipOpened s.cleared else s.cleared).pins.estop then _ else _) = _
  rw [hp]
  rfl

theorem resetPart_keeps {s : State} : Keeps (touches .powerOnReset) s (resetPart s) := by
  have base : Keeps (touches .powerOnReset) s s.cleared := by
    intro b hb; cases b <;> first | rfl | exact absurd hb (by decide)
  have limits : Keeps (touches .powerOnReset) s (if s.pins.openPair then nipOpened s.cleared else s.cleared) :=
    keeps_ite (fun _ => keeps_then base nipOpened_keeps (by decide)) fun _ => base
  rw [resetPart_eq]
  refine keeps_ite (fun he => ?_) fun _ => limits
  have rest := keeps_then (n := .pins :: touches .powerOnReset) (keeps_mono limits (by decide)) estopActs_keeps (by decide)
  intro b hb
  by_cases h : b = .pins
  · subst h
    refine Eq.trans (estopActs_pins _) ?_
    rw [show State.pins _ = s.pins from limits .pins (by decide), ← he]
  · exact rest b (by simpa [h] using hb)

/-! ## Count updates (01 R7) -/

theorem missStep_keeps {tag : Nat} {s : State} : Keeps [.mrk, .flt] s (missStep tag s) :=
  keeps_trans (keeps_mono upMrk_keeps (by decide))
    (keeps_ite (fun _ => keeps_mono warn_keeps (by decide)) fun _ => keeps_refl)

theorem goodMark_keeps {tag : Nat} {xs p : Int} {s : State} :
    Keeps [.pq, .mrk, .trg, .flt, .free] s (goodMark tag xs p s) := by
  have arrival : Keeps [.pq, .mrk, .trg, .flt, .free] s
      (setArrival tag (xs + s.par.lPn + markCorrection (p - (xs + s.par.lMs)) s.par.lMs s.par.lPn)
        (updPanel tag (fun q => { q with markResult := some (.error (p - (xs + s.par.lMs))) }) s)) :=
    keeps_seq updPanel_keeps setArrival_keeps (by decide) (by decide)
  exact keeps_then (keeps_then (keeps_then arrival resolveAnchors_keeps (by decide)) upMrk_keeps (by decide))
    arriveReached_keeps (by decide)

theorem judgeMark_keeps {cap : Capture} {s : State} : Keeps [.pq, .mrk, .trg, .flt, .free] s (judgeMark cap s) := by
  refine keeps_ite (fun _ => keeps_refl) fun _ => ?_
  split
  · exact goodMark_keeps
  · exact keeps_seq upMrk_keeps warn_keeps (by decide) (by decide)

theorem expirePanel_keeps {q : Panel} {s : State} : Keeps [.pq, .mrk, .flt] s (expirePanel s q) :=
  keeps_ite
    (fun _ => keeps_then (keeps_seq updPanel_keeps setArrival_keeps (by decide) (by decide)) missStep_keeps (by decide))
    fun _ => keeps_mono setArrival_keeps (by decide)

theorem markUpdate_keeps {old new : Int} {s : State} :
    Keeps [.pq, .mrk, .trg, .flt, .free] s (markUpdate old new s) := by
  refine keeps_ite (fun _ => ?_) fun _ => keeps_ite (fun _ => keeps_mono upMrk_keeps (by decide)) fun _ => keeps_refl
  exact keeps_then (keeps_seq upMrk_keeps (keeps_foldl (fun _ _ => expirePanel_keeps) _ _) (by decide) (by decide))
    resolveAnchors_keeps (by decide)

theorem seekUpdate_keeps {old new : Int} {s : State} : Keeps [.mot] s (seekUpdate old new s) := upMot_keeps

theorem doneDeadline_keeps {t : Txn} {d : Option Dir} {s : State} :
    Keeps [.pq, .head, .trg, .flt, .free] s (doneDeadline t d s) := by
  have gone : Keeps [.pq, .head, .trg, .flt, .free] s
      (withdraw t.num t.tag (s.upPq fun q => { q with live := dropTxn t.num t.tag q.live })) :=
    keeps_seq upPq_keeps withdraw_keeps (by decide) (by decide)
  exact keeps_then (keeps_then (keeps_then gone updPanel_keeps (by decide)) warn_keeps (by decide)) afterPrint_keeps
    (by decide)

theorem deadlineAt_keeps {new : Int} {t : Txn} {s : State} :
    Keeps [.prf, .pq, .head, .trg, .flt, .free] s (deadlineAt new s t) := by
  unfold deadlineAt
  split
  · split
    · exact keeps_ite (fun _ => startingDeadline_keeps) fun _ => keeps_refl
    · exact keeps_ite (fun _ => keeps_mono doneDeadline_keeps (by decide)) fun _ => keeps_refl
  · exact keeps_refl

theorem deadlineUpdate_keeps {new : Int} {s : State} :
    Keeps [.prf, .pq, .head, .trg, .flt, .free] s (deadlineUpdate new s) :=
  keeps_foldl (fun _ _ => deadlineAt_keeps) _ s

theorem handlePoint_keeps {pos : Int} {s : State} : Keeps [.pq, .dose] s (handlePoint pos s) :=
  keeps_ite (fun _ => keeps_mono upPq_keeps (by decide)) fun _ =>
    keeps_seq upPq_keeps upDose_keeps (by decide) (by decide)

theorem createProbes_keeps {fuel : Nat} {old new : Int} {s : State} :
    Keeps [.pq, .dose] s (createProbes fuel old new s) := by
  induction fuel generalizing s with
  | zero => exact keeps_refl
  | succ n ih =>
    unfold createProbes
    split
    · exact keeps_trans handlePoint_keeps ih
    · exact keeps_refl

theorem foldProbe_keeps {b : Probe} {s : State} : Keeps [.pq] s (foldProbe s b) :=
  keeps_foldl (fun _ _ => updPanel_keeps) _ s

theorem exitProbes_keeps {new : Int} {s : State} : Keeps [.pq, .dose] s (exitProbes new s) :=
  keeps_seq upDose_keeps (keeps_foldl (fun _ _ => foldProbe_keeps) _ _) (by decide) (by decide)

theorem judgePanel_keeps {p : Panel} {s : State} : Keeps [.prf, .pq, .trg, .flt, .free] s (judgePanel p s) := by
  unfold judgePanel
  split
  · exact keeps_refl
  · exact keeps_then (keeps_ite (fun _ => keeps_seq updPanel_keeps upPrf_keeps (by decide) (by decide)) fun _ =>
      keeps_mono updPanel_keeps (by decide)) becomeDone_keeps (by decide)

theorem panelDone_keeps {tag : Nat} {s : State} :
    Keeps [.prf, .pq, .head, .trg, .flt, .free] s (panelDone tag s) := by
  have judge : ∀ {t : State}, Keeps [.prf, .pq, .head, .trg, .flt, .free] t
      (match t.queued? tag with | some p => judgePanel p t | none => t) := by
    intro t
    split
    · exact keeps_mono judgePanel_keeps (by decide)
    · exact keeps_refl
  refine keeps_trans ?_ judge
  split
  · refine keeps_ite (fun _ => ?_) fun _ => keeps_refl
    split
    · exact keeps_mono doneDeadline_keeps (by decide)
    · exact keeps_refl
  · exact keeps_refl

theorem doseUpdate_keeps {old new : Int} {s : State} :
    Keeps [.dose, .prf, .pq, .head, .trg, .flt, .free] s (doseUpdate old new s) :=
  keeps_then (keeps_seq createProbes_keeps exitProbes_keeps (by decide) (by decide))
    (keeps_foldl (fun _ _ => panelDone_keeps) _ _) (by decide)

theorem ppUpdate_keeps {old new : Int} {s : State} :
    Keeps [.mot, .dose, .prf, .pq, .head, .mrk, .trg, .flt, .free] s (ppUpdate old new s) := by
  have web : Keeps [.mot, .dose, .prf, .pq, .head, .mrk, .trg, .flt, .free] s
      (seekUpdate old new (markUpdate old new (judgeWindows .paper old new (fireCrossed .paper old new s)))) :=
    keeps_then (keeps_then (keeps_seq fireCrossed_keeps judgeWindows_keeps (by decide) (by decide)) markUpdate_keeps
      (by decide)) seekUpdate_keeps (by decide)
  refine keeps_then (keeps_trans web ?_) decide_keeps (by decide)
  refine keeps_ite (fun _ => ?_) fun _ => keeps_refl
  exact keeps_then (keeps_seq deadlineUpdate_keeps arriveReached_keeps (by decide) (by decide)) doseUpdate_keeps
    (by decide)

theorem markArc_keeps {s : State} : Keeps [.pq] s (markArc s) := upPq_keeps

theorem actPoint_keeps {x : Nat × SplicePoint} {s : State} : Keeps [.prf, .pq, .trg] s (actPoint s x) := by
  unfold actPoint
  split
  · exact keeps_refl
  · dsimp only
    split
    · exact keeps_then (keeps_ite (fun _ => keeps_seq upTrg_keeps setPointer_keeps (by decide) (by decide)) fun _ =>
        keeps_mono upTrg_keeps (by decide)) markArc_keeps (by decide)
    · exact keeps_mono upTrg_keeps (by decide)
    · exact keeps_ite (fun _ => keeps_seq upTrg_keeps setPointer_keeps (by decide) (by decide)) fun _ =>
        keeps_mono upTrg_keeps (by decide)

theorem freeSplices_keeps {s : State} : Keeps [.prf, .trg] s (freeSplices s) :=
  keeps_seq upTrg_keeps (keeps_foldl (fun _ _ => dropRef?_keeps) _ _) (by decide) (by decide)

theorem spliceUpdate_keeps {old new : Int} {s : State} : Keeps [.prf, .pq, .trg] s (spliceUpdate old new s) :=
  keeps_ite (fun _ => keeps_then (keeps_foldl (fun _ _ => actPoint_keeps) _ _) freeSplices_keeps (by decide))
    fun _ => keeps_refl

theorem fpUpdate_keeps {old new : Int} {s : State} : Keeps [.prf, .pq, .trg, .flt] s (fpUpdate old new s) :=
  keeps_then (keeps_seq fireCrossed_keeps judgeWindows_keeps (by decide) (by decide)) spliceUpdate_keeps (by decide)

theorem rangeFault_keeps {ch : Chan} {old new : Channel} {s : State} :
    Keeps faultBlocks s (rangeFault ch old new s) :=
  keeps_ite (fun _ => raise_keeps) fun _ => keeps_refl

theorem rangeFault_drum {old new : Channel} {s : State} : rangeFault .drum old new s = s := by
  simp [rangeFault]

theorem tickBatch_keeps {ch : Chan} {x : Ticks} {s : State} :
    Keeps (touches (.tickBatch ch x)) s (tickBatch ch x s) := by
  unfold tickBatch
  cases ch with
  | paper =>
    have h : Keeps (touches (.tickBatch .paper x)) s
        (rangeFault .paper (s.cnt.chan.get .paper) ((s.cnt.chan.get .paper).take x)
          (s.upCnt fun k => { k with chan := k.chan.set .paper ((s.cnt.chan.get .paper).take x) })) :=
      keeps_seq upCnt_keeps rangeFault_keeps (by simp [touches]) (by simp [touches, faultBlocks])
    exact keeps_trans h (keeps_ite (fun _ => keeps_refl) fun _ => keeps_mono ppUpdate_keeps (by simp [touches]))
  | fabric =>
    have h : Keeps (touches (.tickBatch .fabric x)) s
        (rangeFault .fabric (s.cnt.chan.get .fabric) ((s.cnt.chan.get .fabric).take x)
          (s.upCnt fun k => { k with chan := k.chan.set .fabric ((s.cnt.chan.get .fabric).take x) })) :=
      keeps_seq upCnt_keeps rangeFault_keeps (by simp [touches]) (by simp [touches, faultBlocks])
    exact keeps_trans h (keeps_ite (fun _ => keeps_refl) fun _ => keeps_mono fpUpdate_keeps (by simp [touches]))
  | drum =>
    simp only [rangeFault_drum, handOn, ite_self]
    exact upCnt_keeps

/-! ## Captures (01 R11, R12) -/

theorem captureEnds_keeps {cond : SeekCond} {p : Int} {s : State} : Keeps [.mot] s (captureEnds cond p s) :=
  keeps_ite (fun _ => upMot_keeps) fun _ => keeps_refl

theorem markCapture_keeps {s : State} : Keeps (touches .markCapture) s (markCapture s) :=
  keeps_then (keeps_seq upCnt_keeps judgeMark_keeps (by decide) (by decide)) captureEnds_keeps (by decide)

theorem detectSplice_keeps {fp : Int} {s : State} : Keeps [.mot, .prf, .pq, .head, .trg, .flt] s (detectSplice fp s) := by
  refine keeps_ite (fun _ => ?_) fun _ => keeps_mono raise_keeps (by decide)
  exact keeps_then (keeps_ite (fun _ => keeps_seq upTrg_keeps setPointer_keeps (by decide) (by decide)) fun _ =>
    keeps_mono upTrg_keeps (by decide)) notice_keeps (by decide)

theorem spliceCapture_keeps {s : State} : Keeps (touches .spliceCapture) s (spliceCapture s) :=
  keeps_ite
    (fun _ => keeps_then (keeps_seq upCnt_keeps detectSplice_keeps (by decide) (by decide)) captureEnds_keeps (by decide))
    fun _ => keeps_refl

/-! ## The 10 ms sample (01 R8 to R10, 02 2.4, 05) -/

theorem countSample_keeps {s : State} : Keeps (.cnt :: faultBlocks) s (countSample s) :=
  keeps_trans (keeps_mono upCnt_keeps (by decide))
    (keeps_ite (fun _ => keeps_mono raise_keeps (by decide)) fun _ => keeps_refl)

theorem loopSample_keeps {raw : Loops Int} {l : Loop} {s : State} :
    Keeps (.ten :: faultBlocks) s (loopSample raw s l) :=
  keeps_trans (keeps_mono upTen_keeps (by decide))
    (keeps_ite (fun _ => loopFault_keeps) fun _ => keeps_ite (fun _ => loopFault_keeps) fun _ => keeps_refl)

theorem tensionSample_keeps {lc0 lc1 lc2 : Int} {s : State} :
    Keeps (.ten :: faultBlocks) s (tensionSample lc0 lc1 lc2 s) :=
  keeps_foldl (fun _ _ => loopSample_keeps) _ s

theorem governor_keeps {s : State} : Keeps [.mot] s (governor s) := upMot_keeps

theorem seekNotice_keeps {s : State} : Keeps [.mot, .flt] s (seekNotice s) :=
  keeps_ite (fun _ => keeps_seq upMot_keeps notice_keeps (by decide) (by decide)) fun _ => keeps_refl

theorem beginHold_keeps {v : Int} {s : State} : Keeps [.mot, .flt] s (beginHold v s) :=
  keeps_ite (fun _ => startHold_keeps) fun _ => keeps_refl

theorem haltComplete_keeps {s : State} : Keeps [.mot, .flt] s (haltComplete s) :=
  keeps_ite (fun _ => setLine_keeps) fun _ => keeps_refl

theorem motionSample_keeps {s : State} : Keeps [.mot, .flt] s (motionSample s) :=
  keeps_trans (keeps_seq governor_keeps (keeps_trans beginHold_keeps haltComplete_keeps) (by decide) (by decide))
    seekNotice_keeps

theorem speedSample_keeps {lc0 lc1 lc2 : Int} {ca ta : Bool} {s : State} :
    Keeps (touches (.speedAndTensionSample lc0 lc1 lc2 ca ta)) s (speedSample lc0 lc1 lc2 ca ta s) := by
  have count : ∀ {t : State}, Keeps [.cnt, .mot, .ten, .pq, .head, .flt] t (countSample t) :=
    keeps_mono countSample_keeps (by decide)
  have tension : ∀ {t : State}, Keeps [.cnt, .mot, .ten, .pq, .head, .flt] t (tensionSample lc0 lc1 lc2 t) :=
    keeps_mono tensionSample_keeps (by decide)
  have motion : ∀ {t : State}, Keeps [.cnt, .mot, .ten, .pq, .head, .flt] t (motionSample t) :=
    keeps_mono motionSample_keeps (by decide)
  have before : Keeps [.cnt, .mot, .ten, .pq, .head, .flt] s
      (if ta then (if ca then s else countSample s) else tensionSample lc0 lc1 lc2 (if ca then s else countSample s)) := by
    have c := keeps_ite (c := ca = true) (fun _ => keeps_refl) fun _ => count (t := s)
    exact keeps_ite (fun _ => c) fun _ => keeps_trans c tension
  have both := keeps_trans before motion
  have after := keeps_ite (c := ca = true) (fun _ => keeps_trans both count) fun _ => both
  exact keeps_ite (fun _ => keeps_trans after tension) fun _ => after

/-! ## Heat (03) and the dose sample (04) -/

theorem updZone_keeps {z : Zone} {f : ZoneRec → ZoneRec} {s : State} : Keeps [.heat] s (updZone z f s) := upHeat_keeps

theorem raiseZoneSensor_keeps {z : Zone} {line : LineState} {s : State} :
    Keeps (.heat :: faultBlocks) s (raiseZoneSensor z line s) :=
  keeps_ite (fun _ => keeps_seq updZone_keeps raise_keeps (by decide) (by decide)) fun _ =>
    keeps_mono warn_keeps (by decide)

theorem goLost_keeps {z : Zone} {line : LineState} {s : State} : Keeps (.heat :: faultBlocks) s (goLost z line s) :=
  keeps_seq updZone_keeps raiseZoneSensor_keeps (by decide) (by decide)

theorem sensorStage_keeps {line : LineState} {z : Zone} {s : State} :
    Keeps (.heat :: faultBlocks) s (sensorStage line s z) := by
  have one : ∀ {t : State} {f : ZoneRec → ZoneRec}, Keeps (.heat :: faultBlocks) t (updZone z f t) :=
    keeps_mono updZone_keeps (by decide)
  refine keeps_ite (fun _ => keeps_refl) fun _ => keeps_ite (fun _ => one) fun _ => ?_
  dsimp only
  split
  · exact keeps_ite (fun _ => keeps_trans one one) fun _ => one
  · exact keeps_ite (fun _ => keeps_trans one goLost_keeps) fun _ => one
  · exact keeps_ite (fun _ => keeps_trans one raiseZoneSensor_keeps) fun _ => one

theorem overheatStage_keeps {z : Zone} {s : State} : Keeps (.heat :: faultBlocks) s (overheatStage s z) :=
  keeps_ite
    (fun _ => keeps_ite (fun _ => keeps_mono updZone_keeps (by decide)) fun _ =>
      keeps_seq updZone_keeps raise_keeps (by decide) (by decide))
    fun _ => keeps_mono updZone_keeps (by decide)

theorem coldStage_keeps {line : LineState} {z : Zone} {s : State} :
    Keeps (.heat :: faultBlocks) s (coldStage line s z) := by
  have one : ∀ {f : ZoneRec → ZoneRec}, Keeps (.heat :: faultBlocks) s (updZone z f s) :=
    keeps_mono updZone_keeps (by decide)
  refine keeps_ite (fun _ => one) fun _ => keeps_ite (fun _ => ?_) fun _ => keeps_refl
  refine keeps_ite (fun _ => ?_) fun _ => one
  exact keeps_ite (fun _ => one) fun _ => keeps_seq updZone_keeps raise_keeps (by decide) (by decide)

theorem findings_keeps {far : Bool} {s : State} : Keeps [.mot, .flt] s (findings far s) := by
  unfold findings
  split
  · exact keeps_ite (fun _ => setLine_keeps) fun _ => keeps_refl
  · exact keeps_ite (fun _ => setLine_keeps) fun _ => keeps_refl
  · exact keeps_refl

theorem temperatureSample_keeps {r : Six (Option Int)} {s : State} :
    Keeps (.heat :: faultBlocks) s (temperatureSample r s) := by
  have heat : ∀ {t : State} {f : Heat → Heat}, Keeps (.heat :: faultBlocks) t (t.upHeat f) :=
    keeps_mono upHeat_keeps (by decide)
  have stages := keeps_trans (heat (t := s) (f := fun h =>
      { h with zones := Six.ofZone fun z => (h.zones.get z).read (r.get z) }))
    (keeps_trans (keeps_foldl (fun _ z => sensorStage_keeps (line := s.mot.line) (z := z)) Zone.all _)
      (keeps_trans (keeps_foldl (fun _ z => overheatStage_keeps (z := z)) Zone.all _)
        (keeps_foldl (fun _ z => coldStage_keeps (line := s.mot.line) (z := z)) Zone.all _)))
  exact keeps_trans (keeps_trans (keeps_trans stages heat) heat)
    (keeps_ite (fun _ => keeps_mono findings_keeps (by decide)) fun _ => keeps_refl)

theorem distribute_keeps {s : State} : Keeps [.heat, .flt] s (distribute s) :=
  keeps_seq upHeat_keeps (keeps_foldl (fun _ _ => warn_keeps) _ _) (by decide) (by decide)

theorem zeroCross_keeps {gap : Nat} {s : State} : Keeps [.heat, .flt, .pins] s (zeroCross gap s) := by
  have edge : ∀ {t : State}, Keeps [.heat, .flt, .pins] t (takeEdge gap t) :=
    keeps_then (keeps_ite (fun _ => keeps_seq upHeat_keeps warn_keeps (by decide) (by decide)) fun _ =>
      keeps_mono upHeat_keeps (by decide)) distribute_keeps (by decide)
  have pins : ∀ {f : Pins → Pins}, Keeps [.heat, .flt, .pins] s (s.upPins f) := keeps_mono upPins_keeps (by decide)
  refine keeps_ite (fun _ => pins) fun _ => keeps_ite (fun _ => keeps_then pins upHeat_keeps (by decide)) fun _ => ?_
  refine keeps_ite (fun _ => keeps_then pins upHeat_keeps (by decide)) fun _ => ?_
  exact keeps_ite (fun _ => pins) fun _ => keeps_trans pins edge

theorem judgeFloor_keeps {s : State} : Keeps [.dose, .pq, .flt] s (judgeFloor s) := by
  refine keeps_ite (fun _ => ?_) fun _ => keeps_mono upDose_keeps (by decide)
  exact keeps_ite
    (fun _ => keeps_then (keeps_seq upDose_keeps upPq_keeps (by decide) (by decide)) warn_keeps (by decide))
    fun _ => keeps_seq upDose_keeps upPq_keeps (by decide) (by decide)

theorem doseSample_keeps {s : State} : Keeps [.dose, .pq, .flt] s (doseSample s) :=
  keeps_then (keeps_then (keeps_seq upDose_keeps upPq_keeps (by decide) (by decide)) upDose_keeps (by decide))
    judgeFloor_keeps (by decide)

/-! ## The head link (07 7.5 to 7.7) -/

theorem headHunts_keeps {s : State} : Keeps [.head] s (headHunts s) := upHead_keeps

theorem protocolError_keeps {kind : Byte} {txn panel : Nat} {s : State} :
    Keeps [.flt] s (protocolError kind txn panel s) := warn_keeps

theorem takeAccept_keeps {txn panel : Nat} {s : State} : Keeps [.pq, .head, .flt] s (takeAccept txn panel s) := by
  refine keeps_trans (keeps_mono headHunts_keeps (by decide)) ?_
  unfold takeAccept
  dsimp only
  split
  · exact keeps_then (keeps_seq upPq_keeps updPanel_keeps (by decide) (by decide)) decide_keeps (by decide)
  · exact keeps_seq withdraw_keeps protocolError_keeps (by decide) (by decide)

theorem takeRefuse_keeps {txn panel reason : Nat} {s : State} :
    Keeps [.prf, .pq, .head, .trg, .flt, .free] s (takeRefuse txn panel reason s) := by
  refine keeps_trans (keeps_mono headHunts_keeps (by decide)) ?_
  unfold takeRefuse
  dsimp only
  split
  · exact keeps_seq refusal_keeps decide_keeps (by decide) (by decide)
  · exact keeps_mono protocolError_keeps (by decide)

theorem endPrint_keeps {txn panel : Nat} {f : Panel → Panel} {s : State} : Keeps [.pq] s (endPrint txn panel f s) :=
  keeps_trans upPq_keeps updPanel_keeps

/-- Where no direction of an update is given, a panel printed to its end brings no reject trigger and so only its record
changes. -/
theorem afterPrint_keeps_of_printed {tag : Nat} {d : Option Dir} {s : State}
    (h : ∀ p, s.queued? tag = some p → p.state ≠ .spoiled) : Keeps [.pq] s (afterPrint tag d s) := by
  unfold afterPrint
  split
  · next p hp =>
    refine keeps_ite (fun _ => ?_) fun _ => keeps_refl
    rw [if_neg (h p hp)]
    exact updPanel_keeps
  · exact keeps_refl

/-- The record of a tag after every record of that tag has been changed, keeping its tag. -/
theorem queued?_updPanel {tag : Nat} {f : Panel → Panel} {s : State} (hf : ∀ p, (f p).tag = p.tag) :
    (updPanel tag f s).queued? tag = (s.queued? tag).map f := by
  have h : ∀ l : List Panel, (l.map fun p => if p.tag = tag then f p else p).find? (fun p => p.tag = tag)
      = (l.find? fun p => p.tag = tag).map f := by
    intro l
    induction l with
    | nil => rfl
    | cons p l ih => by_cases hp : p.tag = tag <;> simp [hp, hf, ih]
  exact h s.pq.queue

theorem takeDone_keeps {txn panel : Nat} {printed : Int} {s : State} :
    Keeps [.pq, .head, .flt] s (takeDone txn panel printed s) := by
  refine keeps_trans (keeps_mono headHunts_keeps (by decide)) ?_
  unfold takeDone
  dsimp only
  split
  · refine keeps_then (keeps_trans (keeps_trans (t := ite _ _ _) (keeps_ite
      (fun _ => keeps_mono protocolError_keeps (by decide)) fun _ => keeps_refl)
      (keeps_mono endPrint_keeps (by decide))) (keeps_mono (afterPrint_keeps_of_printed ?_) (by decide)))
      decide_keeps (by decide)
    intro q hq
    rw [endPrint, queued?_updPanel] at hq
    · obtain ⟨r, -, rfl⟩ := Option.map_eq_some_iff.mp hq
      exact nofun
    · exact fun _ => rfl
  · exact keeps_mono protocolError_keeps (by decide)

theorem takeFault_keeps {txn panel : Nat} {printed : Int} {reason : Nat} {s : State} :
    Keeps [.pq, .head, .trg, .flt, .free] s (takeFault txn panel printed reason s) := by
  refine keeps_trans (keeps_mono headHunts_keeps (by decide)) ?_
  unfold takeFault
  dsimp only
  split
  · exact keeps_then (keeps_then (keeps_then (keeps_seq endPrint_keeps warn_keeps (by decide) (by decide)) upPq_keeps
      (by decide)) afterPrint_keeps (by decide)) decide_keeps (by decide)
  · exact keeps_mono protocolError_keeps (by decide)

theorem takeOtherFrame_keeps {kind tag : Byte} {body : List Byte} {s : State} :
    Keeps [.head, .flt, .free] s (takeOtherFrame kind tag body s) :=
  keeps_then (keeps_seq headHunts_keeps bodyPanelTag_keeps (by decide) (by decide)) warn_keeps (by decide)

theorem headFrameSent_keeps {s : State} : Keeps [.pq, .head] s (headFrameSent s) :=
  keeps_ite (fun _ => keeps_refl) fun _ => keeps_seq upHead_keeps decide_keeps (by decide) (by decide)

theorem timeDeadline_keeps {n : Nat} {s : State} :
    Keeps [.prf, .pq, .head, .trg, .flt, .free] s (timeDeadline n s) := by
  unfold timeDeadline
  split
  · exact keeps_seq startingDeadline_keeps decide_keeps (by decide) (by decide)
  · exact keeps_refl

theorem abandon_keeps {link : Link} {s : State} :
    Keeps (touches (.frameGapTimeout link)) s (abandon link s) := by
  cases link
  · exact upLnk_keeps
  · exact upHead_keeps

/-! ## The operations of the host commands -/

theorem writeMask_keeps {m : Channels Bool} {s : State} : Keeps [.cnt, .par] s (writeMask m s) :=
  keeps_seq (keeps_trans (keeps_trans updChan_keeps updChan_keeps) updChan_keeps) upPar_keeps (by decide) (by decide)

theorem writeNipTime_keeps {v : Int} {s : State} : Keeps (.par :: faultBlocks) s (writeNipTime v s) := by
  unfold writeNipTime
  dsimp only
  split
  · exact keeps_ite (fun _ => keeps_seq upPar_keeps nipExpires_keeps (by decide) (by decide)) fun _ =>
      keeps_mono upPar_keeps (by decide)
  · exact keeps_mono upPar_keeps (by decide)
  · exact keeps_mono upPar_keeps (by decide)

theorem writeLinkTime_keeps {v : Int} {s : State} : Keeps [.par, .flt] s (writeLinkTime v s) :=
  keeps_ite (fun _ => keeps_seq upPar_keeps upFlt_keeps (by decide) (by decide)) fun _ =>
    keeps_ite (fun _ => keeps_seq upPar_keeps upFlt_keeps (by decide) (by decide)) fun _ =>
      keeps_mono upPar_keeps (by decide)

theorem writeHeadBaud_keeps {v : Int} {s : State} : Keeps [.par, .head] s (writeHeadBaud v s) :=
  keeps_seq upPar_keeps upHead_keeps (by decide) (by decide)

/-- The blocks a write of each parameter may touch. -/
def Param.blocks : Param → List Block
  | .mEnc _ | .tpm _ => [.cnt]
  | .silMask => [.cnt, .par]
  | .tNip => .par :: faultBlocks
  | .tLink => [.par, .flt]
  | .bHead => [.par, .head]
  | .gap | .lead => [.par, .pq, .head]
  | _ => [.par]

theorem Param.blocks_subset (p : Param) : ∀ b ∈ p.blocks, b ∈ [Block.cnt, .mot, .pq, .head, .flt, .par] := by
  cases p <;> simp [Param.blocks, faultBlocks]

theorem writeParam_keeps {p : Param} {v : Int} {s : State} : Keeps p.blocks s (writeParam p v s) := by
  cases p with
  | mEnc c => exact updChan_keeps
  | tpm c => exact updChan_keeps
  | silMask => exact writeMask_keeps
  | tNip => exact writeNipTime_keeps
  | tLink => exact writeLinkTime_keeps
  | bHead => exact writeHeadBaud_keeps
  | gap => exact keeps_seq upPar_keeps decide_keeps (by decide) (by decide)
  | lead => exact keeps_seq upPar_keeps decide_keeps (by decide) (by decide)
  | _ => exact upPar_keeps

theorem setParam_keeps {id : Nat} {v : Int} {s : State} :
    Keeps [.cnt, .mot, .pq, .head, .flt, .par] s (setParam id v s).1 := by
  unfold setParam
  split
  · exact keeps_mono writeParam_keeps (Param.blocks_subset _)
  · exact keeps_refl
  · exact keeps_refl

theorem rebase_keeps {c : Chan} {v : Int} {s : State} : Keeps [.cnt, .pq, .mrk] s (rebase c v s) := by
  cases c
  · exact keeps_then (keeps_seq updChan_keeps upMrk_keeps (by decide) (by decide)) upPq_keeps (by decide)
  · exact keeps_mono (keeps_trans updChan_keeps upCnt_keeps) (by decide)
  · exact keeps_mono updChan_keeps (by decide)

theorem setPositionOp_keeps {n : Nat} {v : Int} {s : State} : Keeps [.cnt, .pq, .mrk] s (setPositionOp n v s).1 := by
  unfold setPositionOp
  split
  · exact rebase_keeps
  · exact keeps_refl
  · exact keeps_refl

theorem setDrumOp_keeps {setpoint : Int} {offsets : Six Int} {mask : Nat} {s : State} :
    Keeps [.heat] s (setDrumOp setpoint offsets mask s).1 := by
  unfold setDrumOp
  split
  · exact upHeat_keeps
  · exact keeps_refl

theorem heatOnOp_keeps {setpoint : Int} {offsets : Six Int} {mask : Nat} {s : State} :
    Keeps [.mot, .heat, .flt] s (heatOnOp setpoint offsets mask s).1 := by
  unfold heatOnOp
  split
  · exact keeps_refl
  · split
    · exact keeps_refl
    · split
      · exact keeps_seq upHeat_keeps setLine_keeps (by decide) (by decide)
      · exact keeps_refl
      · exact keeps_refl
      all_goals exact keeps_mono setDrumOp_keeps (by decide)

theorem heatOffLine_keeps {s : State} : Keeps [.mot, .heat, .ten, .flt] s (heatOffLine s) :=
  keeps_then (keeps_seq upHeat_keeps upTen_keeps (by decide) (by decide)) setLine_keeps (by decide)

theorem heatOffOp_keeps {s : State} : Keeps [.mot, .heat, .ten, .flt] s (heatOffOp s).1 := by
  unfold heatOffOp
  split
  · exact keeps_refl
  iterate 3 exact heatOffLine_keeps
  · split
    · exact keeps_refl
    · exact heatOffLine_keeps
  all_goals exact keeps_refl

theorem startLine_keeps {s : State} : Keeps [.mot, .pq, .head, .flt] s (startLine s) :=
  keeps_then (keeps_then (keeps_seq setLine_keeps upMot_keeps (by decide) (by decide)) nipClose_keeps (by decide))
    decide_keeps (by decide)

theorem startOp_keeps {s : State} : Keeps [.mot, .pq, .head, .flt] s (startOp s).1 := by
  unfold startOp
  split
  · exact startLine_keeps
  · exact startLine_keeps
  all_goals exact keeps_refl

theorem stopLine_keeps {s : State} : Keeps [.mot, .flt] s (stopLine s) := by
  have stopped : Keeps [.mot, .flt] s ((setLine .stopping .stop s).upMot fun m => { m with target := 0 }) :=
    keeps_then setLine_keeps upMot_keeps (by decide)
  exact keeps_ite (fun _ => keeps_trans stopped nipOpen_keeps) fun _ =>
    keeps_ite (fun _ => keeps_trans stopped startHold_keeps) fun _ => stopped

theorem stopOp_keeps {s : State} : Keeps [.mot, .flt] s (stopOp s).1 := by
  unfold stopOp
  split
  · exact stopLine_keeps
  all_goals exact keeps_refl

theorem threadEnterOp_keeps {s : State} : Keeps [.mot, .flt] s (threadEnterOp s).1 := by
  unfold threadEnterOp
  split
  · exact setLine_keeps
  all_goals exact keeps_refl

theorem threadExitOp_keeps {s : State} : Keeps [.mot, .flt] s (threadExitOp s).1 := by
  unfold threadExitOp
  split
  · exact keeps_seq upMot_keeps setLine_keeps (by decide) (by decide)
  · exact keeps_refl

theorem jogOp_keeps {direction : Nat} {distance : Int} {s : State} : Keeps [.mot] s (jogOp direction distance s).1 := by
  unfold jogOp
  split
  · exact keeps_refl
  · split
    · exact keeps_refl
    · split
      · exact keeps_refl
      · split
        · exact keeps_refl
        · exact upMot_keeps

theorem seekOp_keeps {distance : Int} {condition : Nat} {s : State} :
    Keeps [.mot] s (seekOp distance condition s).1 := by
  unfold seekOp
  split
  · exact keeps_refl
  · split
    · exact keeps_refl
    · split
      · exact keeps_refl
      · exact upMot_keeps

theorem seekStopOp_keeps {s : State} : Keeps [.mot] s (seekStopOp s).1 := by
  unfold seekStopOp
  split
  · exact upMot_keeps
  · exact keeps_refl

theorem seekResumeOp_keeps {s : State} : Keeps [.mot] s (seekResumeOp s).1 := by
  unfold seekResumeOp
  dsimp only
  split
  · exact keeps_refl
  · split
    · exact keeps_refl
    · exact keeps_ite (fun _ => upMot_keeps) fun _ => upMot_keeps

theorem profileLoadOp_keeps {f : ProfileFields} {e : Option Nat} {s : State} :
    Keeps [.prf] s (profileLoadOp f e s).1 := by
  unfold profileLoadOp
  split
  · exact keeps_refl
  · exact upPrf_keeps

theorem profileDropOp_keeps {n : Nat} {s : State} : Keeps [.prf] s (profileDropOp n s).1 := by
  unfold profileDropOp
  dsimp only
  split
  · exact keeps_refl
  · split
    · exact keeps_refl
    · split
      · exact keeps_refl
      · exact upPrf_keeps

theorem profilePinOp_keeps {n : Nat} {s : State} : Keeps [.prf] s (profilePinOp n s).1 := by
  unfold profilePinOp
  split
  · exact keeps_refl
  · exact upPrf_keeps

theorem profileTrimOp_keeps {n : Nat} {trims : Six Nat} {s : State} : Keeps [.prf] s (profileTrimOp n trims s).1 := by
  unfold profileTrimOp
  split
  · exact keeps_refl
  · split
    · exact keeps_refl
    · exact upPrf_keeps

/-- The operations that answer and change nothing, whatever they answer. -/
theorem reading_fst (c : Instr) (h : touches c = [.flt, .lnk]) (s : State) : (hostOp c s).1 = s := by
  cases c with
  | linkConfig tag baud => simp only [hostOp, linkConfigOp]; split <;> rfl
  | getParam tag id => simp only [hostOp, getParam]; split <;> rfl
  | readProbe tag i => simp only [hostOp, readProbeOp]; split <;> [rfl; (split <;> rfl)]
  | profileFind tag media ink => simp only [hostOp, profileFindOp]; split <;> [rfl; (split <;> rfl)]
  | profileRead tag entry first => simp only [hostOp, profileReadOp]; split <;> [(split <;> rfl); rfl]
  | readPanel tag panel => simp only [hostOp, readPanelOp]; split <;> rfl
  | triggerRead tag i => simp only [hostOp, triggerReadOp]; split <;> rfl
  | readCounts | readMotion | readHeat | readDose | readTension | readQueue | readMarks | readWindows | readFabric
  | readFault | unknownCommand | tickBatch | frameGapTimeout | lenOutOfRange => rfl
  | _ => simp [touches, faultBlocks, hostTouches] at h

theorem panelSubmitOp_keeps {panel : Nat} {name : ProfileName} {length : Int} {mark : Nat} {s : State} :
    Keeps [.prf, .pq, .head] s (panelSubmitOp panel name length mark s).1 := by
  unfold panelSubmitOp
  split
  · exact keeps_refl
  · split
    · exact keeps_refl
    · exact keeps_then (keeps_seq upPq_keeps takeRef_keeps (by decide) (by decide)) decide_keeps (by decide)

theorem panelInsertOp_keeps {slot panel : Nat} {name : ProfileName} {length : Int} {mark : Nat} {s : State} :
    Keeps [.prf, .pq, .head] s (panelInsertOp slot panel name length mark s).1 := by
  unfold panelInsertOp
  split
  · exact keeps_refl
  · split
    · exact keeps_refl
    · split
      · exact keeps_refl
      · exact keeps_then (keeps_seq upPq_keeps takeRef_keeps (by decide) (by decide)) decide_keeps (by decide)

theorem cancelStarting_keeps {p : Panel} {s : State} : Keeps [.pq, .head, .flt] s (cancelStarting p s) := by
  unfold cancelStarting
  split
  · exact keeps_then (keeps_seq withdraw_keeps upPq_keeps (by decide) (by decide)) upPq_keeps (by decide)
  · exact keeps_mono upPq_keeps (by decide)

theorem panelCancelOp_keeps {panel : Nat} {s : State} :
    Keeps [.prf, .pq, .head, .trg, .flt, .free] s (panelCancelOp panel s).1 := by
  unfold panelCancelOp
  split
  · exact keeps_refl
  · split
    · exact keeps_then (keeps_seq upPq_keeps becomeDone_keeps (by decide) (by decide)) decide_keeps (by decide)
    · split
      · split
        · exact keeps_then (keeps_seq upPq_keeps becomeDone_keeps (by decide) (by decide)) decide_keeps (by decide)
        · exact keeps_then (keeps_seq cancelStarting_keeps becomeDone_keeps (by decide) (by decide)) decide_keeps
            (by decide)
        all_goals exact keeps_refl
      · exact keeps_refl

theorem dispatchEnableOp_keeps {s : State} : Keeps [.pq, .head] s (dispatchEnableOp s).1 := by
  unfold dispatchEnableOp
  split
  · exact keeps_seq upPq_keeps decide_keeps (by decide) (by decide)
  · exact keeps_seq upPq_keeps decide_keeps (by decide) (by decide)
  · exact keeps_refl

theorem dispatchResumeOp_keeps {s : State} : Keeps [.pq, .head] s (dispatchResumeOp s).1 := by
  unfold dispatchResumeOp
  split
  · exact keeps_seq upPq_keeps decide_keeps (by decide) (by decide)
  · exact keeps_seq upPq_keeps decide_keeps (by decide) (by decide)
  · exact keeps_refl

theorem dispatchHoldOp_keeps {s : State} : Keeps [.pq] s (dispatchHoldOp s).1 := by
  unfold dispatchHoldOp
  split
  · exact upPq_keeps
  all_goals exact keeps_refl

theorem writeTrigger_keeps {i : Nat} {t : Trigger} {s : State} : Keeps [.trg, .flt, .free] s (writeTrigger i t s) := by
  unfold writeTrigger
  dsimp only
  split
  · exact keeps_seq setTrigSlot_keeps resolveSlot_keeps (by decide) (by decide)
  · exact keeps_mono setTrigSlot_keeps (by decide)

theorem triggerSetOp_keeps {i : Nat} {f : TriggerFields} {s : State} :
    Keeps [.trg, .flt, .free] s (triggerSetOp i f s).1 := by
  unfold triggerSetOp
  split
  · exact keeps_refl
  · split
    · exact keeps_refl
    · split
      · exact keeps_refl
      · split
        · exact keeps_refl
        · exact writeTrigger_keeps

theorem triggerArmOp_keeps {i : Nat} {s : State} : Keeps [.trg] s (triggerArmOp i s).1 := by
  unfold triggerArmOp
  split
  · exact keeps_refl
  · split
    · exact keeps_refl
    · exact keeps_refl
    · exact setTrigSlot_keeps

theorem triggerClearOp_keeps {i : Nat} {s : State} : Keeps [.trg] s (triggerClearOp i s).1 := by
  unfold triggerClearOp
  split
  · exact keeps_refl
  · split
    · exact keeps_refl
    · exact keeps_refl
    · exact setTrigSlot_keeps

theorem windowSetOp_keeps {i : Nat} {f : WindowFields} {s : State} : Keeps [.trg] s (windowSetOp i f s).1 := by
  unfold windowSetOp
  split
  · exact keeps_refl
  · split
    · exact keeps_refl
    · exact upTrg_keeps

theorem windowClearOp_keeps {i : Nat} {s : State} : Keeps [.trg] s (windowClearOp i s).1 := by
  unfold windowClearOp
  split
  · exact keeps_refl
  · exact upTrg_keeps

theorem fabricLoadOp_keeps {n : ProfileName} {s : State} : Keeps [.prf, .trg] s (fabricLoadOp n s).1 := by
  unfold fabricLoadOp
  split
  · exact keeps_refl
  · split
    · exact keeps_refl
    · exact keeps_trans (keeps_trans setPointer_keeps setPointer_keeps) setPointer_keeps

theorem announce_keeps {e : Option Nat} {s : State} : Keeps [.prf, .trg] s (announce e s) :=
  keeps_seq (keeps_trans dropRef?_keeps takeRef?_keeps) upTrg_keeps (by decide) (by decide)

theorem spliceAheadOp_keeps {n : ProfileName} {s : State} : Keeps [.prf, .trg] s (spliceAheadOp n s).1 := by
  unfold spliceAheadOp
  split
  · exact keeps_refl
  · exact announce_keeps

theorem clearLatch_keeps {s : State} : Keeps [.mot, .ten, .flt] s (clearLatch s) :=
  keeps_then (keeps_seq upFlt_keeps setLine_keeps (by decide) (by decide)) upTen_keeps (by decide)

theorem clearFaultOp_keeps {s : State} : Keeps [.mot, .ten, .flt] s (clearFaultOp s).1 := by
  unfold clearFaultOp
  split
  · exact keeps_refl
  · split
    · exact keeps_refl
    · split
      · exact keeps_refl
      · exact clearLatch_keeps

theorem readStatusOp_keeps {clear : Bool} {s : State} : Keeps [.mrk, .flt] s (readStatusOp clear s).1 :=
  keeps_ite (fun _ => keeps_seq upMrk_keeps upFlt_keeps (by decide) (by decide)) fun _ => keeps_refl

theorem clearQueue_keeps {s : State} : Keeps [.prf, .pq, .head, .flt] s (clearQueue s) :=
  keeps_then (keeps_seq (keeps_foldl (fun _ _ => withdraw_keeps) _ s) (keeps_foldl (fun _ _ => dropRef_keeps) _ _)
    (by decide) (by decide)) upPq_keeps (by decide)

theorem clearTriggers_keeps {s : State} : Keeps [.prf, .trg, .flt, .free] s (clearTriggers s) := by
  have orphans : ∀ {t : State}, Keeps [.trg, .flt, .free] t ((List.range t.trg.slots.length).foldl
      (fun s i => if (s.trg.slots[i]?.getD .free).unresolved then orphanSlot i none s else s) t) :=
    keeps_foldl (fun _ _ => keeps_ite (fun _ => orphanSlot_keeps) fun _ => keeps_refl) _ _
  exact keeps_then (keeps_then (keeps_then (keeps_seq upTrg_keeps orphans (by decide) (by decide))
    (keeps_foldl (fun _ _ => dropRef?_keeps) _ _) (by decide)) dropRef?_keeps (by decide)) upTrg_keeps (by decide)

theorem clearLine_keeps {s : State} : Keeps [.dose, .prf, .pq, .head, .mrk, .trg, .flt, .free] s (clearLine s) :=
  keeps_then (keeps_then (keeps_seq clearQueue_keeps upDose_keeps (by decide) (by decide)) upMrk_keeps (by decide))
    clearTriggers_keeps (by decide)

theorem clearLineOp_keeps {s : State} :
    Keeps [.dose, .prf, .pq, .head, .mrk, .trg, .flt, .free] s (clearLineOp s).1 := by
  unfold clearLineOp
  split
  · exact clearLine_keeps
  · exact keeps_refl

/-- A host command's operation touches no more than its row may. -/
theorem hostOp_keeps {c : Instr} {s : State} : Keeps (touches c) s (hostOp c s).1 := by
  cases c with
  | setParam => exact keeps_mono setParam_keeps (by simp [touches])
  | setPosition => exact keeps_mono setPositionOp_keeps (by simp [touches])
  | heatOn => exact keeps_mono heatOnOp_keeps (by simp [touches])
  | heatOff => exact keeps_mono heatOffOp_keeps (by simp [touches])
  | setDrum => exact keeps_mono setDrumOp_keeps (by simp [touches])
  | start => exact keeps_mono startOp_keeps (by simp [touches])
  | stop => exact keeps_mono stopOp_keeps (by simp [touches])
  | threadEnter => exact keeps_mono threadEnterOp_keeps (by simp [touches])
  | threadExit => exact keeps_mono threadExitOp_keeps (by simp [touches])
  | jog => exact keeps_mono jogOp_keeps (by simp [touches])
  | seek => exact keeps_mono seekOp_keeps (by simp [touches])
  | seekStop => exact keeps_mono seekStopOp_keeps (by simp [touches])
  | seekResume => exact keeps_mono seekResumeOp_keeps (by simp [touches])
  | profileLoad => exact keeps_mono profileLoadOp_keeps (by simp [touches])
  | profileDrop => exact keeps_mono profileDropOp_keeps (by simp [touches])
  | profilePin => exact keeps_mono profilePinOp_keeps (by simp [touches])
  | profileTrim => exact keeps_mono profileTrimOp_keeps (by simp [touches])
  | panelSubmit => exact keeps_mono panelSubmitOp_keeps (by simp [touches])
  | panelInsert => exact keeps_mono panelInsertOp_keeps (by simp [touches])
  | panelCancel => exact keeps_mono panelCancelOp_keeps (by simp [touches])
  | dispatchEnable => exact keeps_mono dispatchEnableOp_keeps (by simp [touches])
  | dispatchResume => exact keeps_mono dispatchResumeOp_keeps (by simp [touches])
  | dispatchHold => exact keeps_mono dispatchHoldOp_keeps (by simp [touches])
  | dispatchOff => exact keeps_mono upPq_keeps (by simp [touches])
  | triggerSet => exact keeps_mono triggerSetOp_keeps (by simp [touches])
  | triggerArm => exact keeps_mono triggerArmOp_keeps (by simp [touches])
  | triggerClear => exact keeps_mono triggerClearOp_keeps (by simp [touches])
  | windowSet => exact keeps_mono windowSetOp_keeps (by simp [touches])
  | windowClear => exact keeps_mono windowClearOp_keeps (by simp [touches])
  | fabricLoad => exact keeps_mono fabricLoadOp_keeps (by simp [touches])
  | spliceAhead => exact keeps_mono spliceAheadOp_keeps (by simp [touches])
  | clearFault => exact keeps_mono clearFaultOp_keeps (by simp [touches])
  | readStatus => exact keeps_mono readStatusOp_keeps (by simp [touches])
  | clearLine => exact keeps_mono clearLineOp_keeps (by simp [touches])
  | linkConfig | getParam | readCounts | readMotion | readHeat | readDose | readProbe | readTension | profileFind
  | profileRead | readQueue | readPanel | readMarks | triggerRead | readWindows | readFabric | readFault =>
    rw [reading_fst _ rfl]; exact keeps_refl
  | _ => exact keeps_refl

/-- What a host command's row may touch, some host command may. -/
theorem touches_subset_hostTouches {c : Instr} (h : (commandFrame c).isSome = true) : ∀ b ∈ touches c, b ∈ hostTouches := by
  cases c with
  | powerOnReset | resetn | tickBatch | seekDistanceReached | markCapture | spliceCapture | nipLimitChange | nipTimeout
  | nipHold | estop | estopRelease | speedAndTensionSample | encoderSilent | stall | webBreak | overTension | doseSample
  | temperatureSample | zoneHold | zoneSensor | readiness | zeroCrossEdge | zoneShortfall | mainsLost | pulseEnd
  | linkLost | timeDeadline | frameGapTimeout | validFrame | unknownCommand | frameSent | headFrameSent | accept | refuse
  | done | fault | headOtherKindFrame | lenOutOfRange | headFrameBadCrc => exact nomatch h
  | _ => simp [touches, hostTouches]

/-- An operation of a row that is no host command does nothing. -/
theorem hostOp_of_no_frame {c : Instr} (h : commandFrame c = none) (s : State) : hostOp c s = refusing .unknown s := by
  cases c with
  | powerOnReset | resetn | tickBatch | seekDistanceReached | markCapture | spliceCapture | nipLimitChange | nipTimeout
  | nipHold | estop | estopRelease | speedAndTensionSample | encoderSilent | stall | webBreak | overTension | doseSample
  | temperatureSample | zoneHold | zoneSensor | readiness | zeroCrossEdge | zoneShortfall | mainsLost | pulseEnd
  | linkLost | timeDeadline | frameGapTimeout | validFrame | unknownCommand | frameSent | headFrameSent | accept | refuse
  | done | fault | headOtherKindFrame | lenOutOfRange | headFrameBadCrc => rfl
  | _ => exact nomatch h

theorem hostOp_keeps_hostTouches {c : Instr} {s : State} : Keeps hostTouches s (hostOp c s).1 := by
  cases h : commandFrame c with
  | none => rw [hostOp_of_no_frame h]; exact keeps_refl
  | some f => exact keeps_mono hostOp_keeps (touches_subset_hostTouches (by simp [h]))

/-! ## The command buffer (11 R179) -/

theorem runFrame_keeps {f : Frame} {s : State} : Keeps hostTouches s (runFrame f s) := by
  unfold runFrame
  split
  · exact carryOut_keeps (fun _ => keeps_refl) (by decide)
  · exact carryOut_keeps (fun _ => keeps_refl) (by decide)
  · exact carryOut_keeps (fun _ => hostOp_keeps_hostTouches) (by decide)

theorem takeFrames_keeps {n : Nat} {s : State} : Keeps hostTouches s (takeFrames n s) := by
  induction n generalizing s with
  | zero => exact keeps_refl
  | succ n ih =>
    unfold takeFrames
    split
    · exact keeps_refl
    · exact keeps_ite (fun _ => keeps_trans (keeps_trans (keeps_mono upLnk_keeps (by decide)) runFrame_keeps) ih)
        fun _ => keeps_refl

theorem takeWaiting_keeps {s : State} : Keeps hostTouches s (takeWaiting s) := takeFrames_keeps

theorem bufferFrame_keeps {f : Frame} {s : State} : Keeps [.lnk] s (bufferFrame f s) :=
  keeps_ite (fun _ => upLnk_keeps) fun _ => keeps_refl

theorem restartLink_keeps {s : State} : Keeps [.flt] s (restartLink s) := upFlt_keeps

theorem hostFrameArrives_keeps {f : Frame} {s : State} : Keeps hostTouches s (hostFrameArrives s f) :=
  keeps_ite
    (fun _ => keeps_trans (keeps_seq restartLink_keeps bufferFrame_keeps (by decide) (by decide)) takeWaiting_keeps)
    fun _ => keeps_mono restartLink_keeps (by decide)

theorem hostCommand_keeps {c : Instr} {s : State} : Keeps hostTouches s (hostCommand c s) := by
  unfold hostCommand
  split
  · exact keeps_ite (fun _ => keeps_trans (keeps_mono restartLink_keeps (by decide))
      (carryOut_keeps (fun _ => hostOp_keeps_hostTouches) (by decide))) fun _ => hostFrameArrives_keeps
  · exact keeps_refl

theorem receive_keeps {bytes : List Byte} {s : State} : Keeps hostTouches s (receive bytes s) :=
  keeps_trans (keeps_mono upLnk_keeps (by decide)) (keeps_foldl (fun _ _ => hostFrameArrives_keeps) _ _)

theorem changeSpeed_keeps {b : Option Int} {s : State} : Keeps [.lnk] s (changeSpeed b s) := by
  unfold changeSpeed
  split
  · exact upLnk_keeps
  · exact keeps_refl

theorem placeFreed_keeps {s : State} : Keeps hostTouches s (placeFreed s) :=
  keeps_trans
    (keeps_ite (fun _ => keeps_seq flushReport_keeps decide_keeps (by decide) (by decide)) fun _ =>
      keeps_mono flushReport_keeps (by decide))
    takeWaiting_keeps

theorem frameSent_keeps {s : State} : Keeps hostTouches s (frameSent s) := by
  unfold frameSent
  split
  · exact keeps_refl
  · exact keeps_trans (keeps_seq changeSpeed_keeps upFlt_keeps (by decide) (by decide)) placeFreed_keeps

/-! ## The rows -/

theorem zoneHold_keeps {z : Zone} {s : State} : Keeps [.heat] s (zoneHold z s) :=
  keeps_ite (fun _ => updZone_keeps) fun _ => keeps_refl

theorem zoneSensor_keeps {z : Zone} {s : State} : Keeps (.heat :: faultBlocks) s (zoneSensor z s) :=
  keeps_ite (fun _ => goLost_keeps) fun _ => keeps_refl

theorem readiness_keeps {s : State} : Keeps [.mot, .heat, .flt] s (readiness s) :=
  keeps_ite (fun _ => keeps_seq upHeat_keeps findings_keeps (by decide) (by decide)) fun _ => keeps_refl

theorem zoneShortfall_keeps {z : Zone} {s : State} : Keeps [.heat, .flt] s (zoneShortfall z s) :=
  keeps_ite (fun _ => keeps_seq updZone_keeps warn_keeps (by decide) (by decide)) fun _ => keeps_refl

theorem watchPair_keeps {b : Bool} {s : State} : Keeps [.mot] s (watchPair b s) := upMot_keeps

theorem nipLimits_keeps {nipc nipo : Bool} {s : State} : Keeps [.mot, .flt, .pins] s (nipLimits nipc nipo s) := by
  have pins : ∀ {f : Pins → Pins}, Keeps [.mot, .flt, .pins] s (s.upPins f) := keeps_mono upPins_keeps (by decide)
  unfold nipLimits
  dsimp only
  split
  · exact keeps_ite (fun _ => keeps_then pins upMot_keeps (by decide)) fun _ => pins
  · exact keeps_ite (fun _ => keeps_then pins nipOpened_keeps (by decide)) fun _ => pins
  · exact keeps_then pins watchPair_keeps (by decide)
  · exact keeps_then pins watchPair_keeps (by decide)

theorem webBreak_keeps {l : Loop} {s : State} : Keeps (.ten :: faultBlocks) s (webBreak l s) :=
  keeps_ite (fun _ => loopFault_keeps) fun _ => keeps_refl

theorem overTension_keeps {l : Loop} {s : State} : Keeps (.ten :: faultBlocks) s (overTension l s) :=
  keeps_ite (fun _ => loopFault_keeps) fun _ => keeps_refl

theorem mainsExpires_keeps {s : State} : Keeps (.heat :: faultBlocks) s (mainsExpires s) :=
  keeps_ite (fun _ => mainsLost_keeps) fun _ => keeps_refl

theorem nipTimeout_keeps {s : State} : Keeps faultBlocks s (nipTimeout s) :=
  keeps_ite (fun _ => nipExpires_keeps) fun _ => keeps_refl

theorem nipHold_keeps {s : State} : Keeps [.mot, .flt] s (nipHold s) :=
  keeps_ite (fun _ => holdEnds_keeps) fun _ => keeps_refl

theorem estopEdge_keeps {s : State} : Keeps [.mot, .ten, .pq, .head, .flt, .pins] s (estopEdge s) :=
  keeps_ite (fun _ => keeps_refl) fun _ => estopActs_keeps

theorem lenByte_keeps {link : Link} {len : Byte} {s : State} :
    Keeps (touches (.lenOutOfRange link len)) s (lenByte link len s) := by
  have h : touches (.lenOutOfRange link len) = touches (.frameGapTimeout link) := by cases link <;> rfl
  rw [h]
  exact keeps_ite (fun _ => abandon_keeps) fun _ => keeps_refl

theorem silenceDue_keeps {c : Chan} {s : State} : Keeps (.cnt :: faultBlocks) s (silenceDue s c) :=
  keeps_ite (fun _ => silenceExpires_keeps) fun _ => keeps_refl

theorem deadlineDue_keeps {s : State} : Keeps [.prf, .pq, .head, .trg, .flt, .free] s (deadlineDue s) := by
  unfold deadlineDue
  split
  · exact keeps_seq startingDeadline_keeps decide_keeps (by decide) (by decide)
  · exact keeps_refl

/-- What a millisecond does after the silence timers leaves the counting unit. -/
theorem afterSilence_keeps {s : State} : Keeps [.mot, .heat, .prf, .pq, .head, .trg, .flt, .free] s
    (deadlineDue (linkDue (mainsDue (holdDue (nipDue s))))) := by
  have nip : Keeps [.mot, .heat, .prf, .pq, .head, .trg, .flt, .free] s (nipDue s) :=
    keeps_ite (fun _ => keeps_mono nipExpires_keeps (by decide)) fun _ => keeps_refl
  have hold : ∀ {t : State}, Keeps [.mot, .flt] t (holdDue t) := keeps_ite (fun _ => holdEnds_keeps) fun _ => keeps_refl
  have mains : ∀ {t : State}, Keeps (.heat :: faultBlocks) t (mainsDue t) :=
    keeps_ite (fun _ => mainsLost_keeps) fun _ => keeps_refl
  have link : ∀ {t : State}, Keeps faultBlocks t (linkDue t) := keeps_ite (fun _ => linkExpires_keeps) fun _ => keeps_refl
  exact keeps_then (keeps_then (keeps_then (keeps_then nip hold (by decide)) mains (by decide)) link (by decide))
    deadlineDue_keeps (by decide)

/-- Every row that is no frame on RXD completes, and touches no more than it may. -/
theorem exec_keeps (c : Instr) (s : State) (h : viaBuffer c = false) :
    ∃ t, exec c s = .next t ∧ Keeps (touches c) s t := by
  cases c with
  | powerOnReset => exact ⟨_, rfl, resetPart_keeps⟩
  | resetn => exact ⟨_, rfl, resetPart_keeps⟩
  | tickBatch => exact ⟨_, rfl, tickBatch_keeps⟩
  | seekDistanceReached => exact ⟨_, rfl, keeps_ite (fun _ => upMot_keeps) fun _ => keeps_refl⟩
  | markCapture => exact ⟨_, rfl, markCapture_keeps⟩
  | spliceCapture => exact ⟨_, rfl, spliceCapture_keeps⟩
  | nipLimitChange => exact ⟨_, rfl, nipLimits_keeps⟩
  | nipTimeout => exact ⟨_, rfl, nipTimeout_keeps⟩
  | nipHold => exact ⟨_, rfl, nipHold_keeps⟩
  | estop => exact ⟨_, rfl, estopEdge_keeps⟩
  | estopRelease => exact ⟨_, rfl, upPins_keeps⟩
  | speedAndTensionSample => exact ⟨_, rfl, speedSample_keeps⟩
  | encoderSilent => exact ⟨_, rfl, silenceExpires_keeps⟩
  | stall => exact ⟨_, rfl, stallExpires_keeps⟩
  | webBreak => exact ⟨_, rfl, webBreak_keeps⟩
  | overTension => exact ⟨_, rfl, overTension_keeps⟩
  | doseSample => exact ⟨_, rfl, doseSample_keeps⟩
  | temperatureSample => exact ⟨_, rfl, temperatureSample_keeps⟩
  | zoneHold => exact ⟨_, rfl, zoneHold_keeps⟩
  | zoneSensor => exact ⟨_, rfl, zoneSensor_keeps⟩
  | readiness => exact ⟨_, rfl, readiness_keeps⟩
  | zeroCrossEdge => exact ⟨_, rfl, zeroCross_keeps⟩
  | zoneShortfall => exact ⟨_, rfl, zoneShortfall_keeps⟩
  | mainsLost => exact ⟨_, rfl, mainsExpires_keeps⟩
  | pulseEnd => exact ⟨_, rfl, upTrg_keeps⟩
  | linkLost => exact ⟨_, rfl, linkExpires_keeps⟩
  | timeDeadline => exact ⟨_, rfl, timeDeadline_keeps⟩
  | frameGapTimeout => exact ⟨_, rfl, abandon_keeps⟩
  | validFrame => exact ⟨_, rfl, receive_keeps⟩
  | frameSent => exact ⟨_, rfl, frameSent_keeps⟩
  | headFrameSent => exact ⟨_, rfl, headFrameSent_keeps⟩
  | accept => exact ⟨_, rfl, takeAccept_keeps⟩
  | refuse => exact ⟨_, rfl, takeRefuse_keeps⟩
  | done => exact ⟨_, rfl, takeDone_keeps⟩
  | fault => exact ⟨_, rfl, takeFault_keeps⟩
  | headOtherKindFrame => exact ⟨_, rfl, takeOtherFrame_keeps⟩
  | lenOutOfRange => exact ⟨_, rfl, lenByte_keeps⟩
  | headFrameBadCrc => exact ⟨_, rfl, headHunts_keeps⟩
  | _ => exact nomatch h

end Sys2Proof.Machine
end

