-- ==== Sys2Proof/Proofs/CountsInRange.lean ====
section
/-! PROOF. What each operation does to the counting unit, and the invariant of the counts (01 R1, R4, R6). -/

namespace Sys2Proof.Machine
open Sys2Proof

/-! ## Values by channel -/

@[simp] theorem channels_get_set_same {α : Type} (x : Channels α) (c : Chan) (v : α) : (x.set c v).get c = v := by
  cases c <;> rfl

theorem channels_get_set_ne {α : Type} (x : Channels α) {c d : Chan} (v : α) (h : d ≠ c) :
    (x.set c v).get d = x.get d := by
  cases c <;> cases d <;> first | rfl | exact absurd rfl h

theorem inRange_iff {lo hi v : Int} : inRange lo hi v = true ↔ lo ≤ v ∧ v ≤ hi := by
  simp [inRange]

/-! ## The counting unit after each operation -/

/-- A batch changes its channel alone: what observes the count leaves the counting unit (01 R3, R7). -/
theorem tickBatch_cnt (ch : Chan) (x : Ticks) (s : State) :
    (tickBatch ch x s).cnt = { s.cnt with chan := s.cnt.chan.set ch ((s.cnt.chan.get ch).take x) } := by
  have fault : (rangeFault ch (s.cnt.chan.get ch) ((s.cnt.chan.get ch).take x)
      (s.upCnt fun k => { k with chan := k.chan.set ch ((s.cnt.chan.get ch).take x) })).cnt
        = { s.cnt with chan := s.cnt.chan.set ch ((s.cnt.chan.get ch).take x) } := rangeFault_keeps .cnt (by decide)
  rw [← fault]
  unfold tickBatch
  dsimp only
  split
  · rfl
  · cases ch with
    | paper => exact ppUpdate_keeps .cnt (by decide)
    | fabric => exact fpUpdate_keeps .cnt (by decide)
    | drum => rfl

/-- A MARK capture is recorded; the tracker and the move leave the counting unit (01 R11). -/
theorem markCapture_cnt (s : State) : (markCapture s).cnt = { s.cnt with markCap := some (s.captureOf .paper) } :=
  Eq.trans (captureEnds_keeps .cnt (by decide)) (judgeMark_keeps .cnt (by decide))

/-- A SPLICE capture that is accepted is recorded, and sets the lockout (01 R12). -/
theorem spliceCapture_cnt (s : State) :
    (spliceCapture s).cnt = if (s.captureOf .fabric).accepted s.cnt.lockout s.par.dSlock then
      { s.cnt with spliceCap := some (s.captureOf .fabric), lockout := some (s.captureOf .fabric).value } else s.cnt := by
  unfold spliceCapture
  dsimp only
  split
  · exact Eq.trans (captureEnds_keeps .cnt (by decide)) (detectSplice_keeps .cnt (by decide))
  · rfl

/-- The counting unit takes the 10 ms sample with the v_ref it finds (01 R8 to R10). -/
theorem countSample_cnt (s : State) : (countSample s).cnt = s.cnt.sample s.par.silMask s.mot.vref := by
  unfold countSample
  dsimp only
  split
  · exact raise_keeps .cnt (by decide)
  · rfl

/-- The sample changes the counting unit once, with the v_ref before or after the governor. -/
theorem speedSample_cnt (lc0 lc1 lc2 : Int) (ca ta : Bool) (s : State) :
    ∃ v, (speedSample lc0 lc1 lc2 ca ta s).cnt = s.cnt.sample s.par.silMask v := by
  have tension : ∀ (b : Bool) (u : State), (if b then u else tensionSample lc0 lc1 lc2 u).cnt = u.cnt
      ∧ (if b then tensionSample lc0 lc1 lc2 u else u).cnt = u.cnt
      ∧ (if b then u else tensionSample lc0 lc1 lc2 u).par = u.par := by
    intro b u
    have k : Keeps (.ten :: faultBlocks) u (tensionSample lc0 lc1 lc2 u) := tensionSample_keeps
    cases b
    · exact ⟨k .cnt (by decide), rfl, k .par (by decide)⟩
    · exact ⟨rfl, k .cnt (by decide), rfl⟩
  have motion : ∀ u : State, (motionSample u).cnt = u.cnt ∧ (motionSample u).par = u.par := fun u =>
    ⟨motionSample_keeps .cnt (by decide), motionSample_keeps .par (by decide)⟩
  unfold speedSample
  cases ca
  · refine ⟨s.mot.vref, ?_⟩
    simp only [Bool.false_eq_true, if_false]
    rw [(tension ta _).2.1, (motion _).1, (tension ta _).1, countSample_cnt]
  · simp only [if_true]
    refine ⟨(motionSample (if ta then s else tensionSample lc0 lc1 lc2 s)).mot.vref, ?_⟩
    rw [(tension ta _).2.1, countSample_cnt, (motion _).1, (motion _).2, (tension ta _).1, (tension ta _).2.2]

/-- A silence timer that expires changes the silence timer of its channel alone (01 R9). -/
theorem silenceExpires_cnt (c : Chan) (s : State) :
    (silenceExpires c s).cnt = if (s.cnt.chan.get c).silence.isRunning then
      { s.cnt with chan := s.cnt.chan.set c { s.cnt.chan.get c with silence := .standing s.par.tSil.toNat } }
    else s.cnt := by
  unfold silenceExpires
  split
  · exact raise_keeps .cnt (by decide)
  · rfl

theorem stallExpires_chan (s : State) : (stallExpires s).cnt.chan = s.cnt.chan := by
  unfold stallExpires
  split
  · rw [raise_cnt]; rfl
  · rfl

/-! ## The range of a channel -/

/-- A channel within its ranges (01 R1, R4, R6). -/
structure Channel.InRange (c : Channel) : Prop where
  scale : 1000 ≤ c.tpm ∧ c.tpm ≤ 4000000
  remainder : 0 ≤ c.rem ∧ c.rem < c.tpm
  count : -2000000000 ≤ c.count ∧ c.count ≤ 2000000000

theorem countsOk_iff (s : State) : CountsOk s ↔ ∀ c, (s.cnt.chan.get c).InRange :=
  ⟨fun h c => ⟨h.scale c, h.remainder c, h.count c⟩,
    fun h => ⟨fun c => (h c).scale, fun c => (h c).remainder, fun c => (h c).count⟩⟩

/-- Only the channels count. -/
theorem CountsOk.of_chan {s t : State} (h : CountsOk s) (e : t.cnt.chan = s.cnt.chan) : CountsOk t := by
  rw [countsOk_iff] at *
  rw [e]; exact h

theorem CountsOk.of_keeps {s t : State} {l : List Block} (h : CountsOk s) (k : Keeps l s t) (hl : .cnt ∉ l) :
    CountsOk t :=
  h.of_chan (congrArg Counting.chan (k .cnt hl))

/-- A channel whose scale, remainder and count are kept stays in range. -/
theorem Channel.InRange.congr {c d : Channel} (h : c.InRange) (ht : d.tpm = c.tpm) (hr : d.rem = c.rem)
    (hc : d.count = c.count) : d.InRange :=
  ⟨by rw [ht]; exact h.scale, by rw [ht, hr]; exact h.remainder, by rw [hc]; exact h.count⟩

/-- The channels with one of them replaced by one in range. -/
theorem CountsOk.set_chan {s t : State} {c : Chan} {d : Channel} (h : CountsOk s)
    (e : t.cnt.chan = s.cnt.chan.set c d) (hd : d.InRange) : CountsOk t := by
  rw [countsOk_iff] at *
  intro x
  rw [e]
  by_cases hx : x = c
  · subst hx; simpa using hd
  · rw [channels_get_set_ne _ _ hx]; exact h x

/-- The scaler leaves a remainder between 0 and TPM - 1, and the count saturates (01 R4, R6). -/
theorem Channel.InRange.batch {c : Channel} (h : c.InRange) (t : Int) : (c.batch t).InRange := by
  have pos : 0 < c.tpm := by have := h.scale; omega
  have low := Int.emod_nonneg (c.sum t) (Int.ne_of_gt pos)
  have high := Int.emod_lt_of_pos (c.sum t) pos
  have rem : c.sum t - c.sum t / c.tpm * c.tpm = c.sum t % c.tpm := by rw [Int.emod_def, Int.mul_comm]
  refine ⟨h.scale, ?_, ?_⟩
  · show 0 ≤ c.sum t - c.sum t / c.tpm * c.tpm ∧ c.sum t - c.sum t / c.tpm * c.tpm < c.tpm
    rw [rem]; exact ⟨low, high⟩
  · show -2000000000 ≤ clamp _ _ _ ∧ clamp _ _ _ ≤ 2000000000
    unfold clamp Config.countLimit
    split <;> [omega; (split <;> omega)]

theorem Channel.InRange.take {c : Channel} (h : c.InRange) (x : Ticks) : (c.take x).InRange := by
  unfold Channel.take
  dsimp only
  have k : ∀ lv si, ({ c with levels := lv, silence := si } : Channel).InRange := fun _ _ => h.congr rfl rfl rfl
  split
  · exact k _ _
  · exact (k _ _).batch _

theorem CountsOk.sample {s t : State} {v : Int} (h : CountsOk s) (e : t.cnt = s.cnt.sample s.par.silMask v) :
    CountsOk t := by
  rw [countsOk_iff] at *
  rw [e]
  intro x
  have hx := h x
  cases x <;> exact hx.congr rfl rfl rfl

/-! ## The rows -/

theorem CountsOk.tick {s : State} (h : CountsOk s) : CountsOk (tick s) := by
  have run : CountsOk (advance s) := by
    rw [countsOk_iff] at *
    intro x
    have hx := h x
    cases x <;> exact hx.congr rfl rfl rfl
  have silence : ∀ {u : State} (c : Chan), CountsOk u → CountsOk (silenceDue u c) := by
    intro u c hu
    unfold silenceDue
    split
    · have e := silenceExpires_cnt c u
      split at e
      · exact hu.set_chan (congrArg Counting.chan e) (((countsOk_iff u).mp hu c).congr rfl rfl rfl)
      · exact hu.of_chan (congrArg Counting.chan e)
    · exact hu
  exact (silence _ (silence _ (silence _ run))).of_keeps afterSilence_keeps (by decide)

/-- A reset leaves every channel at its reset values but for the levels. -/
theorem resetPart_cnt (s : State) : (resetPart s).cnt = s.cleared.cnt := by
  rw [resetPart_eq]
  have h : (if s.pins.openPair then nipOpened s.cleared else s.cleared).cnt = s.cleared.cnt := by
    split
    · exact nipOpened_keeps .cnt (by decide)
    · rfl
  dsimp only
  split
  · exact Eq.trans (estopActs_keeps .cnt (by decide)) h
  · exact h

theorem countsOk_resetPart (s : State) : CountsOk (resetPart s) := by
  rw [countsOk_iff, resetPart_cnt]
  have reset : ({} : Channel).InRange := ⟨by decide, by decide, by decide⟩
  intro c
  cases c <;> exact reset.congr rfl rfl rfl

/-- Writes of the mode and of the scale are the only ones that touch what the invariant speaks of, and clear the
remainder (01 R5). -/
theorem CountsOk.writeParam {s : State} {p : Param} {v : Int} (h : CountsOk s) (hv : p.allows v = true) :
    CountsOk (writeParam p v s) := by
  have at_ := fun c => (countsOk_iff s).mp h c
  cases p with
  | mEnc c =>
    have := (at_ c).scale
    exact h.set_chan (c := c) rfl ⟨(at_ c).scale, ⟨Int.le_refl 0, by dsimp only; omega⟩, (at_ c).count⟩
  | tpm c =>
    have hv := inRange_iff.mp hv
    exact h.set_chan (c := c) rfl ⟨hv, ⟨Int.le_refl 0, by dsimp only; omega⟩, (at_ c).count⟩
  | silMask =>
    have one : ∀ {u : State} (c : Chan) (f : Channel → Timer), CountsOk u →
        CountsOk (updChan c (fun k => { k with silence := f k }) u) := fun c _ hu =>
      hu.set_chan (c := c) rfl (((countsOk_iff _).mp hu c).congr rfl rfl rfl)
    exact (one .drum _ (one .fabric _ (one .paper _ h))).of_keeps upPar_keeps (by decide)
  | _ => exact h.of_keeps writeParam_keeps (by simp [Param.blocks, faultBlocks])

theorem CountsOk.setParam {s : State} {id : Nat} {v : Int} (h : CountsOk s) : CountsOk (setParam id v s).1 := by
  unfold Machine.setParam
  split
  · next p hp hr =>
    refine h.writeParam ?_
    unfold State.paramRefusal at hr
    rw [hp] at hr
    cases ha : p.allows v <;> simp_all
  · exact h
  · exact h

theorem CountsOk.setPosition {s : State} {n : Nat} {v : Int} (h : CountsOk s) : CountsOk (setPositionOp n v s).1 := by
  unfold setPositionOp
  split
  · next c hc hr =>
    have at_ := (countsOk_iff s).mp h c
    have hv : -2000000000 ≤ v ∧ v ≤ 2000000000 := by
      simp only [positionRefusal, hc] at hr
      split at hr
      · exact nomatch hr
      · next hin =>
        have hin : inRange (-Config.countLimit) Config.countLimit v = true := by simpa using hin
        exact inRange_iff.mp hin
    have moved : CountsOk (updChan c (fun k => { k with count := v, rem := 0, overrange := false }) s) := by
      have := at_.scale
      exact h.set_chan (c := c) rfl ⟨at_.scale, ⟨Int.le_refl 0, by dsimp only; omega⟩, hv⟩
    cases c with
    | paper => exact moved.of_chan rfl
    | fabric => exact moved.of_chan rfl
    | drum => exact moved
  · exact h
  · exact h

theorem CountsOk.hostOp {s : State} (h : CountsOk s) (c : Instr) : CountsOk (hostOp c s).1 := by
  cases hf : commandFrame c with
  | none => rw [hostOp_of_no_frame hf]; exact h
  | some f =>
    cases c with
    | setParam => exact h.setParam
    | setPosition => exact h.setPosition
    | powerOnReset | resetn | tickBatch | markCapture | spliceCapture | speedAndTensionSample | encoderSilent | stall
    | validFrame | frameSent | frameGapTimeout | lenOutOfRange | unknownCommand => exact nomatch hf
    | _ => exact h.of_keeps hostOp_keeps (by simp [touches, faultBlocks])

theorem CountsOk.carryOut {s : State} {kind tag : Byte} {op : State → State × Reply} (h : CountsOk s)
    (hop : ∀ u, CountsOk u → CountsOk (op u).1) : CountsOk (carryOut kind tag op s) :=
  (hop (s.upFlt fun f => { f with kept := true }) (h.of_chan rfl)).of_chan rfl

theorem CountsOk.takeFrames {n : Nat} {s : State} (h : CountsOk s) : CountsOk (takeFrames n s) := by
  induction n generalizing s with
  | zero => exact h
  | succ n ih =>
    unfold Machine.takeFrames
    split
    · exact h
    · split
      · refine ih ?_
        have pop : CountsOk (popFrame s) := h.of_chan rfl
        unfold runFrame
        split
        · exact pop.carryOut fun _ hu => hu
        · exact pop.carryOut fun _ hu => hu
        · exact pop.carryOut fun _ hu => hu.hostOp _
      · exact h

theorem CountsOk.takeWaiting {s : State} (h : CountsOk s) : CountsOk (takeWaiting s) := h.takeFrames

theorem CountsOk.hostFrameArrives {f : Frame} {s : State} (h : CountsOk s) : CountsOk (hostFrameArrives s f) := by
  unfold Machine.hostFrameArrives
  dsimp only
  split
  · exact ((h.of_keeps restartLink_keeps (by decide)).of_keeps bufferFrame_keeps (by decide)).takeWaiting
  · exact h.of_keeps restartLink_keeps (by decide)

theorem CountsOk.hostCommand {c : Instr} {s : State} (h : CountsOk s) : CountsOk (hostCommand c s) := by
  unfold Machine.hostCommand
  split
  · unfold hostExec
    split
    · exact (h.of_keeps restartLink_keeps (by decide)).carryOut fun _ hu => hu.hostOp _
    · exact h.hostFrameArrives
  · exact h

theorem CountsOk.receive {bytes : List Byte} {s : State} (h : CountsOk s) : CountsOk (receive bytes s) := by
  have frames : ∀ (l : List Frame) {u : State}, CountsOk u → CountsOk (l.foldl Machine.hostFrameArrives u) := by
    intro l
    induction l with
    | nil => exact fun hu => hu
    | cons f l ih => exact fun hu => ih hu.hostFrameArrives
  exact frames _ (h.of_chan rfl)

theorem CountsOk.frameSent {s : State} (h : CountsOk s) : CountsOk (frameSent s) := by
  unfold Machine.frameSent
  split
  · exact h
  · next x _ =>
    have sent := h.of_keeps (keeps_seq (n := [.lnk, .flt]) (changeSpeed_keeps (b := x.newBaud)) (upFlt_keeps
      (f := fun f => { f with current := none }.begin_)) (by decide) (by decide)) (by decide)
    unfold placeFreed
    dsimp only
    split
    · exact ((sent.of_keeps flushReport_keeps (by decide)).of_keeps decide_keeps (by decide)).takeWaiting
    · exact (sent.of_keeps flushReport_keeps (by decide)).takeWaiting

/-- A host command's row is its frame arriving. -/
theorem exec_host {c : Instr} {f : Frame} (h : commandFrame c = some f) (s : State) :
    exec c s = .next (hostCommand c s) := by
  cases c with
  | powerOnReset | resetn | tickBatch | seekDistanceReached | markCapture | spliceCapture | nipLimitChange | nipTimeout
  | nipHold | estop | estopRelease | speedAndTensionSample | encoderSilent | stall | webBreak | overTension | doseSample
  | temperatureSample | zoneHold | zoneSensor | readiness | zeroCrossEdge | zoneShortfall | mainsLost | pulseEnd
  | linkLost | timeDeadline | frameGapTimeout | validFrame | unknownCommand | frameSent | headFrameSent | accept | refuse
  | done | fault | headOtherKindFrame | lenOutOfRange | headFrameBadCrc => exact nomatch h
  | _ => rfl

theorem CountsOk.exec {c : Instr} {s t : State} (h : CountsOk s) (e : exec c s = .next t) : CountsOk t := by
  cases hf : commandFrame c with
  | some f =>
    rw [exec_host hf] at e
    cases e
    exact h.hostCommand
  | none =>
    have at_ := (countsOk_iff s).mp h
    have frame := exec_keeps c s
    cases c with
    | powerOnReset => cases e; exact countsOk_resetPart s
    | resetn => cases e; exact countsOk_resetPart s
    | tickBatch ch x =>
      cases e
      exact h.set_chan (congrArg Counting.chan (tickBatch_cnt ch x s)) ((at_ ch).take x)
    | markCapture => cases e; exact h.of_chan (by rw [markCapture_cnt])
    | spliceCapture =>
      cases e
      refine h.of_chan ?_
      rw [spliceCapture_cnt]
      split <;> rfl
    | speedAndTensionSample lc0 lc1 lc2 ca ta =>
      cases e
      obtain ⟨v, hv⟩ := speedSample_cnt lc0 lc1 lc2 ca ta s
      exact h.sample hv
    | encoderSilent ch =>
      cases e
      have hc := silenceExpires_cnt ch s
      split at hc
      · exact h.set_chan (congrArg Counting.chan hc) ((at_ ch).congr rfl rfl rfl)
      · exact h.of_chan (congrArg Counting.chan hc)
    | stall => cases e; exact h.of_chan (stallExpires_chan s)
    | validFrame => cases e; exact h.receive
    | unknownCommand => cases e; exact h.hostFrameArrives
    | frameSent => cases e; exact h.frameSent
    | frameGapTimeout link =>
      cases e
      exact h.of_keeps abandon_keeps (by cases link <;> decide)
    | lenOutOfRange link len =>
      cases e
      exact h.of_keeps lenByte_keeps (by cases link <;> simp [touches])
    | seekDistanceReached | nipLimitChange | nipTimeout | nipHold | estop | estopRelease | webBreak | overTension
    | doseSample | temperatureSample | zoneHold | zoneSensor | readiness | zeroCrossEdge | zoneShortfall | mainsLost
    | pulseEnd | linkLost | timeDeadline | headFrameSent | accept | refuse | done | fault | headOtherKindFrame
    | headFrameBadCrc =>
      obtain ⟨u, hu, k⟩ := frame rfl
      cases e.symm.trans hu
      exact h.of_keeps k (by simp [touches, faultBlocks])
    | _ => exact nomatch hf

/-- Settles O54: a step on an empty queue is a millisecond, any other runs one row, and each keeps the ranges. -/
theorem stepKeepsCountsInRange : Obligations.StepKeepsCountsInRange := by
  intro s t h e
  unfold step at e
  split at e
  · cases e; exact h.tick
  · next rest _ => exact CountsOk.exec (h.of_chan (t := { s with pending := rest }) rfl) e

end Sys2Proof.Machine
end

