-- ==== Sys2Proof/Proofs/Counting.lean ====
section
/-! PROOF. The counting unit's statements (01): edges and ticks, the batch and its scaler, the rebase of a count, and the
MARK capture; before them how a host command that is taken at once is answered. -/

namespace Sys2Proof.Machine
open Sys2Proof

/-! ## A host command taken at once (11 R179, R180) -/

@[simp] theorem acting_cnt (s : State) : s.acting.cnt = s.cnt := rfl
@[simp] theorem acting_mot (s : State) : s.acting.mot = s.mot := rfl
@[simp] theorem acting_heat (s : State) : s.acting.heat = s.heat := rfl
@[simp] theorem acting_dose (s : State) : s.acting.dose = s.dose := rfl
@[simp] theorem acting_ten (s : State) : s.acting.ten = s.ten := rfl
@[simp] theorem acting_prf (s : State) : s.acting.prf = s.prf := rfl
@[simp] theorem acting_pq (s : State) : s.acting.pq = s.pq := rfl
@[simp] theorem acting_head (s : State) : s.acting.head = s.head := rfl
@[simp] theorem acting_mrk (s : State) : s.acting.mrk = s.mrk := rfl
@[simp] theorem acting_trg (s : State) : s.acting.trg = s.trg := rfl
@[simp] theorem acting_par (s : State) : s.acting.par = s.par := rfl
@[simp] theorem acting_pins (s : State) : s.acting.pins = s.pins := rfl
@[simp] theorem acting_latch (s : State) : s.acting.flt.latch = s.flt.latch := rfl
@[simp] theorem acting_further (s : State) : s.acting.flt.further = s.flt.further := rfl

/-- The owning block's operation gives the state and the answer of a command taken at once. -/
theorem answered_of_op {c : Instr} {f : Frame} {s t : State} {st : Status} {data : List Byte} (h : s.takes)
    (hf : commandFrame c = some f) (hop : hostOp c s.acting = (t, { status := st, data := data })) :
    Answered c f.kind f.tag st data s t := by
  unfold Answered
  rw [exec_host hf, hostCommand_taken h hf, hop]
  rfl

theorem refused_of_op {c : Instr} {f : Frame} {s : State} {st : Status} (h : s.takes)
    (hf : commandFrame c = some f) (hop : hostOp c s.acting = (s.acting, refusedWith st)) :
    Refused c f.kind f.tag st s :=
  answered_of_op h hf hop

/-! ## Edges and ticks (01 R2) -/

/-- Settles O6: the steps of each mode over the sixteen pairs of levels, and the recursion of a path. -/
theorem edgesGiveTicks : Obligations.EdgesGiveTicks :=
  ⟨by decide, by decide, by decide, by decide, by decide, fun _ _ _ => ⟨rfl, rfl⟩⟩

/-! ## A batch (01 R3, R4, R6, R8) -/

/-- The range flag is set where the sum leaves the range that the count is clamped to. -/
theorem clamp_eq_max_min {lo hi v : Int} (h : lo ≤ hi) : clamp lo hi v = max lo (min hi v) := by
  unfold clamp
  split <;> [omega; (split <;> omega)]

theorem take_balanced {c : Channel} {x : Ticks} (h : (c.gather x).1.1 = (c.gather x).1.2) :
    c.take x = { c with
      levels := (c.gather x).2
      silence := if (c.gather x).1.1 = 0 && (c.gather x).1.2 = 0 then c.silence else c.silence.restart } := by
  simp only [Channel.take, if_pos h]

theorem take_unbalanced {c : Channel} {x : Ticks} (h : (c.gather x).1.1 ≠ (c.gather x).1.2) :
    c.take x = { c with
      levels := (c.gather x).2
      silence := if (c.gather x).1.1 = 0 && (c.gather x).1.2 = 0 then c.silence else c.silence.restart }.batch
        (((c.gather x).1.1 : Int) - (c.gather x).1.2) := by
  simp only [Channel.take, if_neg h]

/-- A tick restarts the silence timer, whatever the net count (01 R9). -/
theorem take_silence (c : Channel) (x : Ticks) :
    (c.take x).silence = if (c.gather x).1.1 = 0 && (c.gather x).1.2 = 0 then c.silence else c.silence.restart := by
  by_cases h : (c.gather x).1.1 = (c.gather x).1.2
  · rw [take_balanced h]
  · rw [take_unbalanced h]; rfl

/-- Settles O7: a balanced batch leaves the scaler alone, any other goes through `Channel.batch`. -/
theorem tickBatchScalesItsChannel : Obligations.TickBatchScalesItsChannel := by
  intro ch ticks s
  refine ⟨_, rfl, tickBatch_keeps, tickBatch_cnt ch ticks s, ?_⟩
  generalize s.cnt.chan.get ch = c
  have silence := take_silence c ticks
  refine ⟨?_, ?_, ?_, ?_, ?_, ?_, ?_, ?_⟩
  iterate 4
    by_cases h : (c.gather ticks).1.1 = (c.gather ticks).1.2
    · rw [take_balanced h]
    · rw [take_unbalanced h]; rfl
  · rintro (⟨hf, hr⟩ | hs)
    · rw [silence, hf, hr]; rfl
    · rw [silence, hs]; exact ite_self _
  · intro hn hs
    rw [silence, if_neg (by simpa using hn)]
    cases hc : c.silence with
    | stopped => exact absurd hc hs
    | running ms => rfl
    | standing ms => rfl
  · intro h
    rw [take_balanced h]
    exact ⟨rfl, rfl, rfl, rfl, rfl⟩
  · intro h
    rw [take_unbalanced h]
    refine ⟨?_, rfl, rfl, clamp_eq_max_min (by decide), ?_⟩
    · show (if 0 < ((c.gather ticks).1.1 : Int) - (c.gather ticks).1.2 then Dir.forward else .reverse) = _
      split <;> split <;> first | rfl | omega
    · show (c.overrange || !inRange (-2000000000) 2000000000
        (c.count + ((((c.gather ticks).1.1 : Int) - (c.gather ticks).1.2) * 100000 + c.rem) / c.tpm)) = true ↔ _
      rw [Bool.or_eq_true, Bool.not_eq_true', ← Bool.not_eq_true, inRange_iff]
      exact or_congr_right (by omega)

/-- A batch of counted ticks, one way or both: what it adds to the moved ws and to the remainder is its net count times
100,000 (01 R4). -/
theorem take_counted {c : Channel} (hm : c.mode ≠ .pulseOnly) (f r : Nat) :
    (c.take (.counted f r)).mode = c.mode ∧ (c.take (.counted f r)).tpm = c.tpm
      ∧ (c.take (.counted f r)).period * c.tpm + (c.take (.counted f r)).rem
          = c.period * c.tpm + c.rem + 100000 * ((f : Int) - r)
      ∧ (0 ≤ c.rem → c.rem < c.tpm → 0 ≤ (c.take (.counted f r)).rem ∧ (c.take (.counted f r)).rem < c.tpm) := by
  have g : c.gather (.counted f r) = ((f, r), c.levels) := by simp [Channel.gather, hm]
  by_cases h : f = r
  · rw [take_balanced (by rw [g]; exact h)]
    refine ⟨rfl, rfl, ?_, fun h0 h1 => ⟨h0, h1⟩⟩
    subst h; simp
  · rw [take_unbalanced (by rw [g]; exact h), g]
    refine ⟨rfl, rfl, ?_, fun h0 h1 => ?_⟩
    · show (c.period + (((f : Int) - r) * 100000 + c.rem) / c.tpm) * c.tpm
        + (((f : Int) - r) * 100000 + c.rem - (((f : Int) - r) * 100000 + c.rem) / c.tpm * c.tpm) = _
      ring
    · have pos : 0 < c.tpm := by omega
      show 0 ≤ ((f : Int) - r) * 100000 + c.rem - (((f : Int) - r) * 100000 + c.rem) / c.tpm * c.tpm
        ∧ ((f : Int) - r) * 100000 + c.rem - (((f : Int) - r) * 100000 + c.rem) / c.tpm * c.tpm < c.tpm
      rw [Int.mul_comm (_ / c.tpm), ← Int.emod_def]
      exact ⟨Int.emod_nonneg _ (Int.ne_of_gt pos), Int.emod_lt_of_pos _ pos⟩

/-- Settles O8, by induction on the run of batches. -/
theorem scalerLosesNothing : Obligations.ScalerLosesNothing := by
  have run : ∀ (batches : List (Nat × Nat)) (c : Channel), 0 ≤ c.rem → c.rem < c.tpm → c.mode ≠ .pulseOnly →
      (batches.foldl (fun c b => c.take (.counted b.1 b.2)) c).period * c.tpm
        + (batches.foldl (fun c b => c.take (.counted b.1 b.2)) c).rem
          = c.period * c.tpm + c.rem + 100000 * (batches.map fun b => (b.1 : Int) - b.2).sum
        ∧ 0 ≤ (batches.foldl (fun c b => c.take (.counted b.1 b.2)) c).rem
        ∧ (batches.foldl (fun c b => c.take (.counted b.1 b.2)) c).rem < c.tpm := by
    intro batches
    induction batches with
    | nil => intro c h0 h1 _; simpa using ⟨h0, h1⟩
    | cons b bs ih =>
      intro c h0 h1 hm
      obtain ⟨mode, tpm, sum, range⟩ := take_counted hm b.1 b.2
      obtain ⟨low, high⟩ := range h0 h1
      have rest := ih (c.take (.counted b.1 b.2)) low (by rw [tpm]; exact high) (by rw [mode]; exact hm)
      rw [tpm] at rest
      simp only [List.foldl_cons, List.map_cons, List.sum_cons]
      exact ⟨by rw [rest.1, sum]; ring, rest.2⟩
  intro c batches h0 h1 hm
  obtain ⟨sum, low, high⟩ := run batches c h0 h1 hm
  refine ⟨sum, low, high, fun ht => ?_⟩
  rw [ht] at sum
  -- Both remainders lie in one period of TPM, so the quotients and the remainders agree.
  have pos : 0 < c.tpm := by omega
  generalize batches.foldl (fun c b => c.take (.counted b.1 b.2)) c = c' at sum low high ⊢
  have rem : c'.rem = c.rem := by
    have e : (c'.rem + c.tpm * c'.period) % c.tpm = (c.rem + c.tpm * (c.period + 100000)) % c.tpm := by
      congr 1; linarith [Int.mul_comm c.tpm c'.period, Int.mul_comm c.tpm (c.period + 100000),
        Int.add_mul c.period 100000 c.tpm]
    rwa [Int.add_mul_emod_self_left, Int.add_mul_emod_self_left, Int.emod_eq_of_lt low high,
      Int.emod_eq_of_lt h0 h1] at e
  refine ⟨?_, rem⟩
  rw [rem] at sum
  exact Int.eq_of_mul_eq_mul_right (Int.ne_of_gt pos) (by linarith [Int.add_mul c.period 100000 c.tpm])

/-! ## SET_POSITION (01 R13, R14) -/

theorem anyFlying_iff (s : State) : s.anyFlying = true ↔ ∃ p ∈ s.pq.queue, p.state ≠ .queued := by
  simp [State.anyFlying, Panel.flying]

theorem setPositionOp_refused {n : Nat} {v : Int} {s : State} {st : Status} (h : positionRefusal n v s = some st) :
    setPositionOp n v s = (s, refusedWith st) := by
  unfold setPositionOp
  rw [h]
  cases chanOf n <;> rfl

theorem setPositionOp_taken {n : Nat} {v : Int} {s : State} {c : Chan} (hc : chanOf n = some c)
    (h : positionRefusal n v s = none) :
    setPositionOp n v s = (rebase c v s, okData (i32 (s.cnt.chan.get c).count)) := by
  simp only [setPositionOp, hc, h]

/-- A value out of range is refused whatever the count; one in range by what stands in the way of its count. -/
theorem positionRefusal_eq {n : Nat} {v : Int} {s : State} {c : Chan} (hc : chanOf n = some c) :
    positionRefusal n v s =
      if v < -2000000000 ∨ 2000000000 < v then some .range
      else match c with
        | .paper =>
            if (∃ p ∈ s.pq.queue, p.state ≠ .queued) ∨ s.mot.vref ≠ 0 ∨ s.cnt.chan.paper.speed ≠ 0 then some .state
            else none
        | .fabric => if s.trg.splices ≠ [] then some .state else none
        | .drum => none := by
  simp only [positionRefusal, hc]
  have inside : inRange (-Config.countLimit) Config.countLimit v = true ↔ ¬(v < -2000000000 ∨ 2000000000 < v) :=
    inRange_iff.trans (by show -2000000000 ≤ v ∧ v ≤ 2000000000 ↔ _; omega)
  by_cases hv : v < -2000000000 ∨ 2000000000 < v
  · rw [if_pos hv, if_pos (by simpa using fun h => inside.mp h hv)]
  · rw [if_neg hv, if_neg (by simpa using inside.mpr hv)]
    cases c with
    | paper => simp [← anyFlying_iff, or_assoc]
    | fabric => cases s.trg.splices <;> simp
    | drum => rfl

/-- Settles O9: the refusals of R14 in their order, each count's rebase. -/
theorem setPositionRebases : Obligations.SetPositionRebases := by
  intro tag n v s h
  have no : ∀ {st : Status}, positionRefusal n v s.acting = some st → Refused (.setPosition tag n v) 0x08 tag st s :=
    fun hop => refused_of_op (c := .setPosition tag n v) h rfl (setPositionOp_refused hop)
  have yes : ∀ {c : Chan}, chanOf n = some c → positionRefusal n v s.acting = none →
      Answered (.setPosition tag n v) 0x08 tag .ok (i32 (s.cnt.chan.get c).count) s (rebase c v s.acting) :=
    fun hc hop => answered_of_op (c := .setPosition tag n v) h rfl (setPositionOp_taken hc hop)
  dsimp only
  split
  · next hn =>
    refine no ?_
    have none : chanOf n = none := by unfold chanOf; split <;> first | omega | rfl
    simp only [positionRefusal, none]
  · next hn =>
    obtain ⟨c, hc⟩ : ∃ c, chanOf n = some c := by
      obtain rfl | rfl | rfl : n = 0 ∨ n = 1 ∨ n = 2 := by omega
      exacts [⟨_, rfl⟩, ⟨_, rfl⟩, ⟨_, rfl⟩]
    rw [positionRefusal_eq hc] at no yes
    split
    · next hv => exact no (if_pos hv)
    · next hv =>
      rw [if_neg hv] at no yes
      obtain rfl | rfl | rfl : n = 0 ∨ n = 1 ∨ n = 2 := by omega
      · cases hc
        rw [if_pos rfl]
        split
        · next hf => exact no (if_pos (.inl hf))
        · next hf =>
          split
          · next hm => exact no (if_pos (.inr hm))
          · next hm => exact yes rfl (if_neg (not_or.mpr ⟨hf, hm⟩))
      · cases hc
        rw [if_neg (by decide), if_pos rfl]
        split
        · next hs => exact no (if_pos hs)
        · next hs => exact yes rfl (if_neg hs)
      · cases hc
        exact yes rfl rfl

/-! ## MARK_CAPTURE (01 R11, 02 R37, 08 R138, R139) -/

/-- A capture ends a MOVING move with its condition, and no other (02 R37). -/
theorem captureEnds_mot (cond : SeekCond) (p : Int) (s : State) :
    (captureEnds cond p s).mot = if s.mot.seek.state = .moving ∧ s.mot.seek.cond = cond then
      { s.mot with seek := s.mot.seek.finish .condition p } else s.mot := by
  unfold captureEnds
  by_cases h : s.mot.seek.state = .moving ∧ s.mot.seek.cond = cond
  · simp [h]
  · rw [if_neg (by simpa using h), if_neg h]

/-- Settles O10: the record, the move and the judging of the mark, in the order they act. -/
theorem markCaptureIsRecordedAndJudged : Obligations.MarkCaptureIsRecordedAndJudged := by
  intro s
  have judged : ∀ {l : List Block}, Keeps l (s.upCnt fun k => { k with markCap := some (s.captureOf .paper) })
      (judgeMark (s.captureOf .paper) (s.upCnt fun k => { k with markCap := some (s.captureOf .paper) })) →
      .cnt ∈ l → .mot ∈ l → Keeps l s (markCapture s) := fun k hc hm =>
    keeps_trans (keeps_mono upCnt_keeps (by simpa using hc)) (keeps_trans k (keeps_mono captureEnds_keeps (by simpa using hm)))
  refine ⟨_, rfl, markCapture_keeps, markCapture_cnt s, ?_, fun hd => ?_, fun hd hw => ?_⟩
  · show (captureEnds _ _ _).mot = _
    rw [captureEnds_mot, show (judgeMark (s.captureOf .paper) (s.upCnt fun k =>
      { k with markCap := some (s.captureOf .paper) })).mot = s.mot from judgeMark_keeps .mot (by decide)]
    rfl
  · refine judged ?_ (by decide) (by decide)
    rw [judgeMark, if_pos (show (s.captureOf .paper).dir = .reverse from hd)]
    exact keeps_refl
  · have stray : judgeMark (s.captureOf .paper) (s.upCnt fun k => { k with markCap := some (s.captureOf .paper) })
        = warn (.markStray s.pp s.cnt.clock) ((s.upCnt fun k => { k with markCap := some (s.captureOf .paper) }).upMrk
            fun m => { m with stray := true }) := by
      have noPanel : ((s.upCnt fun k => { k with markCap := some (s.captureOf .paper) }).pq.queue.find?
          ((s.upCnt fun k => { k with markCap := some (s.captureOf .paper) }).inWindow (s.captureOf .paper).value))
            = .none :=
        List.find?_eq_none.mpr fun q hq => Bool.not_eq_true _ ▸ hw q hq
      unfold judgeMark
      rw [if_neg (by rw [show (s.captureOf .paper).dir = .forward from hd]; exact nofun), noPanel]
      rfl
    refine ⟨judged ?_ (by decide) (by decide), ?_, fun hr => ?_⟩
    · rw [stray]
      exact keeps_seq upMrk_keeps warn_keeps (by decide) (by decide)
    · refine Eq.trans (captureEnds_keeps .mrk (by decide)) ?_
      rw [stray]
      exact Eq.trans (warn_keeps .mrk (by decide)) rfl
    · refine Eq.trans (captureEnds_keeps .flt (by decide)) ?_
      rw [stray]
      exact congrArg State.flt (notice_room (n := .warning (.markStray s.pp s.cnt.clock))
        (s := (s.upCnt fun k => { k with markCap := some (s.captureOf .paper) }).upMrk fun m => { m with stray := true })
        hr)

end Sys2Proof.Machine
end

