-- ==== Sys2Proof/Proofs/Reset.lean ====
section
/-! PROOF. The state after power-on reset: its values item by item, and that it meets every invariant. -/

namespace Sys2Proof.Machine
open Sys2Proof

/-! ## What reset leaves -/

/-- Settles O3: each item by evaluation, each record over its index. -/
theorem resetValues : Obligations.ResetValues := by
  refine ⟨fun c => ?_, rfl, rfl, rfl, rfl, rfl, rfl, rfl, rfl, rfl, rfl, rfl, rfl, rfl, rfl, rfl, rfl, fun z => ?_,
    rfl, rfl, rfl, rfl, rfl, rfl, rfl, rfl, rfl, rfl, rfl, rfl, rfl, rfl, rfl, rfl, rfl, rfl, fun l => ?_, rfl, ?_,
    rfl, rfl, rfl, rfl, rfl, rfl, rfl, rfl, rfl, rfl, rfl, rfl, rfl, rfl, rfl, rfl, rfl, fun o => ?_, rfl, rfl, rfl,
    rfl, rfl, rfl, rfl, rfl, rfl, rfl, rfl, rfl, rfl, rfl, by decide +kernel, rfl, rfl⟩
  · cases c <;> decide
  · cases z <;> decide
  · cases l <;> decide
  · decide
  · cases o <;> rfl

/-! ## The invariants -/

theorem reset_entry (n : Nat) : State.reset.prf.entry n = {} := by
  show ((List.replicate 32 ({} : Entry))[n]?).getD {} = {}
  rw [List.getElem?_replicate]
  split <;> rfl

theorem reset_entry_invalid (n : Nat) : ¬(State.reset.prf.entry n).valid = true := by
  rw [reset_entry]
  exact Bool.false_ne_true

theorem reset_countsOk : CountsOk State.reset where
  scale := fun c => by cases c <;> decide
  remainder := fun c => by cases c <;> decide
  count := fun c => by cases c <;> decide

theorem reset_paramsOk : ParamsOk State.reset where
  ranges := fun p => by
    cases p with
    | mEnc c | tpm c => cases c <;> rfl
    | loopKp l | loopKi l => cases l <;> rfl
    | wOut o => cases o <;> rfl
    | _ => rfl
  speed := by decide
  paper := rfl
  fabric := rfl
  probes := rfl

theorem reset_motionInv : MotionInv State.reset where
  params := reset_paramsOk
  caps := fun w hw => by simp [State.reset] at hw
  line := by constructor <;> decide

theorem reset_heatOk : HeatOk State.reset := fun z => by
  cases z <;> constructor <;> decide

theorem reset_profilesOk : ProfilesOk State.reset where
  size := rfl
  keys := fun i _ hi _ _ _ => absurd hi (reset_entry_invalid i)
  trims := fun i hi _ => absurd hi (reset_entry_invalid i)
  pinned := Nat.zero_le _
  pointer := .inl ⟨Nat.zero_le _, Nat.le_refl _⟩

theorem reset_buffersOk : BuffersOk State.reset := by
  constructor <;> decide

theorem reset_queueOk : QueueOk State.reset where
  tags := List.nodup_nil
  waiting := fun _ h => nomatch h
  waitingOnce := List.nodup_nil
  live := fun _ h => nomatch h
  liveOnce := List.nodup_nil
  unseen := fun _ h => nomatch h
  measured := fun _ h => nomatch h
  armed := fun _ h => by simp [State.reset] at h
  cancelled := fun _ h => by simp [State.reset] at h
  refs := fun n => by
    rw [reset_entry]
    simp [State.holders, PanelQueue.inserts, State.reset, Slot.panel?, List.filterMap]
  held := fun n h => by rw [reset_entry] at h; exact absurd rfl h

theorem reset_placedOk : PlacedOk State.reset where
  gap := by decide
  first := .nil
  clear := .nil
  ends := fun _ h => nomatch h
  queued := fun _ h => nomatch h
  armed := fun _ h => by simp [State.reset] at h
  lengths := by decide
  points := fun _ h => nomatch h

/-- Settles O5. -/
theorem resetMeetsTheInvariants : Obligations.ResetMeetsTheInvariants :=
  ⟨reset_countsOk, reset_motionInv, reset_heatOk, reset_profilesOk, reset_buffersOk, reset_queueOk, reset_placedOk,
    fun h => absurd rfl h⟩

end Sys2Proof.Machine
end

