-- ==== Sys2Proof/Proofs/Faults.lean ====
section
/-! SUPPORT. Operations that raise no critical fault leave the latch and only add to the transmit queue (`Posts`); what
raising one does to the latch, to the queue and to the motion controller (10 R169, 02 R24). -/

namespace Sys2Proof.Machine
open Sys2Proof

/-! ## Operations that raise no fault -/

/-- The latch and its further causes are the same, no frame has left the transmit queue, and the notices-dropped flag has
not been cleared. -/
structure Posts (s t : State) : Prop where
  latch : t.flt.latch = s.flt.latch
  further : t.flt.further = s.flt.further
  furtherCount : t.flt.furtherCount = s.flt.furtherCount
  frames : ∀ x ∈ s.flt.frames, x ∈ t.flt.frames
  dropped : s.flt.dropped = true → t.flt.dropped = true

theorem posts_of_flt {s t : State} (h : t.flt = s.flt) : Posts s t := by
  constructor <;> simp [h]

theorem posts_refl {s : State} : Posts s s := posts_of_flt rfl

theorem posts_trans {s t u : State} (h : Posts s t) (k : Posts t u) : Posts s u where
  latch := k.latch.trans h.latch
  further := k.further.trans h.further
  furtherCount := k.furtherCount.trans h.furtherCount
  frames := fun x hx => k.frames x (h.frames x hx)
  dropped := fun hd => k.dropped (h.dropped hd)

/-- An operation that leaves the fault monitor alone. -/
theorem posts_of_keeps {l : List Block} {s t : State} (h : Keeps l s t) (hl : .flt ∉ l) : Posts s t :=
  posts_of_flt (h .flt hl)

theorem posts_ite {c : Prop} [Decidable c] {s t u : State} (h : Posts s t) (k : Posts s u) :
    Posts s (if c then t else u) := by
  split <;> assumption

theorem posts_foldl {α : Type} {f : State → α → State} (h : ∀ s x, Posts s (f s x)) (xs : List α) (s : State) :
    Posts s (xs.foldl f s) := by
  induction xs generalizing s with
  | nil => exact posts_refl
  | cons x xs ih => exact posts_trans (h s x) (ih _)

theorem place_posts {x : TxFrame} {s : State} : Posts s (s.upFlt fun f => f.place x) where
  latch := place_latch _ _
  further := place_further _ _
  furtherCount := place_furtherCount _ _
  frames := fun y => mem_place_frames _ x y
  dropped := fun h => (place_dropped _ _).trans h

theorem notice_posts {n : Notice} {s : State} : Posts s (notice n s) :=
  posts_ite place_posts ⟨rfl, rfl, rfl, fun _ h => h, fun _ => rfl⟩

theorem warn_posts {w : Warning} {s : State} : Posts s (warn w s) := notice_posts

/-- A notice stands in the queue, or has been dropped (10 R173). -/
theorem notice_noticed (n : Notice) (s : State) : Noticed n s (notice n s) := by
  unfold notice
  split
  · exact .inl (self_mem_place_frames _ _)
  · exact .inr rfl

theorem Noticed.of_posts {n : Notice} {s t u : State} (h : Noticed n s t) (frames : ∀ x ∈ t.flt.frames, x ∈ u.flt.frames)
    (dropped : t.flt.dropped = true → u.flt.dropped = true) : Noticed n s u :=
  h.imp (frames _) dropped

theorem linkTimer_posts {f : Timer → Timer} {s : State} : Posts s (s.upFlt fun m => { m with link := f m.link }) :=
  ⟨rfl, rfl, rfl, fun _ h => h, fun h => h⟩

theorem setLine_posts {new : LineState} {e : LineEvent} {s : State} : Posts s (setLine new e s) :=
  posts_ite posts_refl (posts_trans linkTimer_posts
    (posts_trans (posts_of_keeps upMot_keeps (by decide)) notice_posts))

theorem nipOpened_posts {s : State} : Posts s (nipOpened s) :=
  posts_trans (posts_of_keeps upMot_keeps (by decide)) (posts_ite setLine_posts posts_refl)

theorem nipOpen_posts {s : State} : Posts s (nipOpen s) :=
  posts_ite posts_refl (posts_trans (posts_of_keeps upMot_keeps (by decide)) (posts_ite nipOpened_posts posts_refl))

theorem triggerNotice_posts {i : Nat} {o : Origin} {t : Trigger} {d : Option Dir} {r : FireResult} {s : State} :
    Posts s (triggerNotice i o t d r s) :=
  posts_trans (posts_of_keeps noticeDir_keeps (by decide)) notice_posts

theorem fire_posts {i : Nat} {o : Origin} {t : Trigger} {d : Option Dir} {late : Bool} {s : State} :
    Posts s (fire i o t d late s) := by
  unfold fire
  refine posts_trans ?_ (posts_of_keeps setTrigSlot_keeps (by decide))
  cases t.action with
  | notify => exact triggerNotice_posts
  | pulse o =>
    exact posts_ite (posts_trans (posts_of_keeps startPulse_keeps (by decide)) triggerNotice_posts)
      (posts_of_keeps startPulse_keeps (by decide))

theorem fireCrossed_posts {axis : Axis} {old new : Int} {s : State} : Posts s (fireCrossed axis old new s) :=
  posts_foldl (fun _ _ => fire_posts) _ s

theorem judgeWindow_posts {axis : Axis} {dir : Dir} {count : Int} {s : State} {i : Nat} :
    Posts s (judgeWindow axis dir count s i) := by
  unfold judgeWindow
  split
  · exact posts_ite (posts_trans (posts_of_keeps upTrg_keeps (by decide)) (posts_ite notice_posts posts_refl)) posts_refl
  · exact posts_refl

theorem judgeWindows_posts {axis : Axis} {old new : Int} {s : State} : Posts s (judgeWindows axis old new s) :=
  posts_foldl (fun _ _ => judgeWindow_posts) _ s

theorem resolveSlot_posts {i : Nat} {a : Int} {d : Option Dir} {s : State} : Posts s (resolveSlot i a d s) := by
  unfold resolveSlot
  split
  · exact posts_trans (posts_of_keeps setTrigSlot_keeps (by decide)) (posts_ite fire_posts posts_refl)
  · exact posts_refl

theorem resolveAnchors_posts {set : List (Nat × Int)} {d : Option Dir} {s : State} :
    Posts s (resolveAnchors set d s) := by
  refine posts_foldl (fun s i => ?_) _ s
  split
  · exact resolveSlot_posts
  · exact posts_refl

theorem orphanSlot_posts {i : Nat} {d : Option Dir} {s : State} : Posts s (orphanSlot i d s) := by
  unfold orphanSlot
  split
  · exact posts_trans (posts_of_keeps setTrigSlot_keeps (by decide)) triggerNotice_posts
  · exact posts_refl

theorem orphanPanel_posts {tag : Nat} {d : Option Dir} {s : State} : Posts s (orphanPanel tag d s) :=
  posts_foldl (fun _ _ => posts_ite orphanSlot_posts posts_refl) _ s

theorem removePanel_posts {p : Panel} {d : Option Dir} {s : State} : Posts s (removePanel p d s) := by
  have gone : Posts s (dropRef p.profile (s.upPq fun q =>
      { q with queue := without p.tag q.queue, slots := q.slots.map (Slot.emptied p.tag) })) :=
    posts_of_keeps (keeps_seq upPq_keeps dropRef_keeps (n := [.pq, .prf]) (by decide) (by decide)) (by decide)
  exact posts_ite (posts_trans gone orphanPanel_posts) gone

theorem flushReport_posts {d : Option Dir} {s : State} : Posts s (flushReport d s) := by
  unfold flushReport
  split
  · exact posts_refl
  · refine posts_ite ?_ posts_refl
    split
    · exact posts_trans (posts_of_keeps upPq_keeps (by decide)) (posts_trans place_posts removePanel_posts)
    · exact posts_of_keeps upPq_keeps (by decide)

theorem becomeDone_posts {tag : Nat} {d : Option Dir} {s : State} : Posts s (becomeDone tag d s) :=
  posts_trans (posts_of_keeps upPq_keeps (by decide)) flushReport_posts

theorem withdraw_posts {txn tag : Nat} {s : State} : Posts s (withdraw txn tag s) :=
  posts_ite (posts_of_keeps upHead_keeps (by decide)) warn_posts

theorem refusal_posts {num : Nat} {p : Panel} {counted : Option EngineReason} {d : Option Dir} {s : State} :
    Posts s (refusal num p counted d s) :=
  posts_trans (posts_of_keeps upPq_keeps (by decide)) (posts_ite becomeDone_posts posts_refl)

theorem startingDeadline_posts {t : Txn} {d : Option Dir} {s : State} : Posts s (startingDeadline t d s) := by
  unfold startingDeadline
  split
  · exact posts_trans withdraw_posts refusal_posts
  · exact posts_trans (posts_of_keeps upPq_keeps (by decide)) withdraw_posts

theorem withdrawStarting_posts {s : State} : Posts s (withdrawStarting s) := by
  unfold withdrawStarting
  split
  · exact posts_refl
  · split
    · exact posts_trans withdraw_posts refusal_posts
    · exact posts_trans (posts_of_keeps upPq_keeps (by decide)) withdraw_posts

theorem rejectTrigger_posts {tag : Nat} {a : Int} {d : Option Dir} {s : State} : Posts s (rejectTrigger tag a d s) := by
  unfold rejectTrigger
  split
  · exact posts_trans (posts_of_keeps setTrigSlot_keeps (by decide)) resolveSlot_posts
  · exact posts_trans (posts_of_keeps updPanel_keeps (by decide)) warn_posts

theorem afterPrint_posts {tag : Nat} {d : Option Dir} {s : State} : Posts s (afterPrint tag d s) := by
  unfold afterPrint
  split
  · refine posts_ite ?_ posts_refl
    exact posts_ite (posts_trans (posts_of_keeps updPanel_keeps (by decide)) rejectTrigger_posts)
      (posts_of_keeps updPanel_keeps (by decide))
  · exact posts_refl

theorem doneDeadline_posts {t : Txn} {d : Option Dir} {s : State} : Posts s (doneDeadline t d s) :=
  posts_trans (posts_of_keeps upPq_keeps (by decide)) (posts_trans withdraw_posts
    (posts_trans (posts_of_keeps updPanel_keeps (by decide)) (posts_trans warn_posts afterPrint_posts)))

theorem fabricCheck_posts {p : Panel} {s : State} : Posts s (fabricCheck p s) :=
  posts_ite posts_refl (posts_trans (posts_of_keeps updPanel_keeps (by decide)) warn_posts)

theorem arrive_posts {tag : Nat} {d : Option Dir} {s : State} : Posts s (arrive tag d s) := by
  unfold arrive
  split
  · have came := fun p f => posts_trans (fabricCheck_posts (p := p) (s := s))
      (posts_of_keeps (updPanel_keeps (tag := tag) (f := f)) (by decide))
    exact posts_ite (posts_trans (came _ _) rejectTrigger_posts) (came _ _)
  · exact posts_refl

theorem arriveReached_posts {d : Option Dir} {s : State} : Posts s (arriveReached d s) :=
  posts_foldl (fun _ _ => arrive_posts) _ s

/-! ## A count update raises no fault (01 R7) -/

theorem missStep_posts {tag : Nat} {s : State} : Posts s (missStep tag s) :=
  posts_ite (posts_trans (posts_of_keeps upMrk_keeps (by decide)) warn_posts) (posts_of_keeps upMrk_keeps (by decide))

theorem expirePanel_posts {q : Panel} {s : State} : Posts s (expirePanel s q) :=
  posts_ite (posts_trans (posts_of_keeps updPanel_keeps (by decide))
    (posts_trans (posts_of_keeps setArrival_keeps (by decide)) missStep_posts))
    (posts_of_keeps setArrival_keeps (by decide))

theorem markUpdate_posts {old new : Int} {s : State} : Posts s (markUpdate old new s) :=
  posts_ite
    (posts_trans (posts_of_keeps upMrk_keeps (by decide))
      (posts_trans (posts_foldl (fun _ _ => expirePanel_posts) _ _) resolveAnchors_posts))
    (posts_ite (posts_of_keeps upMrk_keeps (by decide)) posts_refl)

theorem deadlineAt_posts {new : Int} {t : Txn} {s : State} : Posts s (deadlineAt new s t) := by
  unfold deadlineAt
  split
  · cases t.phase with
    | awaitAccept => exact posts_ite startingDeadline_posts posts_refl
    | printing => exact posts_ite doneDeadline_posts posts_refl
  · exact posts_refl

theorem deadlineUpdate_posts {new : Int} {s : State} : Posts s (deadlineUpdate new s) :=
  posts_foldl (fun _ _ => deadlineAt_posts) _ s

theorem judgePanel_posts {p : Panel} {s : State} : Posts s (judgePanel p s) := by
  unfold judgePanel
  split
  · exact posts_refl
  · exact posts_trans (posts_of_keeps updPanel_keeps (by decide))
      (posts_trans (posts_ite (posts_of_keeps upPrf_keeps (by decide)) posts_refl) becomeDone_posts)

theorem panelDone_posts {tag : Nat} {s : State} : Posts s (panelDone tag s) := by
  have judge : ∀ {t : State}, Posts t (match t.queued? tag with | some p => judgePanel p t | none => t) := by
    intro t
    split
    · exact judgePanel_posts
    · exact posts_refl
  refine posts_trans ?_ judge
  split
  · refine posts_ite ?_ posts_refl
    split
    · exact doneDeadline_posts
    · exact posts_refl
  · exact posts_refl

theorem doseUpdate_posts {old new : Int} {s : State} : Posts s (doseUpdate old new s) :=
  posts_trans (posts_of_keeps createProbes_keeps (by decide))
    (posts_trans (posts_of_keeps exitProbes_keeps (by decide)) (posts_foldl (fun _ _ => panelDone_posts) _ _))

theorem ppUpdate_posts {old new : Int} {s : State} : Posts s (ppUpdate old new s) := by
  have tracked : Posts s
      (seekUpdate old new (markUpdate old new (judgeWindows .paper old new (fireCrossed .paper old new s)))) :=
    posts_trans (posts_trans fireCrossed_posts judgeWindows_posts)
      (posts_trans markUpdate_posts (posts_of_keeps seekUpdate_keeps (by decide)))
  refine posts_trans ?_ (posts_of_keeps decide_keeps (by decide))
  exact posts_ite
    (posts_trans tracked (posts_trans deadlineUpdate_posts (posts_trans arriveReached_posts doseUpdate_posts))) tracked

theorem fpUpdate_posts {old new : Int} {s : State} : Posts s (fpUpdate old new s) :=
  posts_trans (posts_trans fireCrossed_posts judgeWindows_posts) (posts_of_keeps spliceUpdate_keeps (by decide))

theorem handOn_posts {ch : Chan} {old new : Int} {s : State} : Posts s (handOn ch old new s) := by
  cases ch with
  | paper => exact ppUpdate_posts
  | fabric => exact fpUpdate_posts
  | drum => exact posts_refl

/-- A count update leaves the motion controller alone but for the seek record. -/
theorem handOn_mot (ch : Chan) (old new : Int) (s : State) :
    ∃ k, (handOn ch old new s).mot = { s.mot with seek := k } := by
  cases ch with
  | paper =>
    have before : (markUpdate old new (judgeWindows .paper old new (fireCrossed .paper old new s))).mot = s.mot :=
      (markUpdate_keeps .mot (by decide)).trans
        ((judgeWindows_keeps .mot (by decide)).trans (fireCrossed_keeps .mot (by decide)))
    refine ⟨s.mot.seek.count old new, (decide_keeps .mot (by decide)).trans ?_⟩
    have tracked : (seekUpdate old new (markUpdate old new
        (judgeWindows .paper old new (fireCrossed .paper old new s)))).mot =
          { s.mot with seek := s.mot.seek.count old new } := by
      show ({ (markUpdate _ _ _).mot with seek := (markUpdate _ _ _).mot.seek.count old new } : Motion) = _
      rw [before]
    dsimp only
    split
    · exact (doseUpdate_keeps .mot (by decide)).trans
        ((arriveReached_keeps .mot (by decide)).trans ((deadlineUpdate_keeps .mot (by decide)).trans tracked))
    · exact tracked
  | fabric => exact ⟨s.mot.seek, fpUpdate_keeps .mot (by decide)⟩
  | drum => exact ⟨s.mot.seek, rfl⟩

/-! ## The motion controller and a fault (02 R24) -/

/-- The motion controller after a critical fault: the line of the table of 02 R24, a MOVING move suspended, and the speed
kept; the nip, the hold and the target with it, unless the line enters HALTING. -/
structure Motion.Faulted (m m' : Motion) : Prop where
  line : m'.line = faultLine m.line m.vref
  vref : m'.vref = m.vref
  drive : m'.drive = m.drive
  drum : m'.drum = m.drum
  seek : m'.seek = m.seek.suspend .fault
  rest : m'.line ≠ .halting → m' = { m with line := m'.line, seek := m'.seek }
  hold : m'.hold = m.hold ∨ m'.hold = .stopped
  nipTimer : m'.nipTimer = m.nipTimer ∨ m'.nipTimer = .running 0 ∨ m'.nipTimer = .stopped

/-- A nip command outside STOPPING changes the nip state and its timer alone. -/
theorem nipOpen_mot_eq {s : State} (h : s.mot.line ≠ .stopping) :
    ∃ nip timer, (nipOpen s).mot = { s.mot with nip := nip, nipTimer := timer }
      ∧ (timer = s.mot.nipTimer ∨ timer = .running 0 ∨ timer = .stopped) := by
  unfold nipOpen
  split
  · exact ⟨_, _, rfl, .inl rfl⟩
  · cases hp : s.pins.openPair
    · exact ⟨.opening, .running 0, by simp [hp], .inr (.inl rfl)⟩
    · exact ⟨.opened, .stopped, by simp [hp, nipOpened, h], .inr (.inr rfl)⟩

theorem enterHalting_mot (s : State) :
    ∃ nip timer, (enterHalting s).mot =
        { s.mot with line := .halting, target := 0, hold := .stopped, nip := nip, nipTimer := timer }
      ∧ (timer = s.mot.nipTimer ∨ timer = .running 0 ∨ timer = .stopped) := by
  obtain ⟨nip, timer, h, ht⟩ := nipOpen_mot_eq
    (s := (setLine .halting .fault s).upMot fun m => { m with target := 0, hold := .stopped }) (by simp)
  refine ⟨nip, timer, (withdrawStarting_keeps .mot (by decide)).trans (h.trans ?_), ?_⟩
  · simp
  · simpa using ht

theorem faulted_of_entering {s : State} (h : faultLine s.mot.line s.mot.vref = .halting) :
    s.mot.Faulted (enterHalting (suspendForFault s)).mot := by
  obtain ⟨nip, timer, e, ht⟩ := enterHalting_mot (suspendForFault s)
  rw [e]
  exact ⟨h.symm, rfl, rfl, rfl, rfl, fun hl => absurd rfl hl, .inr rfl, ht⟩

theorem faulted_of_stopping {s : State} (h : faultLine s.mot.line s.mot.vref = .faulted) :
    s.mot.Faulted (setLine .faulted .fault (suspendForFault s)).mot := by
  rw [setLine_mot]
  exact ⟨h.symm, rfl, rfl, rfl, rfl, fun _ => rfl, .inl rfl, .inl rfl⟩

theorem faultMotion_faulted (s : State) : s.mot.Faulted (faultMotion s).mot := by
  unfold faultMotion
  split <;> rename_i h
  case h_1 | h_2 => exact faulted_of_entering (by rw [h]; rfl)
  case h_3 =>
    split <;> rename_i hv
    · exact faulted_of_entering (by rw [h]; exact if_pos hv)
    · exact faulted_of_stopping (by rw [h]; exact if_neg hv)
  case h_4 | h_5 | h_6 => exact faulted_of_stopping (by rw [h]; rfl)
  case h_7 | h_8 => exact ⟨by rw [h]; exact h, rfl, rfl, rfl, rfl, fun _ => rfl, .inl rfl, .inl rfl⟩

theorem enterHalting_posts {s : State} : Posts s (enterHalting s) :=
  posts_trans setLine_posts (posts_trans (posts_of_keeps upMot_keeps (by decide))
    (posts_trans nipOpen_posts withdrawStarting_posts))

theorem faultMotion_posts {s : State} : Posts s (faultMotion s) := by
  have suspended : Posts s (suspendForFault s) := posts_of_keeps upMot_keeps (by decide)
  unfold faultMotion
  split
  case h_1 | h_2 => exact posts_trans suspended enterHalting_posts
  case h_3 => exact posts_ite (posts_trans suspended enterHalting_posts) (posts_trans suspended setLine_posts)
  case h_4 | h_5 | h_6 => exact posts_trans suspended setLine_posts
  case h_7 | h_8 => exact suspended

/-! ## A critical fault raised (10 R169) -/

/-- Once the latch has taken a fault, the rest of raising it posts notices alone. -/
theorem raise_posts (c : Cause) (i : Option Nat) (s : State) :
    Posts (s.upFlt fun f => f.take (s.recordOf c i)) (raise c i s) :=
  posts_trans faultMotion_posts notice_posts

theorem take_frames (f : FaultMon) (r : Record) : (f.take r).frames = f.frames ∧ (f.take r).dropped = f.dropped := by
  unfold FaultMon.take; split <;> exact ⟨rfl, rfl⟩

theorem raise_frames {c : Cause} {i : Option Nat} {s : State} : ∀ x ∈ s.flt.frames, x ∈ (raise c i s).flt.frames :=
  fun x hx => (raise_posts c i s).frames x ((take_frames s.flt (s.recordOf c i)).1.symm ▸ hx)

theorem raise_dropped {c : Cause} {i : Option Nat} {s : State} (h : s.flt.dropped = true) :
    (raise c i s).flt.dropped = true :=
  (raise_posts c i s).dropped ((take_frames _ _).2.trans h)

theorem raise_latchTakes (c : Cause) (i : Option Nat) (s : State) : LatchTakes c i s (raise c i s) := by
  have p := raise_posts c i s
  unfold LatchTakes
  cases h : s.flt.latch with
  | none =>
    refine ⟨p.latch.trans ?_, p.further.trans ?_, p.furtherCount.trans ?_⟩ <;>
      simp [FaultMon.take, h, State.recordOf]
  | some r =>
    refine ⟨p.latch.trans ?_, p.further.trans ?_, p.furtherCount.trans ?_⟩ <;>
      simp [FaultMon.take, h, State.recordOf, satAdd]

theorem raise_faulted (c : Cause) (i : Option Nat) (s : State) : s.mot.Faulted (raise c i s).mot := by
  have h := faultMotion_faulted (s.upFlt fun f => f.take (s.recordOf c i))
  rw [show (raise c i s).mot = (faultMotion (s.upFlt fun f => f.take (s.recordOf c i))).mot from notice_mot _ _]
  exact h

theorem raise_faultTaken (c : Cause) (i : Option Nat) (s : State) : FaultTaken c i s (raise c i s) :=
  ⟨raise_latchTakes c i s, (raise_faulted c i s).line⟩

/-- The line a fault leaves, and what a second fault leaves there (02 R24). -/
theorem faultLine_fault (l : LineState) (v : Int) : faultLine l v = .halting ∨ faultLine l v = .faulted := by
  cases l <;> simp [faultLine]
  omega

theorem faultLine_faultLine (l : LineState) (v : Int) : faultLine (faultLine l v) v = faultLine l v := by
  rcases faultLine_fault l v with h | h <;> rw [h] <;> rfl

/-- A fault is recorded: the latch is not empty. -/
theorem raise_latch_ne (c : Cause) (i : Option Nat) (s : State) : (raise c i s).flt.latch ≠ none := by
  have h := raise_latchTakes c i s
  unfold LatchTakes at h
  cases hl : s.flt.latch <;> rw [hl] at h <;> simp [h.1]

end Sys2Proof.Machine
end

