-- ==== Sys2Proof/Proofs/Supervision.lean ====
section
/-! PROOF. The supervision events: each brings its timer to the limit and raises its fault. -/

namespace Sys2Proof.Machine
open Sys2Proof

/-- A timer brought to its limit before the fault is raised is not seen by the latch. -/
theorem FaultTaken.of_timer {c : Cause} {i : Option Nat} {s u : State} (record : u.recordOf c i = s.recordOf c i)
    (latch : u.flt.latch = s.flt.latch) (further : u.flt.further = s.flt.further)
    (count : u.flt.furtherCount = s.flt.furtherCount) (vref : u.mot.vref = s.mot.vref) :
    FaultTaken c i s (raise c i u) := by
  have line : u.mot.line = s.mot.line := congrArg Record.line record
  obtain ⟨taken, moved⟩ := raise_faultTaken c i u
  refine ⟨?_, by rw [moved, line, vref]⟩
  unfold LatchTakes at taken ⊢
  rw [latch, further, count] at taken
  cases h : s.flt.latch with
  | none => rw [h] at taken; exact ⟨taken.1.trans (congrArg some record), taken.2⟩
  | some r => rw [h] at taken; exact taken

@[simp] theorem loops_get_set {α : Type} (x : Loops α) (l : Loop) (v : α) : (x.set l v).get l = v := by
  cases l <;> rfl

theorem silence_raises (ch : Chan) (s : State) (h : (s.cnt.chan.get ch).silence.isRunning = true) :
    FaultTaken .encoderSilent (some ch.num) s (silenceExpires ch s)
      ∧ ((silenceExpires ch s).cnt.chan.get ch).silence = .standing s.par.tSil.toNat := by
  rw [silenceExpires, if_pos h]
  refine ⟨.of_timer ?_ rfl rfl rfl rfl, ?_⟩
  · cases ch <;> rfl
  · rw [raise_cnt]
    exact congrArg Channel.silence (channels_get_set_same _ _ _)

theorem stall_raises (s : State) (h0 : 0 < s.cnt.stall) (h : s.cnt.stall < 500) :
    FaultTaken .stall (some 2) s (stallExpires s) ∧ (stallExpires s).cnt = { s.cnt with stall := 500 } := by
  rw [stallExpires, if_pos (by simp [h0, Config.stallTime, h])]
  exact ⟨.of_timer rfl rfl rfl rfl rfl, raise_cnt _ _ _⟩

theorem nipTimeout_raises (s : State) (h : s.mot.nipTimer.isRunning = true) :
    FaultTaken .nipTimeout none s (nipTimeout s)
      ∧ ((nipTimeout s).mot.line ≠ .halting →
          (nipTimeout s).mot.nipTimer = .standing s.par.tNip.toNat ∧ (nipTimeout s).mot.nip = s.mot.nip) := by
  rw [nipTimeout, if_pos h]
  refine ⟨.of_timer rfl rfl rfl rfl rfl, fun hl => ?_⟩
  have rest := (raise_faulted .nipTimeout none
    (s.upMot fun m => { m with nipTimer := .standing s.par.tNip.toNat })).rest hl
  rw [nipExpires, rest]
  exact ⟨rfl, rfl⟩

/-- A limit of a loop: the fault is raised with the loop in FAULT. -/
theorem loopFault_raises (l : Loop) (c : LoopCause) (f : Cause) (s : State) :
    FaultTaken f (some l.num) s (loopFault l c f s)
      ∧ ((loopFault l c f s).ten.get l).state = .fault ∧ ((loopFault l c f s).ten.get l).cause = some c
      ∧ ((loopFault l c f s).ten.get l).out = 0 := by
  have loop : (loopFault l c f s).ten.get l = (s.ten.get l).toFault c := by
    rw [loopFault, raise_ten]
    exact loops_get_set _ _ _
  rw [loop]
  exact ⟨.of_timer rfl rfl rfl rfl rfl, rfl, rfl, rfl⟩

theorem judged_iff (r : LoopRec) : r.judged = true ↔ r.state = .regulate ∨ r.state = .hold := by
  simp [LoopRec.judged]

theorem mains_raises (s : State) (h : s.heat.lostTimer.isRunning = true) :
    FaultTaken .mainsLost none s (mainsExpires s) ∧ (mainsExpires s).heat = s.heat.mainsGone := by
  rw [mainsExpires, if_pos h]
  exact ⟨.of_timer rfl rfl rfl rfl rfl, raise_heat _ _ _⟩

theorem mainsGone_zone (h : Heat) (z : Zone) :
    (h.mainsGone.zones.get z).ssr = false ∧ (h.mainsGone.zones.get z).credit = 0
      ∧ (h.mainsGone.zones.get z).shortfall = false ∧ (h.mainsGone.zones.get z).shortCount = 0 := by
  cases z <;> exact ⟨rfl, rfl, rfl, rfl⟩

theorem link_raises (s : State) (h : s.flt.link.isRunning = true) :
    FaultTaken .linkLost none s (linkExpires s) := by
  rw [linkExpires, if_pos h]
  exact .of_timer rfl rfl rfl rfl rfl

theorem rangeFault_raises {ch : Chan} {old new : Channel} (s : State) (hch : ch ≠ .drum) (clear : old.overrange = false)
    (beyond : new.overrange = true) : rangeFault ch old new s = raise .positionRange (some ch.num) s :=
  if_pos (by simp [hch, clear, beyond])

/-- A count that leaves its range raises POSITION_RANGE before the update is handed on; the update raises no fault and
leaves the line (01 R6, R7). -/
theorem range_raises (ch : Chan) (ticks : Ticks) (s : State) (hch : ch ≠ .drum)
    (clear : (s.cnt.chan.get ch).overrange = false) (beyond : ((s.cnt.chan.get ch).take ticks).overrange = true) :
    ∃ r, (tickBatch ch ticks s).flt.latch = some r
      ∧ (s.flt.latch = none → r.cause = .positionRange ∧ r.inst = some ch.num)
      ∧ (tickBatch ch ticks s).mot.line = faultLine s.mot.line s.mot.vref := by
  let u := raise .positionRange (some ch.num)
    (s.upCnt fun k => { k with chan := k.chan.set ch ((s.cnt.chan.get ch).take ticks) })
  have batch : ∃ k, (tickBatch ch ticks s).flt.latch = u.flt.latch
      ∧ (tickBatch ch ticks s).mot = { u.mot with seek := k } := by
    dsimp only [tickBatch]
    rw [rangeFault_raises _ hch clear beyond]
    split
    · exact ⟨u.mot.seek, rfl, rfl⟩
    · obtain ⟨k, hk⟩ := handOn_mot ch (s.cnt.chan.get ch).count ((s.cnt.chan.get ch).take ticks).count u
      exact ⟨k, handOn_posts.latch, hk⟩
  obtain ⟨k, latch, mot⟩ := batch
  obtain ⟨taken, line⟩ := raise_faultTaken .positionRange (some ch.num)
    (s.upCnt fun k => { k with chan := k.chan.set ch ((s.cnt.chan.get ch).take ticks) })
  have line' : (tickBatch ch ticks s).mot.line = faultLine s.mot.line s.mot.vref := by rw [mot]; exact line
  unfold LatchTakes at taken
  cases h : s.flt.latch with
  | none =>
    rw [show (State.upCnt s _).flt.latch = none from h] at taken
    exact ⟨_, latch.trans taken.1, fun _ => ⟨rfl, rfl⟩, line'⟩
  | some r =>
    rw [show (State.upCnt s _).flt.latch = some r from h] at taken
    exact ⟨r, latch.trans taken.1, nofun, line'⟩

/-- Settles O14, event by event. -/
theorem supervisionRaisesItsFault : Obligations.SupervisionRaisesItsFault := by
  refine ⟨fun ch s h => ?_, fun s h0 h => ?_, fun s h => ?_, fun l s hs hb => ?_, fun l s hs ho => ?_, fun s h => ?_,
    fun s h => ?_, fun ch ticks s hch clear beyond => ?_⟩
  · exact ⟨_, rfl, (silence_raises ch s h).1, silenceExpires_keeps, (silence_raises ch s h).2⟩
  · exact ⟨_, rfl, (stall_raises s h0 h).1, stallExpires_keeps, (stall_raises s h0 h).2⟩
  · exact ⟨_, rfl, (nipTimeout_raises s h).1, nipTimeout_keeps, (nipTimeout_raises s h).2⟩
  · refine ⟨webBreak l s, rfl, ?_⟩
    obtain ⟨taken, loop⟩ := loopFault_raises l .webBreak .webBreak s
    have breaks : webBreak l s = loopFault l .webBreak .webBreak s :=
      if_pos (by rw [Bool.and_eq_true, decide_eq_true_eq]; exact ⟨(judged_iff _).mpr hs, hb⟩)
    exact ⟨breaks ▸ taken, webBreak_keeps, breaks ▸ loop⟩
  · refine ⟨overTension l s, rfl, ?_⟩
    obtain ⟨taken, loop⟩ := loopFault_raises l .overTension .overTension s
    have trips : overTension l s = loopFault l .overTension .overTension s :=
      if_pos (by rw [Bool.and_eq_true, decide_eq_true_eq]; exact ⟨(judged_iff _).mpr hs, ho⟩)
    exact ⟨trips ▸ taken, overTension_keeps, trips ▸ loop⟩
  · obtain ⟨taken, heat⟩ := mains_raises s h
    refine ⟨_, rfl, taken, mainsExpires_keeps, ?_, ?_, ?_, fun z => ?_⟩ <;> rw [heat]
    · rfl
    · rfl
    · rfl
    · exact mainsGone_zone s.heat z
  · exact ⟨_, rfl, link_raises s h, linkExpires_keeps⟩
  · obtain ⟨r, latch, record, line⟩ := range_raises ch ticks s hch clear beyond
    exact ⟨_, r, rfl, latch, record, line⟩

end Sys2Proof.Machine
end

