-- ==== Sys2Proof/Proofs/ClearFault.lean ====
section
/-! PROOF. CLEAR_FAULT: which condition of a cause persists, and what an emptied latch leaves (10 R170, 02 R25). -/

namespace Sys2Proof.Machine
open Sys2Proof

/-! ## What is answered of a persisting cause -/

/-- `o` is the least number of those for which a condition holds, and none where it holds for none. -/
def LeastOf (holds : Option Nat → Prop) (o : Option (Option Nat)) : Prop :=
  (o = none ↔ ∀ i, ¬holds i) ∧ ∀ i, o = some i ↔ holds i ∧ ∀ j, holds j → i.getD 0 ≤ j.getD 0

theorem LeastOf.congr {holds other : Option Nat → Prop} {o : Option (Option Nat)} (h : LeastOf holds o)
    (e : ∀ i, other i ↔ holds i) : LeastOf other o := by
  rwa [show other = holds from funext fun i => propext (e i)]

theorem leastOf_false : LeastOf (fun _ => False) none := by
  simp [LeastOf]

/-- A cause that names one thing, or nothing. -/
theorem leastOf_one (i : Option Nat) (b : Bool) : LeastOf (fun j => j = i ∧ b = true) (if b then some i else none) := by
  cases b
  · simp [LeastOf]
  · refine ⟨by simp, fun j => ⟨?_, fun h => by rw [h.1.1]; rfl⟩⟩
    rintro ⟨⟩
    exact ⟨⟨rfl, rfl⟩, fun j hj => by rw [hj.1]⟩

/-- A cause with instances in ascending number. -/
theorem leastOf_firstWhere {α : Type} (p : α → Bool) (num : α → Nat) {l : List α}
    (sorted : l.Pairwise fun a b => num a < num b) :
    LeastOf (fun i => ∃ a ∈ l, i = some (num a) ∧ p a = true) (firstWhere p num l) := by
  induction l with
  | nil => simp [LeastOf, firstWhere]
  | cons a l ih =>
    obtain ⟨least, sorted⟩ := List.pairwise_cons.mp sorted
    by_cases ha : p a = true
    · have first : firstWhere p num (a :: l) = some (some (num a)) := by simp [firstWhere, ha]
      rw [first]
      refine ⟨⟨nofun, fun h => absurd ⟨a, List.mem_cons_self, rfl, ha⟩ (h _)⟩, fun i => ⟨?_, ?_⟩⟩
      · rintro ⟨⟩
        refine ⟨⟨a, List.mem_cons_self, rfl, ha⟩, ?_⟩
        rintro j ⟨b, hb, rfl, -⟩
        rcases List.mem_cons.mp hb with rfl | hb
        · exact Nat.le_refl _
        · exact Nat.le_of_lt (least b hb)
      · rintro ⟨⟨b, hb, rfl, -⟩, below⟩
        rcases List.mem_cons.mp hb with rfl | hb
        · rfl
        · have : num b ≤ num a := below _ ⟨a, List.mem_cons_self, rfl, ha⟩
          exact absurd (least b hb) (Nat.not_lt.mpr this)
    · rw [show firstWhere p num (a :: l) = firstWhere p num l by simp [firstWhere, ha]]
      refine (ih sorted).congr fun i => ?_
      simp [ha]

theorem zones_ascend : Zone.all.Pairwise fun a b => a.num < b.num := by decide
theorem loops_ascend : Loop.all.Pairwise fun a b => a.num < b.num := by decide
theorem chans_ascend : [Chan.paper, .fabric, .drum].Pairwise fun a b => a.num < b.num := by decide
theorem counts_ascend : [Chan.paper, .fabric].Pairwise fun a b => a.num < b.num := by decide

@[simp] theorem mem_zones (z : Zone) : z ∈ Zone.all := by cases z <;> decide
@[simp] theorem mem_loops (l : Loop) : l ∈ Loop.all := by cases l <;> decide

theorem isStanding_iff (t : Timer) : t.isStanding = true ↔ ∃ ms, t = .standing ms := by
  cases t <;> simp [Timer.isStanding]

theorem lags_iff (v speed : Int) : lags v speed = true ↔ 1000 ≤ v ∧ 2 * |speed| < v := by
  simp only [lags, Bool.and_eq_true, decide_eq_true_eq]
  rfl

theorem overPersists_iff (r : LoopRec) :
    overPersists r = true ↔ r.state = .fault ∧ r.cause = some .overTension
      ∧ ∃ w, r.set = some w ∧ w * r.fOver / 100 < r.force := by
  unfold overPersists
  cases r.set with
  | none => simp
  | some w =>
    simp only [Bool.and_eq_true, decide_eq_true_eq, and_assoc, Option.some.injEq, exists_eq_left']
    rfl

theorem zone_persists (flag : ZoneRec → Bool) (s : State) :
    LeastOf (fun i => ∃ z : Zone, i = some z.num ∧ flag (s.heat.zones.get z) = true)
      (firstWhere (fun z => flag (s.heat.zones.get z)) Zone.num Zone.all) :=
  (leastOf_firstWhere _ _ zones_ascend).congr fun i => by simp

/-! ## An emptied latch -/

theorem findSome?_recorded (l : List Cause) (p : Cause → Option (Option Nat)) :
    (l.findSome? fun c => (p c).map fun i => (c, i)) =
      (l.find? fun c => (p c).isSome).map fun c => (c, (p c).getD none) := by
  induction l with
  | nil => rfl
  | cons c l ih => cases h : p c <;> simp [h, ih]

theorem clearFaultOp_unlatched {s : State} (h : s.flt.latch = none) : clearFaultOp s = (s, ok) :=
  if_pos (by simp [State.latched, h])

theorem clearFaultOp_halting {s : State} {r : Record} (h : s.flt.latch = some r) (hl : s.mot.line = .halting) :
    clearFaultOp s = (s, refusedWith .busy) := by
  simp [clearFaultOp, State.latched, h, hl]

/-- Outside HALTING a latched fault is cleared unless the condition of a recorded cause holds. -/
theorem clearFaultOp_latched {s : State} {r : Record} (h : s.flt.latch = some r) (hl : s.mot.line ≠ .halting) :
    clearFaultOp s = match (r.cause :: Cause.all.filter (· ∈ s.flt.further)).find? fun k => (s.persists k).isSome with
      | some k => (s, refusedWith (.persists k ((s.persists k).getD none)))
      | none => (clearLatch s, ok) := by
  have recorded : s.flt.recorded = r.cause :: Cause.all.filter (· ∈ s.flt.further) := by
    have member : s.flt.further.contains = fun c => decide (c ∈ s.flt.further) := funext fun c => by simp
    simp [FaultMon.recorded, h, member]
  simp only [clearFaultOp, State.latched, h, Option.isSome_some, Bool.not_true, Bool.false_eq_true, if_false, if_neg hl,
    State.persisting, recorded, findSome?_recorded]
  cases (r.cause :: Cause.all.filter (· ∈ s.flt.further)).find? fun k => (s.persists k).isSome <;> rfl

theorem clearLatch_latch (s : State) :
    (clearLatch s).flt.latch = none ∧ (clearLatch s).flt.further = [] ∧ (clearLatch s).flt.furtherCount = 0 :=
  have p := setLine_posts (new := s.heat.clearedLine) (e := .clearFault)
    (s := s.upFlt fun f => { f with latch := none, further := [], furtherCount := 0 })
  ⟨p.latch, p.further, p.furtherCount⟩

theorem clearLatch_mot (s : State) : (clearLatch s).mot = { s.mot with line := s.heat.clearedLine } :=
  setLine_mot _ _ _

theorem clearLatch_ten (s : State) (l : Loop) :
    (clearLatch s).ten.get l = if (s.ten.get l).state = .fault then (s.ten.get l).toOff else s.ten.get l := by
  have ten : (clearLatch s).ten = s.ten.map fun r => if r.state = .fault then r.toOff else r :=
    congrArg (Loops.map fun r : LoopRec => if r.state = .fault then r.toOff else r)
      (setLine_keeps (new := s.heat.clearedLine) (event := .clearFault)
        (s := s.upFlt fun f => { f with latch := none, further := [], furtherCount := 0 }) .ten (by decide))
  rw [ten]
  cases l <;> rfl

theorem clearedLine_eq (h : Heat) :
    h.clearedLine = if h.on = false then .off else if h.ready = true then .ready else .warming := by
  unfold Heat.clearedLine
  cases h.on <;> rfl

/-- Settles O20: each cause's condition, then the cases of R170 in their order. -/
theorem clearFaultEmptiesTheLatch : Obligations.ClearFaultEmptiesTheLatch := by
  refine ⟨fun s => ?_, fun tag s h => ?_⟩
  · intro zone holds c
    show LeastOf (holds c) (s.persists c)
    cases c with
    | webBreak | spliceOverflow | linkLost => exact leastOf_false
    | overTension =>
      exact (leastOf_firstWhere _ _ loops_ascend).congr fun i => by simp [holds, overPersists_iff]
    | overheat => exact zone_persists ZoneRec.overheat s
    | drumCold => exact zone_persists ZoneRec.cold s
    | zoneSensor =>
      exact (zone_persists (fun r => decide (r.sensor = .lost)) s).congr fun i => by simp [holds, zone]
    | mainsLost => exact leastOf_one none s.heat.lost
    | nipTimeout => exact (leastOf_one none s.mot.nipTimer.isStanding).congr fun i => by simp [holds, isStanding_iff]
    | stall =>
      exact (leastOf_one (some 2) (lags s.mot.vref s.cnt.chan.drum.speed)).congr fun i => by simp [holds, lags_iff]
    | encoderSilent =>
      refine (leastOf_firstWhere _ _ chans_ascend).congr fun i => ?_
      have every : ∀ k : Chan, k ∈ [Chan.paper, .fabric, .drum] := fun k => by cases k <;> decide
      have floor : Config.fastFloor ≤ s.mot.vref ↔ 1000 ≤ s.mot.vref := Iff.rfl
      simp only [holds, silentPersists, Bool.and_eq_true, isStanding_iff, decide_eq_true_eq, every, true_and, floor]
      tauto
    | positionRange =>
      refine (leastOf_firstWhere _ _ counts_ascend).congr fun i => ?_
      have named : ∀ k : Chan, k ∈ [Chan.paper, .fabric] ↔ k ≠ .drum := fun k => by cases k <;> decide
      simp only [holds, named]
      tauto
    | estop => exact leastOf_one none s.pins.estop
  · have plain : ∀ {t : State}, clearFaultOp s.acting = (t, ok) → Answered (.clearFault tag) 0x58 tag .ok [] s t :=
      fun hop => answered_of_op (c := .clearFault tag) h rfl hop
    have no : ∀ {st : Status}, clearFaultOp s.acting = (s.acting, refusedWith st) →
        Refused (.clearFault tag) 0x58 tag st s :=
      fun hop => refused_of_op (c := .clearFault tag) h rfl hop
    cases hf : s.flt.latch with
    | none => exact plain (clearFaultOp_unlatched hf)
    | some r =>
      dsimp only
      split
      · next hl => exact no (clearFaultOp_halting hf hl)
      · next hl =>
        have same : s.acting.persists = s.persists := funext fun k => by cases k <;> rfl
        have op := clearFaultOp_latched (s := s.acting) hf hl
        rw [same, acting_further] at op
        split
        · next k hk => rw [hk] at op; exact no op
        · next hk =>
          rw [hk] at op
          obtain ⟨latch, further, count⟩ := clearLatch_latch s.acting
          refine ⟨clearLatch s.acting, plain op, clearLatch_keeps, latch, further, count, ?_, clearLatch_ten s.acting⟩
          rw [clearLatch_mot, clearedLine_eq]
          rfl

end Sys2Proof.Machine
end

