-- ==== Sys2Proof/Proofs/Governor.lean ====
section
/-! PROOF. The 10 ms sample (01 R8 to R10, 02 R22 to R29, 05 R82 to R88): the faults its blocks raise around the motion
controller, and what the motion controller does with the line they leave. -/

namespace Sys2Proof.Machine
open Sys2Proof

/-! ## Stages that may raise a fault -/

/-- What stays of the fault monitor where faults may be raised: the record of the latch, its further causes, the frames
of the transmit queue, the notices-dropped flag. -/
structure Reports (s t : State) : Prop where
  latch : ∀ r, s.flt.latch = some r → t.flt.latch = some r
  further : ∀ c ∈ s.flt.further, c ∈ t.flt.further
  frames : ∀ x ∈ s.flt.frames, x ∈ t.flt.frames
  dropped : s.flt.dropped = true → t.flt.dropped = true

theorem Posts.reports {s t : State} (h : Posts s t) : Reports s t where
  latch := fun _ hr => h.latch.trans hr
  further := fun _ hc => h.further ▸ hc
  frames := h.frames
  dropped := h.dropped

theorem Reports.trans {s t u : State} (h : Reports s t) (k : Reports t u) : Reports s u where
  latch := fun r hr => k.latch r (h.latch r hr)
  further := fun c hc => k.further c (h.further c hc)
  frames := fun x hx => k.frames x (h.frames x hx)
  dropped := fun hd => k.dropped (h.dropped hd)

theorem Reports.latch_none {s t : State} (h : Reports s t) (ht : t.flt.latch = none) : s.flt.latch = none := by
  cases hs : s.flt.latch with
  | none => rfl
  | some r => rw [h.latch r hs] at ht; exact nomatch ht

theorem raise_reports (c : Cause) (i : Option Nat) (s : State) : Reports s (raise c i s) := by
  have taken := raise_latchTakes c i s
  unfold LatchTakes at taken
  refine ⟨fun r hr => ?_, fun k hk => ?_, raise_frames, raise_dropped⟩
  · rw [hr] at taken; exact taken.1
  · cases hr : s.flt.latch with
    | none => rw [hr] at taken; rw [taken.2.1]; exact hk
    | some r =>
      rw [hr] at taken; rw [taken.2.1]
      split
      · exact hk
      · exact List.mem_append_left _ hk

theorem Motion.Faulted.trans {m n o : Motion} (h : m.Faulted n) (k : n.Faulted o) : m.Faulted o where
  line := by rw [k.line, h.line, h.vref, faultLine_faultLine]
  vref := k.vref.trans h.vref
  drive := k.drive.trans h.drive
  drum := k.drum.trans h.drum
  seek := by
    rw [k.seek, h.seek]
    unfold Seek.suspend
    split <;> simp_all
  rest := fun ho => by
    have hn : n.line ≠ .halting := fun hn => ho (by rw [k.line, hn]; rfl)
    rw [k.rest ho, h.rest hn]
  hold := k.hold.elim (fun e => h.hold.imp e.trans e.trans) .inr
  nipTimer := k.nipTimer.elim (fun e => h.nipTimer.imp e.trans (.imp e.trans e.trans)) .inr

/-- A stage of the sample: where `hit`, it has raised critical faults; else it leaves the motion controller and the fault
monitor alone. -/
structure Struck (hit : Prop) (s t : State) : Prop where
  faulted : hit → s.mot.Faulted t.mot ∧ t.flt.latch ≠ none
  spared : ¬hit → t.mot = s.mot ∧ t.flt = s.flt
  reports : Reports s t

theorem struck_of_raise {hit : Prop} {s u : State} {c : Cause} {i : Option Nat} (h : hit) (mot : u.mot = s.mot)
    (flt : u.flt = s.flt) : Struck hit s (raise c i u) where
  faulted := fun _ => ⟨mot ▸ raise_faulted c i u, raise_latch_ne c i u⟩
  spared := fun n => absurd h n
  reports := (posts_of_flt flt).reports.trans (raise_reports c i u)

theorem struck_of_not {hit : Prop} {s u : State} (h : ¬hit) (mot : u.mot = s.mot) (flt : u.flt = s.flt) :
    Struck hit s u where
  faulted := fun n => absurd n h
  spared := fun _ => ⟨mot, flt⟩
  reports := (posts_of_flt flt).reports

theorem Struck.trans {p q : Prop} {s t u : State} (h : Struck p s t) (k : Struck q t u) : Struck (p ∨ q) s u where
  faulted := fun hit => by
    by_cases hp : p
    · obtain ⟨moved, latch⟩ := h.faulted hp
      have kept : u.flt.latch ≠ none := fun hu => latch (k.reports.latch_none hu)
      by_cases hq : q
      · exact ⟨moved.trans (k.faulted hq).1, kept⟩
      · exact ⟨(k.spared hq).1 ▸ moved, kept⟩
    · obtain ⟨moved, latch⟩ := k.faulted (hit.resolve_left hp)
      exact ⟨(h.spared hp).1 ▸ moved, latch⟩
  spared := fun no => by
    obtain ⟨hp, hq⟩ := not_or.mp no
    exact ⟨(k.spared hq).1.trans (h.spared hp).1, (k.spared hq).2.trans (h.spared hp).2⟩
  reports := h.reports.trans k.reports

theorem Struck.congr {p q : Prop} {s t : State} (h : Struck p s t) (e : q ↔ p) : Struck q s t := by
  rwa [show q = p from propext e]

/-- A fault in this sample leaves the speed and the drive (02 R24). -/
theorem Struck.speed {p : Prop} {s t : State} (h : Struck p s t) :
    t.mot.vref = s.mot.vref ∧ t.mot.drive = s.mot.drive ∧ t.mot.drum = s.mot.drum := by
  by_cases hp : p
  · obtain ⟨moved, -⟩ := h.faulted hp
    exact ⟨moved.vref, moved.drive, moved.drum⟩
  · rw [(h.spared hp).1]; exact ⟨rfl, rfl, rfl⟩

/-- HALTING and FAULTED are kept. -/
theorem Struck.line_of_fault {p : Prop} {s t : State} (h : Struck p s t)
    (hl : s.mot.line = .halting ∨ s.mot.line = .faulted) : t.mot.line = s.mot.line := by
  by_cases hp : p
  · rw [(h.faulted hp).1.line]; rcases hl with hl | hl <;> rw [hl] <;> rfl
  · rw [(h.spared hp).1]

/-! ## The counting unit's stage (01 R10) -/

/-- The drum lags at the sample `s` that leaves `t`, and its timer reaches 500 ms. -/
def Stalls (s t : State) : Prop :=
  1000 ≤ s.mot.vref ∧ 2 * |t.cnt.chan.drum.speed| < s.mot.vref ∧ s.cnt.stall < 500 ∧ 490 ≤ s.cnt.stall

theorem sample_stall (k : Counting) (mask : Channels Bool) (v : Int) :
    (k.sample mask v).stall =
      if 1000 ≤ v ∧ 2 * |(k.sample mask v).chan.drum.speed| < v then min 500 (k.stall + 10) else 0 := by
  show stepStall (lags v (k.sample mask v).chan.drum.speed) k.stall = _
  unfold stepStall
  simp only [lags_iff]
  rfl

theorem stalls_iff (s : State) :
    stallReached s.cnt.stall (s.cnt.sample s.par.silMask s.mot.vref).stall = true ↔ Stalls s (countSample s) := by
  have timer : ∀ old new, stallReached old new = true ↔ old < 500 ∧ 500 ≤ new := fun old new => by
    rw [stallReached, Bool.and_eq_true, decide_eq_true_eq, decide_eq_true_eq]
    exact Iff.rfl
  rw [timer, sample_stall, Stalls, countSample_cnt]
  split
  · next h => obtain ⟨h1, h2⟩ := h; simp only [h1, h2, true_and]; omega
  · next h => exact ⟨fun k => absurd k.2 (by decide), fun k => absurd ⟨k.1, k.2.1⟩ h⟩

theorem countSample_struck (s : State) : Struck (Stalls s (countSample s)) s (countSample s) := by
  by_cases h : stallReached s.cnt.stall (s.cnt.sample s.par.silMask s.mot.vref).stall = true
  · have hit := (stalls_iff s).mp h
    rw [show countSample s = raise .stall (some 2) (s.upCnt fun c => c.sample s.par.silMask s.mot.vref) from if_pos h]
      at hit ⊢
    exact struck_of_raise hit rfl rfl
  · have spared := mt (stalls_iff s).mpr h
    rw [show countSample s = s.upCnt fun c => c.sample s.par.silMask s.mot.vref from if_neg h] at spared ⊢
    exact struck_of_not spared rfl rfl

/-! ## The tension unit's stage (05 R82, R87, R88) -/

/-- A loop has entered FAULT for one of its limits. -/
def Trips (l : Loop) (s t : State) : Prop :=
  (s.ten.get l).state ≠ .fault ∧ (t.ten.get l).state = .fault
    ∧ ((t.ten.get l).cause = some .webBreak ∨ (t.ten.get l).cause = some .overTension)

theorem Trips.congr {l : Loop} {s t s' t' : State} (hs : s'.ten.get l = s.ten.get l) (ht : t'.ten.get l = t.ten.get l) :
    Trips l s' t' ↔ Trips l s t := by
  rw [Trips, hs, ht]; rfl

theorem drive_state (r : LoopRec) (which : Loop) (ff kp ki : Int) : (r.drive which ff kp ki).state = r.state := by
  unfold LoopRec.drive
  split
  case h_2 => split <;> rfl
  all_goals rfl

theorem judge_state (r : LoopRec) (p : Params) : (r.judge p).state = r.state := by
  unfold LoopRec.judge; split <;> rfl

/-- The state of a loop at the sample is that of 05 R82. -/
theorem sample_state (r : LoopRec) (which : Loop) (s : State) (raw : Int) :
    (r.sample which s raw).state = loopStateAt s.heat.on s.pins.estop (r.read raw (s.loopSet which) s.par)
      (s.loopSet which) s.mot.vref (s.trg.effects.hold.get which) := by
  unfold LoopRec.sample
  dsimp only
  split <;> rename_i h <;> rw [h]
  · rfl
  · split
    · assumption
    · rfl
  all_goals rw [judge_state, drive_state]; rfl

theorem loopStateAt_fault {r : LoopRec} (h : r.state = .fault) (heat estop : Bool) (set : Option Int) (v : Int)
    (hold : Bool) : loopStateAt heat estop r set v hold = .off ∨ loopStateAt heat estop r set v hold = .fault := by
  cases heat <;> cases estop <;> simp [loopStateAt, h]

/-- A loop in FAULT is not judged at the sample. -/
theorem sample_judged {r : LoopRec} {which : Loop} {s : State} {raw : Int}
    (h : (r.sample which s raw).judged = true) : r.state ≠ .fault := by
  rw [judged_iff, sample_state] at h
  intro hr
  have off := loopStateAt_fault (r := r.read raw (s.loopSet which) s.par) hr s.heat.on s.pins.estop
    (s.loopSet which) s.mot.vref (s.trg.effects.hold.get which)
  rcases off with off | off <;> rw [off] at h <;> exact h.elim nofun nofun

/-- A loop that the sample itself takes to FAULT has the cause ESTOP. -/
theorem sample_fault {r : LoopRec} {which : Loop} {s : State} {raw : Int}
    (h : (r.sample which s raw).state = .fault) : r.state = .fault ∨ (r.sample which s raw).cause = some .estop := by
  rw [sample_state] at h
  unfold LoopRec.sample
  dsimp only
  rw [h]
  dsimp only
  split
  · next hr => exact .inl hr
  · exact .inr rfl

theorem loops_get_set_ne {α : Type} (x : Loops α) {l k : Loop} (v : α) (h : k ≠ l) : (x.set l v).get k = x.get k := by
  cases l <;> cases k <;> first | rfl | exact absurd rfl h

theorem loopSample_other (raw : Loops Int) (s : State) (l k : Loop) (h : k ≠ l) :
    (loopSample raw s l).ten.get k = s.ten.get k := by
  unfold loopSample loopFault
  dsimp only
  split
  · rw [raise_ten]; simp only [State.upTen_ten, loops_get_set_ne _ _ h]
  · split
    · rw [raise_ten]; simp only [State.upTen_ten, loops_get_set_ne _ _ h]
    · simp only [State.upTen_ten, loops_get_set_ne _ _ h]

theorem reached_judged {r : LoopRec} {limit : Int} {t : Nat} (h : r.reached limit t = true) : r.judged = true := by
  rw [LoopRec.reached, Bool.and_eq_true, Bool.and_eq_true] at h
  exact h.1.1

theorem loopSample_struck (raw : Loops Int) (s : State) (l : Loop) :
    Struck (Trips l s (loopSample raw s l)) s (loopSample raw s l) := by
  let u := s.upTen fun t => t.set l ((t.get l).sample l s (raw.get l))
  have loop : u.ten.get l = (s.ten.get l).sample l s (raw.get l) := loops_get_set _ _ _
  have trips : ∀ c f, c = .webBreak ∨ c = .overTension → (u.ten.get l).judged = true →
      Trips l s (loopFault l c f u) := fun c f hc hj => by
    obtain ⟨-, state, cause, -⟩ := loopFault_raises l c f u
    exact ⟨sample_judged (loop ▸ hj), state, hc.imp (fun h => cause.trans (congrArg some h)) (fun h => cause.trans (congrArg some h))⟩
  show Struck (Trips l s (if _ then loopFault l .webBreak .webBreak u
    else if _ then loopFault l .overTension .overTension u else u)) s (if _ then _ else if _ then _ else u)
  split
  · next h => exact struck_of_raise (trips _ _ (.inl rfl) (reached_judged h)) rfl rfl
  · split
    · next h => exact struck_of_raise (trips _ _ (.inr rfl) (reached_judged h)) rfl rfl
    · refine struck_of_not ?_ rfl rfl
      rintro ⟨before, after, cause⟩
      rw [loop] at after cause
      rcases sample_fault after with h | h
      · exact before h
      · rw [h] at cause; exact cause.elim nofun nofun

/-- Each loop takes the sample once, and none touches another. -/
theorem tensionSample_struck (lc0 lc1 lc2 : Int) (s : State) :
    Struck (∃ l ∈ Loop.all, Trips l s (tensionSample lc0 lc1 lc2 s)) s (tensionSample lc0 lc1 lc2 s) := by
  let raw : Loops Int := ⟨lc1, lc0, lc2⟩
  let a := loopSample raw s .feed
  let b := loopSample raw a .unwind
  have feed : Trips .feed s (loopSample raw b .rewind) ↔ Trips .feed s a :=
    Trips.congr rfl ((loopSample_other raw b .rewind .feed (by decide)).trans
      (loopSample_other raw a .unwind .feed (by decide)))
  have unwind : Trips .unwind s (loopSample raw b .rewind) ↔ Trips .unwind a b :=
    Trips.congr (loopSample_other raw s .feed .unwind (by decide)).symm
      (loopSample_other raw b .rewind .unwind (by decide))
  have rewind : Trips .rewind s (loopSample raw b .rewind) ↔ Trips .rewind b (loopSample raw b .rewind) :=
    Trips.congr ((loopSample_other raw a .unwind .rewind (by decide)).trans
      (loopSample_other raw s .feed .rewind (by decide))).symm rfl
  have stages := ((loopSample_struck raw s .feed).trans (loopSample_struck raw a .unwind)).trans
    (loopSample_struck raw b .rewind)
  refine stages.congr ?_
  show (∃ l ∈ [Loop.feed, .unwind, .rewind], Trips l s (loopSample raw b .rewind)) ↔ _
  simp [feed, unwind, rewind, or_assoc]
  rfl

/-! ## The motion controller's stage (02 R22, R24, R26, R28, R29, R38) -/

theorem seekNotice_mot (s : State) : ∃ k, (seekNotice s).mot = { s.mot with seek := k } := by
  unfold seekNotice
  dsimp only
  split
  · exact ⟨_, notice_mot _ _⟩
  · exact ⟨s.mot.seek, rfl⟩

theorem seekNotice_posts {s : State} : Posts s (seekNotice s) :=
  posts_ite (posts_trans (posts_of_keeps upMot_keeps (by decide)) notice_posts) posts_refl

/-- The nip as the start of a hold finds it: CLOSED, in STOPPING (02 R22, R31 to R33). -/
theorem beginHold_mot (before : Int) (s : State) :
    (beginHold before s).mot =
      if ¬(s.mot.line = .stopping ∧ s.mot.nip = .closed ∧ 0 < before ∧ s.mot.vref = 0) then s.mot
      else if s.par.tHold ≠ 0 then { s.mot with hold := .running 0 }
      else if s.pins.openPair = false then { s.mot with nip := .opening, nipTimer := .running 0 }
      else { s.mot with nip := .opened, nipTimer := .stopped, line := .ready } := by
  unfold beginHold
  by_cases ends : s.mot.line = .stopping ∧ s.mot.nip = .closed ∧ 0 < before ∧ s.mot.vref = 0
  · obtain ⟨line, nip, moved, rest⟩ := ends
    rw [if_pos (by simp [line, nip, moved, rest]), if_neg (by simp [line, nip, moved, rest])]
    unfold startHold
    by_cases hold : s.par.tHold = 0
    · rw [if_pos hold, if_neg (by simpa using hold)]
      cases pair : s.pins.openPair <;> simp [nipOpen, nipOpened, nip, line, pair]
    · rw [if_neg hold, if_pos hold]; rfl
  · rw [if_neg (by simpa [and_assoc] using ends), if_pos ends]

theorem beginHold_posts {before : Int} {s : State} : Posts s (beginHold before s) :=
  posts_ite (posts_ite nipOpen_posts (posts_of_keeps upMot_keeps (by decide))) posts_refl

theorem beginHold_speed (before : Int) (s : State) :
    (beginHold before s).mot.vref = s.mot.vref ∧ (beginHold before s).mot.drive = s.mot.drive
      ∧ (beginHold before s).mot.drum = s.mot.drum := by
  rw [beginHold_mot]
  split
  · exact ⟨rfl, rfl, rfl⟩
  · split
    · exact ⟨rfl, rfl, rfl⟩
    · split <;> exact ⟨rfl, rfl, rfl⟩

theorem haltComplete_mot (s : State) :
    (haltComplete s).mot = if s.mot.line = .halting ∧ s.mot.vref = 0 then { s.mot with line := .faulted } else s.mot := by
  unfold haltComplete
  by_cases h : s.mot.line = .halting ∧ s.mot.vref = 0
  · rw [if_pos (by simpa using h), if_pos h, setLine_mot]
  · rw [if_neg (by simpa using h), if_neg h]

theorem motionSample_posts {s : State} : Posts s (motionSample s) :=
  posts_trans (posts_of_keeps governor_keeps (by decide))
    (posts_trans beginHold_posts (posts_trans (posts_ite setLine_posts posts_refl) seekNotice_posts))

/-- The governor alone moves the speed, the drive and DRUM. -/
theorem motionSample_speed (s : State) :
    (motionSample s).mot.vref = (governor s).mot.vref ∧ (motionSample s).mot.drive = (governor s).mot.drive
      ∧ (motionSample s).mot.drum = (governor s).mot.drum := by
  obtain ⟨k, seek⟩ := seekNotice_mot (haltComplete (beginHold s.mot.vref (governor s)))
  have halt : (haltComplete (beginHold s.mot.vref (governor s))).mot.vref = (beginHold s.mot.vref (governor s)).mot.vref
      ∧ (haltComplete (beginHold s.mot.vref (governor s))).mot.drive = (beginHold s.mot.vref (governor s)).mot.drive
      ∧ (haltComplete (beginHold s.mot.vref (governor s))).mot.drum = (beginHold s.mot.vref (governor s)).mot.drum := by
    rw [haltComplete_mot]; split <;> exact ⟨rfl, rfl, rfl⟩
  obtain ⟨v, d, o⟩ := beginHold_speed s.mot.vref (governor s)
  obtain ⟨v', d', o'⟩ := halt
  unfold motionSample
  rw [seek]
  exact ⟨v'.trans v, d'.trans d, o'.trans o⟩

/-- In HALTING the sample that finds v_ref 0 takes the line to FAULTED (02 R24). -/
theorem motionSample_halting {s : State} (h : s.mot.line = .halting) :
    if (motionSample s).mot.vref = 0 then
      (motionSample s).mot.line = .faulted ∧ Noticed (.stateChange .halting .faulted .haltComplete) s (motionSample s)
    else (motionSample s).mot.line = .halting := by
  have hold : beginHold s.mot.vref (governor s) = governor s := if_neg (by simp [governor, h])
  obtain ⟨v, -, -⟩ := motionSample_speed s
  obtain ⟨k, seek⟩ := seekNotice_mot (haltComplete (governor s))
  have line : (motionSample s).mot.line = (haltComplete (governor s)).mot.line := by
    unfold motionSample; rw [hold, seek]
  rw [v, line, haltComplete_mot]
  split
  · next rest =>
    rw [if_pos ⟨h, rest⟩]
    refine ⟨rfl, ?_⟩
    have said : Noticed (.stateChange .halting .faulted .haltComplete) s (haltComplete (governor s)) := by
      have line : (governor s).mot.line = .halting := h
      rw [haltComplete, if_pos (by simp [line, rest]), setLine, if_neg (by simp [line]), line]
      exact notice_noticed _ _
    unfold motionSample
    rw [hold]
    exact said.of_posts seekNotice_posts.frames seekNotice_posts.dropped
  · next rest => rw [if_neg fun n => rest n.2]; exact h

/-- The ramp target of 02 R26 and R28. -/
theorem rampTarget_eq (s : State) :
    s.rampTarget = if s.pins.estop = true then 0
      else if s.mot.line = .running ∧ s.mot.nip = .closed then
        match s.trg.effects.cap with
        | none => min (min s.par.vSet s.par.vMax) (max s.dose.vDose s.par.vFloor)
        | some cap => min (min (min s.par.vSet s.par.vMax) (max s.dose.vDose s.par.vFloor)) cap
      else if s.mot.line = .threading ∧ s.mot.seek.state = .moving then
        if s.mot.seek.remaining ≤ s.mot.vref * s.mot.vref / (2 * s.par.aDn) then 0 else min s.par.vJog s.par.vMax
      else 0 := by
  unfold State.rampTarget
  split
  · rfl
  · cases s.mot.line with
    | running =>
      by_cases hn : s.mot.nip = .closed
      · simp only [hn, if_true, and_self]
        cases s.trg.effects.cap <;> rfl
      · simp [hn]
    | threading =>
      by_cases hm : s.mot.seek.state = .moving
      · simp only [hm, and_self, if_true]; rfl
      · simp [hm]
    | _ => simp

/-- A step of at least 1 toward the target does not pass it (02 R29). -/
theorem stepSpeed_between (p : Params) (line : LineState) (v target : Int) (up : 100 ≤ p.aUp) (dn : 100 ≤ p.aDn)
    (halt : 100 ≤ p.aHalt) :
    min v target ≤ stepSpeed p line v target ∧ stepSpeed p line v target ≤ max v target
      ∧ (stepSpeed p line v target = v → v = target) := by
  have u : 1 ≤ floorDiv p.aUp 100 := by unfold floorDiv; omega
  have d : 1 ≤ floorDiv (if line = .halting then p.aHalt else p.aDn) 100 := by
    unfold floorDiv; split <;> omega
  unfold stepSpeed
  split
  · omega
  · split <;> omega

/-! ## The whole sample, in either order of its blocks -/

theorem Raised.struck {c : Cause} {i : Option Nat} {p : Prop} {s t u : State} (h : Raised c i s t) (k : Struck p t u) :
    Raised c i s u := by
  obtain ⟨⟨r, latch, why⟩, line⟩ := h
  exact ⟨⟨r, k.reports.latch r latch, why.imp id (k.reports.further c)⟩, by rw [k.line_of_fault line]; exact line⟩

theorem motionSample_line {s : State} (h : s.mot.line = .halting ∨ s.mot.line = .faulted) :
    (motionSample s).mot.line = .halting ∨ (motionSample s).mot.line = .faulted := by
  rcases h with h | h
  · have m := motionSample_halting h
    split at m
    · exact .inr m.1
    · exact .inl m
  · obtain ⟨k, seek⟩ := seekNotice_mot (haltComplete (beginHold s.mot.vref (governor s)))
    have hold : beginHold s.mot.vref (governor s) = governor s := if_neg (by simp [governor, h])
    have line : (governor s).mot.line = .faulted := h
    unfold motionSample
    rw [seek, hold, haltComplete_mot, if_neg (by simp [line])]
    exact .inr line

theorem Raised.motion {c : Cause} {i : Option Nat} {s t : State} (h : Raised c i s t) : Raised c i s (motionSample t) := by
  obtain ⟨⟨r, latch, why⟩, line⟩ := h
  have k := motionSample_posts.reports (s := t)
  exact ⟨⟨r, k.latch r latch, why.imp id (k.further c)⟩, motionSample_line line⟩

/-- A fault raised after others is the record where the latch was empty, else a further cause. -/
theorem raise_raised {c : Cause} {i : Option Nat} {s u : State} (h : Reports s u) : Raised c i s (raise c i u) := by
  obtain ⟨taken, line⟩ := raise_faultTaken c i u
  refine ⟨?_, line ▸ faultLine_fault _ _⟩
  unfold LatchTakes at taken
  cases hl : u.flt.latch with
  | none =>
    rw [hl] at taken
    exact ⟨_, taken.1, .inl ⟨h.latch_none hl, rfl, rfl⟩⟩
  | some r =>
    rw [hl] at taken
    refine ⟨r, taken.1, .inr ?_⟩
    rw [taken.2.1]
    split
    · assumption
    · exact List.mem_append_right _ (List.mem_singleton.mpr rfl)

theorem countSample_raised {s u : State} (h : Reports s u) (hit : Stalls u (countSample u)) :
    Raised .stall (some 2) s (countSample u) := by
  rw [show countSample u = raise .stall (some 2) (u.upCnt fun c => c.sample u.par.silMask u.mot.vref) from
    if_pos ((stalls_iff u).mpr hit)]
  exact raise_raised (h.trans (posts_of_keeps (upCnt_keeps (s := u)) (by decide)).reports)

/-- The faults raised before the motion controller takes the sample that leaves `t` (notes/assumptions/4.md). -/
def Struck.Before (countAfter tensionAfter : Bool) (s t : State) : Prop :=
  (countAfter = false ∧ Stalls s t) ∨ (tensionAfter = false ∧ ∃ l ∈ Loop.all, Trips l s t)

/-- The sample is the motion controller's, between the stages before it and those after it. -/
structure SampleRun (countAfter tensionAfter : Bool) (s u t : State) : Prop where
  before : Struck (Struck.Before countAfter tensionAfter s t) s u
  frame : Keeps (.cnt :: .ten :: faultBlocks) s u
  clock : u.cnt.clock = s.cnt.clock
  after : ∃ p, Struck p (motionSample u) t
  counted : t.cnt = s.cnt.sample s.par.silMask (if countAfter = true then t.mot.vref else s.mot.vref)
  stalled : 1000 ≤ (if countAfter = true then t.mot.vref else s.mot.vref) →
    2 * |t.cnt.chan.drum.speed| < (if countAfter = true then t.mot.vref else s.mot.vref) →
    s.cnt.stall < 500 → 490 ≤ s.cnt.stall → Raised .stall (some 2) s t

section stages
variable {lc0 lc1 lc2 : Int} {s t : State}

theorem tensionSample_cnt : (tensionSample lc0 lc1 lc2 s).cnt = s.cnt := tensionSample_keeps .cnt (by decide)
theorem tensionSample_par : (tensionSample lc0 lc1 lc2 s).par = s.par := tensionSample_keeps .par (by decide)
theorem motionSample_cnt : (motionSample s).cnt = s.cnt := motionSample_keeps .cnt (by decide)
theorem motionSample_par : (motionSample s).par = s.par := motionSample_keeps .par (by decide)
theorem motionSample_ten : (motionSample s).ten = s.ten := motionSample_keeps .ten (by decide)
theorem countSample_ten : (countSample s).ten = s.ten := countSample_keeps .ten (by decide)

theorem Stalls.congr (h : t.cnt = (countSample s).cnt) : Stalls s t ↔ Stalls s (countSample s) := by
  rw [Stalls, h]; rfl

theorem trips_congr {u v : State} (hs : v.ten = s.ten) (ht : t.ten = u.ten) :
    (∃ l ∈ Loop.all, Trips l s t) ↔ ∃ l ∈ Loop.all, Trips l v u := by
  simp only [Trips, hs, ht]

end stages

/-- Both blocks before the motion controller. -/
theorem run_both_before (lc0 lc1 lc2 : Int) (s : State) :
    SampleRun false false s (tensionSample lc0 lc1 lc2 (countSample s))
      (motionSample (tensionSample lc0 lc1 lc2 (countSample s))) := by
  have tensed := tensionSample_struck lc0 lc1 lc2 (countSample s)
  have cnt : (motionSample (tensionSample lc0 lc1 lc2 (countSample s))).cnt = (countSample s).cnt :=
    motionSample_cnt.trans tensionSample_cnt
  refine ⟨((countSample_struck s).trans tensed).congr ?_,
    keeps_seq countSample_keeps tensionSample_keeps (by decide) (by decide),
    by rw [tensionSample_cnt, countSample_cnt]; rfl, ⟨False, struck_of_not id rfl rfl⟩,
    cnt.trans (countSample_cnt s), fun h1 h2 h3 h4 => ?_⟩
  · rw [Struck.Before, Stalls.congr cnt, trips_congr countSample_ten motionSample_ten]
    simp
  · have stalls : Stalls s (countSample s) := (Stalls.congr cnt).mp ⟨h1, h2, h3, h4⟩
    exact ((countSample_raised posts_refl.reports stalls).struck tensed).motion

/-- The counting unit before it, the tension unit after it. -/
theorem run_count_before (lc0 lc1 lc2 : Int) (s : State) :
    SampleRun false true s (countSample s) (tensionSample lc0 lc1 lc2 (motionSample (countSample s))) := by
  have tensed := tensionSample_struck lc0 lc1 lc2 (motionSample (countSample s))
  have cnt : (tensionSample lc0 lc1 lc2 (motionSample (countSample s))).cnt = (countSample s).cnt :=
    tensionSample_cnt.trans motionSample_cnt
  refine ⟨(countSample_struck s).congr ?_, keeps_mono countSample_keeps (by decide),
    by rw [countSample_cnt]; rfl, ⟨_, tensed⟩,
    cnt.trans (countSample_cnt s), fun h1 h2 h3 h4 => ?_⟩
  · rw [Struck.Before, Stalls.congr cnt]
    simp
  · have stalls : Stalls s (countSample s) := (Stalls.congr cnt).mp ⟨h1, h2, h3, h4⟩
    exact (countSample_raised posts_refl.reports stalls).motion.struck tensed

/-- The tension unit before it, the counting unit after it. -/
theorem run_tension_before (lc0 lc1 lc2 : Int) (s : State) :
    SampleRun true false s (tensionSample lc0 lc1 lc2 s)
      (countSample (motionSample (tensionSample lc0 lc1 lc2 s))) := by
  have tensed := tensionSample_struck lc0 lc1 lc2 s
  have counted := countSample_struck (motionSample (tensionSample lc0 lc1 lc2 s))
  have cnt : (motionSample (tensionSample lc0 lc1 lc2 s)).cnt = s.cnt := motionSample_cnt.trans tensionSample_cnt
  have par : (motionSample (tensionSample lc0 lc1 lc2 s)).par = s.par := motionSample_par.trans tensionSample_par
  have vref := counted.speed.1
  refine ⟨tensed.congr ?_, keeps_mono tensionSample_keeps (by decide),
    by rw [tensionSample_cnt], ⟨_, counted⟩, ?_, fun h1 h2 h3 h4 => ?_⟩
  · rw [Struck.Before, trips_congr rfl (countSample_ten.trans motionSample_ten)]
    simp
  · rw [if_pos rfl, vref, ← cnt, ← par]
    exact countSample_cnt _
  · rw [if_pos rfl, vref] at h1 h2
    refine countSample_raised (tensed.reports.trans motionSample_posts.reports) ⟨h1, h2, ?_, ?_⟩ <;> rw [cnt]
    · exact h3
    · exact h4

/-- Both blocks after the motion controller. -/
theorem run_both_after (lc0 lc1 lc2 : Int) (s : State) :
    SampleRun true true s s (tensionSample lc0 lc1 lc2 (countSample (motionSample s))) := by
  have counted := countSample_struck (motionSample s)
  have tensed := tensionSample_struck lc0 lc1 lc2 (countSample (motionSample s))
  have vref := tensed.speed.1.trans counted.speed.1
  refine ⟨(struck_of_not (hit := False) id rfl rfl).congr ?_, keeps_refl, rfl, ⟨_, counted.trans tensed⟩, ?_,
    fun h1 h2 h3 h4 => ?_⟩
  · simp [Struck.Before]
  · rw [if_pos rfl, vref, tensionSample_cnt, countSample_cnt, motionSample_cnt, motionSample_par]
  · rw [if_pos rfl, vref] at h1 h2
    rw [tensionSample_cnt] at h2
    refine (countSample_raised motionSample_posts.reports ⟨h1, h2, ?_, ?_⟩).struck tensed <;> rw [motionSample_cnt]
    · exact h3
    · exact h4

theorem speedSample_run (lc0 lc1 lc2 : Int) (ca ta : Bool) (s : State) :
    ∃ u, SampleRun ca ta s u (speedSample lc0 lc1 lc2 ca ta s) := by
  unfold speedSample
  cases ca <;> cases ta <;> simp only [Bool.false_eq_true, if_false, if_true]
  · exact ⟨_, run_both_before lc0 lc1 lc2 s⟩
  · exact ⟨_, run_count_before lc0 lc1 lc2 s⟩
  · exact ⟨_, run_tension_before lc0 lc1 lc2 s⟩
  · exact ⟨_, run_both_after lc0 lc1 lc2 s⟩

/-! ## The three parts of the statement -/

/-- The channel's period and its silence timer at the sample (01 R8, R9). -/
theorem sample_chan (k : Counting) (mask : Channels Bool) (v : Int) (ch : Chan) :
    (k.sample mask v).chan.get ch =
      { k.chan.get ch with
        hist := ((k.chan.get ch).period :: (k.chan.get ch).hist).take 10
        period := 0
        speed := 10 * (((k.chan.get ch).period :: (k.chan.get ch).hist).take 10).sum
        silence := if mask.get ch = false ∨ v < 1000 then .stopped
          else if k.fast = true then (k.chan.get ch).silence else .running 0 } := by
  have silence : ∀ (b : Bool) (x : Timer), sampleSilence b k.fast (decide (Config.fastFloor ≤ v)) x =
      if b = false ∨ v < 1000 then .stopped else if k.fast = true then x else .running 0 := by
    intro b x
    unfold sampleSilence
    by_cases hv : v < 1000
    · rw [if_pos (by rw [decide_eq_false (show ¬(Config.fastFloor ≤ v) from Int.not_le.mpr hv)]; simp), if_pos (.inr hv)]
    · rw [decide_eq_true (show Config.fastFloor ≤ v from Int.not_lt.mp hv)]
      cases b <;> simp [hv]
  cases ch <;> rw [← silence] <;> rfl

/-- v_ref after the sample lies between what it was and the target (02 R26, R29). -/
theorem governor_vref (s : State) :
    (governor s).mot.vref = if s.pins.estop = true then 0 else stepSpeed s.par s.mot.line s.mot.vref s.rampTarget := rfl

theorem ParamsOk.rates {s : State} (h : ParamsOk s) : 100 ≤ s.par.aUp ∧ 100 ≤ s.par.aDn ∧ 100 ≤ s.par.aHalt := by
  have up : inRange 100 20000 s.par.aUp = true := h.ranges .aUp
  have dn : inRange 100 20000 s.par.aDn = true := h.ranges .aDn
  have halt : inRange 1000 50000 s.par.aHalt = true := h.ranges .aHalt
  have := inRange_iff.mp halt
  exact ⟨(inRange_iff.mp up).1, (inRange_iff.mp dn).1, by omega⟩

/-- What the motion controller finds of a line and a move that a fault may have changed before it (02 R24). -/
theorem SampleRun.found {ca ta : Bool} {s u t : State} (h : SampleRun ca ta s u t) :
    (Struck.Before ca ta s t → u.mot.line = faultLine s.mot.line s.mot.vref)
      ∧ (¬Struck.Before ca ta s t → u.mot.line = s.mot.line)
      ∧ u.mot.vref = s.mot.vref ∧ u.mot.drive = s.mot.drive
      ∧ (u.mot.line = .running ∧ u.mot.nip = .closed ↔ u.mot.line = .running ∧ s.mot.nip = .closed)
      ∧ (u.mot.seek.state = .moving ↔ s.mot.seek.state = .moving ∧ ¬Struck.Before ca ta s t)
      ∧ u.mot.seek.remaining = s.mot.seek.remaining ∧ u.mot.seek.kind = s.mot.seek.kind
      ∧ u.mot.seek.dir = s.mot.seek.dir := by
  refine ⟨fun hit => (h.before.faulted hit).1.line, fun hit => by rw [(h.before.spared hit).1], h.before.speed.1, h.before.speed.2.1, ?_⟩
  by_cases hit : Struck.Before ca ta s t
  · obtain ⟨moved, -⟩ := h.before.faulted hit
    have down : u.mot.line ≠ .running := by
      rw [moved.line]; rcases faultLine_fault s.mot.line s.mot.vref with e | e <;> rw [e] <;> decide
    rw [moved.seek]
    refine ⟨iff_of_false (fun n => down n.1) fun n => down n.1, ?_⟩
    unfold Seek.suspend
    split <;> simp_all
  · rw [(h.before.spared hit).1]
    simp [hit]

theorem stepSpeed_eq (p : Params) (line : LineState) (v target : Int) :
    stepSpeed p line v target =
      if v < target then min target (v + p.aUp / 100)
      else if target < v then max target (v - if line = .halting then p.aHalt / 100 else p.aDn / 100)
      else v := by
  unfold stepSpeed
  split
  · rfl
  · split
    · split <;> rfl
    · rfl

/-- The ramp target that the motion controller finds, in terms of the state before the sample. -/
theorem SampleRun.target {ca ta : Bool} {s u t : State} (h : SampleRun ca ta s u t) {moves : Prop} [Decidable moves]
    (hm : moves ↔ s.mot.seek.state = .moving ∧ ¬Struck.Before ca ta s t) :
    u.rampTarget = if s.pins.estop = true then 0
      else if u.mot.line = .running ∧ s.mot.nip = .closed then
        match s.trg.effects.cap with
        | none => min (min s.par.vSet s.par.vMax) (max s.dose.vDose s.par.vFloor)
        | some cap => min (min (min s.par.vSet s.par.vMax) (max s.dose.vDose s.par.vFloor)) cap
      else if u.mot.line = .threading ∧ moves then
        if s.mot.seek.remaining ≤ s.mot.vref * s.mot.vref / (2 * s.par.aDn) then 0 else min s.par.vJog s.par.vMax
      else 0 := by
  obtain ⟨-, -, vref, -, nip, moving, remaining, -⟩ := h.found
  rw [rampTarget_eq, vref, remaining, show u.pins = s.pins from h.frame .pins (by decide),
    show u.par = s.par from h.frame .par (by decide), show u.trg = s.trg from h.frame .trg (by decide),
    show u.dose = s.dose from h.frame .dose (by decide)]
  have moving' : (u.mot.seek.state = .moving) = moves := propext (moving.trans hm.symm)
  simp only [nip, moving']

/-- The part of the sample that moves v_ref, with DRUM and the drive (02 R26, R28, R29). -/
theorem SampleRun.speeds {ca ta : Bool} {s u t : State} (h : SampleRun ca ta s u t) {moves : Prop} [Decidable moves]
    (hm : moves ↔ s.mot.seek.state = .moving ∧ ¬Struck.Before ca ta s t) :
    t.mot.vref = (if s.pins.estop = true then 0 else stepSpeed s.par u.mot.line s.mot.vref u.rampTarget)
      ∧ t.mot.drum = (if t.mot.drive = .forward then t.mot.vref / 50 else -(t.mot.vref / 50))
      ∧ t.mot.drive = (if t.mot.vref = 0 ∧ ¬(moves ∧ s.mot.seek.kind = .jog ∧ s.mot.seek.dir = .reverse) then .forward
          else s.mot.drive) := by
  obtain ⟨-, -, vref, drive, -, moving, -, kind, dir⟩ := h.found
  obtain ⟨p, after⟩ := h.after
  obtain ⟨v, d, o⟩ := after.speed
  obtain ⟨v', d', o'⟩ := motionSample_speed u
  have moved := v.trans v'
  have turned := d.trans d'
  refine ⟨?_, ?_, ?_⟩
  · rw [moved, governor_vref, vref, show u.pins = s.pins from h.frame .pins (by decide),
      show u.par = s.par from h.frame .par (by decide)]
  · rw [o, o', turned, moved]
    show drumOut (governor u).mot.vref (governor u).mot.drive = _
    cases (governor u).mot.drive <;> rfl
  · have moving' : moves = (u.mot.seek.state = .moving) := propext (hm.trans moving.symm)
    subst moving'
    rw [turned, moved, ← kind, ← dir, ← drive]
    show (if (governor u).mot.vref = 0 && !u.mot.seek.reversing then _ else _) = _
    unfold Seek.reversing
    simp only [Bool.and_eq_true, Bool.not_eq_true', ← Bool.not_eq_true, decide_eq_true_eq, and_assoc]

/-- The line, the nip and the hold after a sample that leaves no fault latched (02 R22, R32, R33). -/
theorem SampleRun.unfaulted {ca ta : Bool} {s u t : State} (h : SampleRun ca ta s u t) (hl : s.mot.line ≠ .halting)
    (latch : t.flt.latch = none) :
    let ends := s.mot.line = .stopping ∧ s.mot.nip = .closed ∧ 0 < s.mot.vref ∧ t.mot.vref = 0
    let rest := { t.mot with line := s.mot.line, nip := s.mot.nip, nipTimer := s.mot.nipTimer, hold := s.mot.hold }
    t.mot =
      if ¬ends then rest
      else if s.par.tHold ≠ 0 then { rest with hold := .running 0 }
      else if s.pins.openPair = false then { rest with nip := .opening, nipTimer := .running 0 }
      else { rest with nip := .opened, nipTimer := .stopped, line := .ready } := by
  intro ends rest
  obtain ⟨p, after⟩ := h.after
  have latch' := after.reports.latch_none latch
  have quiet : ¬Struck.Before ca ta s t := fun hit =>
    (h.before.faulted hit).2 (motionSample_posts.reports.latch_none latch')
  have same : u.mot = s.mot := (h.before.spared quiet).1
  have last : t.mot = (motionSample u).mot := (after.spared fun hit => (after.faulted hit).2 latch).1
  have vref : t.mot.vref = (governor u).mot.vref := last ▸ (motionSample_speed u).1
  obtain ⟨k, seek⟩ := seekNotice_mot (haltComplete (beginHold u.mot.vref (governor u)))
  have hold := beginHold_mot u.mot.vref (governor u)
  have line : (beginHold u.mot.vref (governor u)).mot.line ≠ .halting := by
    have : (governor u).mot.line ≠ .halting := by show u.mot.line ≠ _; rw [same]; exact hl
    rw [hold]
    split
    · exact this
    · split
      · exact this
      · split
        · exact this
        · exact nofun
  have mot : t.mot = { (beginHold u.mot.vref (governor u)).mot with seek := k } := by
    rw [last, motionSample, seek, haltComplete_mot, if_neg fun n => line n.1]
  rw [← vref] at hold
  rw [show (governor u).mot.line = s.mot.line from same ▸ rfl, show (governor u).mot.nip = s.mot.nip from same ▸ rfl,
    show (governor u).par = s.par from h.frame .par (by decide),
    show (governor u).pins = s.pins from h.frame .pins (by decide), same] at hold
  rw [same, hold] at mot
  have kept : (governor u).mot = { (governor u).mot with
      line := s.mot.line, nip := s.mot.nip, nipTimer := s.mot.nipTimer, hold := s.mot.hold } := by
    unfold governor; rw [State.upMot_mot, ← same]
  rw [kept] at mot
  show t.mot = if ¬(_ ∧ _) then _ else _
  split at mot <;> rename_i h1
  · rw [if_pos h1]; dsimp only [rest]; rw [mot]
  · rw [if_neg h1]
    split at mot <;> rename_i h2
    · rw [if_pos h2]; dsimp only [rest]; rw [mot]
    · rw [if_neg h2]
      split at mot <;> rename_i h3
      · rw [if_pos h3]; dsimp only [rest]; rw [mot]
      · rw [if_neg h3]; dsimp only [rest]; rw [mot]

/-- A HALTING line at the sample (02 R24). -/
theorem SampleRun.halting {ca ta : Bool} {s u t : State} (h : SampleRun ca ta s u t) (hl : s.mot.line = .halting) :
    if t.mot.vref = 0 then
      t.mot.line = .faulted ∧ Noticed (.stateChange .halting .faulted .haltComplete) s t
    else t.mot.line = .halting := by
  have found : u.mot.line = .halting := (h.before.line_of_fault (.inl hl)).trans hl
  obtain ⟨p, after⟩ := h.after
  have sampled := motionSample_halting found
  rw [after.speed.1]
  split <;> rename_i hv
  · rw [if_pos hv] at sampled
    obtain ⟨line, said⟩ := sampled
    refine ⟨(after.line_of_fault (.inr line)).trans line, ?_⟩
    unfold Noticed at said ⊢
    rw [h.clock] at said
    exact said.imp (after.reports.frames _) after.reports.dropped
  · rw [if_neg hv] at sampled
    exact (after.line_of_fault (.inl sampled)).trans sampled

/-- Settles O17: what the motion controller finds, and what each of the three units leaves. -/
theorem governorMovesTowardItsTarget : Obligations.GovernorMovesTowardItsTarget := by
  refine ⟨fun lc0 lc1 lc2 ca ta s params => ?_, fun lc0 lc1 lc2 ca ta s => ?_, fun lc0 lc1 lc2 ca ta s => ?_⟩ <;>
    obtain ⟨u, run⟩ := speedSample_run lc0 lc1 lc2 ca ta s
  · refine ⟨_, rfl, speedSample_keeps, ?_⟩
    generalize speedSample lc0 lc1 lc2 ca ta s = t at run
    intro stalls trips line moves target down
    obtain ⟨struck, spared, -⟩ := run.found
    have hline : u.mot.line = line := by
      show _ = if stalls ∨ trips then _ else _
      split
      · next hit => exact struck hit
      · next hit => exact spared hit
    obtain ⟨vref, drum, drive⟩ := run.speeds (moves := moves) Iff.rfl
    have htarget : u.rampTarget = target := (run.target (moves := moves) Iff.rfl).trans (by rw [hline] <;> rfl)
    rw [hline, htarget] at vref
    refine ⟨vref.trans (by rw [stepSpeed_eq]), ?_⟩
    obtain ⟨up, dn, halt⟩ := params.rates
    have between := stepSpeed_between s.par line s.mot.vref target up dn halt
    refine ⟨?_, ?_, ?_, drum, drive⟩ <;> rw [vref]
    · split
      · next he => rw [show target = 0 from if_pos he]; omega
      · exact between.1
    · split
      · next he => rw [show target = 0 from if_pos he]; omega
      · exact between.2.1
    · intro still go
      rw [if_neg (by simp [go])] at still
      exact between.2.2 still
  · exact ⟨_, rfl, run.halting, run.unfaulted⟩
  · refine ⟨_, rfl, ?_⟩
    generalize speedSample lc0 lc1 lc2 ca ta s = t at run
    intro v lag
    refine ⟨fun ch => ?_, ?_, fun h h1 h2 => run.stalled h.1 h.2 h1 h2⟩
    · rw [run.counted]; exact sample_chan _ _ _ ch
    · have counted : t.cnt = s.cnt.sample s.par.silMask v := run.counted
      show t.cnt = { s.cnt with
        chan := t.cnt.chan, fast := decide (1000 ≤ v)
        stall := if 1000 ≤ v ∧ 2 * |t.cnt.chan.drum.speed| < v then min 500 (s.cnt.stall + 10) else 0 }
      rw [counted, ← sample_stall]
      rfl

end Sys2Proof.Machine
end

