-- ==== Sys2Proof/Proofs/Tick.lean ====
section
/-! PROOF. One millisecond on an empty queue: what runs on, and the timer that ends alone (notes/assumptions/1.md, 5.md).
The expiry of one timer brings no other to its limit (`Calmer`, `NoneDue`). -/

namespace Sys2Proof.Machine
open Sys2Proof

/-! ## What an expiry leaves of the other timers -/

/-- The state after an expiry, as the timers see it: none that ran is nearer its limit, and no transaction is new. -/
structure Calmer (s t : State) : Prop where
  par : t.par = s.par
  cnt : t.cnt = s.cnt
  heat : t.heat = s.heat
  nipTimer : t.mot.nipTimer = s.mot.nipTimer ∨ t.mot.nipTimer = .running 0 ∨ t.mot.nipTimer = .stopped
  hold : t.mot.hold = s.mot.hold ∨ t.mot.hold = .stopped
  link : t.flt.link = s.flt.link ∨ t.flt.link = .stopped
  live : ∀ x ∈ t.pq.live, x ∈ s.pq.live

/-! ## The link silence timer at a fault (10 R175) -/

/-- The link silence timer is the same, or stopped. -/
def LinkRests (s t : State) : Prop := t.flt.link = s.flt.link ∨ t.flt.link = .stopped

theorem linkRests_of_flt {s t : State} (h : t.flt = s.flt) : LinkRests s t := .inl (congrArg FaultMon.link h)

theorem linkRests_trans {s t u : State} (h : LinkRests s t) (k : LinkRests t u) : LinkRests s u :=
  k.elim (fun e => h.imp e.trans e.trans) .inr

/-- The timer stops where the line leaves the states in which the link is watched. -/
theorem setLine_linkRests {new : LineState} {e : LineEvent} {s : State} (h : new.watched = false) :
    LinkRests s (setLine new e s) := by
  unfold setLine
  split
  · exact .inl rfl
  · exact .inr (by simp [linkTimerAt, h])

theorem nipOpened_linkRests {s : State} : LinkRests s (nipOpened s) := by
  unfold nipOpened
  dsimp only
  split
  · exact linkRests_trans (.inl rfl) (setLine_linkRests rfl)
  · exact .inl rfl

theorem nipOpen_linkRests {s : State} : LinkRests s (nipOpen s) := by
  unfold nipOpen
  split
  · exact .inl rfl
  · dsimp only
    split
    · exact linkRests_trans (.inl rfl) nipOpened_linkRests
    · exact .inl rfl

theorem withdraw_link (txn tag : Nat) (s : State) : (withdraw txn tag s).flt.link = s.flt.link := by
  unfold withdraw
  split
  · rfl
  · exact notice_link _ _

theorem withdrawStarting_linkRests {s : State} : LinkRests s (withdrawStarting s) := by
  unfold withdrawStarting
  split
  · exact .inl rfl
  · split
    · exact linkRests_trans (.inl (withdraw_link _ _ _)) (linkRests_of_flt (refusal_uncounted_keeps .flt (by decide)))
    · exact .inl (withdraw_link _ _ _)

theorem enterHalting_linkRests {s : State} : LinkRests s (enterHalting s) :=
  linkRests_trans (setLine_linkRests rfl)
    (linkRests_trans (linkRests_trans (linkRests_of_flt rfl)
      (nipOpen_linkRests (s := (setLine .halting .fault s).upMot fun m => { m with target := 0, hold := .stopped })))
      withdrawStarting_linkRests)

theorem faultMotion_linkRests {s : State} : LinkRests s (faultMotion s) := by
  have suspended : LinkRests s (suspendForFault s) := .inl rfl
  have stopped : LinkRests s (setLine .faulted .fault (suspendForFault s)) :=
    linkRests_trans suspended (setLine_linkRests rfl)
  have halted : LinkRests s (enterHalting (suspendForFault s)) := linkRests_trans suspended enterHalting_linkRests
  unfold faultMotion
  split
  case h_1 | h_2 => exact halted
  case h_3 => split <;> assumption
  case h_4 | h_5 | h_6 => exact stopped
  case h_7 | h_8 => exact suspended

theorem take_link (f : FaultMon) (r : Record) : (f.take r).link = f.link := by
  unfold FaultMon.take; split <;> rfl

theorem raise_linkRests {c : Cause} {i : Option Nat} {s : State} : LinkRests s (raise c i s) :=
  linkRests_trans (.inl (take_link _ _)) (linkRests_trans (faultMotion_linkRests (s := s.upFlt fun f => f.take _))
    (.inl (notice_link _ _)))

/-! ## The live transactions at a fault (07 R122) -/

theorem withdrawStarting_live {s : State} : ∀ x ∈ (withdrawStarting s).pq.live, x ∈ s.pq.live := by
  have dropped : ∀ {num tag : Nat} {l : List Txn}, ∀ x ∈ dropTxn num tag l, x ∈ l :=
    fun x hx => (List.mem_filter.mp hx).1
  unfold withdrawStarting
  split
  · exact fun _ h => h
  · split
    · next p _ =>
      intro x hx
      have e := dropped x (by simpa [refusal] using hx)
      rwa [withdraw_pq] at e
    · intro x hx
      rw [withdraw_pq] at hx
      exact dropped x hx

theorem enterHalting_live {s : State} : ∀ x ∈ (enterHalting s).pq.live, x ∈ s.pq.live := by
  intro x hx
  have e := withdrawStarting_live x hx
  rwa [show (nipOpen _).pq = _ from nipOpen_keeps .pq (by decide),
    show ((setLine .halting .fault s).upMot _).pq = s.pq from setLine_keeps .pq (by decide)] at e

theorem faultMotion_live {s : State} : ∀ x ∈ (faultMotion s).pq.live, x ∈ s.pq.live := by
  have stopped : (setLine .faulted .fault (suspendForFault s)).pq = s.pq :=
    (setLine_keeps .pq (by decide)).trans rfl
  have halted : ∀ x ∈ (enterHalting (suspendForFault s)).pq.live, x ∈ s.pq.live := enterHalting_live
  unfold faultMotion
  split
  case h_1 | h_2 => exact halted
  case h_3 =>
    split
    · exact halted
    · rw [stopped]; exact fun _ h => h
  case h_4 | h_5 | h_6 => rw [stopped]; exact fun _ h => h
  case h_7 | h_8 => exact fun _ h => h

theorem raise_live {c : Cause} {i : Option Nat} {s : State} : ∀ x ∈ (raise c i s).pq.live, x ∈ s.pq.live := by
  intro x hx
  rw [show (raise c i s).pq = (faultMotion (s.upFlt fun f => f.take (s.recordOf c i))).pq from notice_pq _ _] at hx
  exact faultMotion_live (s := s.upFlt fun f => f.take (s.recordOf c i)) x hx

theorem raise_calmer (c : Cause) (i : Option Nat) (s : State) : Calmer s (raise c i s) where
  par := raise_par c i s
  cnt := raise_cnt c i s
  heat := raise_heat c i s
  nipTimer := (raise_faulted c i s).nipTimer
  hold := (raise_faulted c i s).hold
  link := raise_linkRests
  live := raise_live

theorem nipOpen_nipTimer (s : State) : (nipOpen s).mot.nipTimer = s.mot.nipTimer
    ∨ (nipOpen s).mot.nipTimer = .running 0 ∨ (nipOpen s).mot.nipTimer = .stopped := by
  unfold nipOpen
  split
  · exact .inl rfl
  · cases hp : s.pins.openPair
    · exact .inr (.inl (by simp [hp]))
    · refine .inr (.inr ?_)
      by_cases hl : s.mot.line = .stopping <;> simp [hp, nipOpened, hl]

theorem nipOpen_calmer (s : State) : Calmer s (nipOpen s) where
  par := nipOpen_keeps .par (by decide)
  cnt := nipOpen_keeps .cnt (by decide)
  heat := nipOpen_keeps .heat (by decide)
  nipTimer := nipOpen_nipTimer s
  hold := by
    obtain ⟨-, -, -, hold, -⟩ := nipOpen_mot s
    exact .inl hold
  link := nipOpen_linkRests
  live := fun x hx => by rwa [show (nipOpen s).pq = s.pq from nipOpen_keeps .pq (by decide)] at hx

/-! ## A state in which nothing is due -/

/-- No timer stands at its limit, no deadline has passed. -/
structure NoneDue (s : State) : Prop where
  silence : ∀ c, (s.cnt.chan.get c).silence.due s.par.tSil = false
  nip : s.mot.nipTimer.due s.par.tNip = false
  hold : s.mot.hold.due s.par.tHold = false
  mains : s.heat.lostTimer.due 25 = false
  link : s.flt.link.due s.par.tLink = false
  live : ∀ x ∈ s.pq.live, x.due s.cnt.clock = false

theorem NoneDue.calmer {s t : State} (h : NoneDue s) (k : Calmer s t) (hn : 100 ≤ s.par.tNip) : NoneDue t where
  silence := fun c => by rw [k.cnt, k.par]; exact h.silence c
  nip := by
    rw [k.par]
    rcases k.nipTimer with e | e | e <;> rw [e]
    · exact h.nip
    · exact decide_eq_false (by omega)
    · rfl
  hold := by
    rw [k.par]
    rcases k.hold with e | e <;> rw [e]
    · exact h.hold
    · rfl
  mains := by rw [k.heat]; exact h.mains
  link := by
    rw [k.par]
    rcases k.link with e | e <;> rw [e]
    · exact h.link
    · rfl
  live := fun x hx => by rw [k.cnt]; exact h.live x (k.live x hx)

section stages
variable {s : State}

theorem silenceDue_of_not {c : Chan} (h : (s.cnt.chan.get c).silence.due s.par.tSil = false) : silenceDue s c = s :=
  if_neg (by simp [h])
theorem nipDue_of_not (h : s.mot.nipTimer.due s.par.tNip = false) : nipDue s = s := if_neg (by simp [h])
theorem holdDue_of_not (h : s.mot.hold.due s.par.tHold = false) : holdDue s = s := if_neg (by simp [h])
theorem mainsDue_of_not (h : s.heat.lostTimer.due 25 = false) : mainsDue s = s :=
  if_neg (by simp [Config.mainsLostTime, h])
theorem linkDue_of_not (h : s.flt.link.due s.par.tLink = false) : linkDue s = s := if_neg (by simp [h])
theorem deadlineDue_of_not (h : ∀ x ∈ s.pq.live, x.due s.cnt.clock = false) : deadlineDue s = s := by
  have nothing : s.pq.live.find? (Txn.due s.cnt.clock) = none := List.find?_eq_none.mpr fun x hx => by simp [h x hx]
  rw [deadlineDue, nothing]

theorem running_of_due {limit : Int} {t : Timer} (h : t.due limit = true) : t.isRunning = true := by
  cases t <;> first | rfl | exact nomatch h

/-- The expiries from one stage on, where nothing is due (notes/assumptions/5.md). -/
theorem NoneDue.fromLink (h : NoneDue s) : deadlineDue (linkDue s) = s := by
  rw [linkDue_of_not h.link, deadlineDue_of_not h.live]
theorem NoneDue.fromMains (h : NoneDue s) : deadlineDue (linkDue (mainsDue s)) = s := by
  rw [mainsDue_of_not h.mains, h.fromLink]
theorem NoneDue.fromHold (h : NoneDue s) : deadlineDue (linkDue (mainsDue (holdDue s))) = s := by
  rw [holdDue_of_not h.hold, h.fromMains]
theorem NoneDue.fromNip (h : NoneDue s) : deadlineDue (linkDue (mainsDue (holdDue (nipDue s)))) = s := by
  rw [nipDue_of_not h.nip, h.fromHold]
theorem silences_of_not (h : ∀ c, (s.cnt.chan.get c).silence.due s.par.tSil = false) (l : List Chan) :
    l.foldl silenceDue s = s := by
  induction l with
  | nil => rfl
  | cons c l ih => rw [List.foldl_cons, silenceDue_of_not (h c), ih]
theorem NoneDue.fromSilence (h : NoneDue s) (l : List Chan) : l.foldl silenceDue s = s := silences_of_not h.silence l

end stages

/-- The timers of a state in which all but some are short of their limits. -/
structure Dues (s : State) (b : List Bool) : Prop where
  eq : [s.cnt.chan.paper.silence.due s.par.tSil, s.cnt.chan.fabric.silence.due s.par.tSil,
    s.cnt.chan.drum.silence.due s.par.tSil, s.mot.nipTimer.due s.par.tNip, s.mot.hold.due s.par.tHold,
    s.heat.lostTimer.due 25, s.flt.link.due s.par.tLink, s.pq.live.any (Txn.due s.cnt.clock)] = b

theorem Dues.taken {s : State} {b0 b1 b2 b3 b4 b5 b6 b7 : Bool} (h : Dues s [b0, b1, b2, b3, b4, b5, b6, b7]) :
    s.cnt.chan.paper.silence.due s.par.tSil = b0 ∧ s.cnt.chan.fabric.silence.due s.par.tSil = b1
      ∧ s.cnt.chan.drum.silence.due s.par.tSil = b2 ∧ s.mot.nipTimer.due s.par.tNip = b3
      ∧ s.mot.hold.due s.par.tHold = b4 ∧ s.heat.lostTimer.due 25 = b5 ∧ s.flt.link.due s.par.tLink = b6
      ∧ s.pq.live.any (Txn.due s.cnt.clock) = b7 := by
  simpa using h.eq

theorem noneLate {s : State} (h : s.pq.live.any (Txn.due s.cnt.clock) = false) :
    ∀ x ∈ s.pq.live, x.due s.cnt.clock = false := by
  simpa using h

theorem silence_cases {p : Chan → Prop} (paper : p .paper) (fabric : p .fabric) (drum : p .drum) (c : Chan) : p c := by
  cases c <;> assumption

theorem Dues.none {s : State} (h : Dues s (List.replicate 8 false)) : NoneDue s := by
  obtain ⟨paper, fabric, drum, nip, hold, mains, link, live⟩ := Dues.taken h
  exact ⟨silence_cases paper fabric drum, nip, hold, mains, link, noneLate live⟩

/-! ## The millisecond -/

/-- The expiries after every timer has run on. -/
def expire (s : State) : State :=
  deadlineDue (linkDue (mainsDue (holdDue (nipDue ([Chan.paper, .fabric, .drum].foldl silenceDue s)))))

theorem tick_eq (s : State) : tick s = expire (advance s) := rfl

theorem expire_of_none {s : State} (h : NoneDue s) : expire s = s := by
  rw [expire, h.fromSilence, h.fromNip]

/-- A silence timer that expires leaves nothing due where the others are short of their limits. -/
theorem silenceExpires_rested {s : State} {c : Chan} (hn : 100 ≤ s.par.tNip)
    (due : (s.cnt.chan.get c).silence.due s.par.tSil = true)
    (others : ∀ d, d ≠ c → (s.cnt.chan.get d).silence.due s.par.tSil = false)
    (nip : s.mot.nipTimer.due s.par.tNip = false) (hold : s.mot.hold.due s.par.tHold = false)
    (mains : s.heat.lostTimer.due 25 = false) (link : s.flt.link.due s.par.tLink = false)
    (live : ∀ x ∈ s.pq.live, x.due s.cnt.clock = false) : NoneDue (silenceExpires c s) := by
  have stands : NoneDue (updChan c (fun k => { k with silence := .standing s.par.tSil.toNat }) s) := by
    refine ⟨fun d => ?_, nip, hold, mains, link, live⟩
    show ((s.cnt.chan.set c _).get d).silence.due s.par.tSil = false
    by_cases hd : d = c
    · rw [hd, channels_get_set_same]; rfl
    · rw [channels_get_set_ne _ _ hd]; exact others d hd
  rw [silenceExpires, if_pos (running_of_due due)]
  exact stands.calmer (raise_calmer _ _ _) hn

theorem silenceDue_of_due {s : State} {c : Chan} (due : (s.cnt.chan.get c).silence.due s.par.tSil = true) :
    silenceDue s c = silenceExpires c s := if_pos due

/-! ## A timer that ends alone -/

theorem expire_paper {s : State} (hn : 100 ≤ s.par.tNip)
    (h : Dues s [true, false, false, false, false, false, false, false]) : expire s = silenceExpires .paper s := by
  obtain ⟨paper, fabric, drum, nip, hold, mains, link, live⟩ := h.taken
  have rested := silenceExpires_rested (c := .paper) hn paper (silence_cases (absurd rfl) (fun _ => fabric) fun _ => drum)
    nip hold mains link (noneLate live)
  rw [expire, List.foldl_cons, silenceDue_of_due (c := .paper) paper, rested.fromSilence, rested.fromNip]

theorem expire_fabric {s : State} (hn : 100 ≤ s.par.tNip)
    (h : Dues s [false, true, false, false, false, false, false, false]) : expire s = silenceExpires .fabric s := by
  obtain ⟨paper, fabric, drum, nip, hold, mains, link, live⟩ := h.taken
  have rested := silenceExpires_rested (c := .fabric) hn fabric
    (silence_cases (fun _ => paper) (absurd rfl) fun _ => drum) nip hold mains link (noneLate live)
  rw [expire, List.foldl_cons, silenceDue_of_not (c := .paper) paper, List.foldl_cons,
    silenceDue_of_due (c := .fabric) fabric, rested.fromSilence, rested.fromNip]

theorem expire_drum {s : State} (hn : 100 ≤ s.par.tNip)
    (h : Dues s [false, false, true, false, false, false, false, false]) : expire s = silenceExpires .drum s := by
  obtain ⟨paper, fabric, drum, nip, hold, mains, link, live⟩ := h.taken
  have rested := silenceExpires_rested (c := .drum) hn drum
    (silence_cases (fun _ => paper) (fun _ => fabric) (absurd rfl)) nip hold mains link (noneLate live)
  rw [expire, List.foldl_cons, silenceDue_of_not (c := .paper) paper, List.foldl_cons,
    silenceDue_of_not (c := .fabric) fabric, List.foldl_cons, silenceDue_of_due (c := .drum) drum, rested.fromSilence,
    rested.fromNip]

theorem expire_nip {s : State} (hn : 100 ≤ s.par.tNip)
    (h : Dues s [false, false, false, true, false, false, false, false]) : expire s = nipTimeout s := by
  obtain ⟨paper, fabric, drum, nip, hold, mains, link, live⟩ := h.taken
  have silence := silence_cases (p := fun c => (s.cnt.chan.get c).silence.due s.par.tSil = false) paper fabric drum
  have stands : NoneDue (s.upMot fun m => { m with nipTimer := .standing s.par.tNip.toNat }) :=
    ⟨silence, rfl, hold, mains, link, noneLate live⟩
  have rested : NoneDue (nipExpires s) := stands.calmer (raise_calmer _ _ _) hn
  rw [expire, silences_of_not silence, show nipDue s = nipExpires s from if_pos nip, rested.fromHold, nipTimeout,
    if_pos (running_of_due nip)]

theorem expire_hold {s : State} (hn : 100 ≤ s.par.tNip)
    (h : Dues s [false, false, false, false, true, false, false, false]) : expire s = nipHold s := by
  obtain ⟨paper, fabric, drum, nip, hold, mains, link, live⟩ := h.taken
  have silence := silence_cases (p := fun c => (s.cnt.chan.get c).silence.due s.par.tSil = false) paper fabric drum
  have stops : NoneDue (s.upMot fun m => { m with hold := .stopped }) :=
    ⟨silence, nip, rfl, mains, link, noneLate live⟩
  have rested : NoneDue (holdEnds s) := stops.calmer (nipOpen_calmer _) hn
  rw [expire, silences_of_not silence, nipDue_of_not nip, show holdDue s = holdEnds s from if_pos hold,
    rested.fromMains, nipHold, if_pos (running_of_due hold)]

theorem expire_mains {s : State} (hn : 100 ≤ s.par.tNip)
    (h : Dues s [false, false, false, false, false, true, false, false]) : expire s = mainsExpires s := by
  obtain ⟨paper, fabric, drum, nip, hold, mains, link, live⟩ := h.taken
  have silence := silence_cases (p := fun c => (s.cnt.chan.get c).silence.due s.par.tSil = false) paper fabric drum
  have gone : NoneDue (s.upHeat Heat.mainsGone) := ⟨silence, nip, hold, rfl, link, noneLate live⟩
  have rested : NoneDue (mainsLost s) := gone.calmer (raise_calmer _ _ _) hn
  rw [expire, silences_of_not silence, nipDue_of_not nip, holdDue_of_not hold,
    show mainsDue s = mainsLost s from if_pos mains, rested.fromLink, mainsExpires, if_pos (running_of_due mains)]

theorem expire_link {s : State} (hn : 100 ≤ s.par.tNip)
    (h : Dues s [false, false, false, false, false, false, true, false]) : expire s = linkExpires s := by
  obtain ⟨paper, fabric, drum, nip, hold, mains, link, live⟩ := h.taken
  have silence := silence_cases (p := fun c => (s.cnt.chan.get c).silence.due s.par.tSil = false) paper fabric drum
  have stands : NoneDue (s.upFlt fun f => { f with link := .standing s.par.tLink.toNat }) :=
    ⟨silence, nip, hold, mains, rfl, noneLate live⟩
  have rested : NoneDue (linkExpires s) := by
    rw [linkExpires, if_pos (running_of_due link)]
    exact stands.calmer (raise_calmer _ _ _) hn
  rw [expire, silences_of_not silence, nipDue_of_not nip, holdDue_of_not hold, mainsDue_of_not mains,
    show linkDue s = linkExpires s from if_pos link, deadlineDue_of_not rested.live]

/-- The deadline of the one transaction that awaits its answer. -/
theorem expire_deadline {s : State} (h : Dues s [false, false, false, false, false, false, false, true]) {x : Txn}
    (hx : x ∈ s.pq.live) (due : x.due s.cnt.clock = true)
    (only : ∀ y ∈ s.pq.live, y.phase = .awaitAccept → y = x) : expire s = timeDeadline x.num s := by
  obtain ⟨paper, fabric, drum, nip, hold, mains, link, -⟩ := h.taken
  have silence := silence_cases (p := fun c => (s.cnt.chan.get c).silence.due s.par.tSil = false) paper fabric drum
  have awaits : ∀ {y : Txn}, y.due s.cnt.clock = true → y.phase = .awaitAccept := fun hy => by
    rw [Txn.due, Bool.and_eq_true, decide_eq_true_eq] at hy
    exact hy.1
  have found : ∀ {p : Txn → Bool}, p x = true → (∀ y, p y = true → y.phase = .awaitAccept) →
      s.pq.live.find? p = some x := fun {p} px phase => by
    cases hf : s.pq.live.find? p with
    | none => exact absurd px (List.find?_eq_none.mp hf x hx)
    | some y => rw [only y (List.mem_of_find?_eq_some hf) (phase y (List.find?_some hf))]
  rw [expire, silences_of_not silence, nipDue_of_not nip, holdDue_of_not hold, mainsDue_of_not mains,
    linkDue_of_not link, deadlineDue, found due fun y hy => awaits hy, timeDeadline,
    found (p := fun t => t.num = x.num && t.phase = .awaitAccept) (by simp [awaits due]) fun y hy => by
      simp only [Bool.and_eq_true, decide_eq_true_eq] at hy
      exact hy.2]

/-! ## What the millisecond leaves -/

theorem advance_keeps {s : State} : Keeps [.cnt, .mot, .heat, .trg, .flt, .head, .lnk] s (advance s) := by
  intro b hb
  cases b <;> first | rfl | simp at hb

theorem tick_keeps {s : State} : Keeps tickTouches s (tick s) :=
  keeps_then (keeps_then (keeps_mono advance_keeps (by decide)) (keeps_foldl (fun _ _ => silenceDue_keeps) _ _) (by decide))
    afterSilence_keeps (by decide)

theorem silenceDue_clock (s : State) (c : Chan) : (silenceDue s c).cnt.clock = s.cnt.clock := by
  unfold silenceDue
  split
  · rw [silenceExpires_cnt]; split <;> rfl
  · rfl

theorem tick_clock (s : State) : (tick s).cnt.clock = s.cnt.clock + 1 := by
  have silences : ([Chan.paper, .fabric, .drum].foldl silenceDue (advance s)).cnt.clock = (advance s).cnt.clock :=
    (silenceDue_clock _ _).trans ((silenceDue_clock _ _).trans (silenceDue_clock _ _))
  exact (congrArg Counting.clock (afterSilence_keeps .cnt (by decide))).trans silences

/-! ## No expiry touches a pulse -/

theorem orphanSlot_pulses (i : Nat) (d : Option Dir) (s : State) : (orphanSlot i d s).trg.pulses = s.trg.pulses := by
  unfold orphanSlot
  split
  · exact (congrArg TrigUnit.pulses (triggerNotice_keeps (s := setTrigSlot i .free s) .trg (by decide))).trans rfl
  · rfl

theorem orphanPanel_pulses (tag : Nat) (d : Option Dir) (s : State) :
    (orphanPanel tag d s).trg.pulses = s.trg.pulses := by
  unfold orphanPanel
  generalize List.range s.trg.slots.length = l
  induction l generalizing s with
  | nil => rfl
  | cons i l ih =>
    rw [List.foldl_cons, ih]
    split
    · exact orphanSlot_pulses i d s
    · rfl

theorem removePanel_pulses (p : Panel) (d : Option Dir) (s : State) : (removePanel p d s).trg.pulses = s.trg.pulses := by
  unfold removePanel
  dsimp only
  split
  · exact orphanPanel_pulses _ _ _
  · rfl

theorem flushReport_pulses (d : Option Dir) (s : State) : (flushReport d s).trg.pulses = s.trg.pulses := by
  unfold flushReport
  split
  · rfl
  · split
    · split
      · exact removePanel_pulses _ _ _
      · rfl
    · rfl

theorem refusal_pulses (num : Nat) (p : Panel) (counted : Option EngineReason) (d : Option Dir) (s : State) :
    (refusal num p counted d s).trg.pulses = s.trg.pulses := by
  unfold refusal becomeDone
  dsimp only
  split
  · exact flushReport_pulses _ _
  · rfl

theorem startingDeadline_pulses (t : Txn) (d : Option Dir) (s : State) :
    (startingDeadline t d s).trg.pulses = s.trg.pulses := by
  unfold startingDeadline
  split
  · rw [refusal_pulses]
    exact congrArg TrigUnit.pulses (withdraw_keeps .trg (by decide))
  · exact congrArg TrigUnit.pulses (withdraw_keeps .trg (by decide))

theorem deadlineDue_pulses (s : State) : (deadlineDue s).trg.pulses = s.trg.pulses := by
  unfold deadlineDue
  split
  · exact (congrArg TrigUnit.pulses (decide_keeps .trg (by decide))).trans (startingDeadline_pulses _ _ _)
  · rfl

theorem beforeDeadline_trg (s : State) :
    (linkDue (mainsDue (holdDue (nipDue ([Chan.paper, .fabric, .drum].foldl silenceDue s))))).trg = s.trg := by
  have silence : ∀ {u : State} {c : Chan}, (silenceDue u c).trg = u.trg := silenceDue_keeps .trg (by decide)
  have nip : ∀ {u : State}, (nipDue u).trg = u.trg := fun {u} =>
    keeps_ite (fun _ => nipExpires_keeps) (fun _ => keeps_refl) .trg (by decide)
  have hold : ∀ {u : State}, (holdDue u).trg = u.trg := fun {u} =>
    keeps_ite (fun _ => holdEnds_keeps) (fun _ => keeps_refl) .trg (by decide)
  have mains : ∀ {u : State}, (mainsDue u).trg = u.trg := fun {u} =>
    keeps_ite (fun _ => mainsLost_keeps) (fun _ => keeps_refl) .trg (by decide)
  have link : ∀ {u : State}, (linkDue u).trg = u.trg := fun {u} =>
    keeps_ite (fun _ => linkExpires_keeps) (fun _ => keeps_refl) .trg (by decide)
  rw [link, mains, hold, nip]
  exact silence.trans (silence.trans silence)

theorem tick_pulse (s : State) (o : Output) : (tick s).trg.pulses.get o = (s.trg.pulses.get o).bind Pulse.tick := by
  have pulses : (tick s).trg.pulses = s.trg.pulses.map fun p => p.bind Pulse.tick :=
    (deadlineDue_pulses _).trans (congrArg TrigUnit.pulses (beforeDeadline_trg (advance s)))
  rw [pulses]
  cases o <;> rfl

/-! ## The obligation -/

theorem holdTick_eq (z : ZoneRec) :
    z.holdTick = { z with hold := match z.hold with | .running ms => .running (min 10000 (ms + 1)) | x => x } := by
  unfold ZoneRec.holdTick
  cases h : z.hold with
  | running ms => rfl
  | stopped | standing ms => dsimp only; rw [← h]

theorem next_due (limit : Int) (x : Timer) :
    x.next.due limit = match x with | .running ms => decide (limit ≤ (ms : Int) + 1) | _ => false := by
  cases x <;> rfl

theorem late_eq (now : Timestamp) (x : Txn) :
    x.due now = decide (x.phase = .awaitAccept ∧ x.accTime ≤ (now - x.started).toNat) := by
  rw [Bool.decide_and]; rfl

/-- Settles O2: the timers as `advance` leaves them, and the one that ends alone. -/
theorem idleStepIsOneMillisecond : Obligations.IdleStepIsOneMillisecond := by
  intro s hp
  refine ⟨tick s, by rw [step, hp], tick_clock s, tick_keeps, fun o => tick_pulse s o, ?_⟩
  intro up gap quiet a due late dues alone
  have ha : a = advance s := by
    have zones : (s.heat.zones.map fun z =>
        { z with hold := match z.hold with | .running ms => .running (min 10000 (ms + 1)) | x => x })
          = s.heat.zones.map ZoneRec.holdTick := congrArg (s.heat.zones.map ·) (funext fun z => (holdTick_eq z).symm)
    unfold advance
    rw [← zones]
    rfl
  have limits : ∀ limit x, due limit x = x.next.due limit := fun limit x => (next_due limit x).symm
  have lates : late = Txn.due (advance s).cnt.clock := funext fun x => by rw [late_eq, ← ha]
  have run : ∀ b, dues = b → Dues (advance s) b := fun b hb => ⟨by rw [← hb]; show _ = [_, _, _, _, _, _, _, _]; rw [lates]; simp only [limits]; rfl⟩
  clear_value a
  subst ha
  refine ⟨fun h => (tick_eq s).trans (expire_of_none (run _ h).none), fun params => ?_⟩
  have hn : 100 ≤ (advance s).par.tNip := (inRange_iff.mp (params.ranges .tNip)).1
  refine ⟨fun h => ?_, fun h => ?_, fun h => ?_, fun h => ?_, fun h => ?_, fun h => ?_, fun h => ?_, fun h x hx hl only => ?_⟩
  · rw [tick_eq, expire_paper hn (run _ h)]; rfl
  · rw [tick_eq, expire_fabric hn (run _ h)]; rfl
  · rw [tick_eq, expire_drum hn (run _ h)]; rfl
  · rw [tick_eq, expire_nip hn (run _ h)]; rfl
  · rw [tick_eq, expire_hold hn (run _ h)]; rfl
  · rw [tick_eq, expire_mains hn (run _ h)]; rfl
  · rw [tick_eq, expire_link hn (run _ h)]; rfl
  · rw [tick_eq, expire_deadline (run _ h) hx (lates ▸ hl) only]; rfl

end Sys2Proof.Machine
end

