-- ==== Sys2Proof/Proofs/Splices.lean ====
section
/-! PROOF. The SPLICE capture and the splice list (01 R12, 09 R162 to R164): a detection, and the points that a forward
count update of FP passes, taken in ascending position. -/

namespace Sys2Proof.Machine
open Sys2Proof

/-! ## Lists: a stable sort, and an element changed in place -/

theorem insertBy_perm {α : Type} (key : α → Int) (x : α) (l : List α) : (insertBy key x l).Perm (x :: l) := by
  induction l with
  | nil => exact .refl _
  | cons y ys ih =>
    unfold insertBy
    split
    · exact .refl _
    · exact (ih.cons y).trans (.swap x y ys)

theorem sortBy_perm {α : Type} (key : α → Int) (l : List α) : (sortBy key l).Perm l := by
  induction l with
  | nil => exact .refl _
  | cons x l ih => exact (insertBy_perm key x _).trans (ih.cons x)

theorem mem_sortBy {α : Type} {key : α → Int} {l : List α} {x : α} : x ∈ sortBy key l ↔ x ∈ l :=
  (sortBy_perm key l).mem_iff

/-- Elements of equal key keep their order. -/
theorem sortBy_pairwise {α : Type} {S : α → α → Prop} (key : α → Int) {l : List α} (h : l.Pairwise S) :
    (sortBy key l).Pairwise fun a b => key a < key b ∨ key a = key b ∧ S a b := by
  have insert : ∀ (x : α) (m : List α), (∀ y ∈ m, S x y) →
      m.Pairwise (fun a b => key a < key b ∨ key a = key b ∧ S a b) →
      (insertBy key x m).Pairwise fun a b => key a < key b ∨ key a = key b ∧ S a b := by
    intro x m
    induction m with
    | nil => exact fun _ _ => List.pairwise_singleton _ _
    | cons y ys ih =>
      intro first sorted
      obtain ⟨least, rest⟩ := List.pairwise_cons.mp sorted
      unfold insertBy
      split
      · next hxy =>
        refine List.pairwise_cons.mpr ⟨fun z hz => ?_, sorted⟩
        have hyz : key y ≤ key z := by
          rcases List.mem_cons.mp hz with rfl | hz
          · exact Int.le_refl _
          · exact (least z hz).elim Int.le_of_lt fun e => Int.le_of_eq e.1
        rcases Int.lt_or_eq_of_le (Int.le_trans hxy hyz) with hlt | heq
        · exact .inl hlt
        · exact .inr ⟨heq, first z hz⟩
      · next hxy =>
        refine List.pairwise_cons.mpr ⟨fun z hz => ?_, ih (fun z hz => first z (.tail _ hz)) rest⟩
        rcases List.mem_cons.mp ((insertBy_perm key x ys).mem_iff.mp hz) with rfl | hz
        · exact .inl (by omega)
        · exact least z hz
  induction l with
  | nil => exact .nil
  | cons x l ih =>
    obtain ⟨first, rest⟩ := List.pairwise_cons.mp h
    exact insert x _ (fun y hy => first y (mem_sortBy.mp hy)) (ih rest)

theorem modifyAt_getElem? {α : Type} (f : α → α) (i : Nat) (l : List α) (j : Nat) :
    (modifyAt f i l)[j]? = if j = i then l[j]?.map f else l[j]? := by
  induction l generalizing i j with
  | nil => cases i <;> simp [modifyAt]
  | cons x xs ih => cases i <;> cases j <;> simp [modifyAt, ih]

theorem mem_indexed {α : Type} {n i : Nat} {x : α} {l : List α} : (i, x) ∈ indexed n l ↔ ∃ j, i = n + j ∧ l[j]? = some x := by
  induction l generalizing n with
  | nil => simp [indexed]
  | cons y ys ih =>
    rw [indexed, List.mem_cons, ih]
    constructor
    · rintro (h | ⟨j, rfl, hj⟩)
      · cases h; exact ⟨0, rfl, rfl⟩
      · exact ⟨j + 1, by omega, hj⟩
    · rintro ⟨j, rfl, hj⟩
      cases j with
      | zero => cases hj; exact .inl rfl
      | succ j => exact .inr ⟨j, by omega, hj⟩

/-- Changes in place, one after the other: an element takes those of its index. -/
theorem foldl_modifyAt_getElem? {α β : Type} (f : β → α → α) (index : β → Nat) (xs : List β) (l : List α) (j : Nat) :
    (xs.foldl (fun l x => modifyAt (f x) (index x) l) l)[j]? =
      l[j]?.map fun r => (xs.filter fun x => index x = j).foldl (fun r x => f x r) r := by
  induction xs generalizing l with
  | nil => simp
  | cons x xs ih =>
    rw [List.foldl_cons, ih, modifyAt_getElem?]
    by_cases h : j = index x
    · subst h; simp [Function.comp_def]
    · rw [if_neg h, List.filter_cons_of_neg (by simpa using Ne.symm h)]

/-! ## References (06 R105) -/

/-- The profile entries are the same but for their reference counts. -/
def RefsOnly (s t : State) : Prop := ∀ n, { t.prf.entry n with refs := 0 } = { s.prf.entry n with refs := 0 }

theorem refsOnly_of_prf {s t : State} (h : t.prf = s.prf) : RefsOnly s t := fun n => by rw [h]

theorem refsOnly_trans {s t u : State} (h : RefsOnly s t) (k : RefsOnly t u) : RefsOnly s u :=
  fun n => (k n).trans (h n)

/-- A change of one reference count. -/
theorem refsOnly_modify {s t : State} {n : Nat} {g : Nat → Nat}
    (h : t.prf = { s.prf with entries := modifyAt (fun e => { e with refs := g e.refs }) n s.prf.entries }) :
    RefsOnly s t := by
  intro m
  rw [h]
  show { ((modifyAt _ n s.prf.entries)[m]?).getD {} with refs := 0 } = { (s.prf.entries[m]?).getD {} with refs := 0 }
  rw [modifyAt_getElem?]
  split
  · cases s.prf.entries[m]? <;> rfl
  · rfl

theorem takeRef?_refsOnly {n : Option Nat} {s : State} : RefsOnly s (takeRef? n s) := by
  cases n with
  | none => exact refsOnly_of_prf rfl
  | some n => exact refsOnly_modify (g := (· + 1)) rfl

theorem dropRef?_refsOnly {n : Option Nat} {s : State} : RefsOnly s (dropRef? n s) := by
  cases n with
  | none => exact refsOnly_of_prf rfl
  | some n => exact refsOnly_modify (g := (· - 1)) rfl

theorem setPointer_refsOnly {p : Pointer} {n : Option Nat} {s : State} : RefsOnly s (setPointer p n s) :=
  refsOnly_trans dropRef?_refsOnly (refsOnly_trans takeRef?_refsOnly (refsOnly_of_prf rfl))

theorem setPointer_trg (p : Pointer) (n : Option Nat) (s : State) : (setPointer p n s).trg = s.trg.setPointer p n := by
  have refs : (takeRef? n (dropRef? (s.trg.pointer p) s)).trg = s.trg :=
    (takeRef?_keeps .trg (by decide)).trans (dropRef?_keeps .trg (by decide))
  show (takeRef? n (dropRef? (s.trg.pointer p) s)).trg.setPointer p n = _
  rw [refs]

/-! ## A SPLICE capture (01 R12, 09 R162) -/

/-- A capture is accepted forward, beyond the lockout. -/
theorem accepted_iff (s : State) : (s.captureOf .fabric).accepted s.cnt.lockout s.par.dSlock = true ↔
    s.cnt.chan.fabric.dir = .forward ∧ ∀ last, s.cnt.lockout = some last → last + s.par.dSlock < s.fp := by
  unfold Capture.accepted
  rw [Bool.and_eq_true, decide_eq_true_eq]
  refine and_congr Iff.rfl ?_
  cases s.cnt.lockout with
  | none => simp
  | some last =>
    rw [decide_eq_true_eq]
    exact ⟨fun h _ e => by cases e; exact h, fun h => h last rfl⟩

theorem spliceCapture_discarded {s : State}
    (h : ¬(s.captureOf .fabric).accepted s.cnt.lockout s.par.dSlock = true) : spliceCapture s = s := if_neg h

/-- The state in which a capture is recorded. -/
def State.spliceSeen (s : State) : State :=
  s.upCnt fun k => { k with spliceCap := some (s.captureOf .fabric), lockout := some (s.captureOf .fabric).value }

theorem spliceCapture_accepted {s : State} (h : (s.captureOf .fabric).accepted s.cnt.lockout s.par.dSlock = true) :
    spliceCapture s = captureEnds .splice s.fp (detectSplice s.fp s.spliceSeen) := if_pos h

/-- A detection with a place in the splice list: the new record, the announced fabric moved into it and FEED switched. -/
theorem detectSplice_room {fp : Int} {s : State} (h : s.trg.splices.length < 4) :
    (detectSplice fp s).trg = { s.trg with
        splices := s.trg.splices ++ [newSplice fp s.trg.announced s.par.lFn s.par.lFr s.par.margin s.par.arcLen]
        announced := none
        feed := if s.trg.announced.isSome then s.trg.announced else s.trg.feed }
      ∧ (detectSplice fp s).flt = (if s.flt.room = true then
          s.flt.place (.notice s.cnt.clock (.spliceSeen fp s.trg.announced (s.trg.splices.length + 1)))
        else { s.flt with dropped := true })
      ∧ (detectSplice fp s).mot = s.mot := by
  let u := s.upTrg fun u =>
    { u with
      splices := u.splices ++ [newSplice fp s.trg.announced s.par.lFn s.par.lFr s.par.margin s.par.arcLen]
      announced := none }
  let v := if s.trg.announced.isSome then setPointer .feed s.trg.announced u else u
  have detected : detectSplice fp s = notice (.spliceSeen fp s.trg.announced v.trg.splices.length) v := if_pos h
  have trg : v.trg = { s.trg with
      splices := s.trg.splices ++ [newSplice fp s.trg.announced s.par.lFn s.par.lFr s.par.margin s.par.arcLen]
      announced := none
      feed := if s.trg.announced.isSome then s.trg.announced else s.trg.feed } := by
    show (if _ then _ else _ : State).trg = _
    split
    · rw [setPointer_trg]; rfl
    · rfl
  have kept : Keeps [.prf, .trg] s v :=
    keeps_ite (fun _ => keeps_seq upTrg_keeps setPointer_keeps (by decide) (by decide)) fun _ => keeps_mono upTrg_keeps (by decide)
  have flt : v.flt = s.flt := kept .flt (by decide)
  have clock : v.cnt = s.cnt := kept .cnt (by decide)
  rw [detected, notice_trg, notice_mot]
  refine ⟨trg, ?_, kept .mot (by decide)⟩
  have count : v.trg.splices.length = s.trg.splices.length + 1 := by rw [trg]; simp
  unfold notice
  rw [flt, count]
  split
  · rw [State.upFlt_flt, flt, clock]
  · rw [State.upFlt_flt, flt]

theorem detectSplice_full {fp : Int} {s : State} (h : 4 ≤ s.trg.splices.length) :
    detectSplice fp s = raise .spliceOverflow none s := if_neg (Nat.not_lt.mpr h)

theorem captureEnds_line (cond : SeekCond) (p : Int) (s : State) : (captureEnds cond p s).mot.line = s.mot.line := by
  rw [captureEnds_mot]; split <;> rfl

theorem FaultTaken.of_same {c : Cause} {i : Option Nat} {s t u : State} (h : FaultTaken c i s t)
    (flt : u.flt = t.flt) (line : u.mot.line = t.mot.line) : FaultTaken c i s u := by
  unfold FaultTaken LatchTakes at h ⊢
  rwa [flt, line]

theorem spliceCapture_full {s : State} (h : (s.captureOf .fabric).accepted s.cnt.lockout s.par.dSlock = true)
    (full : 4 ≤ s.trg.splices.length) :
    (spliceCapture s).trg = s.trg ∧ FaultTaken .spliceOverflow none s (spliceCapture s) := by
  rw [spliceCapture_accepted h, detectSplice_full (s := s.spliceSeen) full]
  have raised : FaultTaken .spliceOverflow none s (raise .spliceOverflow none s.spliceSeen) :=
    .of_timer rfl rfl rfl rfl rfl
  exact ⟨(captureEnds_keeps .trg (by decide)).trans (raise_trg _ _ _),
    raised.of_same (captureEnds_keeps .flt (by decide)) (captureEnds_line _ _ _)⟩

/-! ## One point of a record (09 R163) -/

/-- What a point does to its record. -/
def SplicePoint.act : SplicePoint → Splice → Splice
  | .nipStart, r => { r with state := .atNip }
  | .nipEnd, r => { r with state := .passedNip }
  | .rewind, r => { r with switched := true }

theorem act_next (k : SplicePoint) (r : Splice) : (k.act r).next = r.next := by cases k <;> rfl

/-- The next profile of the record at a place. -/
def nextAt (l : List Splice) (i : Nat) : Option Nat := l[i]?.bind Splice.next

/-- A pointer that switches at the points of one kind, to the next profile of the record if it has one. -/
def switchAt (k : SplicePoint) (l : List Splice) (n : Option Nat) (x : Int × Nat × SplicePoint) : Option Nat :=
  if x.2.2 = k then (nextAt l x.2.1).or n else n

/-- A panel is marked where it is in the arc (09 R164). -/
def Panel.spliced (p : Panel) : Panel :=
  if p.inArc then { p with flags := { p.flags with spliceAffected := true } } else p

/-- The queue with every panel in the arc marked. -/
def PanelQueue.spliced (q : PanelQueue) : PanelQueue := { q with queue := q.queue.map Panel.spliced }

theorem panel_spliced_spliced (p : Panel) : p.spliced.spliced = p.spliced := by
  by_cases h : p.inArc = true
  · have marked : p.spliced = { p with flags := { p.flags with spliceAffected := true } } := if_pos h
    rw [marked]
    exact if_pos h
  · have same : p.spliced = p := if_neg h
    rw [same, same]

theorem spliced_spliced (q : PanelQueue) : q.spliced.spliced = q.spliced := by
  unfold PanelQueue.spliced
  congr 1
  rw [List.map_map]
  exact List.map_congr_left fun p _ => panel_spliced_spliced p

theorem nextAt_modifyAt (k : SplicePoint) (i : Nat) (l : List Splice) : nextAt (modifyAt k.act i l) = nextAt l := by
  funext j
  unfold nextAt
  rw [modifyAt_getElem?]
  split
  · cases l[j]? with
    | none => rfl
    | some r => exact act_next k r
  · rfl

theorem switchAt_modifyAt (k m : SplicePoint) (i : Nat) (l : List Splice) :
    switchAt k (modifyAt m.act i l) = switchAt k l := by
  unfold switchAt
  rw [nextAt_modifyAt]

/-- A pointer switches where the record names a next profile. -/
def switchTo (p : Pointer) (n : Option Nat) (s : State) : State := if n.isSome then setPointer p n s else s

theorem switchTo_trg (p : Pointer) (n : Option Nat) (s : State) :
    (switchTo p n s).trg = s.trg.setPointer p (n.or (s.trg.pointer p)) := by
  cases n with
  | none => cases p <;> rfl
  | some n => exact setPointer_trg p (some n) s

theorem switchTo_refsOnly {p : Pointer} {n : Option Nat} {s : State} : RefsOnly s (switchTo p n s) := by
  unfold switchTo
  split
  · exact setPointer_refsOnly
  · exact refsOnly_of_prf rfl

theorem switchTo_pq (p : Pointer) (n : Option Nat) (s : State) : (switchTo p n s).pq = s.pq := by
  unfold switchTo
  split
  · exact setPointer_keeps .pq (by decide)
  · rfl

/-- The record at a place takes its point. -/
def putPoint (i : Nat) (k : SplicePoint) (s : State) : State :=
  s.upTrg fun u => { u with splices := modifyAt k.act i u.splices }

theorem actPoint_eq {s : State} {i : Nat} {k : SplicePoint} {r : Splice} (h : s.trg.splices[i]? = some r) :
    actPoint s (i, k) = match k with
      | .nipStart => markArc (switchTo .nip r.next (putPoint i k s))
      | .nipEnd => putPoint i k s
      | .rewind => switchTo .rewind r.next (putPoint i k s) := by
  unfold actPoint
  dsimp only
  rw [h]
  cases k <;> rfl

/-- What a point of a record does: to the record, to the pointer of its kind, to the panels in the arc. -/
theorem actPoint_effect {s : State} {x : Int × Nat × SplicePoint} (h : ∃ r, s.trg.splices[x.2.1]? = some r) :
    (actPoint s x.2).trg = { s.trg with
        splices := modifyAt x.2.2.act x.2.1 s.trg.splices
        nip := switchAt .nipStart s.trg.splices s.trg.nip x
        rewind := switchAt .rewind s.trg.splices s.trg.rewind x }
      ∧ (actPoint s x.2).pq = (if x.2.2 = .nipStart then s.pq.spliced else s.pq)
      ∧ RefsOnly s (actPoint s x.2) := by
  obtain ⟨pos, i, k⟩ := x
  obtain ⟨r, hr⟩ := h
  have next : nextAt s.trg.splices i = r.next := congrArg (Option.bind · Splice.next) hr
  show (actPoint s (i, k)).trg = _ ∧ (actPoint s (i, k)).pq = _ ∧ RefsOnly s (actPoint s (i, k))
  rw [actPoint_eq hr]
  unfold switchAt
  dsimp only
  rw [next]
  cases k with
  | nipStart =>
    refine ⟨(switchTo_trg _ _ _).trans rfl, congrArg PanelQueue.spliced (switchTo_pq _ _ _), ?_⟩
    exact refsOnly_trans (refsOnly_of_prf rfl) switchTo_refsOnly
  | nipEnd => exact ⟨rfl, rfl, refsOnly_of_prf rfl⟩
  | rewind =>
    exact ⟨(switchTo_trg _ _ _).trans rfl, switchTo_pq _ _ _, refsOnly_trans (refsOnly_of_prf rfl) switchTo_refsOnly⟩

/-! ## The points of an update, one after the other -/

/-- The points taken one after the other, each at its record. -/
theorem actPoints_effect (xs : List (Int × Nat × SplicePoint)) (s : State)
    (h : ∀ x ∈ xs, ∃ r, s.trg.splices[x.2.1]? = some r) :
    (xs.foldl (fun s x => actPoint s x.2) s).trg = { s.trg with
        splices := xs.foldl (fun l x => modifyAt x.2.2.act x.2.1 l) s.trg.splices
        nip := xs.foldl (switchAt .nipStart s.trg.splices) s.trg.nip
        rewind := xs.foldl (switchAt .rewind s.trg.splices) s.trg.rewind }
      ∧ (xs.foldl (fun s x => actPoint s x.2) s).pq = (if ∃ x ∈ xs, x.2.2 = .nipStart then s.pq.spliced else s.pq)
      ∧ RefsOnly s (xs.foldl (fun s x => actPoint s x.2) s) := by
  induction xs generalizing s with
  | nil => exact ⟨rfl, by simp, refsOnly_of_prf rfl⟩
  | cons x xs ih =>
    obtain ⟨trg, pq, refs⟩ := actPoint_effect (h x List.mem_cons_self)
    have places : ∀ y ∈ xs, ∃ r, (actPoint s x.2).trg.splices[y.2.1]? = some r := by
      intro y hy
      obtain ⟨r, hr⟩ := h y (.tail _ hy)
      rw [trg]
      show ∃ r, (modifyAt x.2.2.act x.2.1 s.trg.splices)[y.2.1]? = some r
      rw [modifyAt_getElem?, hr]
      split <;> exact ⟨_, rfl⟩
    obtain ⟨trg', pq', refs'⟩ := ih (actPoint s x.2) places
    simp only [List.foldl_cons]
    refine ⟨?_, ?_, refsOnly_trans refs refs'⟩
    · rw [trg', trg]
      simp only [switchAt_modifyAt]
    · rw [pq', pq]
      by_cases hx : x.2.2 = .nipStart
      · rw [if_pos hx, spliced_spliced, ite_self, if_pos ⟨x, List.mem_cons_self, hx⟩]
      · rw [if_neg hx]
        exact if_congr (by simp [hx]) rfl rfl

/-- The record after points of which the nip is not entered after it has been passed. -/
theorem foldl_act (ks : List SplicePoint) (r : Splice) (h : ks.Pairwise fun a b => ¬(a = .nipEnd ∧ b = .nipStart)) :
    ks.foldl (fun r k => k.act r) r = { r with
      state := if .nipEnd ∈ ks then .passedNip else if .nipStart ∈ ks then .atNip else r.state
      switched := r.switched || decide (.rewind ∈ ks) } := by
  induction ks generalizing r with
  | nil => simp
  | cons k ks ih =>
    obtain ⟨first, rest⟩ := List.pairwise_cons.mp h
    rw [List.foldl_cons, ih _ rest]
    cases k with
    | nipStart => by_cases he : SplicePoint.nipEnd ∈ ks <;> by_cases hs : SplicePoint.nipStart ∈ ks <;>
        simp [SplicePoint.act, he, hs]
    | nipEnd =>
      have hs : SplicePoint.nipStart ∉ ks := fun hs => first _ hs ⟨rfl, rfl⟩
      simp [SplicePoint.act, hs]
    | rewind => simp [SplicePoint.act]

/-- The last of the points of a kind that name a next profile decides the pointer. -/
theorem foldl_switch {α : Type} (hit : α → Prop) [DecidablePred hit] (val : α → Option Nat) (pos : α → Int)
    (xs : List α) (old : Option Nat) (sorted : xs.Pairwise fun a b => pos a ≤ pos b) :
    ((∀ x ∈ xs, hit x → val x = none) → xs.foldl (fun n x => if hit x then (val x).or n else n) old = old)
      ∧ ∀ x ∈ xs, hit x → val x ≠ none →
          (∀ y ∈ xs, hit y → val y ≠ none → pos y < pos x ∨ val y = val x) →
          xs.foldl (fun n x => if hit x then (val x).or n else n) old = val x := by
  induction xs using List.reverseRecOn with
  | nil => exact ⟨fun _ => rfl, fun x hx => nomatch hx⟩
  | append_singleton xs z ih =>
    obtain ⟨before, -, last⟩ := List.pairwise_append.mp sorted
    obtain ⟨none, some⟩ := ih before
    simp only [List.foldl_append, List.foldl_cons, List.foldl_nil]
    by_cases hz : hit z ∧ val z ≠ .none
    · obtain ⟨w, hw⟩ := Option.ne_none_iff_exists'.mp hz.2
      rw [if_pos hz.1, hw]
      refine ⟨fun h => absurd (h z (by simp) hz.1) hz.2, fun x hx _ _ least => ?_⟩
      rcases least z (by simp) hz.1 hz.2 with hlt | he
      · rcases List.mem_append.mp hx with hx | hx
        · exact absurd (last x hx z (by simp)) (by omega)
        · rw [List.mem_singleton.mp hx] at hlt; omega
      · exact hw.symm.trans he
    · have quiet : ∀ n : Option Nat, (if hit z then (val z).or n else n) = n := fun n => by
        split
        · next h =>
          rw [show val z = .none from by_contra fun hv => hz ⟨h, hv⟩]; rfl
        · rfl
      rw [quiet]
      refine ⟨fun h => none fun x hx => h x (by simp [hx]), fun x hx hhit hval least => ?_⟩
      rcases List.mem_append.mp hx with hx | hx
      · exact some x hx hhit hval fun y hy => least y (by simp [hy])
      · rw [List.mem_singleton.mp hx] at hhit hval
        exact absurd ⟨hhit, hval⟩ hz

/-! ## The points of all records, in ascending position -/

/-- The points that the records act on at a forward update to `new`, with their positions. -/
def pointsOf (l : List Splice) (new : Int) : List (Int × Nat × SplicePoint) :=
  (indexed 0 l).flatMap fun (i, r) => (r.points new).map fun (pos, k) => (pos, i, k)

/-- A record acts on a point of this kind, at this position. -/
def Splice.actsAt (r : Splice) (new : Int) (k : SplicePoint) (pos : Int) : Prop :=
  match k with
  | .nipStart => pos = r.nipStart ∧ r.state = .approaching ∧ r.nipStart ≤ new
  | .nipEnd => pos = r.nipEnd ∧ r.state ≠ .passedNip ∧ r.nipEnd < new
  | .rewind => pos = r.rewindPoint ∧ r.switched = false ∧ r.rewindPoint ≤ new

theorem mem_points {r : Splice} {new pos : Int} {k : SplicePoint} :
    (pos, k) ∈ r.points new ↔ r.actsAt new k pos := by
  unfold Splice.points
  rw [List.mem_append, List.mem_append]
  have single : ∀ (c : Bool) (p : Int) (m : SplicePoint),
      (pos, k) ∈ (if c = true then [(p, m)] else []) ↔ k = m ∧ pos = p ∧ c = true := by
    intro c p m
    cases c <;> simp [and_comm]
  rw [single, single, single]
  cases k <;> simp [Splice.actsAt]

theorem mem_pointsOf {l : List Splice} {new pos : Int} {i : Nat} {k : SplicePoint} :
    (pos, i, k) ∈ pointsOf l new ↔ ∃ r, l[i]? = some r ∧ r.actsAt new k pos := by
  unfold pointsOf
  rw [List.mem_flatMap]
  constructor
  · rintro ⟨⟨j, r⟩, hr, hx⟩
    obtain ⟨⟨p, m⟩, hp, e⟩ := List.mem_map.mp hx
    cases e
    obtain ⟨j, rfl, hj⟩ := mem_indexed.mp hr
    exact ⟨r, by simpa using hj, mem_points.mp hp⟩
  · rintro ⟨r, hr, acts⟩
    exact ⟨(i, r), mem_indexed.mpr ⟨i, by simp, hr⟩, List.mem_map.mpr ⟨(pos, k), mem_points.mpr acts, rfl⟩⟩

theorem indexed_ascend {α : Type} (n : Nat) (l : List α) : (indexed n l).Pairwise fun a b => a.1 < b.1 := by
  induction l generalizing n with
  | nil => exact .nil
  | cons x l ih =>
    refine List.pairwise_cons.mpr ⟨?_, ih (n + 1)⟩
    rintro ⟨i, y⟩ hy
    obtain ⟨j, rfl, -⟩ := mem_indexed.mp hy
    show n < n + 1 + j
    omega

/-- The nip is not entered after it has been passed: not the two points of one record the wrong way round. -/
def InOrder (x y : Int × Nat × SplicePoint) : Prop := ¬(x.2.1 = y.2.1 ∧ x.2.2 = .nipEnd ∧ y.2.2 = .nipStart)

theorem pointsOf_inOrder (l : List Splice) (new : Int) : (pointsOf l new).Pairwise InOrder := by
  refine List.pairwise_flatMap.mpr ⟨fun ⟨i, r⟩ _ => ?_, (indexed_ascend 0 l).imp fun {a b} hab x hx y hy => ?_⟩
  · rw [List.pairwise_map]
    unfold Splice.points
    split <;> split <;> split <;> simp [InOrder]
  · obtain ⟨_, _, rfl⟩ := List.mem_map.mp hx
    obtain ⟨_, _, rfl⟩ := List.mem_map.mp hy
    exact fun h => absurd h.1 (Nat.ne_of_lt hab)

theorem sorted_ascend (l : List Splice) (new : Int) :
    (sortBy Prod.fst (pointsOf l new)).Pairwise fun a b => a.1 ≤ b.1 :=
  (sortBy_pairwise _ (pointsOf_inOrder l new)).imp fun h => h.elim Int.le_of_lt fun e => Int.le_of_eq e.1

/-- The start of a record's nip does not lie beyond its end, so the sort keeps its two points in order. -/
theorem sorted_inOrder {l : List Splice} (new : Int) (h : ∀ r ∈ l, r.nipStart ≤ r.nipEnd) :
    (sortBy Prod.fst (pointsOf l new)).Pairwise InOrder := by
  refine (sortBy_pairwise Prod.fst (pointsOf_inOrder l new)).imp_of_mem ?_
  rintro ⟨p, i, k⟩ ⟨q, j, m⟩ hx hy order ⟨rfl, rfl, rfl⟩
  obtain ⟨r, hr, rfl, -⟩ := mem_pointsOf.mp (mem_sortBy.mp hx)
  obtain ⟨r', hr', rfl, -⟩ := mem_pointsOf.mp (mem_sortBy.mp hy)
  obtain rfl : r = r' := Option.some.inj (hr.symm.trans hr')
  have le := h r (List.mem_of_getElem? hr)
  rcases order with lt | ⟨-, order⟩
  · exact absurd lt (Int.not_lt.mpr le)
  · exact order ⟨rfl, rfl, rfl⟩

/-- A record after an update of FP to `new` (09 R163). -/
def Splice.moved (new : Int) (r : Splice) : Splice :=
  { r with
    state := if r.nipEnd < new then .passedNip
      else if r.state = .approaching ∧ r.nipStart ≤ new then .atNip else r.state
    switched := r.switched || decide (r.rewindPoint ≤ new) }

/-- The records after their points. -/
theorem foldl_points {l : List Splice} (new : Int) (h : ∀ r ∈ l, r.nipStart ≤ r.nipEnd) :
    (sortBy Prod.fst (pointsOf l new)).foldl (fun l x => modifyAt x.2.2.act x.2.1 l) l = l.map (Splice.moved new) := by
  refine List.ext_getElem? fun j => ?_
  rw [foldl_modifyAt_getElem? (fun x : Int × Nat × SplicePoint => x.2.2.act) (fun x => x.2.1), List.getElem?_map]
  cases hr : l[j]? with
  | none => rfl
  | some r =>
    let mine := (sortBy Prod.fst (pointsOf l new)).filter fun x => x.2.1 = j
    have kinds : ∀ k, k ∈ mine.map (·.2.2) ↔ ∃ pos, r.actsAt new k pos := by
      intro k
      rw [List.mem_map]
      constructor
      · rintro ⟨⟨pos, i, m⟩, hx, rfl⟩
        obtain ⟨hx', hi⟩ := List.mem_filter.mp hx
        obtain rfl : i = j := of_decide_eq_true hi
        obtain ⟨r', hr', acts⟩ := mem_pointsOf.mp (mem_sortBy.mp hx')
        obtain rfl : r = r' := Option.some.inj (hr.symm.trans hr')
        exact ⟨pos, acts⟩
      · rintro ⟨pos, acts⟩
        refine ⟨(pos, j, k), List.mem_filter.mpr ⟨mem_sortBy.mpr (mem_pointsOf.mpr ⟨r, hr, acts⟩), ?_⟩, rfl⟩
        exact decide_eq_true rfl
    have order : (mine.map (·.2.2)).Pairwise fun a b => ¬(a = .nipEnd ∧ b = .nipStart) := by
      rw [List.pairwise_map]
      refine ((sorted_inOrder new h).filter _).imp_of_mem fun {x y} hx hy hxy hk => hxy ⟨?_, hk⟩
      exact (of_decide_eq_true (List.mem_filter.mp hx).2).trans (of_decide_eq_true (List.mem_filter.mp hy).2).symm
    refine congrArg some ?_
    show mine.foldl (fun r x => x.2.2.act r) r = r.moved new
    rw [← List.foldl_map (f := fun x : Int × Nat × SplicePoint => x.2.2) (g := fun r k => SplicePoint.act k r),
      foldl_act _ _ order]
    simp only [kinds, Splice.actsAt, exists_eq_left]
    unfold Splice.moved
    have state : (if r.state ≠ .passedNip ∧ r.nipEnd < new then SpliceState.passedNip
        else if r.state = .approaching ∧ r.nipStart ≤ new then .atNip else r.state)
          = if r.nipEnd < new then .passedNip
            else if r.state = .approaching ∧ r.nipStart ≤ new then .atNip else r.state := by
      by_cases passed : r.state = .passedNip <;> simp [passed]
    have switched : (r.switched || decide (r.switched = false ∧ r.rewindPoint ≤ new))
        = (r.switched || decide (r.rewindPoint ≤ new)) := by
      cases r.switched <;> simp
    rw [state, switched]

/-! ## The pointers -/

/-- A record names a pointer's next profile at its point of one kind; the record furthest on decides (09 R163). -/
theorem foldl_pointer {l : List Splice} (new : Int) (k : SplicePoint) (acts : Splice → Prop) (at_ : Splice → Int)
    (old : Option Nat) (h : ∀ r pos, r.actsAt new k pos ↔ pos = at_ r ∧ acts r) :
    ((∀ r ∈ l, acts r → r.next = none) → (sortBy Prod.fst (pointsOf l new)).foldl (switchAt k l) old = old)
      ∧ ∀ r ∈ l, acts r → r.next ≠ none →
          (∀ q ∈ l, acts q → q.next ≠ none → at_ q < at_ r ∨ q.next = r.next) →
          (sortBy Prod.fst (pointsOf l new)).foldl (switchAt k l) old = r.next := by
  obtain ⟨none, last⟩ := foldl_switch (fun x : Int × Nat × SplicePoint => x.2.2 = k) (fun x => nextAt l x.2.1) Prod.fst
    (sortBy Prod.fst (pointsOf l new)) old (sorted_ascend l new)
  have record : ∀ x ∈ sortBy Prod.fst (pointsOf l new), x.2.2 = k →
      ∃ r ∈ l, acts r ∧ x.1 = at_ r ∧ nextAt l x.2.1 = r.next := by
    rintro ⟨pos, i, m⟩ hx rfl
    obtain ⟨r, hr, hacts⟩ := mem_pointsOf.mp (mem_sortBy.mp hx)
    obtain ⟨hpos, hacts⟩ := (h r pos).mp hacts
    exact ⟨r, List.mem_of_getElem? hr, hacts, hpos, congrArg (Option.bind · Splice.next) hr⟩
  refine ⟨fun quiet => none fun x hx hk => ?_, fun r hr hacts hnext least => ?_⟩
  · obtain ⟨r, hr, hacts, -, hnext⟩ := record x hx hk
    exact hnext.trans (quiet r hr hacts)
  · obtain ⟨i, hi⟩ := List.getElem?_of_mem hr
    have hval : nextAt l i = r.next := congrArg (Option.bind · Splice.next) hi
    have point : (at_ r, i, k) ∈ sortBy Prod.fst (pointsOf l new) :=
      mem_sortBy.mpr (mem_pointsOf.mpr ⟨r, hi, (h r _).mpr ⟨rfl, hacts⟩⟩)
    refine (last _ point rfl (by show nextAt l i ≠ _; rw [hval]; exact hnext) fun y hy hk hy' => ?_).trans hval
    obtain ⟨q, hq, qacts, qpos, qnext⟩ := record y hy hk
    show y.1 < at_ r ∨ nextAt l y.2.1 = nextAt l i
    rw [qpos, qnext, hval]
    exact least q hq qacts (qnext ▸ hy')

/-! ## The update of FP (01 R7) -/

/-- The trigger and window unit may differ in slots, windows and pulses alone. -/
def FabricSame (s t : State) : Prop :=
  ∃ slots windows pulses, t.trg = { s.trg with slots := slots, windows := windows, pulses := pulses }

theorem fabricSame_of_trg {s t : State} (h : t.trg = s.trg) : FabricSame s t := ⟨_, _, _, h⟩

theorem fabricSame_trans {s t u : State} (h : FabricSame s t) (k : FabricSame t u) : FabricSame s u := by
  obtain ⟨_, _, _, h⟩ := h
  obtain ⟨slots, windows, pulses, k⟩ := k
  exact ⟨slots, windows, pulses, by rw [k, h]⟩

theorem fabricSame_foldl {α : Type} {f : State → α → State} (h : ∀ s x, FabricSame s (f s x)) (xs : List α) (s : State) :
    FabricSame s (xs.foldl f s) := by
  induction xs generalizing s with
  | nil => exact fabricSame_of_trg rfl
  | cons x xs ih => exact fabricSame_trans (h s x) (ih _)

theorem triggerNotice_trg {i : Nat} {o : Origin} {t : Trigger} {d : Option Dir} {r : FireResult} {s : State} :
    (triggerNotice i o t d r s).trg = s.trg := triggerNotice_keeps .trg (by decide)

theorem fire_fabricSame {i : Nat} {o : Origin} {t : Trigger} {d : Option Dir} {late : Bool} {s : State} :
    FabricSame s (fire i o t d late s) := by
  unfold fire
  cases t.action with
  | notify =>
    dsimp only
    exact fabricSame_trans (fabricSame_of_trg triggerNotice_trg) ⟨_, _, _, rfl⟩
  | pulse o' =>
    have pulsed : FabricSame s (startPulse o' s) := ⟨_, _, _, rfl⟩
    dsimp only
    split
    · exact fabricSame_trans pulsed (fabricSame_trans (fabricSame_of_trg triggerNotice_trg) ⟨_, _, _, rfl⟩)
    · exact fabricSame_trans pulsed ⟨_, _, _, rfl⟩

theorem judgeWindow_fabricSame {axis : Axis} {dir : Dir} {count : Int} {s : State} {i : Nat} :
    FabricSame s (judgeWindow axis dir count s i) := by
  unfold judgeWindow
  split
  · split
    · dsimp only
      split
      · exact ⟨_, _, _, notice_trg _ _⟩
      · exact ⟨_, _, _, rfl⟩
    · exact fabricSame_of_trg rfl
  · exact fabricSame_of_trg rfl

theorem crossings_fabricSame {axis : Axis} {old new : Int} {s : State} :
    FabricSame s (judgeWindows axis old new (fireCrossed axis old new s)) :=
  fabricSame_trans (fabricSame_foldl (fun _ _ => fire_fabricSame) _ _)
    (fabricSame_foldl (fun _ _ => judgeWindow_fabricSame) _ _)

theorem dropRefs_keeps (l : List Splice) (s : State) :
    Keeps [.prf] s (l.foldl (fun s r => dropRef? r.next s) s) :=
  keeps_foldl (fun _ _ => dropRef?_keeps) l s

theorem dropRefs_refsOnly (l : List Splice) (s : State) : RefsOnly s (l.foldl (fun s r => dropRef? r.next s) s) := by
  induction l generalizing s with
  | nil => exact refsOnly_of_prf rfl
  | cons r l ih => exact refsOnly_trans dropRef?_refsOnly (ih _)

theorem freeSplices_effect (s : State) :
    (freeSplices s).trg = { s.trg with splices := s.trg.splices.filter fun r => !r.finished }
      ∧ (freeSplices s).pq = s.pq ∧ RefsOnly s (freeSplices s) :=
  ⟨dropRefs_keeps _ _ .trg (by decide), dropRefs_keeps _ _ .pq (by decide),
    refsOnly_trans (refsOnly_of_prf rfl) (dropRefs_refsOnly _ _)⟩

/-- What a forward update of FP does to the splice list, the pointers, the queue and the references. -/
theorem spliceUpdate_effect {old new : Int} {s : State} (h : old < new) :
    let sorted := sortBy Prod.fst (pointsOf s.trg.splices new)
    (spliceUpdate old new s).trg = { s.trg with
        splices := (sorted.foldl (fun l x => modifyAt x.2.2.act x.2.1 l) s.trg.splices).filter fun r => !r.finished
        nip := sorted.foldl (switchAt .nipStart s.trg.splices) s.trg.nip
        rewind := sorted.foldl (switchAt .rewind s.trg.splices) s.trg.rewind }
      ∧ (spliceUpdate old new s).pq = (if ∃ x ∈ sorted, x.2.2 = .nipStart then s.pq.spliced else s.pq)
      ∧ RefsOnly s (spliceUpdate old new s) := by
  intro sorted
  have places : ∀ x ∈ sorted, ∃ r, s.trg.splices[x.2.1]? = some r := by
    rintro ⟨pos, i, k⟩ hx
    obtain ⟨r, hr, -⟩ := mem_pointsOf.mp (mem_sortBy.mp hx)
    exact ⟨r, hr⟩
  obtain ⟨trg, pq, refs⟩ := actPoints_effect sorted s places
  obtain ⟨trg', pq', refs'⟩ := freeSplices_effect (sorted.foldl (fun s x => actPoint s x.2) s)
  rw [show spliceUpdate old new s = freeSplices (sorted.foldl (fun s x => actPoint s x.2) s) from if_pos h]
  exact ⟨by rw [trg', trg], pq'.trans pq, refsOnly_trans refs refs'⟩

theorem spliced_eq (q : PanelQueue) : q.spliced = { q with
    queue := q.queue.map fun p =>
      if p.arrived = true ∧ p.state ≠ .done then { p with flags := { p.flags with spliceAffected := true } } else p } := by
  unfold PanelQueue.spliced
  congr 1
  refine List.map_congr_left fun p _ => ?_
  exact if_congr (by simp [Panel.inArc]) rfl rfl

theorem rangeFault_same {ch : Chan} {old new : Channel} {s : State} (h : new.overrange = old.overrange) :
    rangeFault ch old new s = s := if_neg (by rw [h]; cases old.overrange <;> simp)

/-- A batch of FP that leaves OVERRANGE as it was: the update alone acts on the splice list. -/
theorem tickBatch_fabric {ticks : Ticks} {s : State}
    (h : (s.cnt.chan.fabric.take ticks).overrange = s.cnt.chan.fabric.overrange) :
    ∃ u, FabricSame s u ∧ u.pq = s.pq ∧ u.prf = s.prf
      ∧ tickBatch .fabric ticks s = if (s.cnt.chan.fabric.take ticks).count = s.fp then u
          else spliceUpdate s.fp (s.cnt.chan.fabric.take ticks).count u := by
  let v := s.upCnt fun k => { k with chan := k.chan.set .fabric (s.cnt.chan.fabric.take ticks) }
  have batch : tickBatch .fabric ticks s = if (s.cnt.chan.fabric.take ticks).count = s.fp then v
      else fpUpdate s.fp (s.cnt.chan.fabric.take ticks).count v := by
    show (if _ then rangeFault _ _ _ _ else handOn _ _ _ (rangeFault _ _ _ _)) = _
    rw [rangeFault_same (old := s.cnt.chan.get .fabric) (new := (s.cnt.chan.get .fabric).take ticks) h]
    rfl
  by_cases hc : (s.cnt.chan.fabric.take ticks).count = s.fp
  · exact ⟨v, fabricSame_of_trg rfl, rfl, rfl, by rw [batch, if_pos hc, if_pos hc]⟩
  · let u := judgeWindows .fabric s.fp (s.cnt.chan.fabric.take ticks).count
      (fireCrossed .fabric s.fp (s.cnt.chan.fabric.take ticks).count v)
    have kept : Keeps [.trg, .flt] v u := keeps_trans fireCrossed_keeps judgeWindows_keeps
    exact ⟨u, fabricSame_trans (fabricSame_of_trg (s := s) (t := v) rfl) crossings_fabricSame, kept .pq (by decide),
      kept .prf (by decide), by rw [batch, if_neg hc, if_neg hc]; rfl⟩

/-- Settles O12: the capture, then the update's points. -/
theorem spliceCaptureDetectsOrIsDiscarded : Obligations.SpliceCaptureDetectsOrIsDiscarded := by
  refine ⟨fun s => ⟨_, rfl, spliceCapture_keeps, ?_⟩, fun ticks s => ?_⟩
  · intro ok
    refine ⟨fun no => spliceCapture_discarded (mt (accepted_iff s).mp no), fun yes => ?_, fun yes room => ?_,
      fun yes full => spliceCapture_full ((accepted_iff s).mpr yes) full⟩
    · rw [spliceCapture_cnt, if_pos ((accepted_iff s).mpr yes)]
      have dir : (s.captureOf .fabric).dir = .forward := yes.1
      rw [show s.captureOf .fabric = ⟨s.fp, .forward, s.cnt.clock⟩ from dir ▸ rfl]
    · obtain ⟨trg, flt, mot⟩ := detectSplice_room (fp := s.fp) (s := s.spliceSeen) room
      rw [spliceCapture_accepted ((accepted_iff s).mpr yes)]
      refine ⟨(captureEnds_keeps .trg (by decide)).trans trg, ?_, (captureEnds_keeps .flt (by decide)).trans flt⟩
      rw [captureEnds_mot, mot]
      rfl
  · intro new enters rewinds moved points order calm
    obtain ⟨u, ⟨slots, windows, pulses, trg⟩, pq, prf, batch⟩ := tickBatch_fabric calm
    refine ⟨_, rfl, ?_⟩
    rw [batch]
    by_cases hn : s.fp < new
    · rw [if_neg (Int.ne_of_gt hn)]
      obtain ⟨trg', pq', refs⟩ := spliceUpdate_effect (s := u) hn
      have same : u.trg.splices = s.trg.splices := by rw [trg]
      rw [same] at trg' pq'
      rw [foldl_points new order] at trg'
      have nip : ∀ old, points enters Splice.nipStart old
          ((sortBy Prod.fst (pointsOf s.trg.splices new)).foldl (switchAt .nipStart s.trg.splices) old) := fun old =>
        foldl_pointer new .nipStart enters Splice.nipStart old fun r pos => Iff.rfl
      have rewind : ∀ old, points rewinds Splice.rewindPoint old
          ((sortBy Prod.fst (pointsOf s.trg.splices new)).foldl (switchAt .rewind s.trg.splices) old) := fun old =>
        foldl_pointer new .rewind rewinds Splice.rewindPoint old fun r pos => Iff.rfl
      rw [trg']
      refine ⟨by rw [trg], by rw [trg], refsOnly_trans (refsOnly_of_prf prf) refs,
        fun le => absurd hn (Int.not_lt.mpr le), fun _ => ⟨rfl, ?_, ?_, ?_⟩⟩
      · rw [trg]; exact nip _
      · rw [trg]; exact rewind _
      · have entered : (∃ x ∈ sortBy Prod.fst (pointsOf s.trg.splices new), x.2.2 = .nipStart)
            ↔ ∃ r ∈ s.trg.splices, enters r := by
          constructor
          · rintro ⟨⟨pos, i, k⟩, hx, rfl⟩
            obtain ⟨r, hr, acts⟩ := mem_pointsOf.mp (mem_sortBy.mp hx)
            exact ⟨r, List.mem_of_getElem? hr, acts.2⟩
          · rintro ⟨r, hr, acts⟩
            obtain ⟨i, hi⟩ := List.getElem?_of_mem hr
            exact ⟨(r.nipStart, i, .nipStart), mem_sortBy.mpr (mem_pointsOf.mpr ⟨r, hi, rfl, acts⟩), rfl⟩
        rw [pq', pq, spliced_eq]
        exact if_congr entered rfl rfl
    · have still : (if new = s.fp then u else spliceUpdate s.fp new u) = u := by
        split
        · rfl
        · exact if_neg hn
      rw [still, trg, pq, prf]
      exact ⟨rfl, rfl, fun _ => rfl, fun _ => ⟨rfl, rfl, rfl, rfl, rfl⟩, fun lt => absurd lt hn⟩

end Sys2Proof.Machine
end

