-- ==== Sys2Proof/Proofs/Readings.lean ====
section
/-! PROOF. The reading commands and the layouts of the manual's own tables (11 11.6): each reading answers with its data
and changes nothing; the status image, PANEL_REPORT and START byte by byte. -/

namespace Sys2Proof.Machine
open Sys2Proof Sys2Proof.Laws.Encoding

/-! ## Numbers and sets as the manual writes them (11 R182) -/

/-- A number in `width` bytes, high byte first, two's complement. -/
def bigEndian (width : Nat) (n : Int) : List Byte :=
  (List.range width).map fun i => BitVec.ofInt 8 (n / 256 ^ (width - 1 - i))

/-- The number of a set: 2 to the index of each member, summed. -/
def setNumber (l : List Bool) : Int := ((l.zipIdx.filter Prod.fst).map fun x => 2 ^ x.2).sum

theorem byteOf_eq_ofInt (n : Nat) : byteOf n = BitVec.ofInt 8 n :=
  BitVec.eq_of_toNat_eq (by simp only [byteOf, BitVec.toNat_ofNat, BitVec.toNat_ofInt]; omega)

theorem u8_eq_bigEndian (n : Nat) : u8 n = bigEndian 1 n := by
  simp [u8, bigEndian, byteOf_eq_ofInt]

theorem u16_eq_bigEndian (n : Nat) : u16 n = bigEndian 2 n := by
  simp [u16, bigEndian, byteOf_eq_ofInt, List.range_succ]

theorem u32_eq_bigEndian (n : Nat) : u32 n = bigEndian 4 n := by
  simp [u32, bigEndian, byteOf_eq_ofInt, List.range_succ]

/-- A byte of the two's complement in four bytes is that byte of the number. -/
theorem byteOf_wrapped (n : Int) {d : Nat} (hd : d = 1 ∨ d = 256 ∨ d = 65536 ∨ d = 16777216) :
    byteOf ((BitVec.ofInt 32 n).toNat / d) = BitVec.ofInt 8 (n / d) := by
  apply BitVec.eq_of_toNat_eq
  simp only [byteOf, BitVec.toNat_ofNat, BitVec.toNat_ofInt]
  obtain rfl | rfl | rfl | rfl := hd <;> omega

theorem i32_eq_bigEndian (n : Int) : i32 n = bigEndian 4 n := by
  have h1 := byteOf_wrapped n (d := 1) (by decide)
  have h2 := byteOf_wrapped n (d := 256) (by decide)
  have h3 := byteOf_wrapped n (d := 65536) (by decide)
  have h4 := byteOf_wrapped n (d := 16777216) (by decide)
  simp only [Nat.div_one, Nat.cast_one, Int.ediv_one, Nat.cast_ofNat] at h1 h2 h3 h4
  simp [i32, u32, h1, h2, h3, h4, bigEndian, List.range_succ, -BitVec.toNat_ofInt]

theorem sum_zipIdx_eq_bits (l : List Bool) (k : Nat) :
    (((l.zipIdx k).filter Prod.fst).map fun x => (2 : Int) ^ x.2).sum = 2 ^ k * bits l := by
  induction l generalizing k with
  | nil => rfl
  | cons b bs ih =>
    cases b
    · simp [ih, bits, pow_succ]; ring
    · simp [ih, bits, pow_succ]; ring

theorem bits_eq_setNumber (l : List Bool) : (bits l : Int) = setNumber l := by
  rw [setNumber, sum_zipIdx_eq_bits l 0, pow_zero, one_mul]

theorem set8_length (l : List Bool) : (set8 l).length = 1 := rfl

theorem set8_eq_bigEndian (l : List Bool) : set8 l = bigEndian 1 (setNumber l) := by
  rw [set8, u8_eq_bigEndian, bits_eq_setNumber]

theorem set16_eq_bigEndian (l : List Bool) : set16 l = bigEndian 2 (setNumber l) := by
  rw [set16, u16_eq_bigEndian, bits_eq_setNumber]

theorem sixBytes_eq_flatMap {α : Type} (enc : α → List Byte) (x : Six α) :
    sixBytes enc x = Zone.all.flatMap fun z => enc (x.get z) := rfl

/-! ## Codes number the values in the order of the manual's tables (11 R182) -/

theorem lineState_code_eq_idxOf (l : LineState) :
    l.code = [LineState.off, .warming, .ready, .running, .stopping, .threading, .halting, .faulted].idxOf l := by
  cases l <;> rfl

theorem cause_code_eq_idxOf (c : Cause) :
    c.code = [Cause.webBreak, .overTension, .overheat, .drumCold, .zoneSensor, .mainsLost, .nipTimeout, .stall,
      .encoderSilent, .positionRange, .spliceOverflow, .linkLost, .estop].idxOf c + 1 := by
  cases c <;> rfl

theorem loopState_code_eq_idxOf (l : LoopState) :
    l.code = [LoopState.off, .standby, .regulate, .hold, .fault].idxOf l := by
  cases l <;> rfl

theorem trackState_code_eq_idxOf (t : TrackState) :
    t.code = [TrackState.unlocked, .provisional, .locked, .holdover].idxOf t := by
  cases t <;> rfl

theorem dispatch_code_eq_idxOf (d : Dispatch) : d.code = [Dispatch.enabled, .held, .off].idxOf d := by
  cases d <;> rfl

theorem verdict_code_eq_idxOf :
    Verdict.code = [Verdict.good, .underDose, .overDose, .uncertain, .spoiled, .skipped, .cancelled].idxOf := by
  funext v; cases v <;> rfl

theorem panelKind_code_eq (k : PanelKind) : k.code = if k = .normal then 0 else 1 := by
  cases k <;> rfl

/-! ## The readings -/

section
variable {s : State} (h : s.takes)
include h

theorem profileRead_answers (tag : Byte) (n : Nat) (first : Option Int) :
    if 31 < n then Refused (.profileRead tag (some n) first) 0x32 tag .range s
    else Answered (.profileRead tag (some n) first) 0x32 tag .ok (entryBytes s.prf n) s s.acting := by
  split
  · next hn => exact refused_of_op (c := .profileRead tag (some n) first) h rfl (if_neg (by omega))
  · next hn => exact answered_of_op (c := .profileRead tag (some n) first) h rfl (if_pos (by omega))

theorem triggerRead_answers (tag : Byte) (n : Nat) :
    if 23 < n then Refused (.triggerRead tag n) 0x4B tag .range s
    else Answered (.triggerRead tag n) 0x4B tag .ok (s.triggerData (s.slot n)) s s.acting := by
  split
  · next hn => exact refused_of_op (c := .triggerRead tag n) h rfl (if_pos hn)
  · next hn => exact answered_of_op (c := .triggerRead tag n) h rfl (if_neg hn)

theorem readPanel_answers (tag : Byte) (n : Nat) :
    match s.panel? n with
    | none => Refused (.readPanel tag n) 0x40 tag .miss s
    | some p => Answered (.readPanel tag n) 0x40 tag .ok (panelData p) s s.acting := by
  have hop : hostOp (.readPanel tag n) s.acting =
      match s.panel? n with
      | some p => (s.acting, okData (panelData p))
      | none => (s.acting, refusedWith .miss) := rfl
  cases hp : s.panel? n with
  | none => exact refused_of_op (c := .readPanel tag n) h rfl (by rw [hop, hp])
  | some p => exact answered_of_op (c := .readPanel tag n) h rfl (by rw [hop, hp]; rfl)

theorem readProbe_hit (tag : Byte) {k : Nat} {b : Probe} (hk : s.dose.probes[k]? = some b) :
    Answered (.readProbe tag k) 0x25 tag .ok (probeBytes b) s s.acting := by
  refine answered_of_op (c := .readProbe tag k) h rfl ?_
  show readProbeOp k s.acting = _
  simp only [readProbeOp, acting_dose, Int.toNat_natCast, hk, if_neg (show ¬ (k : Int) < 0 by omega)]
  rfl

theorem readProbe_outside (tag : Byte) {i : Int} (hi : i < 0 ∨ (s.dose.probes.length : Int) ≤ i) :
    Refused (.readProbe tag i) 0x25 tag .range s := by
  refine refused_of_op (c := .readProbe tag i) h rfl ?_
  show readProbeOp i s.acting = _
  unfold readProbeOp
  split
  · rfl
  · next hn =>
    rw [acting_dose, List.getElem?_eq_none (by omega)]

end

/-! ## The status image (10 R174, 11 11.6.3) -/

/-- The `width` bytes at a place of a body. -/
def bytesAt (body : List Byte) (at_ width : Nat) : List Byte := (body.drop at_).take width

theorem bytesAt_append_of_le {a b : List Byte} {n w : Nat} (h : a.length ≤ n) :
    bytesAt (a ++ b) n w = bytesAt b (n - a.length) w := by
  rw [bytesAt, List.drop_append, List.drop_eq_nil_of_le h, List.nil_append, bytesAt]

theorem bytesAt_append_zero {a b : List Byte} {w : Nat} (h : a.length = w) : bytesAt (a ++ b) 0 w = a := by
  rw [bytesAt, List.drop_zero, List.take_left' h]

theorem bytesAt_zero {a : List Byte} {w : Nat} (h : a.length = w) : bytesAt a 0 w = a := by
  rw [bytesAt, List.drop_zero, ← h, List.take_length]

theorem latchBytes_length (l : Option Record) : (latchBytes l).length = 3 := by cases l <;> rfl

theorem statusData_length (s : State) : s.statusData.length = 51 := by
  have loops : (Loop.all.flatMap fun l => u8 (s.ten.get l).state.code).length = 3 := rfl
  have panels : (panelStates.flatMap fun st => u8 (countIn s.pq.queue st)).length = 7 := rfl
  have zones : (sixBytes zoneSummary s.heat.zones).length = 6 := rfl
  have stamp : s.stamp.length = 4 := rfl
  simp only [State.statusData, List.length_append, latchBytes_length, loops, panels, zones, stamp,
    u8_length, i32_length, set8_length]

theorem statusData_fields (s : State) {code : List Byte} (hcode : code.length = 1) :
    let part := bytesAt (code ++ s.statusData)
    part 0 1 = code ∧ part 1 1 = u8 s.mot.line.code ∧ part 2 3 = latchBytes s.flt.latch
    ∧ part 5 1 = set8 [s.heat.on, s.heat.ready]
    ∧ part 12 3 = Loop.all.flatMap (fun l => u8 (s.ten.get l).state.code)
    ∧ part 15 1 = u8 s.mrk.state.code ∧ part 16 4 = i32 s.mrk.slip
    ∧ part 20 1 = u8 s.pq.dispatch.code
    ∧ part 21 7 = panelStates.flatMap (fun st => u8 (countIn s.pq.queue st))
    ∧ part 28 1 = u8 s.waitingCount
    ∧ part 29 1 = u8 (s.pq.slots.filter Slot.isArmed).length
    ∧ part 30 4 = i32 s.mot.vref ∧ part 34 4 = i32 s.dose.vDose
    ∧ part 38 4 = i32 s.pp ∧ part 42 4 = i32 s.fp
    ∧ part 46 1 = set8 [s.mrk.stray, s.flt.dropped]
    ∧ part 47 1 = set8 (s.trg.pulses.map Option.isSome).toList
    ∧ part 48 4 = s.stamp := by
  have loops : (Loop.all.flatMap fun l => u8 (s.ten.get l).state.code).length = 3 := rfl
  have panels : (panelStates.flatMap fun st => u8 (countIn s.pq.queue st)).length = 7 := rfl
  have zones : (sixBytes zoneSummary s.heat.zones).length = 6 := rfl
  have stamp : s.stamp.length = 4 := rfl
  have latch := latchBytes_length s.flt.latch
  have byte := u8_length
  have word := i32_length
  have set := set8_length
  intro part
  refine ⟨?_, ?_, ?_, ?_, ?_, ?_, ?_, ?_, ?_, ?_, ?_, ?_, ?_, ?_, ?_, ?_, ?_, ?_⟩ <;>
  · simp only [part, State.statusData, List.append_assoc]
    simp [bytesAt_append_of_le, bytesAt_append_zero, bytesAt_zero, hcode, latch, loops, panels, zones, stamp, byte,
      word, set]

theorem statusData_zone (s : State) {code : List Byte} (hcode : code.length = 1) (z : Zone) :
    bytesAt (code ++ s.statusData) (6 + z.num) 1 = zoneSummary (s.heat.zones.get z) := by
  have zone_length : ∀ r, (zoneSummary r).length = 1 := fun _ => rfl
  have latch := latchBytes_length s.flt.latch
  have byte := u8_length
  have set := set8_length
  have zones : sixBytes zoneSummary s.heat.zones = zoneSummary s.heat.zones.z0 ++ zoneSummary s.heat.zones.z1
      ++ zoneSummary s.heat.zones.z2 ++ zoneSummary s.heat.zones.z3 ++ zoneSummary s.heat.zones.z4
      ++ zoneSummary s.heat.zones.z5 := rfl
  simp only [State.statusData, zones, List.append_assoc]
  cases z <;>
    simp [bytesAt_append_of_le, bytesAt_append_zero, hcode, latch, zone_length, byte, set, Zone.num, Six.get]

theorem latchBytes_eq (l : Option Record) :
    latchBytes l = match l with
      | none => [0, 0, 0xFF]
      | some r => [1] ++ bigEndian 1 ([Cause.webBreak, .overTension, .overheat, .drumCold, .zoneSensor, .mainsLost,
          .nipTimeout, .stall, .encoderSilent, .positionRange, .spliceOverflow, .linkLost, .estop].idxOf r.cause + 1)
          ++ bigEndian 1 (r.inst.getD 0xFF) := by
  cases l with
  | none => rfl
  | some r =>
    rw [latchBytes, instByte, u8_eq_bigEndian, u8_eq_bigEndian, cause_code_eq_idxOf]
    rfl

theorem zoneSummary_eq (r : ZoneRec) :
    zoneSummary r = bigEndian 1 (setNumber [r.enable, r.sensor = .hold, r.sensor = .lost, r.inBand, r.overheat,
      r.shortfall]) := by
  rw [zoneSummary, u8_eq_bigEndian, bits_eq_setNumber]
  cases r.sensor <;> rfl

theorem countIn_eq_countP (q : List Panel) (st : PanelState) : countIn q st = q.countP fun p => p.state = st :=
  List.countP_eq_length_filter.symm

theorem waitingCount_eq_countP (s : State) :
    s.waitingCount = s.pq.queue.countP fun p => p.state = .done && s.pq.waiting.contains p.tag :=
  List.countP_eq_length_filter.symm

theorem armedCount_eq_countP (l : List Slot) :
    (l.filter Slot.isArmed).length = l.countP fun x => match x with | .armed _ => true | _ => false :=
  List.countP_eq_length_filter.symm

/-! ## PANEL_REPORT (11 11.6.2) -/

theorem reportBytes_eq (p : Panel) :
    let d := p.dose.getD ⟨none, false, 0, ⟨none, none, none, none, none, none⟩, none, false, false⟩
    reportBytes p = bigEndian 2 p.tag ++ bigEndian 1 (if p.kind = .normal then 0 else 1) ++ bigEndian 1 p.profile
      ++ bigEndian 4 p.length
      ++ bigEndian 1 ((p.verdict.map [Verdict.good, .underDose, .overDose, .uncertain, .spoiled, .skipped,
          .cancelled].idxOf).getD 0)
      ++ bigEndian 1 p.attempts
      ++ bigEndian 2 (match p.reason with | none => 0 | some (.code n) => n | some .timeout => 256)
      ++ bigEndian 1 (setNumber [p.xs.isSome, p.printed.isSome, p.markResult.isSome, p.markResult = some .missed,
          p.arrival.isSome, p.dose.isSome, d.maximum.isSome])
      ++ bigEndian 1 (setNumber (Zone.all.map fun z => (d.minima.get z).isSome)) ++ bigEndian 4 (p.xs.getD 0)
      ++ bigEndian 4 (match p.printed with | none => 0 | some (.len n) => n | some .unknown => -1)
      ++ bigEndian 4 (match p.markResult with | some (.error e) => e | _ => 0) ++ bigEndian 4 (p.arrival.getD 0)
      ++ bigEndian 2 d.folds ++ Zone.all.flatMap (fun z => bigEndian 4 ((d.minima.get z).getD 0))
      ++ bigEndian 4 (d.maximum.getD 0)
      ++ bigEndian 2 (setNumber [p.flags.stopAffected, p.flags.nipOpen, p.flags.spliceAffected, p.flags.excluded,
          p.flags.sparse, p.flags.underspeed, p.flags.markMissed, p.flags.fabricMismatch, p.flags.rejectUnmarked,
          p.offered]) := by
  intro d
  have kind : (p.kind.code : Int) = if p.kind = .normal then 0 else 1 := by cases p.kind <;> rfl
  have reason : (reasonCode p.reason : Int)
      = (match p.reason with | none => 0 | some (.code n) => n | some .timeout => 256) := by
    cases p.reason with
    | none => rfl
    | some r => cases r <;> rfl
  have printed : printedValue p.printed
      = (match p.printed with | none => 0 | some (.len n) => n | some .unknown => -1) := by
    cases p.printed with
    | none => rfl
    | some r => cases r <;> rfl
  have maximum : p.dose.bind DoseFields.maximum = d.maximum := by cases hd : p.dose <;> simp only [d, hd] <;> rfl
  have minima : (p.dose.map DoseFields.minima).getD ⟨none, none, none, none, none, none⟩ = d.minima := by
    cases hd : p.dose <;> simp only [d, hd] <;> rfl
  have folds : (p.dose.map DoseFields.folds).getD 0 = d.folds := by
    cases hd : p.dose <;> simp only [d, hd] <;> rfl
  simp only [reportBytes, maximum, minima, folds, u8_eq_bigEndian, u16_eq_bigEndian, u32_eq_bigEndian,
    i32_eq_bigEndian, set8_eq_bigEndian, set16_eq_bigEndian, sixBytes_eq_flatMap, kind, reason, printed,
    verdict_code_eq_idxOf]
  rfl

/-! ## START (11 11.6.1) -/

theorem start_frame (txn panel : Nat) (xs length : Int) (gains : Six Int) (mark : Bool)
    (hg : ∀ z, 0 ≤ gains.get z) :
    (HeadFrame.start txn panel xs length gains mark).frame.body = bigEndian 2 panel ++ bigEndian 4 xs
      ++ bigEndian 4 length ++ Zone.all.flatMap (fun z => bigEndian 2 (gains.get z))
      ++ bigEndian 1 (if mark = true then 0 else 1) := by
  have gain : ∀ z, ((gains.get z).toNat : Int) = gains.get z := fun z => Int.toNat_of_nonneg (hg z)
  have request : u8 (!mark).toNat = bigEndian 1 (if mark = true then 0 else 1) := by cases mark <;> rfl
  simp only [HeadFrame.frame, sixBytes_eq_flatMap, gain, request, u16_eq_bigEndian, i32_eq_bigEndian]

/-- Settles O46: each reading is its block's operation on the state that acts; the layouts by the pieces of each body. -/
theorem readingCommandsAnswer : Obligations.ReadingCommandsAnswer := by
  intro tag first n i s h
  refine ⟨answered_of_op (c := .readCounts tag) h rfl rfl, answered_of_op (c := .readMotion tag) h rfl rfl,
    answered_of_op (c := .readHeat tag first) h rfl rfl, answered_of_op (c := .readDose tag) h rfl rfl,
    answered_of_op (c := .readTension tag) h rfl rfl, answered_of_op (c := .readQueue tag first) h rfl rfl,
    answered_of_op (c := .readMarks tag first) h rfl rfl, answered_of_op (c := .readWindows tag) h rfl rfl,
    answered_of_op (c := .readFabric tag) h rfl rfl, answered_of_op (c := .readFault tag) h rfl rfl,
    answered_of_op (c := .profileRead tag none first) h rfl rfl, profileRead_answers h tag n first,
    triggerRead_answers h tag n, readPanel_answers h tag n, readProbe_outside h tag,
    fun k b hk => readProbe_hit h tag hk, answered_of_op (c := .readStatus tag false) h rfl rfl,
    answered_of_op (c := .readStatus tag true) h rfl rfl, statusData_length s, ?_, ?_, ?_⟩
  · obtain ⟨code, line, latch, heat, loops, track, slip, dispatch, panels, waiting, armed, vref, vDose, pp, fp, marks,
      outputs, stamp⟩ := statusData_fields s (code := [0]) rfl
    refine ⟨rfl, rfl, ?_, code, line.trans ?_, latch.trans (latchBytes_eq _), heat.trans (set8_eq_bigEndian _),
      fun z => (statusData_zone s rfl z).trans (zoneSummary_eq _), loops.trans ?_, track.trans ?_,
      slip.trans (i32_eq_bigEndian _), dispatch.trans ?_, panels.trans ?_, waiting.trans ?_, armed.trans ?_,
      vref.trans (i32_eq_bigEndian _), vDose.trans (i32_eq_bigEndian _), pp.trans (i32_eq_bigEndian _),
      fp.trans (i32_eq_bigEndian _), marks.trans (set8_eq_bigEndian _), outputs.trans
        (set8_eq_bigEndian ([Output.out0, .out1, .out2, .out3, .markout].map s.outLevel)), stamp.trans (u32_eq_bigEndian _)⟩
    · show ([0] ++ s.statusData).length = 52
      rw [List.length_append, statusData_length]
      rfl
    · rw [u8_eq_bigEndian, lineState_code_eq_idxOf]
      rfl
    · simp only [u8_eq_bigEndian, loopState_code_eq_idxOf]
      rfl
    · rw [u8_eq_bigEndian, trackState_code_eq_idxOf]
      rfl
    · rw [u8_eq_bigEndian, dispatch_code_eq_idxOf]
      rfl
    · simp only [u8_eq_bigEndian, countIn_eq_countP]
      rfl
    · rw [u8_eq_bigEndian, waitingCount_eq_countP]
      rfl
    · rw [u8_eq_bigEndian, armedCount_eq_countP]
      rfl
  · intro p
    refine ⟨rfl, rfl, ?_⟩
    show u32 s.cnt.clock.toNat ++ reportBytes p = _
    simp only [u32_eq_bigEndian, reportBytes_eq, ← List.append_assoc]
    rfl
  · intro txn panel xs length gains mark
    exact ⟨rfl, u8_eq_bigEndian txn, start_frame txn panel xs length gains mark⟩

end Sys2Proof.Machine
end

