-- ==== Sys2Proof/Proofs/Params.lean ====
section
/-! PROOF. The parameters (11 R183): ids and ranges against the manual's tables, the value a write leaves in each
parameter, what each write does beside it, and the two commands. -/

namespace Sys2Proof.Machine
open Sys2Proof

/-! ## Ids, ranges, values -/

theorem inRange_eq_decide (lo hi v : Int) : inRange lo hi v = decide (lo ≤ v ∧ v ≤ hi) := (Bool.decide_and ..).symm

theorem ofId_of_row : ∀ row ∈ paramTable,
    ∃ p, Param.ofId row.id = some p ∧ ∀ v, p.allows v = decide (row.low ≤ v ∧ v ≤ row.high) := by
  simp only [paramTable, List.cons_append, List.nil_append, List.forall_mem_cons]
  repeat refine And.intro ⟨_, rfl, fun v => inRange_eq_decide _ _ v⟩ ?_
  exact List.forall_mem_nil _

theorem bHead_allows (v : Int) :
    Param.bHead.allows v = decide (v ∈ [115200, 230400, 460800, 921600, 1000000, 2000000, 3000000]) :=
  List.elem_eq_mem ..

theorem tLink_allows (v : Int) : Param.tLink.allows v = decide (v = 0 ∨ 100 ≤ v ∧ v ≤ 10000) := by
  show (decide (v = 0) || inRange 100 10000 v) = _
  rw [inRange_eq_decide, Bool.decide_or]

theorem ofId_isSome (id : Nat) :
    (Param.ofId id).isSome = decide (id ∈ [0x0707, 0x0A01] ++ paramTable.map ParamRow.id) := by
  have known : ∀ n ∈ [0x0707, 0x0A01] ++ paramTable.map ParamRow.id, (Param.ofId n).isSome = true := by decide
  have listed : (Param.ofId id).isSome = true → id ∈ [0x0707, 0x0A01] ++ paramTable.map ParamRow.id := by
    unfold Param.ofId
    split <;> intro h
    case h_65 => exact absurd h (by decide)
    all_goals decide
  rw [Bool.eq_iff_iff, decide_eq_true_eq]
  exact ⟨listed, known id⟩

theorem mode_code_eq_idxOf (m : Mode) : m.code = [Mode.quadrature, .pulseDir, .upDown, .pulseOnly].idxOf m := by
  cases m <;> rfl

theorem mode_code_ofCode {v : Int} (h : inRange 0 3 v = true) (m : Mode) : ((Mode.ofCode v).getD m).code = v := by
  obtain ⟨h0, h3⟩ := inRange_iff.mp h
  obtain rfl | rfl | rfl | rfl : v = 0 ∨ v = 1 ∨ v = 2 ∨ v = 3 := by omega
  all_goals rfl

theorem bits_channelsOf {v : Int} (h : inRange 0 7 v = true) :
    (bits [(channelsOf v.toNat).paper, (channelsOf v.toNat).fabric, (channelsOf v.toNat).drum] : Int) = v := by
  obtain ⟨h0, h7⟩ := inRange_iff.mp h
  obtain rfl | rfl | rfl | rfl | rfl | rfl | rfl | rfl :
    v = 0 ∨ v = 1 ∨ v = 2 ∨ v = 3 ∨ v = 4 ∨ v = 5 ∨ v = 6 ∨ v = 7 := by omega
  all_goals rfl

theorem bits_three (a b c : Bool) :
    (bits [a, b, c] : Int) = (if a = true then 1 else 0) + 2 * (if b = true then 1 else 0)
      + 4 * (if c = true then 1 else 0) := by
  cases a <;> cases b <;> cases c <;> rfl

/-- A parameter's value depends on the parameter block and on the mode and scale of the channels. -/
theorem param_congr {s t : State} (hp : t.par = s.par)
    (hc : ∀ ch, (t.cnt.chan.get ch).mode = (s.cnt.chan.get ch).mode ∧ (t.cnt.chan.get ch).tpm = (s.cnt.chan.get ch).tpm)
    (q : Param) : t.param q = s.param q := by
  cases q with
  | mEnc c => simp only [State.param, hc]
  | tpm c => simp only [State.param, hc]
  | _ => simp only [State.param, hp]

theorem param_of_keeps {s t : State} {l : List Block} (h : Keeps l s t) (hp : Block.par ∉ l) (hc : Block.cnt ∉ l)
    (q : Param) : t.param q = s.param q :=
  param_congr (h .par hp) (fun _ => by rw [h .cnt hc]; exact ⟨rfl, rfl⟩) q

/-! ## The value a write leaves -/

theorem param_updChan (c : Chan) (f : Channel → Channel) (s : State) (q : Param) :
    (updChan c f s).param q = match q with
      | .mEnc d => if d = c then (f (s.cnt.chan.get c)).mode.code else s.param (.mEnc d)
      | .tpm d => if d = c then (f (s.cnt.chan.get c)).tpm else s.param (.tpm d)
      | q => s.param q := by
  cases q with
  | mEnc d => cases c <;> cases d <;> rfl
  | tpm d => cases c <;> cases d <;> rfl
  | _ => rfl

/-- t_nip at or below a running nip timer is its expiry (02 2.9). -/
theorem writeNipTime_eq (v : Int) (s : State) :
    writeNipTime v s =
      let w := s.upPar fun p => { p with tNip := v }
      match s.mot.nipTimer with
      | .running ms => if v ≤ ms then nipExpires w else w
      | .stopped | .standing _ => w := rfl

theorem writeLinkTime_eq (v : Int) (s : State) :
    writeLinkTime v s = { s with
      par := { s.par with tLink := v }
      flt := { s.flt with
        link := if v = 0 then .stopped
          else if s.par.tLink = 0 ∧ s.mot.line.watched = true then .running 0 else s.flt.link } } := by
  simp only [writeLinkTime, State.upPar, Bool.and_eq_true, decide_eq_true_eq]
  split
  · rfl
  · split <;> rfl

theorem writeMask_chan (m : Channels Bool) (s : State) (ch : Chan) :
    (writeMask m s).cnt.chan.get ch = { s.cnt.chan.get ch with
      silence := maskTimer (s.par.silMask.get ch) (m.get ch) s.mot.vref (s.cnt.chan.get ch).silence } := by
  cases ch <;> rfl

theorem param_writeNipTime (v : Int) (s : State) (q : Param) :
    (writeNipTime v s).param q = (s.upPar fun p => { p with tNip := v }).param q := by
  rw [writeNipTime_eq]
  dsimp only
  split
  · split
    · exact param_of_keeps nipExpires_keeps (by decide) (by decide) q
    · rfl
  · rfl
  · rfl

theorem param_writeMask (m : Channels Bool) (s : State) (q : Param) :
    (writeMask m s).param q = (s.upPar fun p => { p with silMask := m }).param q :=
  param_congr (s := s.upPar fun p => { p with silMask := m }) (t := writeMask m s) rfl
    (fun ch => by rw [writeMask_chan]; exact ⟨rfl, rfl⟩) q

theorem param_writeLinkTime (v : Int) (s : State) (q : Param) :
    (writeLinkTime v s).param q = (s.upPar fun p => { p with tLink := v }).param q := by
  rw [writeLinkTime_eq]
  exact param_congr (s := s.upPar fun p => { p with tLink := v }) rfl (fun _ => ⟨rfl, rfl⟩) q

theorem param_decide (s : State) (q : Param) : (decide_ s).param q = s.param q :=
  param_of_keeps decide_keeps (by decide) (by decide) q

theorem param_writeHeadBaud (v : Int) (s : State) (q : Param) :
    (writeHeadBaud v s).param q = (s.upPar fun p => { p with bHead := v }).param q :=
  param_of_keeps upHead_keeps (by decide) (by decide) q

/-- A write leaves its value in its parameter and every other as it was, v_set aside at a write of v_max. -/
theorem param_writeParam {p q : Param} {v : Int} (s : State) (hv : p.allows v = true)
    (hq : p = .vMax → q ≠ .vSet) : (writeParam p v s).param q = if q = p then v else s.param q := by
  cases p with
  | mEnc c =>
    refine (param_updChan c _ s q).trans ?_
    cases q with
    | mEnc d => simp only [Param.mEnc.injEq, mode_code_ofCode hv]
    | tpm d => cases c <;> cases d <;> rfl
    | _ => rfl
  | tpm c =>
    refine (param_updChan c _ s q).trans ?_
    cases q with
    | tpm d => simp only [Param.tpm.injEq]
    | mEnc d => cases c <;> cases d <;> rfl
    | _ => rfl
  | silMask =>
    refine (param_writeMask _ s q).trans ?_
    cases q with
    | silMask => exact bits_channelsOf hv
    | _ => rfl
  | vMax => cases q with
    | vSet => exact absurd rfl (hq rfl)
    | _ => rfl
  | loopKp l => cases q with
    | loopKp m => cases l <;> cases m <;> rfl
    | _ => rfl
  | loopKi l => cases q with
    | loopKi m => cases l <;> cases m <;> rfl
    | _ => rfl
  | wOut o => cases q with
    | wOut x => cases o <;> cases x <;> rfl
    | _ => rfl
  | tNip => refine (param_writeNipTime v s q).trans ?_; cases q <;> rfl
  | tLink => refine (param_writeLinkTime v s q).trans ?_; cases q <;> rfl
  | bHead => refine (param_writeHeadBaud v s q).trans ?_; cases q <;> rfl
  | gap => refine (param_decide _ q).trans ?_; cases q <;> rfl
  | lead => refine (param_decide _ q).trans ?_; cases q <;> rfl
  | _ => cases q <;> rfl

/-! ## What a write does beside it -/

theorem writeNipTime_running {v : Int} {s : State} {ms : Nat} (h : s.mot.nipTimer = .running ms) :
    writeNipTime v s = if v ≤ ms then nipExpires (s.upPar fun p => { p with tNip := v })
      else s.upPar fun p => { p with tNip := v } := by
  rw [writeNipTime_eq]
  dsimp only
  rw [h]

theorem writeNipTime_still {v : Int} {s : State} (h : s.mot.nipTimer.isRunning = false) :
    writeNipTime v s = s.upPar fun p => { p with tNip := v } := by
  rw [writeNipTime_eq]
  cases hn : s.mot.nipTimer with
  | running ms => rw [hn] at h; cases h
  | stopped => rfl
  | standing ms => rfl

theorem writeHeadBaud_eq (v : Int) (s : State) :
    writeHeadBaud v s = { s with
      par := { s.par with bHead := v }
      head := if s.head.buf ≠ [] then { s.head with pendingBaud := some v }
        else { s.head with
          baud := v, pendingBaud := none, framer := if s.head.baud = v then s.head.framer else .hunting } } := by
  simp only [writeHeadBaud, State.upHead, List.isEmpty_iff, ite_not]
  rfl

theorem watched_iff (l : LineState) : l.watched = true ↔ l = .running ∨ l = .stopping ∨ l = .threading := by
  cases l <;> decide

theorem moving_iff (l : LineState) :
    l.moving = true ↔ (l = .running ∨ l = .stopping ∨ l = .threading) ∨ l = .halting := by
  cases l <;> decide

theorem testBit_channelsOf (n : Nat) (ch : Chan) : (channelsOf n).get ch = n.testBit ch.num := by cases ch <;> rfl

theorem maskTimer_eq (old new : Bool) (vref : Int) (t : Timer) :
    maskTimer old new vref t = if new = false then .stopped else if old = true then t
      else if 1000 ≤ vref then .running 0 else .stopped := by
  cases new <;> cases old <;> rfl

/-- Only a write of an input mode or a scale touches a remainder, that of its channel (01 R5). -/
theorem rem_writeParam (p : Param) (v : Int) (s : State) (ch : Chan) :
    ((writeParam p v s).cnt.chan.get ch).rem =
      if p = .mEnc ch ∨ p = .tpm ch then 0 else (s.cnt.chan.get ch).rem := by
  have kept := writeParam_keeps (p := p) (v := v) (s := s)
  cases p with
  | mEnc c => cases c <;> cases ch <;> rfl
  | tpm c => cases c <;> cases ch <;> rfl
  | silMask => exact (congrArg Channel.rem (writeMask_chan (channelsOf v.toNat) s ch)).trans rfl
  | _ => exact congrArg (fun k : Counting => (k.chan.get ch).rem) (kept .cnt (by simp [Param.blocks, faultBlocks]))

theorem vSet_writeParam {p : Param} {v : Int} (s : State) (hv : p.allows v = true) (hp : p ≠ .vSet) :
    (writeParam p v s).par.vSet = if p = .vMax then min s.par.vSet v else s.par.vSet := by
  split
  · next h => subst h; rfl
  · next h => exact (param_writeParam (q := .vSet) s hv (absurd · h)).trans (if_neg hp.symm)

/-! ## The two commands -/

theorem param_writeParam_self {p : Param} {v : Int} (s : State) (hv : p.allows v = true) :
    (writeParam p v s).param p = v :=
  (param_writeParam s hv (by rintro rfl; decide)).trans (if_pos rfl)

theorem setParam_taken {id : Nat} {p : Param} {v : Int} {s : State} (hp : Param.ofId id = some p)
    (ha : p.allows v = true) (hb : s.bounded p v = true) (hbar : s.paramBar p = none) :
    setParam id v s = (writeParam p v s, okData (paramBytes id v)) := by
  have free : s.paramRefusal id v = none := by simp [State.paramRefusal, hp, ha, hb, hbar]
  simp only [setParam, hp, free, param_writeParam_self s ha]

theorem setParam_refused {id : Nat} {v : Int} {s : State} {st : Status} (h : s.paramRefusal id v = some st) :
    setParam id v s = (s, refusedWith st) := by
  cases hp : Param.ofId id <;> simp only [setParam, hp, h]

theorem getParam_held {id : Nat} {p : Param} (hp : Param.ofId id = some p) (s : State) :
    getParam id s = (s, okData (paramBytes id (s.param p))) := by
  simp only [getParam, hp]

theorem getParam_unknown {id : Nat} (hp : Param.ofId id = none) (s : State) :
    getParam id s = (s, refusedWith .miss) := by
  simp only [getParam, hp]

theorem setpointsBelow_iff (h : Heat) (v : Int) :
    (!h.on || Zone.all.all fun z => !(h.zones.get z).enable || decide (h.zoneSet z ≤ v)) = true ↔
      (h.on = true → ∀ z, (h.zones.get z).enable = true → h.setpoint + (h.zones.get z).offset ≤ v) := by
  simp [imp_iff_not_or, mem_zones]
  rfl

/-- Settles O47: the commands through `setParam` and `getParam`, and per parameter what its write does. -/
theorem parametersAreWrittenAndRead : Obligations.ParametersAreWrittenAndRead := by
  refine ⟨fun tag id s h => ?_, ofId_of_row, bHead_allows, tLink_allows, ofId_isSome, fun s => ?_,
    fun s p v => ⟨?_, ?_⟩⟩
  · cases hp : Param.ofId id with
    | none =>
      exact ⟨refused_of_op (c := .getParam tag id) h rfl (getParam_unknown hp _),
        fun v => refused_of_op (c := .setParam tag id v) h rfl
          (setParam_refused (by simp only [State.paramRefusal, hp]))⟩
    | some p =>
      refine ⟨answered_of_op (c := .getParam tag id) h rfl (getParam_held hp _), fun v => ?_⟩
      have refuse : ∀ {st}, s.acting.paramRefusal id v = some st → Refused (.setParam tag id v) 0x02 tag st s :=
        fun hr => refused_of_op (c := .setParam tag id v) h rfl (setParam_refused hr)
      dsimp only
      split
      · next ha => exact refuse (by simp [State.paramRefusal, hp, ha])
      next ha =>
      split
      · next hb => exact refuse (by simp [State.paramRefusal, hp, show s.acting.bounded p v = false from hb])
      next hb =>
      rw [Bool.not_eq_false] at ha hb
      cases hbar : s.paramBar p with
      | some st =>
        exact refuse (by
          simp [State.paramRefusal, hp, ha, show s.acting.bounded p v = true from hb,
            show s.acting.paramBar p = some st from hbar])
      | none =>
        have keeps := writeParam_keeps (p := p) (v := v) (s := s.acting)
        refine ⟨writeParam p v s.acting,
          answered_of_op (c := .setParam tag id v) h rfl (setParam_taken hp ha hb hbar),
          keeps_mono keeps p.blocks_subset, param_writeParam_self _ ha,
          fun q hq hs => (param_writeParam s.acting ha fun _ => hs).trans (if_neg hq),
          vSet_writeParam s.acting ha, ?_, rem_writeParam p v s.acting⟩
        cases p with
        | mEnc ch => exact ⟨keeps, rfl, by cases ch <;> rfl⟩
        | tpm ch => exact ⟨keeps, rfl, rfl⟩
        | silMask =>
          refine ⟨keeps, rfl, fun ch => (writeMask_chan (channelsOf v.toNat) s.acting ch).trans ?_⟩
          rw [maskTimer_eq, testBit_channelsOf]
          rfl
        | tNip =>
          dsimp only
          cases hn : s.mot.nipTimer with
          | running ms =>
            have taken := writeNipTime_running (v := v) (s := s.acting) hn
            dsimp only
            split
            · next hms => exact taken.trans (if_pos hms)
            · next hms => exact taken.trans (if_neg hms)
          | stopped => exact writeNipTime_still (s := s.acting) (by rw [acting_mot, hn]; rfl)
          | standing ms => exact writeNipTime_still (s := s.acting) (by rw [acting_mot, hn]; rfl)
        | tLink => exact (writeLinkTime_eq v s.acting).trans (by simp only [watched_iff]; rfl)
        | bHead => exact writeHeadBaud_eq v s.acting
        | gap => rfl
        | lead => rfl
        | _ => exact keeps
  · have modes := fun m => congrArg (fun n : Nat => some (n : Int)) (mode_code_eq_idxOf m)
    refine ⟨⟨modes _, modes _, modes _, rfl, rfl, rfl, rfl, congrArg some (bits_three _ _ _), rfl⟩,
      ?_, ?_, ?_, ?_, ?_, ?_, ?_, rfl⟩
    · exact ⟨rfl, rfl, rfl, rfl, rfl, rfl, rfl, rfl, rfl⟩
    · exact ⟨rfl, rfl, rfl, rfl, rfl, rfl⟩
    · exact ⟨rfl, rfl, rfl, rfl⟩
    · exact ⟨rfl, rfl, rfl, rfl, rfl, rfl, rfl, rfl, rfl, rfl, rfl, rfl, rfl, rfl, rfl⟩
    · exact ⟨rfl, rfl, rfl, rfl, rfl, rfl, rfl⟩
    · exact ⟨rfl, rfl, rfl, rfl, rfl⟩
    · exact ⟨rfl, rfl, rfl, rfl, rfl, rfl, rfl, rfl⟩
  · cases p with
    | thAbs => exact setpointsBelow_iff s.heat v
    | arcLen => exact Bool.and_eq_true_iff.trans (and_congr decide_eq_true_iff decide_eq_true_iff)
    | vSet | spacing | lMs | lPn | wM | lFn | lFr | margin => exact decide_eq_true_iff
    | _ => exact ⟨fun _ => trivial, fun _ => rfl⟩
  · have busy : ∀ l : List Panel, l.any Panel.dosed = true ↔ ∃ x ∈ l, x.dose ≠ none ∧ x.state ≠ .done := fun l => by
      simp [Panel.dosed, Option.isSome_iff_ne_none]
    have placed : ∀ l : List Panel, l.any (fun q => q.xs.isSome) = true ↔ ∃ x ∈ l, x.xs ≠ none := fun l => by
      simp [Option.isSome_iff_ne_none]
    have probes : (!s.dose.probes.isEmpty) = true ↔ s.dose.probes ≠ [] := by simp
    cases p with
    | mEnc c | tpm c => simp only [State.paramBar, moving_iff]
    | thetaRef | thetaStep | dMark | lFn | lFr | margin => simp only [State.paramBar, watched_iff]
    | arcLen | spacing => simp only [State.paramBar, Bool.or_eq_true, watched_iff, busy, probes, or_assoc]
    | lMs | lPn | wM => simp only [State.paramBar, Bool.or_eq_true, watched_iff, placed]
    | bHead => simp only [State.paramBar, List.isEmpty_iff]
    | _ => rfl

end Sys2Proof.Machine
end

