-- ==== Sys2Proof/Proofs/NipAndEstop.lean ====
section
/-! PROOF. The nip: its commands, its limits and its hold timer (02 R31 to R33), and ESTOP (02 R26). -/

namespace Sys2Proof.Machine
open Sys2Proof

/-! ## The nip commands (02 R31, R32, R22) -/

/-- The nip is commanded open. -/
def Motion.opens (m : Motion) : Prop := m.nip = .opened ∨ m.nip = .opening

theorem opens_iff (m : Motion) : m.opens ↔ m.nip ≠ .closing ∧ m.nip ≠ .closed := by
  unfold Motion.opens
  cases m.nip <;> decide

theorem nipCmd_iff (s : State) : s.nipCmd = true ↔ s.mot.nip = .closing ∨ s.mot.nip = .closed := by
  simp [State.nipCmd]

theorem nipCmd_iff_not_opens (s : State) : s.nipCmd = true ↔ ¬s.mot.opens := by
  rw [nipCmd_iff, opens_iff]; tauto

theorem openPair_iff (p : Pins) : p.openPair = true ↔ p.nipo = true ∧ p.nipc = false := by
  simp [Pins.openPair]

theorem closedPair_iff (p : Pins) : p.closedPair = true ↔ p.nipc = true ∧ p.nipo = false := by
  simp [Pins.closedPair]

/-- A command in the direction held changes nothing. -/
theorem nipClose_held {s : State} (h : s.mot.nip = .closed ∨ s.mot.nip = .closing) : nipClose s = s :=
  if_pos (by simpa using h)

theorem nipOpen_held {s : State} (h : s.mot.opens) : nipOpen s = s := if_pos (by simpa [Motion.opens] using h)

/-- A command the other way starts the travel, or finds it ended. -/
theorem nipClose_turned {s : State} (h : s.mot.opens) :
    nipClose s = s.upMot fun m => if s.pins.closedPair = true then { m with nip := .closed, nipTimer := .stopped }
      else { m with nip := .closing, nipTimer := .running 0 } := by
  have turned := (opens_iff _).mp h
  unfold nipClose
  rw [if_neg (by simp [turned])]
  split <;> rfl

theorem nipOpen_turned {s : State} (h : ¬s.mot.opens) :
    nipOpen s = if s.pins.openPair = true then nipOpened (s.upMot fun m => { m with nip := .opening, nipTimer := .running 0 })
      else s.upMot fun m => { m with nip := .opening, nipTimer := .running 0 } :=
  if_neg (by simpa [Motion.opens] using h)

/-- A confirmed opening, and a STOPPING line that goes to READY with it. -/
theorem nipOpened_mot (s : State) :
    (nipOpened s).mot = { s.mot with
      nip := .opened, nipTimer := .stopped, line := if s.mot.line = .stopping then .ready else s.mot.line } := by
  unfold nipOpened
  by_cases h : s.mot.line = .stopping <;> simp [h]

/-- Outside STOPPING an opened nip is reported by nothing. -/
theorem nipOpened_flt {s : State} (h : s.mot.line ≠ .stopping) : (nipOpened s).flt = s.flt := by
  unfold nipOpened
  dsimp only
  rw [if_neg (by exact h)]
  rfl

theorem nipOpen_flt {s : State} (h : s.mot.line ≠ .stopping) : (nipOpen s).flt = s.flt := by
  by_cases ho : s.mot.opens
  · rw [nipOpen_held ho]
  · rw [nipOpen_turned ho]
    split
    · exact nipOpened_flt h
    · rfl

/-- The nip stands where it was commanded to. -/
theorem nipClose_shut (s : State) : ¬(nipClose s).mot.opens := by
  obtain ⟨nip, timer, e, shut⟩ := nipClose_mot s
  rw [e, opens_iff]
  rcases shut with rfl | rfl <;> simp

theorem nipOpen_opens (s : State) : (nipOpen s).mot.opens := (nipOpen_mot s).2.2.2.2.2

/-! ## The nip's statement -/

/-- The limits of a nip as the two outcomes of `nipLimits`: a travel that ends, or a confirmed pair that is watched. -/
theorem nipLimits_keeps_rest (nipc nipo : Bool) (s : State) :
    (nipLimits nipc nipo s).pins = { s.pins with nipc := nipc, nipo := nipo }
      ∧ ∃ nip timer line, (nipLimits nipc nipo s).mot = { s.mot with nip := nip, nipTimer := timer, line := line } := by
  unfold nipLimits
  dsimp only
  split
  · split <;> exact ⟨rfl, _, _, _, rfl⟩
  · split
    · exact ⟨nipOpened_keeps .pins (by decide), _, _, _, nipOpened_mot _⟩
    · exact ⟨rfl, _, _, _, rfl⟩
  · exact ⟨rfl, _, _, _, rfl⟩
  · exact ⟨rfl, _, _, _, rfl⟩

/-- What each confirmed or travelling nip makes of the pair it is commanded to. -/
theorem nipLimits_closing {nipc nipo : Bool} {s : State} (h : s.mot.nip = .closing) :
    (nipLimits nipc nipo s).mot =
      if nipc = true ∧ nipo = false then { s.mot with nip := .closed, nipTimer := .stopped } else s.mot := by
  unfold nipLimits
  dsimp only
  rw [show (s.upPins _).mot.nip = .closing from h]
  simp only [closedPair_iff, State.upPins_pins]
  split <;> rfl

theorem nipLimits_opening {nipc nipo : Bool} {s : State} (h : s.mot.nip = .opening) :
    (nipLimits nipc nipo s).mot =
      if nipo = true ∧ nipc = false then { s.mot with
        nip := .opened, nipTimer := .stopped, line := if s.mot.line = .stopping then .ready else s.mot.line }
      else s.mot := by
  unfold nipLimits
  dsimp only
  rw [show (s.upPins _).mot.nip = .opening from h]
  simp only [openPair_iff, State.upPins_pins]
  split
  · exact nipOpened_mot _
  · rfl

/-- The timer of a confirmed nip whose limits are (`pair`) or are not in the pair. -/
def Motion.watched (m : Motion) (pair : Prop) [Decidable pair] : Motion :=
  if pair then { m with nipTimer := .stopped }
  else if m.nipTimer = .stopped then { m with nipTimer := .running 0 } else m

theorem watchPair_mot (pair : Bool) (s : State) : (watchPair pair s).mot = s.mot.watched (pair = true) := by
  unfold watchPair Motion.watched
  cases pair
  · by_cases h : s.mot.nipTimer = .stopped <;> simp [h]
  · simp

theorem nipLimits_closed {nipc nipo : Bool} {s : State} (h : s.mot.nip = .closed) :
    (nipLimits nipc nipo s).mot = s.mot.watched (nipc = true ∧ nipo = false) := by
  unfold nipLimits
  dsimp only
  rw [show (s.upPins _).mot.nip = .closed from h]
  dsimp only
  rw [watchPair_mot]
  simp [closedPair_iff]

theorem nipLimits_opened {nipc nipo : Bool} {s : State} (h : s.mot.nip = .opened) :
    (nipLimits nipc nipo s).mot = s.mot.watched (nipo = true ∧ nipc = false) := by
  unfold nipLimits
  dsimp only
  rw [show (s.upPins _).mot.nip = .opened from h]
  dsimp only
  rw [watchPair_mot]
  simp [openPair_iff]

/-- Settles O15: the commands by the direction held and the pair, the limits by the state of the nip. -/
theorem nipFollowsCommandsAndLimits : Obligations.NipFollowsCommandsAndLimits := by
  refine ⟨fun s => ⟨fun hp => ?_, fun hp => ?_, fun hp => ?_, fun hp => ⟨nipOpen_keeps, ?_⟩,
    (nipCmd_iff_not_opens _).mpr (nipClose_shut s), ?_⟩, fun nipc nipo s => ?_, fun s hold pair nip => ?_⟩
  · split
    · next h => exact nipClose_held h
    · next h => rw [nipClose_turned ((opens_iff _).mpr (by tauto)), hp]; rfl
  · split
    · next h => exact nipOpen_held h
    · next h => rw [nipOpen_turned h, hp]; rfl
  · split
    · next h => exact nipClose_held h
    · next h => rw [nipClose_turned ((opens_iff _).mpr (by tauto)), hp]; rfl
  · split
    · next h => exact nipOpen_held h
    · next h => rw [nipOpen_turned h, hp, if_pos rfl, nipOpened_mot]; rfl
  · exact eq_false_of_ne_true fun hc => (nipCmd_iff_not_opens _).mp hc (nipOpen_opens s)
  · obtain ⟨pins, nip, timer, line, e⟩ := nipLimits_keeps_rest nipc nipo s
    refine ⟨_, rfl, nipLimits_keeps, pins, by rw [e], by rw [e], by rw [e], ?_, ?_, ?_, ?_, ?_, ?_⟩
    · intro h pair; rw [nipLimits_closing h, if_pos pair]; exact ⟨rfl, rfl⟩
    · intro h pair; rw [nipLimits_closing h, if_neg pair]
    · intro h pair; rw [nipLimits_opening h, if_pos pair]; exact ⟨rfl, rfl, rfl⟩
    · intro h pair; rw [nipLimits_opening h, if_neg pair]
    · rintro (⟨h, pair⟩ | ⟨h, pair⟩)
      · rw [nipLimits_closed h]; exact if_pos pair
      · rw [nipLimits_opened h]; exact if_pos pair
    · rintro (⟨h, pair⟩ | ⟨h, pair⟩)
      · rw [nipLimits_closed h]; exact if_neg pair
      · rw [nipLimits_opened h]; exact if_neg pair
  · show Host.Outcome.next (nipHold s) = _
    rw [nipHold, if_pos hold, holdEnds, nipOpen_turned (by rw [opens_iff]; simp [nip]),
      if_neg (by simp [pair])]
    rfl

/-! ## ESTOP (02 R26, 05 R83) -/

theorem loops_get_map (f : LoopRec → LoopRec) (t : Loops LoopRec) (l : Loop) : (t.map f).get l = f (t.get l) := by
  cases l <;> rfl

/-- After the fault the line is not STOPPING, so that the command to open the nip leaves it. -/
theorem estopActs_mot (s : State) :
    ∃ nip timer, (estopActs s).mot = { (raise .estop none (s.upPins fun p => { p with estop := true })).mot with
      vref := 0, target := 0, drum := 0, nip := nip, nipTimer := timer } := by
  have line := (raise_faulted .estop none (s.upPins fun p => { p with estop := true })).line
  obtain ⟨nip, timer, e, -⟩ := nipOpen_mot_eq
    (s := (raise .estop none (s.upPins fun p => { p with estop := true })).upMot
      fun m => { m with vref := 0, target := 0, drum := 0 })
    (by rw [State.upMot_mot, line]; rcases faultLine_fault s.mot.line s.mot.vref with l | l <;> simp [l])
  exact ⟨nip, timer, e⟩

theorem estopActs_opens (s : State) : (estopActs s).mot.opens := nipOpen_opens _

/-- After the fault ESTOP posts nothing, and its record stands. -/
theorem estopActs_flt (s : State) :
    (estopActs s).flt = (raise .estop none (s.upPins fun p => { p with estop := true })).flt := by
  have line := (raise_faulted .estop none (s.upPins fun p => { p with estop := true })).line
  refine nipOpen_flt (s := (raise .estop none (s.upPins fun p => { p with estop := true })).upMot
    fun m => { m with vref := 0, target := 0, drum := 0 }) ?_
  rw [State.upMot_mot, line]
  rcases faultLine_fault s.mot.line s.mot.vref with l | l <;> simp [l]

/-- Settles O16. -/
theorem estopStopsTheLine : Obligations.EstopStopsTheLine := by
  refine ⟨fun s inactive => ?_, fun s => rfl⟩
  have e : exec .estop s = .next (estopActs s) := congrArg Host.Outcome.next (if_neg (by simp [inactive]))
  obtain ⟨taken, line⟩ := raise_faultTaken .estop none (s.upPins fun p => { p with estop := true })
  obtain ⟨nip, timer, mot⟩ := estopActs_mot s
  refine ⟨_, e, ⟨?_, by rw [mot]; exact line⟩, estopActs_keeps, estopActs_pins s, by rw [mot], by rw [mot], by rw [mot],
    (estopActs_opens s).symm, fun l => ?_⟩
  · unfold LatchTakes
    rw [estopActs_flt]
    exact taken
  · have ten : (estopActs s).ten = s.ten.map LoopRec.atEstop :=
      congrArg (Loops.map LoopRec.atEstop) (Eq.trans (nipOpen_keeps .ten (by decide)) (raise_keeps .ten (by decide)))
    rw [ten, loops_get_map]
    rfl

end Sys2Proof.Machine
end

