-- ==== Sys2Proof/Proofs/Runs.lean ====
section
/-! SUPPORT. What every operation of a row is made of, said once (`Runs`): notices and reports placed, changes of line
state, the latch taking a fault, and changes that leave the fault monitor and the line state alone. A fact about the
transmit queue, the line state, the latch or the caps of the windows is then an induction over these pieces. -/

namespace Sys2Proof.Machine
open Sys2Proof

/-! ## The pieces -/

/-- Every window of `v` has the cap of a window of `u`. -/
def CapsFrom (u v : TrigUnit) : Prop := ∀ w, some w ∈ v.windows → ∃ x, some x ∈ u.windows ∧ w.cap = x.cap

theorem capsFrom_of_windows {u v : TrigUnit} (h : v.windows = u.windows) : CapsFrom u v :=
  fun w hw => ⟨w, h ▸ hw, rfl⟩

theorem capsFrom_trans {u v w : TrigUnit} (h : CapsFrom u v) (k : CapsFrom v w) : CapsFrom u w := fun x hx => by
  obtain ⟨y, hy, e⟩ := k x hx
  obtain ⟨z, hz, e'⟩ := h y hy
  exact ⟨z, hz, e.trans e'⟩

/-- `t` is reached from `s` by pieces of these kinds; the latch takes a fault only where `faults` allows it. -/
inductive Runs (faults : Bool) : State → State → Prop
  | same {s t : State} (flt : t.flt = s.flt) (line : t.mot.line = s.mot.line) (clock : t.cnt.clock = s.cnt.clock)
      (tLink : t.par.tLink = s.par.tLink) (caps : CapsFrom s.trg t.trg) : Runs faults s t
  | notice {s : State} (n : Notice) : Runs faults s (notice n s)
  | report {s : State} (p : Panel) (room : s.flt.room = true) :
      Runs faults s (s.upFlt fun f => f.place (.notice s.cnt.clock (.panelReport p)))
  | line {s : State} (new : LineState) (event : LineEvent) : Runs faults s (setLine new event s)
  | latch {s : State} (r : Record) (h : faults = true) : Runs faults s (s.upFlt fun f => f.take r)
  | trans {s t u : State} (h : Runs faults s t) (k : Runs faults t u) : Runs faults s u

variable {b : Bool}

theorem runs_refl {s : State} : Runs b s s := .same rfl rfl rfl rfl (capsFrom_of_windows rfl)

/-- An operation that leaves the blocks the pieces speak of. -/
theorem runs_of_keeps {l : List Block} {s t : State} (k : Keeps l s t)
    (h : ∀ x ∈ [Block.flt, .mot, .cnt, .par, .trg], x ∉ l) : Runs b s t :=
  .same (k .flt (h _ (by decide))) (congrArg Motion.line (k .mot (h _ (by decide))))
    (congrArg Counting.clock (k .cnt (h _ (by decide)))) (congrArg Params.tLink (k .par (h _ (by decide))))
    (capsFrom_of_windows (congrArg TrigUnit.windows (k .trg (h _ (by decide)))))

/-- A change of the motion controller that leaves the line state. -/
theorem runs_upMot {s : State} {f : Motion → Motion} (h : (f s.mot).line = s.mot.line) : Runs b s (s.upMot f) :=
  .same rfl h rfl rfl (capsFrom_of_windows rfl)

/-- A change of the trigger unit that leaves the caps of the windows. -/
theorem runs_upTrg {s : State} {f : TrigUnit → TrigUnit} (h : CapsFrom s.trg (f s.trg)) : Runs b s (s.upTrg f) :=
  .same rfl rfl rfl rfl h

theorem runs_upCnt {s : State} {f : Counting → Counting} (h : (f s.cnt).clock = s.cnt.clock) : Runs b s (s.upCnt f) :=
  .same rfl rfl h rfl (capsFrom_of_windows rfl)

theorem runs_ite {c : Prop} [Decidable c] {s t u : State} (h : Runs b s t) (k : Runs b s u) :
    Runs b s (if c then t else u) := by
  split <;> assumption

theorem runs_foldl {α : Type} {f : State → α → State} (h : ∀ s x, Runs b s (f s x)) (xs : List α) (s : State) :
    Runs b s (xs.foldl f s) := by
  induction xs generalizing s with
  | nil => exact runs_refl
  | cons x xs ih => exact (h s x).trans (ih _)

/-- Pieces without a fault are pieces with one. -/
theorem Runs.faults {s t : State} (h : Runs false s t) : Runs b s t := by
  induction h with
  | same flt line clock tLink caps => exact .same flt line clock tLink caps
  | notice n => exact .notice n
  | report p room => exact .report p room
  | line new event => exact .line new event
  | latch _ h => exact nomatch h
  | trans _ _ ih ih' => exact ih.trans ih'

/-! ## What the pieces keep -/

/-- No piece but a fault touches the latch. -/
theorem Runs.latch_eq {s t : State} (h : Runs false s t) : t.flt.latch = s.flt.latch := by
  induction h with
  | same flt => rw [flt]
  | notice n => exact notice_latch _ _
  | report => exact place_latch _ _
  | line => exact setLine_latch _ _ _
  | latch _ h => exact nomatch h
  | trans _ _ ih ih' => exact ih'.trans ih

theorem Runs.caps {s t : State} (h : Runs b s t) : CapsFrom s.trg t.trg := by
  induction h with
  | same _ _ _ _ caps => exact caps
  | notice n => exact capsFrom_of_windows (by rw [notice_trg])
  | report => exact capsFrom_of_windows rfl
  | line => exact capsFrom_of_windows (congrArg TrigUnit.windows (setLine_keeps .trg (by decide)))
  | latch => exact capsFrom_of_windows rfl
  | trans _ _ ih ih' => exact capsFrom_trans ih ih'

/-! ## Notices, the trigger table and the windows -/

theorem warn_runs {w : Warning} {s : State} : Runs b s (warn w s) := .notice _

theorem triggerNotice_runs {i : Nat} {o : Origin} {t : Trigger} {d : Option Dir} {r : FireResult} {s : State} :
    Runs b s (triggerNotice i o t d r s) :=
  (runs_of_keeps noticeDir_keeps (by decide)).trans (.notice _)

theorem setTrigSlot_runs {i : Nat} {x : TrigSlot} {s : State} : Runs b s (setTrigSlot i x s) :=
  runs_upTrg (capsFrom_of_windows rfl)

theorem startPulse_runs {o : Output} {s : State} : Runs b s (startPulse o s) := runs_upTrg (capsFrom_of_windows rfl)

theorem fire_runs {i : Nat} {o : Origin} {t : Trigger} {d : Option Dir} {late : Bool} {s : State} :
    Runs b s (fire i o t d late s) := by
  unfold fire
  refine .trans ?_ setTrigSlot_runs
  cases t.action with
  | notify => exact triggerNotice_runs
  | pulse o => exact runs_ite (startPulse_runs.trans triggerNotice_runs) startPulse_runs

theorem fireCrossed_runs {axis : Axis} {old new : Int} {s : State} : Runs b s (fireCrossed axis old new s) :=
  runs_foldl (fun _ _ => fire_runs) _ s

/-- The windows with one of them given another activity. -/
theorem capsFrom_set {u v : TrigUnit} {i : Nat} {w : Window} {active : Bool} (h : u.windows[i]? = some (some w))
    (e : v.windows = u.windows.set i (some { w with active := active })) : CapsFrom u v := fun x hx => by
  rw [e] at hx
  rcases List.mem_or_eq_of_mem_set hx with hx | hx
  · exact ⟨x, hx, rfl⟩
  · cases hx; exact ⟨w, List.mem_of_getElem? h, rfl⟩

theorem judgeWindow_runs {axis : Axis} {dir : Dir} {count : Int} {s : State} {i : Nat} :
    Runs b s (judgeWindow axis dir count s i) := by
  unfold judgeWindow
  split
  · next w hw => exact runs_ite ((runs_upTrg (capsFrom_set hw rfl)).trans (runs_ite (.notice _) runs_refl)) runs_refl
  · exact runs_refl

theorem judgeWindows_runs {axis : Axis} {old new : Int} {s : State} : Runs b s (judgeWindows axis old new s) :=
  runs_foldl (fun _ _ => judgeWindow_runs) _ s

theorem resolveSlot_runs {i : Nat} {a : Int} {d : Option Dir} {s : State} : Runs b s (resolveSlot i a d s) := by
  unfold resolveSlot
  split
  · exact setTrigSlot_runs.trans (runs_ite fire_runs runs_refl)
  · exact runs_refl

theorem resolveAnchors_runs {set : List (Nat × Int)} {d : Option Dir} {s : State} :
    Runs b s (resolveAnchors set d s) := by
  refine runs_foldl (fun s i => ?_) _ s
  split
  · exact resolveSlot_runs
  · exact runs_refl

theorem orphanSlot_runs {i : Nat} {d : Option Dir} {s : State} : Runs b s (orphanSlot i d s) := by
  unfold orphanSlot
  split
  · exact setTrigSlot_runs.trans triggerNotice_runs
  · exact runs_refl

theorem orphanPanel_runs {tag : Nat} {d : Option Dir} {s : State} : Runs b s (orphanPanel tag d s) :=
  runs_foldl (fun _ _ => runs_ite orphanSlot_runs runs_refl) _ s

theorem setPointer_runs {p : Pointer} {n : Option Nat} {s : State} : Runs b s (setPointer p n s) := by
  refine .trans (runs_of_keeps (keeps_trans dropRef?_keeps takeRef?_keeps) (by decide)) (runs_upTrg ?_)
  cases p <;> exact capsFrom_of_windows rfl

/-! ## Panels -/

theorem removePanel_runs {p : Panel} {d : Option Dir} {s : State} : Runs b s (removePanel p d s) := by
  have gone : Runs b s (dropRef p.profile (s.upPq fun q =>
      { q with queue := without p.tag q.queue, slots := q.slots.map (Slot.emptied p.tag) })) :=
    runs_of_keeps (keeps_seq upPq_keeps dropRef_keeps (n := [.pq, .prf]) (by decide) (by decide)) (by decide)
  exact runs_ite (gone.trans orphanPanel_runs) gone

theorem flushReport_runs {d : Option Dir} {s : State} : Runs b s (flushReport d s) := by
  unfold flushReport
  split
  · exact runs_refl
  · split
    · next room =>
      split
      · exact .trans (runs_of_keeps upPq_keeps (by decide)) (.trans (.report _ room) removePanel_runs)
      · exact runs_of_keeps upPq_keeps (by decide)
    · exact runs_refl

theorem becomeDone_runs {tag : Nat} {d : Option Dir} {s : State} : Runs b s (becomeDone tag d s) :=
  (runs_of_keeps upPq_keeps (by decide)).trans flushReport_runs

theorem withdraw_runs {txn tag : Nat} {s : State} : Runs b s (withdraw txn tag s) :=
  runs_ite (runs_of_keeps upHead_keeps (by decide)) warn_runs

theorem refusal_runs {num : Nat} {p : Panel} {counted : Option EngineReason} {d : Option Dir} {s : State} :
    Runs b s (refusal num p counted d s) :=
  (runs_of_keeps upPq_keeps (by decide)).trans (runs_ite becomeDone_runs runs_refl)

theorem startingDeadline_runs {t : Txn} {d : Option Dir} {s : State} : Runs b s (startingDeadline t d s) := by
  unfold startingDeadline
  split
  · exact withdraw_runs.trans refusal_runs
  · exact (runs_of_keeps upPq_keeps (by decide)).trans withdraw_runs

theorem withdrawStarting_runs {s : State} : Runs b s (withdrawStarting s) := by
  unfold withdrawStarting
  split
  · exact runs_refl
  · split
    · exact withdraw_runs.trans refusal_runs
    · exact (runs_of_keeps upPq_keeps (by decide)).trans withdraw_runs

theorem rejectTrigger_runs {tag : Nat} {a : Int} {d : Option Dir} {s : State} : Runs b s (rejectTrigger tag a d s) := by
  unfold rejectTrigger
  split
  · exact setTrigSlot_runs.trans resolveSlot_runs
  · exact (runs_of_keeps updPanel_keeps (by decide)).trans warn_runs

theorem afterPrint_runs {tag : Nat} {d : Option Dir} {s : State} : Runs b s (afterPrint tag d s) := by
  unfold afterPrint
  split
  · refine runs_ite ?_ runs_refl
    exact runs_ite ((runs_of_keeps updPanel_keeps (by decide)).trans rejectTrigger_runs)
      (runs_of_keeps updPanel_keeps (by decide))
  · exact runs_refl

theorem doneDeadline_runs {t : Txn} {d : Option Dir} {s : State} : Runs b s (doneDeadline t d s) :=
  ((runs_of_keeps upPq_keeps (by decide)).trans withdraw_runs).trans
    ((runs_of_keeps updPanel_keeps (by decide)).trans (warn_runs.trans afterPrint_runs))

theorem fabricCheck_runs {p : Panel} {s : State} : Runs b s (fabricCheck p s) :=
  runs_ite runs_refl ((runs_of_keeps updPanel_keeps (by decide)).trans warn_runs)

theorem arrive_runs {tag : Nat} {d : Option Dir} {s : State} : Runs b s (arrive tag d s) := by
  unfold arrive
  split
  · have came := fun p f => (fabricCheck_runs (b := b) (p := p) (s := s)).trans
      (runs_of_keeps (updPanel_keeps (tag := tag) (f := f)) (by decide))
    exact runs_ite ((came _ _).trans rejectTrigger_runs) (came _ _)
  · exact runs_refl

theorem arriveReached_runs {d : Option Dir} {s : State} : Runs b s (arriveReached d s) :=
  runs_foldl (fun _ _ => arrive_runs) _ s

theorem decide_runs {s : State} : Runs b s (decide_ s) := runs_of_keeps decide_keeps (by decide)

/-! ## Count updates (01 R7) -/

theorem missStep_runs {tag : Nat} {s : State} : Runs b s (missStep tag s) :=
  runs_ite ((runs_of_keeps upMrk_keeps (by decide)).trans warn_runs) (runs_of_keeps upMrk_keeps (by decide))

theorem expirePanel_runs {q : Panel} {s : State} : Runs b s (expirePanel s q) :=
  runs_ite (((runs_of_keeps updPanel_keeps (by decide)).trans (runs_of_keeps setArrival_keeps (by decide))).trans
    missStep_runs) (runs_of_keeps setArrival_keeps (by decide))

theorem markUpdate_runs {old new : Int} {s : State} : Runs b s (markUpdate old new s) :=
  runs_ite
    (((runs_of_keeps upMrk_keeps (by decide)).trans (runs_foldl (fun _ _ => expirePanel_runs) _ _)).trans
      resolveAnchors_runs)
    (runs_ite (runs_of_keeps upMrk_keeps (by decide)) runs_refl)

theorem goodMark_runs {tag : Nat} {xs p : Int} {s : State} : Runs b s (goodMark tag xs p s) :=
  ((runs_of_keeps updPanel_keeps (by decide)).trans (runs_of_keeps setArrival_keeps (by decide))).trans
    (resolveAnchors_runs.trans ((runs_of_keeps upMrk_keeps (by decide)).trans arriveReached_runs))

theorem judgeMark_runs {cap : Capture} {s : State} : Runs b s (judgeMark cap s) := by
  refine runs_ite runs_refl ?_
  split
  · exact goodMark_runs
  · exact (runs_of_keeps upMrk_keeps (by decide)).trans warn_runs

theorem deadlineAt_runs {new : Int} {t : Txn} {s : State} : Runs b s (deadlineAt new s t) := by
  unfold deadlineAt
  split
  · cases t.phase with
    | awaitAccept => exact runs_ite startingDeadline_runs runs_refl
    | printing => exact runs_ite doneDeadline_runs runs_refl
  · exact runs_refl

theorem deadlineUpdate_runs {new : Int} {s : State} : Runs b s (deadlineUpdate new s) :=
  runs_foldl (fun _ _ => deadlineAt_runs) _ s

theorem judgePanel_runs {p : Panel} {s : State} : Runs b s (judgePanel p s) := by
  unfold judgePanel
  split
  · exact runs_refl
  · exact ((runs_of_keeps updPanel_keeps (by decide)).trans
      (runs_ite (runs_of_keeps upPrf_keeps (by decide)) runs_refl)).trans becomeDone_runs

theorem panelDone_runs {tag : Nat} {s : State} : Runs b s (panelDone tag s) := by
  have judge : ∀ {t : State}, Runs b t (match t.queued? tag with | some p => judgePanel p t | none => t) := by
    intro t
    split
    · exact judgePanel_runs
    · exact runs_refl
  refine .trans ?_ judge
  split
  · refine runs_ite ?_ runs_refl
    split
    · exact doneDeadline_runs
    · exact runs_refl
  · exact runs_refl

theorem doseUpdate_runs {old new : Int} {s : State} : Runs b s (doseUpdate old new s) :=
  ((runs_of_keeps createProbes_keeps (by decide)).trans (runs_of_keeps exitProbes_keeps (by decide))).trans
    (runs_foldl (fun _ _ => panelDone_runs) _ _)

/-- A move counts only in its own record (02 R37). -/
theorem seekUpdate_runs {old new : Int} {s : State} : Runs b s (seekUpdate old new s) := runs_upMot rfl

theorem ppUpdate_runs {old new : Int} {s : State} : Runs b s (ppUpdate old new s) := by
  have tracked : Runs b s
      (seekUpdate old new (markUpdate old new (judgeWindows .paper old new (fireCrossed .paper old new s)))) :=
    (fireCrossed_runs.trans judgeWindows_runs).trans (markUpdate_runs.trans seekUpdate_runs)
  refine .trans ?_ decide_runs
  exact runs_ite (tracked.trans (deadlineUpdate_runs.trans (arriveReached_runs.trans doseUpdate_runs))) tracked

theorem actPoint_runs {x : Nat × SplicePoint} {s : State} : Runs b s (actPoint s x) := by
  have marked : ∀ {t : State}, Runs b t (markArc t) := runs_of_keeps markArc_keeps (by decide)
  have put : ∀ f : List Splice → List Splice, Runs b s (s.upTrg fun u => { u with splices := f u.splices }) :=
    fun _ => runs_upTrg (capsFrom_of_windows rfl)
  unfold actPoint
  split
  · exact runs_refl
  · dsimp only
    split
    · exact .trans (runs_ite ((put _).trans setPointer_runs) (put _)) marked
    · exact put _
    · exact runs_ite ((put _).trans setPointer_runs) (put _)

theorem freeSplices_runs {s : State} : Runs b s (freeSplices s) :=
  .trans (runs_upTrg (capsFrom_of_windows rfl)) (runs_foldl (fun _ _ => runs_of_keeps dropRef?_keeps (by decide)) _ _)

theorem spliceUpdate_runs {old new : Int} {s : State} : Runs b s (spliceUpdate old new s) :=
  runs_ite ((runs_foldl (fun _ _ => actPoint_runs) _ _).trans freeSplices_runs) runs_refl

theorem fpUpdate_runs {old new : Int} {s : State} : Runs b s (fpUpdate old new s) :=
  (fireCrossed_runs.trans judgeWindows_runs).trans spliceUpdate_runs

theorem handOn_runs {ch : Chan} {old new : Int} {s : State} : Runs b s (handOn ch old new s) := by
  cases ch with
  | paper => exact ppUpdate_runs
  | fabric => exact fpUpdate_runs
  | drum => exact runs_refl

/-! ## The line state, the nip and the hold (02 R22, R27, R31 to R33) -/

theorem nipOpened_runs {s : State} : Runs b s (nipOpened s) :=
  (runs_upMot rfl).trans (runs_ite (.line _ _) runs_refl)

theorem nipOpen_runs {s : State} : Runs b s (nipOpen s) :=
  runs_ite runs_refl ((runs_upMot rfl).trans (runs_ite nipOpened_runs runs_refl))

theorem nipClose_runs {s : State} : Runs b s (nipClose s) := by
  obtain ⟨nip, timer, e, -⟩ := nipClose_mot s
  rw [e]; exact runs_upMot rfl

theorem startHold_runs {s : State} : Runs b s (startHold s) := runs_ite nipOpen_runs (runs_upMot rfl)

theorem holdEnds_runs {s : State} : Runs b s (holdEnds s) := (runs_upMot rfl).trans nipOpen_runs

theorem startLine_runs {s : State} : Runs b s (startLine s) :=
  ((Runs.line _ _).trans (runs_upMot rfl)).trans (nipClose_runs.trans decide_runs)

theorem stopLine_runs {s : State} : Runs b s (stopLine s) :=
  ((Runs.line _ _).trans (runs_upMot rfl)).trans (runs_ite nipOpen_runs (runs_ite startHold_runs runs_refl))

theorem watchPair_runs {pair : Bool} {s : State} : Runs b s (watchPair pair s) := runs_upMot rfl

theorem nipLimits_runs {nipc nipo : Bool} {s : State} : Runs b s (nipLimits nipc nipo s) := by
  have pins : ∀ {f : Pins → Pins}, Runs b s (s.upPins f) := runs_of_keeps upPins_keeps (by decide)
  unfold nipLimits
  dsimp only
  split
  · exact runs_ite (pins.trans (runs_upMot rfl)) pins
  · exact runs_ite (pins.trans nipOpened_runs) pins
  · exact pins.trans watchPair_runs
  · exact pins.trans watchPair_runs

theorem findings_runs {far : Bool} {s : State} : Runs b s (findings far s) := by
  unfold findings
  split
  · exact runs_ite (.line _ _) runs_refl
  · exact runs_ite (.line _ _) runs_refl
  · exact runs_refl

theorem captureEnds_runs {cond : SeekCond} {p : Int} {s : State} : Runs b s (captureEnds cond p s) :=
  runs_ite (runs_upMot rfl) runs_refl

/-! ## Critical faults (10 R169, 02 R24) -/

theorem enterHalting_runs {s : State} : Runs b s (enterHalting s) :=
  ((Runs.line _ _).trans (runs_upMot rfl)).trans (nipOpen_runs.trans withdrawStarting_runs)

theorem faultMotion_runs {s : State} : Runs b s (faultMotion s) := by
  have suspended : Runs b s (suspendForFault s) := runs_upMot rfl
  unfold faultMotion
  split
  case h_1 | h_2 => exact suspended.trans enterHalting_runs
  case h_3 => exact runs_ite (suspended.trans enterHalting_runs) (suspended.trans (.line _ _))
  case h_4 | h_5 | h_6 => exact suspended.trans (.line _ _)
  case h_7 | h_8 => exact suspended

theorem raise_runs {c : Cause} {i : Option Nat} {s : State} : Runs true s (raise c i s) :=
  ((Runs.latch _ rfl).trans faultMotion_runs).trans (.notice _)

theorem estopActs_runs {s : State} : Runs true s (estopActs s) :=
  ((runs_of_keeps upPins_keeps (by decide)).trans raise_runs).trans
    (((runs_upMot rfl).trans nipOpen_runs).trans (runs_of_keeps upTen_keeps (by decide)))

theorem nipExpires_runs {s : State} : Runs true s (nipExpires s) := .trans (runs_upMot rfl) raise_runs

theorem silenceExpires_runs {c : Chan} {s : State} : Runs true s (silenceExpires c s) :=
  runs_ite ((runs_upCnt rfl).trans raise_runs) runs_refl

theorem stallExpires_runs {s : State} : Runs true s (stallExpires s) :=
  runs_ite ((runs_upCnt rfl).trans raise_runs) runs_refl

theorem mainsLost_runs {s : State} : Runs true s (mainsLost s) :=
  (runs_of_keeps upHeat_keeps (by decide)).trans raise_runs

theorem loopFault_runs {l : Loop} {c : LoopCause} {f : Cause} {s : State} : Runs true s (loopFault l c f s) :=
  (runs_of_keeps upTen_keeps (by decide)).trans raise_runs

theorem tickBatch_runs {ch : Chan} {x : Ticks} {s : State} : Runs true s (tickBatch ch x s) := by
  unfold tickBatch
  dsimp only
  have taken : Runs true s (rangeFault ch (s.cnt.chan.get ch) ((s.cnt.chan.get ch).take x)
      (s.upCnt fun k => { k with chan := k.chan.set ch ((s.cnt.chan.get ch).take x) })) :=
    (runs_upCnt rfl).trans (runs_ite raise_runs runs_refl)
  exact runs_ite taken (taken.trans handOn_runs)

theorem markCapture_runs {s : State} : Runs b s (markCapture s) :=
  .trans (runs_upCnt rfl) (judgeMark_runs.trans captureEnds_runs)

theorem detectSplice_runs {fp : Int} {s : State} : Runs true s (detectSplice fp s) := by
  refine runs_ite ?_ raise_runs
  have put : ∀ f : TrigUnit → List Splice,
      Runs true s (s.upTrg fun u => { u with splices := f u, announced := none }) :=
    fun _ => runs_upTrg (capsFrom_of_windows rfl)
  exact .trans (runs_ite ((put _).trans setPointer_runs) (put _)) (.notice _)

theorem spliceCapture_runs {s : State} : Runs true s (spliceCapture s) :=
  runs_ite (.trans (runs_upCnt rfl) (detectSplice_runs.trans captureEnds_runs)) runs_refl

/-! ## The 10 ms sample (01 R8 to R10, 02 2.4, 05) -/

theorem countSample_runs {s : State} : Runs true s (countSample s) :=
  runs_ite ((runs_upCnt rfl).trans raise_runs) (runs_upCnt rfl)

theorem loopSample_runs {raw : Loops Int} {l : Loop} {s : State} : Runs true s (loopSample raw s l) := by
  have sampled : Runs true s (s.upTen fun t => t.set l ((t.get l).sample l s (raw.get l))) :=
    runs_of_keeps upTen_keeps (by decide)
  exact runs_ite (sampled.trans loopFault_runs) (runs_ite (sampled.trans loopFault_runs) sampled)

theorem tensionSample_runs {lc0 lc1 lc2 : Int} {s : State} : Runs true s (tensionSample lc0 lc1 lc2 s) :=
  runs_foldl (fun _ _ => loopSample_runs) _ s

theorem motionSample_runs {s : State} : Runs b s (motionSample s) := by
  have governed : Runs b s (governor s) := .same rfl rfl rfl rfl (capsFrom_of_windows rfl)
  have held : ∀ {v : Int} {t : State}, Runs b t (beginHold v t) := runs_ite startHold_runs runs_refl
  have halted : ∀ {t : State}, Runs b t (haltComplete t) := runs_ite (.line _ _) runs_refl
  exact (governed.trans held).trans (halted.trans (runs_ite ((runs_upMot rfl).trans (.notice _)) runs_refl))

theorem speedSample_runs {lc0 lc1 lc2 : Int} {ca ta : Bool} {s : State} :
    Runs true s (speedSample lc0 lc1 lc2 ca ta s) := by
  unfold speedSample
  cases ca <;> cases ta <;> simp only [Bool.false_eq_true, if_false, if_true]
  · exact (countSample_runs.trans tensionSample_runs).trans motionSample_runs
  · exact (countSample_runs.trans motionSample_runs).trans tensionSample_runs
  · exact (tensionSample_runs.trans motionSample_runs).trans countSample_runs
  · exact (motionSample_runs.trans countSample_runs).trans tensionSample_runs

/-! ## Heat (03) -/

theorem updZone_runs {z : Zone} {f : ZoneRec → ZoneRec} {s : State} : Runs b s (updZone z f s) :=
  runs_of_keeps updZone_keeps (by decide)

theorem raiseZoneSensor_runs {z : Zone} {line : LineState} {s : State} : Runs true s (raiseZoneSensor z line s) :=
  runs_ite (updZone_runs.trans raise_runs) warn_runs

theorem goLost_runs {z : Zone} {line : LineState} {s : State} : Runs true s (goLost z line s) :=
  updZone_runs.trans raiseZoneSensor_runs

theorem sensorStage_runs {line : LineState} {z : Zone} {s : State} : Runs true s (sensorStage line s z) := by
  refine runs_ite runs_refl (runs_ite updZone_runs ?_)
  dsimp only
  split
  · exact runs_ite (updZone_runs.trans updZone_runs) updZone_runs
  · exact runs_ite (updZone_runs.trans goLost_runs) updZone_runs
  · exact runs_ite (updZone_runs.trans raiseZoneSensor_runs) updZone_runs

theorem overheatStage_runs {z : Zone} {s : State} : Runs true s (overheatStage s z) :=
  runs_ite (runs_ite updZone_runs (updZone_runs.trans raise_runs)) updZone_runs

theorem coldStage_runs {line : LineState} {z : Zone} {s : State} : Runs true s (coldStage line s z) :=
  runs_ite updZone_runs
    (runs_ite (runs_ite (runs_ite updZone_runs (updZone_runs.trans raise_runs)) updZone_runs) runs_refl)

theorem temperatureSample_runs {r : Six (Option Int)} {s : State} : Runs true s (temperatureSample r s) := by
  have heated : ∀ {t : State} {f : Heat → Heat}, Runs true t (t.upHeat f) := runs_of_keeps upHeat_keeps (by decide)
  have stages := (heated (t := s) (f := fun h =>
      { h with zones := Six.ofZone fun z => (h.zones.get z).read (r.get z) })).trans
    ((runs_foldl (fun _ z => sensorStage_runs (line := s.mot.line) (z := z)) Zone.all _).trans
      ((runs_foldl (fun _ z => overheatStage_runs (z := z)) Zone.all _).trans
        (runs_foldl (fun _ z => coldStage_runs (line := s.mot.line) (z := z)) Zone.all _)))
  exact .trans ((stages.trans heated).trans heated) (runs_ite findings_runs runs_refl)

theorem distribute_runs {s : State} : Runs b s (distribute s) :=
  (runs_of_keeps upHeat_keeps (by decide)).trans (runs_foldl (fun _ _ => warn_runs) _ _)

theorem zeroCross_runs {gap : Nat} {s : State} : Runs b s (zeroCross gap s) := by
  have heated : ∀ {t : State} {f : Heat → Heat}, Runs b t (t.upHeat f) := runs_of_keeps upHeat_keeps (by decide)
  have edge : Runs b s (s.upPins fun p => { p with zc := !p.zc }) := runs_of_keeps upPins_keeps (by decide)
  refine runs_ite edge (runs_ite (edge.trans heated) (runs_ite (edge.trans heated) (runs_ite edge ?_)))
  exact edge.trans (.trans (runs_ite (heated.trans warn_runs) heated) distribute_runs)

theorem zoneSensor_runs {z : Zone} {s : State} : Runs true s (zoneSensor z s) := runs_ite goLost_runs runs_refl

theorem readiness_runs {s : State} : Runs b s (readiness s) :=
  runs_ite ((runs_of_keeps upHeat_keeps (by decide)).trans findings_runs) runs_refl

theorem zoneShortfall_runs {z : Zone} {s : State} : Runs b s (zoneShortfall z s) :=
  runs_ite (updZone_runs.trans warn_runs) runs_refl

/-! ## The dose sample and the head link (04, 07) -/

theorem doseSample_runs {s : State} : Runs b s (doseSample s) := by
  have judged : ∀ {t : State}, Runs b t (judgeFloor t) := by
    intro t
    have marked := fun (f : Dose → Dose) (g : PanelQueue → PanelQueue) => runs_of_keeps (b := b)
      (keeps_seq (upDose_keeps (s := t) (f := f)) (upPq_keeps (f := g)) (n := [.dose, .pq]) (by decide) (by decide))
      (by decide)
    exact runs_ite (runs_ite ((marked _ _).trans warn_runs) (marked _ _)) (runs_of_keeps upDose_keeps (by decide))
  exact ((runs_of_keeps upDose_keeps (by decide)).trans (runs_of_keeps upPq_keeps (by decide))).trans
    ((runs_of_keeps upDose_keeps (by decide)).trans judged)

theorem headHunts_runs {s : State} : Runs b s (headHunts s) := runs_of_keeps headHunts_keeps (by decide)

theorem takeAccept_runs {txn panel : Nat} {s : State} : Runs b s (takeAccept txn panel s) := by
  refine .trans headHunts_runs ?_
  unfold takeAccept
  dsimp only
  split
  · exact ((runs_of_keeps upPq_keeps (by decide)).trans (runs_of_keeps updPanel_keeps (by decide))).trans decide_runs
  · exact withdraw_runs.trans warn_runs

theorem takeRefuse_runs {txn panel reason : Nat} {s : State} : Runs b s (takeRefuse txn panel reason s) := by
  refine .trans headHunts_runs ?_
  unfold takeRefuse
  dsimp only
  split
  · exact refusal_runs.trans decide_runs
  · exact warn_runs

theorem takeDone_runs {txn panel : Nat} {printed : Int} {s : State} : Runs b s (takeDone txn panel printed s) := by
  refine .trans headHunts_runs ?_
  unfold takeDone
  dsimp only
  split
  · exact .trans (runs_ite warn_runs runs_refl)
      ((runs_of_keeps endPrint_keeps (by decide)).trans (afterPrint_runs.trans decide_runs))
  · exact warn_runs

theorem takeFault_runs {txn panel : Nat} {printed : Int} {reason : Nat} {s : State} :
    Runs b s (takeFault txn panel printed reason s) := by
  refine .trans headHunts_runs ?_
  unfold takeFault
  dsimp only
  split
  · exact ((runs_of_keeps endPrint_keeps (by decide)).trans warn_runs).trans
      ((runs_of_keeps upPq_keeps (by decide)).trans (afterPrint_runs.trans decide_runs))
  · exact warn_runs

theorem takeOtherFrame_runs {kind tag : Byte} {body : List Byte} {s : State} :
    Runs b s (takeOtherFrame kind tag body s) :=
  (headHunts_runs.trans (runs_of_keeps bodyPanelTag_keeps (by decide))).trans warn_runs

theorem timeDeadline_runs {n : Nat} {s : State} : Runs b s (timeDeadline n s) := by
  unfold timeDeadline
  split
  · exact startingDeadline_runs.trans decide_runs
  · exact runs_refl

/-! ## Host commands (11 11.5) -/

theorem clearLine_runs {s : State} : Runs b s (clearLine s) := by
  have queue : ∀ {t : State}, Runs b t (clearQueue t) := fun {t} =>
    ((runs_foldl (fun _ _ => withdraw_runs) _ t).trans
      (runs_of_keeps (keeps_foldl (fun _ _ => dropRef_keeps) _ _) (by decide))).trans (runs_of_keeps upPq_keeps (by decide))
  have orphans : ∀ {t : State}, Runs b t ((List.range t.trg.slots.length).foldl
      (fun s i => if (s.trg.slots[i]?.getD .free).unresolved then orphanSlot i none s else s) t) :=
    runs_foldl (fun _ _ => runs_ite orphanSlot_runs runs_refl) _ _
  have triggers : ∀ {t : State}, Runs b t (clearTriggers t) := fun {t} =>
    ((((runs_upTrg (capsFrom_of_windows rfl)).trans orphans).trans
      (runs_of_keeps (keeps_foldl (fun _ _ => dropRef?_keeps) _ _) (by decide))).trans
        (runs_of_keeps dropRef?_keeps (by decide))).trans
          (runs_upTrg (f := fun u => { u with splices := [], announced := none }) (capsFrom_of_windows rfl))
  exact ((queue.trans (runs_of_keeps upDose_keeps (by decide))).trans (runs_of_keeps upMrk_keeps (by decide))).trans triggers

theorem rebase_runs {c : Chan} {v : Int} {s : State} : Runs b s (rebase c v s) := by
  cases c with
  | paper => exact .same rfl rfl rfl rfl (capsFrom_of_windows rfl)
  | fabric => exact .same rfl rfl rfl rfl (capsFrom_of_windows rfl)
  | drum => exact .same rfl rfl rfl rfl (capsFrom_of_windows rfl)

theorem setDrumOp_runs {v : Int} {o : Six Int} {m : Nat} {s : State} : Runs b s (setDrumOp v o m s).1 :=
  runs_of_keeps setDrumOp_keeps (by decide)

theorem heatOnOp_runs {v : Int} {o : Six Int} {m : Nat} {s : State} : Runs b s (heatOnOp v o m s).1 := by
  unfold heatOnOp
  split
  · exact runs_refl
  · split
    · exact runs_refl
    · split
      · exact (runs_of_keeps upHeat_keeps (by decide)).trans (.line _ _)
      · exact runs_refl
      · exact runs_refl
      all_goals exact setDrumOp_runs

theorem heatOffOp_runs {s : State} : Runs b s (heatOffOp s).1 := by
  have off : Runs b s (heatOffLine s) :=
    ((runs_of_keeps upHeat_keeps (by decide)).trans (runs_of_keeps upTen_keeps (by decide))).trans (.line _ _)
  unfold heatOffOp
  split
  case h_2 | h_3 | h_4 => exact off
  case h_5 =>
    split
    · exact runs_refl
    · exact off
  all_goals exact runs_refl

theorem startOp_runs {s : State} : Runs b s (startOp s).1 := by
  unfold startOp
  split
  case h_1 | h_2 => exact startLine_runs
  all_goals exact runs_refl

theorem stopOp_runs {s : State} : Runs b s (stopOp s).1 := by
  unfold stopOp
  split
  case h_1 => exact stopLine_runs
  all_goals exact runs_refl

theorem threadEnterOp_runs {s : State} : Runs b s (threadEnterOp s).1 := by
  unfold threadEnterOp
  split
  case h_1 => exact .line _ _
  all_goals exact runs_refl

theorem threadExitOp_runs {s : State} : Runs b s (threadExitOp s).1 := by
  unfold threadExitOp
  split
  · exact (runs_upMot rfl).trans (.line _ _)
  · exact runs_refl

/-- The moves change nothing but the record of the move and the drive. -/
theorem runs_of_mot {s t : State} (k : Keeps [.mot] s t) (h : t.mot.line = s.mot.line) : Runs b s t :=
  .same (k .flt (by decide)) h (congrArg Counting.clock (k .cnt (by decide))) (congrArg Params.tLink (k .par (by decide)))
    (capsFrom_of_windows (congrArg TrigUnit.windows (k .trg (by decide))))

theorem jogOp_runs {d : Nat} {x : Int} {s : State} : Runs b s (jogOp d x s).1 :=
  runs_of_mot jogOp_keeps (by unfold jogOp; repeat' split
                              all_goals rfl)

theorem seekOp_runs {x : Int} {c : Nat} {s : State} : Runs b s (seekOp x c s).1 :=
  runs_of_mot seekOp_keeps (by unfold seekOp; repeat' split
                               all_goals rfl)

theorem seekStopOp_runs {s : State} : Runs b s (seekStopOp s).1 :=
  runs_of_mot seekStopOp_keeps (by unfold seekStopOp; split <;> rfl)

theorem resumeMove_runs {s : State} : Runs b s (resumeMove s) := runs_ite (runs_upMot rfl) (runs_upMot rfl)

theorem seekResumeOp_runs {s : State} : Runs b s (seekResumeOp s).1 := by
  unfold seekResumeOp
  dsimp only
  split
  · exact runs_refl
  · split
    · exact runs_refl
    · exact resumeMove_runs

theorem panelCancelOp_runs {panel : Nat} {s : State} : Runs b s (panelCancelOp panel s).1 := by
  have started : ∀ {p : Panel}, Runs b s (cancelStarting p s) := by
    intro p
    unfold cancelStarting
    split
    · exact (withdraw_runs.trans (runs_of_keeps upPq_keeps (by decide))).trans (runs_of_keeps upPq_keeps (by decide))
    · exact runs_of_keeps upPq_keeps (by decide)
  unfold panelCancelOp
  split
  · exact runs_refl
  · split
    · exact ((runs_of_keeps upPq_keeps (by decide)).trans becomeDone_runs).trans decide_runs
    · split
      · split
        · exact ((runs_of_keeps upPq_keeps (by decide)).trans becomeDone_runs).trans decide_runs
        · exact (started.trans becomeDone_runs).trans decide_runs
        all_goals exact runs_refl
      · exact runs_refl

theorem triggerSetOp_runs {i : Nat} {f : TriggerFields} {s : State} : Runs b s (triggerSetOp i f s).1 := by
  have written : ∀ {t : Trigger}, Runs b s (writeTrigger i t s) := by
    intro t
    unfold writeTrigger
    dsimp only
    split
    · exact setTrigSlot_runs.trans resolveSlot_runs
    · exact setTrigSlot_runs
  unfold triggerSetOp
  split
  · exact runs_refl
  · split
    · exact runs_refl
    · split
      · exact runs_refl
      · split
        · exact runs_refl
        · exact written

theorem triggerArmOp_runs {i : Nat} {s : State} : Runs b s (triggerArmOp i s).1 := by
  unfold triggerArmOp
  split
  · exact runs_refl
  · split
    · exact runs_refl
    · exact runs_refl
    · exact setTrigSlot_runs

theorem triggerClearOp_runs {i : Nat} {s : State} : Runs b s (triggerClearOp i s).1 := by
  unfold triggerClearOp
  split
  · exact runs_refl
  · split
    · exact runs_refl
    · exact runs_refl
    · exact setTrigSlot_runs

theorem windowClearOp_runs {i : Nat} {s : State} : Runs b s (windowClearOp i s).1 := by
  have cleared : Runs b s (setWindow i none s) := runs_upTrg fun w hw => by
    rcases List.mem_or_eq_of_mem_set hw with hw | hw
    · exact ⟨w, hw, rfl⟩
    · exact nomatch hw
  unfold windowClearOp
  split
  · exact runs_refl
  · exact cleared

theorem fabricLoadOp_runs {n : ProfileName} {s : State} : Runs b s (fabricLoadOp n s).1 := by
  unfold fabricLoadOp
  split
  · exact runs_refl
  · split
    · exact runs_refl
    · exact (setPointer_runs.trans setPointer_runs).trans setPointer_runs

theorem spliceAheadOp_runs {n : ProfileName} {s : State} : Runs b s (spliceAheadOp n s).1 := by
  unfold spliceAheadOp
  split
  · exact runs_refl
  · next e _ =>
    exact ((runs_of_keeps dropRef?_keeps (by decide)).trans (runs_of_keeps takeRef?_keeps (by decide))).trans
      (runs_upTrg (f := fun u => { u with announced := e }) (capsFrom_of_windows rfl))

/-- The host commands that are pieces alone: all but those that write a parameter or a window, empty the latch or clear
the flag of dropped notices. -/
theorem hostOp_runs {c : Instr} {s : State} (param : ∀ t i v, c ≠ .setParam t i v) (window : ∀ t i f, c ≠ .windowSet t i f)
    (clear : ∀ t, c ≠ .clearFault t) (flags : ∀ t, c ≠ .readStatus t true) : Runs b s (hostOp c s).1 := by
  cases c with
  | setParam t i v => exact absurd rfl (param t i v)
  | windowSet t i f => exact absurd rfl (window t i f)
  | clearFault t => exact absurd rfl (clear t)
  | readStatus t x =>
    cases x with
    | true => exact absurd rfl (flags t)
    | false => exact runs_refl
  | setPosition =>
    show Runs b s (setPositionOp _ _ s).1
    unfold setPositionOp
    split
    · exact rebase_runs
    · exact runs_refl
    · exact runs_refl
  | heatOn => exact heatOnOp_runs
  | heatOff => exact heatOffOp_runs
  | setDrum => exact setDrumOp_runs
  | start => exact startOp_runs
  | stop => exact stopOp_runs
  | threadEnter => exact threadEnterOp_runs
  | threadExit => exact threadExitOp_runs
  | jog => exact jogOp_runs
  | seek => exact seekOp_runs
  | seekStop => exact seekStopOp_runs
  | seekResume => exact seekResumeOp_runs
  | profileLoad => exact runs_of_keeps profileLoadOp_keeps (by decide)
  | profileDrop => exact runs_of_keeps profileDropOp_keeps (by decide)
  | profilePin => exact runs_of_keeps profilePinOp_keeps (by decide)
  | profileTrim => exact runs_of_keeps profileTrimOp_keeps (by decide)
  | panelSubmit => exact runs_of_keeps panelSubmitOp_keeps (by decide)
  | panelInsert => exact runs_of_keeps panelInsertOp_keeps (by decide)
  | panelCancel => exact panelCancelOp_runs
  | dispatchEnable => exact runs_of_keeps dispatchEnableOp_keeps (by decide)
  | dispatchResume => exact runs_of_keeps dispatchResumeOp_keeps (by decide)
  | dispatchHold => exact runs_of_keeps dispatchHoldOp_keeps (by decide)
  | dispatchOff => exact runs_of_keeps upPq_keeps (by decide)
  | triggerSet => exact triggerSetOp_runs
  | triggerArm => exact triggerArmOp_runs
  | triggerClear => exact triggerClearOp_runs
  | windowClear => exact windowClearOp_runs
  | fabricLoad => exact fabricLoadOp_runs
  | spliceAhead => exact spliceAheadOp_runs
  | clearLine =>
    show Runs b s (clearLineOp s).1
    unfold clearLineOp
    split
    · exact clearLine_runs
    · exact runs_refl
  | linkConfig | getParam | readCounts | readMotion | readHeat | readDose | readProbe | readTension | profileFind
  | profileRead | readQueue | readPanel | readMarks | triggerRead | readWindows | readFabric | readFault =>
    rw [reading_fst _ rfl]; exact runs_refl
  | _ => exact runs_refl

end Sys2Proof.Machine
end

