-- ==== Sys2Proof/Proofs/LineConsistent.lean ====
section
/-! PROOF. The invariant of the motion controller: the parameters, the caps of the windows, and the line state against the
latch, the heat, the nip and the speed (02 2.2, 2.5, R20 to R33, 11 R183). -/

namespace Sys2Proof.Machine
open Sys2Proof

/-! ## The line state against what it depends on -/

/-- `LineOk` as a condition on the motion controller, whether the latch holds a record, and whether heat is on. -/
structure Motion.Consistent (m : Motion) (latched : Prop) (on : Bool) : Prop where
  faulted : m.line = .halting ∨ m.line = .faulted → latched
  latched : latched → m.line = .halting ∨ m.line = .faulted ∨ m.line = .off
  heatOff : m.line = .off → on = false
  heatOn : m.line ≠ .off → m.line ≠ .faulted → on = true
  nipClosed : ¬m.opens → m.line = .running ∨ m.line = .stopping
  running : m.line = .running → ¬m.opens
  speed : 0 ≤ m.vref ∧ m.vref ≤ 50000
  atRest : m.vref ≠ 0 → m.line.moving = true
  nipOpen : m.line = .running ∨ m.line = .stopping → m.nip ≠ .closed → m.vref = 0
  hold : m.hold.isRunning = true → m.line = .stopping ∧ m.nip = .closed ∧ m.vref = 0

theorem lineOk_iff (s : State) : LineOk s ↔ s.mot.Consistent (s.flt.latch ≠ none) s.heat.on := by
  have closed := nipCmd_iff_not_opens s
  constructor
  · intro ⟨faulted, latched, heatOff, heatOn, nipClosed, running, speed, atRest, nipOpen, hold⟩
    rw [closed] at nipClosed running
    exact ⟨faulted, latched, heatOff, heatOn, nipClosed, running, speed, atRest, nipOpen, hold⟩
  · intro ⟨faulted, latched, heatOff, heatOn, nipClosed, running, speed, atRest, nipOpen, hold⟩
    rw [← closed] at nipClosed running
    exact ⟨faulted, latched, heatOff, heatOn, nipClosed, running, speed, atRest, nipOpen, hold⟩

namespace Motion.Consistent

variable {m n : Motion} {latched : Prop} {on : Bool}

/-- Outside RUNNING and STOPPING the nip is commanded open and no hold is under way. -/
theorem parked (h : m.Consistent latched on) (r : m.line ≠ .running) (s : m.line ≠ .stopping) :
    m.opens ∧ m.hold.isRunning = false := by
  refine ⟨Classical.not_not.mp fun hc => ?_, ?_⟩
  · exact (h.nipClosed hc).elim r s
  · cases hr : m.hold.isRunning with
    | false => rfl
    | true => exact absurd (h.hold hr).1 s

/-- The latch is empty in a line state that no fault has brought. -/
theorem unlatched (h : m.Consistent latched on) (l : m.line ≠ .halting) (f : m.line ≠ .faulted) (o : m.line ≠ .off) :
    ¬latched := fun hl => by
  rcases h.latched hl with e | e | e
  · exact l e
  · exact f e
  · exact o e

/-- The speed is 0 in a line state at rest. -/
theorem rest (h : m.Consistent latched on) (l : m.line.moving = false) : m.vref = 0 :=
  Classical.not_not.mp fun hv => by
    have := h.atRest hv
    rw [l] at this
    exact nomatch this

/-- A line state outside RUNNING and STOPPING is consistent when the nip is commanded open and the rest fits. -/
theorem of_parked (r : m.line ≠ .running) (s : m.line ≠ .stopping) (nip : m.opens) (hold : m.hold.isRunning = false)
    (hfaulted : m.line = .halting ∨ m.line = .faulted → latched)
    (hlatched : latched → m.line = .halting ∨ m.line = .faulted ∨ m.line = .off) (hoff : m.line = .off → on = false)
    (hon : m.line ≠ .off → m.line ≠ .faulted → on = true) (speed : 0 ≤ m.vref ∧ m.vref ≤ 50000)
    (atRest : m.vref ≠ 0 → m.line.moving = true) : m.Consistent latched on where
  faulted := hfaulted
  latched := hlatched
  heatOff := hoff
  heatOn := hon
  nipClosed := fun hc => absurd nip hc
  running := fun hr => absurd hr r
  speed := speed
  atRest := atRest
  nipOpen := fun hl => (hl.elim r s).elim
  hold := fun hr => by rw [hold] at hr; exact nomatch hr

/-- A line state at rest, without a fault and with heat on. -/
theorem of_rest (line : m.line = .warming ∨ m.line = .ready ∨ m.line = .threading) (nip : m.opens)
    (hold : m.hold.isRunning = false) (vref : m.vref = 0) (empty : ¬latched) (heat : on = true) :
    m.Consistent latched on := by
  rcases line with l | l | l <;>
    exact of_parked (by simp [l]) (by simp [l]) nip hold (by simp [l]) (fun k => absurd k empty) (by simp [l])
      (fun _ _ => heat) (by omega) (by simp [vref])

/-- RUNNING and STOPPING, with the nip commanded closed in RUNNING and no speed short of CLOSED. -/
theorem of_web (line : m.line = .running ∨ m.line = .stopping) (empty : ¬latched) (heat : on = true)
    (running : m.line = .running → ¬m.opens) (speed : 0 ≤ m.vref ∧ m.vref ≤ 50000)
    (nipOpen : m.nip ≠ .closed → m.vref = 0)
    (hold : m.hold.isRunning = true → m.line = .stopping ∧ m.nip = .closed ∧ m.vref = 0) : m.Consistent latched on where
  faulted := fun h => by rcases line with l | l <;> simp [l] at h
  latched := fun h => absurd h empty
  heatOff := fun h => by rcases line with l | l <;> rw [l] at h <;> exact nomatch h
  heatOn := fun _ _ => heat
  nipClosed := fun _ => line
  running := running
  speed := speed
  atRest := fun _ => by rcases line with l | l <;> rw [l] <;> rfl
  nipOpen := fun _ => nipOpen
  hold := hold

/-- In RUNNING and STOPPING heat is on and the latch is empty. -/
theorem web (h : m.Consistent latched on) (line : m.line = .running ∨ m.line = .stopping) : ¬latched ∧ on = true := by
  rcases line with l | l <;> exact ⟨h.unlatched (by simp [l]) (by simp [l]) (by simp [l]), h.heatOn (by simp [l]) (by simp [l])⟩

/-- Only the line state, the nip, the speed and whether the hold timer runs count. -/
theorem congr (h : m.Consistent latched on) (line : n.line = m.line) (nip : n.nip = m.nip) (vref : n.vref = m.vref)
    (hold : n.hold.isRunning = m.hold.isRunning) : n.Consistent latched on := by
  obtain ⟨faulted, latched, heatOff, heatOn, nipClosed, running, speed, atRest, nipOpen, hold'⟩ := h
  unfold Motion.opens at nipClosed running
  rw [← line, ← nip] at *
  rw [← vref, ← hold] at *
  exact ⟨faulted, latched, heatOff, heatOn, nipClosed, running, speed, atRest, nipOpen, hold'⟩

end Motion.Consistent

/-! ## Critical faults (02 R24) -/

/-- A line that enters HALTING has its nip commanded open and no hold or target left. -/
theorem enterHalting_rests (s : State) :
    (enterHalting s).mot.target = 0 ∧ (enterHalting s).mot.hold = .stopped ∧ (enterHalting s).mot.opens := by
  have e : (enterHalting s).mot = (nipOpen ((setLine .halting .fault s).upMot
      fun m => { m with target := 0, hold := .stopped })).mot := withdrawStarting_keeps .mot (by decide)
  obtain ⟨-, target, -, hold, -, nip⟩ := nipOpen_mot ((setLine .halting .fault s).upMot
    fun m => { m with target := 0, hold := .stopped })
  unfold Motion.opens
  rw [e]
  exact ⟨target, hold, nip⟩

theorem faultMotion_rests {s : State} (h : (faultMotion s).mot.line = .halting) (l : s.mot.line ≠ .halting) :
    (faultMotion s).mot.target = 0 ∧ (faultMotion s).mot.hold = .stopped ∧ (faultMotion s).mot.opens := by
  have stopped : ∀ {u : State}, (setLine .faulted .fault u).mot.line ≠ .halting := by intro u; simp
  unfold faultMotion at h ⊢
  split at h
  case h_1 | h_2 => exact enterHalting_rests _
  case h_3 =>
    split at h
    · next hv => rw [if_pos hv]; exact enterHalting_rests _
    · exact absurd h stopped
  case h_4 | h_5 | h_6 => exact absurd h stopped
  case h_7 hl => exact absurd hl l
  case h_8 hl =>
    have : s.mot.line = .halting := h
    rw [hl] at this
    exact nomatch this

/-- Entering HALTING zeroes the target, stops the hold and commands the nip open (02 R24). -/
theorem raise_rests {c : Cause} {i : Option Nat} {s : State} (h : (raise c i s).mot.line = .halting)
    (l : s.mot.line ≠ .halting) :
    (raise c i s).mot.target = 0 ∧ (raise c i s).mot.hold = .stopped ∧ (raise c i s).mot.opens := by
  have e : (raise c i s).mot = (faultMotion (s.upFlt fun f => f.take (s.recordOf c i))).mot := notice_mot _ _
  rw [e] at h ⊢
  exact faultMotion_rests h l

/-- A fault in HALTING leaves the line, the nip and the hold as they are. -/
theorem raise_halting {c : Cause} {i : Option Nat} {s : State} (h : s.mot.line = .halting) :
    (raise c i s).mot = { s.mot with seek := s.mot.seek.suspend .fault } := by
  have e : (raise c i s).mot = (faultMotion (s.upFlt fun f => f.take (s.recordOf c i))).mot := notice_mot _ _
  rw [e]
  unfold faultMotion
  split
  case h_7 => rfl
  all_goals next hl => rw [show (s.upFlt _).mot.line = s.mot.line from rfl, h] at hl; exact nomatch hl

/-- No critical fault leaves a nip commanded closed or a hold under way. -/
theorem raise_parked {c : Cause} {i : Option Nat} {s : State} {latched : Prop} {on : Bool}
    (h : s.mot.Consistent latched on) : (raise c i s).mot.opens ∧ (raise c i s).mot.hold.isRunning = false := by
  have moved := raise_faulted c i s
  have line := moved.line
  by_cases hn : (raise c i s).mot.line = .halting
  · by_cases hm : s.mot.line = .halting
    · rw [raise_halting hm]
      exact h.parked (by simp [hm]) (by simp [hm])
    · obtain ⟨-, hold, nip⟩ := raise_rests hn hm
      exact ⟨nip, by rw [hold]; rfl⟩
  · rw [moved.rest hn]
    refine h.parked (fun e => hn ?_) (fun e => hn ?_) <;> rw [line, e] <;> rfl

/-- A line that moves is halted by a fault. -/
theorem faultLine_moving {l : LineState} {v : Int} (h : l.moving = true) (hv : 0 < v) : faultLine l v = .halting := by
  rcases (moving_iff l).mp h with (rfl | rfl | rfl) | rfl
  · rfl
  · rfl
  · exact if_pos hv
  · rfl

/-- A critical fault keeps the line consistent, and records itself. -/
theorem LineOk.raise {c : Cause} {i : Option Nat} {s : State} (h : LineOk s) : LineOk (raise c i s) := by
  rw [lineOk_iff] at h ⊢
  obtain ⟨nip, hold⟩ := raise_parked (c := c) (i := i) h
  have moved := raise_faulted c i s
  have latch := raise_latch_ne c i s
  have line : (Machine.raise c i s).mot.line = .halting ∨ (Machine.raise c i s).mot.line = .faulted :=
    moved.line ▸ faultLine_fault _ _
  have heat : (Machine.raise c i s).heat.on = s.heat.on := congrArg Heat.on (raise_keeps .heat (by decide))
  refine .of_parked (by rcases line with l | l <;> simp [l]) (by rcases line with l | l <;> simp [l]) nip hold
    (fun _ => latch) (fun _ => line.imp id .inl) (by rcases line with l | l <;> simp [l]) (fun _ hf => ?_)
    (moved.vref ▸ h.speed) fun hv => ?_
  · have halting := line.resolve_right hf
    rw [heat]
    refine h.heatOn (fun e => ?_) fun e => ?_ <;>
      · rw [moved.line, e] at halting
        exact nomatch halting
  · have going := h.atRest (moved.vref ▸ hv)
    have := h.speed
    rw [moved.line, faultLine_moving going (by rw [moved.vref] at hv; omega)]
    rfl

/-! ## What leaves the line consistent -/

/-- Only the line state, the nip, the speed, the hold, the latch and whether heat is on count. -/
theorem LineOk.congr {s t : State} (h : LineOk s) (line : t.mot.line = s.mot.line) (nip : t.mot.nip = s.mot.nip)
    (vref : t.mot.vref = s.mot.vref) (hold : t.mot.hold.isRunning = s.mot.hold.isRunning)
    (latch : t.flt.latch = s.flt.latch) (heat : t.heat.on = s.heat.on) : LineOk t := by
  rw [lineOk_iff] at *
  rw [latch, heat]
  exact Motion.Consistent.congr h line nip vref hold

theorem LineOk.of_mot {s t : State} (h : LineOk s) (mot : t.mot = s.mot) (latch : t.flt.latch = s.flt.latch)
    (heat : t.heat.on = s.heat.on) : LineOk t :=
  h.congr (by rw [mot]) (by rw [mot]) (by rw [mot]) (by rw [mot]) latch heat

theorem LineOk.of_keeps {s t : State} {l : List Block} (h : LineOk s) (k : Keeps l s t)
    (hl : ∀ x ∈ [Block.mot, .heat, .flt], x ∉ l) : LineOk t :=
  h.of_mot (k .mot (hl _ (by decide))) (congrArg FaultMon.latch (k .flt (hl _ (by decide))))
    (congrArg Heat.on (k .heat (hl _ (by decide))))

/-- Pieces without a fault that leave the motion controller and the heat. -/
theorem LineOk.of_runs {s t : State} {l : List Block} (h : LineOk s) (r : Runs false s t) (k : Keeps l s t)
    (hl : ∀ x ∈ [Block.mot, .heat], x ∉ l) : LineOk t :=
  h.of_mot (k .mot (hl _ (by decide))) r.latch_eq (congrArg Heat.on (k .heat (hl _ (by decide))))

theorem LineOk.unlatched {s : State} (h : LineOk s) (l : s.mot.line ≠ .halting) (f : s.mot.line ≠ .faulted)
    (o : s.mot.line ≠ .off) : ¬s.flt.latch ≠ none :=
  ((lineOk_iff s).mp h).unlatched l f o

/-- A hold under way only in STOPPING. -/
theorem LineOk.no_hold {s : State} (h : LineOk s) (l : s.mot.line ≠ .stopping) : s.mot.hold.isRunning = false := by
  cases hr : s.mot.hold.isRunning with
  | false => rfl
  | true => exact absurd (h.hold hr).1 l

/-- The nip without a hold. -/
theorem LineOk.stop_hold {s : State} (h : LineOk s) : LineOk (s.upMot fun m => { m with hold := .stopped }) where
  faulted := h.faulted
  latched := h.latched
  heatOff := h.heatOff
  heatOn := h.heatOn
  nipClosed := h.nipClosed
  running := h.running
  speed := h.speed
  atRest := h.atRest
  nipOpen := h.nipOpen
  hold := fun hr => nomatch hr

/-! ## Line states at rest (02 R18 to R20, R23, R25) -/

/-- A change between line states at rest with heat on. -/
theorem LineOk.setLine_rest {s : State} {new : LineState} {e : LineEvent} (h : LineOk s)
    (from_ : s.mot.line = .warming ∨ s.mot.line = .ready ∨ s.mot.line = .threading)
    (to_ : new = .warming ∨ new = .ready ∨ new = .threading) (vref : s.mot.vref = 0) : LineOk (setLine new e s) := by
  have c := (lineOk_iff s).mp h
  have heat : (setLine new e s).heat = s.heat := setLine_keeps .heat (by decide)
  obtain ⟨nip, hold⟩ : s.mot.opens ∧ s.mot.hold.isRunning = false := by
    rcases from_ with l | l | l <;> exact c.parked (by simp [l]) (by simp [l])
  have calm : ¬s.flt.latch ≠ none ∧ s.heat.on = true := by
    rcases from_ with l | l | l <;>
      exact ⟨c.unlatched (by simp [l]) (by simp [l]) (by simp [l]), h.heatOn (by simp [l]) (by simp [l])⟩
  rw [lineOk_iff, setLine_mot, setLine_latch, heat]
  exact .of_rest to_ nip hold vref calm.1 calm.2

theorem LineOk.findings {far : Bool} {s : State} (h : LineOk s) : LineOk (findings far s) := by
  have rest : s.mot.line.moving = false → s.mot.vref = 0 := ((lineOk_iff s).mp h).rest
  unfold Machine.findings
  split
  · next l =>
    split
    · exact h.setLine_rest (.inl l) (.inr (.inl rfl)) (rest (by rw [l]; rfl))
    · exact h
  · next l =>
    split
    · exact h.setLine_rest (.inr (.inl l)) (.inl rfl) (rest (by rw [l]; rfl))
    · exact h
  · exact h

theorem LineOk.threadEnter {s : State} (h : LineOk s) : LineOk (threadEnterOp s).1 := by
  have rest := ((lineOk_iff s).mp h).rest
  unfold threadEnterOp
  split
  · next l => exact h.setLine_rest (.inr (.inl l)) (.inr (.inr rfl)) (rest (by rw [l]; rfl))
  all_goals exact h

theorem LineOk.threadExit {s : State} (h : LineOk s) : LineOk (threadExitOp s).1 := by
  unfold threadExitOp
  split
  · next c =>
    have c : (s.mot.line = .threading ∧ s.mot.vref = 0) ∧ ¬s.mot.seek.state = .moving := by simpa using c
    have reset : LineOk (s.upMot fun m => { m with seek := {} }) := h.congr rfl rfl rfl rfl rfl rfl
    exact reset.setLine_rest (.inr (.inr c.1.1)) (.inr (.inl rfl)) c.1.2
  · exact h

/-- Heat on in OFF with an empty latch is WARMING. -/
theorem LineOk.heatOn_off {s t : State} {e : LineEvent} (h : LineOk s) (line : s.mot.line = .off)
    (empty : ¬s.flt.latch ≠ none) (mot : t.mot = s.mot) (flt : t.flt = s.flt) (on : t.heat.on = true) :
    LineOk (setLine .warming e t) := by
  have c := (lineOk_iff s).mp h
  obtain ⟨nip, hold⟩ := c.parked (by simp [line]) (by simp [line])
  have heat : (setLine .warming e t).heat = t.heat := setLine_keeps .heat (by decide)
  rw [lineOk_iff, setLine_mot, setLine_latch, heat, on, flt, mot]
  exact .of_rest (.inl rfl) nip hold (c.rest (by rw [line]; rfl)) empty rfl

theorem LineOk.setDrum {v : Int} {o : Six Int} {m : Nat} {s : State} (h : LineOk s) : LineOk (setDrumOp v o m s).1 := by
  unfold setDrumOp
  split
  · exact h.of_mot rfl rfl rfl
  · exact h

theorem LineOk.heatOnOp {v : Int} {o : Six Int} {m : Nat} {s : State} (h : LineOk s) : LineOk (heatOnOp v o m s).1 := by
  unfold Machine.heatOnOp
  split
  · exact h
  · split
    · exact h
    · next hl =>
      split
      · next line => exact h.heatOn_off line (by simpa [State.latched] using hl) rfl rfl rfl
      · exact h
      · exact h
      all_goals exact h.setDrum

/-- HEAT_OFF leaves OFF with heat off, from any line state at rest. -/
theorem LineOk.heatOffLine {s : State} (h : LineOk s) (run : s.mot.line ≠ .running) (stop : s.mot.line ≠ .stopping)
    (vref : s.mot.vref = 0) : LineOk (heatOffLine s) := by
  have c := (lineOk_iff s).mp h
  obtain ⟨nip, hold⟩ := c.parked run stop
  have heat : (Machine.heatOffLine s).heat = ((s.upHeat Heat.turnOff).upTen fun t => t.map LoopRec.toOff).heat :=
    setLine_keeps .heat (by decide)
  rw [lineOk_iff, heat]
  unfold Machine.heatOffLine
  rw [setLine_mot]
  exact .of_parked (by simp) (by simp) nip hold (by simp) (fun _ => .inr (.inr rfl)) (fun _ => rfl)
    (fun hl => absurd rfl hl) h.speed (fun hv => absurd vref hv)

theorem LineOk.heatOffOp {s : State} (h : LineOk s) : LineOk (heatOffOp s).1 := by
  have rest := ((lineOk_iff s).mp h).rest
  unfold Machine.heatOffOp
  split
  case h_1 | h_6 | h_7 | h_8 => exact h
  case h_2 | h_3 | h_4 =>
    next l => exact h.heatOffLine (by simp [l]) (by simp [l]) (rest (by rw [l]; rfl))
  case h_5 l =>
    split
    · exact h
    · next still =>
      have slow : s.mot.vref ≤ 0 := by simp at still; exact still.1
      exact h.heatOffLine (by simp [l]) (by simp [l]) (Int.le_antisymm slow h.speed.1)

/-- A cleared latch leaves the line the heat gives (02 R25). -/
theorem LineOk.clearLatch {s : State} (h : LineOk s) (latched : s.flt.latch ≠ none) (line : s.mot.line ≠ .halting) :
    LineOk (clearLatch s) := by
  have c := (lineOk_iff s).mp h
  have at_ : s.mot.line = .faulted ∨ s.mot.line = .off := (h.latched latched).resolve_left line
  obtain ⟨nip, hold⟩ := c.parked (by rcases at_ with l | l <;> simp [l]) (by rcases at_ with l | l <;> simp [l])
  have vref := c.rest (by rcases at_ with l | l <;> rw [l] <;> rfl)
  have heat : (Machine.clearLatch s).heat = s.heat := clearLatch_keeps .heat (by decide)
  have mot : (Machine.clearLatch s).mot = { s.mot with line := s.heat.clearedLine } := setLine_mot _ _ _
  have empty : ¬(Machine.clearLatch s).flt.latch ≠ none := fun k => k (setLine_latch _ _ _)
  rw [lineOk_iff, heat, mot]
  cases on : s.heat.on with
  | true =>
    have cleared : s.heat.clearedLine = .warming ∨ s.heat.clearedLine = .ready := by
      unfold Heat.clearedLine; rw [on]; cases s.heat.ready <;> simp
    exact .of_rest (cleared.imp id .inl) nip hold vref empty rfl
  | false =>
    have cleared : s.heat.clearedLine = .off := by unfold Heat.clearedLine; rw [on]; rfl
    rw [cleared]
    exact .of_parked (by simp) (by simp) nip hold (by simp) (fun k => absurd k empty) (fun _ => rfl)
      (fun hl => absurd rfl hl) h.speed (fun hv => absurd vref hv)

theorem LineOk.clearFault {s : State} (h : LineOk s) : LineOk (clearFaultOp s).1 := by
  unfold clearFaultOp
  split
  · exact h
  · next hl =>
    split
    · exact h
    · next line =>
      split
      · exact h
      · exact h.clearLatch (by simpa [State.latched] using hl) line

/-! ## The nip (02 R31 to R33) -/

/-- A nip found open: a STOPPING line that stands goes to READY. -/
theorem LineOk.nipOpened {s : State} (h : LineOk s) (line : s.mot.line ≠ .running) (hold : s.mot.hold.isRunning = false)
    (vref : s.mot.line = .stopping → s.mot.vref = 0) : LineOk (nipOpened s) := by
  have c := (lineOk_iff s).mp h
  have heat : (Machine.nipOpened s).heat = s.heat := nipOpened_keeps .heat (by decide)
  have latch : (Machine.nipOpened s).flt.latch = s.flt.latch := nipOpened_runs.latch_eq
  rw [lineOk_iff, heat, latch, nipOpened_mot]
  by_cases l : s.mot.line = .stopping
  · obtain ⟨empty, on⟩ := c.web (.inr l)
    rw [if_pos l]
    exact .of_rest (.inr (.inl rfl)) (.inl rfl) hold (vref l) empty on
  · rw [if_neg l]
    exact .of_parked line l (.inl rfl) hold c.faulted c.latched c.heatOff c.heatOn c.speed c.atRest

/-- A command to open the nip of a line that stands or does not draw. -/
theorem LineOk.opensNip {s : State} (h : LineOk s) (line : s.mot.line ≠ .running) (hold : s.mot.hold.isRunning = false)
    (vref : s.mot.line = .stopping → s.mot.vref = 0) : LineOk (Machine.nipOpen s) := by
  have c := (lineOk_iff s).mp h
  by_cases ho : s.mot.opens
  · rw [nipOpen_held ho]; exact h
  · have opening : LineOk (s.upMot fun m => { m with nip := .opening, nipTimer := .running 0 }) := by
      rw [lineOk_iff]
      by_cases l : s.mot.line = .stopping
      · obtain ⟨empty, on⟩ := c.web (.inr l)
        exact .of_web (.inr l) empty on (fun hr => absurd hr line) c.speed (fun _ => vref l)
          (fun hr => by rw [show (s.upMot _).mot.hold = s.mot.hold from rfl, hold] at hr; exact nomatch hr)
      · exact .of_parked line l (.inr rfl) hold c.faulted c.latched c.heatOff c.heatOn c.speed c.atRest
    rw [nipOpen_turned ho]
    split
    · exact opening.nipOpened line hold vref
    · exact opening

theorem LineOk.holdEnds {s : State} (h : LineOk s) (hold : s.mot.hold.isRunning = true) : LineOk (holdEnds s) := by
  obtain ⟨line, -, vref⟩ := h.hold hold
  exact h.stop_hold.opensNip (fun hr => by rw [show (s.upMot _).mot.line = s.mot.line from rfl, line] at hr; exact nomatch hr)
    rfl fun _ => vref

theorem LineOk.nipHold {s : State} (h : LineOk s) : LineOk (nipHold s) := by
  unfold Machine.nipHold
  split
  · next hold => exact h.holdEnds hold
  · exact h

/-- The hold of a STOPPING line that stands. -/
theorem LineOk.startHold {s : State} (h : LineOk s) (line : s.mot.line = .stopping) (nip : s.mot.nip = .closed)
    (vref : s.mot.vref = 0) (hold : s.mot.hold.isRunning = false) : LineOk (startHold s) := by
  unfold Machine.startHold
  split
  · exact h.opensNip (by simp [line]) hold fun _ => vref
  · rw [lineOk_iff]
    obtain ⟨empty, on⟩ := ((lineOk_iff s).mp h).web (.inr line)
    exact .of_web (.inr line) empty on (fun hr => by rw [show (s.upMot _).mot.line = s.mot.line from rfl, line] at hr; exact nomatch hr)
      h.speed (fun _ => vref) fun _ => ⟨line, nip, vref⟩

theorem LineOk.nipLimits {nipc nipo : Bool} {s : State} (h : LineOk s) : LineOk (nipLimits nipc nipo s) := by
  have moved : LineOk (s.upPins fun p => { p with nipc := nipc, nipo := nipo }) := h.of_mot rfl rfl rfl
  unfold Machine.nipLimits
  dsimp only
  split
  · next nip =>
    split
    · have c := (lineOk_iff s).mp h
      have web : s.mot.line = .running ∨ s.mot.line = .stopping := h.nipClosed ((nipCmd_iff s).mpr (.inl nip))
      have vref := h.nipOpen web (by rw [show s.mot.nip = .closing from nip]; simp)
      obtain ⟨empty, on⟩ := c.web web
      rw [lineOk_iff]
      refine .of_web web empty on (fun _ ho => nomatch ho) h.speed (fun _ => vref) fun hr => ?_
      obtain ⟨-, closed, -⟩ := h.hold hr
      exact nomatch closed.symm.trans nip
    · exact moved
  · next nip =>
    have nip : s.mot.nip = .opening := nip
    split
    · have run : s.mot.line ≠ .running := fun l => by simpa [nipCmd_iff, nip] using h.running l
      refine moved.nipOpened run ?_ fun l => h.nipOpen (.inr l) (by rw [nip]; simp)
      cases hr : (s.upPins _).mot.hold.isRunning with
      | false => rfl
      | true => exact nomatch (h.hold hr).2.1.symm.trans nip
    · exact moved
  all_goals exact moved.congr rfl rfl rfl rfl rfl rfl

end Sys2Proof.Machine
end

