-- ==== Sys2Proof/Proofs/HeatStages.lean ====
section
/-! SUPPORT. The temperature sample as the stages it is made of (03 3.3). -/

namespace Sys2Proof.Machine
open Sys2Proof

/-- Every zone has taken its reading (03 R44). -/
def takeReadings (readings : Six (Option Int)) (s : State) : State :=
  s.upHeat fun h => { h with zones := Six.ofZone fun z => (h.zones.get z).read (readings.get z) }

/-- Every zone has been judged, the line state at the start of the sample being `line` (03 R45, R46, R49, R50). -/
def judgeZones (line : LineState) (s : State) : State :=
  Zone.all.foldl (coldStage line) (Zone.all.foldl overheatStage (Zone.all.foldl (sensorStage line) s))

/-- Every zone has its demand (03 R48). -/
def driveZones (s : State) : State :=
  s.upHeat fun h => { h with zones := Six.ofZone (h.demandStage s.par.kP s.par.kI) }

/-- The bands and the readiness have been judged (03 R51). -/
def readyZones (s : State) : State := s.upHeat fun h => h.readyStage s.par.bReady s.par.tSettle

/-- The heat controller's part of the sample. -/
def heatSampled (readings : Six (Option Int)) (s : State) : State :=
  readyZones (driveZones (judgeZones s.mot.line (takeReadings readings s)))

theorem temperatureSample_eq (readings : Six (Option Int)) (s : State) :
    temperatureSample readings s =
      if (heatSampled readings s).heat.on = true then
        findings ((heatSampled readings s).heat.farOut (heatSampled readings s).par.bReady) (heatSampled readings s)
      else heatSampled readings s := rfl

/-- The band stage leaves heat on or off. -/
theorem readyStage_on (h : Heat) (bReady tSettle : Int) : (h.readyStage bReady tSettle).on = h.on := by
  unfold Heat.readyStage
  dsimp only
  split
  · rfl
  · split <;> rfl

end Sys2Proof.Machine
end

