-- ==== Sys2Proof/Proofs/LineInvariant.lean ====
section
/-! PROOF. Every row keeps the parameters in range and the line consistent (02 2.2, 2.5, 11 R183). -/

namespace Sys2Proof.Machine
open Sys2Proof

/-! ## START and STOP (02 R21, R22) -/

/-- START: RUNNING without a hold, the nip commanded closed, and closed where it was. -/
theorem startLine_mot (s : State) :
    ∃ nip timer, (startLine s).mot = { s.mot with line := .running, hold := .stopped, nip := nip, nipTimer := timer }
      ∧ (nip = .closed ∨ nip = .closing) ∧ (s.mot.nip = .closed → nip = .closed) := by
  have mot : ((setLine .running .start s).upMot fun m => { m with hold := .stopped }).mot =
      { s.mot with line := .running, hold := .stopped } := by simp
  have decided : (startLine s).mot =
      (nipClose ((setLine .running .start s).upMot fun m => { m with hold := .stopped })).mot :=
    decide_keeps .mot (by decide)
  rw [decided]
  by_cases hc : s.mot.nip = .closed
  · rw [nipClose_held (by rw [mot]; exact .inl hc), mot]
    exact ⟨_, _, rfl, .inl hc, fun _ => hc⟩
  · obtain ⟨nip, timer, e, shut⟩ := nipClose_mot ((setLine .running .start s).upMot fun m => { m with hold := .stopped })
    rw [e, State.upMot_mot, mot]
    exact ⟨nip, timer, rfl, shut, fun k => absurd k hc⟩

theorem startLine_latch (s : State) : (startLine s).flt.latch = s.flt.latch := startLine_runs.latch_eq

/-- A nip commanded closed while the line goes to RUNNING: without speed unless it is CLOSED already. -/
theorem LineOk.startLine {s : State} (h : LineOk s) (line : s.mot.line = .ready ∨ s.mot.line = .stopping) :
    LineOk (startLine s) := by
  have c := (lineOk_iff s).mp h
  obtain ⟨empty, on⟩ : ¬s.flt.latch ≠ none ∧ s.heat.on = true := by
    rcases line with l | l <;>
      exact ⟨c.unlatched (by simp [l]) (by simp [l]) (by simp [l]), h.heatOn (by simp [l]) (by simp [l])⟩
  obtain ⟨nip, timer, mot, shut, kept⟩ := startLine_mot s
  have heat : (Machine.startLine s).heat = s.heat := startLine_keeps .heat (by decide)
  rw [lineOk_iff, startLine_latch, heat, mot]
  refine .of_web (.inl rfl) empty on (fun _ ho => ?_) h.speed (fun hn => ?_) fun hr => nomatch hr
  · rcases shut with rfl | rfl <;> rcases ho with ho | ho <;> exact nomatch ho
  · exact line.elim (fun l => c.rest (by rw [l]; rfl)) fun l => h.nipOpen (.inr l) fun k => hn (kept k)

/-- STOP in RUNNING: a travel under way is turned round, a nip that holds the web at rest begins the hold. -/
theorem LineOk.stopLine {s : State} (h : LineOk s) (line : s.mot.line = .running) : LineOk (stopLine s) := by
  obtain ⟨empty, on⟩ := ((lineOk_iff s).mp h).web (.inl line)
  have hold := h.no_hold (by simp [line])
  have heat : (setLine .stopping .stop s).heat = s.heat := setLine_keeps .heat (by decide)
  have mot : ((setLine .stopping .stop s).upMot fun m => { m with target := 0 }).mot =
      { s.mot with line := .stopping, target := 0 } := by simp
  have stopping : LineOk ((setLine .stopping .stop s).upMot fun m => { m with target := 0 }) := by
    rw [lineOk_iff, mot, State.upMot_heat, State.upMot_flt, heat, setLine_latch]
    exact .of_web (.inr rfl) empty on (fun hr => nomatch hr) h.speed (fun hn => h.nipOpen (.inl line) hn)
      fun hr => by rw [show Motion.hold _ = s.mot.hold from rfl, hold] at hr; exact nomatch hr
  unfold Machine.stopLine
  dsimp only
  split
  · next nip =>
    rw [mot] at nip
    exact stopping.opensNip (by rw [mot]; simp) (by rw [mot]; exact hold)
      fun _ => by rw [mot]; exact h.nipOpen (.inl line) (by rw [show s.mot.nip = .closing from nip]; simp)
  · split
    · next still =>
      obtain ⟨nip, vref⟩ : s.mot.nip = .closed ∧ s.mot.vref = 0 := by simpa using still
      exact stopping.startHold (by rw [mot]) (by rw [mot]; exact nip) (by rw [mot]; exact vref)
        (by rw [mot]; exact hold)
    · exact stopping

theorem LineOk.startOp {s : State} (h : LineOk s) : LineOk (startOp s).1 := by
  unfold Machine.startOp
  split
  case h_1 l => exact h.startLine (.inl l)
  case h_2 l => exact h.startLine (.inr l)
  all_goals exact h

theorem LineOk.stopOp {s : State} (h : LineOk s) : LineOk (stopOp s).1 := by
  unfold Machine.stopOp
  split
  case h_1 l => exact h.stopLine l
  all_goals exact h

/-! ## The 10 ms sample (02 R22, R24, R26, R28, R29) -/

/-- The caps of the windows leave no cap below 100 (09 R157, R159). -/
theorem CapsOk.effects {s : State} (h : CapsOk s) : ∀ c ∈ s.trg.effects.cap, 100 ≤ c := by
  have fold : ∀ (ws : List Window) (c : Option Int), (∀ w ∈ ws, ∀ x ∈ w.cap, 100 ≤ x) → (∀ x ∈ c, 100 ≤ x) →
      ∀ x ∈ ws.foldl (fun c w => minCap c w.cap) c, 100 ≤ x := by
    intro ws
    induction ws with
    | nil => exact fun c _ hc => hc
    | cons w ws ih =>
      intro c hw hc
      refine ih _ (fun v hv => hw v (List.mem_cons_of_mem _ hv)) fun x hx => ?_
      have one := hw w List.mem_cons_self
      cases c <;> cases hcap : w.cap <;> simp_all [minCap]
      omega
  refine fold s.trg.active none (fun w hw x hx => ?_) fun x hx => nomatch hx
  have mem : some w ∈ s.trg.windows := by
    have hw := List.mem_of_mem_filter hw
    simpa using hw
  exact (h w mem x hx).1

/-- The ramp target lies in the range of v_ref, and is 0 where the line does not draw. -/
theorem rampTarget_range {s : State} (p : ParamsOk s) (c : CapsOk s) :
    0 ≤ s.rampTarget ∧ s.rampTarget ≤ 50000
      ∧ (s.rampTarget ≠ 0 → s.mot.line = .running ∧ s.mot.nip = .closed ∨ s.mot.line = .threading) := by
  have vSet := inRange_iff.mp (p.ranges .vSet)
  have vMax := inRange_iff.mp (p.ranges .vMax)
  have vJog := inRange_iff.mp (p.ranges .vJog)
  have vFloor := inRange_iff.mp (p.ranges .vFloor)
  have caps := c.effects
  simp only [State.param] at vSet vMax vJog vFloor
  rw [rampTarget_eq]
  split
  · simp
  · split
    · next draws =>
      refine ⟨?_, ?_, fun _ => .inl draws⟩
      · split
        · omega
        · next cap hcap => have := caps cap hcap; omega
      · split <;> omega
    · split
      · next threads =>
        refine ⟨?_, ?_, fun _ => .inr threads.1⟩ <;> split <;> omega
      · simp

/-- The governor keeps v_ref in its range, and at 0 where the target is. -/
theorem governor_line {s : State} (p : ParamsOk s) (c : CapsOk s) (h : LineOk s) : LineOk (governor s) := by
  obtain ⟨low, high, draws⟩ := rampTarget_range p c
  obtain ⟨up, dn, halt⟩ := p.rates
  obtain ⟨above, below, -⟩ := stepSpeed_between s.par s.mot.line s.mot.vref s.rampTarget up dn halt
  have speed := h.speed
  have vref := governor_vref s
  have range : 0 ≤ (governor s).mot.vref ∧ (governor s).mot.vref ≤ 50000 := by
    rw [vref]; split <;> omega
  have zero : s.mot.vref = 0 → s.rampTarget = 0 → (governor s).mot.vref = 0 := fun hv ht => by
    rw [vref]; split <;> omega
  exact {
    faulted := h.faulted
    latched := h.latched
    heatOff := h.heatOff
    heatOn := h.heatOn
    nipClosed := h.nipClosed
    running := h.running
    speed := range
    atRest := fun hv => by
      by_cases hs : s.mot.vref = 0
      · have ht : s.rampTarget ≠ 0 := fun ht => hv (zero hs ht)
        show s.mot.line.moving = true
        rcases draws ht with ⟨l, -⟩ | l <;> rw [l] <;> rfl
      · exact h.atRest hs
    nipOpen := fun hl hn => zero (h.nipOpen hl hn) <| Classical.not_not.mp fun ht => by
      rcases draws ht with ⟨-, k⟩ | l
      · exact hn k
      · have hl : s.mot.line = .running ∨ s.mot.line = .stopping := hl
        rw [l] at hl
        rcases hl with hl | hl <;> exact nomatch hl
    hold := fun hr => by
      obtain ⟨line, nip, still⟩ := h.hold hr
      refine ⟨line, nip, zero still (Classical.not_not.mp fun ht => ?_)⟩
      rcases draws ht with ⟨l, -⟩ | l <;> rw [line] at l <;> exact nomatch l }

theorem LineOk.beginHold {s : State} {before : Int} (h : LineOk s) (moved : s.mot.hold.isRunning = true → before ≤ 0) :
    LineOk (beginHold before s) := by
  unfold Machine.beginHold
  split
  · next ends =>
    obtain ⟨⟨⟨line, nip⟩, fast⟩, rest⟩ : ((s.mot.line = .stopping ∧ s.mot.nip = .closed) ∧ 0 < before) ∧ s.mot.vref = 0 := by
      simpa using ends
    refine h.startHold line nip rest (eq_false_of_ne_true fun hr => ?_)
    have := moved hr
    omega
  · exact h

theorem LineOk.haltComplete {s : State} (h : LineOk s) : LineOk (haltComplete s) := by
  unfold Machine.haltComplete
  split
  · next ends =>
    obtain ⟨line, rest⟩ : s.mot.line = .halting ∧ s.mot.vref = 0 := by simpa using ends
    have c := (lineOk_iff s).mp h
    obtain ⟨nip, hold⟩ := c.parked (by simp [line]) (by simp [line])
    have heat : (setLine .faulted .haltComplete s).heat = s.heat := setLine_keeps .heat (by decide)
    rw [lineOk_iff, setLine_mot, setLine_latch, heat]
    exact .of_parked (by simp) (by simp) nip hold (fun _ => h.faulted (.inl line)) (fun _ => .inr (.inl rfl))
      (by simp) (fun _ hf => absurd rfl hf) h.speed fun hv => absurd rest hv
  · exact h

theorem LineOk.motionSample {s : State} (p : ParamsOk s) (c : CapsOk s) (h : LineOk s) : LineOk (motionSample s) := by
  have governed := governor_line p c h
  have held : LineOk (Machine.beginHold s.mot.vref (governor s)) := governed.beginHold fun hr => by
    have := (h.hold hr).2.2
    omega
  obtain ⟨k, mot⟩ := seekNotice_mot (Machine.haltComplete (Machine.beginHold s.mot.vref (governor s)))
  refine held.haltComplete.congr ?_ ?_ ?_ ?_ seekNotice_posts.latch (congrArg Heat.on (seekNotice_keeps .heat (by decide)))
    <;> · unfold Machine.motionSample
          rw [mot]

/-! ## The rows that raise faults (10 R169) -/

/-- A fault raised after changes that the line does not depend on. -/
theorem LineOk.raise_of {s t : State} {c : Cause} {i : Option Nat} (h : LineOk s) (line : t.mot.line = s.mot.line)
    (nip : t.mot.nip = s.mot.nip) (vref : t.mot.vref = s.mot.vref) (hold : t.mot.hold = s.mot.hold)
    (latch : t.flt.latch = s.flt.latch) (heat : t.heat.on = s.heat.on) : LineOk (Machine.raise c i t) :=
  (h.congr line nip vref (by rw [hold]) latch heat).raise

theorem LineOk.foldl {α : Type} {f : State → α → State} (hf : ∀ s x, LineOk s → LineOk (f s x)) (xs : List α) {s : State}
    (h : LineOk s) : LineOk (xs.foldl f s) := by
  induction xs generalizing s with
  | nil => exact h
  | cons x xs ih => exact ih (hf s x h)

theorem LineOk.nipExpires {s : State} (h : LineOk s) : LineOk (nipExpires s) := h.raise_of rfl rfl rfl rfl rfl rfl

theorem lineOk_ite {c : Prop} [Decidable c] {s t : State} (h : LineOk s) (k : LineOk t) : LineOk (if c then s else t) := by
  split <;> assumption

theorem LineOk.silenceExpires {c : Chan} {s : State} (h : LineOk s) : LineOk (silenceExpires c s) :=
  lineOk_ite (h.raise_of rfl rfl rfl rfl rfl rfl) h

theorem LineOk.stallExpires {s : State} (h : LineOk s) : LineOk (stallExpires s) :=
  lineOk_ite (h.raise_of rfl rfl rfl rfl rfl rfl) h

theorem LineOk.linkExpires {s : State} (h : LineOk s) : LineOk (linkExpires s) :=
  lineOk_ite (h.raise_of rfl rfl rfl rfl rfl rfl) h

theorem LineOk.mainsLost {s : State} (h : LineOk s) : LineOk (mainsLost s) := h.raise_of rfl rfl rfl rfl rfl rfl

theorem LineOk.loopFault {l : Loop} {c : LoopCause} {f : Cause} {s : State} (h : LineOk s) : LineOk (loopFault l c f s) :=
  h.raise_of rfl rfl rfl rfl rfl rfl

theorem LineOk.estopActs {s : State} (h : LineOk s) : LineOk (estopActs s) := by
  have raised : LineOk (Machine.raise .estop none (s.upPins fun p => { p with estop := true })) :=
    h.raise_of rfl rfl rfl rfl rfl rfl
  have line := (raise_faulted .estop none (s.upPins fun p => { p with estop := true })).line
  have down : (Machine.raise .estop none (s.upPins fun p => { p with estop := true })).mot.line = .halting
      ∨ (Machine.raise .estop none (s.upPins fun p => { p with estop := true })).mot.line = .faulted :=
    line ▸ faultLine_fault _ _
  have still : LineOk ((Machine.raise .estop none (s.upPins fun p => { p with estop := true })).upMot
      fun m => { m with vref := 0, target := 0, drum := 0 }) := {
    faulted := raised.faulted
    latched := raised.latched
    heatOff := raised.heatOff
    heatOn := raised.heatOn
    nipClosed := raised.nipClosed
    running := raised.running
    speed := by simp
    atRest := fun hv => absurd rfl hv
    nipOpen := fun _ _ => rfl
    hold := fun hr => ⟨(raised.hold hr).1, (raised.hold hr).2.1, rfl⟩ }
  have run : (Machine.raise .estop none (s.upPins fun p => { p with estop := true })).mot.line ≠ .running := by
    rcases down with l | l <;> simp [l]
  have stop : (Machine.raise .estop none (s.upPins fun p => { p with estop := true })).mot.line ≠ .stopping := by
    rcases down with l | l <;> simp [l]
  exact (still.opensNip run (raised.no_hold stop) fun l => absurd l stop).of_mot rfl rfl rfl

theorem LineOk.countSample {s : State} (h : LineOk s) : LineOk (countSample s) :=
  lineOk_ite (h.raise_of rfl rfl rfl rfl rfl rfl) (h.of_mot rfl rfl rfl)

theorem LineOk.tensionSample {lc0 lc1 lc2 : Int} {s : State} (h : LineOk s) : LineOk (tensionSample lc0 lc1 lc2 s) := by
  refine LineOk.foldl (fun t l ht => ?_) _ h
  have sampled : LineOk (t.upTen fun r => r.set l ((r.get l).sample l t ((⟨lc1, lc0, lc2⟩ : Loops Int).get l))) :=
    ht.of_mot rfl rfl rfl
  exact lineOk_ite sampled.loopFault (lineOk_ite sampled.loopFault sampled)

theorem LineOk.handOn {ch : Chan} {old new : Int} {s : State} (h : LineOk s) : LineOk (handOn ch old new s) := by
  obtain ⟨k, mot⟩ := handOn_mot ch old new s
  have heat : (Machine.handOn ch old new s).heat = s.heat := by
    cases ch with
    | paper => exact ppUpdate_keeps .heat (by decide)
    | fabric => exact fpUpdate_keeps .heat (by decide)
    | drum => rfl
  exact h.congr (by rw [mot]) (by rw [mot]) (by rw [mot]) (by rw [mot]) handOn_runs.latch_eq (by rw [heat])

theorem LineOk.tickBatch {ch : Chan} {x : Ticks} {s : State} (h : LineOk s) : LineOk (tickBatch ch x s) := by
  have ranged : LineOk (rangeFault ch (s.cnt.chan.get ch) ((s.cnt.chan.get ch).take x)
      (s.upCnt fun k => { k with chan := k.chan.set ch ((s.cnt.chan.get ch).take x) })) :=
    lineOk_ite (h.raise_of rfl rfl rfl rfl rfl rfl) (h.of_mot rfl rfl rfl)
  exact lineOk_ite ranged ranged.handOn

theorem LineOk.captureEnds {cond : SeekCond} {p : Int} {s : State} (h : LineOk s) : LineOk (captureEnds cond p s) :=
  lineOk_ite (h.congr rfl rfl rfl rfl rfl rfl) h

theorem LineOk.markCapture {s : State} (h : LineOk s) : LineOk (markCapture s) := by
  have recorded : LineOk (s.upCnt fun k => { k with markCap := some (s.captureOf .paper) }) := h.of_mot rfl rfl rfl
  exact (recorded.of_runs judgeMark_runs judgeMark_keeps (by decide)).captureEnds

theorem LineOk.detectSplice {fp : Int} {s : State} (h : LineOk s) : LineOk (detectSplice fp s) := by
  have seen : ∀ {n : Notice} {u : State}, LineOk u → LineOk (notice n u) := fun hu =>
    hu.of_runs (.notice _) notice_keeps (by decide)
  have pointed : ∀ {p : Pointer} {n : Option Nat} {u : State}, LineOk u → LineOk (setPointer p n u) := fun hu =>
    hu.of_keeps setPointer_keeps (by decide)
  have put : ∀ f : TrigUnit → List Splice, LineOk (s.upTrg fun u => { u with splices := f u, announced := none }) :=
    fun _ => h.of_mot rfl rfl rfl
  exact lineOk_ite (seen (lineOk_ite (pointed (put _)) (put _))) h.raise

theorem LineOk.spliceCapture {s : State} (h : LineOk s) : LineOk (spliceCapture s) :=
  lineOk_ite (LineOk.captureEnds (LineOk.detectSplice (h.of_mot rfl rfl rfl))) h

/-! ## Heat (03) -/

theorem LineOk.updZone {z : Zone} {f : ZoneRec → ZoneRec} {s : State} (h : LineOk s) : LineOk (updZone z f s) :=
  h.of_mot rfl rfl rfl

theorem LineOk.warn {w : Warning} {s : State} (h : LineOk s) : LineOk (warn w s) :=
  h.of_runs warn_runs notice_keeps (by decide)

theorem LineOk.raiseZoneSensor {z : Zone} {line : LineState} {s : State} (h : LineOk s) :
    LineOk (raiseZoneSensor z line s) := lineOk_ite h.updZone.raise h.warn

theorem LineOk.goLost {z : Zone} {line : LineState} {s : State} (h : LineOk s) : LineOk (goLost z line s) :=
  h.updZone.raiseZoneSensor

theorem LineOk.sensorStage {line : LineState} {z : Zone} {s : State} (h : LineOk s) : LineOk (sensorStage line s z) := by
  refine lineOk_ite h (lineOk_ite h.updZone ?_)
  dsimp only
  split
  · exact lineOk_ite h.updZone.updZone h.updZone
  · exact lineOk_ite h.updZone.goLost h.updZone
  · exact lineOk_ite h.updZone.raiseZoneSensor h.updZone

theorem LineOk.overheatStage {z : Zone} {s : State} (h : LineOk s) : LineOk (overheatStage s z) :=
  lineOk_ite (lineOk_ite h.updZone h.updZone.raise) h.updZone

theorem LineOk.coldStage {line : LineState} {z : Zone} {s : State} (h : LineOk s) : LineOk (coldStage line s z) :=
  lineOk_ite h.updZone (lineOk_ite (lineOk_ite (lineOk_ite h.updZone h.updZone.raise) h.updZone) h)

theorem LineOk.temperatureSample {readings : Six (Option Int)} {s : State} (h : LineOk s) :
    LineOk (temperatureSample readings s) := by
  have read : LineOk (takeReadings readings s) := h.of_mot rfl rfl rfl
  have judged : LineOk (judgeZones s.mot.line (takeReadings readings s)) :=
    LineOk.foldl (fun _ _ k => k.coldStage) Zone.all
      (LineOk.foldl (fun _ _ k => k.overheatStage) Zone.all (LineOk.foldl (fun _ _ k => k.sensorStage) Zone.all read))
  have sampled : LineOk (heatSampled readings s) := judged.of_mot rfl rfl (readyStage_on _ _ _)
  rw [temperatureSample_eq]
  exact lineOk_ite sampled.findings sampled

theorem LineOk.zoneSensor {z : Zone} {s : State} (h : LineOk s) : LineOk (zoneSensor z s) := lineOk_ite h.goLost h

theorem LineOk.readiness {s : State} (h : LineOk s) : LineOk (readiness s) :=
  lineOk_ite (LineOk.findings (h.of_mot rfl rfl rfl)) h

theorem LineOk.zoneShortfall {z : Zone} {s : State} (h : LineOk s) : LineOk (zoneShortfall z s) :=
  lineOk_ite h.updZone.warn h

theorem LineOk.distribute {s : State} (h : LineOk s) : LineOk (distribute s) :=
  LineOk.foldl (fun _ _ k => k.warn) _ (h.of_mot rfl rfl rfl)

theorem LineOk.takeEdge {period : Nat} {s : State} (h : LineOk s) : LineOk (takeEdge period s) := by
  have measured : LineOk (s.upHeat fun k => k.measure period) := h.of_mot rfl rfl rfl
  exact (lineOk_ite measured.warn measured).distribute

theorem LineOk.zeroCross {gap : Nat} {s : State} (h : LineOk s) : LineOk (zeroCross gap s) := by
  have edge : LineOk (s.upPins fun p => { p with zc := !p.zc }) := h.of_mot rfl rfl rfl
  exact lineOk_ite edge (lineOk_ite (h.of_mot rfl rfl rfl) (lineOk_ite (h.of_mot rfl rfl rfl) (lineOk_ite edge edge.takeEdge)))

/-! ## The millisecond (notes/assumptions/5.md) -/

theorem Timer.next_isRunning (t : Timer) : t.next.isRunning = t.isRunning := by cases t <;> rfl

theorem LineOk.advance {s : State} (h : LineOk s) : LineOk (advance s) :=
  h.congr rfl rfl rfl (Timer.next_isRunning _) rfl rfl

theorem LineOk.silenceDue {s : State} {c : Chan} (h : LineOk s) : LineOk (silenceDue s c) := lineOk_ite h.silenceExpires h

theorem LineOk.nipDue {s : State} (h : LineOk s) : LineOk (nipDue s) := lineOk_ite h.nipExpires h

theorem LineOk.mainsDue {s : State} (h : LineOk s) : LineOk (mainsDue s) := lineOk_ite h.mainsLost h

theorem LineOk.linkDue {s : State} (h : LineOk s) : LineOk (linkDue s) := lineOk_ite h.linkExpires h

theorem LineOk.holdDue {s : State} (h : LineOk s) : LineOk (holdDue s) := by
  unfold Machine.holdDue
  split
  · next due =>
    refine h.holdEnds ?_
    cases ht : s.mot.hold <;> rw [ht] at due <;> first | rfl | exact nomatch due
  · exact h

theorem LineOk.deadlineDue {s : State} (h : LineOk s) : LineOk (deadlineDue s) := by
  unfold Machine.deadlineDue
  split
  · exact h.of_runs (startingDeadline_runs.trans decide_runs)
      (keeps_then startingDeadline_keeps decide_keeps (by decide)) (by decide)
  · exact h

theorem LineOk.tick {s : State} (h : LineOk s) : LineOk (tick s) :=
  (LineOk.foldl (fun _ _ k => k.silenceDue) _ h.advance).nipDue.holdDue.mainsDue.linkDue.deadlineDue

end Sys2Proof.Machine
end

