-- ==== Sys2Proof/Proofs/StepInvariant.lean ====
section
/-! PROOF. Every step keeps the parameters in range and the line consistent (02 2.2, R20 to R33, 11 R183). -/

namespace Sys2Proof.Machine
open Sys2Proof

/-! ## The parameters and the caps -/

theorem ParamsOk.congr {s t : State} (h : ParamsOk s) (e : ∀ q, t.param q = s.param q) : ParamsOk t where
  ranges := fun p => by rw [e]; exact h.ranges p
  speed := by
    show t.param .vSet ≤ t.param .vMax
    rw [e, e]; exact h.speed
  paper := by
    show paperBound (t.param .lMs) (t.param .lPn) (t.param .wM) = true
    rw [e, e, e]; exact h.paper
  fabric := by
    show fabricBound (t.param .lFn) (t.param .lFr) (t.param .arcLen) (t.param .margin) = true
    rw [e, e, e, e]; exact h.fabric
  probes := by
    show probeBound (t.param .arcLen) (t.param .spacing) = true
    rw [e, e]; exact h.probes

theorem CapsOk.of_caps {s t : State} (h : CapsOk s) (c : CapsFrom s.trg t.trg) : CapsOk t := fun w hw x hx => by
  obtain ⟨y, hy, e⟩ := c w hw
  exact h y hy x (e ▸ hx)

/-- A row of pieces that writes no parameter, mode or scale. -/
theorem MotionInv.row {b : Bool} {s t : State} (h : MotionInv s) (r : Runs b s t) (e : ∀ q, t.param q = s.param q)
    (line : LineOk t) : MotionInv t :=
  ⟨h.params.congr e, h.caps.of_caps r.caps, line⟩

/-- Changes elsewhere. -/
theorem MotionInv.of_keeps {s t : State} {l : List Block} (h : MotionInv s) (k : Keeps l s t)
    (hl : ∀ x ∈ [Block.par, .cnt, .trg, .mot, .heat], x ∉ l) (latch : t.flt.latch = s.flt.latch) : MotionInv t where
  params := h.params.congr (param_of_keeps k (hl _ (by decide)) (hl _ (by decide)))
  caps := h.caps.of_caps (capsFrom_of_windows (congrArg TrigUnit.windows (k .trg (hl _ (by decide)))))
  line := h.line.of_mot (k .mot (hl _ (by decide))) latch (congrArg Heat.on (k .heat (hl _ (by decide))))

/-! ## SET_PARAM and WINDOW_SET (11 R183, 09 R157) -/

/-- A write of an allowed and bounded value keeps every range and bound. -/
theorem ParamsOk.writeParam {s : State} {p : Param} {v : Int} (h : ParamsOk s) (ha : p.allows v = true)
    (hb : s.bounded p v = true) : ParamsOk (writeParam p v s) := by
  have at_ : ∀ q, q ≠ .vSet → (Machine.writeParam p v s).param q = if q = p then v else s.param q :=
    fun q hq => param_writeParam s ha fun _ => hq
  have vMax := at_ .vMax (by simp)
  have vSet : (Machine.writeParam p v s).par.vSet =
      if p = .vSet then v else if p = .vMax then min s.par.vSet v else s.par.vSet := by
    by_cases hp : p = .vSet
    · subst hp; rfl
    · rw [if_neg hp]; exact vSet_writeParam s ha hp
  refine ⟨fun q => ?_, ?_, ?_, ?_, ?_⟩
  · by_cases hq : q = p
    · subst hq; rw [param_writeParam_self s ha]; exact ha
    · by_cases hv : q = .vSet
      · subst hv
        have old := inRange_iff.mp (h.ranges .vSet)
        refine inRange_iff.mpr ?_
        show 0 ≤ (Machine.writeParam p v s).par.vSet ∧ (Machine.writeParam p v s).par.vSet ≤ 50000
        rw [vSet, if_neg (Ne.symm hq)]
        simp only [State.param] at old
        split
        · next hp =>
          subst hp
          have new := inRange_iff.mp ha
          omega
        · exact old
      · rw [at_ q hv, if_neg hq]; exact h.ranges q
  · show (Machine.writeParam p v s).par.vSet ≤ (Machine.writeParam p v s).param .vMax
    have speed := h.speed
    rw [vSet, vMax]
    by_cases hs : p = .vSet
    · subst hs
      have bound : v ≤ s.par.vMax := by simpa [State.bounded] using hb
      simpa [State.param] using bound
    · by_cases hm : p = .vMax
      · subst hm; simp
      · rw [if_neg hs, if_neg hm, if_neg (Ne.symm hm)]; exact speed
  · show paperBound ((Machine.writeParam p v s).param .lMs) ((Machine.writeParam p v s).param .lPn)
      ((Machine.writeParam p v s).param .wM) = true
    rw [at_ _ (by simp), at_ _ (by simp), at_ _ (by simp)]
    cases p with
    | lMs | lPn | wM => exact hb
    | _ => exact h.paper
  · show fabricBound ((Machine.writeParam p v s).param .lFn) ((Machine.writeParam p v s).param .lFr)
      ((Machine.writeParam p v s).param .arcLen) ((Machine.writeParam p v s).param .margin) = true
    rw [at_ _ (by simp), at_ _ (by simp), at_ _ (by simp), at_ _ (by simp)]
    cases p with
    | arcLen =>
      have both : probeBound v s.par.spacing = true ∧ fabricBound s.par.lFn s.par.lFr v s.par.margin = true := by
        simpa [State.bounded] using hb
      exact both.2
    | lFn | lFr | margin => exact hb
    | _ => exact h.fabric
  · show probeBound ((Machine.writeParam p v s).param .arcLen) ((Machine.writeParam p v s).param .spacing) = true
    rw [at_ _ (by simp), at_ _ (by simp)]
    cases p with
    | arcLen =>
      have both : probeBound v s.par.spacing = true ∧ fabricBound s.par.lFn s.par.lFr v s.par.margin = true := by
        simpa [State.bounded] using hb
      exact both.1
    | spacing => exact hb
    | _ => exact h.probes

theorem LineOk.writeParam {s : State} {p : Param} {v : Int} (h : LineOk s) : LineOk (writeParam p v s) := by
  cases p with
  | tNip =>
    show LineOk (writeNipTime v s)
    have written : LineOk (s.upPar fun q => { q with tNip := v }) := h.of_mot rfl rfl rfl
    unfold writeNipTime
    dsimp only
    split
    · exact lineOk_ite written.nipExpires written
    · exact written
    · exact written
  | tLink =>
    show LineOk (writeLinkTime v s)
    rw [writeLinkTime_eq]
    exact h.of_mot rfl rfl rfl
  | _ => exact h.of_keeps writeParam_keeps (by simp [Param.blocks])

theorem MotionInv.setParam {id : Nat} {v : Int} {s : State} (h : MotionInv s) : MotionInv (setParam id v s).1 := by
  unfold Machine.setParam
  split
  · next p hp hr =>
    unfold State.paramRefusal at hr
    rw [hp] at hr
    obtain ⟨ha, hb⟩ : p.allows v = true ∧ s.bounded p v = true := by
      cases ha : p.allows v <;> cases hb : s.bounded p v <;> simp_all
    have trg : (writeParam p v s).trg = s.trg :=
      writeParam_keeps .trg fun hx => by simpa using Param.blocks_subset p _ hx
    exact ⟨h.params.writeParam ha hb, h.caps.of_caps (capsFrom_of_windows (congrArg TrigUnit.windows trg)),
      h.line.writeParam⟩
  · exact h
  · exact h

/-- The window that WINDOW_SET writes has its cap in the range of 09 R157. -/
theorem readWindow_cap {f : WindowFields} {w : Window} (h : readWindow f = some w) (c : Int) (hc : w.cap = some c) :
    100 ≤ c ∧ c ≤ 50000 := by
  unfold readWindow at h
  split at h
  · exact nomatch h
  · dsimp only at h
    split at h
    · next valid =>
      cases h
      cases hb : f.effects.testBit 3 with
      | false => rw [hb] at hc; exact nomatch hc
      | true =>
        simp only [hb, if_true, Option.some.injEq] at hc
        subst hc
        have : inRange 100 50000 f.cap = true := by simp_all
        exact inRange_iff.mp this
    · exact nomatch h

theorem MotionInv.windowSet {i : Nat} {f : WindowFields} {s : State} (h : MotionInv s) :
    MotionInv (windowSetOp i f s).1 := by
  have k := windowSetOp_keeps (i := i) (f := f) (s := s)
  refine ⟨h.params.congr (param_of_keeps k (by decide) (by decide)), ?_, h.line.of_keeps k (by decide)⟩
  unfold windowSetOp
  split
  · exact h.caps
  · split
    · exact h.caps
    · next w hw =>
      intro x hx c hc
      rcases List.mem_or_eq_of_mem_set hx with hx | hx
      · exact h.caps x hx c hc
      · cases hx; exact readWindow_cap hw c hc

/-! ## Host commands (11 R179, R180) -/

/-- A write of a count leaves the modes and the scales (01 R13). -/
theorem param_setPosition (n : Nat) (v : Int) (s : State) (q : Param) : (setPositionOp n v s).1.param q = s.param q := by
  unfold setPositionOp
  split
  · next c _ _ =>
    refine param_congr ?_ (fun ch => ?_) q
    · cases c <;> rfl
    · cases c <;> cases ch <;> exact ⟨rfl, rfl⟩
  · rfl
  · rfl

/-- Only the drive and the record of the move differ. -/
def Motion.SameButMove (m n : Motion) : Prop := ∃ d k, n = { m with drive := d, seek := k }

theorem jogOp_mot (d : Nat) (x : Int) (s : State) : s.mot.SameButMove (jogOp d x s).1.mot := by
  unfold jogOp
  repeat' split
  all_goals exact ⟨_, _, rfl⟩

theorem seekOp_mot (x : Int) (c : Nat) (s : State) : s.mot.SameButMove (seekOp x c s).1.mot := by
  unfold seekOp
  repeat' split
  all_goals exact ⟨_, _, rfl⟩

theorem seekStopOp_mot (s : State) : s.mot.SameButMove (seekStopOp s).1.mot := by
  unfold seekStopOp
  split <;> exact ⟨_, _, rfl⟩

theorem seekResumeOp_mot (s : State) : s.mot.SameButMove (seekResumeOp s).1.mot := by
  unfold seekResumeOp resumeMove
  dsimp only
  repeat' split
  all_goals exact ⟨_, _, rfl⟩

theorem LineOk.move {s t : State} (h : LineOk s) (k : Keeps [.mot] s t) (e : s.mot.SameButMove t.mot) : LineOk t := by
  obtain ⟨d, k', e⟩ := e
  exact h.congr (by rw [e]) (by rw [e]) (by rw [e]) (by rw [e]) (congrArg FaultMon.latch (k .flt (by decide)))
    (congrArg Heat.on (k .heat (by decide)))

/-- Most host commands touch neither the motion controller nor the heat, and raise no fault. -/
theorem LineOk.hostOp {s : State} (h : LineOk s) (c : Instr) (param : ∀ t i v, c ≠ .setParam t i v)
    (window : ∀ t i f, c ≠ .windowSet t i f) : LineOk (hostOp c s).1 := by
  cases c with
  | setParam t i v => exact absurd rfl (param t i v)
  | windowSet t i f => exact absurd rfl (window t i f)
  | clearFault => exact h.clearFault
  | readStatus t clear =>
    cases clear with
    | true => exact h.of_mot rfl rfl rfl
    | false => exact h
  | heatOn => exact h.heatOnOp
  | heatOff => exact h.heatOffOp
  | setDrum => exact h.setDrum
  | start => exact h.startOp
  | stop => exact h.stopOp
  | threadEnter => exact h.threadEnter
  | threadExit => exact h.threadExit
  | jog => exact h.move jogOp_keeps (jogOp_mot _ _ s)
  | seek => exact h.move seekOp_keeps (seekOp_mot _ _ s)
  | seekStop => exact h.move seekStopOp_keeps (seekStopOp_mot s)
  | seekResume => exact h.move seekResumeOp_keeps (seekResumeOp_mot s)
  | setPosition | profileLoad | profileDrop | profilePin | profileTrim | panelSubmit | panelInsert | panelCancel
  | dispatchEnable | dispatchHold | dispatchResume | dispatchOff | triggerSet | triggerArm | triggerClear | windowClear
  | fabricLoad | spliceAhead | clearLine | linkConfig | getParam | readCounts | readMotion | readHeat | readDose
  | readProbe | readTension | profileFind | profileRead | readQueue | readPanel | readMarks | triggerRead | readWindows
  | readFabric | readFault =>
    exact h.of_runs (hostOp_runs (by simp) (by simp) (by simp) (by simp)) hostOp_keeps (by simp [touches])
  | _ => exact h

theorem MotionInv.hostOp {s : State} (h : MotionInv s) (c : Instr) : MotionInv (hostOp c s).1 := by
  cases hf : commandFrame c with
  | none => rw [hostOp_of_no_frame hf]; exact h
  | some f =>
    cases c with
    | setParam => exact h.setParam
    | windowSet => exact h.windowSet
    | setPosition t n v =>
      exact h.row (b := false) (hostOp_runs (by simp) (by simp) (by simp) (by simp)) (param_setPosition n v s)
        (h.line.hostOp _ (by simp) (by simp))
    | clearFault | readStatus =>
      exact ⟨h.params.congr (param_of_keeps hostOp_keeps (by simp [touches]) (by simp [touches])),
        h.caps.of_caps (capsFrom_of_windows (congrArg TrigUnit.windows (hostOp_keeps .trg (by simp [touches])))),
        h.line.hostOp _ (by simp) (by simp)⟩
    | powerOnReset | resetn | tickBatch | seekDistanceReached | markCapture | spliceCapture | nipLimitChange | nipTimeout
    | nipHold | estop | estopRelease | speedAndTensionSample | encoderSilent | stall | webBreak | overTension | doseSample
    | temperatureSample | zoneHold | zoneSensor | readiness | zeroCrossEdge | zoneShortfall | mainsLost | pulseEnd
    | linkLost | timeDeadline | frameGapTimeout | validFrame | unknownCommand | frameSent | headFrameSent | accept | refuse
    | done | fault | headOtherKindFrame | lenOutOfRange | headFrameBadCrc => exact nomatch hf
    | _ =>
      exact h.row (b := false) (hostOp_runs (by simp) (by simp) (by simp) (by simp))
        (param_of_keeps hostOp_keeps (by simp [touches]) (by simp [touches])) (h.line.hostOp _ (by simp) (by simp))

/-! ## The host link (11 R178, R179) -/

theorem MotionInv.carryOut {s : State} {kind tag : Byte} {op : State → State × Reply} (h : MotionInv s)
    (hop : ∀ u, MotionInv u → MotionInv (op u).1) : MotionInv (carryOut kind tag op s) :=
  (hop (s.upFlt fun f => { f with kept := true }) (h.of_keeps upFlt_keeps (by decide) rfl)).of_keeps answer_keeps (by decide)
    (place_latch _ _)

theorem MotionInv.takeFrames {n : Nat} {s : State} (h : MotionInv s) : MotionInv (takeFrames n s) := by
  induction n generalizing s with
  | zero => exact h
  | succ n ih =>
    unfold Machine.takeFrames
    split
    · exact h
    · split
      · refine ih ?_
        have pop : MotionInv (popFrame s) := h.of_keeps upLnk_keeps (by decide) rfl
        unfold runFrame
        split
        · exact pop.carryOut fun _ hu => hu
        · exact pop.carryOut fun _ hu => hu
        · exact pop.carryOut fun _ hu => hu.hostOp _
      · exact h

theorem MotionInv.takeWaiting {s : State} (h : MotionInv s) : MotionInv (takeWaiting s) := h.takeFrames

theorem MotionInv.restartLink {s : State} (h : MotionInv s) : MotionInv (restartLink s) :=
  h.of_keeps restartLink_keeps (by decide) rfl

theorem MotionInv.hostFrameArrives {f : Frame} {s : State} (h : MotionInv s) : MotionInv (hostFrameArrives s f) := by
  unfold Machine.hostFrameArrives
  dsimp only
  split
  · exact (h.restartLink.of_keeps bufferFrame_keeps (by decide)
      (congrArg FaultMon.latch (bufferFrame_keeps .flt (by decide)))).takeWaiting
  · exact h.restartLink

theorem MotionInv.hostCommand {c : Instr} {s : State} (h : MotionInv s) : MotionInv (hostCommand c s) := by
  unfold Machine.hostCommand
  split
  · unfold hostExec
    split
    · exact h.restartLink.carryOut fun _ hu => hu.hostOp _
    · exact h.hostFrameArrives
  · exact h

theorem MotionInv.receive {bytes : List Byte} {s : State} (h : MotionInv s) : MotionInv (receive bytes s) := by
  have frames : ∀ (l : List Frame) {u : State}, MotionInv u → MotionInv (l.foldl Machine.hostFrameArrives u) := by
    intro l
    induction l with
    | nil => exact fun hu => hu
    | cons f l ih => exact fun hu => ih hu.hostFrameArrives
  exact frames _ (h.of_keeps upLnk_keeps (by decide) rfl)

theorem begin_latch (f : FaultMon) : f.begin_.latch = f.latch := by
  unfold FaultMon.begin_
  split <;> rfl

theorem MotionInv.frameSent {s : State} (h : MotionInv s) : MotionInv (frameSent s) := by
  unfold Machine.frameSent
  split
  · exact h
  · next x _ =>
    have sped : MotionInv (changeSpeed x.newBaud s) := h.of_keeps changeSpeed_keeps (by decide)
      (congrArg FaultMon.latch (changeSpeed_keeps .flt (by decide)))
    have sent : MotionInv ((changeSpeed x.newBaud s).upFlt fun f => { f with current := none }.begin_) :=
      sped.of_keeps upFlt_keeps (by decide) (begin_latch _)
    have flushed : ∀ {u : State}, MotionInv u → MotionInv (flushReport none u) := fun hu =>
      hu.row (b := false) flushReport_runs (param_of_keeps flushReport_keeps (by decide) (by decide))
        (hu.line.of_runs flushReport_runs flushReport_keeps (by decide))
    have decided : ∀ {u : State}, MotionInv u → MotionInv (decide_ u) := fun hu =>
      hu.of_keeps decide_keeps (by decide) (congrArg FaultMon.latch (decide_keeps .flt (by decide)))
    unfold placeFreed
    dsimp only
    split
    · exact (decided (flushed sent)).takeWaiting
    · exact (flushed sent).takeWaiting

/-! ## Resets, samples and the millisecond -/

/-- Both resets: the reset values, with an opening confirmed and an ESTOP found active taken (02 R26, R32). -/
theorem motionInv_resetPart (s : State) : MotionInv (resetPart s) := by
  have cleared : MotionInv s.cleared := {
    params := reset_paramsOk.congr (param_congr rfl fun c => by cases c <;> exact ⟨rfl, rfl⟩)
    caps := reset_motionInv.caps
    line := reset_motionInv.line.of_mot rfl rfl rfl }
  have confirmed : MotionInv (if s.pins.openPair then nipOpened s.cleared else s.cleared) := by
    split
    · exact cleared.row (b := false) nipOpened_runs (param_of_keeps nipOpened_keeps (by decide) (by decide))
        (cleared.line.nipOpened (fun h => nomatch h) rfl fun h => nomatch h)
    · exact cleared
  rw [resetPart_eq]
  dsimp only
  split
  · exact confirmed.row estopActs_runs (param_of_keeps estopActs_keeps (by decide) (by decide)) confirmed.line.estopActs
  · exact confirmed

/-- The modes and the scales of the channels are kept, and the parameters. -/
def SameParams (s t : State) : Prop :=
  t.par = s.par ∧ ∀ c, (t.cnt.chan.get c).mode = (s.cnt.chan.get c).mode ∧ (t.cnt.chan.get c).tpm = (s.cnt.chan.get c).tpm

theorem SameParams.of_set {s t : State} {c : Chan} {d : Channel} (par : t.par = s.par)
    (chan : t.cnt.chan = s.cnt.chan.set c d) (mode : d.mode = (s.cnt.chan.get c).mode)
    (tpm : d.tpm = (s.cnt.chan.get c).tpm) : SameParams s t := by
  refine ⟨par, fun x => ?_⟩
  rw [chan]
  by_cases hx : x = c
  · subst hx; rw [channels_get_set_same]; exact ⟨mode, tpm⟩
  · rw [channels_get_set_ne _ _ hx]; exact ⟨rfl, rfl⟩

theorem SameParams.of_chan {s t : State} (par : t.par = s.par) (chan : t.cnt.chan = s.cnt.chan) : SameParams s t :=
  ⟨par, fun _ => by rw [chan]; exact ⟨rfl, rfl⟩⟩

theorem SameParams.of_sample {s t : State} {m : Channels Bool} {v : Int} (par : t.par = s.par)
    (cnt : t.cnt = s.cnt.sample m v) : SameParams s t :=
  ⟨par, fun c => by rw [cnt]; cases c <;> exact ⟨rfl, rfl⟩⟩

theorem take_mode (c : Channel) (x : Ticks) : (c.take x).mode = c.mode ∧ (c.take x).tpm = c.tpm := by
  unfold Channel.take
  dsimp only
  split <;> exact ⟨rfl, rfl⟩

theorem MotionInv.counted {b : Bool} {s t : State} (h : MotionInv s) (r : Runs b s t) (p : SameParams s t) (line : LineOk t) :
    MotionInv t := h.row r (param_congr p.1 p.2) line

theorem MotionInv.speedSample {lc0 lc1 lc2 : Int} {ca ta : Bool} {s : State} (h : MotionInv s) :
    MotionInv (speedSample lc0 lc1 lc2 ca ta s) := by
  have count : ∀ {u : State}, MotionInv u → MotionInv (Machine.countSample u) := fun {u} hu =>
    hu.counted countSample_runs (.of_sample (countSample_keeps .par (by decide)) (countSample_cnt u)) hu.line.countSample
  have tension : ∀ {u : State}, MotionInv u → MotionInv (Machine.tensionSample lc0 lc1 lc2 u) := fun hu =>
    hu.row tensionSample_runs (param_of_keeps tensionSample_keeps (by decide) (by decide)) hu.line.tensionSample
  have motion : ∀ {u : State}, MotionInv u → MotionInv (Machine.motionSample u) := fun hu =>
    hu.row (b := false) motionSample_runs (param_of_keeps motionSample_keeps (by decide) (by decide))
      (hu.line.motionSample hu.params hu.caps)
  unfold Machine.speedSample
  cases ca <;> cases ta <;> simp only [Bool.false_eq_true, if_false, if_true]
  · exact motion (tension (count h))
  · exact tension (motion (count h))
  · exact count (motion (tension h))
  · exact tension (count (motion h))

theorem SameParams.silence (c : Chan) (s : State) : SameParams s (silenceExpires c s) := by
  have cnt := silenceExpires_cnt c s
  have par : (silenceExpires c s).par = s.par := silenceExpires_keeps .par (by simp [faultBlocks])
  split at cnt
  · exact .of_set par (congrArg Counting.chan cnt) rfl rfl
  · exact .of_chan par (congrArg Counting.chan cnt)

theorem MotionInv.silenceExpires {c : Chan} {s : State} (h : MotionInv s) : MotionInv (silenceExpires c s) :=
  h.counted silenceExpires_runs (.silence c s) h.line.silenceExpires

theorem MotionInv.linkExpires {s : State} (h : MotionInv s) : MotionInv (linkExpires s) where
  params := h.params.congr (param_of_keeps linkExpires_keeps (by decide) (by decide))
  caps := h.caps.of_caps (capsFrom_of_windows (congrArg TrigUnit.windows (linkExpires_keeps .trg (by decide))))
  line := h.line.linkExpires

theorem motionInv_ite {c : Prop} [Decidable c] {s t : State} (h : MotionInv s) (k : MotionInv t) :
    MotionInv (if c then s else t) := by
  split <;> assumption

theorem MotionInv.tick {s : State} (h : MotionInv s) : MotionInv (tick s) := by
  have ran : MotionInv (Machine.advance s) := {
    params := h.params.congr (param_congr rfl fun c => by cases c <;> exact ⟨rfl, rfl⟩)
    caps := h.caps
    line := h.line.advance }
  have silence : ∀ {u : State} (c : Chan), MotionInv u → MotionInv (Machine.silenceDue u c) := fun _ hu =>
    motionInv_ite hu.silenceExpires hu
  have nip : ∀ {u : State}, MotionInv u → MotionInv (Machine.nipDue u) := fun hu =>
    motionInv_ite (hu.row nipExpires_runs (param_of_keeps nipExpires_keeps (by decide) (by decide)) hu.line.nipExpires) hu
  have hold : ∀ {u : State}, MotionInv u → MotionInv (Machine.holdDue u) := fun {u} hu =>
    hu.row (b := false) (runs_ite holdEnds_runs runs_refl)
      (param_of_keeps (keeps_ite (fun _ => holdEnds_keeps) fun _ => keeps_refl) (by decide) (by decide)) hu.line.holdDue
  have mains : ∀ {u : State}, MotionInv u → MotionInv (Machine.mainsDue u) := fun hu =>
    motionInv_ite (hu.row mainsLost_runs (param_of_keeps mainsLost_keeps (by decide) (by decide)) hu.line.mainsLost) hu
  have link : ∀ {u : State}, MotionInv u → MotionInv (Machine.linkDue u) := fun hu => motionInv_ite hu.linkExpires hu
  have deadline : ∀ {u : State}, MotionInv u → MotionInv (Machine.deadlineDue u) := fun {u} hu => by
    unfold Machine.deadlineDue
    split
    · exact hu.row (b := false) (startingDeadline_runs.trans decide_runs)
        (param_of_keeps (keeps_then startingDeadline_keeps decide_keeps (by decide)) (by decide) (by decide))
        (hu.line.of_runs (startingDeadline_runs.trans decide_runs)
          (keeps_then startingDeadline_keeps decide_keeps (by decide)) (by decide))
    · exact hu
  exact deadline (link (mains (hold (nip (silence _ (silence _ (silence _ ran)))))))

/-! ## The rows and the step -/

theorem MotionInv.exec {c : Instr} {s t : State} (h : MotionInv s) (e : exec c s = .next t) : MotionInv t := by
  have row : ∀ {b : Bool} {u : State} {l : List Block}, Runs b s u → Keeps l s u → LineOk u →
      (∀ x ∈ [Block.par, .cnt], x ∉ l) → MotionInv u :=
    fun r k line hl => h.row r (param_of_keeps k (hl _ (by decide)) (hl _ (by decide))) line
  have calm : ∀ {u : State} {l : List Block}, Runs false s u → Keeps l s u →
      (∀ x ∈ [Block.par, .cnt, .mot, .heat], x ∉ l) → MotionInv u := fun r k hl =>
    row r k (h.line.of_runs r k fun x hx => hl x (List.mem_cons_of_mem _ (List.mem_cons_of_mem _ hx)))
      fun x hx => hl x (List.mem_append_left [Block.mot, .heat] hx)
  cases hf : commandFrame c with
  | some f =>
    rw [exec_host hf] at e
    cases e
    exact h.hostCommand
  | none =>
    cases c with
    | powerOnReset | resetn => cases e; exact motionInv_resetPart s
    | tickBatch ch x =>
      cases e
      have taken := take_mode (s.cnt.chan.get ch) x
      exact h.counted tickBatch_runs (.of_set (tickBatch_keeps .par (by cases ch <;> simp [touches]))
        (congrArg Counting.chan (tickBatch_cnt ch x s)) taken.1 taken.2) h.line.tickBatch
    | markCapture =>
      cases e
      exact h.counted (b := false) markCapture_runs (.of_chan (markCapture_keeps .par (by decide)) (by rw [markCapture_cnt]))
        h.line.markCapture
    | spliceCapture =>
      cases e
      refine h.counted spliceCapture_runs (.of_chan (spliceCapture_keeps .par (by decide)) ?_) h.line.spliceCapture
      rw [spliceCapture_cnt]
      split <;> rfl
    | speedAndTensionSample => cases e; exact h.speedSample
    | encoderSilent => cases e; exact h.silenceExpires
    | stall =>
      cases e
      exact h.counted stallExpires_runs (.of_chan (stallExpires_keeps .par (by decide)) (stallExpires_chan s))
        h.line.stallExpires
    | linkLost => cases e; exact h.linkExpires
    | validFrame => cases e; exact h.receive
    | unknownCommand => cases e; exact h.hostFrameArrives
    | frameSent => cases e; exact h.frameSent
    | seekDistanceReached =>
      cases e
      exact row (b := false) (runs_ite (runs_upMot rfl) runs_refl) (keeps_ite (fun _ => upMot_keeps) fun _ => keeps_refl)
        (lineOk_ite (h.line.congr rfl rfl rfl rfl rfl rfl) h.line) (by decide)
    | nipLimitChange => cases e; exact row (b := false) nipLimits_runs nipLimits_keeps h.line.nipLimits (by decide)
    | nipTimeout =>
      cases e
      exact row (runs_ite nipExpires_runs runs_refl) nipTimeout_keeps (lineOk_ite h.line.nipExpires h.line) (by decide)
    | nipHold => cases e; exact row (b := false) (runs_ite holdEnds_runs runs_refl) nipHold_keeps h.line.nipHold (by decide)
    | estop =>
      cases e
      exact row (runs_ite runs_refl estopActs_runs) estopEdge_keeps (lineOk_ite h.line h.line.estopActs) (by decide)
    | estopRelease => cases e; exact h.of_keeps upPins_keeps (by decide) rfl
    | webBreak =>
      cases e
      exact row (runs_ite loopFault_runs runs_refl) webBreak_keeps (lineOk_ite h.line.loopFault h.line) (by decide)
    | overTension =>
      cases e
      exact row (runs_ite loopFault_runs runs_refl) overTension_keeps (lineOk_ite h.line.loopFault h.line) (by decide)
    | temperatureSample =>
      cases e; exact row temperatureSample_runs temperatureSample_keeps h.line.temperatureSample (by decide)
    | zoneHold =>
      cases e
      exact row (b := false) (runs_ite updZone_runs runs_refl) zoneHold_keeps (lineOk_ite h.line.updZone h.line) (by decide)
    | zoneSensor => cases e; exact row zoneSensor_runs zoneSensor_keeps h.line.zoneSensor (by decide)
    | readiness => cases e; exact row (b := false) readiness_runs readiness_keeps h.line.readiness (by decide)
    | zeroCrossEdge => cases e; exact row (b := false) zeroCross_runs zeroCross_keeps h.line.zeroCross (by decide)
    | zoneShortfall => cases e; exact row (b := false) zoneShortfall_runs zoneShortfall_keeps h.line.zoneShortfall (by decide)
    | mainsLost =>
      cases e
      exact row (runs_ite mainsLost_runs runs_refl) mainsExpires_keeps (lineOk_ite h.line.mainsLost h.line) (by decide)
    | pulseEnd => cases e; exact calm (runs_upTrg (capsFrom_of_windows rfl)) upTrg_keeps (by decide)
    | doseSample => cases e; exact calm doseSample_runs doseSample_keeps (by decide)
    | timeDeadline => cases e; exact calm timeDeadline_runs timeDeadline_keeps (by decide)
    | accept => cases e; exact calm takeAccept_runs takeAccept_keeps (by decide)
    | refuse => cases e; exact calm takeRefuse_runs takeRefuse_keeps (by decide)
    | done => cases e; exact calm takeDone_runs takeDone_keeps (by decide)
    | fault => cases e; exact calm takeFault_runs takeFault_keeps (by decide)
    | headOtherKindFrame => cases e; exact calm takeOtherFrame_runs takeOtherFrame_keeps (by decide)
    | headFrameSent =>
      cases e; exact calm (runs_of_keeps headFrameSent_keeps (by decide)) headFrameSent_keeps (by decide)
    | headFrameBadCrc => cases e; exact calm headHunts_runs headHunts_keeps (by decide)
    | frameGapTimeout link =>
      cases e
      exact calm (runs_of_keeps abandon_keeps (by cases link <;> decide)) abandon_keeps (by cases link <;> decide)
    | lenOutOfRange link len =>
      cases e
      exact calm (runs_of_keeps lenByte_keeps (by cases link <;> simp [touches])) lenByte_keeps
        (by cases link <;> simp [touches])
    | _ => exact nomatch hf

/-- Settles O55: a step on an empty queue is a millisecond, any other runs one row, and each keeps the invariant. -/
theorem stepKeepsTheLineConsistent : Obligations.StepKeepsTheLineConsistent := by
  intro s t h e
  unfold step at e
  split at e
  · cases e; exact h.tick
  · next rest _ =>
    exact MotionInv.exec (s := { s with pending := rest }) ⟨h.params.congr fun _ => rfl, h.caps, h.line.of_mot rfl rfl rfl⟩ e

end Sys2Proof.Machine
end

