-- ==== Sys2Proof/Proofs/Resets.lean ====
section
/-! PROOF. Both resets (00_scope.md 8, 02 R26, R32). -/

namespace Sys2Proof.Machine
open Sys2Proof

/-- The reset values with the limits taken in: OPEN confirmed where they stand in the open pair. -/
def State.limited (s : State) : State := if s.pins.openPair then nipOpened s.cleared else s.cleared

theorem resetPart_of_limited (s : State) : resetPart s = if s.pins.estop then estopActs s.limited else s.limited :=
  resetPart_eq s

theorem limited_keeps {s : State} : Keeps [.mot] s.cleared s.limited := by
  refine keeps_ite (fun _ => ?_) fun _ => keeps_refl
  intro b hb
  by_cases h : b = .flt
  · subst h; exact nipOpened_flt (s := s.cleared) (fun h => nomatch h)
  · exact nipOpened_keeps b (by simpa [h] using hb)

theorem limited_mot (s : State) :
    s.limited.mot = if s.pins.openPair = true then { State.reset.mot with nip := .opened, nipTimer := .stopped }
      else State.reset.mot := by
  unfold State.limited
  split
  · exact nipOpened_mot _
  · rfl

theorem limited_line (s : State) : s.limited.mot.line = .off := by
  rw [limited_mot]; split <;> rfl

/-- ESTOP in OFF leaves a nip that is open as it is. -/
theorem estopActs_open {s : State} (line : s.mot.line = .off) (nip : s.mot.opens) :
    (estopActs s).mot.nip = s.mot.nip ∧ (estopActs s).mot.nipTimer = s.mot.nipTimer := by
  have moved := raise_faulted .estop none (s.upPins fun p => { p with estop := true })
  have down : (raise .estop none (s.upPins fun p => { p with estop := true })).mot.line = .faulted := by
    rw [moved.line, State.upPins_mot, line]; rfl
  have mot := moved.rest (by rw [down]; simp)
  rw [show (estopActs s).mot = (nipOpen ((raise .estop none (s.upPins fun p => { p with estop := true })).upMot
    fun m => { m with vref := 0, target := 0, drum := 0 })).mot from rfl, nipOpen_held]
  · rw [State.upMot_mot, mot]
    exact ⟨rfl, rfl⟩
  · unfold Motion.opens
    rw [State.upMot_mot, mot]
    exact nip

/-- ESTOP at a reset finds the latch empty and the line OFF. -/
theorem resetPart_estop {s : State} (h : s.pins.estop = true) :
    (resetPart s).mot.line = .faulted ∧ (resetPart s).flt.latch = some ⟨.estop, none, 0, .off, 0, 0, none⟩ := by
  obtain ⟨taken, line⟩ := raise_faultTaken .estop none (s.limited.upPins fun p => { p with estop := true })
  obtain ⟨nip, timer, mot⟩ := estopActs_mot s.limited
  have kept : ∀ {b}, b ∉ [Block.mot] → b.same s.cleared s.limited := fun hb => limited_keeps _ hb
  rw [resetPart_of_limited, if_pos h, mot, estopActs_flt]
  have off := limited_line s
  have flt : s.limited.flt = s.cleared.flt := kept (b := .flt) (by decide)
  have cnt : s.limited.cnt = s.cleared.cnt := kept (b := .cnt) (by decide)
  have pq : s.limited.pq = s.cleared.pq := kept (b := .pq) (by decide)
  constructor
  · rw [show Motion.line { (raise .estop none _).mot with vref := 0, target := 0, drum := 0, nip := nip, nipTimer := timer } =
      (raise .estop none (s.limited.upPins fun p => { p with estop := true })).mot.line from rfl, line, State.upPins_mot, off]
    rfl
  · unfold LatchTakes at taken
    rw [State.upPins_flt, flt] at taken
    rw [taken.1]
    simp only [State.pp, State.fp, State.nipPanel, State.upPins_cnt, State.upPins_pq, State.upPins_mot, cnt, pq, off]
    rfl

/-- Settles O4: the reset values but for the limits, which may confirm the nip, and ESTOP, which may be found active. -/
theorem resetsRestoreTheResetValues : Obligations.ResetsRestoreTheResetValues := by
  intro s
  have cnt := resetPart_cnt s
  have kept : ∀ b ∈ [Block.pins, .free, .pending], b.same s (resetPart s) := fun b hb =>
    resetPart_keeps b (by revert b; decide)
  refine ⟨resetPart s, rfl, rfl, kept .pins (by decide), kept .free (by decide), kept .pending (by decide), fun c => ?_, ?_,
    fun estop pair => ?_, fun pair => ?_, fun estop => ?_⟩
  · rw [cnt]; cases c <;> rfl
  · rw [cnt]; rfl
  · rw [resetPart_of_limited, estop]
    rw [if_neg (by simp), State.limited, if_neg (by simp [pair])]
    intro b hb
    cases b <;> first | rfl | exact absurd hb (by decide)
  · have opened : s.limited.mot.nip = .opened ∧ s.limited.mot.nipTimer = .stopped := by
      rw [limited_mot, if_pos pair]; exact ⟨rfl, rfl⟩
    rw [resetPart_of_limited]
    split
    · obtain ⟨nip, timer⟩ := estopActs_open (limited_line s) (.inl opened.1)
      exact ⟨nip.trans opened.1, timer.trans opened.2⟩
    · exact opened
  · exact resetPart_estop estop

end Sys2Proof.Machine
end

