-- ==== Sys2Proof/Proofs/FaultTaken.lean ====
section
/-! PROOF. A critical fault raised in any state (10 R169, R173, 02 R24, 07 R122). -/

namespace Sys2Proof.Machine
open Sys2Proof

/-! ## The panel withdrawn at entry into HALTING (07 R122) -/

theorem mem_insertBeforeQueued_self (p : Panel) (l : List Panel) : p ∈ insertBeforeQueued p l := by
  induction l with
  | nil => exact List.mem_cons_self
  | cons x xs ih =>
    unfold insertBeforeQueued
    split
    · exact List.mem_cons_self
    · exact List.mem_cons_of_mem _ ih

theorem QueueOk.queue_unique {s : State} (h : QueueOk s) {p q : Panel} (hp : p ∈ s.pq.queue) (hq : q ∈ s.pq.queue)
    (e : p.tag = q.tag) : p = q := by
  have tags := h.tags
  rw [List.map_append] at tags
  exact List.inj_on_of_nodup_map (List.nodup_append.mp tags).1 hp hq e

theorem QueueOk.queued? {s : State} (h : QueueOk s) {p : Panel} (hp : p ∈ s.pq.queue) : s.queued? p.tag = some p := by
  unfold State.queued?
  cases hf : s.pq.queue.find? (fun q => q.tag = p.tag) with
  | none => exact absurd (List.find?_eq_none.mp hf p hp) (by simp)
  | some q =>
    have e : q.tag = p.tag := by simpa using List.find?_some hf
    rw [h.queue_unique (List.mem_of_find?_eq_some hf) hp e]

theorem QueueOk.txn_unique {s : State} (h : QueueOk s) {x y : Txn} (hx : x ∈ s.pq.live) (hy : y ∈ s.pq.live)
    (e : x.tag = y.tag) : x = y := List.inj_on_of_nodup_map h.liveOnce hx hy e

/-- The one transaction that awaits its answer is that of the panel withdrawn. -/
theorem withdrawStarting_one {s u : State} (h : QueueOk s) (pq : u.pq = s.pq) {x : Txn} {p : Panel} (hx : x ∈ s.pq.live)
    (awaits : x.phase = .awaitAccept) (only : ∀ y ∈ s.pq.live, y.phase = .awaitAccept → y = x) (hp : p ∈ s.pq.queue)
    (tag : p.tag = x.tag) : withdrawStarting u = refusal x.num p none none (withdraw x.num x.tag u) := by
  have found : u.pq.live.find? (fun t => t.phase = .awaitAccept) = some x := by
    rw [pq]
    cases hf : s.pq.live.find? (fun t => t.phase = .awaitAccept) with
    | none => exact absurd awaits (by simpa using List.find?_eq_none.mp hf x hx)
    | some y => rw [only y (List.mem_of_find?_eq_some hf) (by simpa using List.find?_some hf)]
  have panel : u.queued? x.tag = some p := by
    have e := h.queued? hp
    unfold State.queued? at e ⊢
    rw [pq, ← tag]; exact e
  unfold withdrawStarting
  rw [found]
  dsimp only
  rw [panel]

/-- The transactions that print stay, and a STARTING panel returns to the QUEUED ones with its transaction closed. -/
structure Withdrawn (s t : State) : Prop where
  printing : ∀ x ∈ s.pq.live, x.phase = .printing → x ∈ t.pq.live
  starting : ∀ x ∈ s.pq.live, x.phase = .awaitAccept → (∀ y ∈ s.pq.live, y.phase = .awaitAccept → y = x) →
    (∀ y ∈ t.pq.live, y.tag ≠ x.tag)
    ∧ (s.head.buf.length < 8 → t.head.buf = s.head.buf ++ [.withdraw x.num x.tag])
    ∧ ∀ p ∈ s.pq.queue, p.tag = x.tag →
        { p with state := .queued, xs := none, txn := none, gains := none } ∈ t.pq.queue

theorem withdrawStarting_withdrawn {s u : State} (h : QueueOk s) (pq : u.pq = s.pq) (head : u.head = s.head) :
    Withdrawn s (withdrawStarting u) where
  printing := fun x hx prints => by
    unfold withdrawStarting
    have stays : ∀ {t : Txn} {num tag : Nat}, t ∈ s.pq.live → t.phase = .awaitAccept → (tag = t.tag) →
        x ∈ dropTxn num tag s.pq.live := fun {t num tag} ht ha e => by
      refine List.mem_filter.mpr ⟨hx, ?_⟩
      rw [decide_eq_true_eq]
      rintro ⟨-, k⟩
      rw [h.txn_unique hx ht (k.trans e), ha] at prints
      exact nomatch prints
    cases hf : u.pq.live.find? (fun t => t.phase = .awaitAccept) with
    | none => dsimp only; rw [pq]; exact hx
    | some t =>
      have ht : t ∈ s.pq.live := pq ▸ List.mem_of_find?_eq_some hf
      have ha : t.phase = .awaitAccept := by simpa using List.find?_some hf
      dsimp only
      cases hq : u.queued? t.tag with
      | none =>
        dsimp only
        rw [withdraw_pq]
        show x ∈ dropTxn _ _ u.pq.live
        rw [pq]
        exact stays ht ha rfl
      | some p =>
        have tag : p.tag = t.tag := by simpa using List.find?_some hq
        show x ∈ dropTxn _ _ (withdraw t.num t.tag u).pq.live
        rw [withdraw_pq, pq]
        exact stays ht ha tag
  starting := fun x hx awaits only => by
    obtain ⟨p, hp, tag, -⟩ := h.live x hx
    rw [withdrawStarting_one h pq hx awaits only hp tag]
    refine ⟨fun y hy e => ?_, fun room => ?_, fun q hq e => ?_⟩
    · have hy : y ∈ dropTxn x.num p.tag (withdraw x.num x.tag u).pq.live := hy
      rw [withdraw_pq, pq] at hy
      obtain ⟨mem, differs⟩ := List.mem_filter.mp hy
      rw [decide_eq_true_eq] at differs
      exact differs ⟨by rw [h.txn_unique mem hx e], e.trans tag.symm⟩
    · have kept : (refusal x.num p none none (withdraw x.num x.tag u)).head = (withdraw x.num x.tag u).head :=
        refusal_uncounted_keeps .head (by decide)
      rw [kept, withdraw_room (by rw [head]; exact room)]
      exact congrArg (fun k : HeadLink => k.buf ++ _) head
    · obtain rfl : q = p := h.queue_unique hq hp (e.trans tag.symm)
      exact mem_insertBeforeQueued_self _ _

/-! ## The motion controller's part (02 R24) -/

/-- A fault takes the line into HALTING, into FAULTED, or leaves it where a fault has taken it before. -/
theorem faultMotion_cases (s : State) :
    (faultMotion s = enterHalting (suspendForFault s) ∧ s.mot.line ≠ .halting ∧ faultLine s.mot.line s.mot.vref = .halting)
    ∨ (faultMotion s = setLine .faulted .fault (suspendForFault s) ∧ s.mot.line ≠ .halting ∧ s.mot.line ≠ .faulted
        ∧ faultLine s.mot.line s.mot.vref = .faulted)
    ∨ (faultMotion s = suspendForFault s ∧ (s.mot.line = .halting ∨ s.mot.line = .faulted)) := by
  unfold faultMotion
  cases hl : s.mot.line with
  | running | stopping => exact .inl ⟨rfl, by simp, rfl⟩
  | threading =>
    by_cases hv : 0 < s.mot.vref
    · exact .inl ⟨if_pos hv, by simp, if_pos hv⟩
    · exact .inr (.inl ⟨if_neg hv, by simp, by simp, if_neg hv⟩)
  | off | warming | ready => exact .inr (.inl ⟨rfl, by simp, by simp, rfl⟩)
  | halting => exact .inr (.inr ⟨rfl, .inl rfl⟩)
  | faulted => exact .inr (.inr ⟨rfl, .inr rfl⟩)

/-- Raising a fault, with the latch's part made. -/
theorem raise_eq (c : Cause) (i : Option Nat) (s : State) :
    raise c i s = notice (.faultRaised c i s.flt.latch.isNone s.mot.line s.pp s.fp)
      (faultMotion (s.upFlt fun f => f.take (s.recordOf c i))) := rfl

/-- Entering HALTING withdraws the STARTING panel (07 R122). -/
theorem raise_withdrawn {c : Cause} {i : Option Nat} {s : State} (q : QueueOk s) (h : (raise c i s).mot.line = .halting)
    (l : s.mot.line ≠ .halting) : Withdrawn s (raise c i s) := by
  have line := (raise_faulted c i s).line
  rcases faultMotion_cases (s.upFlt fun f => f.take (s.recordOf c i)) with ⟨e, -, -⟩ | ⟨-, -, -, f⟩ | ⟨-, halts⟩
  · have before : Keeps [.mot, .flt] s (nipOpen ((setLine .halting .fault
        (suspendForFault (s.upFlt fun f => f.take (s.recordOf c i)))).upMot fun m => { m with target := 0, hold := .stopped })) :=
      keeps_then (keeps_then (keeps_then (keeps_seq upFlt_keeps upMot_keeps (by decide) (by decide)) setLine_keeps
        (by decide)) upMot_keeps (by decide)) nipOpen_keeps (by decide)
    obtain ⟨printing, starting⟩ := withdrawStarting_withdrawn q (before .pq (by decide)) (before .head (by decide))
    rw [raise_eq, e]
    exact ⟨by rw [notice_pq]; exact printing, by rw [notice_pq, notice_head]; exact starting⟩
  · exact absurd (h.symm.trans line) (by rw [show faultLine s.mot.line s.mot.vref = .faulted from f]; simp)
  · rcases halts with k | k
    · exact absurd k l
    · rw [line, show s.mot.line = .faulted from k] at h
      exact nomatch h

/-- Outside that the panel queue and the head link are left alone. -/
theorem raise_calm {c : Cause} {i : Option Nat} {s : State} (h : (raise c i s).mot.line ≠ .halting ∨ s.mot.line = .halting) :
    (raise c i s).pq = s.pq ∧ (raise c i s).head = s.head := by
  have line := (raise_faulted c i s).line
  have taken : Keeps [.mot, .flt] s (suspendForFault (s.upFlt fun f => f.take (s.recordOf c i))) :=
    keeps_seq upFlt_keeps upMot_keeps (by decide) (by decide)
  have kept : Keeps [.mot, .flt] s (raise c i s) := by
    rw [raise_eq]
    rcases faultMotion_cases (s.upFlt fun f => f.take (s.recordOf c i)) with ⟨-, l, f⟩ | ⟨e, -⟩ | ⟨e, -⟩
    · exact absurd (line.trans f) (h.resolve_right l)
    · rw [e]; exact keeps_then (keeps_then taken setLine_keeps (by decide)) notice_keeps (by decide)
    · rw [e]; exact keeps_then taken notice_keeps (by decide)
  exact ⟨kept .pq (by decide), kept .head (by decide)⟩

/-! ## The notices (10 R169, R173, 02 R27) -/

/-- `t` holds every frame of `s` and at most `n` more. -/
structure Adds (n : Nat) (s t : State) : Prop where
  used : t.flt.used ≤ s.flt.used + n
  frames : ∀ x ∈ s.flt.frames, x ∈ t.flt.frames
  clock : t.cnt.clock = s.cnt.clock

theorem adds_of_flt {s t : State} (h : t.flt = s.flt) (k : t.cnt.clock = s.cnt.clock) : Adds 0 s t :=
  ⟨by rw [h]; rfl, fun x hx => by rw [h]; exact hx, k⟩

theorem Adds.trans {m n : Nat} {s t u : State} (h : Adds m s t) (k : Adds n t u) : Adds (m + n) s u :=
  ⟨by have := h.used; have := k.used; omega, fun x hx => k.frames x (h.frames x hx), k.clock.trans h.clock⟩

theorem Adds.congr {n : Nat} {s s' t : State} (h : Adds n s' t) (flt : s'.flt = s.flt)
    (clock : s'.cnt.clock = s.cnt.clock) : Adds n s t :=
  ⟨flt ▸ h.used, fun x hx => h.frames x (flt.symm ▸ hx), h.clock.trans clock⟩

theorem notice_adds (n : Notice) (s : State) : Adds 1 s (notice n s) := by
  refine ⟨?_, notice_posts.frames, by rw [notice_cnt]⟩
  unfold notice
  split
  · exact (place_used _ _).le
  · exact Nat.le_succ _

theorem room_of_used {s : State} (h : s.flt.used < 32) : s.flt.room = true := decide_eq_true h

/-- A notice with room stands in the queue. -/
theorem mem_notice {n : Notice} {s : State} (h : s.flt.used < 32) : .notice s.cnt.clock n ∈ (notice n s).flt.frames := by
  rw [notice_room (room_of_used h)]
  exact self_mem_place_frames _ _

theorem setLine_adds (new : LineState) (e : LineEvent) (s : State) : Adds 1 s (setLine new e s) := by
  unfold setLine
  split
  · exact ⟨Nat.le_succ _, fun _ hx => hx, rfl⟩
  · exact ⟨(notice_adds _ _).used, fun x hx => notice_posts.frames x hx, by rw [notice_cnt]; rfl⟩

/-- A change of line state is reported (02 R27). -/
theorem mem_setLine {new : LineState} {e : LineEvent} {s : State} (h : s.flt.used < 32) (l : s.mot.line ≠ new) :
    .notice s.cnt.clock (.stateChange s.mot.line new e) ∈ (setLine new e s).flt.frames := by
  rw [setLine, if_neg l]
  exact mem_notice (s := (s.upFlt _).upMot _) h

theorem withdraw_adds (txn tag : Nat) (s : State) : Adds 1 s (withdraw txn tag s) := by
  unfold withdraw
  split
  · exact ⟨Nat.le_succ _, fun _ hx => hx, rfl⟩
  · exact notice_adds _ _

theorem withdrawStarting_adds (s : State) : Adds 1 s (withdrawStarting s) := by
  unfold withdrawStarting
  split
  · exact ⟨Nat.le_succ _, fun _ hx => hx, rfl⟩
  · split
    · exact (withdraw_adds _ _ s).trans (adds_of_flt (refusal_uncounted_keeps .flt (by decide))
        (congrArg Counting.clock (refusal_uncounted_keeps .cnt (by decide))))
    · exact (withdraw_adds _ _ _).congr rfl rfl

/-- Entering HALTING adds the change of line state and, with the head-link buffer full, one warning. -/
theorem enterHalting_adds {s : State} (h : s.flt.used < 32) (l : s.mot.line ≠ .halting) :
    Adds 2 s (enterHalting s)
      ∧ .notice s.cnt.clock (.stateChange s.mot.line .halting .fault) ∈ (enterHalting s).flt.frames := by
  have opened : Adds 0 (setLine .halting .fault s) (nipOpen ((setLine .halting .fault s).upMot
      fun m => { m with target := 0, hold := .stopped })) :=
    adds_of_flt (nipOpen_flt (by simp)) (congrArg Counting.clock (nipOpen_keeps .cnt (by decide)))
  have rest := opened.trans (withdrawStarting_adds _)
  exact ⟨(setLine_adds .halting .fault s).trans rest, rest.frames _ (mem_setLine h l)⟩

theorem faultMotion_adds {s : State} (h : s.flt.used < 32) :
    Adds 2 s (faultMotion s) ∧ ((faultMotion s).mot.line ≠ s.mot.line →
      .notice s.cnt.clock (.stateChange s.mot.line (faultMotion s).mot.line .fault) ∈ (faultMotion s).flt.frames) := by
  have line := (faultMotion_faulted s).line
  rcases faultMotion_cases s with ⟨e, l, f⟩ | ⟨e, -, l, f⟩ | ⟨e, halts⟩
  · obtain ⟨added, said⟩ := enterHalting_adds (s := suspendForFault s) h l
    rw [line, f, e]
    exact ⟨⟨added.used, added.frames, added.clock⟩, fun _ => said⟩
  · obtain ⟨used, frames, clock⟩ := setLine_adds .faulted .fault (suspendForFault s)
    rw [line, f, e]
    exact ⟨⟨by have : s.flt.used = (suspendForFault s).flt.used := rfl; omega, frames, clock⟩, fun _ => mem_setLine (s := suspendForFault s) h l⟩
  · rw [e]
    exact ⟨⟨Nat.le_add_right _ _, fun _ hx => hx, rfl⟩, fun k => absurd rfl k⟩

theorem raise_notices {c : Cause} {i : Option Nat} {s : State} (h : s.flt.used + 3 ≤ 32) :
    .notice s.cnt.clock (.faultRaised c i s.flt.latch.isNone s.mot.line s.pp s.fp) ∈ (raise c i s).flt.frames
      ∧ ((raise c i s).mot.line ≠ s.mot.line →
          .notice s.cnt.clock (.stateChange s.mot.line (raise c i s).mot.line .fault) ∈ (raise c i s).flt.frames) := by
  have taken : (s.flt.take (s.recordOf c i)).used = s.flt.used := by unfold FaultMon.take; split <;> rfl
  obtain ⟨⟨used, -, clock⟩, said⟩ := faultMotion_adds (s := s.upFlt fun f => f.take (s.recordOf c i))
    (by rw [State.upFlt_flt, taken]; omega)
  rw [State.upFlt_flt, taken] at used
  rw [raise_eq, notice_mot]
  refine ⟨?_, fun l => notice_posts.frames _ (said l)⟩
  have clock : (faultMotion (s.upFlt fun f => f.take (s.recordOf c i))).cnt.clock = s.cnt.clock := clock
  rw [← clock]
  exact mem_notice (by omega)

/-! ## The statement -/

theorem suspend_fault (k : Seek) :
    k.suspend .fault = if k.state = .moving then { k with state := .suspended, cause := some .fault, due := true } else k :=
  rfl

/-- A nip that holds the web is commanded open only at entry into HALTING. -/
theorem raise_nip {c : Cause} {i : Option Nat} {s : State} (h : (raise c i s).mot.line ≠ .halting ∨ s.mot.line = .halting) :
    (raise c i s).mot.nip = s.mot.nip := by
  rcases h with h | h
  · rw [(raise_faulted c i s).rest h]
  · rw [raise_halting h]

/-- Settles O13: the latch takes the fault, then the motion controller by the three cases of `faultMotion_cases`. -/
theorem criticalFaultIsTaken : Obligations.CriticalFaultIsTaken := by
  intro c i s
  have moved := raise_faulted c i s
  refine ⟨raise_faultTaken c i s, raise_keeps, moved.vref, moved.seek.trans (suspend_fault _), fun h l => ?_,
    fun _ h => raise_nip h, raise_notices, raise_calm, fun q h l => ?_⟩
  · obtain ⟨target, hold, nip⟩ := raise_rests h l
    exact ⟨target, hold, nip.symm⟩
  · obtain ⟨printing, starting⟩ := raise_withdrawn q h l
    exact ⟨printing, starting⟩

end Sys2Proof.Machine
end

