-- ==== Sys2Proof/Proofs/LineCommands.lean ====
section
/-! PROOF. The commands on the line state: START, STOP, THREAD_ENTER and THREAD_EXIT (02 R21 to R23, 10 R175). -/

namespace Sys2Proof.Machine
open Sys2Proof

/-! ## The link silence timer at a change of line state (10 R175) -/

theorem setLine_link {new : LineState} {e : LineEvent} {s : State} (h : s.mot.line ≠ new) :
    (setLine new e s).flt.link = linkTimerAt s.par.tLink s.mot.line new s.flt.link := by
  rw [setLine, if_neg h, notice_link]
  rfl

/-! ## START -/

theorem startLine_eq (s : State) :
    startLine s = decide_ (nipClose ((setLine .running .start s).upMot fun m => { m with hold := .stopped })) := rfl

theorem started_keeps {s : State} :
    Keeps [.mot, .flt] s (nipClose ((setLine .running .start s).upMot fun m => { m with hold := .stopped })) :=
  keeps_then (keeps_then setLine_keeps upMot_keeps (by decide)) nipClose_keeps (by decide)

theorem startLine_link {s : State} (h : s.mot.line ≠ .running) :
    (startLine s).flt.link = linkTimerAt s.par.tLink s.mot.line .running s.flt.link := by
  rw [startLine_eq, show (decide_ _).flt = _ from decide_keeps .flt (by decide),
    show (nipClose _).flt = _ from nipClose_keeps .flt (by decide)]
  exact setLine_link h

/-- A nip that is open is commanded closed, and its travel begins with the limits elsewhere. -/
theorem startLine_travels {s : State} (nip : s.mot.opens) (pair : s.pins.closedPair = false) :
    (startLine s).mot.nip = .closing ∧ (startLine s).mot.nipTimer = .running 0 := by
  have opens : ((setLine .running .start s).upMot fun m => { m with hold := .stopped }).mot.opens := by
    unfold Motion.opens at nip ⊢
    simpa using nip
  have pins : ((setLine .running .start s).upMot fun m => { m with hold := .stopped }).pins = s.pins :=
    setLine_keeps .pins (by decide)
  rw [startLine_eq, show (decide_ _).mot = _ from decide_keeps .mot (by decide), nipClose_turned opens, pins, pair]
  exact ⟨rfl, rfl⟩

/-! ## STOP -/

/-- The line in STOPPING, before the nip is looked at. -/
def State.stopped (s : State) : State := (setLine .stopping .stop s).upMot fun m => { m with target := 0 }

theorem stopped_keeps {s : State} : Keeps [.mot, .flt] s s.stopped := keeps_then setLine_keeps upMot_keeps (by decide)

theorem stopped_mot (s : State) : s.stopped.mot = { s.mot with line := .stopping, target := 0 } := by simp [State.stopped]

theorem stopped_link {s : State} (h : s.mot.line = .running) : s.stopped.flt.link = s.flt.link := by
  refine (setLine_link (by rw [h]; simp)).trans ?_
  rw [h]; rfl

/-- A travel is turned round, a web at rest is held for t_hold, a web that moves is slowed first (02 R22). -/
theorem stopLine_eq (s : State) :
    stopLine s =
      if s.mot.nip = .closing ∨ s.mot.nip = .closed ∧ s.mot.vref = 0 ∧ s.par.tHold = 0 then nipOpen s.stopped
      else if s.mot.nip = .closed ∧ s.mot.vref = 0 then s.stopped.upMot fun m => { m with hold := .running 0 }
      else s.stopped := by
  have par : s.stopped.par = s.par := stopped_keeps .par (by decide)
  show (if s.stopped.mot.nip = .closing then nipOpen s.stopped
    else if s.stopped.mot.nip = .closed && s.stopped.mot.vref = 0 then startHold s.stopped else s.stopped) = _
  rw [startHold, par, stopped_mot]
  cases hn : s.mot.nip <;> by_cases hv : s.mot.vref = 0 <;> by_cases ht : s.par.tHold = 0 <;> simp [hv, ht]

/-- A nip opened in STOPPING takes the line to READY, where the timer stops, or is on its way. -/
theorem nipOpen_link {s : State} (h : s.mot.line = .stopping) :
    (nipOpen s).flt.link = if (nipOpen s).mot.line = .stopping then s.flt.link else .stopped := by
  by_cases ho : s.mot.opens
  · rw [nipOpen_held ho, if_pos h]
  · rw [nipOpen_turned ho]
    split
    · rw [nipOpened_mot, if_neg (by simp [h]), nipOpened]
      rw [if_pos (by exact h), setLine_link (by simp [h])]
      rfl
    · rw [if_pos (by exact h)]
      rfl

theorem stopLine_rest {s : State} (h : s.mot.line = .running) :
    (stopLine s).mot.target = 0 ∧ (stopLine s).mot.vref = s.mot.vref
      ∧ (stopLine s).flt.link = if (stopLine s).mot.line = .stopping then s.flt.link else .stopped := by
  have mot := stopped_mot s
  have link := stopped_link h
  rw [stopLine_eq]
  split
  · obtain ⟨vref, target, -⟩ := nipOpen_mot s.stopped
    refine ⟨by rw [target, mot], by rw [vref, mot], ?_⟩
    rw [nipOpen_link (by rw [mot]), link]
  · split
    · rw [State.upMot_mot, State.upMot_flt, mot, link]; exact ⟨rfl, rfl, rfl⟩
    · rw [mot, link]; exact ⟨rfl, rfl, rfl⟩

/-! ## The commands by line state -/

theorem startOp_eq (s : State) :
    startOp s = if s.mot.line = .ready ∨ s.mot.line = .stopping then (startLine s, ok)
      else if s.mot.line = .running then (s, ok) else (s, refusedWith .state) := by
  unfold startOp
  cases s.mot.line <;> rfl

theorem stopOp_eq (s : State) :
    stopOp s = if s.mot.line = .running then (stopLine s, ok)
      else if s.mot.line = .stopping then (s, ok) else (s, refusedWith .state) := by
  unfold stopOp
  cases s.mot.line <;> rfl

theorem threadEnterOp_eq (s : State) :
    threadEnterOp s = if s.mot.line = .ready then (setLine .threading .threadEnter s, ok)
      else if s.mot.line = .threading then (s, ok) else (s, refusedWith .state) := by
  unfold threadEnterOp
  cases s.mot.line <;> rfl

theorem threadExitOp_eq (s : State) :
    threadExitOp s = if s.mot.line = .threading ∧ s.mot.vref = 0 ∧ s.mot.seek.state ≠ .moving then
        (setLine .ready .threadExit (s.upMot fun m => { m with seek := {} }), ok)
      else (s, refusedWith .state) := by
  simp only [threadExitOp, Bool.and_eq_true, decide_eq_true_eq, and_assoc]

/-- Settles O19: each command in the line states that take it and in those that do not. -/
theorem lineCommandsMoveTheLine : Obligations.LineCommandsMoveTheLine := by
  refine ⟨⟨fun tag s h => ?_, fun tag s h => ?_⟩, fun tag s h => ?_, fun tag s h => ?_⟩
  · have op := startOp_eq s.acting
    rw [acting_mot] at op
    split
    · next line =>
      have moves : s.acting.mot.line ≠ .running := by rcases line with l | l <;> simp [l]
      obtain ⟨nip, timer, mot, shut, kept⟩ := startLine_mot s.acting
      refine ⟨_, answered_of_op (c := .start tag) h rfl (op.trans (if_pos line)), startLine_keeps, by rw [mot]; rfl, ?_, ?_,
        ⟨_, startLine_eq _, started_keeps, (decide_keeps .mot (by decide)).symm⟩, fun hn => ?_, fun hn pair => ?_⟩
      · rw [nipCmd_iff, mot]; exact shut.symm
      · rw [startLine_link moves]
        rcases line with l | l <;> rw [show s.acting.mot.line = _ from l, l] <;> rfl
      · rw [mot]; exact kept hn
      · exact startLine_travels hn.symm pair
    · next other =>
      rw [if_neg other] at op
      split
      · next l => exact answered_of_op (c := .start tag) h rfl (op.trans (if_pos l))
      · next l => exact refused_of_op (c := .start tag) h rfl (op.trans (if_neg l))
  · have op := stopOp_eq s.acting
    rw [acting_mot] at op
    split
    · next line =>
      have e := stopLine_eq s.acting
      rw [acting_mot, acting_par] at e
      have mot := stopped_mot s.acting
      obtain ⟨target, vref, link⟩ := stopLine_rest (s := s.acting) line
      have pins : s.acting.stopped.pins = s.pins := stopped_keeps .pins (by decide)
      refine ⟨_, answered_of_op (c := .stop tag) h rfl (op.trans (if_pos line)), stopLine_keeps, target, vref, link,
        fun nip v => ?_, fun nip v hold => ?_, fun turns pair => ?_⟩
      · rw [e, if_neg (by rintro (k | ⟨-, k, -⟩) <;> simp_all), if_neg (by rintro ⟨-, k⟩; simp_all), mot]; rfl
      · rw [e, if_neg (by rintro (k | ⟨-, -, k⟩) <;> simp_all), if_pos ⟨nip, v⟩, State.upMot_mot, mot]; rfl
      · have closed : ¬s.acting.stopped.mot.opens := by
          rw [opens_iff, mot]
          rcases turns with k | ⟨k, -⟩ <;> simp [k]
        rw [e, if_pos turns, nipOpen_turned closed, pins, pair, if_neg (by simp), State.upMot_mot, mot]
        exact ⟨rfl, rfl, rfl⟩
    · next other =>
      rw [if_neg other] at op
      split
      · next l => exact answered_of_op (c := .stop tag) h rfl (op.trans (if_pos l))
      · next l => exact refused_of_op (c := .stop tag) h rfl (op.trans (if_neg l))
  · have op := threadEnterOp_eq s.acting
    rw [acting_mot] at op
    split
    · next line =>
      refine ⟨_, answered_of_op (c := .threadEnter tag) h rfl (op.trans (if_pos line)), setLine_keeps, setLine_mot _ _ _, ?_⟩
      rw [setLine_link (by rw [acting_mot, line]; simp), acting_mot, line]
      rfl
    · next other =>
      rw [if_neg other] at op
      split
      · next l => exact answered_of_op (c := .threadEnter tag) h rfl (op.trans (if_pos l))
      · next l => exact refused_of_op (c := .threadEnter tag) h rfl (op.trans (if_neg l))
  · have op := threadExitOp_eq s.acting
    rw [acting_mot] at op
    split
    · next leaves =>
      refine ⟨_, answered_of_op (c := .threadExit tag) h rfl (op.trans (if_pos leaves)),
        keeps_seq upMot_keeps setLine_keeps (by decide) (by decide), ?_, ?_, ?_⟩
      · rw [setLine_mot]; rfl
      · rw [setLine_mot]; rfl
      · rw [setLine_link (by rw [State.upMot_mot]; simp [leaves.1])]; rfl
    · next stays => exact refused_of_op (c := .threadExit tag) h rfl (op.trans (if_neg stays))

end Sys2Proof.Machine
end

