-- ==== Sys2Proof/Proofs/MoveCommands.lean ====
section
/-! PROOF. Moves: SEEK, JOG and what stops, resumes and ends them, the distance left at a count update, and the notice of
their end (02 R35 to R38). -/

namespace Sys2Proof.Machine
open Sys2Proof

/-! ## The distance left (02 R37) -/

theorem seek_count (k : Seek) (old new : Int) :
    k.count old new =
      if k.state = .idle ∨ k.state = .ended then k
      else if k.state = .moving ∧ max 0 (k.remaining - |new - old|) = 0 then
        { k with state := .ended, remaining := 0, cause := some .distance, endPos := some new, due := true }
      else { k with remaining := max 0 (k.remaining - |new - old|) } := by
  unfold Seek.count
  cases hk : k.state with
  | moving =>
    by_cases h : max 0 (k.remaining - |new - old|) = 0 <;> simp [h, Seek.finish]
  | suspended => simp
  | idle => simp
  | ended => simp

/-- A count update of PP leaves the motion controller alone but for the distance left. -/
theorem ppUpdate_mot (old new : Int) (s : State) :
    (ppUpdate old new s).mot = { s.mot with seek := s.mot.seek.count old new } := by
  have before : (markUpdate old new (judgeWindows .paper old new (fireCrossed .paper old new s))).mot = s.mot :=
    (markUpdate_keeps .mot (by decide)).trans
      ((judgeWindows_keeps .mot (by decide)).trans (fireCrossed_keeps .mot (by decide)))
  have tracked : (seekUpdate old new (markUpdate old new
      (judgeWindows .paper old new (fireCrossed .paper old new s)))).mot =
        { s.mot with seek := s.mot.seek.count old new } := by
    rw [seekUpdate, State.upMot_mot, before]
  refine (decide_keeps .mot (by decide)).trans ?_
  dsimp only
  split
  · exact (doseUpdate_keeps .mot (by decide)).trans
      ((arriveReached_keeps .mot (by decide)).trans ((deadlineUpdate_keeps .mot (by decide)).trans tracked))
  · exact tracked

/-- A batch of PP that leaves OVERRANGE as it was. -/
theorem tickBatch_paper_mot {ticks : Ticks} {s : State}
    (h : (s.cnt.chan.paper.take ticks).overrange = s.cnt.chan.paper.overrange) :
    (tickBatch .paper ticks s).mot = { s.mot with
      seek := if (s.cnt.chan.paper.take ticks).count = s.pp then s.mot.seek
        else s.mot.seek.count s.pp (s.cnt.chan.paper.take ticks).count } := by
  unfold tickBatch
  dsimp only
  rw [rangeFault_same (ch := .paper) (old := s.cnt.chan.get .paper) (new := (s.cnt.chan.get .paper).take ticks) h]
  by_cases hn : (s.cnt.chan.paper.take ticks).count = s.pp
  · rw [if_pos (by exact hn), if_pos hn]; rfl
  · rw [if_neg (by exact hn), if_neg hn]; exact ppUpdate_mot _ _ _

/-! ## The notice of a move's end (02 R38) -/

/-- A stage of the sample that leaves the record of a move at rest and the counts. -/
structure LeavesMove (s t : State) : Prop where
  seek : t.mot.seek = s.mot.seek
  vref : t.mot.vref = s.mot.vref
  pp : t.pp = s.pp
  fp : t.fp = s.fp
  clock : t.cnt.clock = s.cnt.clock
  frames : ∀ x ∈ s.flt.frames, x ∈ t.flt.frames
  dropped : s.flt.dropped = true → t.flt.dropped = true

theorem LeavesMove.trans {s t u : State} (h : LeavesMove s t) (k : LeavesMove t u) : LeavesMove s u :=
  ⟨k.seek.trans h.seek, k.vref.trans h.vref, k.pp.trans h.pp, k.fp.trans h.fp, k.clock.trans h.clock,
    fun x hx => k.frames x (h.frames x hx), fun hd => k.dropped (h.dropped hd)⟩

theorem leavesMove_refl {s : State} : LeavesMove s s := ⟨rfl, rfl, rfl, rfl, rfl, fun _ h => h, fun h => h⟩

/-- A fault suspends a move that is MOVING only. -/
theorem Struck.leavesMove {p : Prop} {s t : State} (h : Struck p s t) (rest : s.mot.seek.state ≠ .moving)
    (pp : t.pp = s.pp) (fp : t.fp = s.fp) (clock : t.cnt.clock = s.cnt.clock) : LeavesMove s t := by
  refine ⟨?_, h.speed.1, pp, fp, clock, h.reports.frames, h.reports.dropped⟩
  by_cases hp : p
  · rw [(h.faulted hp).1.seek]; exact if_neg rest
  · rw [(h.spared hp).1]

theorem countSample_leavesMove {s : State} (rest : s.mot.seek.state ≠ .moving) : LeavesMove s (countSample s) := by
  have cnt := countSample_cnt s
  exact (countSample_struck s).leavesMove rest (by unfold State.pp; rw [cnt]; rfl) (by unfold State.fp; rw [cnt]; rfl)
    (by rw [cnt]; rfl)

theorem tensionSample_leavesMove {lc0 lc1 lc2 : Int} {s : State} (rest : s.mot.seek.state ≠ .moving) :
    LeavesMove s (tensionSample lc0 lc1 lc2 s) := by
  have cnt := tensionSample_cnt (lc0 := lc0) (lc1 := lc1) (lc2 := lc2) (s := s)
  exact (tensionSample_struck lc0 lc1 lc2 s).leavesMove rest (by unfold State.pp; rw [cnt]) (by unfold State.fp; rw [cnt])
    (by rw [cnt])

/-- The overshoot that the notice carries: of an ENDED move alone. -/
def Seek.overshoot (k : Seek) (pp fp : Int) : Option Int :=
  if k.state = .ended then
    k.endPos.map fun e => (if k.cause = some .condition ∧ k.cond = .splice then fp else pp) - e
  else none

theorem overshoot_eq (s : State) (k : Seek) : s.overshoot k = k.overshoot s.pp s.fp := by
  unfold State.overshoot Seek.overshoot
  cases hs : k.state <;> cases he : k.endPos <;> simp

/-- The record of a move that has its notice sent where it is due and v_ref is 0. -/
def Sent (s t : State) : Prop :=
  let k := s.mot.seek
  if k.due = true ∧ t.mot.vref = 0 then
    t.mot.seek = { k with due := false }
      ∧ Noticed (.seekEnded k.kind k.cause k.endPos k.remaining (k.overshoot s.pp s.fp)) s t
  else t.mot.seek = k

/-- What the motion controller does before it sends the notice. -/
def State.governed (s : State) : State := haltComplete (beginHold s.mot.vref (governor s))

theorem governed_keeps {s : State} : Keeps [.mot, .flt] s s.governed :=
  keeps_then (keeps_seq governor_keeps beginHold_keeps (by decide) (by decide)) haltComplete_keeps (by decide)

theorem governed_seek (s : State) : s.governed.mot.seek = s.mot.seek := by
  have held : (beginHold s.mot.vref (governor s)).mot.seek = s.mot.seek := by
    rw [beginHold_mot]
    split
    · rfl
    · split
      · rfl
      · split <;> rfl
  unfold State.governed
  rw [haltComplete_mot]
  split <;> exact held

theorem motionSample_sent (s : State) : Sent s (motionSample s) := by
  have cnt : s.governed.cnt = s.cnt := governed_keeps .cnt (by decide)
  have vref : (motionSample s).mot.vref = s.governed.mot.vref := by
    obtain ⟨k, e⟩ := seekNotice_mot s.governed
    rw [show (motionSample s).mot = _ from e]
  unfold Sent
  dsimp only
  rw [vref, show motionSample s = seekNotice s.governed from rfl, seekNotice, governed_seek]
  by_cases due : s.mot.seek.due = true ∧ s.governed.mot.vref = 0
  · rw [if_pos due, if_pos (by simpa using due), notice_mot]
    refine ⟨rfl, ?_⟩
    have pp : s.governed.pp = s.pp := by unfold State.pp; rw [cnt]
    have fp : s.governed.fp = s.fp := by unfold State.fp; rw [cnt]
    have said := notice_noticed (.seekEnded s.mot.seek.kind s.mot.seek.cause s.mot.seek.endPos s.mot.seek.remaining
      (s.governed.overshoot s.mot.seek)) (s.governed.upMot fun m => { m with seek := { s.mot.seek with due := false } })
    unfold Noticed at said ⊢
    rw [overshoot_eq, pp, fp, State.upMot_cnt, cnt] at said
    rw [overshoot_eq, pp, fp]
    exact said
  · rw [if_neg due, if_neg (by simpa using due)]
    exact governed_seek s

/-- Stages before and after leave the record and the notice. -/
theorem Sent.around {s u v t : State} (before : LeavesMove s u) (h : Sent u v) (after : LeavesMove v t) : Sent s t := by
  unfold Sent at h ⊢
  dsimp only at h ⊢
  rw [after.vref, after.seek]
  rw [before.seek, before.pp, before.fp] at h
  split
  · next due =>
    rw [if_pos due] at h
    refine ⟨h.1, ?_⟩
    have said := h.2.of_posts after.frames after.dropped
    unfold Noticed at said ⊢
    rwa [before.clock] at said
  · next due => rwa [if_neg due] at h

theorem Sent.rest {s t : State} (h : Sent s t) (rest : s.mot.seek.state ≠ .moving) : t.mot.seek.state ≠ .moving := by
  unfold Sent at h
  dsimp only at h
  split at h
  · rw [h.1]; exact rest
  · rw [h]; exact rest

theorem speedSample_sent {lc0 lc1 lc2 : Int} {ca ta : Bool} {s : State} (rest : s.mot.seek.state ≠ .moving) :
    Sent s (speedSample lc0 lc1 lc2 ca ta s) := by
  have count : ∀ {u : State}, u.mot.seek.state ≠ .moving → LeavesMove u (countSample u) := countSample_leavesMove
  have tension : ∀ {u : State}, u.mot.seek.state ≠ .moving → LeavesMove u (tensionSample lc0 lc1 lc2 u) :=
    tensionSample_leavesMove
  have stays : ∀ {u v : State}, LeavesMove u v → u.mot.seek.state ≠ .moving → v.mot.seek.state ≠ .moving :=
    fun h hu => by rw [h.seek]; exact hu
  have sampled : ∀ {u : State}, u.mot.seek.state ≠ .moving → (motionSample u).mot.seek.state ≠ .moving :=
    fun hu => (motionSample_sent _).rest hu
  unfold speedSample
  cases ca <;> cases ta <;> simp only [Bool.false_eq_true, if_false, if_true]
  · exact Sent.around ((count rest).trans (tension (stays (count rest) rest))) (motionSample_sent _) leavesMove_refl
  · exact Sent.around (count rest) (motionSample_sent _) (tension (sampled (stays (count rest) rest)))
  · exact Sent.around (tension rest) (motionSample_sent _) (count (sampled (stays (tension rest) rest)))
  · exact Sent.around leavesMove_refl (motionSample_sent _)
      ((count (sampled rest)).trans (tension (stays (count (sampled rest)) (sampled rest))))

/-! ## The commands (02 R35 to R38) -/

theorem seekCond_ofCode (n : Nat) :
    if 2 < n then SeekCond.ofCode n = none else ∃ k, SeekCond.code k = n ∧ SeekCond.ofCode n = some k := by
  match n with
  | 0 | 1 | 2 => exact ⟨_, rfl, rfl⟩
  | n + 3 => rw [if_pos (by omega)]; rfl

theorem dir_ofCode (n : Nat) :
    if 1 < n then Dir.ofCode n = none else ∃ d, Dir.code d = n ∧ Dir.ofCode n = some d := by
  match n with
  | 0 | 1 => exact ⟨_, rfl, rfl⟩
  | n + 2 => rw [if_pos (by omega)]; rfl

/-- STATE outside THREADING, BUSY while the web moves or a move is under way (02 R35, R36). -/
theorem moveRefusal_eq (s : State) :
    moveRefusal s = if s.mot.line ≠ .threading then some .state
      else if 0 < s.mot.vref ∨ s.mot.seek.state = .moving then some .busy else none := by
  simp only [moveRefusal, Bool.or_eq_true, decide_eq_true_eq]

theorem inRange_false_iff {lo hi v : Int} : inRange lo hi v = false ↔ v < lo ∨ hi < v := by
  rw [← Bool.not_eq_true, inRange_iff]; omega

theorem seekOp_range {distance : Int} {cond : Nat} {s : State} (h : distance < 1 ∨ 10000000 < distance ∨ 2 < cond) :
    seekOp distance cond s = (s, refusedWith .range) := by
  have code := seekCond_ofCode cond
  unfold seekOp
  split at code
  · rw [code]
  · next hc =>
    obtain ⟨k, -, e⟩ := code
    rw [e]
    exact if_pos (by rw [inRange_false_iff.mpr (by omega)]; rfl)

theorem seekOp_inRange {distance : Int} {cond : Nat} {s : State} (h : ¬(distance < 1 ∨ 10000000 < distance ∨ 2 < cond)) :
    ∃ k, SeekCond.code k = cond ∧ seekOp distance cond s =
      match moveRefusal s with
      | some st => (s, refusedWith st)
      | none => (takeMove .seek .forward distance k s, ok) := by
  have code := seekCond_ofCode cond
  rw [if_neg (by omega)] at code
  obtain ⟨k, hk, e⟩ := code
  refine ⟨k, hk, ?_⟩
  unfold seekOp
  rw [e]
  exact if_neg (by rw [inRange_iff.mpr (by omega)]; simp)

theorem jogOp_range {direction : Nat} {distance : Int} {s : State}
    (h : distance < 1 ∨ 200000 < distance ∨ 1 < direction) : jogOp direction distance s = (s, refusedWith .range) := by
  have code := dir_ofCode direction
  unfold jogOp
  split at code
  · rw [code]
  · next hc =>
    obtain ⟨d, -, e⟩ := code
    rw [e]
    exact if_pos (by rw [inRange_false_iff.mpr (by omega)]; rfl)

theorem jogOp_inRange {direction : Nat} {distance : Int} {s : State}
    (h : ¬(distance < 1 ∨ 200000 < distance ∨ 1 < direction)) :
    ∃ d, Dir.code d = direction ∧ jogOp direction distance s =
      match moveRefusal s with
      | some st => (s, refusedWith st)
      | none => if direction = 1 ∧ ∃ p ∈ s.pq.queue, p.state ≠ .queued then (s, refusedWith .state)
          else (takeMove .jog d distance .none s, ok) := by
  have code := dir_ofCode direction
  rw [if_neg (by omega)] at code
  obtain ⟨d, hd, e⟩ := code
  refine ⟨d, hd, ?_⟩
  have backward : (d = .reverse && s.anyFlying) = true ↔ direction = 1 ∧ ∃ p ∈ s.pq.queue, p.state ≠ .queued := by
    rw [← anyFlying_iff, ← hd]
    cases d <;> simp [Dir.code]
  unfold jogOp
  rw [e]
  dsimp only
  rw [if_neg (by rw [inRange_iff.mpr (by omega)]; simp)]
  cases moveRefusal s with
  | some st => rfl
  | none => exact if_congr backward rfl rfl

theorem seekStopOp_eq (s : State) :
    seekStopOp s = if s.mot.line ≠ .threading then (s, refusedWith .state)
      else (s.upMot fun m => { m with seek := m.seek.suspend .stopped }, ok) := by
  unfold seekStopOp
  split <;> simp_all

theorem seekResumeOp_eq (s : State) :
    seekResumeOp s = if s.mot.line ≠ .threading ∨ s.mot.seek.state ≠ .suspended then (s, refusedWith .state)
      else if s.mot.seek.kind = .jog ∧ s.mot.seek.dir = .reverse ∧ ∃ p ∈ s.pq.queue, p.state ≠ .queued then
        (s, refusedWith .state)
      else (resumeMove s, ok) := by
  simp only [seekResumeOp, ← anyFlying_iff, Bool.or_eq_true, Bool.and_eq_true, decide_eq_true_eq, and_assoc]

/-- Settles O18: the commands by their refusals, the distance by the update of PP, the notice by the stages around the
motion controller's sample. -/
theorem movesFollowTheirCommands : Obligations.MovesFollowTheirCommands := by
  refine ⟨⟨fun tag distance cond s h => ?_, fun tag direction distance s h => ?_⟩,
    ⟨fun tag s h => ?_, fun tag s h => ?_, fun s moving => ?_⟩, fun ticks s same => ?_, fun lc0 lc1 lc2 ca ta s rest => ?_⟩
  · have refused : ∀ {st : Status}, seekOp distance cond s.acting = (s.acting, refusedWith st) →
        Refused (.seek tag distance cond) 0x17 tag st s := fun op => refused_of_op (c := .seek tag distance cond) h rfl op
    dsimp only
    split
    · next out => exact refused (seekOp_range out)
    · next within =>
      obtain ⟨k, hk, op⟩ := seekOp_inRange (s := s.acting) within
      rw [moveRefusal_eq, acting_mot] at op
      split
      · next line => rw [if_pos line] at op; exact refused op
      · next line =>
        rw [if_neg line] at op
        split
        · next busy => rw [if_pos busy] at op; exact refused op
        · next free =>
          rw [if_neg free] at op
          exact ⟨k, hk, answered_of_op (c := .seek tag distance cond) h rfl op⟩
  · have refused : ∀ {st : Status}, jogOp direction distance s.acting = (s.acting, refusedWith st) →
        Refused (.jog tag direction distance) 0x16 tag st s := fun op =>
      refused_of_op (c := .jog tag direction distance) h rfl op
    dsimp only
    split
    · next out => exact refused (jogOp_range out)
    · next within =>
      obtain ⟨d, hd, op⟩ := jogOp_inRange (s := s.acting) within
      rw [moveRefusal_eq, acting_mot] at op
      split
      · next line => rw [if_pos line] at op; exact refused op
      · next line =>
        rw [if_neg line] at op
        split
        · next busy => rw [if_pos busy] at op; exact refused op
        · next free =>
          rw [if_neg free] at op
          split
          · next back => exact refused (op.trans (if_pos back))
          · next ahead => exact ⟨d, hd, answered_of_op (c := .jog tag direction distance) h rfl (op.trans (if_neg ahead))⟩
  · have op := seekStopOp_eq s.acting
    rw [acting_mot] at op
    split
    · next line => exact refused_of_op (c := .seekStop tag) h rfl (op.trans (if_pos line))
    · next line =>
      rw [if_neg line] at op
      have answered := answered_of_op (c := .seekStop tag) h rfl op
      split
      · next still =>
        rwa [show (s.acting.upMot fun m => { m with seek := m.seek.suspend .stopped }) = s.acting by
          rw [State.upMot, acting_mot, Seek.suspend, if_neg still]; rfl] at answered
      · next moving =>
        rwa [show (s.acting.upMot fun m => { m with seek := m.seek.suspend .stopped }) = _ by
          rw [State.upMot, acting_mot, Seek.suspend, if_pos (by simpa using moving)]] at answered
  · have op := seekResumeOp_eq s.acting
    rw [acting_mot, acting_pq] at op
    dsimp only
    split
    · next no => exact refused_of_op (c := .seekResume tag) h rfl (op.trans (if_pos no))
    · next yes =>
      rw [if_neg yes] at op
      split
      · next back => exact refused_of_op (c := .seekResume tag) h rfl (op.trans (if_pos back))
      · next ahead =>
        rw [if_neg ahead] at op
        split
        · next left =>
          exact answered_of_op (c := .seekResume tag) h rfl (op.trans (by rw [resumeMove, acting_mot, if_pos left]; rfl))
        · next done =>
          exact answered_of_op (c := .seekResume tag) h rfl (op.trans (by rw [resumeMove, acting_mot, if_neg done]; rfl))
  · show Host.Outcome.next (seekDistance s) = _
    rw [seekDistance, if_pos moving]; rfl
  · refine ⟨_, rfl, (tickBatch_paper_mot same).trans ?_⟩
    rw [seek_count]
    by_cases hn : (s.cnt.chan.paper.take ticks).count = s.pp
    · rw [if_pos hn, if_pos (.inl hn)]
    · rw [if_neg hn]
      simp only [hn, false_or]
  · exact ⟨_, rfl, speedSample_sent rest⟩

end Sys2Proof.Machine
end

