-- ==== Sys2Proof/Proofs/HeatCommands.lean ====
section
/-! PROOF. SET_DRUM, HEAT_ON and HEAT_OFF (02 R18, R20, 03 R42, R43, 05 R83); before them the arrays over the zones. -/

namespace Sys2Proof.Machine
open Sys2Proof

/-! ## Arrays over the six zones -/

section arrays
variable {α β : Type}

@[simp] theorem ofZone_get (f : Zone → α) (z : Zone) : (Six.ofZone f).get z = f z := by cases z <;> rfl

theorem six_map_get (f : α → β) (x : Six α) (z : Zone) : (x.map f).get z = f (x.get z) := ofZone_get _ z

theorem six_ext {x y : Six α} (h : ∀ z, x.get z = y.get z) : x = y := by
  have e : ∀ v : Six α, v = Six.ofZone v.get := fun _ => rfl
  rw [e x, e y, funext h]

theorem modify_get_same (x : Six α) (z : Zone) (f : α → α) : (x.modify z f).get z = f (x.get z) := by cases z <;> rfl

theorem modify_get_ne (x : Six α) {z y : Zone} (f : α → α) (h : y ≠ z) : (x.modify z f).get y = x.get y := by
  cases z <;> cases y <;> simp_all [Six.modify, Six.set, Six.get]

theorem six_all_iff {x : Six α} {p : α → Bool} : x.all p = true ↔ ∀ z ∈ Zone.all, p (x.get z) = true := by
  have e : x.all p = (Zone.all.map x.get).all p := rfl
  rw [e]
  simp only [List.all_map, List.all_eq_true, Function.comp]

theorem six_any_iff {x : Six α} {p : α → Bool} : x.any p = true ↔ ∃ z ∈ Zone.all, p (x.get z) = true := by
  have e : x.any p = (Zone.all.map x.get).any p := rfl
  rw [e]
  simp only [List.any_map, List.any_eq_true, Function.comp]

end arrays

@[simp] theorem zonesOf_get (mask : Nat) (z : Zone) : (zonesOf mask).get z = mask.testBit z.num := ofZone_get _ z

@[simp] theorem enables_get (h : Heat) (z : Zone) : h.enables.get z = (h.zones.get z).enable := six_map_get _ _ z

/-! ## The refusals of SET_DRUM (03 R42) -/

theorem drumRange_false_iff {thAbs setpoint : Int} {offsets : Six Int} {mask : Nat} :
    drumRange thAbs setpoint offsets mask = false ↔
      setpoint < 1000 ∨ 2600 < setpoint ∨ (∃ z ∈ Zone.all, offsets.get z < -100 ∨ 100 < offsets.get z)
        ∨ (∀ z ∈ Zone.all, mask.testBit z.num = false)
        ∨ (∃ z ∈ Zone.all, mask.testBit z.num = true ∧ thAbs < setpoint + offsets.get z) := by
  have offs : offsets.all (inRange (-100) 100) = false ↔ ∃ z ∈ Zone.all, offsets.get z < -100 ∨ 100 < offsets.get z := by
    rw [← Bool.not_eq_true, six_all_iff]
    simp only [not_forall, Bool.not_eq_true, inRange_false_iff, exists_prop]
  have named : (zonesOf mask).any id = false ↔ ∀ z ∈ Zone.all, mask.testBit z.num = false := by
    rw [← Bool.not_eq_true, six_any_iff]
    simp only [zonesOf_get, id, not_exists, not_and, Bool.not_eq_true]
  have limit : (Zone.all.all fun z => !(zonesOf mask).get z || setpoint + offsets.get z ≤ thAbs) = false ↔
      ∃ z ∈ Zone.all, mask.testBit z.num = true ∧ thAbs < setpoint + offsets.get z := by
    simp only [List.all_eq_false, zonesOf_get, Bool.or_eq_true, Bool.not_eq_true', decide_eq_true_eq, not_or, not_le,
      Bool.not_eq_false]
  unfold drumRange
  simp only [Bool.and_eq_false_iff, offs, named, limit, inRange_false_iff, or_assoc]

theorem enables_ne_iff {mask : Nat} {h : Heat} :
    zonesOf mask ≠ h.enables ↔ ∃ z ∈ Zone.all, mask.testBit z.num ≠ (h.zones.get z).enable := by
  constructor
  · intro ne
    by_contra all
    refine ne (six_ext fun z => ?_)
    by_contra hz
    exact all ⟨z, mem_zones z, by simpa using hz⟩
  · rintro ⟨z, -, hz⟩ e
    exact hz (by simpa using congrArg (fun x : Six Bool => x.get z) e)

/-- SET_DRUM in its cases. -/
theorem setDrumOp_eq (setpoint : Int) (offsets : Six Int) (mask : Nat) (s : State) :
    setDrumOp setpoint offsets mask s =
      if s.heat.on = false then (s, refusedWith .state)
      else if drumRange s.par.thAbs setpoint offsets mask = false then (s, refusedWith .range)
      else if (∃ z ∈ Zone.all, mask.testBit z.num ≠ (s.heat.zones.get z).enable)
          ∧ (s.mot.line = .running ∨ s.mot.line = .stopping ∨ s.mot.line = .halting) then (s, refusedWith .state)
      else (takeDrum setpoint offsets mask s, ok) := by
  have barred : (decide (zonesOf mask ≠ s.heat.enables) && (decide (s.mot.line = .running) || decide (s.mot.line = .stopping)
      || decide (s.mot.line = .halting))) = true ↔ (∃ z ∈ Zone.all, mask.testBit z.num ≠ (s.heat.zones.get z).enable)
        ∧ (s.mot.line = .running ∨ s.mot.line = .stopping ∨ s.mot.line = .halting) := by
    rw [Bool.and_eq_true, decide_eq_true_eq, enables_ne_iff]
    simp only [Bool.or_eq_true, decide_eq_true_eq, or_assoc]
  have status : drumStatus setpoint offsets mask s =
      if s.heat.on = false then .state
      else if drumRange s.par.thAbs setpoint offsets mask = false then .range
      else if (∃ z ∈ Zone.all, mask.testBit z.num ≠ (s.heat.zones.get z).enable)
          ∧ (s.mot.line = .running ∨ s.mot.line = .stopping ∨ s.mot.line = .halting) then .state else .ok := by
    unfold drumStatus
    cases s.heat.on <;> cases drumRange s.par.thAbs setpoint offsets mask <;> simp only [Bool.not_true, Bool.not_false,
      if_true, if_false, Bool.false_eq_true, reduceCtorEq]
    exact if_congr barred rfl rfl
  unfold setDrumOp
  rw [status]
  by_cases off : s.heat.on = false
  · rw [if_pos off, if_pos off]
  rw [if_neg off, if_neg off]
  by_cases out : drumRange s.par.thAbs setpoint offsets mask = false
  · rw [if_pos out, if_pos out]
  rw [if_neg out, if_neg out]
  by_cases bar : (∃ z ∈ Zone.all, mask.testBit z.num ≠ (s.heat.zones.get z).enable)
      ∧ (s.mot.line = .running ∨ s.mot.line = .stopping ∨ s.mot.line = .halting)
  · rw [if_pos bar, if_pos bar]
  · rw [if_neg bar, if_neg bar]

/-- The reply of SET_DRUM carries no baud rate. -/
theorem setDrumOp_reply {setpoint : Int} {offsets : Six Int} {mask : Nat} {s t : State} {r : Reply}
    (h : setDrumOp setpoint offsets mask s = (t, r)) : r = { status := r.status, data := r.data } := by
  unfold setDrumOp at h
  split at h <;> (obtain ⟨-, rfl⟩ := Prod.mk.inj h; rfl)

theorem setEnable_eq (r : ZoneRec) (e : Bool) (o : Int) :
    { r.setEnable e with offset := o } =
      if e = r.enable then { r with offset := o } else if e = true then { r.enabled with offset := o }
      else { r.disabled with offset := o } := by
  unfold ZoneRec.setEnable
  by_cases h : r.enable = e
  · rw [if_pos h, if_pos h.symm]
  · rw [if_neg h, if_neg (Ne.symm h)]
    cases e <;> rfl

theorem takeDrum_get (setpoint : Int) (offsets : Six Int) (mask : Nat) (s : State) (z : Zone) :
    (takeDrum setpoint offsets mask s).heat.zones.get z =
      { (s.heat.zones.get z).setEnable (mask.testBit z.num) with offset := offsets.get z } := by
  rw [takeDrum, State.upHeat_heat, ofZone_get, zonesOf_get]

/-! ## HEAT_ON and HEAT_OFF (02 R18, R20, 03 R43, 05 R83) -/

theorem latched_iff (s : State) : s.latched = true ↔ s.flt.latch ≠ none := by
  unfold State.latched
  cases s.flt.latch <;> simp

theorem heatOnOp_eq (setpoint : Int) (offsets : Six Int) (mask : Nat) (s : State) :
    heatOnOp setpoint offsets mask s =
      if drumRange s.par.thAbs setpoint offsets mask = false then (s, refusedWith .range)
      else if s.flt.latch ≠ none ∨ s.mot.line = .halting ∨ s.mot.line = .faulted then (s, refusedWith .state)
      else if s.mot.line = .off then (setLine .warming .heatOn (takeHeatOn setpoint offsets mask s), ok)
      else setDrumOp setpoint offsets mask s := by
  unfold heatOnOp
  cases drumRange s.par.thAbs setpoint offsets mask
  · rfl
  · simp only [Bool.not_true, Bool.false_eq_true, if_false, reduceCtorEq, latched_iff]
    by_cases hl : s.flt.latch ≠ none
    · rw [if_pos hl, if_pos (.inl hl)]
    · rw [if_neg hl]
      cases hs : s.mot.line <;> simp [hl]

theorem heatOffOp_eq (s : State) :
    heatOffOp s =
      if s.mot.line = .off then (s, ok)
      else if s.mot.line = .running ∨ s.mot.line = .stopping ∨ s.mot.line = .halting
          ∨ s.mot.line = .threading ∧ (0 < s.mot.vref ∨ s.mot.seek.state = .moving) then (s, refusedWith .state)
      else (heatOffLine s, ok) := by
  unfold heatOffOp
  cases s.mot.line <;> simp

theorem heatOffLine_mot (s : State) : (heatOffLine s).mot = { s.mot with line := .off } := setLine_mot _ _ _

theorem heatOffLine_heat (s : State) : (heatOffLine s).heat = s.heat.turnOff := setLine_keeps .heat (by decide)

theorem heatOffLine_ten (s : State) : (heatOffLine s).ten = s.ten.map LoopRec.toOff := setLine_keeps .ten (by decide)

/-- Settles O21: each operation by its equation, the refusals through what the range check says zone by zone. -/
theorem heatCommandsAct : Obligations.HeatCommandsAct := by
  refine ⟨fun tag setpoint offsets mask s h => ?_, fun tag setpoint offsets mask s h => ?_, fun tag s h => ?_⟩
  · have op := setDrumOp_eq setpoint offsets mask s.acting
    rw [acting_heat, acting_par, acting_mot] at op
    have refused : ∀ {st : Status}, setDrumOp setpoint offsets mask s.acting = (s.acting, refusedWith st) →
        Refused (.setDrum tag setpoint offsets mask) 0x20 tag st s := fun op =>
      refused_of_op (c := .setDrum tag setpoint offsets mask) h rfl op
    dsimp only
    split
    · next off => exact refused (op.trans (if_pos off))
    · next on =>
      rw [if_neg on] at op
      split
      · next out => exact refused (op.trans (if_pos (drumRange_false_iff.mpr out)))
      · next within =>
        rw [if_neg (mt drumRange_false_iff.mp within)] at op
        split
        · next barred => exact refused (op.trans (if_pos barred))
        · next free =>
          refine ⟨_, answered_of_op (c := .setDrum tag setpoint offsets mask) h rfl (op.trans (if_neg free)), upHeat_keeps,
            rfl, rfl, fun z => ?_⟩
          rw [takeDrum_get, setEnable_eq]
          rfl
  · have op := heatOnOp_eq setpoint offsets mask s.acting
    rw [acting_par, acting_latch, acting_mot] at op
    have refused : ∀ {st : Status}, heatOnOp setpoint offsets mask s.acting = (s.acting, refusedWith st) →
        Refused (.heatOn tag setpoint offsets mask) 0x10 tag st s := fun op =>
      refused_of_op (c := .heatOn tag setpoint offsets mask) h rfl op
    dsimp only
    split
    · next out => exact refused (op.trans (if_pos out))
    · next within =>
      rw [if_neg within] at op
      split
      · next bar => exact refused (op.trans (if_pos (bar.imp id .inl)))
      · next free =>
        split
        · next off =>
          rw [if_neg (by rintro (k | k | k) <;> simp_all), if_pos off] at op
          have heat : (setLine .warming .heatOn (takeHeatOn setpoint offsets mask s.acting)).heat =
              (takeHeatOn setpoint offsets mask s.acting).heat := setLine_keeps .heat (by decide)
          refine ⟨_, answered_of_op (c := .heatOn tag setpoint offsets mask) h rfl op,
            keeps_seq upHeat_keeps setLine_keeps (by decide) (by decide), setLine_mot _ _ _, ?_, fun z => ?_⟩
          · rw [heat]; rfl
          · rw [heat, takeHeatOn, State.upHeat_heat, ofZone_get, zonesOf_get]; rfl
        · next on =>
          intro notFaulted t r e
          rw [if_neg (by rintro (k | k | k) <;> simp_all), if_neg on, e] at op
          exact answered_of_op (c := .heatOn tag setpoint offsets mask) h rfl
            (op.trans (congrArg (Prod.mk t) (setDrumOp_reply e)))
  · have op := heatOffOp_eq s.acting
    rw [acting_mot] at op
    dsimp only
    split
    · next off => exact answered_of_op (c := .heatOff tag) h rfl (op.trans (if_pos off))
    · next on =>
      rw [if_neg on] at op
      split
      · next bar => exact refused_of_op (c := .heatOff tag) h rfl (op.trans (if_pos bar))
      · next free =>
        refine ⟨_, answered_of_op (c := .heatOff tag) h rfl (op.trans (if_neg free)), heatOffLine_keeps, heatOffLine_mot _,
          setLine_latch _ _ _, ?_⟩
        rw [heatOffLine_heat, heatOffLine_ten]
        exact ⟨rfl, rfl, rfl, rfl, rfl, rfl, rfl, rfl, rfl, fun z => six_map_get _ _ z, fun l => loops_get_map _ _ l⟩

end Sys2Proof.Machine
end

