-- ==== Sys2Proof/Proofs/ZoneEvents.lean ====
section
/-! PROOF. One zone of the heat controller, and the zone events (03 R45, R46, R51, R53). -/

namespace Sys2Proof.Machine
open Sys2Proof

/-! ## One zone -/

theorem updZone_get_same (z : Zone) (f : ZoneRec → ZoneRec) (s : State) :
    (updZone z f s).heat.zones.get z = f (s.heat.zones.get z) := modify_get_same _ z f

@[simp] theorem warn_heat (w : Warning) (s : State) : (warn w s).heat = s.heat := warn_keeps .heat (by decide)

/-- The line states in which ZONE_SENSOR is critical (03 R46). -/
def sensorCritical (line : LineState) : Bool := line = .running || line = .stopping

@[simp] theorem sensorCritical_iff {line : LineState} :
    sensorCritical line = true ↔ line = .running ∨ line = .stopping := by
  simp only [sensorCritical, Bool.or_eq_true, decide_eq_true_eq]

/-- A zone reported LOST (03 R46). -/
def ZoneRec.reported (line : LineState) (r : ZoneRec) : ZoneRec :=
  if sensorCritical line then { r with raised := true } else r

theorem raiseZoneSensor_get (z : Zone) (line : LineState) (s : State) :
    (raiseZoneSensor z line s).heat.zones.get z = (s.heat.zones.get z).reported line := by
  unfold raiseZoneSensor ZoneRec.reported sensorCritical
  split
  · rw [raise_heat, updZone_get_same]
  · rw [warn_heat]

theorem raiseZoneSensor_critical {z : Zone} {line : LineState} (s : State) (h : line = .running ∨ line = .stopping) :
    FaultTaken .zoneSensor (some z.num) s (raiseZoneSensor z line s) := by
  unfold raiseZoneSensor
  rw [if_pos (by simpa using h)]
  exact raise_faultTaken .zoneSensor (some z.num) (updZone z (fun r => { r with raised := true }) s)

theorem raiseZoneSensor_warns {z : Zone} {line : LineState} (s : State) (h : ¬(line = .running ∨ line = .stopping)) :
    raiseZoneSensor z line s = warn (.zoneSensor z) s := if_neg (by simpa using h)

theorem goLost_get (z : Zone) (line : LineState) (s : State) :
    (goLost z line s).heat.zones.get z = (s.heat.zones.get z).enterLost.reported line := by
  unfold goLost
  rw [raiseZoneSensor_get, updZone_get_same]

/-- Being reported leaves the zone but for the raised flag. -/
theorem reported_eq (line : LineState) (r : ZoneRec) : r.reported line = { r with raised := (r.reported line).raised } := by
  unfold ZoneRec.reported
  split <;> rfl

theorem reported_raised {line : LineState} (h : line = .running ∨ line = .stopping) (r : ZoneRec) :
    (r.reported line).raised = true := by
  rw [ZoneRec.reported, if_pos (sensorCritical_iff.mpr h)]

theorem histAverage_eq (l : List Int) : histAverage l = if l = [] then 0 else l.sum / l.length := rfl

theorem allInBand_iff (h : Heat) :
    h.allInBand = true ↔ ∀ z, (h.zones.get z).enable = true → (h.zones.get z).inBand = true := by
  unfold Heat.allInBand
  simp only [List.all_eq_true, Bool.or_eq_true, Bool.not_eq_true', mem_zones, true_implies]
  exact forall_congr' fun z => by cases (h.zones.get z).enable <;> simp

/-! ## The findings (02 R19) -/

theorem findings_mot (far : Bool) (s : State) :
    (findings far s).mot =
      if s.mot.line = .warming ∧ s.heat.ready = true then { s.mot with line := .ready }
      else if s.mot.line = .ready ∧ far = true then { s.mot with line := .warming }
      else s.mot := by
  unfold findings
  split
  · next warming =>
    rw [warming]
    split
    · next r => rw [setLine_mot, if_pos ⟨rfl, r⟩]
    · next r => rw [if_neg fun c => r c.2, if_neg fun c => nomatch c.1]
  · next ready =>
    rw [ready]
    split
    · next f => rw [setLine_mot]; simp [f]
    · next f => simp [f]
  · next w r => rw [if_neg fun c => w c.1, if_neg fun c => r c.1]

@[simp] theorem findings_heat (far : Bool) (s : State) : (findings far s).heat = s.heat := findings_keeps .heat (by decide)

/-- Settles O23: each event in the branch that counts, through what its operation does to the one zone. -/
theorem zoneEventsAct : Obligations.ZoneEventsAct := by
  refine ⟨fun z s on enabled normal counting => ?_, fun z s held => ?_, fun s on runs ⟨z, enabled, out⟩ => ?_,
    fun s on runs banded => ?_, fun z s short count => ?_⟩
  · have acts : zoneHold z s =
        updZone z (fun r => if r.overheat then { r.enterHold with demand := 0 } else r.enterHold) s :=
      if_pos (by simp [on, enabled, normal, counting])
    refine ⟨_, rfl, zoneHold_keeps, ?_⟩
    rw [acts, updZone_get_same]
    cases hot : (s.heat.zones.get z).overheat
    · exact ⟨rfl, rfl, rfl, rfl, by simp [ZoneRec.enterHold, histAverage_eq]⟩
    · exact ⟨rfl, rfl, rfl, rfl, by simp⟩
  · have acts : zoneSensor z s = goLost z s.mot.line s := if_pos held
    refine ⟨_, rfl, zoneSensor_keeps, ?_⟩
    rw [acts]
    have zone := goLost_get z s.mot.line s
    refine ⟨by rw [zone, reported_eq]; rfl, by rw [zone, reported_eq]; rfl, by rw [zone, reported_eq]; rfl,
      by rw [zone, reported_eq]; rfl, by rw [zone, reported_eq]; rfl, by rw [zone, reported_eq]; rfl, ?_⟩
    split
    · next critical =>
      exact ⟨raiseZoneSensor_critical (updZone z ZoneRec.enterLost s) critical, zone ▸ reported_raised critical _⟩
    · next calm =>
      rw [goLost, raiseZoneSensor_warns _ calm]
      exact ⟨notice_mot _ _, notice_latch _ _,
        fun room => congrArg State.flt (notice_room (s := updZone z ZoneRec.enterLost s) room)⟩
  · have no : s.heat.allInBand ≠ true := fun all => by
      rw [(allInBand_iff s.heat).mp all z enabled] at out
      exact nomatch out
    exact congrArg Host.Outcome.next (if_neg fun c => no (Bool.and_eq_true _ _ ▸ c).2)
  · have acts : readiness s =
        findings false (s.upHeat fun h => { h with settle := settleAt s.par.tSettle h.settle, ready := true }) :=
      if_pos (by simp [on, runs, (allInBand_iff s.heat).mpr banded])
    refine ⟨_, rfl, readiness_keeps, ?_⟩
    rw [acts, findings_heat, findings_mot]
    exact ⟨rfl, by simp⟩
  · have limit : shortLimit s.heat.freq = if s.heat.freq = .hz60 then 600 else 500 := by
      cases s.heat.freq <;> rfl
    have acts : zoneShortfall z s =
        warn (.zoneShortfall z) (updZone z (fun r => { r with shortCount := shortLimit s.heat.freq }) s) :=
      if_pos (by simp [short, limit, count])
    refine ⟨_, rfl, zoneShortfall_keeps, ?_⟩
    rw [acts, warn_heat, updZone_get_same]
    exact ⟨limit, fun room => congrArg State.flt (notice_room (n := .warning (.zoneShortfall z))
      (s := updZone z (fun r => { r with shortCount := shortLimit s.heat.freq }) s) room)⟩

end Sys2Proof.Machine
end

