-- ==== Sys2Proof/Proofs/ZoneStages.lean ====
section
/-! PROOF. What the stages of the temperature sample do with one zone (03 R44 to R51), and with the faults it raises. -/

namespace Sys2Proof.Machine
open Sys2Proof

/-! ## A zone through the stages

Each stage as a function of the zone's own record; the heat controller gives its setpoint and whether heat is on. -/

/-- The zone is over its limits (03 R49). -/
def ZoneRec.over (thAbs : Int) (h : Heat) (r : ZoneRec) : Bool :=
  thAbs < r.lastValid || (h.on && r.enable && h.setpoint + r.offset + Config.overBand < r.lastValid)

/-- An INVALID reading has been counted (03 R45). -/
def ZoneRec.counted (r : ZoneRec) : ZoneRec := { r with invalid := satAdd Config.invalidRun r.invalid 1 }

/-- Its sensor state has been judged (03 R45, R46). -/
def ZoneRec.sensed (line : LineState) (h : Heat) (r : ZoneRec) : ZoneRec :=
  if !h.on || !r.enable then r
  else if r.valid = some true then
    { r with
      invalid := 0
      raised := r.sensor = .normal && r.raised
      hold := if r.sensor = .normal then r.hold else .stopped
      sensor := .normal }
  else
    match r.sensor with
    | .normal => if satAdd Config.invalidRun r.invalid 1 = Config.invalidRun then r.counted.enterHold else r.counted
    | .hold => if r.hold.heldOut then r.counted.enterLost.reported line else r.counted
    | .lost => if (line = .running || line = .stopping) && !r.raised then r.counted.reported line else r.counted

/-- Its limits have been judged (03 R49). -/
def ZoneRec.limited (thAbs : Int) (h : Heat) (r : ZoneRec) : ZoneRec :=
  if r.over thAbs h then { r.noCredit with overheat := true, demand := 0, ssr := r.ssr && r.overheat }
  else { r with overheat := false }

/-- The zone is judged cold, the line state being `line` (03 R50). -/
def ZoneRec.coldNow (line : LineState) (h : Heat) (r : ZoneRec) : Bool :=
  line = .running && if r.enable && r.valid = some true then decide (r.lastValid < h.setpoint + r.offset - Config.coldBand)
    else r.cold

/-- Its demand has been taken (03 R48). -/
def ZoneRec.driven (p : Params) (h : Heat) (r : ZoneRec) : ZoneRec :=
  if h.on && r.enable && r.valid = some true then
    if r.overheat then { r with demand := 0, hist := pushDemand r.hist 0 }
    else r.control (h.setpoint + r.offset - r.lastValid) p.kP p.kI
  else r

/-- The zone lies within `band` of its setpoint, or not (03 R51). -/
def ZoneRec.usable (r : ZoneRec) : Bool := r.enable && r.sensor = .normal && r.valid = some true

/-- The zone after the stages that raise faults. -/
def ZoneRec.judged (line : LineState) (p : Params) (h : Heat) (r : ZoneRec) : ZoneRec :=
  let q := (r.sensed line h).limited p.thAbs h
  { q with cold := q.coldNow line h }

/-! ## What a stage may do with the faults -/

/-- What holds of the fault monitor, the line and the parameters over stages that may raise faults or warnings: with the
latch still empty, the motion controller is as it was. -/
structure Judges (s t : State) : Prop where
  reports : Reports s t
  line : s.mot.line = .halting ∨ s.mot.line = .faulted → t.mot.line = .halting ∨ t.mot.line = .faulted
  calm : t.flt.latch = none → t.mot = s.mot
  par : t.par = s.par
  cnt : t.cnt = s.cnt

theorem Judges.trans {s t u : State} (h : Judges s t) (k : Judges t u) : Judges s u where
  reports := h.reports.trans k.reports
  line := k.line ∘ h.line
  calm := fun empty => (k.calm empty).trans (h.calm (k.reports.latch_none empty))
  par := k.par.trans h.par
  cnt := k.cnt.trans h.cnt

/-- An operation that touches none of the blocks spoken of. -/
theorem judges_of_keeps {l : List Block} {s t : State} (k : Keeps l s t) (h : ∀ x ∈ [Block.flt, .mot, .par, .cnt], x ∉ l) :
    Judges s t where
  reports := (posts_of_keeps k (h _ (by decide))).reports
  line := fun fault => (k .mot (h _ (by decide))).symm ▸ fault
  calm := fun _ => k .mot (h _ (by decide))
  par := k .par (h _ (by decide))
  cnt := k .cnt (h _ (by decide))

theorem judges_refl {s : State} : Judges s s := judges_of_keeps (keeps_refl (l := [])) (by decide)

theorem updZone_judges {z : Zone} {f : ZoneRec → ZoneRec} {s : State} : Judges s (updZone z f s) :=
  judges_of_keeps updZone_keeps (by decide)

theorem raise_judges {c : Cause} {i : Option Nat} {s : State} : Judges s (raise c i s) where
  reports := raise_reports c i s
  line := fun _ => (raise_faultTaken c i s).2 ▸ faultLine_fault _ _
  calm := fun empty => absurd empty (raise_latch_ne c i s)
  par := raise_par c i s
  cnt := raise_cnt c i s

theorem warn_judges {w : Warning} {s : State} : Judges s (warn w s) where
  reports := warn_posts.reports
  line := fun fault => (notice_mot _ s).symm ▸ fault
  calm := fun _ => notice_mot _ s
  par := notice_par _ s
  cnt := notice_cnt _ s

theorem judges_ite {c : Prop} [Decidable c] {s t u : State} (h : Judges s t) (k : Judges s u) :
    Judges s (if c then t else u) := by
  split <;> assumption

theorem raiseZoneSensor_judges {z : Zone} {line : LineState} {s : State} : Judges s (raiseZoneSensor z line s) :=
  judges_ite (updZone_judges.trans raise_judges) warn_judges

theorem goLost_judges {z : Zone} {line : LineState} {s : State} : Judges s (goLost z line s) :=
  updZone_judges.trans raiseZoneSensor_judges

/-- A fault raised stays raised over what may follow in the sample. -/
theorem Raised.later {c : Cause} {i : Option Nat} {s t u : State} (h : Raised c i s t) (r : Reports t u)
    (line : t.mot.line = .halting ∨ t.mot.line = .faulted → u.mot.line = .halting ∨ u.mot.line = .faulted) :
    Raised c i s u := by
  obtain ⟨⟨x, latch, why⟩, fault⟩ := h
  exact ⟨⟨x, r.latch x latch, why.imp id (r.further c)⟩, line fault⟩

theorem Raised.judged {c : Cause} {i : Option Nat} {s t u : State} (h : Raised c i s t) (k : Judges t u) : Raised c i s u :=
  h.later k.reports k.line

/-- ZONE_SENSOR is reported: as a critical fault where it is one, else as a warning (03 R46). -/
def SensorReported (z : Zone) (line : LineState) (s t : State) : Prop :=
  if line = .running ∨ line = .stopping then Raised .zoneSensor (some z.num) s t else Noticed (.warning (.zoneSensor z)) s t

theorem raiseZoneSensor_reported {z : Zone} {line : LineState} {s u : State} (h : Judges s u) :
    SensorReported z line s (raiseZoneSensor z line u) := by
  unfold SensorReported
  split
  · next critical =>
    unfold raiseZoneSensor
    rw [if_pos (by simpa using critical)]
    exact raise_raised (h.trans updZone_judges).reports
  · next calm =>
    rw [raiseZoneSensor_warns u calm]
    have told := notice_noticed (.warning (.zoneSensor z)) u
    unfold Noticed at told ⊢
    rwa [h.cnt] at told

theorem SensorReported.later {z : Zone} {line : LineState} {s t u : State} (h : SensorReported z line s t) (r : Reports t u)
    (fault : t.mot.line = .halting ∨ t.mot.line = .faulted → u.mot.line = .halting ∨ u.mot.line = .faulted) :
    SensorReported z line s u := by
  unfold SensorReported at h ⊢
  split at h
  · next critical => rw [if_pos critical]; exact h.later r fault
  · next calm => rw [if_neg calm]; exact h.of_posts r.frames r.dropped

/-! ## Stages that run over the zones -/

/-- The heat controller with other zone records. -/
def Heat.withZones (h : Heat) (zones : Six ZoneRec) : Heat := { h with zones := zones }

/-- The stage does `f` to the zone it is run at and leaves the rest of the heat controller. -/
structure ZoneWise (stage : State → Zone → State) (f : Params → Heat → ZoneRec → ZoneRec) : Prop where
  heat : ∀ s z, (stage s z).heat = s.heat.withZones (s.heat.zones.modify z (f s.par s.heat))
  blind : ∀ p h (zones : Six ZoneRec), f p (h.withZones zones) = f p h
  judges : ∀ s z, Judges s (stage s z)

section
variable {stage : State → Zone → State} {f : Params → Heat → ZoneRec → ZoneRec}

theorem ZoneWise.foldl_judges (w : ZoneWise stage f) (l : List Zone) (s : State) : Judges s (l.foldl stage s) := by
  induction l generalizing s with
  | nil => exact judges_refl
  | cons z l ih => exact (w.judges s z).trans (ih _)

theorem ZoneWise.foldl_heat (w : ZoneWise stage f) {l : List Zone} (nodup : l.Nodup) (s : State) :
    (l.foldl stage s).heat = s.heat.withZones
      (Six.ofZone fun z => if z ∈ l then f s.par s.heat (s.heat.zones.get z) else s.heat.zones.get z) := by
  induction l generalizing s with
  | nil => rfl
  | cons z l ih =>
    obtain ⟨new, nodup⟩ := List.nodup_cons.mp nodup
    rw [List.foldl_cons, ih nodup, (w.judges s z).par, w.heat, w.blind]
    refine congrArg s.heat.withZones (six_ext fun y => ?_)
    rw [ofZone_get, ofZone_get, Heat.withZones]
    by_cases same : y = z
    · subst same
      rw [if_neg new, if_pos List.mem_cons_self, modify_get_same]
    · rw [modify_get_ne _ _ same]
      simp [same]

/-- A stage over the six zones. -/
theorem ZoneWise.all_heat (w : ZoneWise stage f) (s : State) :
    (Zone.all.foldl stage s).heat = s.heat.withZones (Six.ofZone fun z => f s.par s.heat (s.heat.zones.get z)) := by
  rw [w.foldl_heat (by decide)]
  simp only [mem_zones, if_true]

/-- The stage comes to each zone once, and finds it as it stood. -/
theorem ZoneWise.reaches (w : ZoneWise stage f) (s : State) (z : Zone) :
    ∃ u, Judges s u ∧ Judges (stage u z) (Zone.all.foldl stage s) ∧ u.heat.zones.get z = s.heat.zones.get z
      ∧ ∃ zones, u.heat = s.heat.withZones zones := by
  obtain ⟨before, after, all, new⟩ := List.eq_append_cons_of_mem (mem_zones z)
  have nodup : before.Nodup := by
    have all_nodup : Zone.all.Nodup := by decide
    rw [all] at all_nodup
    exact (List.nodup_append.mp all_nodup).1
  refine ⟨before.foldl stage s, w.foldl_judges before s, ?_, ?_, _, w.foldl_heat nodup s⟩
  · rw [all, List.foldl_append, List.foldl_cons]
    exact w.foldl_judges after _
  · rw [w.foldl_heat nodup, Heat.withZones, ofZone_get, if_neg new]

end

/-! ## The three stages -/

/-- Nothing of the heat controller but the record of zone `z` differs. -/
def Lone (z : Zone) (s t : State) : Prop := ∃ r, t.heat = s.heat.withZones (s.heat.zones.set z r)

theorem set_get (x : Six ZoneRec) (z : Zone) : x.set z (x.get z) = x := by cases z <;> rfl

theorem lone_of_heat {z : Zone} {s t : State} (h : t.heat = s.heat) : Lone z s t :=
  ⟨s.heat.zones.get z, by rw [set_get, h]; rfl⟩

theorem updZone_lone {z : Zone} {f : ZoneRec → ZoneRec} {s : State} : Lone z s (updZone z f s) := ⟨_, rfl⟩

theorem Lone.trans {z : Zone} {s t u : State} (h : Lone z s t) (k : Lone z t u) : Lone z s u := by
  obtain ⟨r, h⟩ := h
  obtain ⟨q, k⟩ := k
  refine ⟨q, ?_⟩
  rw [k, h]
  cases z <;> rfl

theorem lone_ite {z : Zone} {c : Prop} [Decidable c] {s t u : State} (h : Lone z s t) (k : Lone z s u) :
    Lone z s (if c then t else u) := by
  split <;> assumption

theorem raise_lone {z : Zone} {c : Cause} {i : Option Nat} {s : State} : Lone z s (raise c i s) :=
  lone_of_heat (raise_heat c i s)

theorem raiseZoneSensor_lone {z : Zone} {line : LineState} {s : State} : Lone z s (raiseZoneSensor z line s) :=
  lone_ite (updZone_lone.trans raise_lone) (lone_of_heat (warn_heat _ s))

theorem goLost_lone {z : Zone} {line : LineState} {s : State} : Lone z s (goLost z line s) :=
  updZone_lone.trans raiseZoneSensor_lone

theorem Lone.heat {z : Zone} {s t : State} {f : ZoneRec → ZoneRec} (h : Lone z s t)
    (zone : t.heat.zones.get z = f (s.heat.zones.get z)) :
    t.heat = s.heat.withZones (s.heat.zones.modify z f) := by
  obtain ⟨r, h⟩ := h
  have e : r = f (s.heat.zones.get z) := by
    rw [h] at zone
    rw [← zone]
    cases z <;> rfl
  rw [h, e]
  rfl

theorem sensorStage_get (line : LineState) (s : State) (z : Zone) :
    (sensorStage line s z).heat.zones.get z = (s.heat.zones.get z).sensed line s.heat := by
  have counts : (updZone z (fun r => { r with invalid := satAdd Config.invalidRun (s.heat.zones.get z).invalid 1 })
      s).heat.zones.get z = (s.heat.zones.get z).counted := updZone_get_same _ _ _
  unfold sensorStage ZoneRec.sensed
  dsimp only
  split
  · rfl
  split
  · rw [updZone_get_same]
  cases (s.heat.zones.get z).sensor
  case normal =>
    dsimp only
    split
    · rw [updZone_get_same, counts]
    · exact counts
  case hold =>
    dsimp only
    split
    · rw [goLost_get, counts]
    · exact counts
  case lost =>
    dsimp only
    split
    · rw [raiseZoneSensor_get, counts]
    · exact counts

theorem sensorStage_zoneWise (line : LineState) : ZoneWise (sensorStage line) fun _ h => ZoneRec.sensed line h where
  heat := fun s z => by
    refine Lone.heat ?_ (sensorStage_get line s z)
    refine lone_ite (lone_of_heat rfl) (lone_ite updZone_lone ?_)
    dsimp only
    split
    · exact lone_ite (updZone_lone.trans updZone_lone) updZone_lone
    · exact lone_ite (updZone_lone.trans goLost_lone) updZone_lone
    · exact lone_ite (updZone_lone.trans raiseZoneSensor_lone) updZone_lone
  blind := fun _ _ _ => rfl
  judges := fun s z => by
    refine judges_ite judges_refl (judges_ite updZone_judges ?_)
    dsimp only
    split
    · exact judges_ite (updZone_judges.trans updZone_judges) updZone_judges
    · exact judges_ite (updZone_judges.trans goLost_judges) updZone_judges
    · exact judges_ite (updZone_judges.trans raiseZoneSensor_judges) updZone_judges

theorem overLimits_eq (h : Heat) (thAbs : Int) (z : Zone) : h.overLimits thAbs z = (h.zones.get z).over thAbs h := rfl

theorem overheatStage_zoneWise : ZoneWise overheatStage fun p h => ZoneRec.limited p.thAbs h where
  heat := fun s z => by
    refine Lone.heat (lone_ite (lone_ite updZone_lone (updZone_lone.trans raise_lone)) updZone_lone) ?_
    unfold overheatStage ZoneRec.limited
    dsimp only
    rw [overLimits_eq]
    split
    · split
      · rw [updZone_get_same]
      · rw [raise_heat, updZone_get_same]
    · rw [updZone_get_same]
  blind := fun _ _ _ => rfl
  judges := fun s z => judges_ite (judges_ite updZone_judges (updZone_judges.trans raise_judges)) updZone_judges

theorem coldStage_zoneWise (line : LineState) :
    ZoneWise (coldStage line) fun _ h r => { r with cold := r.coldNow line h } where
  heat := fun s z => by
    refine Lone.heat (lone_ite updZone_lone (lone_ite (lone_ite (lone_ite updZone_lone (updZone_lone.trans raise_lone))
      updZone_lone) (lone_of_heat rfl))) ?_
    unfold coldStage ZoneRec.coldNow Heat.zoneSet
    dsimp only
    split
    · next idle => rw [updZone_get_same, decide_eq_false idle]; rfl
    next running =>
    rw [decide_eq_true (not_not.mp running), Bool.true_and]
    split
    · split
      · next cold =>
        rw [decide_eq_true cold]
        split
        · rw [updZone_get_same]
        · rw [raise_heat, updZone_get_same]
      · next warm => rw [updZone_get_same, decide_eq_false warm]
    · rfl
  blind := fun _ _ _ => rfl
  judges := fun s z => judges_ite updZone_judges (judges_ite (judges_ite (judges_ite updZone_judges
    (updZone_judges.trans raise_judges)) updZone_judges) judges_refl)

/-- Every zone judged, by its own record. -/
theorem judgeZones_heat (line : LineState) (s : State) :
    (judgeZones line s).heat = s.heat.withZones (Six.ofZone fun z => (s.heat.zones.get z).judged line s.par s.heat) := by
  unfold judgeZones
  rw [(coldStage_zoneWise line).all_heat, overheatStage_zoneWise.all_heat, (sensorStage_zoneWise line).all_heat,
    ((sensorStage_zoneWise line).foldl_judges _ _).par]
  refine congrArg s.heat.withZones (six_ext fun z => ?_)
  simp only [Heat.withZones, ofZone_get]
  rfl

theorem judgeZones_judges (line : LineState) (s : State) : Judges s (judgeZones line s) :=
  (((sensorStage_zoneWise line).foldl_judges _ _).trans (overheatStage_zoneWise.foldl_judges _ _)).trans
    ((coldStage_zoneWise line).foldl_judges _ _)

end Sys2Proof.Machine
end

