-- ==== Sys2Proof/Proofs/TemperatureSample.lean ====
section
/-! PROOF. TEMPERATURE_SAMPLE (03 3.3, 02 R19): what each stage writes into a zone, and the sample put together. -/

namespace Sys2Proof.Machine
open Sys2Proof

/-! ## What the stages leave of a zone -/

/-- What no stage after the reading changes. -/
structure ZoneRec.Alike (r q : ZoneRec) : Prop where
  enable : q.enable = r.enable
  offset : q.offset = r.offset
  reading : q.reading = r.reading
  valid : q.valid = r.valid
  lastValid : q.lastValid = r.lastValid

theorem ZoneRec.Alike.trans {r q p : ZoneRec} (h : r.Alike q) (k : q.Alike p) : r.Alike p where
  enable := k.enable.trans h.enable
  offset := k.offset.trans h.offset
  reading := k.reading.trans h.reading
  valid := k.valid.trans h.valid
  lastValid := k.lastValid.trans h.lastValid

theorem ZoneRec.Alike.over {r q : ZoneRec} (h : r.Alike q) (thAbs : Int) (x : Heat) : q.over thAbs x = r.over thAbs x := by
  unfold ZoneRec.over
  rw [h.lastValid, h.enable, h.offset]

/-- The sensor stage leaves the rest of the record. -/
theorem sensed_eq (line : LineState) (h : Heat) (r : ZoneRec) :
    ∃ n d s k raised c f m ssr, r.sensed line h =
      { r with
        invalid := n, demand := d, sensor := s, hold := k, raised := raised, credit := c, shortfall := f,
        shortCount := m, ssr := ssr } := by
  unfold ZoneRec.sensed
  split
  · exact ⟨_, _, _, _, _, _, _, _, _, rfl⟩
  split
  · exact ⟨_, _, _, _, _, _, _, _, _, rfl⟩
  split
  · split <;> exact ⟨_, _, _, _, _, _, _, _, _, rfl⟩
  · split
    · rw [reported_eq]; exact ⟨_, _, _, _, _, _, _, _, _, rfl⟩
    · exact ⟨_, _, _, _, _, _, _, _, _, rfl⟩
  · split
    · rw [reported_eq]; exact ⟨_, _, _, _, _, _, _, _, _, rfl⟩
    · exact ⟨_, _, _, _, _, _, _, _, _, rfl⟩

theorem sensed_alike (line : LineState) (h : Heat) (r : ZoneRec) : r.Alike (r.sensed line h) := by
  obtain ⟨_, _, _, _, _, _, _, _, _, e⟩ := sensed_eq line h r
  rw [e]
  exact ⟨rfl, rfl, rfl, rfl, rfl⟩

section
variable (line : LineState) (h : Heat) (r : ZoneRec)

@[simp] theorem sensed_integ : (r.sensed line h).integ = r.integ := by
  obtain ⟨_, _, _, _, _, _, _, _, _, e⟩ := sensed_eq line h r; rw [e]
@[simp] theorem sensed_hist : (r.sensed line h).hist = r.hist := by
  obtain ⟨_, _, _, _, _, _, _, _, _, e⟩ := sensed_eq line h r; rw [e]
@[simp] theorem sensed_overheat : (r.sensed line h).overheat = r.overheat := by
  obtain ⟨_, _, _, _, _, _, _, _, _, e⟩ := sensed_eq line h r; rw [e]
@[simp] theorem sensed_cold : (r.sensed line h).cold = r.cold := by
  obtain ⟨_, _, _, _, _, _, _, _, _, e⟩ := sensed_eq line h r; rw [e]

end

theorem sensed_idle {line : LineState} {h : Heat} {r : ZoneRec} (idle : h.on = false ∨ r.enable = false) :
    r.sensed line h = r := if_pos (by simpa using idle)

theorem sensed_valid {line : LineState} {h : Heat} {r : ZoneRec} (on : h.on = true) (enabled : r.enable = true)
    (valid : r.valid = some true) : (r.sensed line h).sensor = .normal ∧ (r.sensed line h).invalid = 0 := by
  unfold ZoneRec.sensed
  rw [if_neg (by simp [on, enabled]), if_pos valid]
  exact ⟨rfl, rfl⟩

theorem sensed_invalid {line : LineState} {h : Heat} {r : ZoneRec} (on : h.on = true) (enabled : r.enable = true)
    (invalid : r.valid ≠ some true) :
    r.sensed line h =
      match r.sensor with
      | .normal => if min 3 (r.invalid + 1) = 3 then r.counted.enterHold else r.counted
      | .hold => if r.hold.heldOut then r.counted.enterLost.reported line else r.counted
      | .lost => if (line = .running || line = .stopping) && !r.raised then r.counted.reported line else r.counted := by
  unfold ZoneRec.sensed
  rw [if_neg (by simp [on, enabled]), if_neg invalid]
  rfl

/-- The limit stage in one record. -/
theorem limited_eq (thAbs : Int) (h : Heat) (r : ZoneRec) :
    r.limited thAbs h = { r with
      overheat := r.over thAbs h
      demand := if r.over thAbs h = true then 0 else r.demand
      credit := if r.over thAbs h = true then 0 else r.credit
      shortfall := if r.over thAbs h = true then false else r.shortfall
      shortCount := if r.over thAbs h = true then 0 else r.shortCount
      ssr := if r.over thAbs h = true then r.ssr && r.overheat else r.ssr } := by
  unfold ZoneRec.limited
  cases r.over thAbs h <;> rfl

/-- The demand stage leaves the rest of the record. -/
theorem driven_eq (p : Params) (h : Heat) (r : ZoneRec) :
    ∃ d i l, r.driven p h = { r with demand := d, integ := i, hist := l } := by
  unfold ZoneRec.driven
  split
  · split <;> exact ⟨_, _, _, rfl⟩
  · exact ⟨_, _, _, rfl⟩

/-- Where the sample does not drive the zone. -/
theorem driven_idle {p : Params} {h : Heat} {r : ZoneRec} (idle : h.on = false ∨ r.enable = false ∨ r.valid ≠ some true) :
    r.driven p h = r := if_neg (by rcases idle with e | e | e <;> simp [e])

theorem driven_over {p : Params} {h : Heat} {r : ZoneRec} (on : h.on = true) (enabled : r.enable = true)
    (valid : r.valid = some true) (hot : r.overheat = true) :
    r.driven p h = { r with demand := 0, hist := pushDemand r.hist 0 } := by
  unfold ZoneRec.driven
  rw [if_pos (by simp [on, enabled, valid]), if_pos hot]

theorem driven_control {p : Params} {h : Heat} {r : ZoneRec} (on : h.on = true) (enabled : r.enable = true)
    (valid : r.valid = some true) (cool : r.overheat = false) :
    r.driven p h = r.control (h.setpoint + r.offset - r.lastValid) p.kP p.kI := by
  unfold ZoneRec.driven
  rw [if_pos (by simp [on, enabled, valid]), if_neg (by simp [cool])]

theorem pushDemand_eq (l : List Int) (d : Int) : pushDemand l d = (if l.length < 10 then l else l.tail) ++ [d] := by
  have limit : Config.demandHistory = 10 := rfl
  unfold pushDemand
  rw [limit]
  by_cases full : l.length < 10
  · rw [if_neg (by omega), if_pos full]
  · rw [if_pos (by omega), if_neg full]

theorem judged_alike (line : LineState) (p : Params) (h : Heat) (r : ZoneRec) : r.Alike (r.judged line p h) := by
  refine (sensed_alike line h r).trans ?_
  unfold ZoneRec.judged
  rw [limited_eq]
  exact ⟨rfl, rfl, rfl, rfl, rfl⟩

theorem driven_alike (p : Params) (h : Heat) (r : ZoneRec) : r.Alike (r.driven p h) := by
  obtain ⟨_, _, _, e⟩ := driven_eq p h r
  rw [e]
  exact ⟨rfl, rfl, rfl, rfl, rfl⟩

theorem over_iff {thAbs : Int} {h : Heat} {r : ZoneRec} :
    r.over thAbs h = true ↔
      thAbs < r.lastValid ∨ h.on = true ∧ r.enable = true ∧ h.setpoint + r.offset + 150 < r.lastValid := by
  unfold ZoneRec.over
  simp only [Bool.or_eq_true, Bool.and_eq_true, decide_eq_true_eq, and_assoc]
  rfl

/-! ## The reading (03 R44) -/

theorem validReading_iff {x : Option Int} : validReading x = true ↔ ∃ v, x = some v ∧ 0 ≤ v ∧ v ≤ 3000 := by
  cases x <;> simp [validReading, inRange_iff]

theorem read_valid {x : Option Int} {r : ZoneRec} :
    (r.read x).valid = some true ↔ ∃ v, x = some v ∧ 0 ≤ v ∧ v ≤ 3000 := by
  rw [← validReading_iff]
  simp [ZoneRec.read]

theorem read_some {v : Int} (r : ZoneRec) (low : 0 ≤ v) (high : v ≤ 3000) :
    r.read (some v) = { r with reading := .temp v, valid := some true, lastValid := v } := by
  have valid : validReading (some v) = true := validReading_iff.mpr ⟨v, rfl, low, high⟩
  unfold ZoneRec.read
  rw [if_pos valid, valid]
  rfl

/-! ## The heat controller after the sample -/

/-- A zone after the demand stage, having taken the reading `x`. -/
def ZoneRec.sampled (line : LineState) (p : Params) (h : Heat) (x : Option Int) (r : ZoneRec) : ZoneRec :=
  ((r.read x).judged line p h).driven p h

/-- The heat controller once every zone has its demand. -/
def Heat.sampled (line : LineState) (p : Params) (readings : Six (Option Int)) (h : Heat) : Heat :=
  h.withZones (Six.ofZone fun z => (h.zones.get z).sampled line p h (readings.get z))

theorem driveZones_heat (readings : Six (Option Int)) (s : State) :
    (driveZones (judgeZones s.mot.line (takeReadings readings s))).heat = s.heat.sampled s.mot.line s.par readings := by
  have par := (judgeZones_judges s.mot.line (takeReadings readings s)).par
  unfold driveZones
  rw [State.upHeat_heat, par, judgeZones_heat]
  refine congrArg s.heat.withZones (six_ext fun z => ?_)
  simp only [ofZone_get]
  unfold Heat.demandStage Heat.zoneSet ZoneRec.sampled ZoneRec.driven
  simp only [Heat.withZones, ofZone_get, takeReadings, State.upHeat_heat]
  rfl

theorem driveZones_par (line : LineState) (s : State) : (driveZones (judgeZones line s)).par = s.par :=
  (judgeZones_judges line s).par

/-! ## Readiness (03 R51) -/

/-- The zone lies within `band` of the setpoint of `h`. -/
def ZoneRec.banded (band : Int) (h : Heat) (r : ZoneRec) : Bool :=
  r.usable && decide (|r.lastValid - (h.setpoint + r.offset)| ≤ band)

theorem usable_iff {r : ZoneRec} :
    r.usable = true ↔ r.enable = true ∧ r.sensor = .normal ∧ r.valid = some true := by
  simp [ZoneRec.usable, and_assoc]

theorem banded_iff {band : Int} {h : Heat} {r : ZoneRec} :
    r.banded band h = true ↔ r.usable = true ∧ |r.lastValid - (h.setpoint + r.offset)| ≤ band := by
  simp [ZoneRec.banded]

/-- The in-band flags have been judged. -/
def Heat.flagged (band : Int) (h : Heat) : Heat :=
  { h with zones := Six.ofZone fun z => { h.zones.get z with inBand := (h.zones.get z).banded band h } }

theorem readyStage_eq (h : Heat) (band t : Int) :
    h.readyStage band t =
      if h.on = true then
        if (h.flagged band).allInBand = true then
          { h.flagged band with settle := settleStep h.settle, ready := settled t (settleStep h.settle) }
        else { h.flagged band with settle := .stopped, ready := false }
      else h := by
  unfold Heat.readyStage
  by_cases on : h.on = true
  · rw [if_neg (by simp [on]), if_pos on]
    rfl
  · rw [if_pos (by simp [on]), if_neg on]

theorem readyStage_get (h : Heat) (band t : Int) (z : Zone) :
    (h.readyStage band t).zones.get z =
      { h.zones.get z with
        inBand := if h.on = true then (h.zones.get z).banded band h else (h.zones.get z).inBand } := by
  rw [readyStage_eq]
  split
  · split <;> exact ofZone_get _ z
  · rfl

theorem readyStage_setpoint (h : Heat) (band t : Int) : (h.readyStage band t).setpoint = h.setpoint := by
  rw [readyStage_eq]
  split
  · split <;> rfl
  · rfl

/-- Every enabled zone of `h` lies in the ready band. -/
def Heat.banded (band : Int) (h : Heat) : Prop := ∀ z, (h.zones.get z).enable = true → (h.zones.get z).banded band h = true

/-- The settle timer and the readiness, with heat on. -/
theorem readyStage_settle {h : Heat} (on : h.on = true) (band t : Int) :
    (h.banded band → (h.readyStage band t).settle = settleStep h.settle)
      ∧ (¬h.banded band → (h.readyStage band t).settle = .stopped)
      ∧ (h.readyStage band t).ready = settled t (h.readyStage band t).settle := by
  have all : (h.flagged band).allInBand = true ↔ h.banded band := by
    rw [allInBand_iff]
    simp only [Heat.flagged, ofZone_get]
    rfl
  rw [readyStage_eq, if_pos on]
  by_cases banded : h.banded band
  · rw [if_pos (all.mpr banded)]
    exact ⟨fun _ => rfl, fun no => absurd banded no, rfl⟩
  · rw [if_neg (mt all.mp banded)]
    exact ⟨fun yes => absurd yes banded, fun _ => rfl, rfl⟩

theorem farOut_iff {h : Heat} {band : Int} :
    h.farOut band = true ↔ ∃ z ∈ Zone.all, (h.zones.get z).usable = true
      ∧ band + 50 < |(h.zones.get z).lastValid - (h.setpoint + (h.zones.get z).offset)| := by
  unfold Heat.farOut
  simp only [List.any_eq_true, Bool.and_eq_true, decide_eq_true_eq, usable_iff, and_assoc]
  rfl

/-! ## The sample put together -/

theorem heatSampled_heat (readings : Six (Option Int)) (s : State) :
    (heatSampled readings s).heat =
      (s.heat.sampled s.mot.line s.par readings).readyStage s.par.bReady s.par.tSettle := by
  have par := driveZones_par s.mot.line (takeReadings readings s)
  unfold heatSampled readyZones
  rw [State.upHeat_heat, driveZones_heat, par]
  rfl

theorem temperatureSample_heat (readings : Six (Option Int)) (s : State) :
    (temperatureSample readings s).heat =
      (s.heat.sampled s.mot.line s.par readings).readyStage s.par.bReady s.par.tSettle := by
  rw [temperatureSample_eq, ← heatSampled_heat]
  split
  · exact findings_heat _ _
  · rfl

/-- A zone after the sample: as its stages leave it, with the in-band flag. -/
theorem temperatureSample_get (readings : Six (Option Int)) (s : State) (z : Zone) :
    (temperatureSample readings s).heat.zones.get z =
      { (s.heat.zones.get z).sampled s.mot.line s.par s.heat (readings.get z) with
        inBand :=
          if s.heat.on = true then
            ((s.heat.zones.get z).sampled s.mot.line s.par s.heat (readings.get z)).banded s.par.bReady s.heat
          else ((s.heat.zones.get z).sampled s.mot.line s.par s.heat (readings.get z)).inBand } := by
  have zone : (s.heat.sampled s.mot.line s.par readings).zones.get z =
      (s.heat.zones.get z).sampled s.mot.line s.par s.heat (readings.get z) := ofZone_get _ z
  rw [temperatureSample_heat, readyStage_get, zone]
  rfl

theorem findings_posts (far : Bool) (s : State) : Posts s (findings far s) := by
  unfold findings
  split
  · exact posts_ite setLine_posts posts_refl
  · exact posts_ite setLine_posts posts_refl
  · exact posts_refl

theorem takeReadings_judges (readings : Six (Option Int)) (s : State) : Judges s (takeReadings readings s) :=
  judges_of_keeps upHeat_keeps (by decide)

theorem heatSampled_from (readings : Six (Option Int)) (s : State) :
    Judges (judgeZones s.mot.line (takeReadings readings s)) (heatSampled readings s) :=
  (judges_of_keeps (t := driveZones _) upHeat_keeps (by decide)).trans (judges_of_keeps upHeat_keeps (by decide))

theorem heatSampled_judges (readings : Six (Option Int)) (s : State) : Judges s (heatSampled readings s) :=
  ((takeReadings_judges readings s).trans (judgeZones_judges _ _)).trans (heatSampled_from readings s)

/-- What the judging of the zones has raised stays raised to the end of the sample. -/
theorem temperatureSample_from (readings : Six (Option Int)) (s : State) :
    Reports (judgeZones s.mot.line (takeReadings readings s)) (temperatureSample readings s)
      ∧ ((judgeZones s.mot.line (takeReadings readings s)).mot.line = .halting
          ∨ (judgeZones s.mot.line (takeReadings readings s)).mot.line = .faulted →
        (temperatureSample readings s).mot.line = .halting ∨ (temperatureSample readings s).mot.line = .faulted) := by
  have judged := heatSampled_from readings s
  rw [temperatureSample_eq]
  split
  · refine ⟨judged.reports.trans (findings_posts _ _).reports, fun fault => ?_⟩
    have fault := judged.line fault
    rw [findings_mot, if_neg (by rcases fault with e | e <;> simp [e]), if_neg (by rcases fault with e | e <;> simp [e])]
    exact fault
  · exact ⟨judged.reports, judged.line⟩

/-- With the latch still empty the sample has done nothing to the motion controller but what its findings say. -/
theorem temperatureSample_mot (readings : Six (Option Int)) (s : State)
    (empty : (temperatureSample readings s).flt.latch = none) :
    (temperatureSample readings s).mot = { s.mot with
      line :=
        if s.heat.on = true ∧ s.mot.line = .warming ∧ (temperatureSample readings s).heat.ready = true then .ready
        else if s.heat.on = true ∧ s.mot.line = .ready
            ∧ (temperatureSample readings s).heat.farOut s.par.bReady = true then .warming
        else s.mot.line } := by
  have on : (heatSampled readings s).heat.on = s.heat.on := by
    rw [heatSampled_heat, readyStage_on]; rfl
  have judged := heatSampled_judges readings s
  rw [temperatureSample_heat, ← heatSampled_heat]
  rw [temperatureSample_eq, on] at empty ⊢
  split at empty
  · next h =>
    have calm := judged.calm (((findings_posts _ _).latch).symm.trans empty)
    rw [if_pos h, findings_mot, calm, judged.par, h]
    simp only [true_and]
    split
    · rfl
    · split <;> rfl
  · next h =>
    rw [if_neg h, judged.calm empty, if_neg fun c => h c.1, if_neg fun c => h c.1]

/-! ## The faults of the judged zones -/

/-- OVERHEAT is raised where a zone is newly over its limits (03 R49). -/
theorem judgeZones_overheat {line : LineState} {s : State} {z : Zone}
    (hot : (s.heat.zones.get z).over s.par.thAbs s.heat = true) (new : (s.heat.zones.get z).overheat = false) :
    Raised .overheat (some z.num) s (judgeZones line s) := by
  have sensed := (sensorStage_zoneWise line).foldl_judges Zone.all s
  obtain ⟨u, before, after, zone, zones, heat⟩ :=
    overheatStage_zoneWise.reaches (Zone.all.foldl (sensorStage line) s) z
  rw [(sensorStage_zoneWise line).all_heat] at zone heat
  have zone : u.heat.zones.get z = (s.heat.zones.get z).sensed line s.heat := zone.trans (ofZone_get _ z)
  have limits : u.heat.overLimits u.par.thAbs z = true := by
    rw [overLimits_eq, zone, before.par, sensed.par, heat]
    exact ((sensed_alike line s.heat _).over s.par.thAbs s.heat).trans hot
  have raises : overheatStage u z = raise .overheat (some z.num) (updZone z (fun r =>
      { r.noCredit with overheat := true, demand := 0, ssr := r.ssr && r.overheat }) u) := by
    unfold overheatStage
    dsimp only
    rw [if_pos limits, if_neg (by simp [zone, new])]
  have raised : Raised .overheat (some z.num) s (overheatStage u z) :=
    raises ▸ raise_raised (((sensed.trans before).trans updZone_judges).reports)
  exact (raised.judged after).judged ((coldStage_zoneWise line).foldl_judges Zone.all _)

theorem coldNow_new {line : LineState} {h : Heat} {r : ZoneRec} (cold : r.coldNow line h = true) (old : r.cold = false) :
    line = .running ∧ (r.enable && r.valid = some true) = true
      ∧ r.lastValid < h.setpoint + r.offset - Config.coldBand := by
  unfold ZoneRec.coldNow at cold
  rw [Bool.and_eq_true, decide_eq_true_eq] at cold
  obtain ⟨running, cold⟩ := cold
  split at cold
  · next read => exact ⟨running, read, of_decide_eq_true cold⟩
  · rw [old] at cold; exact nomatch cold

/-- DRUM_COLD is raised where a zone newly reads below its cold limit (03 R50). -/
theorem judgeZones_cold {line : LineState} {s : State} {z : Zone}
    (cold : ((s.heat.zones.get z).judged line s.par s.heat).cold = true) (new : (s.heat.zones.get z).cold = false) :
    Raised .drumCold (some z.num) s (judgeZones line s) := by
  have sensed := (sensorStage_zoneWise line).foldl_judges Zone.all s
  have limited := overheatStage_zoneWise.foldl_judges Zone.all (Zone.all.foldl (sensorStage line) s)
  obtain ⟨u, before, after, zone, zones, heat⟩ :=
    (coldStage_zoneWise line).reaches (Zone.all.foldl overheatStage (Zone.all.foldl (sensorStage line) s)) z
  rw [overheatStage_zoneWise.all_heat, (sensorStage_zoneWise line).all_heat, sensed.par] at zone heat
  have zone : u.heat.zones.get z = ((s.heat.zones.get z).sensed line s.heat).limited s.par.thAbs s.heat := by
    rw [zone]
    simp only [Heat.withZones, ofZone_get]
    rfl
  have old : (u.heat.zones.get z).cold = false := by
    rw [zone, limited_eq]
    exact (sensed_cold line s.heat _).trans new
  have now : (u.heat.zones.get z).coldNow line s.heat = true := zone ▸ cold
  obtain ⟨running, read, below⟩ := coldNow_new now old
  have raises : coldStage line u z =
      raise .drumCold (some z.num) (updZone z (fun r => { r with cold := true }) u) := by
    have set : u.heat.zoneSet z = s.heat.setpoint + (u.heat.zones.get z).offset := by rw [Heat.zoneSet, heat]; rfl
    unfold coldStage
    dsimp only
    rw [set, if_neg (not_not.mpr running), if_pos read, if_pos below, if_neg (by simp [old])]
  have raised : Raised .drumCold (some z.num) s (coldStage line u z) :=
    raises ▸ raise_raised ((((sensed.trans limited).trans before).trans updZone_judges).reports)
  exact raised.judged after

/-- A zone in HOLD whose hold timer has run out, and one in LOST not yet reported where that is critical, report
ZONE_SENSOR (03 R46). -/
theorem judgeZones_sensor {line : LineState} {s : State} {z : Zone} (on : s.heat.on = true)
    (enabled : (s.heat.zones.get z).enable = true) (invalid : (s.heat.zones.get z).valid ≠ some true)
    (lost : (s.heat.zones.get z).sensor = .hold ∧ (s.heat.zones.get z).hold.heldOut = true
      ∨ (s.heat.zones.get z).sensor = .lost ∧ sensorCritical line = true ∧ (s.heat.zones.get z).raised = false) :
    SensorReported z line s (judgeZones line s) := by
  obtain ⟨u, before, after, zone, zones, heat⟩ := (sensorStage_zoneWise line).reaches s z
  have idle : ¬(!u.heat.on || !(s.heat.zones.get z).enable) = true := by
    rw [heat]
    simp [Heat.withZones, on, enabled]
  have reported : SensorReported z line s (sensorStage line u z) := by
    unfold sensorStage
    dsimp only
    rw [zone, if_neg idle, if_neg invalid]
    rcases lost with ⟨hold, out⟩ | ⟨lost, critical, new⟩
    · rw [hold]
      dsimp only
      rw [if_pos out]
      exact raiseZoneSensor_reported ((before.trans updZone_judges).trans updZone_judges)
    · rw [lost]
      dsimp only
      rw [if_pos (by simpa [new] using critical)]
      exact raiseZoneSensor_reported (before.trans updZone_judges)
  have later := (after.trans (overheatStage_zoneWise.foldl_judges Zone.all _)).trans
    ((coldStage_zoneWise line).foldl_judges Zone.all _)
  exact reported.later later.reports later.line

end Sys2Proof.Machine
end

