-- ==== Sys2Proof/Proofs/TemperatureSampleHolds.lean ====
section
/-! PROOF. What TEMPERATURE_SAMPLE leaves of a zone in each case, and its statement (03 R44 to R51, 02 R19). -/

namespace Sys2Proof.Machine
open Sys2Proof

/-! ## A zone after the sample, case by case -/

theorem coldNow_congr {line : LineState} {h : Heat} {r q : ZoneRec} (a : r.Alike q) (cold : q.cold = r.cold) :
    q.coldNow line h = r.coldNow line h := by
  unfold ZoneRec.coldNow
  rw [a.enable, a.valid, a.lastValid, a.offset, cold]

/-- The record judged, by what the sensor stage left. -/
theorem judged_eq (line : LineState) (p : Params) (h : Heat) (r : ZoneRec) :
    r.judged line p h = { r.sensed line h with
      overheat := r.over p.thAbs h
      demand := if r.over p.thAbs h = true then 0 else (r.sensed line h).demand
      credit := if r.over p.thAbs h = true then 0 else (r.sensed line h).credit
      shortfall := if r.over p.thAbs h = true then false else (r.sensed line h).shortfall
      shortCount := if r.over p.thAbs h = true then 0 else (r.sensed line h).shortCount
      ssr := if r.over p.thAbs h = true then (r.sensed line h).ssr && r.overheat else (r.sensed line h).ssr
      cold := r.coldNow line h } := by
  have alike := sensed_alike line h r
  have limited := limited_eq p.thAbs h (r.sensed line h)
  have cold : ((r.sensed line h).limited p.thAbs h).coldNow line h = r.coldNow line h := by
    refine coldNow_congr (alike.trans ?_) ?_
    · rw [limited]
      exact ⟨rfl, rfl, rfl, rfl, rfl⟩
    · rw [limited]
      exact sensed_cold line h r
  unfold ZoneRec.judged
  dsimp only
  rw [cold, limited, alike.over, sensed_overheat]

section
variable (line : LineState) (p : Params) (h : Heat) (x : Option Int) (r : ZoneRec)

theorem sampled_alike : (r.read x).Alike (r.sampled line p h x) := (judged_alike line p h _).trans (driven_alike p h _)

theorem sampled_overheat : (r.sampled line p h x).overheat = (r.read x).over p.thAbs h := by
  obtain ⟨_, _, _, e⟩ := driven_eq p h ((r.read x).judged line p h)
  rw [ZoneRec.sampled, e, judged_eq]

theorem sampled_cold : (r.sampled line p h x).cold = (r.read x).coldNow line h := by
  obtain ⟨_, _, _, e⟩ := driven_eq p h ((r.read x).judged line p h)
  rw [ZoneRec.sampled, e, judged_eq]

end

section
variable {line : LineState} {p : Params} {h : Heat} {x : Option Int} {r : ZoneRec}

/-- A zone over its limits has no demand, credit or SHORTFALL (03 R49). -/
theorem sampled_over (hot : (r.read x).over p.thAbs h = true) :
    (r.sampled line p h x).demand = 0 ∧ (r.sampled line p h x).credit = 0 ∧ (r.sampled line p h x).shortfall = false := by
  have judged := judged_eq line p h (r.read x)
  rw [hot] at judged
  unfold ZoneRec.sampled ZoneRec.driven
  split
  · rw [if_pos (by rw [judged])]
    rw [judged]
    exact ⟨rfl, rfl, rfl⟩
  · rw [judged]
    exact ⟨rfl, rfl, rfl⟩

/-- A zone not driven keeps its sensor state and its controller (03 R45, R48). -/
theorem sampled_idle (idle : h.on = false ∨ r.enable = false) :
    (r.sampled line p h x).sensor = r.sensor ∧ (r.sampled line p h x).hold = r.hold
      ∧ (r.sampled line p h x).integ = r.integ ∧ (r.sampled line p h x).hist = r.hist
      ∧ (r.sampled line p h x).invalid = r.invalid := by
  have judged := judged_eq line p h (r.read x)
  rw [sensed_idle (r := r.read x) idle] at judged
  have enable : ((r.read x).judged line p h).enable = r.enable := (judged_alike line p h (r.read x)).enable
  rw [ZoneRec.sampled, driven_idle (idle.imp id fun e => .inl (enable.trans e)), judged]
  exact ⟨rfl, rfl, rfl, rfl, rfl⟩

/-- An enabled zone within its limits, with heat on and a VALID reading (03 R48). -/
theorem sampled_control {v : Int} (on : h.on = true) (enabled : r.enable = true) (low : 0 ≤ v) (high : v ≤ 3000)
    (cool : (r.read (some v)).over p.thAbs h = false) :
    let q := r.sampled line p h (some v)
    let c := r.control (h.setpoint + r.offset - v) p.kP p.kI
    q.demand = c.demand ∧ q.integ = c.integ ∧ q.hist = c.hist ∧ q.sensor = .normal ∧ q.invalid = 0
      ∧ q.overheat = false := by
  have judged := judged_eq line p h (r.read (some v))
  have alike := judged_alike line p h (r.read (some v))
  rw [cool] at judged
  rw [read_some r low high] at judged alike
  obtain ⟨sensor, invalid⟩ := sensed_valid (line := line) (h := h)
    (r := { r with reading := .temp v, valid := some true, lastValid := v }) on enabled rfl
  have integ := sensed_integ line h { r with reading := .temp v, valid := some true, lastValid := v }
  have hist := sensed_hist line h { r with reading := .temp v, valid := some true, lastValid := v }
  unfold ZoneRec.sampled
  rw [read_some r low high, driven_control on (alike.enable.trans enabled) alike.valid (by rw [judged]),
    alike.offset, alike.lastValid, judged]
  unfold ZoneRec.control
  dsimp only at integ hist ⊢
  rw [integ, hist]
  exact ⟨rfl, rfl, rfl, sensor, invalid, rfl⟩

/-- An enabled zone over its limits, with heat on and a VALID reading (03 R48, R49). -/
theorem sampled_cut {v : Int} (on : h.on = true) (enabled : r.enable = true) (low : 0 ≤ v) (high : v ≤ 3000)
    (hot : (r.read (some v)).over p.thAbs h = true) :
    let q := r.sampled line p h (some v)
    q.integ = r.integ ∧ q.hist = pushDemand r.hist 0 ∧ q.sensor = .normal ∧ q.invalid = 0 := by
  have judged := judged_eq line p h (r.read (some v))
  have alike := judged_alike line p h (r.read (some v))
  rw [hot] at judged
  rw [read_some r low high] at judged alike
  obtain ⟨sensor, invalid⟩ := sensed_valid (line := line) (h := h)
    (r := { r with reading := .temp v, valid := some true, lastValid := v }) on enabled rfl
  have integ := sensed_integ line h { r with reading := .temp v, valid := some true, lastValid := v }
  have hist := sensed_hist line h { r with reading := .temp v, valid := some true, lastValid := v }
  unfold ZoneRec.sampled
  rw [read_some r low high, driven_over on (alike.enable.trans enabled) alike.valid (by rw [judged]), judged]
  dsimp only at integ hist ⊢
  rw [integ, hist]
  exact ⟨rfl, rfl, sensor, invalid⟩

/-- An enabled zone with heat on and an INVALID reading: the sensor stage alone, and OVERHEAT (03 R45, R46, R49). -/
theorem sampled_invalid (invalid : (r.read x).valid ≠ some true) :
    let q := r.sampled line p h x
    let n := (r.read x).sensed line h
    q.sensor = n.sensor ∧ q.hold = n.hold ∧ q.invalid = n.invalid ∧ q.raised = n.raised ∧ q.integ = r.integ
      ∧ q.hist = r.hist ∧ q.demand = (if q.overheat = true then 0 else n.demand)
      ∧ (n.credit = 0 → q.credit = 0) ∧ (n.shortfall = false → q.shortfall = false) ∧ (n.ssr = false → q.ssr = false) := by
  have valid := (judged_alike line p h (r.read x)).valid
  have integ := sensed_integ line h (r.read x)
  have hist := sensed_hist line h (r.read x)
  unfold ZoneRec.sampled
  rw [driven_idle (.inr (.inr (valid.symm ▸ invalid))), judged_eq]
  refine ⟨rfl, rfl, rfl, rfl, integ, hist, rfl, fun e => ?_, fun e => ?_, fun e => ?_⟩ <;> simp [e]

/-- The zone can be judged for the ready band (03 R51). -/
theorem sampled_usable :
    (r.sampled line p h x).usable = true ↔
      r.enable = true ∧ (r.sampled line p h x).sensor = .normal ∧ ∃ v ∈ x, 0 ≤ v ∧ v ≤ 3000 := by
  have alike := sampled_alike line p h x r
  rw [usable_iff, alike.enable, alike.valid, read_valid]
  rfl

theorem sampled_banded {band : Int} :
    (r.sampled line p h x).banded band h = true ↔
      (r.enable = true ∧ (r.sampled line p h x).sensor = .normal ∧ ∃ v ∈ x, 0 ≤ v ∧ v ≤ 3000)
        ∧ |(r.sampled line p h x).lastValid - (h.setpoint + r.offset)| ≤ band := by
  rw [banded_iff, sampled_usable, (sampled_alike line p h x r).offset]
  rfl

theorem read_coldNow_iff :
    (r.read x).coldNow line h = true ↔
      line = .running ∧ (r.enable = true ∧ (∃ v ∈ x, 0 ≤ v ∧ v ≤ 3000) → (r.read x).lastValid < h.setpoint + r.offset - 300)
        ∧ (¬(r.enable = true ∧ ∃ v ∈ x, 0 ≤ v ∧ v ≤ 3000) → r.cold = true) := by
  have read : ((r.read x).enable && decide ((r.read x).valid = some true)) = true ↔
      r.enable = true ∧ ∃ v ∈ x, 0 ≤ v ∧ v ≤ 3000 := by
    rw [Bool.and_eq_true, decide_eq_true_eq, read_valid]
    rfl
  unfold ZoneRec.coldNow
  rw [Bool.and_eq_true, decide_eq_true_eq]
  refine and_congr_right fun _ => ?_
  by_cases c : r.enable = true ∧ ∃ v ∈ x, 0 ≤ v ∧ v ≤ 3000
  · rw [if_pos (read.mpr c), decide_eq_true_eq]
    exact ⟨fun l => ⟨fun _ => l, fun n => absurd c n⟩, fun l => l.1 c⟩
  · rw [if_neg (mt read.mp c)]
    exact ⟨fun l => ⟨fun n => absurd n c, fun _ => l⟩, fun l => l.2 c⟩

/-- How an INVALID reading is counted (03 R45). -/
theorem sensed_count (on : h.on = true) (enabled : r.enable = true) (invalid : r.valid ≠ some true) :
    (r.sensed line h).invalid = min 3 (r.invalid + 1) := by
  rw [sensed_invalid on enabled invalid]
  split
  · split
    · next full => exact full.symm
    · rfl
  · split
    · rw [reported_eq]; rfl
    · rfl
  · split
    · rw [reported_eq]; rfl
    · rfl

/-- An INVALID reading of a zone in NORMAL (03 R45). -/
theorem sampled_normal (on : h.on = true) (enabled : r.enable = true) (invalid : (r.read x).valid ≠ some true)
    (normal : r.sensor = .normal) :
    let q := r.sampled line p h x
    if min 3 (r.invalid + 1) = 3 then
      q.sensor = .hold ∧ q.hold = .running 0
        ∧ q.demand = if q.overheat = true ∨ r.hist = [] then 0 else r.hist.sum / r.hist.length
    else q.sensor = .normal ∧ q.hold = r.hold ∧ q.demand = if q.overheat = true then 0 else r.demand := by
  obtain ⟨sensor, hold, -, -, -, -, demand, -⟩ := sampled_invalid (line := line) (p := p) (h := h) invalid
  have sensed := sensed_invalid (line := line) (r := r.read x) on enabled invalid
  rw [show (r.read x).sensor = .normal from normal, show (r.read x).invalid = r.invalid from rfl] at sensed
  dsimp only at sensed ⊢
  rw [sensor, hold, demand, sensed]
  split
  · refine ⟨rfl, rfl, ?_⟩
    rw [show ((r.read x).counted.enterHold).demand = histAverage r.hist from rfl, histAverage_eq]
    split
    · next hot => rw [if_pos (.inl hot)]
    · next cool => simp [cool]
  · exact ⟨normal, rfl, rfl⟩

/-- An INVALID reading of a zone in HOLD (03 R46). -/
theorem sampled_hold (on : h.on = true) (enabled : r.enable = true) (invalid : (r.read x).valid ≠ some true)
    (held : r.sensor = .hold) :
    let q := r.sampled line p h x
    if r.hold.heldOut = true then
      q.sensor = .lost ∧ q.hold = .stopped ∧ q.demand = 0 ∧ q.credit = 0 ∧ q.shortfall = false ∧ q.ssr = false
        ∧ (line = .running ∨ line = .stopping → q.raised = true)
    else q.sensor = .hold ∧ q.hold = r.hold ∧ q.demand = if q.overheat = true then 0 else r.demand := by
  obtain ⟨sensor, hold, -, raised, -, -, demand, credit, shortfall, ssr⟩ :=
    sampled_invalid (line := line) (p := p) (h := h) invalid
  have sensed := sensed_invalid (line := line) (r := r.read x) on enabled invalid
  rw [show (r.read x).sensor = .hold from held, show (r.read x).hold = r.hold from rfl] at sensed
  dsimp only at sensed ⊢
  split
  · next out =>
    rw [if_pos out] at sensed
    have lost := reported_eq line (r.read x).counted.enterLost
    rw [lost] at sensed
    rw [sensed] at sensor hold raised demand credit shortfall ssr
    refine ⟨sensor, hold, demand.trans (ite_self _), credit rfl, shortfall rfl, ssr rfl, fun critical => ?_⟩
    exact raised.trans (reported_raised critical _)
  · next runs =>
    rw [if_neg runs] at sensed
    rw [sensed] at sensor hold demand
    exact ⟨sensor.trans held, hold, demand⟩

/-- An INVALID reading of a zone in LOST (03 R46). -/
theorem sampled_lost (on : h.on = true) (enabled : r.enable = true) (invalid : (r.read x).valid ≠ some true)
    (lost : r.sensor = .lost) :
    let q := r.sampled line p h x
    q.sensor = .lost ∧ (line = .running ∨ line = .stopping → r.raised = false → q.raised = true) := by
  obtain ⟨sensor, -, -, raised, -⟩ := sampled_invalid (line := line) (p := p) (h := h) invalid
  have sensed := sensed_invalid (line := line) (r := r.read x) on enabled invalid
  rw [show (r.read x).sensor = .lost from lost, show (r.read x).raised = r.raised from rfl] at sensed
  dsimp only at sensed ⊢
  refine ⟨?_, fun critical new => ?_⟩
  · rw [sensor, sensed]
    split
    · rw [reported_eq]; exact lost
    · exact lost
  · rw [raised, sensed, if_pos (by simpa [new] using critical)]
    exact reported_raised critical _

end

/-! ## The statement -/

/-- ZONE_SENSOR, reported while the zones are judged, is reported at the end of the sample. -/
theorem temperatureSample_reports {readings : Six (Option Int)} {s : State} {z : Zone} (on : s.heat.on = true)
    (enabled : (s.heat.zones.get z).enable = true)
    (invalid : ((s.heat.zones.get z).read (readings.get z)).valid ≠ some true)
    (lost : (s.heat.zones.get z).sensor = .hold ∧ (s.heat.zones.get z).hold.heldOut = true
      ∨ (s.heat.zones.get z).sensor = .lost ∧ sensorCritical s.mot.line = true ∧ (s.heat.zones.get z).raised = false) :
    SensorReported z s.mot.line s (temperatureSample readings s) := by
  have zone : (takeReadings readings s).heat.zones.get z = (s.heat.zones.get z).read (readings.get z) := ofZone_get _ z
  have judged : SensorReported z s.mot.line (takeReadings readings s) (judgeZones s.mot.line (takeReadings readings s)) :=
    judgeZones_sensor on (by rw [zone]; exact enabled) (by rw [zone]; exact invalid) (by rw [zone]; exact lost)
  exact SensorReported.later (s := s) judged (temperatureSample_from readings s).1 (temperatureSample_from readings s).2

/-- A fault the judged zones raise is raised at the end of the sample. -/
theorem temperatureSample_raises {readings : Six (Option Int)} {s : State} {c : Cause} {i : Option Nat}
    (h : Raised c i (takeReadings readings s) (judgeZones s.mot.line (takeReadings readings s))) :
    Raised c i s (temperatureSample readings s) :=
  Raised.later (s := s) h (temperatureSample_from readings s).1 (temperatureSample_from readings s).2

theorem temperatureSample_sensor (readings : Six (Option Int)) (s : State) (z : Zone) :
    ((temperatureSample readings s).heat.zones.get z).sensor =
      ((s.heat.zones.get z).sampled s.mot.line s.par s.heat (readings.get z)).sensor := by
  rw [temperatureSample_get]

theorem temperatureSample_lastValid (readings : Six (Option Int)) (s : State) (z : Zone) :
    ((temperatureSample readings s).heat.zones.get z).lastValid =
      ((s.heat.zones.get z).sampled s.mot.line s.par s.heat (readings.get z)).lastValid := by
  rw [temperatureSample_get]

/-- The zones in band after the sample, and those far out of it, by the readings (03 R51). -/
theorem sampled_allBanded (line : LineState) (p : Params) (readings : Six (Option Int)) (h : Heat) (band : Int) :
    (h.sampled line p readings).banded band ↔ ∀ z ∈ Zone.all, (h.zones.get z).enable = true →
      ((h.zones.get z).enable = true ∧ ((h.zones.get z).sampled line p h (readings.get z)).sensor = .normal
          ∧ ∃ v ∈ readings.get z, 0 ≤ v ∧ v ≤ 3000)
        ∧ |((h.zones.get z).sampled line p h (readings.get z)).lastValid - (h.setpoint + (h.zones.get z).offset)| ≤ band := by
  have zone : ∀ z, (h.sampled line p readings).zones.get z = (h.zones.get z).sampled line p h (readings.get z) :=
    ofZone_get _
  unfold Heat.banded
  refine forall_congr' fun z => ?_
  rw [zone, (sampled_alike line p h (readings.get z) (h.zones.get z)).enable, ← sampled_banded]
  exact ⟨fun k _ => k, fun k => k (mem_zones z)⟩

theorem temperatureSample_farOut (readings : Six (Option Int)) (s : State) (band : Int) :
    (temperatureSample readings s).heat.farOut band = true ↔ ∃ z ∈ Zone.all,
      ((s.heat.zones.get z).enable = true ∧ ((temperatureSample readings s).heat.zones.get z).sensor = .normal
          ∧ ∃ v ∈ readings.get z, 0 ≤ v ∧ v ≤ 3000)
        ∧ band + 50 < |((temperatureSample readings s).heat.zones.get z).lastValid
            - (s.heat.setpoint + (s.heat.zones.get z).offset)| := by
  have setpoint : (temperatureSample readings s).heat.setpoint = s.heat.setpoint := by
    rw [temperatureSample_heat, readyStage_setpoint]; rfl
  rw [farOut_iff, setpoint]
  refine exists_congr fun z => and_congr_right fun _ => ?_
  have usable := sampled_usable (line := s.mot.line) (p := s.par) (h := s.heat) (x := readings.get z)
    (r := s.heat.zones.get z)
  have offset : ((temperatureSample readings s).heat.zones.get z).offset = (s.heat.zones.get z).offset := by
    rw [temperatureSample_get]
    exact (sampled_alike s.mot.line s.par s.heat (readings.get z) (s.heat.zones.get z)).offset
  rw [offset, and_congr_left_iff]
  rw [temperatureSample_get]
  exact fun _ => usable

theorem control_eq (r : ZoneRec) (e kP kI : Int) :
    let c := r.control e kP kI
    let u := kP * e / 16 + r.integ
    c.demand = max 0 (min 1000 u)
      ∧ c.integ = (if 1000 < u ∧ 0 < e ∨ u < 0 ∧ e < 0 then r.integ else max 0 (min 1000 (r.integ + kI * e / 256)))
      ∧ c.hist = (if r.hist.length < 10 then r.hist else r.hist.tail) ++ [c.demand] := by
  have clamps : ∀ v, clamp 0 1000 v = max 0 (min 1000 v) := fun v => clamp_eq_max_min (by decide)
  refine ⟨clamps _, ?_, pushDemand_eq _ _⟩
  dsimp only [ZoneRec.control]
  rw [clamps]
  refine if_congr ?_ rfl rfl
  simp only [Bool.or_eq_true, Bool.and_eq_true, decide_eq_true_eq]
  rfl

/-- Settles O22: the zone's clauses from what its stages make of its record, the faults from the stage that raises them,
the line from the findings. -/
theorem temperatureSampleReadsJudgesAndDrives : Obligations.TemperatureSampleReadsJudgesAndDrives := by
  refine ⟨fun readings s => ⟨_, rfl, temperatureSample_keeps, ?_, ?_, fun z => ?_⟩,
    fun readings s z v on enabled read low high abs band => ⟨_, rfl, ?_⟩,
    fun readings s z v on enabled read low high limit => ⟨_, rfl, ?_⟩,
    fun readings s z on enabled bad => ⟨_, rfl, ?_⟩, fun readings s => ⟨_, rfl, fun z => ?_, fun on => ?_, fun off => ?_,
      fun empty => ?_⟩⟩
  · rw [temperatureSample_heat, readyStage_on]; rfl
  · rw [temperatureSample_heat, readyStage_setpoint]; rfl
  · have alike := sampled_alike s.mot.line s.par s.heat (readings.get z) (s.heat.zones.get z)
    have hot := sampled_overheat s.mot.line s.par s.heat (readings.get z) (s.heat.zones.get z)
    dsimp only
    rw [temperatureSample_get]
    refine ⟨alike.enable, alike.offset, ?_, ?_, ?_, fun valid => ?_, fun invalid => ?_, ?_, fun excess => ?_, sampled_idle⟩
    · refine alike.reading.trans ?_
      cases readings.get z <;> rfl
    · exact alike.valid ▸ read_valid
    · exact alike.valid ▸ nofun
    · obtain ⟨v, read, low, high⟩ := valid
      rw [read] at alike ⊢
      exact congrArg some (alike.lastValid.trans (by rw [read_some _ low high])).symm
    · exact alike.lastValid.trans (if_neg (mt validReading_iff.mp invalid))
    · show (ZoneRec.sampled _ _ _ _ _).overheat = true ↔ s.par.thAbs < (ZoneRec.sampled _ _ _ _ _).lastValid ∨
        s.heat.on = true ∧ _ ∧ _ < (ZoneRec.sampled _ _ _ _ _).lastValid
      rw [hot, over_iff, alike.lastValid]
      rfl
    · exact sampled_over (hot.symm.trans excess)
  · have cool : ((s.heat.zones.get z).read (some v)).over s.par.thAbs s.heat = false := by
      rw [← Bool.not_eq_true, over_iff, read_some _ low high]
      rintro (h | ⟨-, -, h⟩)
      · exact absurd h (not_lt.mpr abs)
      · exact absurd h (not_lt.mpr band)
    obtain ⟨demand, integ, hist, sensor, invalid, calm⟩ :=
      sampled_control (line := s.mot.line) (p := s.par) on enabled low high cool
    obtain ⟨d, i, l⟩ := control_eq (s.heat.zones.get z) (s.heat.setpoint + (s.heat.zones.get z).offset - v) s.par.kP s.par.kI
    dsimp only
    rw [temperatureSample_get, read]
    exact ⟨demand.trans d, integ.trans i, hist.trans (l.trans (by rw [demand])), sensor, invalid, calm⟩
  · have hot : ((s.heat.zones.get z).read (some v)).over s.par.thAbs s.heat = true := by
      rw [over_iff, read_some _ low high]
      exact limit.imp id fun h => ⟨on, enabled, h⟩
    obtain ⟨integ, hist, sensor, invalid⟩ := sampled_cut (line := s.mot.line) (p := s.par) on enabled low high hot
    dsimp only
    rw [temperatureSample_get, read]
    exact ⟨(sampled_overheat _ _ _ _ _).trans hot, (sampled_over hot).1, integ, sensor, invalid,
      hist.trans (pushDemand_eq _ _)⟩
  · have invalid : ((s.heat.zones.get z).read (readings.get z)).valid ≠ some true := fun valid => by
      obtain ⟨v, read, low, high⟩ := read_valid.mp valid
      have := bad v read
      omega
    obtain ⟨-, -, count, -, integ, hist, -⟩ := sampled_invalid (line := s.mot.line) (p := s.par) (h := s.heat) invalid
    have told := temperatureSample_reports on enabled invalid
    dsimp only
    rw [temperatureSample_get]
    refine ⟨count.trans (sensed_count on enabled invalid), integ, hist, ?_⟩
    cases state : (s.heat.zones.get z).sensor
    case normal => exact sampled_normal on enabled invalid state
    case hold =>
      have zone := sampled_hold (line := s.mot.line) (p := s.par) on enabled invalid state
      dsimp only at zone ⊢
      by_cases out : (s.heat.zones.get z).hold.heldOut = true
      · rw [if_pos out] at zone
        obtain ⟨sensor, hold, demand, credit, shortfall, ssr, raised⟩ := zone
        rw [if_pos (by rw [← out]; cases (s.heat.zones.get z).hold <;> rfl)]
        refine ⟨sensor, hold, demand, credit, shortfall, ssr, ?_⟩
        have told := told (.inl ⟨state, out⟩)
        unfold SensorReported at told
        split at told
        · next critical => rw [if_pos critical]; exact ⟨told, raised critical⟩
        · next calm => rw [if_neg calm]; exact told
      · rw [if_neg out] at zone
        rw [if_neg (fun h => out (Eq.trans (by cases (s.heat.zones.get z).hold <;> rfl) h))]
        exact zone
    case lost =>
      obtain ⟨sensor, raised⟩ := sampled_lost (line := s.mot.line) (p := s.par) on enabled invalid state
      refine ⟨sensor, fun critical new => ?_⟩
      have told := told (.inr ⟨state, sensorCritical_iff.mpr critical, new⟩)
      unfold SensorReported at told
      rw [if_pos critical] at told ⊢
      exact ⟨told, raised critical new⟩
  · have zone : (takeReadings readings s).heat.zones.get z = (s.heat.zones.get z).read (readings.get z) := ofZone_get _ z
    have alike := sampled_alike s.mot.line s.par s.heat (readings.get z) (s.heat.zones.get z)
    have hot := sampled_overheat s.mot.line s.par s.heat (readings.get z) (s.heat.zones.get z)
    have cold := sampled_cold s.mot.line s.par s.heat (readings.get z) (s.heat.zones.get z)
    dsimp only
    rw [temperatureSample_get]
    refine ⟨fun now old => temperatureSample_raises (judgeZones_overheat ?_ ?_), ?_,
      fun now old => temperatureSample_raises (judgeZones_cold ?_ ?_), fun on => ?_⟩
    · rw [zone]; exact hot.symm.trans now
    · rw [zone]; exact old
    · refine (Eq.congr_left cold).trans (read_coldNow_iff.trans (and_congr_right fun _ => ?_))
      split
      · next c => exact ⟨fun k => alike.lastValid ▸ k.1 c, fun k => ⟨fun _ => alike.lastValid ▸ k, fun n => absurd c n⟩⟩
      · next c => exact ⟨fun k => k.2 c, fun k => ⟨fun n => absurd n c, fun _ => k⟩⟩
    · rw [zone, judged_eq]; exact cold.symm.trans now
    · rw [zone]; exact old
    · rw [if_pos on]
      exact sampled_banded
  · obtain ⟨within, out, ready⟩ := readyStage_settle (h := s.heat.sampled s.mot.line s.par readings) on s.par.bReady
      s.par.tSettle
    have all := sampled_allBanded s.mot.line s.par readings s.heat s.par.bReady
    simp only [temperatureSample_sensor, temperatureSample_lastValid]
    rw [temperatureSample_heat]
    refine ⟨?_, ?_⟩
    · split
      · next c =>
        rw [within (all.mpr c)]
        show settleStep s.heat.settle = _
        cases s.heat.settle <;> rfl
      · next c => exact out (mt all.mp c)
    · rw [ready]
      cases ((s.heat.sampled s.mot.line s.par readings).readyStage s.par.bReady s.par.tSettle).settle <;>
        simp [settled]
  · rw [temperatureSample_heat, readyStage_eq, if_neg (by rw [show (s.heat.sampled _ _ _).on = _ from off]; simp)]
    exact ⟨rfl, rfl⟩
  · rw [temperatureSample_mot readings s empty]
    have far := temperatureSample_farOut readings s s.par.bReady
    simp only [far]

end Sys2Proof.Machine
end

