-- ==== Sys2Proof/Proofs/TransmitQueue.lean ====
section
/-! PROOF. What every operation tells and leaves in the transmit queue: the notice of a change of line state, the link
silence timer at it, a notice dropped by a full queue alone (02 R27, 10 R173, R175). -/

namespace Sys2Proof.Machine
open Sys2Proof

/-! ## What an operation tells -/

/-- The link silence timer where a change of line state has set it (10 R175). -/
def State.linkFresh (s : State) : Timer :=
  if s.mot.line.watched then if s.par.tLink = 0 then .stopped else .running 0 else .stopped

/-- What an operation that keeps the places of the queue leaves: its changes of line state are noticed and set the link
silence timer, and a notice is dropped by a full queue alone. -/
structure Tells (s t : State) : Prop where
  clock : t.cnt.clock = s.cnt.clock
  kept : t.flt.kept = s.flt.kept
  current : ∀ x, s.flt.current = some x → t.flt.current = some x
  used : s.flt.used ≤ t.flt.used
  full : t.flt.dropped = true → s.flt.dropped = true ∨ 32 ≤ t.flt.used
  left : t.mot.line ≠ s.mot.line → ∃ new event, Noticed (.stateChange s.mot.line new event) s t
  reached : t.mot.line ≠ s.mot.line → ∃ old event, Noticed (.stateChange old t.mot.line event) s t
  link : t.flt.link = t.linkFresh
    ∨ t.flt.link = s.flt.link ∧ (t.mot.line = s.mot.line ∨ s.mot.line.watched = true ∧ t.mot.line.watched = true)

/-- An operation that also leaves the frames of the queue, the flag of dropped notices and T_link. -/
structure TellsOn (s t : State) : Prop extends Tells s t where
  frames : ∀ x ∈ s.flt.frames, x ∈ t.flt.frames
  flag : s.flt.dropped = true → t.flt.dropped = true
  tLink : t.par.tLink = s.par.tLink

theorem room_iff (f : FaultMon) : f.room = true ↔ f.used < 32 := decide_eq_true_iff

theorem used_of_full {f : FaultMon} (h : f.room = false) : 32 ≤ f.used := by
  by_contra k
  rw [(room_iff f).mpr (Nat.lt_of_not_le k)] at h
  exact nomatch h

theorem place_current {f : FaultMon} {x y : TxFrame} (h : f.current = some y) : (f.place x).current = some y := by
  unfold FaultMon.place
  rw [h]

/-- The queue as it was, and the line. -/
theorem tells_of_queue {s t : State} (current : t.flt.current = s.flt.current) (waiting : t.flt.waiting = s.flt.waiting)
    (kept : t.flt.kept = s.flt.kept) (dropped : t.flt.dropped = s.flt.dropped) (link : t.flt.link = s.flt.link)
    (line : t.mot.line = s.mot.line) (clock : t.cnt.clock = s.cnt.clock) : Tells s t where
  clock := clock
  kept := kept
  current := fun _ h => current.trans h
  used := by unfold FaultMon.used; rw [current, waiting, kept]
  full := fun h => .inl (dropped ▸ h)
  left := fun h => absurd line h
  reached := fun h => absurd line h
  link := .inr ⟨link, .inl line⟩

theorem tells_of_flt {s t : State} (flt : t.flt = s.flt) (line : t.mot.line = s.mot.line)
    (clock : t.cnt.clock = s.cnt.clock) : Tells s t :=
  tells_of_queue (by rw [flt]) (by rw [flt]) (by rw [flt]) (by rw [flt]) (by rw [flt]) line clock

theorem tellsOn_of_flt {s t : State} (flt : t.flt = s.flt) (line : t.mot.line = s.mot.line)
    (clock : t.cnt.clock = s.cnt.clock) (tLink : t.par.tLink = s.par.tLink) : TellsOn s t where
  toTells := tells_of_flt flt line clock
  frames := fun _ h => flt.symm ▸ h
  flag := fun h => flt.symm ▸ h
  tLink := tLink

theorem Noticed.seen {n : Notice} {s t u : State} (h : Noticed n s t) (k : TellsOn t u) : Noticed n s u :=
  h.of_posts k.frames k.flag

theorem Noticed.before {n : Notice} {s t u : State} (h : Noticed n t u) (clock : t.cnt.clock = s.cnt.clock) :
    Noticed n s u := by
  unfold Noticed at *
  rwa [clock] at h

theorem TellsOn.trans {s t u : State} (h : TellsOn s t) (k : TellsOn t u) : TellsOn s u where
  clock := k.clock.trans h.clock
  kept := k.kept.trans h.kept
  current := fun x hx => k.current x (h.current x hx)
  used := h.used.trans k.used
  full := fun d => (k.full d).elim (fun d => (h.full d).imp id (·.trans k.used)) .inr
  left := fun change => by
    by_cases same : t.mot.line = s.mot.line
    · obtain ⟨new, event, told⟩ := k.left (same.symm ▸ change)
      exact ⟨new, event, same ▸ told.before h.clock⟩
    · obtain ⟨new, event, told⟩ := h.left same
      exact ⟨new, event, told.seen k⟩
  reached := fun change => by
    by_cases same : u.mot.line = t.mot.line
    · obtain ⟨old, event, told⟩ := h.reached (same ▸ change)
      exact ⟨old, event, same ▸ told.seen k⟩
    · obtain ⟨old, event, told⟩ := k.reached same
      exact ⟨old, event, told.before h.clock⟩
  link := by
    rcases k.link with fresh | ⟨kept, lines⟩
    · exact .inl fresh
    · have as : t.linkFresh = u.linkFresh := by
        unfold State.linkFresh
        rw [k.tLink]
        rcases lines with same | ⟨before, after⟩
        · rw [same]
        · rw [before, after]
      rcases h.link with fresh | ⟨kept', lines'⟩
      · exact .inl (kept.trans (fresh.trans as))
      · refine .inr ⟨kept.trans kept', ?_⟩
        rcases lines with same | ⟨before, after⟩
        · rw [same]; exact lines'
        · rcases lines' with same' | ⟨first, -⟩
          · exact .inr ⟨same' ▸ before, after⟩
          · exact .inr ⟨first, after⟩
  frames := fun x hx => k.frames x (h.frames x hx)
  flag := fun d => k.flag (h.flag d)
  tLink := k.tLink.trans h.tLink

/-- A frame placed in the queue. -/
theorem place_tellsOn {x : TxFrame} {s : State} : TellsOn s (s.upFlt fun f => f.place x) where
  clock := rfl
  kept := place_kept _ _
  current := fun _ h => place_current h
  used := (Nat.le_succ _).trans (place_used _ _).ge
  full := fun h => .inl ((place_dropped _ _).symm.trans h)
  left := fun h => absurd rfl h
  reached := fun h => absurd rfl h
  link := .inr ⟨place_link _ _, .inl rfl⟩
  frames := fun y => mem_place_frames _ x y
  flag := fun h => (place_dropped _ _).trans h
  tLink := rfl

theorem notice_tellsOn {n : Notice} {s : State} : TellsOn s (notice n s) := by
  cases room : s.flt.room
  · rw [notice_full room]
    exact {
      clock := rfl, kept := rfl, current := fun _ h => h, used := Nat.le_refl _
      full := fun _ => .inr (used_of_full room), left := fun h => absurd rfl h, reached := fun h => absurd rfl h
      link := .inr ⟨rfl, .inl rfl⟩, frames := fun _ h => h, flag := fun _ => rfl, tLink := rfl }
  · rw [notice_room room]
    exact place_tellsOn

/-- A change of line state is noticed, and sets the link silence timer (02 R27, 10 R175). -/
theorem setLine_tellsOn {new : LineState} {event : LineEvent} {s : State} : TellsOn s (setLine new event s) := by
  unfold setLine
  split
  · exact tellsOn_of_flt rfl rfl rfl rfl
  · next other =>
    have told := notice_noticed (.stateChange s.mot.line new event)
      ((s.upFlt fun f => { f with link := linkTimerAt s.par.tLink s.mot.line new f.link }).upMot fun m =>
        { m with line := new })
    have on := notice_tellsOn (n := .stateChange s.mot.line new event)
      (s := (s.upFlt fun f => { f with link := linkTimerAt s.par.tLink s.mot.line new f.link }).upMot fun m =>
        { m with line := new })
    refine { on with
      left := fun _ => ⟨new, event, told⟩
      reached := fun _ => ⟨s.mot.line, event, by rw [notice_mot]; exact told⟩
      link := ?_ }
    rw [notice_link, notice_mot]
    unfold State.linkFresh
    rw [notice_mot, notice_par]
    show linkTimerAt s.par.tLink s.mot.line new s.flt.link = (if new.watched = true then _ else _) ∨ _ ∧ (new = _ ∨ _ ∧ _)
    unfold linkTimerAt
    split
    · next watched =>
      split
      · next was => exact .inr ⟨rfl, .inr ⟨was, watched⟩⟩
      · exact .inl rfl
    · exact .inl rfl

theorem take_tellsOn {r : Record} {s : State} : TellsOn s (s.upFlt fun f => f.take r) := by
  have queue : (s.flt.take r).current = s.flt.current ∧ (s.flt.take r).waiting = s.flt.waiting
      ∧ (s.flt.take r).kept = s.flt.kept := by
    unfold FaultMon.take
    split <;> exact ⟨rfl, rfl, rfl⟩
  obtain ⟨current, waiting, kept⟩ := queue
  obtain ⟨frames, dropped⟩ := take_frames s.flt r
  exact {
    toTells := tells_of_queue current waiting kept dropped (take_link _ _) rfl rfl
    frames := fun x hx => frames.symm ▸ hx
    flag := fun h => dropped.trans h
    tLink := rfl }

/-- Every run of pieces tells. -/
theorem Runs.tellsOn {b : Bool} {s t : State} (h : Runs b s t) : TellsOn s t := by
  induction h with
  | same flt line clock tLink => exact tellsOn_of_flt flt line clock tLink
  | notice n => exact notice_tellsOn
  | report p room => exact place_tellsOn
  | line new event => exact setLine_tellsOn
  | latch r _ => exact take_tellsOn
  | trans _ _ ih ih' => exact ih.trans ih'

end Sys2Proof.Machine
end

