-- ==== Sys2Proof/Proofs/TransmitRows.lean ====
section
/-! PROOF. What every row tells: the host commands, the frames that arrive, and the other rows. -/

namespace Sys2Proof.Machine
open Sys2Proof

/-! ## The operations of the host commands (11 11.5) -/

theorem writeLinkTime_tells (v : Int) (s : State) : Tells s (writeLinkTime v s) := by
  rw [writeLinkTime_eq]
  refine {
    clock := rfl, kept := rfl, current := fun _ h => h, used := Nat.le_refl _, full := .inl
    left := fun h => absurd rfl h, reached := fun h => absurd rfl h, link := ?_ }
  unfold State.linkFresh
  dsimp only
  by_cases zero : v = 0
  · simp [zero]
  · by_cases old : s.par.tLink = 0 ∧ s.mot.line.watched = true
    · simp [zero, old]
    · simp [zero, old]

theorem writeNipTime_tellsOn (v : Int) (s : State) : TellsOn s (writeNipTime v s) := by
  have written : TellsOn s (s.upPar fun p => { p with tNip := v }) := tellsOn_of_flt rfl rfl rfl rfl
  unfold writeNipTime
  dsimp only
  split
  · split
    · exact written.trans nipExpires_runs.tellsOn
    · exact written
  · exact written
  · exact written

theorem writeParam_tells (p : Param) (v : Int) (s : State) : Tells s (writeParam p v s) := by
  cases p with
  | tLink => exact writeLinkTime_tells v s
  | tNip => exact (writeNipTime_tellsOn v s).toTells
  | mEnc | tpm | silMask => exact tells_of_flt rfl rfl rfl
  | _ =>
    exact tells_of_flt (writeParam_keeps .flt (by simp [Param.blocks]))
      (congrArg Motion.line (writeParam_keeps .mot (by simp [Param.blocks])))
      (congrArg Counting.clock (writeParam_keeps .cnt (by simp [Param.blocks])))

theorem setParam_tells (id : Nat) (v : Int) (s : State) : Tells s (setParam id v s).1 := by
  unfold setParam
  split
  · exact writeParam_tells _ v s
  · exact tells_of_flt rfl rfl rfl
  · exact tells_of_flt rfl rfl rfl

theorem clearLatch_tellsOn (s : State) : TellsOn s (clearLatch s) := by
  have emptied : TellsOn s (s.upFlt fun f => { f with latch := none, further := [], furtherCount := 0 }) := {
    toTells := tells_of_queue rfl rfl rfl rfl rfl rfl rfl
    frames := fun _ h => h
    flag := fun h => h
    tLink := rfl }
  exact (emptied.trans setLine_tellsOn).trans (tellsOn_of_flt rfl rfl rfl rfl)

theorem clearFaultOp_tells (s : State) : Tells s (clearFaultOp s).1 := by
  unfold clearFaultOp
  split
  · exact tells_of_flt rfl rfl rfl
  · split
    · exact tells_of_flt rfl rfl rfl
    · split
      · exact tells_of_flt rfl rfl rfl
      · exact (clearLatch_tellsOn s).toTells

/-- The clear option of READ_STATUS clears the flag of dropped notices, and leaves the line. -/
theorem clearFlags_tells (s : State) : Tells s (clearFlags s) where
  clock := rfl
  kept := rfl
  current := fun _ h => h
  used := Nat.le_refl _
  full := nofun
  left := fun h => absurd rfl h
  reached := fun h => absurd rfl h
  link := .inr ⟨rfl, .inl rfl⟩

theorem hostOp_tells (c : Instr) (s : State) : Tells s (hostOp c s).1 := by
  by_cases param : ∃ t i v, c = .setParam t i v
  · obtain ⟨_, i, v, rfl⟩ := param
    exact setParam_tells i v s
  by_cases window : ∃ t i f, c = .windowSet t i f
  · obtain ⟨_, i, f, rfl⟩ := window
    have k := windowSetOp_keeps (i := i) (f := f) (s := s)
    exact tells_of_flt (k .flt (by decide)) (congrArg Motion.line (k .mot (by decide)))
      (congrArg Counting.clock (k .cnt (by decide)))
  by_cases clear : ∃ t, c = .clearFault t
  · obtain ⟨_, rfl⟩ := clear
    exact clearFaultOp_tells s
  by_cases flags : ∃ t, c = .readStatus t true
  · obtain ⟨_, rfl⟩ := flags
    exact clearFlags_tells s
  exact (hostOp_runs (b := false) (fun t i v e => param ⟨t, i, v, e⟩) (fun t i f e => window ⟨t, i, f, e⟩)
    (fun t e => clear ⟨t, e⟩) (fun t e => flags ⟨t, e⟩)).tellsOn.toTells

/-! ## What a row tells -/

/-- What a row tells of its changes of line state and of notices it drops. -/
structure RowTells (s t : State) : Prop where
  left : t.mot.line ≠ s.mot.line → ∃ new event, Noticed (.stateChange s.mot.line new event) s t
  reached : t.mot.line ≠ s.mot.line → ∃ old event, Noticed (.stateChange old t.mot.line event) s t
  started : ¬s.mot.line.watched = true → t.mot.line.watched = true → t.flt.link = t.linkFresh
  stopped : t.mot.line ≠ s.mot.line → ¬t.mot.line.watched = true → t.flt.link = .stopped
  full : s.flt.dropped = false → t.flt.dropped = true → 32 ≤ t.flt.frames.length

theorem frames_length (f : FaultMon) : f.frames.length + f.kept.toNat = f.used := by
  unfold FaultMon.frames FaultMon.used
  cases f.current <;> simp [Nat.add_comm]

theorem Tells.linkStarts {s t : State} (h : Tells s t) (was : ¬s.mot.line.watched = true) (is : t.mot.line.watched = true) :
    t.flt.link = t.linkFresh := by
  rcases h.link with fresh | ⟨-, same | ⟨before, -⟩⟩
  · exact fresh
  · exact absurd (same ▸ is) was
  · exact absurd before was

theorem Tells.linkStops {s t : State} (h : Tells s t) (change : t.mot.line ≠ s.mot.line) (is : ¬t.mot.line.watched = true) :
    t.flt.link = .stopped := by
  rcases h.link with fresh | ⟨-, same | ⟨-, after⟩⟩
  · rw [fresh, State.linkFresh, if_neg is]
  · exact absurd same change
  · exact absurd after is

/-- An operation with no place kept. -/
theorem Tells.row {s t : State} (h : Tells s t) (kept : s.flt.kept = false) : RowTells s t where
  left := h.left
  reached := h.reached
  started := h.linkStarts
  stopped := h.linkStops
  full := fun was is => by
    have places := frames_length t.flt
    rw [h.kept, kept] at places
    rcases h.full is with d | d
    · rw [was] at d; exact nomatch d
    · exact d.trans places.ge

/-- What went before in the row, leaving the line, the time and the flag of dropped notices. -/
theorem RowTells.after {s s' t : State} (h : RowTells s' t) (line : s'.mot.line = s.mot.line)
    (clock : s'.cnt.clock = s.cnt.clock) (dropped : s'.flt.dropped = s.flt.dropped) : RowTells s t where
  left := fun change => by
    obtain ⟨new, event, told⟩ := h.left (line.symm ▸ change)
    exact ⟨new, event, line ▸ told.before clock⟩
  reached := fun change => by
    obtain ⟨old, event, told⟩ := h.reached (line.symm ▸ change)
    exact ⟨old, event, told.before clock⟩
  started := fun was => h.started (line.symm ▸ was)
  stopped := fun change => h.stopped (line.symm ▸ change)
  full := fun was => h.full (dropped.trans was)

/-- Nothing to tell. -/
theorem rowTells_of_quiet {s t : State} (line : t.mot.line = s.mot.line) (dropped : t.flt.dropped = s.flt.dropped) :
    RowTells s t where
  left := fun change => absurd line change
  reached := fun change => absurd line change
  started := fun was is => absurd (line ▸ is) was
  stopped := fun change => absurd line change
  full := fun was is => by rw [dropped, was] at is; exact nomatch is

/-! ## A command carried out (10 R173) -/

/-- The reply takes the place kept for it. -/
theorem answer_used {kind tag : Byte} {r : Reply} {s : State} (kept : s.flt.kept = true) :
    (answer kind tag r s).flt.used = s.flt.used := by
  have one : s.flt.used = ({ s.flt with kept := false } : FaultMon).used + 1 := by
    unfold FaultMon.used
    rw [kept]
    rfl
  exact (place_used _ _).trans one.symm

section
variable {kind tag : Byte} {op : State → State × Reply} {s : State}

theorem carryOut_row (tells : ∀ u, Tells u (op u).1) : RowTells s (carryOut kind tag op s) := by
  have h := tells (s.upFlt fun f => { f with kept := true })
  have seen : ∀ {n : Notice}, Noticed n (s.upFlt fun f => { f with kept := true }) (op (s.upFlt fun f => { f with kept := true })).1 →
      Noticed n s (carryOut kind tag op s) := fun told =>
    Noticed.of_posts (s := s) told (fun x hx => mem_place_frames _ _ x hx) fun d => (place_dropped _ _).trans d
  have dropped : (carryOut kind tag op s).flt.dropped = (op (s.upFlt fun f => { f with kept := true })).1.flt.dropped :=
    place_dropped _ _
  have link : (carryOut kind tag op s).flt.link = (op (s.upFlt fun f => { f with kept := true })).1.flt.link := place_link _ _
  exact {
    left := fun change => by
      obtain ⟨new, event, told⟩ := h.left change
      exact ⟨new, event, seen told⟩
    reached := fun change => by
      obtain ⟨old, event, told⟩ := h.reached change
      exact ⟨old, event, seen told⟩
    started := fun was is => link.trans (h.linkStarts was is)
    stopped := fun change is => link.trans (h.linkStops change is)
    full := fun was is => by
      have places := frames_length (carryOut kind tag op s).flt
      rw [show (carryOut kind tag op s).flt.kept = false from place_kept _ _,
        show (carryOut kind tag op s).flt.used = _ from answer_used h.kept] at places
      rcases h.full (dropped.symm.trans is) with d | d
      · exact absurd (show s.flt.dropped = true from d) (by simp [was])
      · exact d.trans places.ge }

theorem carryOut_used (tells : ∀ u, Tells u (op u).1) (kept : s.flt.kept = false) :
    s.flt.used + 1 ≤ (carryOut kind tag op s).flt.used := by
  have h := tells (s.upFlt fun f => { f with kept := true })
  have places : (s.upFlt fun f => { f with kept := true }).flt.used = s.flt.used + 1 := by
    show FaultMon.used _ = _
    unfold FaultMon.used
    rw [kept]
    rfl
  rw [show (carryOut kind tag op s).flt.used = _ from answer_used h.kept]
  exact places.symm.trans_le h.used

theorem carryOut_current (tells : ∀ u, Tells u (op u).1) {x : TxFrame} (h : s.flt.current = some x) :
    (carryOut kind tag op s).flt.current = some x :=
  place_current ((tells (s.upFlt fun f => { f with kept := true })).current x h)

end

theorem refusing_tells {st : Status} (u : State) : Tells u (refusing st u).1 := tells_of_flt rfl rfl rfl

/-- A command frame carried out is one operation that tells. -/
theorem runFrame_eq (f : Frame) : ∃ op, (∀ u, Tells u (op u).1) ∧ ∀ s, runFrame f s = carryOut f.kind f.tag op s := by
  unfold runFrame
  split
  · exact ⟨_, refusing_tells, fun _ => rfl⟩
  · exact ⟨_, refusing_tells, fun _ => rfl⟩
  · exact ⟨_, hostOp_tells _, fun _ => rfl⟩

theorem runFrame_row {f : Frame} {s : State} : RowTells s (runFrame f s) := by
  obtain ⟨op, tells, eq⟩ := runFrame_eq f
  rw [eq]
  exact carryOut_row tells

theorem runFrame_used {f : Frame} {s : State} (kept : s.flt.kept = false) : s.flt.used + 1 ≤ (runFrame f s).flt.used := by
  obtain ⟨op, tells, eq⟩ := runFrame_eq f
  rw [eq]
  exact carryOut_used tells kept

theorem runFrame_current {f : Frame} {s : State} {x : TxFrame} (h : s.flt.current = some x) :
    (runFrame f s).flt.current = some x := by
  obtain ⟨op, tells, eq⟩ := runFrame_eq f
  rw [eq]
  exact carryOut_current tells h

/-! ## The command buffer and the frames that arrive (11 R178, R179) -/

theorem takeFrames_full {n : Nat} {s : State} (h : s.flt.room = false) : takeFrames n s = s := by
  cases n with
  | zero => rfl
  | succ n =>
    unfold takeFrames
    split
    · rfl
    · rw [h]; rfl

/-- With one place free at most, at most one command is taken. -/
theorem takeWaiting_row {s : State} (kept : s.flt.kept = false) (one : s.lnk.buffer.length ≤ 1 ∨ 31 ≤ s.flt.used) :
    RowTells s (takeWaiting s) := by
  have quiet : RowTells s s := rowTells_of_quiet rfl rfl
  cases buffer : s.lnk.buffer with
  | nil => rw [takeWaiting_empty buffer]; exact quiet
  | cons f rest =>
    cases room : s.flt.room with
    | false => rw [takeWaiting_full room]; exact quiet
    | true =>
      have ran : RowTells s (runFrame f (popFrame s)) :=
        (runFrame_row (s := popFrame s)).after rfl rfl rfl
      have taken : takeWaiting s = takeFrames rest.length (runFrame f (popFrame s)) := by
        unfold takeWaiting
        rw [buffer, List.length_cons, takeFrames, buffer]
        exact if_pos room
      rw [taken]
      rcases one with few | tight
      · rw [buffer, List.length_cons] at few
        rw [show rest.length = 0 by omega]
        exact ran
      · have used := runFrame_used (f := f) (s := popFrame s) kept
        rw [takeFrames_full (decide_eq_false (by
          have : 32 ≤ (runFrame f (popFrame s)).flt.used := le_trans (Nat.succ_le_succ tight) used
          exact Nat.not_lt.mpr this))]
        exact ran

theorem settled_iff {s : State} : s.settled = true ↔ s.lnk.buffer = [] ∨ s.flt.room = false := by
  simp [State.settled]

theorem bufferFrame_mot (f : Frame) (s : State) : (bufferFrame f s).mot = s.mot := bufferFrame_keeps .mot (by decide)
theorem bufferFrame_flt (f : Frame) (s : State) : (bufferFrame f s).flt = s.flt := bufferFrame_keeps .flt (by decide)
theorem bufferFrame_cnt (f : Frame) (s : State) : (bufferFrame f s).cnt = s.cnt := bufferFrame_keeps .cnt (by decide)

theorem hostFrameArrives_row {f : Frame} {s : State} (settled : s.settled = true) (kept : s.flt.kept = false) :
    RowTells s (hostFrameArrives s f) := by
  unfold hostFrameArrives
  dsimp only
  split
  · refine RowTells.after (s' := bufferFrame f (restartLink s)) ?_ ?_ ?_ ?_
    · refine takeWaiting_row (by rw [bufferFrame_flt]; exact kept) ?_
      rw [bufferFrame_flt]
      rcases settled_iff.mp settled with empty | full
      · refine .inl ?_
        unfold bufferFrame
        split
        · show (s.lnk.buffer ++ [f]).length ≤ 1
          rw [empty]
          exact Nat.le_refl 1
        · show s.lnk.buffer.length ≤ 1
          rw [empty]
          exact Nat.zero_le 1
      · exact .inr (le_trans (by decide) (used_of_full full))
    · rw [bufferFrame_mot]; rfl
    · rw [bufferFrame_cnt]; rfl
    · rw [bufferFrame_flt]; rfl
  · exact rowTells_of_quiet rfl rfl

theorem hostCommand_row {c : Instr} {s : State} (settled : s.settled = true) (kept : s.flt.kept = false) :
    RowTells s (hostCommand c s) := by
  unfold hostCommand
  split
  · unfold hostExec
    split
    · exact (carryOut_row (s := restartLink s) (hostOp_tells c)).after rfl rfl rfl
    · exact hostFrameArrives_row settled kept
  · exact rowTells_of_quiet rfl rfl

theorem linkExpires_row {s : State} (kept : s.flt.kept = false) : RowTells s (linkExpires s) := by
  unfold linkExpires
  split
  · have raised := (raise_runs (c := .linkLost) (i := none)
      (s := s.upFlt fun f => { f with link := .standing s.par.tLink.toNat })).tellsOn.row kept
    exact raised.after rfl rfl rfl
  · exact rowTells_of_quiet rfl rfl

end Sys2Proof.Machine
end

