-- ==== Sys2Proof/Proofs/FramesLeave.lean ====
section
/-! PROOF. FRAME_SENT, the framing events, and what every row tells (10 R173, R175, 11 R177, R178, 02 R27). -/

namespace Sys2Proof.Machine
open Sys2Proof

/-! ## FRAME_SENT (10 R173, 11 R177) -/

/-- The state once the frame sent has left and the next one is begun. -/
def frameLeaves (x : TxFrame) (s : State) : State :=
  (changeSpeed x.newBaud s).upFlt fun f => { f with current := none }.begin_

theorem frameSent_idle {s : State} (h : s.flt.current = none) : frameSent s = s := by
  unfold frameSent
  rw [h]

theorem frameSent_leaves {s : State} {x : TxFrame} (h : s.flt.current = some x) :
    frameSent s = placeFreed (frameLeaves x s) := by
  unfold frameSent
  rw [h]
  rfl

theorem changeSpeed_lnk (b : Option Int) (s : State) :
    (changeSpeed b s).lnk =
      { s.lnk with baud := b.getD s.lnk.baud, framer := if b = none then s.lnk.framer else .hunting } := by
  cases b <;> rfl

theorem frameLeaves_flt (x : TxFrame) (s : State) :
    (frameLeaves x s).flt = { s.flt with current := none }.begin_ := by
  unfold frameLeaves
  rw [State.upFlt_flt, show (changeSpeed x.newBaud s).flt = s.flt from changeSpeed_keeps .flt (by decide)]

theorem frameLeaves_keeps (x : TxFrame) (s : State) : Keeps [.flt, .lnk] s (frameLeaves x s) :=
  keeps_seq changeSpeed_keeps upFlt_keeps (by decide) (by decide)

theorem nextFrame_eq (w : List TxFrame) : nextFrame w = w.head?.map fun x => (w.find? TxFrame.isReply).getD x := by
  cases w <;> rfl

theorem nextFrame_mem {w : List TxFrame} {x : TxFrame} (h : nextFrame w = some x) : x ∈ w := by
  rw [nextFrame_eq, Option.map_eq_some_iff] at h
  obtain ⟨y, head, rfl⟩ := h
  cases found : w.find? TxFrame.isReply with
  | none => exact List.mem_of_mem_head? head
  | some z => exact List.mem_of_find?_eq_some found

/-- Beginning the next frame keeps the places, the flag and the timer. -/
theorem begin_queue (f : FaultMon) :
    f.begin_.used = f.used ∧ f.begin_.kept = f.kept ∧ f.begin_.dropped = f.dropped := by
  unfold FaultMon.begin_
  split
  · next x current next =>
    refine ⟨?_, rfl, rfl⟩
    have waits := nextFrame_mem next
    have one := List.length_erase_of_mem waits
    have some_ := List.length_pos_of_mem waits
    unfold FaultMon.used
    rw [current]
    simp only [Option.isSome_some, Option.isSome_none, Bool.toNat_true, Bool.toNat_false]
    omega
  · exact ⟨rfl, rfl, rfl⟩

/-- The frame begun: the oldest reply, or with no reply the oldest frame (10 R173). -/
theorem begin_next {f : FaultMon} {l r : List TxFrame} {y : TxFrame} (idle : f.current = none)
    (waiting : f.waiting = l ++ y :: r)
    (oldest : y.isReply = true ∧ (∀ x ∈ l, x.isReply = false) ∨ l = [] ∧ ∀ x ∈ f.waiting, x.isReply = false) :
    f.begin_ = { f with current := some y, waiting := l ++ r } := by
  have begun : nextFrame f.waiting = some y := by
    rw [nextFrame_eq]
    rcases oldest with ⟨reply, before⟩ | ⟨rfl, none_⟩
    · have found : f.waiting.find? TxFrame.isReply = some y := by
        rw [waiting, List.find?_append, List.find?_eq_none.mpr fun x hx => by simp [before x hx], Option.none_or,
          List.find?_cons_of_pos reply]
      rw [found]
      cases l <;> rw [waiting] <;> rfl
    · rw [List.find?_eq_none.mpr fun x hx => by simp [none_ x hx], waiting]
      rfl
  have leaves : f.waiting.erase y = l ++ r := by
    rw [waiting]
    rcases oldest with ⟨reply, before⟩ | ⟨rfl, -⟩
    · have new : y ∉ l := fun hy => by
        rw [before y hy] at reply
        exact nomatch reply
      rw [List.erase_append_right _ new, List.erase_cons_head]
    · rw [List.nil_append, List.erase_cons_head, List.nil_append]
  unfold FaultMon.begin_
  rw [idle, begun]
  dsimp only
  rw [leaves]

/-- No operation of a host command touches the host link. -/
theorem hostOp_lnk (c : Instr) (s : State) : (hostOp c s).1.lnk = s.lnk := by
  cases c with
  | setParam => exact setParam_keeps .lnk (by decide)
  | setPosition => exact setPositionOp_keeps .lnk (by decide)
  | heatOn => exact heatOnOp_keeps .lnk (by decide)
  | heatOff => exact heatOffOp_keeps .lnk (by decide)
  | setDrum => exact setDrumOp_keeps .lnk (by decide)
  | start => exact startOp_keeps .lnk (by decide)
  | stop => exact stopOp_keeps .lnk (by decide)
  | threadEnter => exact threadEnterOp_keeps .lnk (by decide)
  | threadExit => exact threadExitOp_keeps .lnk (by decide)
  | jog => exact jogOp_keeps .lnk (by decide)
  | seek => exact seekOp_keeps .lnk (by decide)
  | seekStop => exact seekStopOp_keeps .lnk (by decide)
  | seekResume => exact seekResumeOp_keeps .lnk (by decide)
  | profileLoad => exact profileLoadOp_keeps .lnk (by decide)
  | profileDrop => exact profileDropOp_keeps .lnk (by decide)
  | profilePin => exact profilePinOp_keeps .lnk (by decide)
  | profileTrim => exact profileTrimOp_keeps .lnk (by decide)
  | panelSubmit => exact panelSubmitOp_keeps .lnk (by decide)
  | panelInsert => exact panelInsertOp_keeps .lnk (by decide)
  | panelCancel => exact panelCancelOp_keeps .lnk (by decide)
  | dispatchEnable => exact dispatchEnableOp_keeps .lnk (by decide)
  | dispatchResume => exact dispatchResumeOp_keeps .lnk (by decide)
  | dispatchHold => exact dispatchHoldOp_keeps .lnk (by decide)
  | dispatchOff => rfl
  | triggerSet => exact triggerSetOp_keeps .lnk (by decide)
  | triggerArm => exact triggerArmOp_keeps .lnk (by decide)
  | triggerClear => exact triggerClearOp_keeps .lnk (by decide)
  | windowSet => exact windowSetOp_keeps .lnk (by decide)
  | windowClear => exact windowClearOp_keeps .lnk (by decide)
  | fabricLoad => exact fabricLoadOp_keeps .lnk (by decide)
  | spliceAhead => exact spliceAheadOp_keeps .lnk (by decide)
  | clearFault => exact clearFaultOp_keeps .lnk (by decide)
  | readStatus => exact readStatusOp_keeps .lnk (by decide)
  | clearLine => exact clearLineOp_keeps .lnk (by decide)
  | linkConfig | getParam | readCounts | readMotion | readHeat | readDose | readProbe | readTension | profileFind
  | profileRead | readQueue | readPanel | readMarks | triggerRead | readWindows | readFabric | readFault =>
    rw [reading_fst _ rfl]
  | _ => rfl

theorem runFrame_lnk (f : Frame) (s : State) : (runFrame f s).lnk = s.lnk := by
  unfold runFrame
  split
  · rfl
  · rfl
  · exact hostOp_lnk _ _

/-- Taking commands leaves the speed and the framer of the host link, and the frame being sent. -/
theorem takeFrames_leaves (n : Nat) (s : State) :
    (takeFrames n s).lnk.baud = s.lnk.baud ∧ (takeFrames n s).lnk.framer = s.lnk.framer
      ∧ ∀ x, s.flt.current = some x → (takeFrames n s).flt.current = some x := by
  induction n generalizing s with
  | zero => exact ⟨rfl, rfl, fun _ h => h⟩
  | succ n ih =>
    unfold takeFrames
    split
    · exact ⟨rfl, rfl, fun _ h => h⟩
    · next f _ _ =>
      split
      · obtain ⟨baud, framer, current⟩ := ih (runFrame f (popFrame s))
        rw [runFrame_lnk] at baud framer
        exact ⟨baud, framer, fun x h => current x (runFrame_current h)⟩
      · exact ⟨rfl, rfl, fun _ h => h⟩

/-- The report that waits longest takes the freed place (07 R129, R115). -/
def reportFreed (s : State) : State :=
  if s.reportDue then decide_ (flushReport none s) else flushReport none s

theorem placeFreed_eq (s : State) : placeFreed s = takeWaiting (reportFreed s) := rfl

theorem reportFreed_runs {b : Bool} (s : State) : Runs b s (reportFreed s) :=
  runs_ite (flushReport_runs.trans decide_runs) flushReport_runs

theorem reportFreed_keeps (s : State) : Keeps [.prf, .pq, .head, .trg, .flt, .free] s (reportFreed s) :=
  keeps_ite (fun _ => keeps_seq flushReport_keeps decide_keeps (by decide) (by decide)) fun _ =>
    keeps_mono flushReport_keeps (by decide)

theorem reportFreed_none {s : State} (h : s.pq.waiting = []) : reportFreed s = s := by
  unfold reportFreed State.reportDue flushReport
  rw [h]
  rfl

/-- FRAME_SENT with a frame being sent, in one line per thing it decides. -/
theorem frameSent_lnk {s : State} {x : TxFrame} (h : s.flt.current = some x) :
    (frameSent s).lnk.baud = x.newBaud.getD s.lnk.baud
      ∧ (frameSent s).lnk.framer = (if x.newBaud = none then s.lnk.framer else .hunting)
      ∧ (s.lnk.buffer = [] → frameSent s = reportFreed (frameLeaves x s) ∧ (frameSent s).lnk.buffer = []) := by
  have lnk : (reportFreed (frameLeaves x s)).lnk =
      { s.lnk with baud := x.newBaud.getD s.lnk.baud, framer := if x.newBaud = none then s.lnk.framer else .hunting } :=
    (reportFreed_keeps _ .lnk (by decide)).trans (changeSpeed_lnk x.newBaud s)
  obtain ⟨baud, framer, -⟩ := takeFrames_leaves (reportFreed (frameLeaves x s)).lnk.buffer.length (reportFreed (frameLeaves x s))
  rw [frameSent_leaves h, placeFreed_eq]
  refine ⟨baud.trans (by rw [lnk]), framer.trans (by rw [lnk]), fun empty => ?_⟩
  have empty : (reportFreed (frameLeaves x s)).lnk.buffer = [] := by rw [lnk]; exact empty
  rw [takeWaiting_empty empty]
  exact ⟨rfl, empty⟩

theorem frameSent_row {s : State} (settled : s.settled = true) (kept : s.flt.kept = false) : RowTells s (frameSent s) := by
  cases sent : s.flt.current with
  | none => rw [frameSent_idle sent]; exact rowTells_of_quiet rfl rfl
  | some x =>
    obtain ⟨used, kept', dropped⟩ := begin_queue { s.flt with current := none }
    have flt := frameLeaves_flt x s
    have mot := frameLeaves_keeps x s .mot (by decide)
    have cnt := frameLeaves_keeps x s .cnt (by decide)
    have freed : TellsOn (frameLeaves x s) (reportFreed (frameLeaves x s)) :=
      (reportFreed_runs (b := false) _).tellsOn
    have calm := reportFreed_keeps (frameLeaves x s)
    have idle : (frameLeaves x s).flt.kept = false := by rw [flt, kept']; exact kept
    have left : (frameLeaves x s).flt.dropped = s.flt.dropped := by rw [flt, dropped]
    have places : (frameLeaves x s).flt.used + 1 = s.flt.used := by
      rw [flt, used]
      unfold FaultMon.used
      rw [sent]
      simp only [Option.isSome_some, Option.isSome_none, Bool.toNat_true, Bool.toNat_false]
      omega
    rw [frameSent_leaves sent, placeFreed_eq]
    cases room : (reportFreed (frameLeaves x s)).flt.room with
    | false =>
      rw [takeWaiting_full room]
      exact (freed.toTells.row idle).after (by rw [mot]) (by rw [cnt]) left
    | true =>
      have few : ¬32 ≤ (reportFreed (frameLeaves x s)).flt.used := Nat.not_le.mpr ((room_iff _).mp room)
      have flag : (reportFreed (frameLeaves x s)).flt.dropped = s.flt.dropped := by
        rw [← left, Bool.eq_iff_iff]
        exact ⟨fun d => (freed.full d).resolve_right few, freed.flag⟩
      refine (takeWaiting_row (freed.kept.trans idle) ?_).after ?_ (freed.clock.trans (by rw [cnt])) flag
      · rcases settled_iff.mp settled with empty | full
        · refine .inl ?_
          rw [show (reportFreed (frameLeaves x s)).lnk = (frameLeaves x s).lnk from calm .lnk (by decide),
            show (frameLeaves x s).lnk = (changeSpeed x.newBaud s).lnk from rfl, changeSpeed_lnk, empty]
          exact Nat.zero_le 1
        · have := used_of_full full
          have := freed.used
          exact .inr (by omega)
      · rw [calm .mot (by decide), mot]

/-! ## The other rows -/

/-- The rows that are neither resets, frames that arrive or leave, nor LINK_LOST run in pieces. -/
theorem exec_runs {c : Instr} {s t : State} (none_ : commandFrame c = none) (power : c ≠ .powerOnReset) (reset : c ≠ .resetn)
    (bytes : ∀ b, c ≠ .validFrame b) (unknown : ∀ k g b, c ≠ .unknownCommand k g b) (sent : c ≠ .frameSent)
    (lost : c ≠ .linkLost) (e : exec c s = .next t) : Runs true s t := by
  cases c with
  | powerOnReset => exact absurd rfl power
  | resetn => exact absurd rfl reset
  | validFrame b => exact absurd rfl (bytes b)
  | unknownCommand k g b => exact absurd rfl (unknown k g b)
  | frameSent => exact absurd rfl sent
  | linkLost => exact absurd rfl lost
  | tickBatch => cases e; exact tickBatch_runs
  | seekDistanceReached => cases e; exact runs_ite (runs_upMot rfl) runs_refl
  | markCapture => cases e; exact markCapture_runs
  | spliceCapture => cases e; exact spliceCapture_runs
  | nipLimitChange => cases e; exact nipLimits_runs
  | nipTimeout => cases e; exact runs_ite nipExpires_runs runs_refl
  | nipHold => cases e; exact runs_ite holdEnds_runs runs_refl
  | estop => cases e; exact runs_ite runs_refl estopActs_runs
  | estopRelease => cases e; exact runs_of_keeps upPins_keeps (by decide)
  | speedAndTensionSample => cases e; exact speedSample_runs
  | encoderSilent => cases e; exact silenceExpires_runs
  | stall => cases e; exact stallExpires_runs
  | webBreak => cases e; exact runs_ite loopFault_runs runs_refl
  | overTension => cases e; exact runs_ite loopFault_runs runs_refl
  | doseSample => cases e; exact doseSample_runs
  | temperatureSample => cases e; exact temperatureSample_runs
  | zoneHold => cases e; exact runs_ite updZone_runs runs_refl
  | zoneSensor => cases e; exact zoneSensor_runs
  | readiness => cases e; exact readiness_runs
  | zeroCrossEdge => cases e; exact zeroCross_runs
  | zoneShortfall => cases e; exact zoneShortfall_runs
  | mainsLost => cases e; exact runs_ite mainsLost_runs runs_refl
  | pulseEnd => cases e; exact runs_upTrg (capsFrom_of_windows rfl)
  | timeDeadline => cases e; exact timeDeadline_runs
  | accept => cases e; exact takeAccept_runs
  | refuse => cases e; exact takeRefuse_runs
  | done => cases e; exact takeDone_runs
  | fault => cases e; exact takeFault_runs
  | headOtherKindFrame => cases e; exact takeOtherFrame_runs
  | headFrameSent => cases e; exact runs_of_keeps headFrameSent_keeps (by decide)
  | headFrameBadCrc => cases e; exact headHunts_runs
  | frameGapTimeout link => cases e; exact runs_of_keeps abandon_keeps (by cases link <;> decide)
  | lenOutOfRange link len => cases e; exact runs_of_keeps lenByte_keeps (by cases link <;> simp [touches])
  | _ => exact nomatch none_

/-- Every row but the resets and VALID_FRAME, with no command left waiting though a place is free. -/
theorem exec_row {c : Instr} {s t : State} (settled : s.settled = true) (kept : s.flt.kept = false) (power : c ≠ .powerOnReset)
    (reset : c ≠ .resetn) (bytes : ∀ b, c ≠ .validFrame b) (e : exec c s = .next t) : RowTells s t := by
  cases frame : commandFrame c with
  | some f =>
    rw [exec_host frame] at e
    cases e
    exact hostCommand_row settled kept
  | none =>
    by_cases unknown : ∃ k g b, c = .unknownCommand k g b
    · obtain ⟨k, g, b, rfl⟩ := unknown
      cases e
      exact hostFrameArrives_row settled kept
    by_cases sent : c = .frameSent
    · subst sent
      cases e
      exact frameSent_row settled kept
    by_cases lost : c = .linkLost
    · subst lost
      cases e
      exact linkExpires_row kept
    exact (exec_runs frame power reset bytes (fun k g b e => unknown ⟨k, g, b, e⟩) sent lost e).tellsOn.toTells.row kept

/-- Settles O49: FRAME_SENT by the stages it is made of, the other rows by what their pieces tell. -/
theorem framesLeaveInOrder : Obligations.FramesLeaveInOrder := by
  refine ⟨fun s => ⟨_, rfl, frameSent_keeps, frameSent_idle, fun empty => ?_, fun x sent => ?_⟩, fun s => ⟨rfl, rfl, ?_⟩,
    fun c s t settled kept power reset bytes e => ?_⟩
  · cases sent : s.flt.current with
    | none => rw [frameSent_idle sent]; exact keeps_refl
    | some x =>
      rw [((frameSent_lnk sent).2.2 empty).1]
      exact keeps_seq (frameLeaves_keeps x s) (reportFreed_keeps _) (by decide) (by decide)
  · obtain ⟨baud, framer, alone⟩ := frameSent_lnk sent
    have quiet : s.lnk.buffer = [] → s.pq.waiting = [] →
        (frameSent s).flt = { s.flt with current := none }.begin_ := fun empty reports => by
      have pq := frameLeaves_keeps x s .pq (by decide)
      rw [(alone empty).1, reportFreed_none (by rw [pq]; exact reports), frameLeaves_flt]
    refine ⟨baud, framer, fun empty => (alone empty).2, fun empty reports idle => ?_, fun l y r waiting oldest => ?_⟩
    · rw [quiet empty reports]
      unfold FaultMon.begin_
      rw [idle]
      rfl
    · have begun := begin_next (f := { s.flt with current := none }) rfl waiting oldest
      refine ⟨?_, fun empty reports => (quiet empty reports).trans begun⟩
      have first : (frameLeaves x s).flt.current = some y := by rw [frameLeaves_flt, begun]
      rw [frameSent_leaves sent, placeFreed_eq]
      exact (takeFrames_leaves _ _).2.2 y ((reportFreed_runs (b := false) _).tellsOn.current y first)
  · intro len outside
    have out : (decide (len.toNat < 2) || decide (252 < len.toNat)) = true := by simpa using outside
    exact ⟨congrArg Host.Outcome.next (if_pos out), congrArg Host.Outcome.next (if_pos out)⟩
  · have row := exec_row settled kept power reset bytes e
    refine ⟨fun change => ⟨row.left change, row.reached change⟩, ⟨fun was is => ?_, fun change is => ?_⟩, row.full⟩
    · have is := (watched_iff _).mpr is
      rw [row.started (mt (watched_iff _).mp was) is, State.linkFresh, if_pos is]
    · exact row.stopped change (mt (watched_iff _).mp is)

end Sys2Proof.Machine
end

