-- ==== Sys2Proof/Proofs/Distributor.lean ====
section
/-! PROOF. One run of the firing distributor: what it makes of a zone, and whom it grants a half-cycle (03 R52, R53). -/

namespace Sys2Proof.Machine
open Sys2Proof

/-! ## Lists in ascending rank -/

section ranked
variable {α : Type} {rank : α → Nat}

/-- Of a list in ascending rank, the first `m` that satisfy `p` are those that fewer than `m` others of them precede. -/
theorem mem_take_filter_iff {p : α → Bool} {l : List α} (sorted : l.Pairwise fun x y => rank x < rank y) (m : Nat) (z : α) :
    z ∈ (l.filter p).take m ↔ z ∈ l ∧ p z = true ∧ (l.countP fun y => p y && decide (rank y < rank z)) < m := by
  induction l generalizing m with
  | nil => simp
  | cons x l ih =>
    obtain ⟨first, sorted⟩ := List.pairwise_cons.mp sorted
    cases hx : p x with
    | false =>
      rw [List.filter_cons_of_neg (by simp [hx]), ih sorted, List.countP_cons_of_neg (by simp [hx]), List.mem_cons]
      have other : p z = true → z ≠ x := fun hz e => by simp [← e, hz] at hx
      exact ⟨fun ⟨mem, hz, few⟩ => ⟨.inr mem, hz, few⟩,
        fun ⟨mem, hz, few⟩ => ⟨mem.resolve_left (other hz), hz, few⟩⟩
    | true =>
      rw [List.filter_cons_of_pos hx]
      cases m with
      | zero => simp
      | succ m =>
        rw [List.take_succ_cons, List.mem_cons, ih sorted, List.mem_cons]
        by_cases same : z = x
        · subst same
          have none_before : (l.countP fun y => p y && decide (rank y < rank z)) = 0 :=
            List.countP_eq_zero.mpr fun y hy => by simp [Nat.le_of_lt (first y hy)]
          rw [List.countP_cons_of_neg (by simp), none_before]
          simp [hx]
        · simp only [same, false_or]
          refine and_congr_right fun mem => ?_
          rw [List.countP_cons_of_pos (by simp [hx, first z mem])]
          simp

/-- In a list in ascending rank the one of least rank that satisfies `p` is found. -/
theorem find?_eq_of_least {p : α → Bool} {l : List α} {z : α} (sorted : l.Pairwise fun x y => rank x < rank y)
    (mem : z ∈ l) (hz : p z = true) (least : ∀ y, p y = true → rank z ≤ rank y) : l.find? p = some z := by
  induction l with
  | nil => exact nomatch mem
  | cons x l ih =>
    obtain ⟨first, sorted⟩ := List.pairwise_cons.mp sorted
    rcases List.mem_cons.mp mem with rfl | mem
    · exact List.find?_cons_of_pos hz
    · have skipped : ¬p x = true := fun hx => absurd (first z mem) (Nat.not_lt.mpr (least x hx))
      rw [List.find?_cons_of_neg skipped, ih sorted mem]

end ranked

/-! ## The scan from the pointer -/

/-- How far a zone lies above the pointer, wrapping. -/
def zoneRank (pointer z : Zone) : Nat := (z.num + 6 - pointer.num) % 6

theorem rotation_sorted (pointer : Zone) :
    (rotation pointer).Pairwise fun x y => zoneRank pointer x < zoneRank pointer y := by
  cases pointer <;> decide

theorem mem_rotation (pointer z : Zone) : z ∈ rotation pointer := by
  cases pointer <;> cases z <;> decide

theorem rotation_perm (pointer : Zone) : (rotation pointer).Perm Zone.all := by
  cases pointer <;> decide

theorem zoneRank_succ (pointer z : Zone) : zoneRank pointer.succ z = (zoneRank pointer z + 5) % 6 := by
  cases pointer <;> cases z <;> rfl

/-- A zone is a candidate once the demands have been added (03 R52). -/
def ZoneRec.candidate (r : ZoneRec) : Bool := r.fires && decide (1000 ≤ r.credit)

/-- The run grants the zone a half-cycle (03 R52). -/
def Heat.grants (h : Heat) (m : Nat) (z : Zone) : Bool := (granted m (h.zones.map ZoneRec.addCredit) h.pointer).contains z

theorem grants_iff (h : Heat) (m : Nat) (z : Zone) :
    h.grants m z = true ↔ (h.zones.get z).addCredit.candidate = true
      ∧ (Zone.all.countP fun y => (h.zones.get y).addCredit.candidate
          && decide (zoneRank h.pointer y < zoneRank h.pointer z)) < m := by
  have scan : granted m (h.zones.map ZoneRec.addCredit) h.pointer =
      ((rotation h.pointer).filter fun y => (h.zones.get y).addCredit.candidate).take m := by
    simp only [granted, six_map_get]
    rfl
  rw [Heat.grants, List.contains_iff_mem, scan, mem_take_filter_iff (rotation_sorted h.pointer),
    (rotation_perm h.pointer).countP_eq, and_iff_right (mem_rotation h.pointer z)]

/-- At most `m` zones are granted a half-cycle. -/
theorem countP_grants (h : Heat) (m : Nat) : (Zone.all.countP fun z => h.grants m z) ≤ m := by
  have nodup : (Zone.all.filter fun z => h.grants m z).Nodup := List.Nodup.filter _ (by decide)
  have within : Zone.all.filter (fun z => h.grants m z) ⊆ granted m (h.zones.map ZoneRec.addCredit) h.pointer :=
    fun z hz => List.contains_iff_mem.mp (List.mem_filter.mp hz).2
  rw [List.countP_eq_length_filter]
  exact (List.subperm_of_subset nodup within).length_le.trans (List.length_take_le _ _)

/-- The pointer moves to the next enabled zone above it (03 R52). -/
theorem nextPointer_eq {h : Heat} {z : Zone} (enabled : (h.zones.get z).enable = true)
    (nearest : ∀ y, (h.zones.get y).enable = true →
      (zoneRank h.pointer z + 5) % 6 ≤ (zoneRank h.pointer y + 5) % 6) : h.nextPointer = z := by
  unfold Heat.nextPointer
  rw [find?_eq_of_least (rank := zoneRank h.pointer.succ) (rotation_sorted _) (mem_rotation _ z) enabled fun y hy => ?_]
  · rfl
  · rw [zoneRank_succ, zoneRank_succ]
    exact nearest y hy

/-! ## One zone -/

/-- The zone may take part in the distributor (03 R52). -/
def ZoneRec.MayFire (r : ZoneRec) : Prop := r.enable = true ∧ r.sensor ≠ .lost ∧ r.overheat = false

theorem fires_iff {r : ZoneRec} : r.fires = true ↔ r.MayFire := by
  simp [ZoneRec.fires, ZoneRec.MayFire, and_assoc]

/-- The demand takes the zone's credit past the cap (03 R52). -/
def ZoneRec.overflows (r : ZoneRec) : Bool := r.fires && decide (2000 < r.credit + r.demand)

/-- The credit of a zone once its demand has been added (03 R52). -/
def ZoneRec.fullCredit (r : ZoneRec) : Int := if r.fires = true then min 2000 (r.credit + r.demand) else r.credit

theorem addCredit_eq (r : ZoneRec) :
    r.addCredit = { r with
      credit := r.fullCredit
      shortfall := r.shortfall || r.overflows
      shortCount := if r.overflows = true ∧ r.shortfall = false then 0 else r.shortCount } := by
  have cap : Config.creditCap = 2000 := rfl
  unfold ZoneRec.addCredit ZoneRec.fullCredit ZoneRec.overflows
  rw [cap]
  by_cases fires : r.fires = true
  · by_cases past : 2000 < r.credit + r.demand
    · have full : min 2000 (r.credit + r.demand) = 2000 := min_eq_left past.le
      cases r.shortfall <;> simp [fires, past, full]
    · have below : min 2000 (r.credit + r.demand) = r.credit + r.demand := min_eq_right (not_lt.mp past)
      simp [fires, past, below]
  · simp [fires]

theorem fullCredit_of_may {r : ZoneRec} (may : r.MayFire) : r.fullCredit = min 2000 (r.credit + r.demand) :=
  if_pos (fires_iff.mpr may)

theorem fullCredit_of_not_may {r : ZoneRec} (idle : ¬r.MayFire) : r.fullCredit = r.credit := if_neg (mt fires_iff.mp idle)

theorem overflows_iff {r : ZoneRec} : r.overflows = true ↔ r.MayFire ∧ 2000 < r.credit + r.demand := by
  rw [ZoneRec.overflows, Bool.and_eq_true, decide_eq_true_eq, fires_iff]

theorem candidate_iff {r : ZoneRec} : r.addCredit.candidate = true ↔ r.MayFire ∧ 1000 ≤ min 2000 (r.credit + r.demand) := by
  have fires : r.addCredit.fires = r.fires := by rw [addCredit_eq]; rfl
  have credit : r.addCredit.credit = r.fullCredit := by rw [addCredit_eq]
  rw [ZoneRec.candidate, fires, credit, Bool.and_eq_true, decide_eq_true_eq, fires_iff]
  exact and_congr_right fun may => by rw [fullCredit_of_may may]

/-- The credit a run leaves to the zone (03 R52). -/
def ZoneRec.leftCredit (r : ZoneRec) (g : Bool) : Int := if g = true then r.fullCredit - 1000 else r.fullCredit

theorem grant_eq (r : ZoneRec) (g : Bool) :
    let credit := if g = true then r.credit - 1000 else r.credit
    r.grant g = { r with
      ssr := g, credit := credit, shortfall := r.shortfall && decide (1000 ≤ credit)
      shortCount := if credit < 1000 ∧ r.shortfall = true then 0 else r.shortCount } := by
  have unit : Config.creditUnit = 1000 := rfl
  unfold ZoneRec.grant
  simp only [unit]
  generalize (if g = true then r.credit - 1000 else r.credit) = credit
  by_cases low : credit < 1000
  · simp [low]
  · simp [low, not_lt.mp low]

/-- A zone that is fired may be, and pays with the credit it then holds (03 R52). -/
theorem grants_pays {h : Heat} {m : Nat} {z : Zone} (g : h.grants m z = true) :
    (h.zones.get z).MayFire ∧ 1000 ≤ min 2000 ((h.zones.get z).credit + (h.zones.get z).demand)
      ∧ (h.zones.get z).leftCredit true = min 2000 ((h.zones.get z).credit + (h.zones.get z).demand) - 1000 := by
  obtain ⟨may, worth⟩ := candidate_iff.mp ((grants_iff h m z).mp g).1
  exact ⟨may, worth, congrArg (· - 1000) (fullCredit_of_may may)⟩

/-- A zone after a run that grants it a half-cycle, or not, with its SHORTFALL count limited to `limit` (03 R52, R53). -/
def ZoneRec.distributed (limit : Nat) (g : Bool) (r : ZoneRec) : ZoneRec :=
  (r.addCredit.grant g).countShort r.shortfall limit

theorem distribute_get (h : Heat) (m : Nat) (z : Zone) :
    (h.distribute m).zones.get z = (h.zones.get z).distributed (shortLimit h.freq) (h.grants m z) := by
  unfold Heat.distribute
  simp only [ofZone_get, six_map_get]
  rfl

/-- The run leaves the rest of the record. SHORTFALL stays or is set by an overflow, where the credit left is worth a
half-cycle; the runs with it set before and after are counted (03 R52, R53). -/
theorem distributed_eq (limit : Nat) (g : Bool) (r : ZoneRec) :
    ∃ count, r.distributed limit g = { r with
        ssr := g, credit := r.leftCredit g
        shortfall := (r.shortfall || r.overflows) && decide (1000 ≤ r.leftCredit g)
        shortCount := count }
      ∧ ((r.shortfall || r.overflows) = true → 1000 ≤ r.leftCredit g →
        count = if r.shortfall = true then min limit (r.shortCount + 1) else 0) := by
  have left : (if g = true then r.fullCredit - 1000 else r.fullCredit) = r.leftCredit g := rfl
  unfold ZoneRec.distributed ZoneRec.countShort
  rw [grant_eq, addCredit_eq]
  dsimp only
  rw [left]
  cases was : r.shortfall
  · refine ⟨_, if_neg (by simp), fun short worth => ?_⟩
    simp_all
  · by_cases worth : 1000 ≤ r.leftCredit g
    · exact ⟨_, by simp [worth]; rfl, fun _ _ => by simp [satAdd, not_lt.mpr worth]⟩
    · exact ⟨_, by simp [worth]; rfl, fun _ enough => absurd enough worth⟩

section
variable (limit : Nat) (g : Bool) (r : ZoneRec)

theorem distributed_ssr : (r.distributed limit g).ssr = g := by
  obtain ⟨_, e, -⟩ := distributed_eq limit g r; rw [e]

theorem distributed_credit : (r.distributed limit g).credit = r.leftCredit g := by
  obtain ⟨_, e, -⟩ := distributed_eq limit g r; rw [e]

theorem distributed_shortfall : (r.distributed limit g).shortfall = true ↔
    1000 ≤ (r.distributed limit g).credit ∧ (r.shortfall = true ∨ r.overflows = true) := by
  obtain ⟨_, e, -⟩ := distributed_eq limit g r
  rw [e]
  simp [and_comm]

theorem distributed_shortCount (short : (r.distributed limit g).shortfall = true) :
    (r.distributed limit g).shortCount = if r.shortfall = true then min limit (r.shortCount + 1) else 0 := by
  obtain ⟨_, e, count⟩ := distributed_eq limit g r
  rw [e] at short ⊢
  obtain ⟨flag, worth⟩ := Bool.and_eq_true_iff.mp short
  exact count flag (of_decide_eq_true worth)

end

end Sys2Proof.Machine
end

