-- ==== Sys2Proof/Proofs/ZeroCross.lean ====
section
/-! PROOF. ZERO_CROSS_EDGE: the distributor and the mains monitor (03 R52 to R56). -/

namespace Sys2Proof.Machine
open Sys2Proof

/-! ## The warnings of one run -/

theorem warnAll_keeps {w : Zone → Warning} {l : List Zone} {s : State} :
    Keeps [.flt] s (l.foldl (fun s z => warn (w z) s) s) := keeps_foldl (fun _ _ => warn_keeps) l s

theorem warnAll_posts {w : Zone → Warning} {l : List Zone} {s : State} : Posts s (l.foldl (fun s z => warn (w z) s) s) :=
  posts_foldl (fun _ _ => warn_posts) l s

theorem warnAll_noticed {w : Zone → Warning} {l : List Zone} {s : State} {z : Zone} (mem : z ∈ l) :
    Noticed (.warning (w z)) s (l.foldl (fun s z => warn (w z) s) s) := by
  induction l generalizing s with
  | nil => exact nomatch mem
  | cons y l ih =>
    rcases List.mem_cons.mp mem with rfl | mem
    · exact (notice_noticed _ s).of_posts warnAll_posts.frames warnAll_posts.dropped
    · exact (ih mem).before (congrArg Counting.clock (notice_cnt _ s))

theorem distribute_heat (s : State) : (distribute s).heat = s.heat.distribute s.par.mFire.toNat :=
  warnAll_keeps .heat (by decide)

theorem distribute_posts {s : State} : Posts s (distribute s) :=
  posts_trans (posts_of_keeps upHeat_keeps (by decide)) warnAll_posts

/-- A SHORTFALL count that reaches its limit is warned of (03 R53). -/
theorem distribute_noticed {s : State} {z : Zone} (reached : z ∈ shortReached s.heat (s.heat.distribute s.par.mFire.toNat)) :
    Noticed (.warning (.zoneShortfall z)) s (distribute s) :=
  warnAll_noticed (s := s.upHeat fun h => h.distribute s.par.mFire.toNat) reached

theorem shortLimit_eq (f : Freq) : shortLimit f = if f = .hz60 then 600 else 500 := by cases f <;> rfl

theorem mem_shortReached {old new : Heat} {z : Zone} : z ∈ shortReached old new ↔
    (old.zones.get z).shortfall = true ∧ (new.zones.get z).shortfall = true
      ∧ (old.zones.get z).shortCount < shortLimit old.freq ∧ (new.zones.get z).shortCount = shortLimit old.freq := by
  simp [shortReached, and_assoc]

/-! ## The edge in its cases -/

/-- The level of ZC has changed, and nothing else yet. -/
def State.zcChanged (s : State) : State := s.upPins fun p => { p with zc := !p.zc }

theorem zeroCross_eq (gap : Nat) (s : State) :
    zeroCross gap s =
      if s.heat.on = false then s.zcChanged
      else if s.heat.lost = true then s.zcChanged.upHeat Heat.mainsBack
      else if s.heat.edgePending = false then s.zcChanged.upHeat Heat.firstEdge
      else if gap < 200 then s.zcChanged else takeEdge gap s.zcChanged :=
  if_congr (by simp) rfl (if_congr Iff.rfl rfl (if_congr (by simp) rfl rfl))

/-- The edge starts the timing, after HEAT_ON or a mains loss. -/
theorem zeroCross_first {gap : Nat} {s : State} (on : s.heat.on = true)
    (start : s.heat.lost = true ∨ s.heat.edgePending = false) :
    (zeroCross gap s).heat = if s.heat.lost = true then s.heat.mainsBack else s.heat.firstEdge := by
  rw [zeroCross_eq, if_neg (by simp [on])]
  split
  · rfl
  · next kept => rw [if_pos (start.resolve_left kept)]; rfl

theorem zeroCross_noise {gap : Nat} {s : State} (lost : s.heat.lost = false) (timed : s.heat.edgePending = true)
    (noise : gap < 200) : (zeroCross gap s).heat = s.heat := by
  rw [zeroCross_eq, lost, timed, if_pos noise]
  simp [State.zcChanged]

theorem zeroCross_takes {gap : Nat} {s : State} (on : s.heat.on = true) (lost : s.heat.lost = false)
    (timed : s.heat.edgePending = true) (far : 200 ≤ gap) :
    zeroCross gap s = takeEdge gap s.zcChanged := by
  rw [zeroCross_eq]
  simp [on, lost, timed, Nat.not_lt.mpr far]

/-! ## A taken edge -/

/-- The period has been measured and its excursion warned of; the distributor runs next (03 R54, R55). -/
def measured (gap : Nat) (s : State) : State :=
  let u := s.upHeat fun h => h.measure gap
  if u.heat.excursion && !s.heat.excursion then warn (.mainsFreq gap) u else u

theorem takeEdge_eq (gap : Nat) (s : State) : takeEdge gap s = distribute (measured gap s) := rfl

theorem measured_keeps {gap : Nat} {s : State} : Keeps [.heat, .flt] s (measured gap s) :=
  keeps_trans (keeps_mono upHeat_keeps (by decide))
    (keeps_ite (fun _ => keeps_mono warn_keeps (by decide)) fun _ => keeps_refl)

theorem takeEdge_keeps {gap : Nat} {s : State} : Keeps [.heat, .flt] s (takeEdge gap s) :=
  keeps_trans measured_keeps distribute_keeps

theorem measured_heat (gap : Nat) (s : State) : (measured gap s).heat = s.heat.measure gap := by
  unfold measured
  dsimp only
  split
  · rw [warn_heat]; rfl
  · rfl

theorem takeEdge_heat (gap : Nat) (s : State) :
    (takeEdge gap s).heat = (s.heat.measure gap).distribute s.par.mFire.toNat := by
  rw [takeEdge_eq, distribute_heat, measured_heat, measured_keeps .par (by decide)]

/-- A period newly outside the band is warned of (03 R55). -/
theorem takeEdge_mainsFreq {gap : Nat} {s : State} (out : (s.heat.measure gap).excursion = true)
    (new : s.heat.excursion = false) : Noticed (.warning (.mainsFreq gap)) s (takeEdge gap s) := by
  have warned : measured gap s = warn (.mainsFreq gap) (s.upHeat fun h => h.measure gap) := if_pos (by simp [out, new])
  have told : Noticed (.warning (.mainsFreq gap)) s (measured gap s) := by
    rw [warned]
    exact (notice_noticed _ _).before (s := s) rfl
  exact told.of_posts distribute_posts.frames distribute_posts.dropped

/-- A zone after a taken edge. -/
theorem takeEdge_get (gap : Nat) (s : State) (z : Zone) :
    (takeEdge gap s).heat.zones.get z = (s.heat.zones.get z).distributed (shortLimit (s.heat.measure gap).freq)
      (s.heat.grants s.par.mFire.toNat z) := by
  rw [takeEdge_heat, distribute_get]
  rfl

/-- A SHORTFALL count one short of its limit reaches it at a run with the flag still set after it (03 R53). -/
theorem takeEdge_shortfall {gap : Nat} {s : State} {z : Zone} (after : ((takeEdge gap s).heat.zones.get z).shortfall = true)
    (before : (s.heat.zones.get z).shortfall = true)
    (last : (s.heat.zones.get z).shortCount + 1 = shortLimit (s.heat.measure gap).freq) :
    Noticed (.warning (.zoneShortfall z)) s (takeEdge gap s) := by
  have count : ((takeEdge gap s).heat.zones.get z).shortCount = shortLimit (s.heat.measure gap).freq := by
    rw [takeEdge_get] at after ⊢
    rw [distributed_shortCount _ _ _ after, if_pos before, last, min_self]
  have heat := takeEdge_heat gap s
  have par : (measured gap s).par = s.par := measured_keeps .par (by decide)
  rw [takeEdge_eq]
  refine Noticed.before (distribute_noticed ?_) (congrArg Counting.clock (measured_keeps .cnt (by decide)))
  rw [measured_heat, par, ← heat]
  exact mem_shortReached.mpr ⟨before, after, Nat.lt_of_succ_le last.le, count⟩

/-! ## The statement -/

theorem zeroCross_pins (gap : Nat) (s : State) : (zeroCross gap s).pins = { s.pins with zc := !s.pins.zc } := by
  rw [zeroCross_eq]
  split
  · rfl
  split
  · rfl
  split
  · rfl
  split
  · rfl
  · exact takeEdge_keeps .pins (by decide)

/-- Settles O24: the edge by its cases, and at a taken edge each zone by `takeEdge_get`, the grants by `grants_iff`. -/
theorem zeroCrossFiresWithinTheLimit : Obligations.ZeroCrossFiresWithinTheLimit := by
  intro gap s
  refine ⟨_, rfl, zeroCross_keeps, zeroCross_pins gap s, fun off => by rw [zeroCross_eq, if_pos off]; rfl, fun on start => ?_, fun _ lost timed noise =>
    zeroCross_noise lost timed noise, fun on lost timed far => ?_⟩
  · rw [zeroCross_first on start]
    split
    · exact ⟨rfl, rfl, rfl, fun _ => ⟨rfl, rfl⟩, fun z => six_map_get _ _ z⟩
    · next kept =>
      exact ⟨Bool.eq_false_iff.mpr kept, rfl, rfl, fun lost => absurd lost kept, fun z => six_map_get _ _ z⟩
  · rw [zeroCross_takes on lost timed far]
    have heat : (takeEdge gap s.zcChanged).heat = (s.heat.measure gap).distribute s.par.mFire.toNat := takeEdge_heat gap _
    have zone : ∀ z, (takeEdge gap s.zcChanged).heat.zones.get z = (s.heat.zones.get z).distributed
        (shortLimit (s.heat.measure gap).freq) (s.heat.grants s.par.mFire.toNat z) := takeEdge_get gap _
    have fired : ∀ z, ((takeEdge gap s.zcChanged).heat.zones.get z).ssr = s.heat.grants s.par.mFire.toNat z := fun z => by
      rw [zone, distributed_ssr]
    have credit : ∀ z, ((takeEdge gap s.zcChanged).heat.zones.get z).credit =
        (s.heat.zones.get z).leftCredit (s.heat.grants s.par.mFire.toNat z) := fun z => by
      rw [zone, distributed_credit]
    have freq : (takeEdge gap s.zcChanged).heat.freq = (s.heat.measure gap).freq := by rw [heat]; rfl
    have excursion : (takeEdge gap s.zcChanged).heat.excursion = (s.heat.measure gap).excursion := by rw [heat]; rfl
    refine ⟨by rw [heat]; rfl, by rw [heat]; rfl, by rw [excursion]; exact decide_eq_true_iff, fun out new => ?_,
      fun known => by rw [freq]; exact if_neg known, fun unknown => by rw [freq]; exact if_pos unknown, ?_,
      fun z => ⟨fun g => ?_, fun g => ?_⟩, ?_⟩
    · exact takeEdge_mainsFreq (s := s.zcChanged) (excursion.symm.trans out) new
    · show (Zone.all.countP fun z => ((takeEdge gap s.zcChanged).heat.zones.get z).ssr) ≤ _
      simp only [fired]
      exact countP_grants _ _
    · rw [fired] at g
      obtain ⟨may, worth, left⟩ := grants_pays g
      exact ⟨may, worth, by rw [credit, g]; exact left⟩
    · rw [fired] at g
      rw [credit, g]
      split
      · next may => exact fullCredit_of_may may
      · next idle => exact fullCredit_of_not_may idle
    refine ⟨fun z => ?_, fun z enabled nearest => ?_, fun z =>
      ⟨?_, fun after before => ?_, fun after before => ?_, fun after before last => ?_⟩⟩
    · show ((takeEdge gap s.zcChanged).heat.zones.get z).ssr = true ↔ _
      rw [fired, grants_iff, candidate_iff]
      refine and_congr_right fun _ => iff_of_eq (congrArg (· < _) (List.countP_congr fun y _ => ?_))
      rw [Bool.and_eq_true, decide_eq_true_eq, decide_eq_true_eq, candidate_iff]
      rfl
    · rw [heat]
      exact nextPointer_eq (h := s.heat) enabled nearest
    · rw [zone, distributed_shortfall, overflows_iff]
      rfl
    · rw [zone] at after ⊢
      rw [distributed_shortCount _ _ _ after, before]
      rfl
    · rw [zone] at after ⊢
      rw [distributed_shortCount _ _ _ after, if_pos before, freq, shortLimit_eq]
    · exact takeEdge_shortfall (s := s.zcChanged) after before (last.trans (by rw [freq, shortLimit_eq]; rfl))

end Sys2Proof.Machine
end

