-- ==== Sys2Proof/Proofs/LinkInvariant.lean ====
section
/-! SUPPORT. A property that every host command keeps is kept by the host link at work (10 R173, 11 R178 to R180). -/

namespace Sys2Proof.Machine
open Sys2Proof

/-- A property of the state that each host command keeps, and each thing the host link does around them: it changes the
transmit queue and itself, places a waiting report and makes a decision. -/
structure LinkInvariant (P : State → Prop) : Prop where
  link : ∀ {s t}, P s → Keeps [.flt, .lnk] s t → t.flt.latch = s.flt.latch → P t
  op : ∀ {s} c, P s → P (hostOp c s).1
  report : ∀ {s}, P s → P (flushReport none s)
  decision : ∀ {s}, P s → P (decide_ s)

section
variable {P : State → Prop} {s : State}

theorem LinkInvariant.carryOut {kind tag : Byte} {op : State → State × Reply} (i : LinkInvariant P) (h : P s)
    (hop : ∀ u, P u → P (op u).1) : P (carryOut kind tag op s) := by
  have acting : P (s.upFlt fun f => { f with kept := true }) := i.link h (keeps_mono upFlt_keeps (by decide)) rfl
  exact i.link (hop _ acting) (keeps_mono answer_keeps (by decide)) (place_latch _ _)

theorem LinkInvariant.runFrame {f : Frame} (i : LinkInvariant P) (h : P s) : P (runFrame f s) := by
  unfold Machine.runFrame
  split
  · exact i.carryOut h fun _ hu => hu
  · exact i.carryOut h fun _ hu => hu
  · exact i.carryOut h fun _ hu => i.op _ hu

theorem LinkInvariant.takeFrames {n : Nat} (i : LinkInvariant P) (h : P s) : P (takeFrames n s) := by
  induction n generalizing s with
  | zero => exact h
  | succ n ih =>
    unfold Machine.takeFrames
    split
    · exact h
    · split
      · exact ih (i.runFrame (i.link h (keeps_mono upLnk_keeps (by decide)) rfl))
      · exact h

theorem LinkInvariant.takeWaiting (i : LinkInvariant P) (h : P s) : P (takeWaiting s) := i.takeFrames h

theorem LinkInvariant.restartLink (i : LinkInvariant P) (h : P s) : P (restartLink s) :=
  i.link h (keeps_mono restartLink_keeps (by decide)) rfl

theorem LinkInvariant.hostFrameArrives {f : Frame} (i : LinkInvariant P) (h : P s) : P (hostFrameArrives s f) := by
  have buffered : P (bufferFrame f (Machine.restartLink s)) := i.link (i.restartLink h)
    (keeps_mono bufferFrame_keeps (by decide)) (congrArg FaultMon.latch (bufferFrame_keeps .flt (by decide)))
  unfold Machine.hostFrameArrives
  dsimp only
  split
  · exact i.takeWaiting buffered
  · exact i.restartLink h

theorem LinkInvariant.hostCommand {c : Instr} (i : LinkInvariant P) (h : P s) : P (hostCommand c s) := by
  unfold Machine.hostCommand
  split
  · unfold hostExec
    split
    · exact i.carryOut (i.restartLink h) fun _ hu => i.op c hu
    · exact i.hostFrameArrives h
  · exact h

theorem LinkInvariant.receive {bytes : List Byte} (i : LinkInvariant P) (h : P s) : P (receive bytes s) := by
  have frames : ∀ (l : List Frame) {u : State}, P u → P (l.foldl Machine.hostFrameArrives u) := by
    intro l
    induction l with
    | nil => exact fun hu => hu
    | cons f l ih => exact fun hu => ih (i.hostFrameArrives hu)
  exact frames _ (i.link h (keeps_mono upLnk_keeps (by decide)) rfl)

theorem LinkInvariant.frameSent (i : LinkInvariant P) (h : P s) : P (frameSent s) := by
  unfold Machine.frameSent
  split
  · exact h
  · next x _ =>
    have sped : P (changeSpeed x.newBaud s) := i.link h (keeps_mono changeSpeed_keeps (by decide))
      (congrArg FaultMon.latch (changeSpeed_keeps .flt (by decide)))
    have sent : P ((changeSpeed x.newBaud s).upFlt fun f => { f with current := none }.begin_) :=
      i.link sped (keeps_mono upFlt_keeps (by decide)) (begin_latch _)
    unfold placeFreed
    dsimp only
    split
    · exact i.takeWaiting (i.decision (i.report sent))
    · exact i.takeWaiting (i.report sent)

end

end Sys2Proof.Machine
end

