-- ==== Sys2Proof/Proofs/HeatSafe.lean ====
section
/-! PROOF. Every step keeps the zone records in range, and an SSR output on only where its zone may be fired (03 R40 to
R56). -/

namespace Sys2Proof.Machine
open Sys2Proof

/-! ## One zone record -/

section
variable {h : Heat} {r : ZoneRec}

/-- Only whether heat is on and mains present matters of the heat controller. -/
theorem ZoneOk.frame {h' : Heat} (k : ZoneOk h r) (on : h'.on = h.on) (lost : h'.lost = h.lost) : ZoneOk h' r where
  credit := k.credit
  demand := k.demand
  integ := k.integ
  history := k.history
  fired := by rw [on, lost]; exact k.fired

/-- Only the values spoken of matter of the record. -/
theorem ZoneOk.elsewhere (k : ZoneOk h r) {offset lastValid : Int} {reading : Reading} {valid : Option Bool}
    {invalid shortCount : Nat} {hold : Timer} {shortfall inBand cold raised : Bool} :
    ZoneOk h { r with
      offset := offset, reading := reading, valid := valid, lastValid := lastValid, invalid := invalid, hold := hold
      shortfall := shortfall, shortCount := shortCount, inBand := inBand, cold := cold, raised := raised } :=
  ⟨k.credit, k.demand, k.integ, k.history, k.fired⟩

/-- A demand of 0 is in range. -/
theorem ZoneOk.undriven (k : ZoneOk h r) : ZoneOk h { r with demand := 0 } :=
  ⟨k.credit, by simp, k.integ, k.history, k.fired⟩

/-- A zone with its SSR output off, its values in range. -/
theorem ZoneOk.dark {h' : Heat} {q : ZoneRec} (k : ZoneOk h r) (credit : q.credit = r.credit ∨ q.credit = 0)
    (demand : q.demand = r.demand ∨ q.demand = 0) (integ : q.integ = r.integ ∨ q.integ = 0)
    (hist : q.hist = r.hist ∨ q.hist = []) (off : q.ssr = false) : ZoneOk h' q where
  credit := by rcases credit with e | e <;> rw [e]; exacts [k.credit, by decide]
  demand := by rcases demand with e | e <;> rw [e]; exacts [k.demand, by decide]
  integ := by rcases integ with e | e <;> rw [e]; exacts [k.integ, by decide]
  history := by rcases hist with e | e <;> rw [e]; exacts [k.history, by simp]
  fired := fun lit => by rw [off] at lit; exact nomatch lit

/-- The SSR output is off where the zone may not be fired. -/
theorem ZoneOk.ssr_off (k : ZoneOk h r) (idle : h.on = false ∨ r.enable = false) : r.ssr = false := by
  by_contra lit
  obtain ⟨on, -, enabled, -⟩ := k.fired (Bool.not_eq_false _ ▸ lit)
  rcases idle with off | disabled
  · exact nomatch on.symm.trans off
  · exact nomatch enabled.symm.trans disabled

/-! ### The sensor (03 R44 to R46) -/

theorem ZoneOk.read (k : ZoneOk h r) (x : Option Int) : ZoneOk h (r.read x) := k.elsewhere

theorem ZoneOk.counted (k : ZoneOk h r) : ZoneOk h r.counted := k.elsewhere

theorem ZoneOk.reported (k : ZoneOk h r) (line : LineState) : ZoneOk h (r.reported line) := by
  rw [reported_eq]
  exact k.elsewhere

/-- The average of values in 0 to 1000 lies there too. -/
theorem histAverage_range {l : List Int} (range : ∀ d ∈ l, 0 ≤ d ∧ d ≤ 1000) : 0 ≤ histAverage l ∧ histAverage l ≤ 1000 := by
  rw [histAverage_eq]
  split
  · decide
  · next some =>
    have length : (0 : Int) < l.length := by exact_mod_cast List.length_pos_of_ne_nil some
    have low : 0 ≤ l.sum := List.sum_nonneg fun d hd => (range d hd).1
    have high : l.sum ≤ l.length • (1000 : Int) := List.sum_le_card_nsmul l 1000 fun d hd => (range d hd).2
    refine ⟨Int.ediv_nonneg low length.le, Int.ediv_le_of_le_mul length ?_⟩
    rw [nsmul_eq_mul] at high
    linarith

/-- A zone that holds may still be fired. -/
theorem ZoneOk.enterHold (k : ZoneOk h r) : ZoneOk h r.enterHold where
  credit := k.credit
  demand := histAverage_range k.history.2
  integ := k.integ
  history := k.history
  fired := fun lit => by
    obtain ⟨on, mains, enabled, -, cool⟩ := k.fired lit
    exact ⟨on, mains, enabled, nofun, cool⟩

theorem ZoneOk.enterLost (k : ZoneOk h r) : ZoneOk h r.enterLost :=
  k.dark (.inr rfl) (.inr rfl) (.inl rfl) (.inl rfl) rfl

theorem ZoneOk.sensed (k : ZoneOk h r) (line : LineState) : ZoneOk h (r.sensed line h) := by
  unfold ZoneRec.sensed
  split
  · exact k
  split
  · refine ⟨k.credit, k.demand, k.integ, k.history, fun lit => ?_⟩
    obtain ⟨on, mains, enabled, -, cool⟩ := k.fired lit
    exact ⟨on, mains, enabled, nofun, cool⟩
  split
  · split
    · exact k.counted.enterHold
    · exact k.counted
  · split
    · exact k.counted.enterLost.reported line
    · exact k.counted
  · split
    · exact k.counted.reported line
    · exact k.counted

/-! ### Limits and demand (03 R48, R49) -/

/-- A zone newly over its limits is switched off at once: an OVERHEAT zone has no SSR output on. -/
theorem ZoneOk.limited (k : ZoneOk h r) (thAbs : Int) : ZoneOk h (r.limited thAbs h) := by
  unfold ZoneRec.limited
  split
  · refine k.dark (.inr rfl) (.inr rfl) (.inl rfl) (.inl rfl) ?_
    show (r.ssr && r.overheat) = false
    by_contra lit
    obtain ⟨lit, hot⟩ := Bool.and_eq_true_iff.mp (Bool.not_eq_false _ ▸ lit)
    obtain ⟨-, -, -, -, cool⟩ := k.fired lit
    rw [hot] at cool
    exact nomatch cool
  · refine ⟨k.credit, k.demand, k.integ, k.history, fun lit => ?_⟩
    obtain ⟨on, mains, enabled, sensor, -⟩ := k.fired lit
    exact ⟨on, mains, enabled, sensor, rfl⟩

theorem ZoneOk.judged (k : ZoneOk h r) (line : LineState) (p : Params) : ZoneOk h (r.judged line p h) :=
  ((k.sensed line).limited p.thAbs).elsewhere

theorem pushDemand_range {l : List Int} {d : Int} (history : l.length ≤ 10 ∧ ∀ x ∈ l, 0 ≤ x ∧ x ≤ 1000)
    (new : 0 ≤ d ∧ d ≤ 1000) : (pushDemand l d).length ≤ 10 ∧ ∀ x ∈ pushDemand l d, 0 ≤ x ∧ x ≤ 1000 := by
  obtain ⟨length, range⟩ := history
  rw [pushDemand_eq]
  refine ⟨?_, fun x hx => ?_⟩
  · split <;> simp <;> omega
  · rcases List.mem_append.mp hx with old | last
    · refine range x ?_
      split at old
      · exact old
      · exact List.mem_of_mem_tail old
    · rw [List.mem_singleton.mp last]
      exact new

theorem ZoneOk.control (k : ZoneOk h r) (e kP kI : Int) : ZoneOk h (r.control e kP kI) := by
  obtain ⟨demand, integ, -⟩ := control_eq r e kP kI
  have drive : 0 ≤ (r.control e kP kI).demand ∧ (r.control e kP kI).demand ≤ 1000 := by rw [demand]; omega
  refine ⟨k.credit, drive, ?_, pushDemand_range k.history drive, k.fired⟩
  rw [integ]
  split
  · exact k.integ
  · omega

theorem ZoneOk.driven (k : ZoneOk h r) (p : Params) : ZoneOk h (r.driven p h) := by
  unfold ZoneRec.driven
  split
  · split
    · exact ⟨k.credit, k.undriven.demand, k.integ, pushDemand_range k.history (by decide), k.fired⟩
    · exact k.control _ _ _
  · exact k

theorem ZoneOk.sampled (k : ZoneOk h r) (line : LineState) (p : Params) (x : Option Int) :
    ZoneOk h (r.sampled line p h x) := ((k.read x).judged line p).driven p

/-! ### Heat commands (03 R42, R43) -/

/-- A zone that becomes enabled had its SSR output off. -/
theorem ZoneOk.setEnable (k : ZoneOk h r) (e : Bool) : ZoneOk h (r.setEnable e) := by
  unfold ZoneRec.setEnable
  split
  · exact k
  · next change =>
    split
    · next on =>
      have disabled : r.enable = false := by simpa [on] using change
      exact k.dark (.inr rfl) (.inr rfl) (.inr rfl) (.inr rfl) (k.ssr_off (.inr disabled))
    · exact k.dark (.inr rfl) (.inr rfl) (.inr rfl) (.inr rfl) rfl

/-! ### The distributor (03 R52) -/

theorem ZoneOk.fullCredit (k : ZoneOk h r) : 0 ≤ r.fullCredit ∧ r.fullCredit ≤ 2000 := by
  obtain ⟨credit, cap⟩ := k.credit
  obtain ⟨demand, -⟩ := k.demand
  unfold ZoneRec.fullCredit
  split <;> omega

end

/-- A run keeps each zone: a fired one may be, and pays no more than its credit. -/
theorem ZoneOk.distributed {h : Heat} {z : Zone} (k : ZoneOk h (h.zones.get z)) (on : h.on = true) (mains : h.lost = false)
    (limit m : Nat) : ZoneOk h ((h.zones.get z).distributed limit (h.grants m z)) := by
  obtain ⟨count, e, -⟩ := distributed_eq limit (h.grants m z) (h.zones.get z)
  obtain ⟨low, high⟩ := k.fullCredit
  rw [e]
  cases g : h.grants m z with
  | false => exact ⟨⟨low, high⟩, k.demand, k.integ, k.history, nofun⟩
  | true =>
    obtain ⟨⟨enabled, sensor, cool⟩, worth, left⟩ := grants_pays g
    refine ⟨?_, k.demand, k.integ, k.history, fun _ => ⟨on, mains, enabled, sensor, cool⟩⟩
    show 0 ≤ (h.zones.get z).leftCredit true ∧ (h.zones.get z).leftCredit true ≤ 2000
    omega

/-! ## The operations of the heat controller -/

section
variable {s : State}

theorem HeatOk.of_heat {t : State} (h : HeatOk s) (e : t.heat = s.heat) : HeatOk t := by
  unfold HeatOk
  rw [e]
  exact h

theorem HeatOk.of_keeps {l : List Block} {t : State} (h : HeatOk s) (k : Keeps l s t) (hl : .heat ∉ l) : HeatOk t :=
  h.of_heat (k .heat hl)

/-- Heat stays on or off and the mains present or lost; each zone is kept. -/
theorem heatOk_of_zones {t : State} (on : t.heat.on = s.heat.on) (lost : t.heat.lost = s.heat.lost)
    (zones : ∀ z, ZoneOk s.heat (t.heat.zones.get z)) : HeatOk t := fun z => (zones z).frame on lost

theorem HeatOk.updZone {z : Zone} {f : ZoneRec → ZoneRec} (h : HeatOk s)
    (zone : ZoneOk s.heat (f (s.heat.zones.get z))) : HeatOk (updZone z f s) := by
  refine heatOk_of_zones (s := s) rfl rfl fun y => ?_
  by_cases same : y = z
  · subst same
    rw [updZone_get_same]
    exact zone
  · show ZoneOk s.heat ((s.heat.zones.modify z f).get y)
    rw [modify_get_ne _ _ same]
    exact h y

theorem HeatOk.temperatureSample (h : HeatOk s) (readings : Six (Option Int)) : HeatOk (temperatureSample readings s) := by
  have heat := temperatureSample_heat readings s
  refine heatOk_of_zones (s := s) ?_ ?_ fun z => ?_
  · rw [heat, readyStage_on]; rfl
  · rw [heat, readyStage_eq]
    split
    · split <;> rfl
    · rfl
  · rw [temperatureSample_get]
    exact ((h z).sampled s.mot.line s.par (readings.get z)).elsewhere

theorem HeatOk.zoneHold (h : HeatOk s) (z : Zone) : HeatOk (zoneHold z s) := by
  unfold Machine.zoneHold
  dsimp only
  split
  · refine h.updZone ?_
    split
    · exact (h z).enterHold.undriven
    · exact (h z).enterHold
  · exact h

theorem HeatOk.zoneSensor (h : HeatOk s) (z : Zone) : HeatOk (zoneSensor z s) := by
  have lost : HeatOk (Machine.updZone z ZoneRec.enterLost s) := h.updZone (h z).enterLost
  unfold Machine.zoneSensor goLost raiseZoneSensor
  split
  · split
    · have told : HeatOk (Machine.updZone z (fun r => { r with raised := true }) (Machine.updZone z ZoneRec.enterLost s)) :=
        lost.updZone (lost z).elsewhere
      exact told.of_heat (raise_heat _ _ _)
    · exact lost.of_heat (warn_heat _ _)
  · exact h

theorem HeatOk.readiness (h : HeatOk s) : HeatOk (readiness s) := by
  unfold Machine.readiness
  split
  · refine HeatOk.of_heat ?_ (findings_heat _ _)
    exact heatOk_of_zones (s := s) rfl rfl h
  · exact h

theorem HeatOk.zoneShortfall (h : HeatOk s) (z : Zone) : HeatOk (zoneShortfall z s) := by
  unfold Machine.zoneShortfall
  dsimp only
  split
  · exact HeatOk.of_heat (h.updZone (h z).elsewhere) (warn_heat _ _)
  · exact h

theorem HeatOk.mainsLost (h : HeatOk s) : HeatOk (mainsLost s) := by
  refine HeatOk.of_heat (s := s.upHeat Heat.mainsGone) (fun z => ?_) (raise_heat _ _ _)
  rw [show (s.upHeat Heat.mainsGone).heat.zones.get z = _ from six_map_get _ _ z]
  exact (h z).dark (.inr rfl) (.inl rfl) (.inl rfl) (.inl rfl) rfl

/-- An edge that fires no zone. -/
theorem HeatOk.unfired {t : State} (h : HeatOk s)
    (zones : ∀ z, t.heat.zones.get z = { s.heat.zones.get z with ssr := false }) : HeatOk t := fun z => by
  rw [zones]
  exact (h z).dark (.inl rfl) (.inl rfl) (.inl rfl) (.inl rfl) rfl

theorem HeatOk.takeEdge (h : HeatOk s) (on : s.heat.on = true) (mains : s.heat.lost = false) (gap : Nat) :
    HeatOk (takeEdge gap s) := by
  refine heatOk_of_zones (s := s) ?_ ?_ fun z => ?_
  · rw [takeEdge_heat]; rfl
  · rw [takeEdge_heat]; rfl
  · rw [takeEdge_get]
    exact (h z).distributed on mains _ _

theorem HeatOk.zeroCross (h : HeatOk s) (gap : Nat) : HeatOk (zeroCross gap s) := by
  have taken : HeatOk s.zcChanged := h
  rw [zeroCross_eq]
  split
  · exact taken
  next on =>
  split
  · exact h.unfired fun z => six_map_get _ _ z
  next mains =>
  split
  · exact h.unfired fun z => six_map_get _ _ z
  split
  · exact taken
  · exact taken.takeEdge (Bool.not_eq_false _ ▸ on) (Bool.not_eq_true _ ▸ mains) gap

/-! ## The heat commands (02 R18, R20, 03 R42, R43) -/

theorem HeatOk.takeDrum (h : HeatOk s) (setpoint : Int) (offsets : Six Int) (mask : Nat) :
    HeatOk (takeDrum setpoint offsets mask s) := by
  refine heatOk_of_zones (s := s) rfl rfl fun z => ?_
  rw [takeDrum_get]
  exact ((h z).setEnable (mask.testBit z.num)).elsewhere

theorem HeatOk.setDrum (h : HeatOk s) (setpoint : Int) (offsets : Six Int) (mask : Nat) :
    HeatOk (setDrumOp setpoint offsets mask s).1 := by
  unfold setDrumOp
  split
  · exact h.takeDrum setpoint offsets mask
  · exact h

/-- HEAT_ON finds heat off, and so every SSR output. -/
theorem HeatOk.takeHeatOn (h : HeatOk s) (off : s.heat.on = false) (setpoint : Int) (offsets : Six Int) (mask : Nat) :
    HeatOk (takeHeatOn setpoint offsets mask s) := fun z => by
  rw [show (Machine.takeHeatOn setpoint offsets mask s).heat.zones.get z = _ from ofZone_get _ z]
  exact (h z).dark (.inr rfl) (.inr rfl) (.inr rfl) (.inr rfl) ((h z).ssr_off (.inl off))

theorem HeatOk.heatOn (h : HeatOk s) (line : LineOk s) (setpoint : Int) (offsets : Six Int) (mask : Nat) :
    HeatOk (heatOnOp setpoint offsets mask s).1 := by
  rw [heatOnOp_eq]
  split
  · exact h
  split
  · exact h
  split
  · next off => exact (h.takeHeatOn (line.heatOff off) setpoint offsets mask).of_keeps setLine_keeps (by decide)
  · exact h.setDrum setpoint offsets mask

theorem HeatOk.heatOff (h : HeatOk s) : HeatOk (heatOffOp s).1 := by
  have off : HeatOk (heatOffLine s) := fun z => by
    rw [heatOffLine_heat, show s.heat.turnOff.zones.get z = _ from six_map_get _ _ z]
    exact (h z).dark (.inr rfl) (.inr rfl) (.inr rfl) (.inr rfl) rfl
  rw [heatOffOp_eq]
  split
  · exact h
  split
  · exact h
  · exact off

theorem HeatOk.hostOp (h : HeatOk s) (line : LineOk s) (c : Instr) : HeatOk (hostOp c s).1 := by
  cases c with
  | heatOn _ setpoint offsets mask => exact h.heatOn line setpoint offsets mask
  | heatOff => exact h.heatOff
  | setDrum _ setpoint offsets mask => exact h.setDrum setpoint offsets mask
  | powerOnReset | resetn | tickBatch | seekDistanceReached | markCapture | spliceCapture | nipLimitChange | nipTimeout
  | nipHold | estop | estopRelease | speedAndTensionSample | encoderSilent | stall | webBreak | overTension | doseSample
  | temperatureSample | zoneHold | zoneSensor | readiness | zeroCrossEdge | zoneShortfall | mainsLost | pulseEnd
  | linkLost | timeDeadline | frameGapTimeout | validFrame | unknownCommand | frameSent | headFrameSent | accept | refuse
  | done | fault | headOtherKindFrame | lenOutOfRange | headFrameBadCrc => exact h
  | _ => exact h.of_keeps hostOp_keeps (by simp [touches])

end

/-! ## The host link -/

/-- The heat is safe and the line consistent. -/
structure HeatSafe (s : State) : Prop where
  motion : MotionInv s
  heat : HeatOk s

theorem heatSafe_link : LinkInvariant HeatSafe where
  link := fun h k latch => ⟨h.motion.of_keeps k (by decide) latch, h.heat.of_keeps k (by decide)⟩
  op := fun c h => ⟨h.motion.hostOp c, h.heat.hostOp h.motion.line c⟩
  report := fun h => ⟨h.motion.row (b := false) flushReport_runs (param_of_keeps flushReport_keeps (by decide) (by decide))
    (h.motion.line.of_runs flushReport_runs flushReport_keeps (by decide)), h.heat.of_keeps flushReport_keeps (by decide)⟩
  decision := fun h => ⟨h.motion.of_keeps decide_keeps (by decide) (congrArg FaultMon.latch (decide_keeps .flt (by decide))),
    h.heat.of_keeps decide_keeps (by decide)⟩

/-! ## Resets and the millisecond -/

theorem heatOk_resetPart (s : State) : HeatOk (resetPart s) := by
  have limited : HeatOk s.limited := (reset_heatOk.of_heat (t := s.cleared) rfl).of_keeps limited_keeps (by decide)
  rw [resetPart_of_limited]
  split
  · exact limited.of_keeps estopActs_keeps (by decide)
  · exact limited

theorem HeatOk.advance {s : State} (h : HeatOk s) : HeatOk (advance s) := by
  refine heatOk_of_zones (s := s) rfl rfl fun z => ?_
  rw [show (Machine.advance s).heat.zones.get z = _ from six_map_get _ _ z, holdTick_eq]
  exact (h z).elsewhere

theorem heatOk_ite {c : Prop} [Decidable c] {s t : State} (h : HeatOk s) (k : HeatOk t) : HeatOk (if c then s else t) := by
  split <;> assumption

/-- Of the timers only that of the mains loss concerns the heat. -/
theorem HeatOk.tick {s : State} (h : HeatOk s) : HeatOk (tick s) := by
  have silence : ∀ {u : State} (c : Chan), HeatOk u → HeatOk (Machine.silenceDue u c) := fun _ hu =>
    hu.of_keeps silenceDue_keeps (by decide)
  have nip : ∀ {u : State}, HeatOk u → HeatOk (Machine.nipDue u) := fun hu =>
    heatOk_ite (hu.of_keeps nipExpires_keeps (by decide)) hu
  have hold : ∀ {u : State}, HeatOk u → HeatOk (Machine.holdDue u) := fun hu =>
    heatOk_ite (hu.of_keeps holdEnds_keeps (by decide)) hu
  have mains : ∀ {u : State}, HeatOk u → HeatOk (Machine.mainsDue u) := fun hu => heatOk_ite hu.mainsLost hu
  have link : ∀ {u : State}, HeatOk u → HeatOk (Machine.linkDue u) := fun hu =>
    heatOk_ite (hu.of_keeps linkExpires_keeps (by decide)) hu
  exact (link (mains (hold (nip (silence _ (silence _ (silence _ h.advance))))))).of_keeps deadlineDue_keeps (by decide)

/-! ## The rows and the step -/

theorem HeatOk.exec {c : Instr} {s t : State} (h : HeatOk s) (m : MotionInv s) (e : exec c s = .next t) : HeatOk t := by
  have safe : HeatSafe s := ⟨m, h⟩
  cases hf : commandFrame c with
  | some f =>
    rw [exec_host hf] at e
    cases e
    exact (heatSafe_link.hostCommand safe).heat
  | none =>
    have frame := exec_keeps c s
    cases c with
    | powerOnReset | resetn => cases e; exact heatOk_resetPart s
    | temperatureSample readings => cases e; exact h.temperatureSample readings
    | zoneHold z => cases e; exact h.zoneHold z
    | zoneSensor z => cases e; exact h.zoneSensor z
    | readiness => cases e; exact h.readiness
    | zeroCrossEdge gap => cases e; exact h.zeroCross gap
    | zoneShortfall z => cases e; exact h.zoneShortfall z
    | mainsLost => cases e; exact heatOk_ite h.mainsLost h
    | validFrame => cases e; exact (heatSafe_link.receive safe).heat
    | unknownCommand => cases e; exact (heatSafe_link.hostFrameArrives safe).heat
    | frameSent => cases e; exact (heatSafe_link.frameSent safe).heat
    | tickBatch ch =>
      cases e
      exact h.of_keeps tickBatch_keeps (by cases ch <;> simp [touches])
    | frameGapTimeout link =>
      cases e
      exact h.of_keeps abandon_keeps (by cases link <;> decide)
    | lenOutOfRange link =>
      cases e
      exact h.of_keeps lenByte_keeps (by cases link <;> simp [touches])
    | seekDistanceReached | markCapture | spliceCapture | nipLimitChange | nipTimeout | nipHold | estop | estopRelease
    | speedAndTensionSample | encoderSilent | stall | webBreak | overTension | doseSample | pulseEnd | linkLost
    | timeDeadline | headFrameSent | accept | refuse | done | fault | headOtherKindFrame | headFrameBadCrc =>
      obtain ⟨u, hu, k⟩ := frame rfl
      cases e.symm.trans hu
      exact h.of_keeps k (by simp [touches, faultBlocks])
    | _ => exact nomatch hf

/-- Settles O56: a step on an empty queue is a millisecond, any other runs one row, and each keeps the zones safe; the
host link takes several commands in one row, and carries the consistent line along. -/
theorem stepKeepsTheHeatSafe : Obligations.StepKeepsTheHeatSafe := by
  intro s t motion h e
  unfold step at e
  split at e
  · cases e; exact h.tick
  · next rest _ =>
    have unqueued : MotionInv { s with pending := rest } :=
      ⟨motion.params.congr fun _ => rfl, motion.caps, motion.line.of_mot rfl rfl rfl⟩
    exact HeatOk.exec (s := { s with pending := rest }) (h.of_heat rfl) unqueued e

end Sys2Proof.Machine
end


-- ==== Sys2Proof/Proofs/PanelMoves.lean ====
section
/-! SUPPORT. What every operation of a row makes of the panel queue, said once (`Moves`): records changed in place, sent
back, retired, placed, an insert cancelled, the queue emptied. A fact about the records, the capacities or the placements is
then an induction over these pieces. -/

namespace Sys2Proof.Machine
open Sys2Proof

/-! ## Records -/

/-- The records of the queue and of the insert slots (07 R111). -/
def PanelQueue.records (q : PanelQueue) : List Panel := q.queue ++ q.inserts

/-- Tags are unique across the queue and the insert slots (07 R111). -/
def PanelQueue.TagsOnce (q : PanelQueue) : Prop := (q.records.map Panel.tag).Nodup

/-- The next probe point of the panel lies between its A and its A + L (04 R64, R65). -/
def Panel.PointOk (p : Panel) : Prop :=
  ∀ a, p.arrival = some a → ∀ d, p.dose = some d → ∀ n, d.next = some n → a ≤ n ∧ n ≤ a + p.length

/-- A panel in place after a change of its record: tag, length and x_s stay, it is not QUEUED again, an arrival stays, and
the next probe point stays on the panel. -/
structure Panel.Follows (spacing : Int) (p p' : Panel) : Prop where
  tag : p'.tag = p.tag
  length : p'.length = p.length
  xs : p'.xs = p.xs
  queued : p'.state = .queued → p.state = .queued
  arrival : ∀ a, p.arrival = some a → p'.arrival = some a
  points : 0 < spacing → 0 < p.length → p.PointOk → p'.PointOk

/-- What admission leaves of a record that no mark and no engine frame has touched. -/
structure Panel.Kin (p p' : Panel) : Prop where
  tag : p'.tag = p.tag
  length : p'.length = p.length
  arrival : p'.arrival = p.arrival
  dose : p'.dose = p.dose
  printed : p'.printed = p.printed
  attempts : p'.attempts = p.attempts

theorem Panel.Kin.refl (p : Panel) : p.Kin p := ⟨rfl, rfl, rfl, rfl, rfl, rfl⟩

theorem Panel.Kin.trans {p q r : Panel} (h : p.Kin q) (k : q.Kin r) : p.Kin r :=
  ⟨k.tag.trans h.tag, k.length.trans h.length, k.arrival.trans h.arrival, k.dose.trans h.dose, k.printed.trans h.printed,
    k.attempts.trans h.attempts⟩

theorem Panel.Follows.refl (spacing : Int) (p : Panel) : p.Follows spacing p :=
  ⟨rfl, rfl, rfl, id, fun _ => id, fun _ _ => id⟩

/-- A record whose arrival and next probe point have not changed. -/
theorem Panel.PointOk.congr {p p' : Panel} (h : p.PointOk) (arrival : p'.arrival = p.arrival) (length : p'.length = p.length)
    (next : ∀ d', p'.dose = some d' → ∃ d, p.dose = some d ∧ d'.next = d.next) : p'.PointOk := by
  intro a ha d' hd n hn
  obtain ⟨d, hd, e⟩ := next d' hd
  rw [length]
  exact h a (arrival ▸ ha) d hd n (e ▸ hn)

/-- A change that leaves arrival, dose fields, length and x_s. -/
theorem Panel.follows_of_same {spacing : Int} {p p' : Panel} (tag : p'.tag = p.tag) (length : p'.length = p.length)
    (xs : p'.xs = p.xs) (queued : p'.state = .queued → p.state = .queued) (arrival : p'.arrival = p.arrival)
    (dose : p'.dose = p.dose) : p.Follows spacing p' :=
  ⟨tag, length, xs, queued, fun _ h => arrival.trans h,
    fun _ _ h => h.congr arrival length fun d' hd => ⟨d', dose ▸ hd, rfl⟩⟩

/-! ## Lists of records -/

theorem mem_without {tag : Nat} {l : List Panel} {p : Panel} : p ∈ without tag l ↔ p ∈ l ∧ p.tag ≠ tag := by
  simp [without]

theorem without_sublist (tag : Nat) (l : List Panel) : (without tag l).Sublist l := List.filter_sublist

/-- A record inserted stands before the first QUEUED one. -/
theorem insertBeforeQueued_split (p : Panel) (l : List Panel) :
    ∃ before after, l = before ++ after ∧ insertBeforeQueued p l = before ++ p :: after
      ∧ ∀ q rest, after = q :: rest → q.state = .queued := by
  induction l with
  | nil => exact ⟨[], [], rfl, rfl, fun _ _ e => absurd e (by simp)⟩
  | cons x xs ih =>
    unfold insertBeforeQueued
    split
    · next queued =>
      refine ⟨[], x :: xs, rfl, rfl, fun q rest e => ?_⟩
      cases e
      exact queued
    · obtain ⟨before, after, e, e', queued⟩ := ih
      exact ⟨x :: before, after, by rw [e]; rfl, by rw [e']; rfl, queued⟩

/-- A panel placed stands behind the placed ones. -/
theorem insertPlaced_split (p : Panel) (l : List Panel) :
    ∃ before after, l = before ++ after ∧ insertPlaced p l = before ++ p :: after
      ∧ (∀ q ∈ before, q.xs ≠ none) ∧ ∀ q rest, after = q :: rest → q.xs = none := by
  induction l with
  | nil => exact ⟨[], [], rfl, rfl, by simp, fun _ _ e => absurd e (by simp)⟩
  | cons x xs ih =>
    unfold insertPlaced
    split
    · next placed =>
      obtain ⟨before, after, e, e', all, unplaced⟩ := ih
      refine ⟨x :: before, after, by rw [e]; rfl, by rw [e']; rfl, fun q hq => ?_, unplaced⟩
      rcases List.mem_cons.mp hq with rfl | hq
      · exact Option.isSome_iff_ne_none.mp placed
      · exact all q hq
    · next unplaced =>
      refine ⟨[], x :: xs, rfl, rfl, by simp, fun q rest e => ?_⟩
      cases e
      simpa using unplaced

theorem insertBeforeQueued_perm (p : Panel) (l : List Panel) : (insertBeforeQueued p l).Perm (p :: l) := by
  obtain ⟨before, after, e, e', -⟩ := insertBeforeQueued_split p l
  rw [e', e]
  exact List.perm_middle

theorem insertPlaced_perm (p : Panel) (l : List Panel) : (insertPlaced p l).Perm (p :: l) := by
  obtain ⟨before, after, e, e', -⟩ := insertPlaced_split p l
  rw [e', e]
  exact List.perm_middle

/-- Taking the records of a tag out shortens the list by one at least. -/
theorem without_length_lt {p : Panel} {l : List Panel} (h : p ∈ l) : (without p.tag l).length < l.length := by
  refine List.length_filter_lt_length_iff_exists.mpr ⟨p, h, ?_⟩
  simp

/-- With unique tags the list is a record and those of other tags. -/
theorem perm_without {l : List Panel} (once : (l.map Panel.tag).Nodup) {p : Panel} (h : p ∈ l) :
    l.Perm (p :: without p.tag l) := by
  induction l with
  | nil => exact nomatch h
  | cons x xs ih =>
    obtain ⟨first, rest⟩ := List.nodup_cons.mp once
    have others : ∀ {q}, q ∈ xs → q.tag ≠ x.tag := fun hq e => first (List.mem_map.mpr ⟨_, hq, e⟩)
    rcases List.mem_cons.mp h with rfl | h
    · have all : without p.tag (p :: xs) = xs := by
        unfold without
        rw [List.filter_cons_of_neg (by simp), List.filter_eq_self]
        exact fun q hq => by simpa using others hq
      rw [all]
    · have keep : without p.tag (x :: xs) = x :: without p.tag xs :=
        List.filter_cons_of_pos (by simpa using (others h).symm)
      rw [keep]
      exact ((ih rest h).cons x).trans (.swap _ _ _)

theorem mem_inserts {q : PanelQueue} {p : Panel} : p ∈ q.inserts ↔ .armed p ∈ q.slots ∨ .cancelled p ∈ q.slots := by
  unfold PanelQueue.inserts
  rw [List.mem_filterMap]
  constructor
  · rintro ⟨x, hx, e⟩
    cases x with
    | empty => exact nomatch e
    | armed r => cases e; exact .inl hx
    | cancelled r => cases e; exact .inr hx
  · rintro (h | h)
    · exact ⟨_, h, rfl⟩
    · exact ⟨_, h, rfl⟩

theorem mem_records {q : PanelQueue} {p : Panel} : p ∈ q.records ↔ p ∈ q.queue ∨ p ∈ q.inserts := List.mem_append

theorem records_tags (q : PanelQueue) : q.records.map Panel.tag = q.queue.map Panel.tag ++ q.inserts.map Panel.tag :=
  List.map_append

theorem PanelQueue.TagsOnce.queue {q : PanelQueue} (h : q.TagsOnce) : (q.queue.map Panel.tag).Nodup := by
  unfold PanelQueue.TagsOnce at h
  rw [records_tags] at h
  exact (List.nodup_append.mp h).1

theorem PanelQueue.TagsOnce.eq {q : PanelQueue} (h : q.TagsOnce) {p r : Panel} (hp : p ∈ q.records) (hr : r ∈ q.records)
    (e : p.tag = r.tag) : p = r := List.inj_on_of_nodup_map h hp hr e

/-- A record of the queue has its tag alone, also among the inserts. -/
theorem PanelQueue.TagsOnce.apart {q : PanelQueue} (h : q.TagsOnce) {p r : Panel} (hp : p ∈ q.queue) (hr : r ∈ q.inserts) :
    p.tag ≠ r.tag := by
  unfold PanelQueue.TagsOnce at h
  rw [records_tags] at h
  exact (List.nodup_append.mp h).2.2 _ (List.mem_map_of_mem hp) _ (List.mem_map_of_mem hr)

/-- Retiring a record leaves a part of the inserts. -/
theorem emptied_sublist (tag : Nat) (slots : List Slot) :
    ((slots.map (Slot.emptied tag)).filterMap Slot.panel?).Sublist (slots.filterMap Slot.panel?) := by
  induction slots with
  | nil => exact .slnil
  | cons x xs ih =>
    cases x with
    | empty => exact ih
    | armed p => exact ih.cons_cons p
    | cancelled p =>
      by_cases h : p.tag = tag
      · have gone : Slot.emptied tag (.cancelled p) = .empty := if_pos h
        rw [List.map_cons, gone]
        exact ih.cons p
      · have stays : Slot.emptied tag (.cancelled p) = .cancelled p := if_neg h
        rw [List.map_cons, stays]
        exact ih.cons_cons p

/-- Cancelling an insert leaves the tags. -/
theorem cancel_tags (tag : Nat) (slots : List Slot) :
    ((slots.map (Slot.cancel tag)).filterMap Slot.panel?).map Panel.tag = (slots.filterMap Slot.panel?).map Panel.tag := by
  induction slots with
  | nil => rfl
  | cons x xs ih =>
    cases x with
    | empty => exact ih
    | cancelled p => exact congrArg (p.tag :: ·) ih
    | armed p =>
      by_cases h : p.tag = tag
      · have gone : Slot.cancel tag (.armed p) = .cancelled p.cancelled := if_pos h
        rw [List.map_cons, gone]
        exact congrArg (p.tag :: ·) ih
      · have stays : Slot.cancel tag (.armed p) = .armed p := if_neg h
        rw [List.map_cons, stays]
        exact congrArg (p.tag :: ·) ih

/-- An armed insert leaves its slot. -/
theorem inserts_set_empty {slots : List Slot} {i : Nat} {p : Panel} (h : slots[i]? = some (.armed p)) :
    (slots.filterMap Slot.panel?).Perm (p :: (slots.set i .empty).filterMap Slot.panel?) := by
  induction slots generalizing i with
  | nil => exact nomatch h
  | cons x xs ih =>
    cases i with
    | zero => cases h; exact .refl _
    | succ i =>
      have rest := ih h
      cases x with
      | empty => exact rest
      | armed q => exact (rest.cons q).trans (.swap _ _ _)
      | cancelled q => exact (rest.cons q).trans (.swap _ _ _)

/-! ## The candidate of a decision (07 R116) -/

theorem indexOf_some {α : Type} {f : α → Bool} {l : List α} {i : Nat} (h : indexOf f l = some i) :
    ∃ x, l[i]? = some x ∧ f x = true := by
  induction l generalizing i with
  | nil => exact nomatch h
  | cons x xs ih =>
    unfold indexOf at h
    split at h
    · next hx => cases h; exact ⟨x, rfl, hx⟩
    · obtain ⟨j, hj, rfl⟩ := Option.map_eq_some_iff.mp h
      exact ih hj

/-- The candidate is an armed insert, or a QUEUED panel of the queue. -/
theorem candidate_cases {s : State} {slot : Option Nat} {p : Panel} (h : s.candidate = some (slot, p)) :
    (slot = none ∧ p ∈ s.pq.queue ∧ p.state = .queued) ∨ ∃ i, slot = some i ∧ s.pq.slots[i]? = some (.armed p) := by
  unfold State.candidate at h
  split at h
  · next i _ =>
    split at h
    · next q hq => cases h; exact .inr ⟨i, rfl, hq⟩
    · exact nomatch h
  · obtain ⟨q, hq, e⟩ := Option.map_eq_some_iff.mp h
    cases e
    exact .inl ⟨rfl, List.mem_of_find?_eq_some hq, by simpa using List.find?_some hq⟩

/-- A decision is made with room in the head-link buffer, and for an insert in the queue (07 R115). -/
theorem mayDecide_room {s : State} {slot : Option Nat} (h : s.mayDecide slot = true) :
    s.head.buf.length < 8 ∧ (slot = none ∨ s.pq.queue.length < 64) := by
  unfold State.mayDecide at h
  simp only [Bool.and_eq_true, Bool.or_eq_true, decide_eq_true_eq, Option.isNone_iff_eq_none] at h
  exact ⟨h.2, h.1.1.2⟩

/-! ## The pieces -/

/-- Outside the panel queue the lists keep their room, and the gap and the probe spacing their signs. -/
structure Fits (s t : State) : Prop where
  headLink : s.head.buf.length ≤ 8 → t.head.buf.length ≤ 8
  probes : s.dose.probes.length ≤ 64 → t.dose.probes.length ≤ 64
  triggers : t.trg.slots.length = s.trg.slots.length
  windows : t.trg.windows.length = s.trg.windows.length
  splices : s.trg.splices.length ≤ 4 → t.trg.splices.length ≤ 4
  gap : 0 ≤ s.par.gap → 0 ≤ t.par.gap
  spacing : 0 < s.par.spacing → 0 < t.par.spacing

/-- The record of a panel sent back to the queue without an x_s: refused, skipped or cancelled (07 R121, R122, R128). A
refusal that is counted adds an attempt. -/
structure Panel.SentBack (b : Bool) (p p' : Panel) : Prop where
  kin : b = false → p.Kin p'
  tag : p'.tag = p.tag
  length : p'.length = p.length
  xs : p'.xs = none
  arrival : p'.arrival = p.arrival
  dose : p'.dose = p.dose

/-- `t` is reached from `s` by pieces of these kinds; records change in place, or have an attempt counted, only where
`b` allows it: no host command does that. -/
inductive Moves (b : Bool) : State → State → Prop
  | same {s t : State} (queue : t.pq.queue = s.pq.queue) (slots : t.pq.slots = s.pq.slots)
      (lastEnd : t.pq.lastEnd = s.pq.lastEnd) (fits : Fits s t) : Moves b s t
  | panels {s : State} (h : b = true) (g : Panel → Panel) (tag : ∀ p, (g p).tag = p.tag)
      (follows : (s.pq.queue.map Panel.tag).Nodup → ∀ p ∈ s.pq.queue, p.Follows s.par.spacing (g p)) :
      Moves b s (s.upPq fun q => { q with queue := q.queue.map g })
  | back {s : State} {p p' : Panel} (mem : p ∈ s.pq.queue) (sent : p.SentBack b p') (lastEnd : Int)
      (ends : lastEnd = s.pq.lastEnd ∨ ∃ pp, lastEnd = endOfPlaced (without p.tag s.pq.queue) pp) :
      Moves b s (s.upPq fun q =>
        { q with queue := insertBeforeQueued p' (without p.tag q.queue), lastEnd := lastEnd })
  | retire {s : State} (tag : Nat) : Moves b s (s.upPq fun q =>
      { q with queue := without tag q.queue, slots := q.slots.map (Slot.emptied tag) })
  | place {s : State} {slot : Option Nat} {p : Panel} (candidate : s.candidate = some (slot, p))
      (may : s.mayDecide slot = true) : Moves b s (placePanel slot p s)
  | cancelSlot {s : State} (tag : Nat) : Moves b s (s.upPq fun q => { q with slots := q.slots.map (Slot.cancel tag) })
  | clear {s : State} (lastEnd : Int) : Moves b s (s.upPq fun q =>
      { q with queue := [], slots := [.empty, .empty, .empty, .empty], lastEnd := lastEnd })
  | rebase {s : State} (h : s.anyFlying = false) (lastEnd : Int) : Moves b s (s.upPq fun q => { q with lastEnd := lastEnd })
  | trans {s t u : State} (h : Moves b s t) (k : Moves b t u) : Moves b s u

variable {b : Bool}

theorem fits_refl (s : State) : Fits s s := ⟨id, id, rfl, rfl, id, id, id⟩

/-- A change of the panel queue alone. -/
theorem fits_upPq (s : State) (f : PanelQueue → PanelQueue) : Fits s (s.upPq f) := ⟨id, id, rfl, rfl, id, id, id⟩

theorem moves_refl {s : State} : Moves b s s := .same rfl rfl rfl (fits_refl s)

/-- The blocks the pieces speak of. -/
def panelBlocks : List Block := [.pq, .head, .dose, .trg, .par]

theorem fits_of_blocks {s t : State} (head : t.head.buf = s.head.buf) (dose : t.dose.probes = s.dose.probes)
    (slots : t.trg.slots.length = s.trg.slots.length) (windows : t.trg.windows.length = s.trg.windows.length)
    (splices : t.trg.splices.length = s.trg.splices.length) (par : t.par = s.par) : Fits s t where
  headLink := fun h => by rw [head]; exact h
  probes := fun h => by rw [dose]; exact h
  triggers := slots
  windows := windows
  splices := fun h => by rw [splices]; exact h
  gap := fun h => by rw [par]; exact h
  spacing := fun h => by rw [par]; exact h

/-- An operation that leaves the blocks the pieces speak of. -/
theorem moves_of_keeps {l : List Block} {s t : State} (k : Keeps l s t) (h : ∀ x ∈ panelBlocks, x ∉ l) : Moves b s t := by
  have pq : t.pq = s.pq := k .pq (h _ (by decide))
  have trg : t.trg = s.trg := k .trg (h _ (by decide))
  exact .same (by rw [pq]) (by rw [pq]) (by rw [pq])
    (fits_of_blocks (by rw [show t.head = s.head from k .head (h _ (by decide))])
      (by rw [show t.dose = s.dose from k .dose (h _ (by decide))]) (by rw [trg]) (by rw [trg]) (by rw [trg])
      (k .par (h _ (by decide))))

/-- A change of the panel queue that leaves its records and last_end. -/
theorem moves_upPq {s : State} {f : PanelQueue → PanelQueue} (queue : (f s.pq).queue = s.pq.queue)
    (slots : (f s.pq).slots = s.pq.slots) (lastEnd : (f s.pq).lastEnd = s.pq.lastEnd) : Moves b s (s.upPq f) :=
  .same queue slots lastEnd (fits_upPq _ _)

/-- A change of the trigger unit that leaves the lengths of its lists. -/
theorem moves_upTrg {s : State} {f : TrigUnit → TrigUnit} (slots : (f s.trg).slots.length = s.trg.slots.length)
    (windows : (f s.trg).windows.length = s.trg.windows.length)
    (splices : (f s.trg).splices.length = s.trg.splices.length) : Moves b s (s.upTrg f) :=
  .same rfl rfl rfl (fits_of_blocks rfl rfl slots windows splices rfl)

theorem moves_ite {c : Prop} [Decidable c] {s t u : State} (h : Moves b s t) (k : Moves b s u) :
    Moves b s (if c then t else u) := by
  split <;> assumption

theorem moves_foldl {α : Type} {f : State → α → State} (h : ∀ s x, Moves b s (f s x)) (xs : List α) (s : State) :
    Moves b s (xs.foldl f s) := by
  induction xs generalizing s with
  | nil => exact moves_refl
  | cons x xs ih => exact (h s x).trans (ih _)

/-! ## What the pieces keep: the capacities -/

/-- The queue and the lists within their capacities (07 R111, R118, 04 R62, 09 R151, R157, R160). -/
structure SizesOk (s : State) : Prop where
  headLink : s.head.buf.length ≤ 8
  panels : s.pq.queue.length ≤ 64
  inserts : s.pq.slots.length = 4
  probes : s.dose.probes.length ≤ 64
  triggers : s.trg.slots.length = 24
  windows : s.trg.windows.length = 8
  splices : s.trg.splices.length ≤ 4

theorem SizesOk.fits {s t : State} (h : SizesOk s) (f : Fits s t) (panels : t.pq.queue.length ≤ 64)
    (inserts : t.pq.slots.length = 4) : SizesOk t :=
  ⟨f.headLink h.headLink, panels, inserts, f.probes h.probes, f.triggers.trans h.triggers, f.windows.trans h.windows,
    f.splices h.splices⟩

theorem SizesOk.place {s : State} {slot : Option Nat} {p : Panel} (h : SizesOk s) (candidate : s.candidate = some (slot, p))
    (may : s.mayDecide slot = true) : SizesOk (placePanel slot p s) := by
  obtain ⟨head, room⟩ := mayDecide_room may
  have panels : (without p.tag s.pq.queue).length < 64 := by
    rcases candidate_cases candidate with ⟨-, mem, -⟩ | ⟨i, rfl, -⟩
    · exact lt_of_lt_of_le (without_length_lt mem) h.panels
    · exact lt_of_le_of_lt (without_sublist _ _).length_le (room.resolve_left nofun)
  refine ⟨?_, ?_, ?_, h.probes, h.triggers, h.windows, h.splices⟩
  · exact (List.length_append ..).trans_le head
  · exact (insertPlaced_perm _ _).length_eq.trans_le panels
  · show (match slot with | some i => s.pq.slots.set i .empty | none => s.pq.slots).length = 4
    cases slot with
    | none => exact h.inserts
    | some i => exact List.length_set.trans h.inserts

theorem Moves.sizes {s t : State} (m : Moves b s t) (h : SizesOk s) : SizesOk t := by
  induction m with
  | same queue slots _ fits => exact h.fits fits (by rw [queue]; exact h.panels) (by rw [slots]; exact h.inserts)
  | panels => exact h.fits (fits_upPq _ _) ((List.length_map ..).trans_le h.panels) h.inserts
  | @back s p p' mem sent =>
    exact h.fits (fits_upPq _ _) ((insertBeforeQueued_perm p' _).length_eq.trans_le
      (Nat.succ_le_of_lt (lt_of_lt_of_le (without_length_lt mem) h.panels))) h.inserts
  | @retire s tag =>
    exact h.fits (fits_upPq _ _) ((without_sublist tag s.pq.queue).length_le.trans h.panels)
      ((List.length_map ..).trans h.inserts)
  | place candidate may => exact h.place candidate may
  | cancelSlot => exact h.fits (fits_upPq _ _) h.panels ((List.length_map ..).trans h.inserts)
  | clear => exact h.fits (fits_upPq _ _) (Nat.zero_le _) rfl
  | rebase => exact ⟨h.headLink, h.panels, h.inserts, h.probes, h.triggers, h.windows, h.splices⟩
  | trans _ _ ih ih' => exact ih' (ih h)

end Sys2Proof.Machine
end

