-- ==== Sys2Proof/Proofs/RecordsKept.lean ====
section
/-! SUPPORT. What the pieces keep of the records: tags stay unique, and a record of the queue or the inserts comes from one of
the same tag that has its arrival (07 R111, 08 R144). -/

namespace Sys2Proof.Machine
open Sys2Proof

variable {b : Bool}

/-! ## Tags (07 R111) -/

theorem PanelQueue.TagsOnce.of_sublist {q r : PanelQueue} (h : q.TagsOnce) (k : r.records.Sublist q.records) : r.TagsOnce :=
  (k.map Panel.tag).nodup h

theorem PanelQueue.TagsOnce.of_perm {q r : PanelQueue} (h : q.TagsOnce)
    (k : (r.records.map Panel.tag).Perm (q.records.map Panel.tag)) : r.TagsOnce := k.nodup_iff.mpr h

/-- The records of a queue with one record taken out and put back elsewhere. -/
theorem reinsert_perm {q : PanelQueue} (h : q.TagsOnce) {p p' : Panel} (mem : p ∈ q.queue) (tag : p'.tag = p.tag) {l : List Panel}
    (k : l.Perm (p' :: without p.tag q.queue)) : (l.map Panel.tag).Perm (q.queue.map Panel.tag) :=
  (k.map _).trans (by
    rw [List.map_cons, tag]
    exact ((perm_without h.queue mem).map Panel.tag).symm)

theorem placePanel_tags {s : State} {slot : Option Nat} {p : Panel} (h : s.pq.TagsOnce)
    (candidate : s.candidate = some (slot, p)) :
    ((placePanel slot p s).pq.records.map Panel.tag).Perm (s.pq.records.map Panel.tag) := by
  rw [records_tags, records_tags]
  rcases candidate_cases candidate with ⟨rfl, mem, -⟩ | ⟨i, rfl, armed⟩
  · have queue : ((placePanel none p s).pq.queue.map Panel.tag).Perm (s.pq.queue.map Panel.tag) := by
      refine reinsert_perm h mem ?_ (insertPlaced_perm _ _)
      rfl
    exact queue.append (.refl _)
  · have queue : without p.tag s.pq.queue = s.pq.queue :=
      List.filter_eq_self.mpr fun r hr => decide_eq_true
        (h.apart hr (mem_inserts.mpr (.inl (List.mem_of_getElem? armed))))
    have inserts := (inserts_set_empty armed).map Panel.tag
    refine ((((insertPlaced_perm _ _).map Panel.tag).append (.refl _)).trans ?_)
    rw [queue]
    exact List.perm_middle.symm.trans (inserts.symm.append_left _)

theorem Moves.tags {s t : State} (m : Moves b s t) (h : s.pq.TagsOnce) : t.pq.TagsOnce := by
  induction m with
  | same queue slots =>
    unfold PanelQueue.TagsOnce PanelQueue.records PanelQueue.inserts
    rw [queue, slots]
    exact h
  | @panels s _ g tag =>
    refine h.of_perm ?_
    rw [records_tags, records_tags]
    refine List.Perm.append ?_ (.refl _)
    show ((s.pq.queue.map g).map Panel.tag).Perm _
    rw [List.map_map]
    exact List.Perm.of_eq (List.map_congr_left fun p _ => tag p)
  | @back s p p' mem sent =>
    refine h.of_perm ?_
    rw [records_tags, records_tags]
    exact (reinsert_perm h mem sent.tag (insertBeforeQueued_perm p' _)).append (.refl _)
  | @retire s tag => exact h.of_sublist ((without_sublist tag s.pq.queue).append (emptied_sublist tag s.pq.slots))
  | place candidate _ => exact h.of_perm (placePanel_tags h candidate)
  | @cancelSlot s tag =>
    refine h.of_perm ?_
    rw [records_tags, records_tags]
    exact (List.Perm.refl _).append (List.Perm.of_eq (cancel_tags tag s.pq.slots))
  | clear => exact List.nodup_nil
  | rebase => exact h
  | trans _ _ ih ih' => exact ih' (ih h)

/-! ## Where a record comes from (08 R144) -/

/-- Each record of `r` comes from one of `q` of its tag, and has its arrival; where `b` allows no change in place, it has
what admission left besides. -/
def Descends (b : Bool) (q r : PanelQueue) : Prop :=
  ∀ x ∈ r.records, ∃ p ∈ q.records, x.tag = p.tag ∧ (∀ a, p.arrival = some a → x.arrival = some a) ∧ (b = false → p.Kin x)

theorem descends_refl (q : PanelQueue) : Descends b q q := fun x hx => ⟨x, hx, rfl, fun _ => id, fun _ => .refl x⟩

theorem Descends.trans {q r u : PanelQueue} (h : Descends b q r) (k : Descends b r u) : Descends b q u := fun x hx => by
  obtain ⟨y, hy, tag, arrival, kin⟩ := k x hx
  obtain ⟨z, hz, tag', arrival', kin'⟩ := h y hy
  exact ⟨z, hz, tag.trans tag', fun a ha => arrival a (arrival' a ha), fun hb => (kin' hb).trans (kin hb)⟩

theorem descends_of_mem {q r : PanelQueue} (h : ∀ x ∈ r.records, x ∈ q.records) : Descends b q r :=
  fun x hx => ⟨x, h x hx, rfl, fun _ => id, fun _ => .refl x⟩

theorem Panel.kin_arrival {p p' : Panel} (h : p'.arrival = p.arrival) : ∀ a, p.arrival = some a → p'.arrival = some a :=
  fun _ ha => h.trans ha

theorem placePanel_descends {s : State} {slot : Option Nat} {p : Panel} (candidate : s.candidate = some (slot, p)) :
    Descends b s.pq (placePanel slot p s).pq := by
  have mem : p ∈ s.pq.records := by
    rcases candidate_cases candidate with ⟨-, mem, -⟩ | ⟨i, -, armed⟩
    · exact mem_records.mpr (.inl mem)
    · exact mem_records.mpr (.inr (mem_inserts.mpr (.inl (List.mem_of_getElem? armed))))
  have slots : ∀ x ∈ (placePanel slot p s).pq.slots, x ∈ s.pq.slots ∨ x = .empty := fun x hx => by
    cases slot with
    | none => exact .inl hx
    | some i => exact List.mem_or_eq_of_mem_set hx
  intro x hx
  rcases mem_records.mp hx with queued | kept
  · rcases List.mem_cons.mp ((insertPlaced_perm _ _).mem_iff.mp queued) with rfl | other
    · exact ⟨p, mem, rfl, fun _ => id, fun _ => ⟨rfl, rfl, rfl, rfl, rfl, rfl⟩⟩
    · exact ⟨x, mem_records.mpr (.inl (mem_without.mp other).1), rfl, fun _ => id, fun _ => .refl x⟩
  · refine ⟨x, mem_records.mpr (.inr (mem_inserts.mpr ?_)), rfl, fun _ => id, fun _ => .refl x⟩
    rcases mem_inserts.mp kept with armed | cancelled
    · exact .inl ((slots _ armed).resolve_right nofun)
    · exact .inr ((slots _ cancelled).resolve_right nofun)

theorem cancel_kin {tag : Nat} {slots : List Slot} {x : Panel}
    (h : x ∈ (slots.map (Slot.cancel tag)).filterMap Slot.panel?) : ∃ p ∈ slots.filterMap Slot.panel?, p.Kin x := by
  obtain ⟨y, hy, e⟩ := List.mem_filterMap.mp h
  obtain ⟨z, hz, rfl⟩ := List.mem_map.mp hy
  cases z with
  | empty => exact nomatch e
  | cancelled p => cases e; exact ⟨x, List.mem_filterMap.mpr ⟨_, hz, rfl⟩, .refl x⟩
  | armed p =>
    refine ⟨p, List.mem_filterMap.mpr ⟨_, hz, rfl⟩, ?_⟩
    unfold Slot.cancel at e
    dsimp only at e
    split at e
    · cases e; exact ⟨rfl, rfl, rfl, rfl, rfl, rfl⟩
    · cases e; exact .refl _

theorem Moves.descends {s t : State} (m : Moves b s t) (h : s.pq.TagsOnce) : Descends b s.pq t.pq := by
  induction m with
  | same queue slots =>
    refine descends_of_mem fun x hx => ?_
    unfold PanelQueue.records PanelQueue.inserts at hx ⊢
    rw [queue, slots] at hx
    exact hx
  | panels hb g tag follows =>
    intro x hx
    rcases mem_records.mp hx with queued | kept
    · obtain ⟨p, hp, rfl⟩ := List.mem_map.mp queued
      exact ⟨p, mem_records.mpr (.inl hp), tag p, (follows h.queue p hp).arrival, fun k => by rw [hb] at k; exact nomatch k⟩
    · exact ⟨x, mem_records.mpr (.inr kept), rfl, fun _ => id, fun _ => .refl x⟩
  | @back s p p' mem sent =>
    intro x hx
    rcases mem_records.mp hx with queued | kept
    · rcases List.mem_cons.mp ((insertBeforeQueued_perm _ _).mem_iff.mp queued) with rfl | other
      · exact ⟨p, mem_records.mpr (.inl mem), sent.tag, Panel.kin_arrival sent.arrival, sent.kin⟩
      · exact ⟨x, mem_records.mpr (.inl (mem_without.mp other).1), rfl, fun _ => id, fun _ => .refl x⟩
    · exact ⟨x, mem_records.mpr (.inr kept), rfl, fun _ => id, fun _ => .refl x⟩
  | @retire s tag =>
    exact descends_of_mem fun x hx => ((without_sublist tag s.pq.queue).append (emptied_sublist tag s.pq.slots)).subset hx
  | place candidate _ => exact placePanel_descends candidate
  | @cancelSlot s tag =>
    intro x hx
    rcases mem_records.mp hx with queued | kept
    · exact ⟨x, mem_records.mpr (.inl queued), rfl, fun _ => id, fun _ => .refl x⟩
    · obtain ⟨p, hp, kin⟩ := cancel_kin kept
      exact ⟨p, mem_records.mpr (.inr hp), kin.tag, Panel.kin_arrival kin.arrival, fun _ => kin⟩
  | clear => exact fun x hx => nomatch hx
  | rebase => exact descends_refl _
  | trans m _ ih ih' => exact (ih h).trans (ih' (m.tags h))

end Sys2Proof.Machine
end

