-- ==== Sys2Proof/Proofs/Placements.lean ====
section
/-! SUPPORT. The pieces keep the placed panels first, ascending and clear of one another (07 R111, R116), and each next probe
point on its panel (04 R64, R65). -/

namespace Sys2Proof.Machine
open Sys2Proof

variable {b : Bool}

/-! ## The order of the queue (07 R111) -/

/-- `p` may stand before `q`: it is placed where `q` is, and ends at or before the start of `q`. -/
def Panel.Before (p q : Panel) : Prop :=
  (q.xs ≠ none → p.xs ≠ none) ∧ ∀ x y, p.xs = some x → q.xs = some y → x + p.length ≤ y

theorem before_unplaced {p q : Panel} (h : q.xs = none) : p.Before q :=
  ⟨fun k => absurd h k, fun _ _ _ hy => by rw [h] at hy; exact nomatch hy⟩

theorem Panel.Before.unplaced {p q : Panel} (h : p.Before q) (k : p.xs = none) : q.xs = none := by
  by_contra placed
  exact h.1 placed k

/-- Behind a panel that is not placed none is. -/
theorem unplaced_after {l : List Panel} (h : l.Pairwise Panel.Before) (first : ∀ q rest, l = q :: rest → q.xs = none) :
    ∀ q ∈ l, q.xs = none := by
  cases l with
  | nil => exact fun _ h => nomatch h
  | cons x xs =>
    have head := first x xs rfl
    intro q hq
    rcases List.mem_cons.mp hq with rfl | hq
    · exact head
    · exact ((List.pairwise_cons.mp h).1 q hq).unplaced head

/-- A panel put between the two parts of a queue. -/
theorem pairwise_put {before after : List Panel} {p : Panel} (h : (before ++ after).Pairwise Panel.Before)
    (left : ∀ q ∈ before, q.Before p) (right : ∀ q ∈ after, p.Before q) : (before ++ p :: after).Pairwise Panel.Before := by
  obtain ⟨hb, ha, across⟩ := List.pairwise_append.mp h
  refine List.pairwise_append.mpr ⟨hb, List.pairwise_cons.mpr ⟨right, ha⟩, fun q hq r hr => ?_⟩
  rcases List.mem_cons.mp hr with rfl | hr
  · exact left q hq
  · exact across q hq r hr

theorem insertBeforeQueued_before {l : List Panel} {p : Panel} (h : l.Pairwise Panel.Before) (xs : p.xs = none)
    (queued : ∀ q ∈ l, q.state = .queued → q.xs = none) : (insertBeforeQueued p l).Pairwise Panel.Before := by
  obtain ⟨before, after, rfl, e, first⟩ := insertBeforeQueued_split p l
  rw [e]
  have unplaced := unplaced_after (List.pairwise_append.mp h).2.1 fun q rest k =>
    queued q (List.mem_append_right _ (k ▸ List.mem_cons_self)) (first q rest k)
  exact pairwise_put h (fun _ _ => before_unplaced xs) fun q hq => before_unplaced (unplaced q hq)

theorem insertPlaced_before {l : List Panel} {p : Panel} {x : Int} (h : l.Pairwise Panel.Before) (xs : p.xs = some x)
    (ends : ∀ q ∈ l, ∀ y, q.xs = some y → y + q.length ≤ x) : (insertPlaced p l).Pairwise Panel.Before := by
  obtain ⟨before, after, rfl, e, placed, first⟩ := insertPlaced_split p l
  rw [e]
  have unplaced := unplaced_after (List.pairwise_append.mp h).2.1 first
  refine pairwise_put h (fun q hq => ⟨fun _ => placed q hq, fun y z hy hz => ?_⟩) fun q hq => before_unplaced (unplaced q hq)
  rw [xs] at hz
  cases hz
  exact ends q (List.mem_append_left _ hq) y hy

/-! ## last_end (07 R121) -/

/-- The end that `laterEnd` has found. -/
def endOr (pp : Int) : Option (Int × Int) → Int
  | some (_, e) => e
  | none => pp

theorem endOfPlaced_eq (l : List Panel) (pp : Int) : endOfPlaced l pp = endOr pp (l.foldl laterEnd none) := by
  unfold endOfPlaced endOr
  split <;> simp_all

theorem laterEnd_some {p : Panel} {x : Int} {found : Option (Int × Int)} (xs : p.xs = some x)
    (h : ∀ y e, found = some (y, e) → y < x) : laterEnd found p = some (x, x + p.length) := by
  unfold laterEnd
  rw [xs]
  cases found with
  | none => rfl
  | some f => exact if_pos (h f.1 f.2 rfl)

theorem laterEnd_none {p : Panel} {found : Option (Int × Int)} (xs : p.xs = none) : laterEnd found p = found := by
  unfold laterEnd
  rw [xs]

/-- Panels in their order: the last one placed has the greatest x_s, and ends at or behind the end of each. -/
theorem foldl_laterEnd {l : List Panel} {pp : Int} (h : l.Pairwise Panel.Before) (lengths : ∀ p ∈ l, 0 < p.length)
    (found : Option (Int × Int)) (behind : ∀ y e, found = some (y, e) → y < e ∧ ∀ p ∈ l, ∀ x, p.xs = some x → e ≤ x) :
    (∀ y e, found = some (y, e) → e ≤ endOr pp (l.foldl laterEnd found))
      ∧ ∀ p ∈ l, ∀ x, p.xs = some x → x + p.length ≤ endOr pp (l.foldl laterEnd found) := by
  induction l generalizing found with
  | nil => exact ⟨fun y e k => by rw [k]; exact Int.le_refl e, fun _ h => nomatch h⟩
  | cons p l ih =>
    obtain ⟨first, rest⟩ := List.pairwise_cons.mp h
    have lengths' : ∀ q ∈ l, 0 < q.length := fun q hq => lengths q (List.mem_cons_of_mem _ hq)
    rw [List.foldl_cons]
    cases xs : p.xs with
    | none =>
      rw [laterEnd_none xs]
      obtain ⟨old, new⟩ := ih rest lengths' found fun y e k =>
        ⟨(behind y e k).1, fun q hq => (behind y e k).2 q (List.mem_cons_of_mem _ hq)⟩
      refine ⟨old, fun q hq x hx => ?_⟩
      rcases List.mem_cons.mp hq with rfl | hq
      · rw [xs] at hx; exact nomatch hx
      · exact new q hq x hx
    | some x =>
      have long := lengths p List.mem_cons_self
      have later : ∀ y e, found = some (y, e) → e ≤ x := fun y e k => (behind y e k).2 p List.mem_cons_self x xs
      rw [laterEnd_some xs fun y e k => lt_of_lt_of_le (behind y e k).1 (later y e k)]
      obtain ⟨old, new⟩ := ih rest lengths' (some (x, x + p.length)) fun y e k => by
        cases k
        exact ⟨by omega, fun q hq z hz => (first q hq).2 x z xs hz⟩
      have reached := old x _ rfl
      refine ⟨fun y e k => le_trans (by have := later y e k; omega) reached, fun q hq z hz => ?_⟩
      rcases List.mem_cons.mp hq with rfl | hq
      · rw [xs] at hz; cases hz; exact reached
      · exact new q hq z hz

/-- Every placed panel ends at or before the end of the last one. -/
theorem le_endOfPlaced {l : List Panel} (h : l.Pairwise Panel.Before) (lengths : ∀ p ∈ l, 0 < p.length) (pp : Int) :
    ∀ p ∈ l, ∀ x, p.xs = some x → x + p.length ≤ endOfPlaced l pp := by
  rw [endOfPlaced_eq]
  exact (foldl_laterEnd h lengths none nofun).2

/-! ## The invariant -/

/-- The placements are clear, with what keeps them so: a positive probe spacing, unique tags, and no arrival on an armed
insert. -/
structure Placements (s : State) : Prop where
  spacing : 0 < s.par.spacing
  tags : s.pq.TagsOnce
  fresh : ∀ p, Slot.armed p ∈ s.pq.slots → p.arrival = none
  placed : PlacedOk s

theorem PlacedOk.before {s : State} (h : PlacedOk s) : s.pq.queue.Pairwise Panel.Before := h.first.and h.clear

theorem PlacedOk.lengths_queue {s : State} (h : PlacedOk s) : ∀ p ∈ s.pq.queue, 0 < p.length :=
  fun p hp => h.lengths p (List.mem_append_left _ hp)

/-- The placements by the order of the queue, its records and its inserts. -/
theorem placedOk_of {s : State} (gap : 0 ≤ s.par.gap) (before : s.pq.queue.Pairwise Panel.Before)
    (ends : ∀ p ∈ s.pq.queue, ∀ x, p.xs = some x → x + p.length ≤ s.pq.lastEnd)
    (queued : ∀ p ∈ s.pq.queue, p.state = .queued → p.xs = none)
    (armed : ∀ p, Slot.armed p ∈ s.pq.slots → p.state = .queued ∧ p.xs = none)
    (lengths : ∀ p ∈ s.pq.queue, 0 < p.length) (inserts : ∀ p ∈ s.pq.inserts, 0 < p.length)
    (points : ∀ p ∈ s.pq.queue, p.PointOk) : PlacedOk s where
  gap := gap
  first := before.imp And.left
  clear := before.imp And.right
  ends := ends
  queued := queued
  armed := armed
  lengths := fun p hp => (List.mem_append.mp hp).elim (lengths p) (inserts p)
  points := points

section
variable {s : State} (h : Placements s)
include h

theorem Placements.of_pieces {t : State} (spacing : 0 < t.par.spacing) (gap : 0 ≤ t.par.gap)
    (queue : t.pq.queue = s.pq.queue) (slots : t.pq.slots = s.pq.slots) (lastEnd : t.pq.lastEnd = s.pq.lastEnd) :
    Placements t where
  spacing := spacing
  tags := by
    unfold PanelQueue.TagsOnce PanelQueue.records PanelQueue.inserts
    rw [queue, slots]
    exact h.tags
  fresh := by rw [slots]; exact h.fresh
  placed := by
    have k := h.placed
    refine placedOk_of gap ?_ ?_ ?_ ?_ ?_ ?_ ?_
    · rw [queue]; exact k.before
    · rw [queue, lastEnd]; exact k.ends
    · rw [queue]; exact k.queued
    · rw [slots]; exact k.armed
    · rw [queue]; exact k.lengths_queue
    · unfold PanelQueue.inserts; rw [slots]; exact fun p hp => k.lengths p (List.mem_append_right _ hp)
    · rw [queue]; exact k.points

/-- Records changed in place. -/
theorem Placements.panels {g : Panel → Panel} (tags : (s.upPq fun q => { q with queue := q.queue.map g }).pq.TagsOnce)
    (follows : ∀ p ∈ s.pq.queue, p.Follows s.par.spacing (g p)) :
    Placements (s.upPq fun q => { q with queue := q.queue.map g }) := by
  have k := h.placed
  refine ⟨h.spacing, tags, h.fresh, placedOk_of k.gap ?_ ?_ ?_ k.armed ?_
    (fun p hp => k.lengths p (List.mem_append_right _ hp)) ?_⟩
  · refine List.pairwise_map.mpr (k.before.imp_of_mem fun hp hq r => ?_)
    unfold Panel.Before
    rw [(follows _ hp).xs, (follows _ hq).xs, (follows _ hp).length]
    exact r
  all_goals
    intro p' hp'
    obtain ⟨p, hp, rfl⟩ := List.mem_map.mp hp'
    have f := follows p hp
  · rw [f.xs, f.length]; exact k.ends p hp
  · rw [f.xs]; exact fun q => k.queued p hp (f.queued q)
  · rw [f.length]; exact k.lengths_queue p hp
  · exact f.points h.spacing (k.lengths_queue p hp) (k.points p hp)

/-- A record sent back. -/
theorem Placements.back {p p' : Panel} (mem : p ∈ s.pq.queue) (sent : p.SentBack b p') {lastEnd : Int}
    (ends : lastEnd = s.pq.lastEnd ∨ ∃ pp, lastEnd = endOfPlaced (without p.tag s.pq.queue) pp)
    (tags : (s.upPq fun q =>
      { q with queue := insertBeforeQueued p' (without p.tag q.queue), lastEnd := lastEnd }).pq.TagsOnce) :
    Placements (s.upPq fun q => { q with queue := insertBeforeQueued p' (without p.tag q.queue), lastEnd := lastEnd }) := by
  have k := h.placed
  have rest : (without p.tag s.pq.queue).Pairwise Panel.Before := k.before.sublist (without_sublist _ _)
  have old : ∀ {q}, q ∈ without p.tag s.pq.queue → q ∈ s.pq.queue := fun hq => (mem_without.mp hq).1
  have cases' : ∀ {q}, q ∈ insertBeforeQueued p' (without p.tag s.pq.queue) → q = p' ∨ q ∈ without p.tag s.pq.queue :=
    fun hq => List.mem_cons.mp ((insertBeforeQueued_perm _ _).mem_iff.mp hq)
  refine ⟨h.spacing, tags, h.fresh, placedOk_of k.gap
    (insertBeforeQueued_before rest sent.xs fun q hq => k.queued q (old hq)) ?_ ?_ k.armed ?_
    (fun q hq => k.lengths q (List.mem_append_right _ hq)) ?_⟩
  all_goals
    intro q hq
    rcases cases' hq with rfl | hq'
  · exact fun x hx => by rw [sent.xs] at hx; exact nomatch hx
  · rcases ends with rfl | ⟨pp, rfl⟩
    · exact k.ends q (old hq')
    · exact le_endOfPlaced rest (fun r hr => k.lengths_queue r (old hr)) pp q hq'
  · exact fun _ => sent.xs
  · exact k.queued q (old hq')
  · exact sent.length.symm ▸ k.lengths_queue p mem
  · exact k.lengths_queue q (old hq')
  · exact Panel.PointOk.congr (k.points p mem) sent.arrival sent.length fun d' hd => ⟨d', sent.dose ▸ hd, rfl⟩
  · exact k.points q (old hq')

/-- A record retired. -/
theorem Placements.retire {tag : Nat} (tags : (s.upPq fun q =>
      { q with queue := without tag q.queue, slots := q.slots.map (Slot.emptied tag) }).pq.TagsOnce) :
    Placements (s.upPq fun q => { q with queue := without tag q.queue, slots := q.slots.map (Slot.emptied tag) }) := by
  have k := h.placed
  have old : ∀ {q}, q ∈ without tag s.pq.queue → q ∈ s.pq.queue := fun hq => (mem_without.mp hq).1
  have armed : ∀ p, Slot.armed p ∈ s.pq.slots.map (Slot.emptied tag) → Slot.armed p ∈ s.pq.slots := fun p hp => by
    obtain ⟨x, hx, e⟩ := List.mem_map.mp hp
    cases x with
    | armed q => exact e ▸ hx
    | empty => exact nomatch e
    | cancelled q => unfold Slot.emptied at e; dsimp only at e; split at e <;> exact nomatch e
  exact ⟨h.spacing, tags, fun p hp => h.fresh p (armed p hp), placedOk_of k.gap (k.before.sublist (without_sublist _ _))
    (fun q hq => k.ends q (old hq)) (fun q hq => k.queued q (old hq)) (fun p hp => k.armed p (armed p hp))
    (fun q hq => k.lengths_queue q (old hq))
    (fun q hq => k.lengths q (List.mem_append_right _ ((emptied_sublist tag s.pq.slots).subset hq)))
    fun q hq => k.points q (old hq)⟩

/-- A panel placed starts at or behind last_end (07 R116). -/
theorem Placements.place {slot : Option Nat} {p : Panel} (candidate : s.candidate = some (slot, p))
    (tags : (placePanel slot p s).pq.TagsOnce) : Placements (placePanel slot p s) := by
  have k := h.placed
  have record : 0 < p.length ∧ p.PointOk := by
    rcases candidate_cases candidate with ⟨-, mem, -⟩ | ⟨i, -, armed⟩
    · exact ⟨k.lengths_queue p mem, k.points p mem⟩
    · have mem := List.mem_of_getElem? armed
      exact ⟨k.lengths p (List.mem_append_right _ (mem_inserts.mpr (.inl mem))), fun a ha => by
        rw [h.fresh p mem] at ha; exact nomatch ha⟩
  obtain ⟨length, points⟩ := record
  have old : ∀ {q}, q ∈ without p.tag s.pq.queue → q ∈ s.pq.queue := fun hq => (mem_without.mp hq).1
  have slots : ∀ x ∈ (placePanel slot p s).pq.slots, x ∈ s.pq.slots ∨ x = .empty := fun x hx => by
    cases slot with
    | none => exact .inl hx
    | some i => exact List.mem_or_eq_of_mem_set hx
  have armed : ∀ q, Slot.armed q ∈ (placePanel slot p s).pq.slots → Slot.armed q ∈ s.pq.slots :=
    fun q hq => (slots _ hq).resolve_right nofun
  have inserts : ∀ q ∈ (placePanel slot p s).pq.inserts, q ∈ s.pq.inserts := fun q hq =>
    mem_inserts.mpr ((mem_inserts.mp hq).imp (armed q) fun c => (slots _ c).resolve_right nofun)
  have start : s.pq.lastEnd ≤ max (s.pq.lastEnd + s.par.gap) (s.pp + s.par.lead) := by
    have := k.gap
    omega
  have clear : ∀ q ∈ without p.tag s.pq.queue, ∀ y, q.xs = some y →
      y + q.length ≤ max (s.pq.lastEnd + s.par.gap) (s.pp + s.par.lead) :=
    fun q hq y hy => le_trans (k.ends q (old hq) y hy) start
  have cases' : ∀ {q}, q ∈ (placePanel slot p s).pq.queue → q ∈ without p.tag s.pq.queue
      ∨ q.xs = some (max (s.pq.lastEnd + s.par.gap) (s.pp + s.par.lead)) ∧ q.state = .starting ∧ q.length = p.length
        ∧ q.PointOk := fun hq => by
    rcases List.mem_cons.mp ((insertPlaced_perm _ _).mem_iff.mp hq) with rfl | hq
    · exact .inr ⟨rfl, rfl, rfl, points⟩
    · exact .inl hq
  refine ⟨h.spacing, tags, fun q hq => h.fresh q (armed q hq), placedOk_of k.gap
    (insertPlaced_before (k.before.sublist (without_sublist _ _)) rfl clear) ?_ ?_ (fun q hq => k.armed q (armed q hq)) ?_
    (fun q hq => k.lengths q (List.mem_append_right _ (inserts q hq))) ?_⟩
  all_goals
    intro q hq
    rcases cases' hq with hq | ⟨xs, state, size, point⟩
  · exact fun y hy => le_trans (clear q hq y hy)
      (show _ ≤ max (s.pq.lastEnd + s.par.gap) (s.pp + s.par.lead) + p.length by omega)
  · exact fun y hy => by rw [xs] at hy; cases hy; rw [size]; exact Int.le_refl _
  · exact k.queued q (old hq)
  · exact fun e => by rw [state] at e; exact nomatch e
  · exact k.lengths_queue q (old hq)
  · exact size ▸ length
  · exact k.points q (old hq)
  · exact point

/-- An insert cancelled. -/
theorem Placements.cancelSlot {tag : Nat}
    (tags : (s.upPq fun q => { q with slots := q.slots.map (Slot.cancel tag) }).pq.TagsOnce) :
    Placements (s.upPq fun q => { q with slots := q.slots.map (Slot.cancel tag) }) := by
  have k := h.placed
  have armed : ∀ p, Slot.armed p ∈ s.pq.slots.map (Slot.cancel tag) → Slot.armed p ∈ s.pq.slots := fun p hp => by
    obtain ⟨x, hx, e⟩ := List.mem_map.mp hp
    cases x with
    | armed q =>
      unfold Slot.cancel at e
      dsimp only at e
      split at e
      · exact nomatch e
      · exact e ▸ hx
    | empty => exact nomatch e
    | cancelled q => exact nomatch e
  refine ⟨h.spacing, tags, fun p hp => h.fresh p (armed p hp), placedOk_of k.gap k.before k.ends k.queued
    (fun p hp => k.armed p (armed p hp)) k.lengths_queue (fun p hp => ?_) k.points⟩
  obtain ⟨q, hq, kin⟩ := cancel_kin hp
  exact kin.length.symm ▸ k.lengths q (List.mem_append_right _ hq)

/-- Nothing is placed while every panel of the queue is QUEUED. -/
theorem Placements.rebase (rest : s.anyFlying = false) (lastEnd : Int) :
    Placements (s.upPq fun q => { q with lastEnd := lastEnd }) := by
  have k := h.placed
  have unplaced : ∀ p ∈ s.pq.queue, p.xs = none := fun p hp => by
    refine k.queued p hp ?_
    have still := List.any_eq_false.mp rest p hp
    simpa [Panel.flying] using still
  exact ⟨h.spacing, h.tags, h.fresh, placedOk_of k.gap k.before
    (fun p hp x hx => by rw [unplaced p hp] at hx; exact nomatch hx) k.queued k.armed k.lengths_queue
    (fun p hp => k.lengths p (List.mem_append_right _ hp)) k.points⟩

end

theorem Moves.placements {s t : State} (m : Moves b s t) (h : Placements s) : Placements t := by
  induction m with
  | same queue slots lastEnd fits => exact h.of_pieces (fits.spacing h.spacing) (fits.gap h.placed.gap) queue slots lastEnd
  | panels hb g tag follows => exact h.panels ((Moves.panels hb g tag follows).tags h.tags) (follows h.tags.queue)
  | back mem sent lastEnd ends => exact h.back mem sent ends ((Moves.back mem sent lastEnd ends).tags h.tags)
  | retire tag => exact h.retire ((Moves.retire (b := b) tag).tags h.tags)
  | place candidate may => exact h.place candidate ((Moves.place (b := b) candidate may).tags h.tags)
  | cancelSlot tag => exact h.cancelSlot ((Moves.cancelSlot (b := b) tag).tags h.tags)
  | clear =>
    exact ⟨h.spacing, List.nodup_nil, by simp, placedOk_of h.placed.gap .nil (fun _ h => nomatch h) (fun _ h => nomatch h) (by simp)
      (fun _ h => nomatch h) (fun _ h => nomatch h) fun _ h => nomatch h⟩
  | rebase rest lastEnd => exact h.rebase rest lastEnd
  | trans _ _ ih ih' => exact ih' (ih h)

end Sys2Proof.Machine
end

