-- ==== Sys2Proof/Proofs/QueueOps.lean ====
section
/-! SUPPORT. The pieces each operation is made of, for the panel queue. -/

namespace Sys2Proof.Machine
open Sys2Proof

variable {b : Bool}

/-! ## The trigger unit (09) -/

theorem warn_moves {w : Warning} {s : State} : Moves b s (warn w s) := moves_of_keeps warn_keeps (by decide)

theorem setTrigSlot_moves {i : Nat} {x : TrigSlot} {s : State} : Moves b s (setTrigSlot i x s) :=
  moves_upTrg List.length_set rfl rfl

theorem startPulse_moves {o : Output} {s : State} : Moves b s (startPulse o s) := moves_upTrg rfl rfl rfl

theorem triggerNotice_moves {i : Nat} {o : Origin} {t : Trigger} {d : Option Dir} {r : FireResult} {s : State} :
    Moves b s (triggerNotice i o t d r s) := moves_of_keeps triggerNotice_keeps (by decide)

theorem fire_moves {i : Nat} {o : Origin} {t : Trigger} {d : Option Dir} {late : Bool} {s : State} :
    Moves b s (fire i o t d late s) := by
  unfold fire
  refine .trans ?_ setTrigSlot_moves
  cases t.action with
  | notify => exact triggerNotice_moves
  | pulse o => exact moves_ite (startPulse_moves.trans triggerNotice_moves) startPulse_moves

theorem fireCrossed_moves {axis : Axis} {old new : Int} {s : State} : Moves b s (fireCrossed axis old new s) :=
  moves_foldl (fun _ _ => fire_moves) _ s

theorem judgeWindow_moves {axis : Axis} {dir : Dir} {count : Int} {s : State} {i : Nat} :
    Moves b s (judgeWindow axis dir count s i) := by
  unfold judgeWindow
  split
  · next w _ =>
    have set : Moves b s (s.upTrg fun u =>
        { u with windows := u.windows.set i (some { w with active := w.judged count }) }) :=
      moves_upTrg rfl List.length_set rfl
    exact moves_ite (set.trans (moves_ite (moves_of_keeps notice_keeps (by decide)) moves_refl)) moves_refl
  · exact moves_refl

theorem judgeWindows_moves {axis : Axis} {old new : Int} {s : State} : Moves b s (judgeWindows axis old new s) :=
  moves_foldl (fun _ _ => judgeWindow_moves) _ s

theorem resolveSlot_moves {i : Nat} {a : Int} {d : Option Dir} {s : State} : Moves b s (resolveSlot i a d s) := by
  unfold resolveSlot
  split
  · exact setTrigSlot_moves.trans (moves_ite fire_moves moves_refl)
  · exact moves_refl

theorem resolveAnchors_moves {set : List (Nat × Int)} {d : Option Dir} {s : State} :
    Moves b s (resolveAnchors set d s) := by
  refine moves_foldl (fun s i => ?_) _ s
  split
  · exact resolveSlot_moves
  · exact moves_refl

theorem orphanSlot_moves {i : Nat} {d : Option Dir} {s : State} : Moves b s (orphanSlot i d s) := by
  unfold orphanSlot
  split
  · exact setTrigSlot_moves.trans triggerNotice_moves
  · exact moves_refl

theorem orphanPanel_moves {tag : Nat} {d : Option Dir} {s : State} : Moves b s (orphanPanel tag d s) :=
  moves_foldl (fun _ _ => moves_ite orphanSlot_moves moves_refl) _ s

theorem setPointer_moves {p : Pointer} {n : Option Nat} {s : State} : Moves b s (setPointer p n s) :=
  .trans (moves_of_keeps (keeps_trans dropRef?_keeps takeRef?_keeps) (by decide))
    (moves_upTrg (by cases p <;> rfl) (by cases p <;> rfl) (by cases p <;> rfl))

/-! ## Records changed in place -/

/-- Every record changed alike. -/
theorem moves_map {s : State} (g : Panel → Panel) (tag : ∀ p, (g p).tag = p.tag)
    (follows : ∀ p ∈ s.pq.queue, p.Follows s.par.spacing (g p)) :
    Moves true s (s.upPq fun q => { q with queue := q.queue.map g }) :=
  .panels rfl g tag fun _ => follows

/-- The record of a tag changed. -/
theorem moves_updPanel {tag : Nat} {f : Panel → Panel} {s : State} (keep : ∀ p, (f p).tag = p.tag)
    (follows : (s.pq.queue.map Panel.tag).Nodup → ∀ p ∈ s.pq.queue, p.tag = tag → p.Follows s.par.spacing (f p)) :
    Moves true s (updPanel tag f s) := by
  refine .panels rfl _ (fun p => ?_) fun once p hp => ?_
  · split
    · exact keep p
    · rfl
  · split
    · next e => exact follows once p hp e
    · exact .refl _ p

/-- The record of a tag changed, its arrival and its dose fields kept. -/
theorem moves_updPanel_same {tag : Nat} {f : Panel → Panel} {s : State}
    (h : ∀ p, (f p).tag = p.tag ∧ (f p).length = p.length ∧ (f p).xs = p.xs ∧ (f p).arrival = p.arrival
      ∧ (f p).dose = p.dose) (queued : ∀ p, (f p).state = .queued → p.state = .queued) :
    Moves true s (updPanel tag f s) :=
  moves_updPanel (fun p => (h p).1) fun _ p _ _ => by
    obtain ⟨tag, length, xs, arrival, dose⟩ := h p
    exact Panel.follows_of_same tag length xs (queued p) arrival dose

theorem find_mem_tag {s : State} {tag : Nat} {p : Panel} (h : s.queued? tag = some p) : p ∈ s.pq.queue ∧ p.tag = tag :=
  ⟨List.mem_of_find?_eq_some h, by simpa using List.find?_some h⟩

/-- With unique tags the record of a tag is the one found. -/
theorem eq_of_tag {l : List Panel} (once : (l.map Panel.tag).Nodup) {p q : Panel} (hp : p ∈ l) (hq : q ∈ l)
    (e : p.tag = q.tag) : p = q := List.inj_on_of_nodup_map once hp hq e

/-! ## Reports (07 R129) -/

theorem removePanel_moves {p : Panel} {d : Option Dir} {s : State} : Moves b s (removePanel p d s) := by
  have gone : Moves b s (dropRef p.profile (s.upPq fun q =>
      { q with queue := without p.tag q.queue, slots := q.slots.map (Slot.emptied p.tag) })) :=
    (Moves.retire p.tag).trans (moves_of_keeps dropRef_keeps (by decide))
  exact moves_ite (gone.trans orphanPanel_moves) gone

theorem flushReport_moves {d : Option Dir} {s : State} : Moves b s (flushReport d s) := by
  have rest : ∀ {l : List Nat}, Moves b s (s.upPq fun q => { q with waiting := l }) := moves_upPq rfl rfl rfl
  unfold flushReport
  split
  · exact moves_refl
  · split
    · split
      · exact (rest.trans (moves_of_keeps upFlt_keeps (by decide))).trans removePanel_moves
      · exact rest
    · exact moves_refl

theorem becomeDone_moves {tag : Nat} {d : Option Dir} {s : State} : Moves b s (becomeDone tag d s) :=
  .trans (moves_upPq rfl rfl rfl) flushReport_moves

/-! ## Refusal and withdrawal (07 R118, R121, R122) -/

theorem withdraw_moves {txn tag : Nat} {s : State} : Moves b s (withdraw txn tag s) := by
  unfold withdraw
  split
  · next room =>
    refine .same rfl rfl rfl ⟨fun _ => ?_, id, rfl, rfl, id, id, id⟩
    exact (List.length_append ..).trans_le (Nat.succ_le_of_lt room)
  · exact warn_moves

theorem dropLive_moves {l : List Txn} {s : State} : Moves b s (s.upPq fun q => { q with live := l }) := moves_upPq rfl rfl rfl

/-- A refusal of a panel of the queue; a counted one is no host command's. -/
theorem refusal_moves {num : Nat} {p : Panel} {counted : Option EngineReason} {d : Option Dir} {s : State}
    (mem : p ∈ s.pq.queue) (h : b = false → counted = none) : Moves b s (refusal num p counted d s) := by
  have sent : ∀ {p' : Panel}, p' = p.refused counted ∨ p' = { p.refused counted with state := .done, verdict := some .skipped } →
      p.SentBack b p' := fun e => by
    rcases e with rfl | rfl <;>
      exact ⟨fun hb => ⟨rfl, rfl, rfl, rfl, rfl, by cases h hb; rfl⟩, rfl, rfl, rfl, rfl, rfl⟩
  have back : ∀ {p' : Panel} {live : List Txn}, p.SentBack b p' → Moves b s (s.upPq fun q =>
      { q with
        queue := insertBeforeQueued p' (without p.tag s.pq.queue), live := live
        lastEnd := endOfPlaced (without p.tag s.pq.queue) s.pp }) := fun sent =>
    .trans (Moves.back mem sent _ (.inr ⟨s.pp, rfl⟩)) (.same rfl rfl rfl ⟨id, id, rfl, rfl, id, id, id⟩)
  unfold refusal
  dsimp only
  split
  · exact (back (sent (.inr rfl))).trans becomeDone_moves
  · exact back (sent (.inl rfl))

theorem startingDeadline_moves {t : Txn} {d : Option Dir} {s : State} : Moves true s (startingDeadline t d s) := by
  unfold startingDeadline
  split
  · next p hp => exact withdraw_moves.trans (refusal_moves (by rw [withdraw_pq]; exact (find_mem_tag hp).1) nofun)
  · exact dropLive_moves.trans withdraw_moves

theorem withdrawStarting_moves {s : State} : Moves b s (withdrawStarting s) := by
  unfold withdrawStarting
  split
  · exact moves_refl
  · split
    · next p hp =>
      exact withdraw_moves.trans (refusal_moves (by rw [withdraw_pq]; exact (find_mem_tag hp).1) fun _ => rfl)
    · exact dropLive_moves.trans withdraw_moves

/-! ## Placement (07 R115, R116) -/

theorem decide_moves {s : State} : Moves b s (decide_ s) := by
  unfold decide_
  split
  · next slot p candidate =>
    split
    · next may => exact .place candidate may
    · exact moves_refl
  · exact moves_refl

/-! ## Spoiled panels and arrivals (07 R125 to R127, 08 R144, R145, R147) -/

theorem rejectTrigger_moves {tag : Nat} {a : Int} {d : Option Dir} {s : State} :
    Moves true s (rejectTrigger tag a d s) := by
  unfold rejectTrigger
  split
  · exact setTrigSlot_moves.trans resolveSlot_moves
  · refine .trans (moves_updPanel_same ?_ ?_) warn_moves
    exacts [fun _ => ⟨rfl, rfl, rfl, rfl, rfl⟩, fun _ => id]

theorem afterPrint_moves {tag : Nat} {d : Option Dir} {s : State} : Moves true s (afterPrint tag d s) := by
  have inArc : Moves true s (updPanel tag (fun p => { p with state := .inArc }) s) :=
    moves_updPanel_same (fun _ => ⟨rfl, rfl, rfl, rfl, rfl⟩) fun _ => nofun
  unfold afterPrint
  split
  · exact moves_ite (moves_ite (inArc.trans rejectTrigger_moves) inArc) moves_refl
  · exact moves_refl

theorem doneDeadline_moves {t : Txn} {d : Option Dir} {s : State} : Moves true s (doneDeadline t d s) := by
  refine .trans (.trans dropLive_moves withdraw_moves) (.trans (moves_updPanel_same ?_ ?_) (.trans warn_moves afterPrint_moves))
  exacts [fun _ => ⟨rfl, rfl, rfl, rfl, rfl⟩, fun _ e => nomatch e]

theorem fabricCheck_moves {p : Panel} {s : State} : Moves true s (fabricCheck p s) := by
  refine moves_ite moves_refl (.trans (moves_updPanel_same ?_ ?_) warn_moves)
  exacts [fun _ => ⟨rfl, rfl, rfl, rfl, rfl⟩, fun _ => id]

theorem arrive_moves {tag : Nat} {d : Option Dir} {s : State} : Moves true s (arrive tag d s) := by
  have came : ∀ {u : State}, Moves true u (updPanel tag (fun p =>
      { p with
        arrived := true
        flags := { p.flags with spliceAffected := p.flags.spliceAffected || u.trg.spliceAtNip }
        state := if p.state = .printed || p.state = .spoiled then .inArc else p.state }) u) :=
    moves_updPanel_same (fun _ => ⟨rfl, rfl, rfl, rfl, rfl⟩) fun p e => by
      dsimp only at e
      split at e
      · exact nomatch e
      · exact e
  unfold arrive
  split
  · exact moves_ite ((fabricCheck_moves.trans came).trans rejectTrigger_moves) (fabricCheck_moves.trans came)
  · exact moves_refl

theorem arriveReached_moves {d : Option Dir} {s : State} : Moves true s (arriveReached d s) :=
  moves_foldl (fun _ _ => arrive_moves) _ s

/-- The arrival set of a panel that had none. -/
theorem setArrival_follows {pp a spacing : Int} {p p' : Panel} (none : p.arrival = none)
    (e : p' = { p with
      arrival := some a, dose := some (doseFieldsAt pp a p.length spacing).1, markResult := p'.markResult, flags := p'.flags }) :
    p.Follows spacing p' := by
  refine ⟨by rw [e], by rw [e], by rw [e], by rw [e]; exact id, fun _ h => ?_, fun hs hl _ x hx d hd n hn => ?_⟩
  · rw [none] at h
    exact nomatch h
  have arrival : p'.arrival = some a := by rw [e]
  have dose : p'.dose = some (doseFieldsAt pp a p.length spacing).1 := by rw [e]
  have length : p'.length = p.length := by rw [e]
  cases arrival.symm.trans hx
  cases dose.symm.trans hd
  rw [length]
  exact (doseFieldsAt_next hs (Int.le_of_lt hl) hn).2

theorem setArrival_moves {tag : Nat} {a : Int} {s : State}
    (h : (s.pq.queue.map Panel.tag).Nodup → ∀ p ∈ s.pq.queue, p.tag = tag → p.arrival = none) :
    Moves true s (setArrival tag a s) :=
  moves_updPanel (fun _ => rfl) fun once p hp e => setArrival_follows (h once p hp e) rfl

/-! ## The mark tracker (08 R138 to R143) -/

theorem travelling_iff {p : Panel} : p.travelling = true ↔
    p.xs ≠ none ∧ (p.state = .printing ∨ p.state = .printed ∨ p.state = .spoiled) ∧ p.arrival = none := by
  simp [Panel.travelling, Option.isSome_iff_ne_none, and_assoc, or_assoc]

theorem goodMark_moves {tag : Nat} {xs p : Int} {s : State}
    (h : (s.pq.queue.map Panel.tag).Nodup → ∀ r ∈ s.pq.queue, r.tag = tag → r.arrival = none) :
    Moves true s (goodMark tag xs p s) := by
  have judged : Moves true s (setArrival tag (xs + s.par.lPn + markCorrection (p - (xs + s.par.lMs)) s.par.lMs s.par.lPn)
      (updPanel tag (fun q => { q with markResult := some (.error (p - (xs + s.par.lMs))) }) s)) := by
    refine .trans (moves_updPanel_same (fun _ => ?_) fun _ => ?_) (setArrival_moves fun once r hr e => ?_)
    · exact ⟨rfl, rfl, rfl, rfl, rfl⟩
    · exact id
    obtain ⟨q, hq, rfl⟩ := List.mem_map.mp hr
    have tags : ((s.pq.queue.map fun p' => if p'.tag = tag then
        { p' with markResult := some (.error (p - (xs + s.par.lMs))) } else p').map Panel.tag) = s.pq.queue.map Panel.tag := by
      rw [List.map_map]
      refine List.map_congr_left fun x _ => ?_
      show (if _ then _ else _ : Panel).tag = _
      split <;> rfl
    have old := h (tags ▸ once) q hq
    split at e
    · next k => rw [if_pos k]; exact old k
    · next k => exact absurd e k
  exact (judged.trans resolveAnchors_moves).trans ((moves_of_keeps upMrk_keeps (by decide)).trans arriveReached_moves)

theorem judgeMark_moves {cap : Capture} {s : State} : Moves true s (judgeMark cap s) := by
  unfold judgeMark
  split
  · exact moves_refl
  · split
    · next q hq =>
      refine goodMark_moves fun once r hr e => ?_
      have inside := List.find?_some hq
      unfold State.inWindow Panel.hasWindow at inside
      simp only [Bool.and_eq_true] at inside
      rw [eq_of_tag once hr (List.mem_of_find?_eq_some hq) e]
      exact (travelling_iff.mp inside.1.1.1).2.2
    · exact (moves_of_keeps upMrk_keeps (by decide)).trans warn_moves

end Sys2Proof.Machine
end

