-- ==== Sys2Proof/Proofs/MissedWindows.lean ====
section
/-! SUPPORT. The panels whose mark window a forward count update of PP passes: each takes its arrival from S, with MISSED where
it had a window (08 R140, R141). -/

namespace Sys2Proof.Machine
open Sys2Proof

/-- What the end of the window of `q` makes of the record `p` of its tag (08 R140, R141, 04 R63, R64). -/
def State.expireRecord (s : State) (q p : Panel) : Panel :=
  if p.tag = q.tag then
    let a := s.slipArrival (q.xs.getD 0)
    let d := doseFieldsAt s.pp a p.length s.par.spacing
    { p with
      markResult := if q.hasWindow then some .missed else p.markResult
      arrival := some a
      dose := some d.1
      flags := { p.flags with markMissed := p.flags.markMissed || q.hasWindow, sparse := p.flags.sparse || d.2 } }
  else p

theorem expireRecord_tag (s : State) (q p : Panel) : (s.expireRecord q p).tag = p.tag := by
  unfold State.expireRecord
  split <;> rfl

theorem missStep_slip (tag : Nat) (s : State) : (missStep tag s).mrk.slip = s.mrk.slip := by
  unfold missStep
  dsimp only
  split
  · exact (congrArg Marks.slip (warn_keeps .mrk (by decide))).trans rfl
  · rfl

theorem expirePanel_slip (s : State) (q : Panel) : (expirePanel s q).mrk.slip = s.mrk.slip := by
  unfold expirePanel
  dsimp only
  split
  · exact missStep_slip _ _
  · rfl

theorem expirePanel_pq (s : State) (q : Panel) :
    (expirePanel s q).pq = { s.pq with queue := s.pq.queue.map (s.expireRecord q) } := by
  have alike : ∀ {f : Panel → Panel}, (∀ p ∈ s.pq.queue, f p = s.expireRecord q p) →
      { s.pq with queue := s.pq.queue.map f } = { s.pq with queue := s.pq.queue.map (s.expireRecord q) } :=
    fun h => by rw [List.map_congr_left h]
  unfold expirePanel
  dsimp only
  split
  · next window =>
    rw [show (missStep q.tag _).pq = _ from missStep_keeps .pq (by decide)]
    refine (congrArg (fun l => { s.pq with queue := l }) (List.map_map ..)).trans (alike fun p _ => ?_)
    unfold State.expireRecord
    by_cases e : p.tag = q.tag
    · simp only [Function.comp, if_pos e, window, Bool.or_true, if_true]; rfl
    · simp only [Function.comp, if_neg e]
  · next window =>
    refine alike fun p _ => ?_
    unfold State.expireRecord
    by_cases e : p.tag = q.tag
    · simp only [if_pos e, window, Bool.or_false, Bool.false_eq_true, if_false]
    · simp only [if_neg e]

/-- Records of other panels, and the slip, leave what the end of a window makes of a record. -/
theorem expireRecord_expirePanel (s : State) (q : Panel) : (expirePanel s q).expireRecord = s.expireRecord := by
  have slip := expirePanel_slip s q
  have par : (expirePanel s q).par = s.par := expirePanel_keeps .par (by decide)
  have cnt : (expirePanel s q).cnt = s.cnt := expirePanel_keeps .cnt (by decide)
  funext r p
  unfold State.expireRecord State.slipArrival State.pp
  rw [slip, par, cnt]

theorem foldl_expirePanel_pq (l : List Panel) (s : State) :
    (l.foldl expirePanel s).pq =
      { s.pq with queue := s.pq.queue.map fun p => l.foldl (fun p q => s.expireRecord q p) p } := by
  induction l generalizing s with
  | nil => simp
  | cons q l ih =>
    rw [List.foldl_cons, ih, expirePanel_pq, expireRecord_expirePanel]
    simp only [List.map_map, List.foldl_cons, Function.comp_def]

theorem foldl_expireRecord_other (s : State) {l : List Panel} {p : Panel} (h : ∀ q ∈ l, q.tag ≠ p.tag) :
    l.foldl (fun p q => s.expireRecord q p) p = p := by
  induction l with
  | nil => rfl
  | cons q l ih =>
    have same : s.expireRecord q p = p := if_neg (h q List.mem_cons_self).symm
    rw [List.foldl_cons, same]
    exact ih fun r hr => h r (List.mem_cons_of_mem _ hr)

/-- A record takes the end of one window: its own. -/
theorem foldl_expireRecord_own (s : State) {l : List Panel} (once : (l.map Panel.tag).Nodup) {p q : Panel} (hq : q ∈ l)
    (tag : q.tag = p.tag) : l.foldl (fun p q => s.expireRecord q p) p = s.expireRecord q p := by
  induction l with
  | nil => exact nomatch hq
  | cons r l ih =>
    obtain ⟨first, rest⟩ := List.nodup_cons.mp once
    rw [List.foldl_cons]
    rcases List.mem_cons.mp hq with rfl | hq
    · refine foldl_expireRecord_other s fun r hr e => first (List.mem_map.mpr ⟨r, hr, ?_⟩)
      rw [e, expireRecord_tag, tag]
    · have other : r.tag ≠ p.tag := fun e => first (List.mem_map.mpr ⟨q, hq, tag.trans e.symm⟩)
      have same : s.expireRecord r p = p := if_neg other.symm
      rw [same]
      exact ih rest hq

theorem foldl_expireRecord_tag (s : State) (l : List Panel) (p : Panel) :
    (l.foldl (fun p q => s.expireRecord q p) p).tag = p.tag := by
  induction l generalizing p with
  | nil => rfl
  | cons q l ih => exact (ih _).trans (expireRecord_tag s q p)

theorem expireRecord_follows (s : State) {q p : Panel} (tag : p.tag = q.tag) (none : p.arrival = none) :
    p.Follows s.par.spacing (s.expireRecord q p) := by
  refine setArrival_follows (pp := s.pp) (a := s.slipArrival (q.xs.getD 0)) none ?_
  unfold State.expireRecord
  rw [if_pos tag]

theorem mem_expired {s : State} {new : Int} {q : Panel} : q ∈ s.expired new ↔ q ∈ s.pq.queue ∧ q.travelling = true
    ∧ (q.hasWindow = true ∨ q.expectsMark = false) ∧ ∃ x, q.xs = some x ∧ s.markCentre x + s.par.wM < new := by
  unfold State.expired
  rw [mem_sortBy, List.mem_filter]
  cases q.xs <;> simp [and_assoc]

theorem expired_once {s : State} (new : Int) (once : (s.pq.queue.map Panel.tag).Nodup) :
    ((s.expired new).map Panel.tag).Nodup :=
  (((sortBy_perm _ _).map Panel.tag).nodup_iff).mpr ((List.filter_sublist.map Panel.tag).nodup once)

/-- The windows that end at an update, one after the other. -/
theorem expired_moves (new : Int) (s : State) : Moves true s ((s.expired new).foldl expirePanel s) := by
  have kept : Keeps [.pq, .mrk, .flt] s ((s.expired new).foldl expirePanel s) := keeps_foldl (fun _ _ => expirePanel_keeps) _ s
  have pq := foldl_expirePanel_pq (s.expired new) s
  refine .trans (.panels rfl (fun p => (s.expired new).foldl (fun p q => s.expireRecord q p) p)
    (foldl_expireRecord_tag s _) fun once p hp => ?_)
    (.same (by rw [pq]; rfl) (by rw [pq]; rfl) (by rw [pq]; rfl)
      (fits_of_blocks (by rw [show _ = s.head from kept .head (by decide)]; rfl)
        (by rw [show _ = s.dose from kept .dose (by decide)]; rfl) (by rw [show _ = s.trg from kept .trg (by decide)]; rfl)
        (by rw [show _ = s.trg from kept .trg (by decide)]; rfl) (by rw [show _ = s.trg from kept .trg (by decide)]; rfl)
        (kept .par (by decide))))
  by_cases own : ∃ q ∈ s.expired new, q.tag = p.tag
  · obtain ⟨q, hq, tag⟩ := own
    obtain ⟨mem, travels, -⟩ := mem_expired.mp hq
    rw [foldl_expireRecord_own s (expired_once new once) hq tag]
    exact expireRecord_follows s tag.symm (eq_of_tag once hp mem tag.symm ▸ (travelling_iff.mp travels).2.2)
  · rw [foldl_expireRecord_other s fun q hq e => own ⟨q, hq, e⟩]
    exact .refl _ p

theorem markUpdate_moves {old new : Int} {s : State} : Moves true s (markUpdate old new s) :=
  moves_ite (((moves_of_keeps upMrk_keeps (by decide)).trans (expired_moves new _)).trans resolveAnchors_moves)
    (moves_ite (moves_of_keeps upMrk_keeps (by decide)) moves_refl)

end Sys2Proof.Machine
end

