-- ==== Sys2Proof/Proofs/QueueRows.lean ====
section
/-! SUPPORT. The pieces of the count updates, of the faults, of the head link's events and of the samples, for the panel
queue. -/

namespace Sys2Proof.Machine
open Sys2Proof

variable {b : Bool}

/-! ## The dose unit (04 R65 to R74) -/

theorem handlePoint_moves {pos : Int} {s : State} : Moves true s (handlePoint pos s) := by
  have handled : ∀ (full : Bool), Moves true s (s.upPq fun q =>
      { q with queue := q.queue.map fun p =>
          if p.pointIn (pos - 1) pos = some pos then
            let p := p.handle pos s.par.spacing
            { p with flags := { p.flags with sparse := p.flags.sparse || full } }
          else p }) := fun full => by
    have kept : ∀ p : Panel, p.handle pos s.par.spacing = { p with dose := (p.handle pos s.par.spacing).dose } := fun p => by
      unfold Panel.handle
      split <;> rfl
    refine moves_map _ (fun p => ?_) fun p _ => ?_
    · split
      · dsimp only; rw [kept]
      · rfl
    · split
      · refine ⟨?_, ?_, ?_, ?_, ?_, fun hs _ point a ha d' hd n hn => ?_⟩
        · dsimp only; rw [kept]
        · dsimp only; rw [kept]
        · dsimp only; rw [kept]
        · dsimp only; rw [kept]; exact id
        · dsimp only; rw [kept]; exact fun _ => id
        · dsimp only at ha hd ⊢
          rw [kept] at ha ⊢
          obtain ⟨d, dose, old | ⟨at_, rfl, lt⟩⟩ := handle_next hd hn
          · exact point a ha d dose n old
          · have := (point a ha d dose pos at_).1
            have trailing : p.trailing = a + p.length := congrArg (· + p.length) (congrArg (Option.getD · 0) ha)
            dsimp only
            omega
      · exact .refl _ p
  unfold handlePoint
  dsimp only
  split
  · exact handled _
  · next room =>
    refine .trans (handled _) (.same rfl rfl rfl ⟨id, fun _ => ?_, rfl, rfl, id, id, id⟩)
    show (s.dose.probes ++ [_]).length ≤ 64
    rw [List.length_append]
    exact Nat.not_le.mp fun k => room (by simpa [Config.probeCap] using k)

theorem createProbes_moves {fuel : Nat} {old new : Int} {s : State} : Moves true s (createProbes fuel old new s) := by
  induction fuel generalizing s with
  | zero => exact moves_refl
  | succ fuel ih =>
    unfold createProbes
    split
    · exact handlePoint_moves.trans ih
    · exact moves_refl

theorem fold_follows {spacing : Int} {b : Probe} {p : Panel} : p.Follows spacing (p.fold b) :=
  ⟨rfl, rfl, rfl, id, fun _ => id, fun _ _ point => point.congr rfl rfl fun d' hd => by
    obtain ⟨d, dose, e⟩ := Option.map_eq_some_iff.mp hd
    cases e
    exact ⟨d, dose, rfl⟩⟩

theorem foldProbe_moves {s : State} {b : Probe} : Moves true s (foldProbe s b) :=
  moves_foldl (f := fun s (o : Owner) => updPanel o.tag (fun p => p.fold b) s)
    (fun _ _ => moves_updPanel (fun _ => rfl) fun _ _ _ _ => fold_follows) _ s

theorem exitProbes_moves {new : Int} {s : State} : Moves true s (exitProbes new s) := by
  refine .trans (t := s.upDose fun d => { d with probes := d.probes.dropWhile fun b => b.exit ≤ new })
    (.same rfl rfl rfl ⟨id, fun h => ?_, rfl, rfl, id, id, id⟩) (moves_foldl (f := foldProbe) (fun _ _ => foldProbe_moves) _ _)
  exact (List.dropWhile_sublist _).length_le.trans h

theorem judgePanel_moves {p : Panel} {s : State} (mem : p ∈ s.pq.queue) : Moves true s (judgePanel p s) := by
  unfold judgePanel
  split
  · exact moves_refl
  · next d hd =>
    dsimp only
    refine .trans (.trans (moves_updPanel ?_ fun once q hq e => ?_)
      (moves_ite (moves_of_keeps upPrf_keeps (by decide)) moves_refl)) becomeDone_moves
    · exact fun _ => rfl
    · cases eq_of_tag once hq mem e
      refine ⟨rfl, rfl, rfl, fun h => ?_, fun _ => id, fun _ _ point => point.congr rfl rfl fun d' e => ?_⟩
      · exact absurd h (by simp)
      · cases e
        exact ⟨d, hd, rfl⟩

theorem panelDone_moves {tag : Nat} {s : State} : Moves true s (panelDone tag s) := by
  have judge : ∀ {t : State}, Moves true t (match t.queued? tag with | some p => judgePanel p t | none => t) := by
    intro t
    split
    · next p hp => exact judgePanel_moves (find_mem_tag hp).1
    · exact moves_refl
  refine .trans ?_ judge
  split
  · refine moves_ite ?_ moves_refl
    split
    · exact doneDeadline_moves
    · exact moves_refl
  · exact moves_refl

theorem doseUpdate_moves {old new : Int} {s : State} : Moves true s (doseUpdate old new s) :=
  (createProbes_moves.trans exitProbes_moves).trans (moves_foldl (fun _ _ => panelDone_moves) _ _)

/-- Flags set in place. -/
theorem moves_flags {s : State} (c : Panel → Prop) [DecidablePred c] (f : CondFlags → CondFlags) :
    Moves true s (s.upPq fun q =>
      { q with queue := q.queue.map fun p => if c p then { p with flags := f p.flags } else p }) := by
  refine moves_map _ (fun p => ?_) fun p _ => ?_
  · split <;> rfl
  · split
    · exact Panel.follows_of_same rfl rfl rfl id rfl rfl
    · exact .refl _ p

theorem doseSample_moves {s : State} : Moves true s (doseSample s) := by
  have dosed : ∀ {u : State} {f : Dose → Dose}, (f u.dose).probes.length = u.dose.probes.length → Moves true u (u.upDose f) :=
    fun h => .same rfl rfl rfl ⟨id, fun k => h.trans_le k, rfl, rfl, id, id, id⟩
  have capped : ∀ {u : State} {limit : Int}, Moves true u (u.upPq fun q =>
      { q with queue := q.queue.map fun p => p.markCap limit }) := fun {u limit} => by
    have kept : ∀ p : Panel, p.markCap limit = p ∨ ∃ d, p.dose = some d ∧
        p.markCap limit = { p with dose := some { d with capHeld := true } } := fun p => by
      unfold Panel.markCap
      split
      · next d _ hd _ =>
        split
        · exact .inr ⟨d, hd, rfl⟩
        · exact .inl rfl
      · exact .inl rfl
    refine moves_map _ (fun p => ?_) fun p _ => ?_
    · rcases kept p with e | ⟨d, -, e⟩ <;> rw [e]
    · rcases kept p with e | ⟨d, hd, e⟩ <;> rw [e]
      · exact .refl _ p
      · exact ⟨rfl, rfl, rfl, id, fun _ => id, fun _ _ point => point.congr rfl rfl fun d' k => by
          cases k
          exact ⟨d, hd, rfl⟩⟩
  have judged : ∀ {u : State}, Moves true u (judgeFloor u) := fun {u} => by
    have marked : Moves true u ((u.upDose fun d => { d with floorFlag := true }).upPq fun q =>
        { q with queue := q.queue.map fun p =>
            if p.inArc then { p with flags := { p.flags with underspeed := true } } else p }) :=
      .trans (dosed rfl) (moves_flags (fun p => p.inArc = true) fun f => { f with underspeed := true })
    exact moves_ite (moves_ite (marked.trans warn_moves) marked) (dosed rfl)
  exact .trans (.trans (dosed (List.length_map ..)) capped) (.trans (dosed rfl) judged)

/-! ## Deadlines and count updates (07 R119, R125, 01 R7) -/

theorem deadlineAt_moves {new : Int} {t : Txn} {s : State} : Moves true s (deadlineAt new s t) := by
  unfold deadlineAt
  split
  · cases t.phase with
    | awaitAccept => exact moves_ite startingDeadline_moves moves_refl
    | printing => exact moves_ite doneDeadline_moves moves_refl
  · exact moves_refl

theorem deadlineUpdate_moves {new : Int} {s : State} : Moves true s (deadlineUpdate new s) :=
  moves_foldl (fun _ _ => deadlineAt_moves) _ s

theorem ppUpdate_moves {old new : Int} {s : State} : Moves true s (ppUpdate old new s) := by
  have tracked : Moves true s
      (seekUpdate old new (markUpdate old new (judgeWindows .paper old new (fireCrossed .paper old new s)))) :=
    (fireCrossed_moves.trans judgeWindows_moves).trans
      (markUpdate_moves.trans (moves_of_keeps seekUpdate_keeps (by decide)))
  refine .trans ?_ decide_moves
  exact moves_ite (tracked.trans (deadlineUpdate_moves.trans (arriveReached_moves.trans doseUpdate_moves))) tracked

theorem modifyAt_length {α : Type} (f : α → α) (n : Nat) (l : List α) : (modifyAt f n l).length = l.length := by
  induction l generalizing n with
  | nil => cases n <;> rfl
  | cons x xs ih =>
    cases n with
    | zero => rfl
    | succ n => exact congrArg (· + 1) (ih n)

theorem markArc_moves {s : State} : Moves true s (markArc s) :=
  moves_flags (fun p => p.inArc = true) fun f => { f with spliceAffected := true }

theorem actPoint_moves {x : Nat × SplicePoint} {s : State} : Moves true s (actPoint s x) := by
  have put : ∀ f : Splice → Splice, Moves true s (s.upTrg fun u => { u with splices := modifyAt f x.1 u.splices }) :=
    fun _ => moves_upTrg rfl rfl (modifyAt_length _ _ _)
  unfold actPoint
  split
  · exact moves_refl
  · dsimp only
    split
    · exact .trans (moves_ite ((put _).trans setPointer_moves) (put _)) markArc_moves
    · exact put _
    · exact moves_ite ((put _).trans setPointer_moves) (put _)

theorem freeSplices_moves {s : State} : Moves b s (freeSplices s) := by
  refine .trans (t := s.upTrg fun u => { u with splices := u.splices.filter fun r => !r.finished })
    (.same rfl rfl rfl ⟨id, id, rfl, rfl, fun h => ?_, id, id⟩)
    (moves_foldl (f := fun s (r : Splice) => dropRef? r.next s) (fun _ _ => moves_of_keeps dropRef?_keeps (by decide)) _ _)
  exact List.filter_sublist.length_le.trans h

theorem fpUpdate_moves {old new : Int} {s : State} : Moves true s (fpUpdate old new s) :=
  (fireCrossed_moves.trans judgeWindows_moves).trans
    (moves_ite ((moves_foldl (fun _ _ => actPoint_moves) _ _).trans freeSplices_moves) moves_refl)

theorem handOn_moves {ch : Chan} {old new : Int} {s : State} : Moves true s (handOn ch old new s) := by
  cases ch with
  | paper => exact ppUpdate_moves
  | fabric => exact fpUpdate_moves
  | drum => exact moves_refl

/-! ## Critical faults (10 R169, 02 R24) -/

theorem enterHalting_moves {s : State} : Moves b s (enterHalting s) :=
  .trans (moves_of_keeps (keeps_seq (keeps_seq setLine_keeps upMot_keeps (n := [.mot, .flt]) (by decide) (by decide))
    nipOpen_keeps (n := [.mot, .flt]) (by decide) (by decide)) (by decide)) withdrawStarting_moves

theorem faultMotion_moves {s : State} : Moves b s (faultMotion s) := by
  have suspended : Moves b s (suspendForFault s) := moves_of_keeps upMot_keeps (by decide)
  rcases faultMotion_cases s with ⟨e, -⟩ | ⟨e, -⟩ | ⟨e, -⟩ <;> rw [e]
  · exact suspended.trans enterHalting_moves
  · exact suspended.trans (moves_of_keeps setLine_keeps (by decide))
  · exact suspended

theorem raise_moves {c : Cause} {i : Option Nat} {s : State} : Moves b s (raise c i s) :=
  ((moves_of_keeps upFlt_keeps (by decide)).trans faultMotion_moves).trans (moves_of_keeps notice_keeps (by decide))

theorem estopActs_moves {s : State} : Moves b s (estopActs s) :=
  ((moves_of_keeps upPins_keeps (by decide)).trans raise_moves).trans
    (moves_of_keeps (keeps_seq (keeps_seq upMot_keeps nipOpen_keeps (n := [.mot, .flt]) (by decide) (by decide)) upTen_keeps
      (n := [.mot, .flt, .ten]) (by decide) (by decide)) (by decide))

theorem nipExpires_moves {s : State} : Moves b s (nipExpires s) := (moves_of_keeps upMot_keeps (by decide)).trans raise_moves

theorem silenceExpires_moves {c : Chan} {s : State} : Moves b s (silenceExpires c s) :=
  moves_ite ((moves_of_keeps updChan_keeps (by decide)).trans raise_moves) moves_refl

theorem stallExpires_moves {s : State} : Moves b s (stallExpires s) :=
  moves_ite ((moves_of_keeps upCnt_keeps (by decide)).trans raise_moves) moves_refl

theorem mainsLost_moves {s : State} : Moves b s (mainsLost s) := (moves_of_keeps upHeat_keeps (by decide)).trans raise_moves

theorem linkExpires_moves {s : State} : Moves b s (linkExpires s) :=
  moves_ite ((moves_of_keeps upFlt_keeps (by decide)).trans raise_moves) moves_refl

theorem loopFault_moves {l : Loop} {c : LoopCause} {f : Cause} {s : State} : Moves b s (loopFault l c f s) :=
  (moves_of_keeps upTen_keeps (by decide)).trans raise_moves

theorem tickBatch_moves {ch : Chan} {x : Ticks} {s : State} : Moves true s (tickBatch ch x s) := by
  unfold tickBatch
  dsimp only
  have taken : Moves true s (rangeFault ch (s.cnt.chan.get ch) ((s.cnt.chan.get ch).take x)
      (s.upCnt fun k => { k with chan := k.chan.set ch ((s.cnt.chan.get ch).take x) })) :=
    .trans (moves_of_keeps upCnt_keeps (by decide)) (moves_ite raise_moves moves_refl)
  exact moves_ite taken (taken.trans handOn_moves)

theorem markCapture_moves {s : State} : Moves true s (markCapture s) :=
  .trans (moves_of_keeps upCnt_keeps (by decide)) (judgeMark_moves.trans (moves_of_keeps captureEnds_keeps (by decide)))

theorem detectSplice_moves {fp : Int} {s : State} : Moves b s (detectSplice fp s) := by
  unfold detectSplice
  split
  · next room =>
    dsimp only
    have put : Moves b s (s.upTrg fun u =>
        { u with
          splices := u.splices ++ [newSplice fp s.trg.announced s.par.lFn s.par.lFr s.par.margin s.par.arcLen]
          announced := none }) := by
      refine .same rfl rfl rfl ⟨id, id, rfl, rfl, fun _ => ?_, id, id⟩
      show (s.trg.splices ++ [_]).length ≤ 4
      rw [List.length_append]
      exact room
    exact .trans (moves_ite (put.trans setPointer_moves) put) (moves_of_keeps notice_keeps (by decide))
  · exact raise_moves

theorem spliceCapture_moves {s : State} : Moves b s (spliceCapture s) :=
  moves_ite (.trans (moves_of_keeps upCnt_keeps (by decide))
    (detectSplice_moves.trans (moves_of_keeps captureEnds_keeps (by decide)))) moves_refl

/-! ## The samples (01 R10, 03, 05) -/

theorem countSample_moves {s : State} : Moves b s (countSample s) :=
  moves_ite ((moves_of_keeps upCnt_keeps (by decide)).trans raise_moves) (moves_of_keeps upCnt_keeps (by decide))

theorem loopSample_moves {raw : Loops Int} {l : Loop} {s : State} : Moves b s (loopSample raw s l) := by
  have sampled : Moves b s (s.upTen fun t => t.set l ((t.get l).sample l s (raw.get l))) :=
    moves_of_keeps upTen_keeps (by decide)
  exact moves_ite (sampled.trans loopFault_moves) (moves_ite (sampled.trans loopFault_moves) sampled)

theorem speedSample_moves {lc0 lc1 lc2 : Int} {ca ta : Bool} {s : State} : Moves b s (speedSample lc0 lc1 lc2 ca ta s) := by
  have tension : ∀ {u : State}, Moves b u (tensionSample lc0 lc1 lc2 u) := moves_foldl (fun _ _ => loopSample_moves) _ _
  have motion : ∀ {u : State}, Moves b u (motionSample u) := moves_of_keeps motionSample_keeps (by decide)
  unfold speedSample
  cases ca <;> cases ta <;> simp only [Bool.false_eq_true, if_false, if_true]
  · exact (countSample_moves.trans tension).trans motion
  · exact (countSample_moves.trans motion).trans tension
  · exact (tension.trans motion).trans countSample_moves
  · exact (motion.trans countSample_moves).trans tension

theorem updZone_moves {z : Zone} {f : ZoneRec → ZoneRec} {s : State} : Moves b s (updZone z f s) :=
  moves_of_keeps updZone_keeps (by decide)

theorem raiseZoneSensor_moves {z : Zone} {line : LineState} {s : State} : Moves b s (raiseZoneSensor z line s) :=
  moves_ite (updZone_moves.trans raise_moves) warn_moves

theorem goLost_moves {z : Zone} {line : LineState} {s : State} : Moves b s (goLost z line s) :=
  updZone_moves.trans raiseZoneSensor_moves

theorem sensorStage_moves {line : LineState} {z : Zone} {s : State} : Moves b s (sensorStage line s z) := by
  refine moves_ite moves_refl (moves_ite updZone_moves ?_)
  dsimp only
  split
  · exact moves_ite (updZone_moves.trans updZone_moves) updZone_moves
  · exact moves_ite (updZone_moves.trans goLost_moves) updZone_moves
  · exact moves_ite (updZone_moves.trans raiseZoneSensor_moves) updZone_moves

theorem overheatStage_moves {z : Zone} {s : State} : Moves b s (overheatStage s z) :=
  moves_ite (moves_ite updZone_moves (updZone_moves.trans raise_moves)) updZone_moves

theorem coldStage_moves {line : LineState} {z : Zone} {s : State} : Moves b s (coldStage line s z) :=
  moves_ite updZone_moves
    (moves_ite (moves_ite (moves_ite updZone_moves (updZone_moves.trans raise_moves)) updZone_moves) moves_refl)

theorem temperatureSample_moves {r : Six (Option Int)} {s : State} : Moves b s (temperatureSample r s) := by
  have heated : ∀ {t : State} {f : Heat → Heat}, Moves b t (t.upHeat f) := moves_of_keeps upHeat_keeps (by decide)
  have stages := (heated (t := s) (f := fun h =>
      { h with zones := Six.ofZone fun z => (h.zones.get z).read (r.get z) })).trans
    ((moves_foldl (fun _ z => sensorStage_moves (line := s.mot.line) (z := z)) Zone.all _).trans
      ((moves_foldl (fun _ z => overheatStage_moves (z := z)) Zone.all _).trans
        (moves_foldl (fun _ z => coldStage_moves (line := s.mot.line) (z := z)) Zone.all _)))
  exact .trans ((stages.trans heated).trans heated) (moves_ite (moves_of_keeps findings_keeps (by decide)) moves_refl)

/-! ## The head link (07 7.5 to 7.7) -/

/-- A change of the head link that leaves its buffer. -/
theorem moves_upHead {s : State} {f : HeadLink → HeadLink} (h : (f s.head).buf.length ≤ s.head.buf.length) :
    Moves b s (s.upHead f) := .same rfl rfl rfl ⟨fun k => h.trans k, id, rfl, rfl, id, id, id⟩

theorem headHunts_moves {s : State} : Moves b s (headHunts s) := moves_upHead (Nat.le_refl _)

theorem takeAccept_moves {txn panel : Nat} {s : State} : Moves true s (takeAccept txn panel s) := by
  refine .trans headHunts_moves ?_
  unfold takeAccept
  dsimp only
  split
  · refine .trans (.trans dropLive_moves (moves_updPanel_same (fun _ => ?_) fun _ => ?_)) decide_moves
    exacts [⟨rfl, rfl, rfl, rfl, rfl⟩, nofun]
  · exact withdraw_moves.trans warn_moves

theorem takeRefuse_moves {txn panel reason : Nat} {s : State} : Moves true s (takeRefuse txn panel reason s) := by
  refine .trans headHunts_moves ?_
  unfold takeRefuse
  dsimp only
  split
  · next p _ hp => exact (refusal_moves (b := true) (find_mem_tag hp).1 fun h => Bool.noConfusion h).trans decide_moves
  · exact warn_moves

/-- The end of a print that leaves the record in no QUEUED state. -/
theorem endPrint_moves {txn panel : Nat} {f : Panel → Panel} {s : State}
    (h : ∀ p, (f p).tag = p.tag ∧ (f p).length = p.length ∧ (f p).xs = p.xs ∧ (f p).arrival = p.arrival
      ∧ (f p).dose = p.dose) (queued : ∀ p, (f p).state ≠ .queued) : Moves true s (endPrint txn panel f s) :=
  dropLive_moves.trans (moves_updPanel_same h fun p k => absurd k (queued p))

theorem takeDone_moves {txn panel : Nat} {printed : Int} {s : State} : Moves true s (takeDone txn panel printed s) := by
  refine .trans headHunts_moves ?_
  unfold takeDone
  dsimp only
  split
  · refine .trans (moves_ite warn_moves moves_refl) (.trans (endPrint_moves (fun _ => ?_) fun _ => ?_)
      (afterPrint_moves.trans decide_moves))
    exacts [⟨rfl, rfl, rfl, rfl, rfl⟩, nofun]
  · exact warn_moves

theorem takeFault_moves {txn panel : Nat} {printed : Int} {reason : Nat} {s : State} :
    Moves true s (takeFault txn panel printed reason s) := by
  refine .trans headHunts_moves ?_
  unfold takeFault
  dsimp only
  split
  · refine .trans (.trans (endPrint_moves (fun _ => ?_) fun _ => ?_) warn_moves)
      (.trans (moves_upPq rfl rfl rfl) (afterPrint_moves.trans decide_moves))
    exacts [⟨rfl, rfl, rfl, rfl, rfl⟩, nofun]
  · exact warn_moves

theorem takeOtherFrame_moves {kind tag : Byte} {body : List Byte} {s : State} :
    Moves b s (takeOtherFrame kind tag body s) :=
  .trans headHunts_moves (.trans (moves_of_keeps bodyPanelTag_keeps (by decide)) warn_moves)

theorem headFrameSent_moves {s : State} : Moves b s (headFrameSent s) := by
  refine moves_ite moves_refl (.trans (moves_upHead ?_) decide_moves)
  have tail : s.head.buf.tail.length ≤ s.head.buf.length := by rw [List.length_tail]; exact Nat.sub_le _ _
  dsimp only
  split <;> exact tail

theorem timeDeadline_moves {n : Nat} {s : State} : Moves true s (timeDeadline n s) := by
  unfold timeDeadline
  split
  · exact startingDeadline_moves.trans decide_moves
  · exact moves_refl

theorem abandon_moves {link : Link} {s : State} : Moves b s (abandon link s) := by
  cases link with
  | host => exact moves_of_keeps upLnk_keeps (by decide)
  | head => exact headHunts_moves

/-! ## One millisecond -/

theorem tick_moves {s : State} : Moves true s (tick s) := by
  have ran : Moves true s (advance s) := .same rfl rfl rfl ⟨id, id, rfl, rfl, id, id, id⟩
  have deadline : ∀ {u : State}, Moves true u (deadlineDue u) := fun {u} => by
    unfold deadlineDue
    split
    · exact startingDeadline_moves.trans decide_moves
    · exact moves_refl
  exact .trans ran (.trans (moves_foldl (fun _ _ => moves_ite silenceExpires_moves moves_refl) _ _)
    (.trans (moves_ite nipExpires_moves moves_refl) (.trans (moves_ite (moves_of_keeps holdEnds_keeps (by decide)) moves_refl)
      (.trans (moves_ite mainsLost_moves moves_refl) (.trans (moves_ite linkExpires_moves moves_refl) deadline)))))

end Sys2Proof.Machine
end

