-- ==== Sys2Proof/Proofs/QueueHost.lean ====
section
/-! SUPPORT. A host command's operation is made of the same pieces, but for an admission (07 R112, R113). -/

namespace Sys2Proof.Machine
open Sys2Proof

/-! ## SET_PARAM (11 R183) -/

theorem writeParam_moves {b : Bool} {p : Param} {v : Int} {s : State} (h : p.allows v = true) :
    Moves b s (writeParam p v s) := by
  cases p with
  | tNip =>
    have written : Moves b s (s.upPar fun q => { q with tNip := v }) := .same rfl rfl rfl ⟨id, id, rfl, rfl, id, id, id⟩
    show Moves b s (writeNipTime v s)
    unfold writeNipTime
    dsimp only
    split
    · exact moves_ite (written.trans nipExpires_moves) written
    · exact written
    · exact written
  | tLink =>
    have written : Moves b s (s.upPar fun q => { q with tLink := v }) := .same rfl rfl rfl ⟨id, id, rfl, rfl, id, id, id⟩
    have timer : ∀ {u : State} {f : FaultMon → FaultMon}, Moves b u (u.upFlt f) := moves_of_keeps upFlt_keeps (by decide)
    exact moves_ite (written.trans timer) (moves_ite (written.trans timer) written)
  | bHead =>
    have written : Moves b s (s.upPar fun q => { q with bHead := v }) := .same rfl rfl rfl ⟨id, id, rfl, rfl, id, id, id⟩
    show Moves b s (writeHeadBaud v s)
    refine written.trans (moves_upHead ?_)
    split <;> exact Nat.le_refl _
  | spacing =>
    have range := inRange_iff.mp h
    exact .same rfl rfl rfl ⟨id, id, rfl, rfl, id, id, fun _ => (by omega : 0 < v)⟩
  | gap =>
    have range := inRange_iff.mp h
    have written : Moves b s (s.upPar fun q => { q with gap := v }) :=
      .same rfl rfl rfl ⟨id, id, rfl, rfl, id, fun _ => (by omega : 0 ≤ v), id⟩
    exact written.trans decide_moves
  | lead =>
    have written : Moves b s (s.upPar fun q => { q with lead := v }) := .same rfl rfl rfl ⟨id, id, rfl, rfl, id, id, id⟩
    exact written.trans decide_moves
  | _ => exact .same rfl rfl rfl ⟨id, id, rfl, rfl, id, id, id⟩

theorem setParam_moves {b : Bool} {id : Nat} {v : Int} {s : State} : Moves b s (setParam id v s).1 := by
  unfold setParam
  split
  · next p hp hr =>
    refine writeParam_moves ?_
    unfold State.paramRefusal at hr
    rw [hp] at hr
    cases ha : p.allows v
    · simp [ha] at hr
    · rfl
  · exact moves_refl
  · exact moves_refl

/-! ## The panel commands (07 R112 to R114, R128, 10 R176) -/

/-- A record as it is admitted: QUEUED, nothing set but what the command gave it. -/
structure Panel.Admitted (p : Panel) : Prop where
  state : p.state = .queued
  xs : p.xs = none
  length : 0 < p.length
  arrival : p.arrival = none
  dose : p.dose = none
  printed : p.printed = none
  attempts : p.attempts = 0

/-- A new record is admitted: at the end of the queue with room in it, or in an empty insert slot (07 R112, R113). -/
inductive Admits (s : State) : State → Prop
  | submit (p : Panel) (new : p.Admitted) (tag : ∀ q ∈ s.pq.records, q.tag ≠ p.tag) (room : s.pq.queue.length < 64) :
      Admits s (s.upPq fun q => { q with queue := q.queue ++ [p] })
  | insert (i : Nat) (p : Panel) (new : p.Admitted) (tag : ∀ q ∈ s.pq.records, q.tag ≠ p.tag)
      (empty : s.pq.slots[i]? = some .empty) : Admits s (s.upPq fun q => { q with slots := q.slots.set i (.armed p) })

theorem tag_free {s : State} {tag : Nat} (h : s.tagHeld tag = false) : ∀ q ∈ s.pq.records, q.tag ≠ tag := by
  intro q hq e
  have held : s.tagHeld tag = true := by
    unfold State.tagHeld State.panel?
    exact List.find?_isSome.mpr ⟨q, hq, decide_eq_true e⟩
  rw [held] at h
  exact nomatch h

/-- What R112 checks of a record that is taken. -/
theorem newRecord_ok {panel n : Nat} {name : ProfileName} {length : Int} {mark : Nat} {m : Bool} {s : State}
    (h : newRecord panel name length mark s = .ok (n, m)) (kind : PanelKind) :
    (newPanel kind panel n length m).Admitted ∧ ∀ q ∈ s.pq.records, q.tag ≠ panel := by
  unfold newRecord at h
  split at h
  · exact nomatch h
  · split at h
    · exact nomatch h
    · next valid =>
      split at h
      · exact nomatch h
      · next free =>
        have range : inRange 5000 600000 length = true := by
          cases k : inRange 5000 600000 length
          · rw [k] at valid; exact absurd (by simp) valid
          · rfl
        have bounds := inRange_iff.mp range
        exact ⟨⟨rfl, rfl, (by omega : 0 < length), rfl, rfl, rfl, rfl⟩, tag_free (by simpa using free)⟩

theorem panelSubmit_admits {panel : Nat} {name : ProfileName} {length : Int} {mark : Nat} {s : State} :
    Moves false s (panelSubmitOp panel name length mark s).1
      ∨ ∃ u, Admits s u ∧ Moves false u (panelSubmitOp panel name length mark s).1 := by
  unfold panelSubmitOp
  split
  · exact .inl moves_refl
  · next n m taken =>
    split
    · exact .inl moves_refl
    · next room =>
      obtain ⟨new, free⟩ := newRecord_ok taken .normal
      exact .inr ⟨_, .submit _ new free (Nat.not_le.mp room),
        (moves_of_keeps takeRef_keeps (by decide)).trans decide_moves⟩

theorem panelInsert_admits {slot panel : Nat} {name : ProfileName} {length : Int} {mark : Nat} {s : State} :
    Moves false s (panelInsertOp slot panel name length mark s).1
      ∨ ∃ u, Admits s u ∧ Moves false u (panelInsertOp slot panel name length mark s).1 := by
  unfold panelInsertOp
  split
  · exact .inl moves_refl
  · split
    · exact .inl moves_refl
    · next empty =>
      split
      · exact .inl moves_refl
      · next n m taken =>
        obtain ⟨new, free⟩ := newRecord_ok taken .insert
        exact .inr ⟨_, .insert slot _ new free (Classical.not_not.mp empty),
          (moves_of_keeps takeRef_keeps (by decide)).trans decide_moves⟩

theorem Panel.cancelled_sentBack {b : Bool} (p : Panel) : p.SentBack b p.cancelled :=
  ⟨fun _ => ⟨rfl, rfl, rfl, rfl, rfl, rfl⟩, rfl, rfl, rfl, rfl, rfl⟩

theorem cancelQueued_moves {b : Bool} {p : Panel} {s : State} (mem : p ∈ s.pq.queue) : Moves b s (cancelQueued p s) :=
  .back mem p.cancelled_sentBack s.pq.lastEnd (.inl rfl)

theorem cancelStarting_moves {b : Bool} {p : Panel} {s : State} (mem : p ∈ s.pq.queue) :
    Moves b s (cancelStarting p s) := by
  unfold cancelStarting
  split
  · next t _ =>
    have mem' : p ∈ (withdraw t.num t.tag s).pq.queue := by rw [withdraw_pq]; exact mem
    exact withdraw_moves.trans (.trans (.back mem' p.cancelled_sentBack _ (.inr ⟨_, rfl⟩))
      (.same rfl rfl rfl ⟨id, id, rfl, rfl, id, id, id⟩))
  · exact cancelQueued_moves mem

theorem panelCancel_moves {b : Bool} {panel : Nat} {s : State} : Moves b s (panelCancelOp panel s).1 := by
  unfold panelCancelOp
  split
  · exact moves_refl
  · split
    · exact (Moves.cancelSlot panel).trans (becomeDone_moves.trans decide_moves)
    · split
      · next p hp =>
        have mem := (find_mem_tag hp).1
        split
        · exact (cancelQueued_moves mem).trans (becomeDone_moves.trans decide_moves)
        · exact (cancelStarting_moves mem).trans (becomeDone_moves.trans decide_moves)
        all_goals exact moves_refl
      · exact moves_refl

theorem setDispatch_moves {b : Bool} {d : Dispatch} {s : State} : Moves b s (setDispatch d s) := moves_upPq rfl rfl rfl

theorem clearQueue_moves {b : Bool} {s : State} : Moves b s (clearQueue s) := by
  have withdrawn := moves_foldl (b := b) (f := fun s (t : Txn) => withdraw t.num t.tag s) (fun _ _ => withdraw_moves)
    (sortBy (fun t : Txn => (t.num : Int)) s.pq.live) s
  have dropped := fun (l : List Panel) (u : State) => moves_foldl (b := b) (f := fun s (p : Panel) => dropRef p.profile s)
    (fun _ _ => moves_of_keeps dropRef_keeps (by decide)) l u
  unfold clearQueue
  exact (withdrawn.trans (dropped _ _)).trans (.trans (.clear _) (.same rfl rfl rfl ⟨id, id, rfl, rfl, id, id, id⟩))

theorem clearTriggers_moves {b : Bool} {s : State} : Moves b s (clearTriggers s) := by
  have panels : Moves b s (s.upTrg fun u => { u with slots := u.slots.map TrigSlot.dropPanel }) :=
    moves_upTrg (List.length_map ..) rfl rfl
  have orphans := fun (l : List Nat) (u : State) => moves_foldl (b := b)
    (f := fun s (i : Nat) => if (s.trg.slots[i]?.getD .free).unresolved then orphanSlot i none s else s)
    (fun _ _ => moves_ite orphanSlot_moves moves_refl) l u
  have dropped := fun (l : List Splice) (u : State) => moves_foldl (b := b) (f := fun s (r : Splice) => dropRef? r.next s)
    (fun _ _ => moves_of_keeps dropRef?_keeps (by decide)) l u
  have announced : ∀ {u : State} {n : Option Nat}, Moves b u (dropRef? n u) := moves_of_keeps dropRef?_keeps (by decide)
  unfold clearTriggers
  exact (panels.trans (orphans _ _)).trans ((dropped _ _).trans (announced.trans
    (.same rfl rfl rfl ⟨id, id, rfl, rfl, fun _ => Nat.zero_le _, id, id⟩)))

theorem clearLine_moves {b : Bool} {s : State} : Moves b s (clearLine s) := by
  have probes : ∀ {u : State}, Moves b u (u.upDose fun d => { d with probes := [], floorFlag := false }) :=
    .same rfl rfl rfl ⟨id, fun _ => Nat.zero_le _, rfl, rfl, id, id, id⟩
  exact clearQueue_moves.trans (probes.trans (.trans (moves_of_keeps upMrk_keeps (by decide)) clearTriggers_moves))

/-! ## The others -/

theorem setPosition_moves {b : Bool} {count : Nat} {v : Int} {s : State} : Moves b s (setPositionOp count v s).1 := by
  unfold setPositionOp
  split
  · next c hc hr =>
    cases c with
    | fabric | drum => exact .same rfl rfl rfl ⟨id, id, rfl, rfl, id, id, id⟩
    | paper =>
      have rest : s.anyFlying = false := by
        unfold positionRefusal at hr
        rw [hc] at hr
        cases k : s.anyFlying
        · rfl
        · rw [k] at hr
          dsimp only at hr
          split at hr <;> exact nomatch hr
      exact .trans (.rebase rest v) (.same rfl rfl rfl ⟨id, id, rfl, rfl, id, id, id⟩)
  · exact moves_refl
  · exact moves_refl

theorem startLine_moves {b : Bool} {s : State} : Moves b s (startLine s) := by
  unfold startLine
  exact .trans (moves_of_keeps (keeps_then (keeps_seq setLine_keeps upMot_keeps (n := [.mot, .flt]) (by decide) (by decide))
    nipClose_keeps (by decide)) (by decide)) decide_moves

theorem writeTrigger_moves {b : Bool} {i : Nat} {e : Trigger} {s : State} : Moves b s (writeTrigger i e s) := by
  unfold writeTrigger
  dsimp only
  split
  · exact setTrigSlot_moves.trans resolveSlot_moves
  · exact setTrigSlot_moves

theorem triggerSet_moves {b : Bool} {i : Nat} {f : TriggerFields} {s : State} : Moves b s (triggerSetOp i f s).1 := by
  unfold triggerSetOp
  split
  · exact moves_refl
  · split
    · exact moves_refl
    · split
      · exact moves_refl
      · split
        · exact moves_refl
        · exact writeTrigger_moves

theorem setWindow_moves {b : Bool} {i : Nat} {w : Option Window} {s : State} : Moves b s (setWindow i w s) :=
  moves_upTrg rfl List.length_set rfl

theorem announce_moves {b : Bool} {e : Option Nat} {s : State} : Moves b s (announce e s) :=
  .trans (moves_of_keeps (keeps_trans dropRef?_keeps takeRef?_keeps) (by decide)) (moves_upTrg rfl rfl rfl)

/-- A host command moves the panel queue by the pieces, or admits a panel first. -/
theorem hostOp_moves (c : Instr) (s : State) :
    Moves false s (hostOp c s).1 ∨ ∃ u, Admits s u ∧ Moves false u (hostOp c s).1 := by
  cases c with
  | panelSubmit => exact panelSubmit_admits
  | panelInsert => exact panelInsert_admits
  | setParam => exact .inl setParam_moves
  | setPosition => exact .inl setPosition_moves
  | start =>
    refine .inl ?_
    show Moves false s (startOp s).1
    unfold startOp
    split
    · exact startLine_moves
    · exact startLine_moves
    all_goals exact moves_refl
  | panelCancel => exact .inl panelCancel_moves
  | dispatchEnable =>
    refine .inl ?_
    show Moves false s (dispatchEnableOp s).1
    unfold dispatchEnableOp
    split
    · exact setDispatch_moves.trans decide_moves
    · exact setDispatch_moves.trans decide_moves
    · exact moves_refl
  | dispatchResume =>
    refine .inl ?_
    show Moves false s (dispatchResumeOp s).1
    unfold dispatchResumeOp
    split
    · exact setDispatch_moves.trans decide_moves
    · exact setDispatch_moves.trans decide_moves
    · exact moves_refl
  | dispatchHold =>
    refine .inl ?_
    show Moves false s (dispatchHoldOp s).1
    unfold dispatchHoldOp
    split
    · exact setDispatch_moves
    all_goals exact moves_refl
  | dispatchOff => exact .inl setDispatch_moves
  | triggerSet => exact .inl triggerSet_moves
  | triggerArm =>
    refine .inl ?_
    show Moves false s (triggerArmOp _ s).1
    unfold triggerArmOp
    split
    · exact moves_refl
    · split
      · exact moves_refl
      · exact moves_refl
      · exact setTrigSlot_moves
  | triggerClear =>
    refine .inl ?_
    show Moves false s (triggerClearOp _ s).1
    unfold triggerClearOp
    split
    · exact moves_refl
    · split
      · exact moves_refl
      · exact moves_refl
      · exact setTrigSlot_moves
  | windowSet =>
    refine .inl ?_
    show Moves false s (windowSetOp _ _ s).1
    unfold windowSetOp
    split
    · exact moves_refl
    · split
      · exact moves_refl
      · exact setWindow_moves
  | windowClear =>
    refine .inl ?_
    show Moves false s (windowClearOp _ s).1
    unfold windowClearOp
    split
    · exact moves_refl
    · exact setWindow_moves
  | fabricLoad =>
    refine .inl ?_
    show Moves false s (fabricLoadOp _ s).1
    unfold fabricLoadOp
    split
    · exact moves_refl
    · split
      · exact moves_refl
      · exact setPointer_moves.trans (setPointer_moves.trans setPointer_moves)
  | spliceAhead =>
    refine .inl ?_
    show Moves false s (spliceAheadOp _ s).1
    unfold spliceAheadOp
    split
    · exact moves_refl
    · exact announce_moves
  | clearLine =>
    refine .inl ?_
    show Moves false s (clearLineOp s).1
    unfold clearLineOp
    split
    · exact clearLine_moves
    · exact moves_refl
  | linkConfig | getParam | readCounts | heatOn | heatOff | stop | threadEnter | threadExit | jog | seek | seekStop
  | seekResume | readMotion | setDrum | readHeat | readDose | readProbe | readTension | profileLoad | profileFind
  | profileRead | profileDrop | profilePin | profileTrim | readQueue | readPanel | readMarks | triggerRead | readWindows
  | readFabric | clearFault | readFault | readStatus =>
    exact .inl (moves_of_keeps hostOp_keeps (by simp [touches, panelBlocks]))
  | _ => exact .inl moves_refl

end Sys2Proof.Machine
end

