-- ==== Sys2Proof/Proofs/QueueSteps.lean ====
section
/-! SUPPORT. A property that the pieces and an admission keep is kept by every step. -/

namespace Sys2Proof.Machine
open Sys2Proof

/-- The rows in which the host link takes commands (11 R178, R179). -/
def Instr.linkRow : Instr → Bool
  | .validFrame _ | .unknownCommand _ _ _ | .frameSent => true
  | c => (commandFrame c).isSome

/-- A row that is neither a reset nor one of the host link's is made of the pieces. -/
theorem row_moves {c : Instr} {s t : State} (link : Instr.linkRow c = false) (reset : c ≠ .powerOnReset ∧ c ≠ .resetn)
    (e : exec c s = .next t) : Moves true s t := by
  have frame := exec_keeps c s
  cases c with
  | powerOnReset => exact absurd rfl reset.1
  | resetn => exact absurd rfl reset.2
  | tickBatch => cases e; exact tickBatch_moves
  | markCapture => cases e; exact markCapture_moves
  | spliceCapture => cases e; exact spliceCapture_moves
  | nipTimeout => cases e; exact moves_ite nipExpires_moves moves_refl
  | estop => cases e; exact moves_ite moves_refl estopActs_moves
  | speedAndTensionSample => cases e; exact speedSample_moves
  | encoderSilent => cases e; exact silenceExpires_moves
  | stall => cases e; exact stallExpires_moves
  | webBreak | overTension => cases e; exact moves_ite loopFault_moves moves_refl
  | doseSample => cases e; exact doseSample_moves
  | temperatureSample => cases e; exact temperatureSample_moves
  | zoneSensor => cases e; exact moves_ite goLost_moves moves_refl
  | mainsLost => cases e; exact moves_ite mainsLost_moves moves_refl
  | linkLost => cases e; exact linkExpires_moves
  | pulseEnd => cases e; exact moves_upTrg rfl rfl rfl
  | timeDeadline => cases e; exact timeDeadline_moves
  | frameGapTimeout => cases e; exact abandon_moves
  | lenOutOfRange => cases e; exact moves_ite abandon_moves moves_refl
  | headFrameSent => cases e; exact headFrameSent_moves
  | accept => cases e; exact takeAccept_moves
  | refuse => cases e; exact takeRefuse_moves
  | done => cases e; exact takeDone_moves
  | fault => cases e; exact takeFault_moves
  | headOtherKindFrame => cases e; exact takeOtherFrame_moves
  | headFrameBadCrc => cases e; exact headHunts_moves
  | seekDistanceReached | nipLimitChange | nipHold | estopRelease | zoneHold | readiness | zeroCrossEdge | zoneShortfall =>
    obtain ⟨u, hu, k⟩ := frame rfl
    cases e.symm.trans hu
    exact moves_of_keeps k (by simp [touches, panelBlocks])
  | _ => exact nomatch link

/-- A property of the state that the pieces keep, and an admission. -/
structure MovesClosed (P : State → Prop) : Prop where
  moves : ∀ {b s t}, Moves b s t → P s → P t
  admits : ∀ {s t}, Admits s t → P s → P t

section
variable {P : State → Prop} {s t : State}

theorem MovesClosed.link (k : MovesClosed P) : LinkInvariant P where
  link := fun h f _ => k.moves (b := true) (moves_of_keeps f (by decide)) h
  op := fun {s} c h => by
    rcases hostOp_moves c s with m | ⟨u, a, m⟩
    · exact k.moves m h
    · exact k.moves m (k.admits a h)
  report := k.moves (b := true) flushReport_moves
  decision := k.moves (b := true) decide_moves

theorem MovesClosed.resetPart (k : MovesClosed P) (h : P s.cleared) : P (resetPart s) := by
  have limited : P s.limited := k.moves (b := true) (moves_of_keeps limited_keeps (by decide)) h
  rw [resetPart_of_limited]
  split
  · exact k.moves (b := true) estopActs_moves limited
  · exact limited

theorem MovesClosed.exec {c : Instr} (k : MovesClosed P) (reset : ∀ u : State, P u.cleared) (h : P s)
    (e : exec c s = .next t) : P t := by
  cases hf : commandFrame c with
  | some f =>
    rw [exec_host hf] at e
    cases e
    exact k.link.hostCommand h
  | none =>
    cases c with
    | powerOnReset | resetn => cases e; exact k.resetPart (reset s)
    | validFrame => cases e; exact k.link.receive h
    | unknownCommand => cases e; exact k.link.hostFrameArrives h
    | frameSent => cases e; exact k.link.frameSent h
    | _ => exact k.moves (row_moves (by simp [Instr.linkRow, hf]) (by simp) e) h

theorem MovesClosed.step (k : MovesClosed P) (reset : ∀ u : State, P u.cleared) (h : P s) (e : step s = .next t) : P t := by
  unfold Machine.step at e
  split at e
  · cases e; exact k.moves tick_moves h
  · next rest _ =>
    have unqueued : Moves true s { s with pending := rest } := .same rfl rfl rfl ⟨id, id, rfl, rfl, id, id, id⟩
    exact k.exec reset (k.moves unqueued h) e

end

end Sys2Proof.Machine
end

