-- ==== Sys2Proof/Proofs/PlacementsKept.lean ====
section
/-! PROOF. Every step keeps the placed panels first, ascending and clear of one another, and each next probe point on its
panel (07 R111, R116, 04 R64, R65). -/

namespace Sys2Proof.Machine
open Sys2Proof

/-- The inserts with a record armed in an empty slot. -/
theorem inserts_set_armed {slots : List Slot} {i : Nat} {p : Panel} (empty : slots[i]? = some .empty) :
    ((slots.set i (.armed p)).filterMap Slot.panel?).Perm (p :: slots.filterMap Slot.panel?) := by
  obtain ⟨lt, at_⟩ := List.getElem?_eq_some_iff.mp empty
  have armed : (slots.set i (.armed p))[i]? = some (.armed p) := List.getElem?_set_self lt
  have back : (slots.set i (.armed p)).set i .empty = slots := by
    rw [List.set_set, ← at_, List.set_getElem_self]
  have perm := inserts_set_empty armed
  rwa [back] at perm

/-- Tags stay unique at an admission (07 R112). -/
theorem Admits.records {s t : State} (a : Admits s t) :
    ∃ p : Panel, p.Admitted ∧ (∀ q ∈ s.pq.records, q.tag ≠ p.tag) ∧ t.pq.records.Perm (p :: s.pq.records) := by
  cases a with
  | submit p new tag =>
    refine ⟨p, new, tag, ?_⟩
    show ((s.pq.queue ++ [p]) ++ s.pq.inserts).Perm (p :: (s.pq.queue ++ s.pq.inserts))
    rw [List.append_assoc]
    exact List.perm_middle
  | insert i p new tag empty =>
    exact ⟨p, new, tag, ((inserts_set_armed empty).append_left s.pq.queue).trans List.perm_middle⟩

theorem Admits.tags {s t : State} (a : Admits s t) (h : s.pq.TagsOnce) : t.pq.TagsOnce := by
  obtain ⟨p, -, free, perm⟩ := a.records
  refine (perm.map Panel.tag).nodup_iff.mpr (List.nodup_cons.mpr ⟨fun mem => ?_, h⟩)
  obtain ⟨q, hq, e⟩ := List.mem_map.mp mem
  exact free q hq e

theorem Admits.placements {s t : State} (a : Admits s t) (h : Placements s) : Placements t := by
  have tags := a.tags h.tags
  have k := h.placed
  have queued : ∀ q ∈ s.pq.inserts, 0 < q.length := fun q hq => k.lengths q (List.mem_append_right _ hq)
  cases a with
  | submit p new =>
    have cases' : ∀ {q}, q ∈ s.pq.queue ++ [p] → q ∈ s.pq.queue ∨ q = p := fun hq => by simpa using hq
    refine ⟨h.spacing, tags, h.fresh, placedOk_of k.gap ?_ ?_ ?_ k.armed ?_ queued ?_⟩
    · refine List.pairwise_append.mpr ⟨k.before, List.pairwise_singleton _ p, fun q _ r hr => ?_⟩
      cases List.mem_singleton.mp hr
      exact before_unplaced new.xs
    all_goals
      intro q hq
      rcases cases' hq with hq | rfl
    · exact k.ends q hq
    · exact fun x hx => by rw [new.xs] at hx; exact nomatch hx
    · exact k.queued q hq
    · exact fun _ => new.xs
    · exact k.lengths_queue q hq
    · exact new.length
    · exact k.points q hq
    · exact fun a ha => by rw [new.arrival] at ha; exact nomatch ha
  | insert i p new tag empty =>
    have armed : ∀ q, Slot.armed q ∈ s.pq.slots.set i (.armed p) → Slot.armed q ∈ s.pq.slots ∨ q = p := fun q hq =>
      (List.mem_or_eq_of_mem_set hq).imp id fun e => by cases e; rfl
    refine ⟨h.spacing, tags, fun q hq => ?_, placedOk_of k.gap k.before k.ends k.queued (fun q hq => ?_) k.lengths_queue
      (fun q hq => ?_) k.points⟩
    · rcases armed q hq with hq | rfl
      · exact h.fresh q hq
      · exact new.arrival
    · rcases armed q hq with hq | rfl
      · exact k.armed q hq
      · exact ⟨new.state, new.xs⟩
    · rcases List.mem_cons.mp ((inserts_set_armed empty).mem_iff.mp hq) with rfl | hq
      · exact new.length
      · exact queued q hq

theorem placements_closed : MovesClosed Placements := ⟨fun m h => m.placements h, fun a h => a.placements h⟩

theorem reset_placements (s : State) : Placements s.cleared where
  spacing := show 0 < State.reset.par.spacing by decide
  tags := List.nodup_nil
  fresh := fun p h => by simp [State.cleared, State.reset] at h
  placed := ⟨reset_placedOk.gap, .nil, .nil, fun _ h => (nomatch h), fun _ h => (nomatch h), reset_placedOk.armed,
    reset_placedOk.lengths, fun _ h => (nomatch h)⟩

/-- Settles O60: the placements are kept together with the positive probe spacing and the unique tags that the invariants
of the parameters and of the queue give. -/
theorem stepKeepsPlacementsClear : Obligations.StepKeepsPlacementsClear := by
  intro s t params queue placed e
  have spacing := inRange_iff.mp (params.ranges .spacing)
  have start : Placements s := ⟨(by have := spacing.1; simp only [State.param] at this; omega), queue.tags,
    fun p hp => (queue.armed p hp).2.1, placed⟩
  exact (placements_closed.step reset_placements start e).placed

end Sys2Proof.Machine
end

