-- ==== Sys2Proof/Proofs/CapacitiesKept.lean ====
section
/-! PROOF. Every step keeps every queue and list within its capacity, no place kept, and TXD busy while a frame waits (10
R173, 11 R179, 07 R111, R118, 04 R62, 09 R151, R157, R160). -/

namespace Sys2Proof.Machine
open Sys2Proof

/-! ## The queue and the lists -/

theorem Admits.sizes {s t : State} (a : Admits s t) (h : SizesOk s) : SizesOk t := by
  cases a with
  | submit p _ _ room =>
    exact h.fits (fits_upPq _ _) (List.length_append.trans_le (Nat.succ_le_of_lt room)) h.inserts
  | insert i p => exact h.fits (fits_upPq _ _) h.panels (List.length_set.trans h.inserts)

theorem sizes_closed : MovesClosed SizesOk := ⟨fun m h => m.sizes h, fun a h => a.sizes h⟩

theorem reset_sizes (s : State) : SizesOk s.cleared :=
  ⟨Nat.zero_le _, Nat.zero_le _, rfl, Nat.zero_le _, rfl, rfl, Nat.zero_le _⟩

/-! ## The transmit queue (10 R173) -/

/-- The transmit queue is within its places, and TXD is busy while a frame waits. -/
structure FaultMon.Fits (f : FaultMon) : Prop where
  places : f.used ≤ 32
  busy : f.current = none → f.waiting = []

theorem FaultMon.Fits.of_queue {f g : FaultMon} (h : f.Fits) (current : g.current = f.current) (waiting : g.waiting = f.waiting)
    (kept : g.kept = f.kept) : g.Fits where
  places := by
    unfold FaultMon.used
    rw [current, waiting, kept]
    exact h.places
  busy := by rw [current, waiting]; exact h.busy

theorem place_busy {f : FaultMon} {x : TxFrame} : (f.place x).current ≠ none := by
  unfold FaultMon.place
  split
  · exact nofun
  · next current => exact fun k => nomatch current.symm.trans k

theorem FaultMon.Fits.place {f : FaultMon} (x : TxFrame) (room : f.used < 32) : (f.place x).Fits :=
  ⟨(place_used f x).trans_le room, fun idle => absurd idle place_busy⟩

/-- With the next frame begun TXD is busy, or none waits. -/
theorem begin_busy {f : FaultMon} (idle : f.current = none) (h : f.begin_.current = none) : f.begin_.waiting = [] := by
  unfold FaultMon.begin_ at *
  cases next : nextFrame f.waiting with
  | some x => rw [idle, next] at h; exact nomatch h
  | none =>
    rw [nextFrame_eq] at next
    cases waiting : f.waiting with
    | nil => rw [idle]; exact waiting
    | cons x xs => rw [waiting] at next; exact nomatch next

theorem notice_queueFits {n : Notice} {s : State} (h : s.flt.Fits) : (notice n s).flt.Fits := by
  cases room : s.flt.room
  · rw [notice_full room]; exact h.of_queue rfl rfl rfl
  · rw [notice_room room]; exact .place _ ((room_iff _).mp room)

theorem Runs.queueFits {b : Bool} {s t : State} (r : Runs b s t) (h : s.flt.Fits) : t.flt.Fits := by
  induction r with
  | same flt => rw [flt]; exact h
  | notice n => exact notice_queueFits h
  | report p room => exact .place _ ((room_iff _).mp room)
  | @line s new event =>
    unfold setLine
    split
    · exact h
    · have linked : (s.upFlt fun f => { f with link := linkTimerAt s.par.tLink s.mot.line new f.link }).flt.Fits :=
        h.of_queue rfl rfl rfl
      exact notice_queueFits linked
  | @latch s r =>
    show (s.flt.take r).Fits
    unfold FaultMon.take
    split <;> exact h.of_queue rfl rfl rfl
  | trans _ _ ih ih' => exact ih' (ih h)

/-! ## What the rows leave of the host link (11 R178, R179) -/

/-- The transmit queue and the command buffer within their capacities, no place kept, and no command waiting while a place is
free. -/
structure LinkOk (s : State) : Prop where
  transmit : s.flt.Fits
  kept : s.flt.kept = false
  commands : s.lnk.buffer.length ≤ 4
  settled : s.settled = true

/-- What an operation that takes no command leaves of the transmit queue and of the buffer. -/
structure Places (s t : State) : Prop where
  transmit : s.flt.Fits → t.flt.Fits
  kept : t.flt.kept = s.flt.kept
  used : s.flt.used ≤ t.flt.used
  commands : t.lnk.buffer = s.lnk.buffer

theorem Places.trans {s t u : State} (h : Places s t) (k : Places t u) : Places s u :=
  ⟨k.transmit ∘ h.transmit, k.kept.trans h.kept, h.used.trans k.used, k.commands.trans h.commands⟩

theorem settled_of_used {s : State} (h : s.lnk.buffer = [] ∨ 32 ≤ s.flt.used) : s.settled = true :=
  settled_iff.mpr (h.imp id fun full => decide_eq_false (Nat.not_lt.mpr full))

theorem LinkOk.places {s t : State} (h : LinkOk s) (k : Places s t) : LinkOk t where
  transmit := k.transmit h.transmit
  kept := k.kept.trans h.kept
  commands := k.commands ▸ h.commands
  settled := settled_of_used ((settled_iff.mp h.settled).imp (k.commands.trans ·) fun full => (used_of_full full).trans k.used)

/-- A run of pieces outside the host link. -/
theorem places_of_runs {b : Bool} {l : List Block} {s t : State} (r : Runs b s t) (k : Keeps l s t) (h : Block.lnk ∉ l) :
    Places s t :=
  ⟨r.queueFits, r.tellsOn.kept, r.tellsOn.used, congrArg HostLink.buffer (k .lnk h)⟩

/-- A change that leaves the places of the transmit queue and the buffer. -/
theorem places_of_queue {s t : State} (current : t.flt.current = s.flt.current) (waiting : t.flt.waiting = s.flt.waiting)
    (kept : t.flt.kept = s.flt.kept) (commands : t.lnk.buffer = s.lnk.buffer) : Places s t where
  transmit := fun h => h.of_queue current waiting kept
  kept := kept
  used := by unfold FaultMon.used; rw [current, waiting, kept]
  commands := commands

/-! ## A command carried out -/

theorem writeParam_queueFits {p : Param} {v : Int} {s : State} (h : s.flt.Fits) : (writeParam p v s).flt.Fits := by
  cases p with
  | tLink =>
    show (writeLinkTime v s).flt.Fits
    rw [writeLinkTime_eq]
    exact h.of_queue rfl rfl rfl
  | tNip =>
    show (writeNipTime v s).flt.Fits
    unfold writeNipTime
    dsimp only
    split
    · split
      · exact nipExpires_runs.queueFits h
      · exact h
    · exact h
    · exact h
  | mEnc | tpm | silMask => exact h
  | _ => rw [writeParam_keeps .flt (by simp [Param.blocks])]; exact h

theorem clearLatch_queueFits {s : State} (h : s.flt.Fits) : (clearLatch s).flt.Fits := by
  have emptied : (s.upFlt fun f => { f with latch := none, further := [], furtherCount := 0 }).flt.Fits :=
    h.of_queue rfl rfl rfl
  exact (Runs.line (faults := false) _ _).queueFits emptied

theorem hostOp_queueFits {c : Instr} {s : State} (h : s.flt.Fits) : (hostOp c s).1.flt.Fits := by
  by_cases param : ∃ t i v, c = .setParam t i v
  · obtain ⟨_, i, v, rfl⟩ := param
    show (setParam i v s).1.flt.Fits
    unfold setParam
    split
    · exact writeParam_queueFits h
    · exact h
    · exact h
  by_cases window : ∃ t i f, c = .windowSet t i f
  · obtain ⟨_, i, f, rfl⟩ := window
    exact (windowSetOp_keeps (i := i) (f := f) (s := s) .flt (by decide)).symm ▸ h
  by_cases clear : ∃ t, c = .clearFault t
  · obtain ⟨_, rfl⟩ := clear
    show (clearFaultOp s).1.flt.Fits
    unfold clearFaultOp
    split
    · exact h
    · split
      · exact h
      · split
        · exact h
        · exact clearLatch_queueFits h
  by_cases flags : ∃ t, c = .readStatus t true
  · obtain ⟨_, rfl⟩ := flags
    exact h.of_queue rfl rfl rfl
  exact (hostOp_runs (b := false) (fun t i v e => param ⟨t, i, v, e⟩) (fun t i f e => window ⟨t, i, f, e⟩)
    (fun t e => clear ⟨t, e⟩) (fun t e => flags ⟨t, e⟩)).queueFits h

/-- A command carried out takes one place, its reply the one kept for it. -/
theorem carryOut_queueFits {kind tag : Byte} {op : State → State × Reply} {s : State} (h : s.flt.Fits)
    (kept : s.flt.kept = false) (room : s.flt.room = true) (tells : ∀ u, Tells u (op u).1)
    (fits : ∀ u : State, u.flt.Fits → (op u).1.flt.Fits) : (carryOut kind tag op s).flt.Fits := by
  have acting : (s.upFlt fun f => { f with kept := true }).flt.Fits := by
    refine ⟨?_, h.busy⟩
    have one : ({ s.flt with kept := true } : FaultMon).used = s.flt.used + 1 := by
      unfold FaultMon.used
      rw [kept]
      rfl
    exact one.trans_le ((room_iff _).mp room)
  refine ⟨?_, fun idle => absurd idle place_busy⟩
  have told := tells (s.upFlt fun f => { f with kept := true })
  rw [show (carryOut kind tag op s).flt.used = _ from answer_used told.kept]
  exact (fits _ acting).places

theorem runFrame_queueFits {f : Frame} {s : State} (h : s.flt.Fits) (kept : s.flt.kept = false) (room : s.flt.room = true) :
    (runFrame f s).flt.Fits := by
  unfold runFrame
  split
  · exact carryOut_queueFits h kept room refusing_tells fun _ => id
  · exact carryOut_queueFits h kept room refusing_tells fun _ => id
  · exact carryOut_queueFits h kept room (hostOp_tells _) fun _ => hostOp_queueFits

/-! ## The host link at work -/

/-- Commands are taken until none waits or no place is free. -/
theorem takeFrames_linkOk {n : Nat} {s : State} (enough : s.lnk.buffer.length ≤ n) (h : s.flt.Fits) (kept : s.flt.kept = false)
    (commands : s.lnk.buffer.length ≤ 4) : LinkOk (takeFrames n s) := by
  induction n generalizing s with
  | zero =>
    exact ⟨h, kept, commands, settled_of_used (.inl (List.length_eq_zero_iff.mp (Nat.le_zero.mp enough)))⟩
  | succ n ih =>
    unfold takeFrames
    split
    · next empty => exact ⟨h, kept, commands, settled_of_used (.inl empty)⟩
    · next f rest buffer =>
      rw [buffer] at enough commands
      split
      · next room =>
        have lnk : (runFrame f (popFrame s)).lnk.buffer = rest := by
          rw [runFrame_lnk]
          show s.lnk.buffer.tail = rest
          rw [buffer]
          rfl
        refine ih ?_ (runFrame_queueFits (s := popFrame s) h kept room) ?_ ?_
        · rw [lnk]; exact Nat.le_of_succ_le_succ enough
        · obtain ⟨op, -, eq⟩ := runFrame_eq f
          rw [eq]
          exact place_kept _ _
        · rw [lnk]; exact (Nat.le_succ _).trans commands
      · next full => exact ⟨h, kept, buffer ▸ commands, settled_of_used (.inr (used_of_full (by simpa using full)))⟩

theorem LinkOk.restartLink {s : State} (h : LinkOk s) : LinkOk (restartLink s) :=
  h.places (places_of_queue rfl rfl rfl rfl)

theorem LinkOk.hostFrameArrives {f : Frame} {s : State} (h : LinkOk s) : LinkOk (hostFrameArrives s f) := by
  have k := h.restartLink
  unfold Machine.hostFrameArrives
  dsimp only
  split
  · refine takeFrames_linkOk (Nat.le_refl _) ?_ ?_ ?_
    · rw [bufferFrame_flt]; exact k.transmit
    · rw [bufferFrame_flt]; exact k.kept
    · unfold bufferFrame
      split
      · next free => exact List.length_append.trans_le free
      · exact k.commands
  · exact k

theorem LinkOk.receive {bytes : List Byte} {s : State} (h : LinkOk s) : LinkOk (receive bytes s) := by
  have frames : ∀ (l : List Frame) {u : State}, LinkOk u → LinkOk (l.foldl Machine.hostFrameArrives u) := by
    intro l
    induction l with
    | nil => exact fun hu => hu
    | cons f l ih => exact fun hu => ih hu.hostFrameArrives
  exact frames _ (h.places (places_of_queue rfl rfl rfl rfl))

theorem LinkOk.hostCommand {c : Instr} {s : State} (h : LinkOk s) : LinkOk (hostCommand c s) := by
  have k := h.restartLink
  unfold Machine.hostCommand
  split
  · unfold hostExec
    split
    · next taken =>
      obtain ⟨empty, room⟩ : s.lnk.buffer = [] ∧ s.flt.room = true := by simpa using taken
      have buffer : ∀ {kind tag : Byte}, (carryOut kind tag (hostOp c) (Machine.restartLink s)).lnk.buffer = [] := by
        intro kind tag
        show (hostOp c _).1.lnk.buffer = []
        rw [hostOp_lnk]
        exact empty
      exact ⟨carryOut_queueFits k.transmit k.kept room (hostOp_tells c) fun _ => hostOp_queueFits, place_kept _ _,
        buffer ▸ Nat.zero_le _, settled_of_used (.inl buffer)⟩
    · exact h.hostFrameArrives
  · exact h

theorem LinkOk.frameSent {s : State} (h : LinkOk s) : LinkOk (frameSent s) := by
  cases sent : s.flt.current with
  | none => rw [frameSent_idle sent]; exact h
  | some x =>
    obtain ⟨used, kept, -⟩ := begin_queue { s.flt with current := none }
    have flt := frameLeaves_flt x s
    have left : (frameLeaves x s).flt.Fits := by
      rw [flt]
      refine ⟨used.trans_le (le_trans ?_ h.transmit.places), begin_busy rfl⟩
      unfold FaultMon.used
      rw [sent]
      exact Nat.add_le_add_right (Nat.add_le_add_right (Nat.zero_le _) _) _
    have freed := places_of_runs (reportFreed_runs (b := false) (frameLeaves x s)) (reportFreed_keeps _) (by decide)
    have commands : (reportFreed (frameLeaves x s)).lnk.buffer.length ≤ 4 := by
      rw [freed.commands, show (frameLeaves x s).lnk = (changeSpeed x.newBaud s).lnk from rfl, changeSpeed_lnk]
      exact h.commands
    rw [frameSent_leaves sent, placeFreed_eq]
    exact takeFrames_linkOk (Nat.le_refl _) (freed.transmit left) (freed.kept.trans (by rw [flt, kept]; exact h.kept)) commands

/-! ## The other rows and the millisecond -/

theorem places_ite {c : Prop} [Decidable c] {s t u : State} (h : Places s t) (k : Places s u) :
    Places s (if c then t else u) := by
  split <;> assumption

theorem places_refl {s : State} : Places s s := places_of_queue rfl rfl rfl rfl

theorem linkExpires_places {s : State} : Places s (linkExpires s) :=
  places_ite (Places.trans (t := s.upFlt fun f => { f with link := .standing s.par.tLink.toNat })
    (places_of_queue rfl rfl rfl rfl) (places_of_runs raise_runs raise_keeps (by decide))) places_refl

theorem abandon_places {link : Link} {s : State} : Places s (abandon link s) := by
  cases link <;> exact places_of_queue rfl rfl rfl rfl

theorem tick_places {s : State} : Places s (tick s) := by
  have ran : Places s (advance s) := places_of_queue rfl rfl rfl rfl
  have silence : ∀ {u : State} {c : Chan}, Places u (silenceDue u c) :=
    places_ite (places_of_runs silenceExpires_runs silenceExpires_keeps (by decide)) places_refl
  have deadline : ∀ {u : State}, Places u (deadlineDue u) := fun {u} => by
    have k := deadlineDue_keeps (s := u)
    refine places_of_runs (b := true) ?_ k (by decide)
    unfold deadlineDue
    split
    · exact startingDeadline_runs.trans decide_runs
    · exact runs_refl
  exact ran.trans (silence.trans (silence.trans (silence.trans
    (.trans (places_ite (places_of_runs (b := true) nipExpires_runs nipExpires_keeps (by decide)) places_refl)
      (.trans (places_ite (places_of_runs (b := true) holdEnds_runs holdEnds_keeps (by decide)) places_refl)
        (.trans (places_ite (places_of_runs (b := true) mainsLost_runs mainsLost_keeps (by decide)) places_refl)
          (.trans (places_ite linkExpires_places places_refl) deadline)))))))

theorem reset_linkOk (s : State) : LinkOk (resetPart s) := by
  have cleared : LinkOk s.cleared := ⟨⟨Nat.zero_le _, fun _ => rfl⟩, rfl, Nat.zero_le _, rfl⟩
  have limited : LinkOk s.limited := cleared.places (places_of_queue
    (congrArg FaultMon.current (limited_keeps .flt (by decide))) (congrArg FaultMon.waiting (limited_keeps .flt (by decide)))
    (congrArg FaultMon.kept (limited_keeps .flt (by decide))) (congrArg HostLink.buffer (limited_keeps .lnk (by decide))))
  rw [resetPart_of_limited]
  split
  · exact limited.places (places_of_runs estopActs_runs estopActs_keeps (by decide))
  · exact limited

theorem LinkOk.exec {c : Instr} {s t : State} (h : LinkOk s) (e : exec c s = .next t) : LinkOk t := by
  cases hf : commandFrame c with
  | some f =>
    rw [exec_host hf] at e
    cases e
    exact h.hostCommand
  | none =>
    have frame := exec_keeps c s
    have runs : Instr.linkRow c = false → c ≠ .powerOnReset → c ≠ .resetn → c ≠ .linkLost → Runs true s t :=
      fun link power reset lost => exec_runs hf power reset (fun _ k => by rw [k] at link; exact nomatch link)
        (fun _ _ _ k => by rw [k] at link; exact nomatch link) (fun k => by rw [k] at link; exact nomatch link) lost e
    cases c with
    | powerOnReset | resetn => cases e; exact reset_linkOk s
    | validFrame => cases e; exact h.receive
    | unknownCommand => cases e; exact h.hostFrameArrives
    | frameSent => cases e; exact h.frameSent
    | linkLost => cases e; exact h.places linkExpires_places
    | frameGapTimeout => cases e; exact h.places abandon_places
    | lenOutOfRange => cases e; exact h.places (places_ite abandon_places places_refl)
    | tickBatch ch =>
      cases e
      exact h.places (places_of_runs tickBatch_runs tickBatch_keeps (by cases ch <;> simp [touches]))
    | seekDistanceReached | markCapture | spliceCapture | nipLimitChange | nipTimeout | nipHold | estop | estopRelease
    | speedAndTensionSample | encoderSilent | stall | webBreak | overTension | doseSample | temperatureSample | zoneHold
    | zoneSensor | readiness | zeroCrossEdge | zoneShortfall | mainsLost | pulseEnd | timeDeadline | headFrameSent | accept
    | refuse | done | fault | headOtherKindFrame | headFrameBadCrc =>
      have r := runs rfl (by simp) (by simp) (by simp)
      obtain ⟨u, hu, k⟩ := frame rfl
      cases e.symm.trans hu
      exact h.places (places_of_runs r k (by simp [touches, faultBlocks]))
    | _ => exact nomatch hf

theorem LinkOk.step {s t : State} (h : LinkOk s) (e : step s = .next t) : LinkOk t := by
  unfold Machine.step at e
  split at e
  · cases e; exact h.places tick_places
  · next rest _ =>
    exact LinkOk.exec (s := { s with pending := rest }) (h.places (places_of_queue rfl rfl rfl rfl)) e

/-! ## The capacities -/

theorem buffersOk_iff {s : State} : BuffersOk s ↔ SizesOk s ∧ LinkOk s := by
  constructor
  · intro h
    have places := frames_length s.flt
    rw [h.kept] at places
    exact ⟨⟨h.headLink, h.panels, h.inserts, h.probes, h.triggers, h.windows, h.splices⟩,
      ⟨⟨places.symm.trans_le h.transmit, h.sending⟩, h.kept, h.commands, h.settled⟩⟩
  · rintro ⟨sizes, link⟩
    have places := frames_length s.flt
    rw [link.kept] at places
    exact ⟨places.trans_le link.transmit.places, link.kept, link.transmit.busy, link.commands, link.settled, sizes.headLink,
      sizes.panels, sizes.inserts, sizes.probes, sizes.triggers, sizes.windows, sizes.splices⟩

/-- Settles O58: the lists by the pieces of the rows, the transmit queue and the command buffer by what a row places and
takes. -/
theorem stepKeepsTheCapacities : Obligations.StepKeepsTheCapacities := by
  intro s t h e
  obtain ⟨sizes, link⟩ := buffersOk_iff.mp h
  exact buffersOk_iff.mpr ⟨sizes_closed.step reset_sizes sizes e, link.step e⟩

end Sys2Proof.Machine
end

