-- ==== Sys2Proof/Proofs/ClearLine.lean ====
section
/-! PROOF. CLEAR_LINE (10 R176, 04 R75, 07 R131, 08 R148, 09 R165). -/

namespace Sys2Proof.Machine
open Sys2Proof

/-! ## Entries orphaned (09 R156) -/

theorem orphanSlot_trg {i : Nat} {d : Option Dir} {o : Origin} {e : Trigger} {s : State}
    (h : s.trg.slots[i]? = some (.held o e)) :
    (orphanSlot i d s).trg = { s.trg with slots := s.trg.slots.set i .free } := by
  unfold orphanSlot
  rw [h]
  exact triggerNotice_keeps .trg (by decide)

/-- The slots that meet `c` orphaned, in slot order. -/
def orphanWhere (c : TrigSlot → Bool) (d : Option Dir) (n : Nat) (s : State) : State :=
  (List.range n).foldl (fun s i => if c (s.trg.slots[i]?.getD .free) then orphanSlot i d s else s) s

theorem orphanWhere_succ {c : TrigSlot → Bool} {d : Option Dir} {n : Nat} {s : State} : orphanWhere c d (n + 1) s =
    if c ((orphanWhere c d n s).trg.slots[n]?.getD .free) then orphanSlot n d (orphanWhere c d n s)
    else orphanWhere c d n s := by
  unfold orphanWhere
  rw [List.range_succ, List.foldl_append]
  rfl

section
variable {c : TrigSlot → Bool} {d : Option Dir} (held : ∀ x, c x = true → ∃ o e, x = .held o e)
include held

/-- One slot: it is freed where it meets `c`. -/
theorem orphanStep_trg (i : Nat) (s : State) :
    (if c (s.trg.slots[i]?.getD .free) then orphanSlot i d s else s).trg =
      { s.trg with slots := s.trg.slots.modify i fun x => if c x then .free else x } := by
  cases at_ : s.trg.slots[i]? with
  | none =>
    have none_ : c ((none : Option TrigSlot).getD .free) ≠ true := fun k => by
      obtain ⟨_, _, e⟩ := held _ k
      exact nomatch e
    rw [if_neg none_, List.modify_eq_set_getElem?, at_]
    rfl
  | some x =>
    rw [List.modify_eq_set_getElem?, at_]
    show (if c x = true then _ else _ : State).trg = { s.trg with slots := s.trg.slots.set i (if c x then .free else x) }
    split
    · next hx =>
      obtain ⟨o, e, rfl⟩ := held x hx
      exact orphanSlot_trg at_
    · obtain ⟨lt, rfl⟩ := List.getElem?_eq_some_iff.mp at_
      rw [List.set_getElem_self]

theorem orphanWhere_trg (s : State) :
    (orphanWhere c d s.trg.slots.length s).trg =
      { s.trg with slots := s.trg.slots.map fun x => if c x then .free else x } := by
  have upTo : ∀ n, ∃ slots, (orphanWhere c d n s).trg = { s.trg with slots := slots }
      ∧ ∀ j : Nat, slots[j]? = if j < n then s.trg.slots[j]?.map (fun x => if c x then .free else x) else s.trg.slots[j]? := by
    intro n
    induction n with
    | zero => exact ⟨_, rfl, fun j => (if_neg (Nat.not_lt_zero j)).symm⟩
    | succ n ih =>
      obtain ⟨slots, e, at_⟩ := ih
      refine ⟨slots.modify n fun x => if c x then .free else x, ?_, fun j => ?_⟩
      · rw [orphanWhere_succ, orphanStep_trg held, e]
      · rw [List.getElem?_modify, at_]
        by_cases this : n = j
        · simp [this]
        · have below : j < n + 1 ↔ j < n := by omega
          simp [this, below]
  obtain ⟨slots, e, at_⟩ := upTo s.trg.slots.length
  rw [e, show slots = s.trg.slots.map fun x => if c x then .free else x from ?_]
  refine List.ext_getElem? fun j => ?_
  rw [at_, List.getElem?_map]
  split
  · rfl
  · next beyond => rw [List.getElem?_eq_none (Nat.not_lt.mp beyond)]; rfl

end

/-- The entries CLEAR_LINE orphans are held ones. -/
theorem unresolved_held (x : TrigSlot) (h : x.unresolved = true) : ∃ o e, x = .held o e := by
  cases x with
  | free => exact nomatch h
  | held o e => exact ⟨o, e, rfl⟩

/-- An entry of HOST after CLEAR_LINE (09 R165). -/
theorem cleared_host (e : Trigger) : (if (TrigSlot.held .host e).dropPanel.unresolved then .free
    else (TrigSlot.held .host e).dropPanel) = if e.position = none ∧ e.anchor ≠ none then .free else .held .host e := by
  simp only [TrigSlot.dropPanel, TrigSlot.unresolved, Bool.and_eq_true, Option.isNone_iff_eq_none,
    Option.isSome_iff_ne_none]

/-! ## Withdrawals (07 R131) -/

theorem foldl_withdraw_room {l : List Txn} {s : State} (room : s.head.buf.length + l.length ≤ 8) :
    (l.foldl (fun s t => withdraw t.num t.tag s) s).head.buf = s.head.buf ++ l.map fun t => .withdraw t.num t.tag := by
  induction l generalizing s with
  | nil => exact (List.append_nil _).symm
  | cons t l ih =>
    rw [List.length_cons] at room
    have one := withdraw_room (txn := t.num) (tag := t.tag) (s := s) (by omega)
    have buf : (withdraw t.num t.tag s).head.buf = s.head.buf ++ [.withdraw t.num t.tag] := by rw [one]; rfl
    rw [List.foldl_cons, ih (by rw [buf, List.length_append, List.length_singleton]; omega), buf, List.append_assoc]
    rfl

/-! ## The blocks (10 R176) -/

/-- The state in which CLEAR_LINE empties the queue: the live transactions withdrawn and the references dropped. -/
def emptying (s : State) : State :=
  (s.pq.queue ++ s.pq.slots.filterMap Slot.panel?).foldl (fun s p => dropRef p.profile s)
    ((sortBy (fun t : Txn => (t.num : Int)) s.pq.live).foldl (fun s t => withdraw t.num t.tag s) s)

theorem emptying_keeps (s : State) : Keeps [.head, .flt, .prf] s (emptying s) :=
  keeps_seq (keeps_foldl (f := fun s (t : Txn) => withdraw t.num t.tag s) (fun _ _ => withdraw_keeps) _ s)
    (keeps_foldl (f := fun s (p : Panel) => dropRef p.profile s) (fun _ _ => dropRef_keeps) _ _) (by decide) (by decide)

theorem clearQueue_eq (s : State) : clearQueue s = (emptying s).upPq fun q => { q with
    queue := [], slots := List.replicate 4 .empty, waiting := [], dispatch := .off, lastEnd := s.pp, live := [] } := by
  have withdrawn := keeps_foldl (l := [.head, .flt]) (f := fun s (t : Txn) => withdraw t.num t.tag s) (fun _ _ => withdraw_keeps)
    (sortBy (fun t : Txn => (t.num : Int)) s.pq.live) s
  have pq : ((sortBy (fun t : Txn => (t.num : Int)) s.pq.live).foldl (fun s t => withdraw t.num t.tag s) s).pq = s.pq :=
    withdrawn .pq (by decide)
  have pp : (emptying s).pp = s.pp := congrArg (fun k : Counting => k.chan.paper.count) (emptying_keeps s .cnt (by decide))
  unfold clearQueue
  dsimp only
  rw [pq]
  change (emptying s).upPq _ = _
  rw [← pp]
  rfl

theorem emptying_head {s : State} (room : s.head.buf.length + s.pq.live.length ≤ 8) :
    ∃ l, l.Perm (s.pq.live.map fun x => HeadFrame.withdraw x.num x.tag) ∧ (emptying s).head.buf = s.head.buf ++ l := by
  have perm := sortBy_perm (fun t : Txn => (t.num : Int)) s.pq.live
  refine ⟨_, perm.map _, ?_⟩
  have dropped := fun u : State => keeps_foldl (l := [.prf]) (f := fun s (p : Panel) => dropRef p.profile s)
    (fun _ _ => dropRef_keeps) (s.pq.queue ++ s.pq.slots.filterMap Slot.panel?) u .head (by decide)
  exact (congrArg HeadLink.buf (dropped _)).trans (foldl_withdraw_room (by rw [perm.length_eq]; exact room))

theorem clearTriggers_trg (s : State) :
    (clearTriggers s).trg = { s.trg with
      splices := [], announced := none
      slots := s.trg.slots.map fun x => if x.dropPanel.unresolved then .free else x.dropPanel } := by
  have orphaned := orphanWhere_trg (d := none) unresolved_held
    (s.upTrg fun u => { u with slots := u.slots.map TrigSlot.dropPanel })
  have dropped := fun (l : List Splice) (n : Option Nat) (u : State) =>
    (keeps_seq (n := [.prf]) (keeps_foldl (l := [.prf]) (f := fun s (r : Splice) => dropRef? r.next s)
      (fun _ _ => dropRef?_keeps) l u) (dropRef?_keeps (n := n)) (by decide) (by decide)) .trg (by decide)
  have emptied : (clearTriggers s).trg = { (orphanWhere TrigSlot.unresolved none _
      (s.upTrg fun u => { u with slots := u.slots.map TrigSlot.dropPanel })).trg with splices := [], announced := none } :=
    congrArg (fun u : TrigUnit => { u with splices := [], announced := none }) (dropped _ _ _)
  rw [emptied, orphaned]
  simp [Function.comp_def]

/-- What CLEAR_LINE leaves in the part, block by block. -/
theorem clearLine_trg (s : State) : (clearLine s).trg = { s.trg with
    splices := [], announced := none
    slots := s.trg.slots.map fun x => if x.dropPanel.unresolved then .free else x.dropPanel } := by
  have before : (((clearQueue s).upDose fun d => { d with probes := [], floorFlag := false }).upMrk fun m =>
      { m with state := .unlocked, slip := 0, high := (clearQueue s).pp }).trg = s.trg :=
    clearQueue_keeps (s := s) .trg (by decide)
  have cleared := clearTriggers_trg (((clearQueue s).upDose fun d => { d with probes := [], floorFlag := false }).upMrk fun m =>
      { m with state := .unlocked, slip := 0, high := (clearQueue s).pp })
  rw [before] at cleared
  exact cleared

theorem clearQueue_pp (s : State) : (clearQueue s).pp = s.pp :=
  congrArg (fun k : Counting => k.chan.paper.count) (clearQueue_keeps (s := s) .cnt (by decide))

theorem clearLine_mrk (s : State) : (clearLine s).mrk = { s.mrk with state := .unlocked, slip := 0, high := s.pp } := by
  have mrk : (clearQueue s).mrk = s.mrk := clearQueue_keeps .mrk (by decide)
  refine Eq.trans (b := ({ (clearQueue s).mrk with state := .unlocked, slip := 0, high := (clearQueue s).pp } : Marks)) ?_ ?_
  · exact clearTriggers_keeps .mrk (by decide)
  · rw [mrk, clearQueue_pp]

theorem clearLine_dose (s : State) : (clearLine s).dose = { s.dose with probes := [], floorFlag := false } := by
  have dose : (clearQueue s).dose = s.dose := clearQueue_keeps .dose (by decide)
  refine Eq.trans (b := ({ (clearQueue s).dose with probes := [], floorFlag := false } : Dose)) ?_ ?_
  · exact clearTriggers_keeps .dose (by decide)
  · rw [dose]

/-- The queue and the head link are left by the first block alone. -/
theorem clearLine_queue (s : State) : (clearLine s).pq = (clearQueue s).pq ∧ (clearLine s).head = (clearQueue s).head :=
  ⟨clearTriggers_keeps .pq (by decide), clearTriggers_keeps .head (by decide)⟩

/-! ## The command -/

theorem mayClear_iff (s : State) : s.mayClear = true ↔
    (s.mot.line = .off ∨ s.mot.line = .ready ∨ s.mot.line = .faulted) ∧ s.mot.vref = 0 ∧ s.cnt.chan.paper.speed = 0
      ∧ s.cnt.chan.fabric.speed = 0 ∧ s.cnt.chan.drum.speed = 0 := by
  simp [State.mayClear, and_assoc, or_assoc]

/-- Settles O45, block by block. -/
theorem clearLineEmptiesTheLine : Obligations.ClearLineEmptiesTheLine := by
  intro tag s takes c rest
  have may := mayClear_iff s.acting
  split
  · next clear =>
    refine ⟨clearLine s.acting, answered_of_op (c := c) takes rfl (if_pos (may.mpr clear)), clearLine_keeps,
      (clearLine_runs (b := false)).latch_eq, ?_, fun room => ?_, clearLine_dose _, clearLine_mrk _, ?_⟩
    · rw [(clearLine_queue _).1, clearQueue_eq]
      have pq : (emptying s.acting).pq = s.pq := emptying_keeps s.acting .pq (by decide)
      rw [State.upPq_pq, pq]
      rfl
    · obtain ⟨l, perm, buf⟩ := emptying_head (s := s.acting) room
      refine ⟨l, perm, ?_⟩
      rw [(clearLine_queue _).2, clearQueue_eq]
      exact buf
    · rw [clearLine_trg]
      refine congrArg (fun l => { s.trg with splices := [], announced := none, slots := l })
        (List.map_congr_left fun x _ => ?_)
      cases x with
      | free => rfl
      | held o e =>
        cases o with
        | panel => rfl
        | host => exact cleared_host e
  · next stays => exact refused_of_op (c := c) takes rfl (if_neg (mt may.mp stays))

end Sys2Proof.Machine
end

