-- ==== Sys2Proof/Proofs/DoseTables.lean ====
section
/-! SUPPORT. The dose arithmetic in closed form (04 R59, R60, R69, R72) and the learning update (06 R108, R109). -/

namespace Sys2Proof.Machine
open Sys2Proof

/-! ## Step counts (04 R60, R72) -/

/-- The table F, as natural numbers. -/
def factorTable : List Nat :=
  [65536, 68438, 71468, 74632, 77936, 81386, 84990, 88752,
    92682, 96785, 101070, 105545, 110218, 115098, 120194, 125515]

theorem doseF_eq (r : Int) : doseF r = (factorTable[r.toNat]?.getD 0 : Nat) := by
  show ((factorTable.map Nat.cast)[r.toNat]?).getD 0 = _
  rw [List.getElem?_map]
  cases factorTable[r.toNat]? <;> rfl

/-- The scaling of a step count from -128 on, with one power of two for both signs of its quotient. -/
theorem stepScale_eq {n d k : Int} (h : -128 ≤ k) :
    stepScale n d k = n * (factorTable[(k % 16).toNat]?.getD 0 : Nat) * 2 ^ (k / 16 + 8).toNat / (d * 2 ^ 8) := by
  have quotient : -8 ≤ k / 16 := by omega
  have remainder : k - 16 * (k / 16) = k % 16 := by omega
  unfold stepScale floorDiv
  dsimp only
  rw [remainder, doseF_eq]
  split
  · next up =>
    have exponent : (k / 16 + 8).toNat = (k / 16).toNat + 8 := by omega
    rw [exponent, pow_add, ← mul_assoc, Int.mul_ediv_mul_of_pos_left _ _ (by norm_num)]
  · next down =>
    have exponent : (-(k / 16)).toNat + (k / 16 + 8).toNat = 8 := by omega
    rw [← exponent, pow_add, ← mul_assoc, Int.mul_ediv_mul_of_pos_left _ _ (by positivity)]

theorem increment_eq {k : Int} (h : -128 ≤ k) : increment k =
    50000 * (factorTable[(k % 16).toNat]?.getD 0) * 2 ^ (k / 16 + 8).toNat / (65536 * 2 ^ 8) := by
  unfold increment
  rw [stepScale_eq h]
  norm_cast

/-- The increments of the step counts lie between those of the least and the greatest. -/
theorem increment_range {k : Int} (low : -128 ≤ k) (high : k ≤ 63) : 195 ≤ increment k ∧ increment k ≤ 766082 := by
  have all : ∀ i : Fin 192, 195 ≤ increment ((i : Nat) - 128 : Int) ∧ increment ((i : Nat) - 128 : Int) ≤ 766082 := by
    decide +kernel
  have one := all ⟨(k + 128).toNat, by omega⟩
  have back : (((k + 128).toNat : Nat) : Int) - 128 = k := by omega
  rwa [show (((⟨(k + 128).toNat, by omega⟩ : Fin 192) : Nat) : Int) - 128 = k from back] at one

/-! ## The verdict (04 R69) -/

theorem listMin_eq (l : List Nat) : listMin l = l.min? := by
  cases l <;> rfl

theorem mem_zone_all (z : Zone) : z ∈ Zone.all := by cases z <;> decide

theorem six_toList {α : Type} (x : Six α) : x.toList = Zone.all.map x.get := rfl

theorem mem_minima {m : Six (Option Nat)} {x : Nat} : x ∈ m.toList.filterMap id ↔ ∃ z ∈ Zone.all, x ∈ m.get z := by
  rw [six_toList, List.filterMap_map, List.mem_filterMap]
  rfl

/-- No zone of the set of a folded probe: no minimum. -/
theorem listMin_none {m : Six (Option Nat)} : listMin (m.toList.filterMap id) = none ↔ ∀ z ∈ Zone.all, m.get z = none := by
  rw [listMin_eq, List.min?_eq_none_iff, List.eq_nil_iff_forall_not_mem]
  simp only [mem_minima, not_exists, not_and, Option.eq_none_iff_forall_not_mem]
  exact ⟨fun h z hz x => h x z hz, fun h x z hz => h z hz x⟩

/-- The least minimum lies below a bound where one does. -/
theorem listMin_lt {m : Six (Option Nat)} {least : Nat} (h : listMin (m.toList.filterMap id) = some least) (lo : Int) :
    (least : Int) < lo ↔ ∃ z ∈ Zone.all, ∃ x ∈ m.get z, (x : Int) < lo := by
  rw [listMin_eq, List.min?_eq_some_iff] at h
  obtain ⟨mem, low⟩ := h
  constructor
  · intro lt
    obtain ⟨z, hz, hx⟩ := mem_minima.mp mem
    exact ⟨z, hz, least, hx, lt⟩
  · rintro ⟨z, hz, x, hx, lt⟩
    have := low x (mem_minima.mpr ⟨z, hz, hx⟩)
    omega

/-- The verdict is the first line of its table that applies. -/
theorem verdictOf_eq (p : Panel) (d : DoseFields) (e : Entry) : verdictOf p d e =
    if p.verdict = some .spoiled then .spoiled
    else if d.uncertain = true ∨ (∀ z ∈ Zone.all, d.minima.get z = none) then .uncertain
    else if ∃ z ∈ Zone.all, ∃ m ∈ d.minima.get z, (m : Int) < e.target * (100 - e.allowUnder) / 100 then .underDose
    else if e.target * (100 + e.allowOver) / 100 < (d.maximum.getD 0 : Nat) then .overDose
    else .good := by
  unfold verdictOf floorDiv
  dsimp only
  refine if_congr Iff.rfl rfl ?_
  cases uncertain : d.uncertain with
  | true => rw [if_pos rfl, if_pos (.inl rfl)]
  | false =>
    rw [if_neg (by simp)]
    split
    · next none_ => rw [if_pos (.inr (listMin_none.mp none_))]
    · next least some_ =>
      have present : ¬(false = true ∨ ∀ z ∈ Zone.all, d.minima.get z = none) := fun k => by
        rw [listMin_none.mpr (k.resolve_left (by simp))] at some_
        exact nomatch some_
      rw [if_neg present]
      exact if_congr (listMin_lt some_ _) rfl rfl

/-! ## Learning (06 R108, R109) -/

theorem learn_still {e : Entry} {offer : Six (Option Nat)} (h : e.sigma = 0) : e.learn offer = e := if_pos h

/-- An offer changes the trims and the count of updates alone. -/
theorem learn_keeps (e : Entry) (offer : Six (Option Nat)) :
    { e.learn offer with trims := e.trims, learned := e.learned } = e := by
  unfold Entry.learn
  split <;> rfl

theorem learn_learned {e : Entry} {offer : Six (Option Nat)} (h : e.sigma ≠ 0) :
    (e.learn offer).learned = min 65535 (e.learned + 1) := by
  unfold Entry.learn
  rw [if_neg h]
  rfl

/-- A zone the offer does not name keeps its trim. -/
theorem learn_unnamed {e : Entry} {offer : Six (Option Nat)} {z : Zone} (h : offer.get z = none) :
    (e.learn offer).trims.get z = e.trims.get z := by
  unfold Entry.learn
  split
  · rfl
  · show (Six.zipWith _ offer e.trims).get z = _
    unfold Six.zipWith
    rw [ofZone_get, h]

/-- A zone the offer names takes the trim of R109. -/
theorem learn_named {e : Entry} {offer : Six (Option Nat)} {z : Zone} {d : Nat} (on : e.sigma ≠ 0) (h : offer.get z = some d) :
    (e.learn offer).trims.get z = learnTrim (learnGoal e.sigma (learnDelta e.target d)) e.weight (e.trims.get z) := by
  unfold Entry.learn
  rw [if_neg on]
  show (Six.zipWith _ offer e.trims).get z = _
  unfold Six.zipWith
  rw [ofZone_get, h]

theorem learnTrim_range (goal weight trim : Int) : 870 ≤ learnTrim goal weight trim ∧ learnTrim goal weight trim ≤ 1178 := by
  unfold learnTrim clamp Config.trimLow Config.trimHigh
  omega

/-- An offer leaves trims that are in range in range. -/
theorem learn_range {e : Entry} {offer : Six (Option Nat)} {z : Zone} (h : 870 ≤ e.trims.get z ∧ e.trims.get z ≤ 1178) :
    870 ≤ (e.learn offer).trims.get z ∧ (e.learn offer).trims.get z ≤ 1178 := by
  by_cases on : e.sigma = 0
  · rw [learn_still on]; exact h
  · cases named : offer.get z with
    | none => rw [learn_unnamed named]; exact h
    | some d => rw [learn_named on named]; exact learnTrim_range _ _ _

end Sys2Proof.Machine
end

