-- ==== Sys2Proof/Proofs/DoseSamples.lean ====
section
/-! PROOF. DOSE_SAMPLE (04 R59, R66, R71, R72, R74). -/

namespace Sys2Proof.Machine
open Sys2Proof

/-! ## The zone factors (04 R59, R60) -/

theorem zoneFactor_eq (reading thetaRef thetaStep : Int) (sensor : Sensor) :
    let k := 16 * (reading - thetaRef) / thetaStep
    let f := zoneFactor reading thetaRef thetaStep sensor
    f.k = min 63 k ∧ (f.clamped = true ↔ 63 < k) ∧ (f.uncertain = true ↔ sensor ≠ .normal ∨ 63 < k)
      ∧ f.incr = if k < -128 then 0 else increment (min 63 k) := by
  intro k
  unfold zoneFactor
  dsimp only
  rw [show stepCount reading thetaRef thetaStep = k from rfl]
  by_cases low : k < -128
  · have high : ¬63 < k := by omega
    rw [if_pos low, if_pos low, min_eq_right (Int.not_lt.mp high)]
    simp [high]
  · by_cases high : 63 < k
    · rw [if_neg low, if_pos high, if_neg low, min_eq_left (Int.le_of_lt high)]
      simp [high]
    · rw [if_neg low, if_neg high, if_neg low, min_eq_right (Int.not_lt.mp high)]
      simp [high]

/-! ## The least and the greatest (04 R72) -/

theorem foldl_minCap_some (a : Int) (l : List Int) : l.foldl (fun m x => minCap m (some x)) (some a) = some (l.foldl min a) := by
  induction l generalizing a with
  | nil => rfl
  | cons x l ih => exact ih (min a x)

theorem foldl_minCap (l : List Int) : l.foldl (fun m x => minCap m (some x)) none = l.min? := by
  cases l with
  | nil => rfl
  | cons x l => exact foldl_minCap_some x l

theorem leastK_eq (enables : Six Bool) (f : Six Factor) :
    leastK enables f = ((Zone.all.filter fun z => enables.get z).map fun z => (f.get z).k).min? := by
  rw [← foldl_minCap, List.foldl_map, List.foldl_filter]
  rfl

theorem foldl_maxTarget_some (a : Int) (l : List Int) : l.foldl maxTarget (some a) = some (l.foldl max a) := by
  induction l generalizing a with
  | nil => rfl
  | cons x l ih => exact ih (max a x)

theorem foldl_maxTarget (l : List Int) : l.foldl maxTarget none = l.max? := by
  cases l with
  | nil => rfl
  | cons x l => exact foldl_maxTarget_some x l

theorem greatestTarget_eq (s : State) : s.greatestTarget =
    ((s.pq.queue.filter Panel.holdsCap).map fun p => (s.prf.entry p.profile).target).max? := by
  rw [← foldl_maxTarget, List.foldl_map]
  rfl

theorem holdsCap_eq (p : Panel) : p.holdsCap = (p.dose.map DoseFields.capHeld).getD false := by
  unfold Panel.holdsCap
  cases p.dose <;> rfl

/-- A panel holds the cap from the sample that finds its A within the horizon (04 R71). -/
theorem markCap_eq (p : Panel) (limit : Int) : p.markCap limit = { p with
    dose := p.dose.map fun d =>
      { d with capHeld := d.capHeld || (decide (p.state ≠ .done) && decide (∃ a ∈ p.arrival, a ≤ limit)) } } := by
  obtain ⟨tag, kind, profile, length, mark, state, attempts, xs, txn, gains, printed, reason, markResult, arrival, dose,
    verdict, flags, offered, arrived⟩ := p
  unfold Panel.markCap
  cases dose with
  | none => rfl
  | some d =>
    cases arrival with
    | none => simp
    | some a =>
      by_cases cap : state ≠ .done ∧ a ≤ limit
      · simp [cap]
      · have kept : (decide (state ≠ .done) && decide (∃ x ∈ some a, x ≤ limit)) = false := by simpa using cap
        simp only [Option.map_some, kept, Bool.or_false]
        exact if_neg (by simpa using cap)

/-! ## The blocks of the sample -/

/-- The state in which the floor condition is judged: probes, horizon, held caps and the dose cap are taken (04 R66, R71,
R72). -/
def sampled (s : State) : State :=
  let marked := s.upPq fun q => { q with queue := q.queue.map fun p => p.markCap (s.pp + s.horizonNow) }
  marked.upDose fun d => { d with
    factors := some s.zoneFactors
    probes := d.probes.map fun b =>
      b.sample s.heat.enables s.zoneFactors (s.mot.nip = .closed) (s.mot.vref = 0) s.trg.effects.exclude
    kMin := leastK s.heat.enables s.zoneFactors
    dMax := marked.greatestTarget
    horizon := some s.horizonNow
    vDose := doseCap s.par.vMax s.par.arcLen (leastK s.heat.enables s.zoneFactors) marked.greatestTarget }

theorem doseSample_eq (s : State) : doseSample s = judgeFloor (sampled s) := rfl

theorem belowFloor_iff (s : State) : s.belowFloor = true ↔
    s.mot.line = .running ∧ s.dose.vDose < s.par.vFloor ∧ s.dose.vDose < s.mot.vref := by
  simp [State.belowFloor, and_assoc]

theorem judgeFloor_dose (s : State) : (judgeFloor s).dose = { s.dose with floorFlag := s.belowFloor } := by
  unfold judgeFloor
  dsimp only
  cases s.belowFloor with
  | false => rfl
  | true =>
    rw [if_pos rfl]
    split
    · exact warn_keeps .dose (by decide)
    · rfl

theorem judgeFloor_pq (s : State) : (judgeFloor s).pq = { s.pq with
    queue := s.pq.queue.map fun p =>
      { p with flags := { p.flags with underspeed := p.flags.underspeed || (s.belowFloor && p.inArc) } } } := by
  unfold judgeFloor
  dsimp only
  cases s.belowFloor with
  | false => simp
  | true =>
    rw [if_pos rfl]
    have marked : ∀ p : Panel, (if p.inArc = true then { p with flags := { p.flags with underspeed := true } } else p)
        = { p with flags := { p.flags with underspeed := p.flags.underspeed || (true && p.inArc) } } := fun p => by
      cases p.inArc <;> simp
    simp only [marked]
    split
    · exact warn_keeps .pq (by decide)
    · rfl

theorem judgeFloor_flt (s : State) : (judgeFloor s).flt =
    if s.belowFloor = true ∧ s.dose.floorFlag = false then
      if s.flt.room = true then s.flt.place (.notice s.cnt.clock (.warning (.doseFloor s.dose.vDose s.dose.dMax)))
      else { s.flt with dropped := true }
    else s.flt := by
  unfold judgeFloor
  dsimp only
  cases s.belowFloor with
  | false => rfl
  | true =>
    cases s.dose.floorFlag with
    | true => rfl
    | false =>
      rw [if_pos rfl, if_pos (show (!false) = true from rfl), if_pos ⟨rfl, rfl⟩]
      show (notice _ _).flt = _
      unfold notice
      rw [State.upPq_flt, State.upDose_flt]
      split <;> rfl

/-- A probe at a sample (04 R66). -/
theorem sample_zones (b : Probe) (enables : Six Bool) (f : Six Factor) (closed rest exclude : Bool) (z : Zone) :
    (b.sample enables f closed rest exclude).zones.get z = (b.zones.get z && enables.get z) := ofZone_get _ z

theorem sample_dose (b : Probe) (enables : Six Bool) (f : Six Factor) (closed rest exclude : Bool) (z : Zone) :
    (b.sample enables f closed rest exclude).dose.get z =
      if closed = true ∧ (b.sample enables f closed rest exclude).zones.get z = true
      then min 4294967295 (b.dose.get z + (f.get z).incr) else b.dose.get z := by
  cases closed with
  | false => rfl
  | true =>
    show (Six.ofZone _).get z = _
    rw [ofZone_get]
    exact if_congr (by simp [Probe.sample]) rfl rfl

theorem sample_uncertain (b : Probe) (enables : Six Bool) (f : Six Factor) (closed rest exclude : Bool) :
    (b.sample enables f closed rest exclude).uncertain = true ↔
      b.uncertain = true ∨ ∃ z, (b.sample enables f closed rest exclude).zones.get z = true ∧ (f.get z).uncertain = true := by
  show (b.uncertain || Zone.all.any fun z => _) = true ↔ _
  rw [Bool.or_eq_true, List.any_eq_true]
  refine or_congr Iff.rfl ⟨fun ⟨z, _, h⟩ => ⟨z, (Bool.and_eq_true _ _).mp h⟩, fun ⟨z, h⟩ =>
    ⟨z, mem_zone_all z, (Bool.and_eq_true _ _).mpr h⟩⟩

/-- v_dose with a least step count and a greatest target (04 R72). -/
theorem doseCap_some (vMax arcLen k d : Int) : doseCap vMax arcLen (some k) (some d) =
    if k < -128 then 0 else min vMax
      (arcLen * 1000000 * (factorTable[(k % 16).toNat]?.getD 0 : Nat) * 2 ^ (k / 16 + 8).toNat / (65536 * d * 2 ^ 8)) := by
  unfold doseCap
  dsimp only
  split
  · rfl
  · next low => rw [stepScale_eq (Int.not_lt.mp low)]

/-- The greatest target is that of the panels that hold the cap after the sample. -/
theorem sampled_dMax (s : State) : (sampled s).dose.dMax =
    (((judgeFloor (sampled s)).pq.queue.filter fun p => (p.dose.map DoseFields.capHeld).getD false).map fun p =>
      (s.prf.entry p.profile).target).max? := by
  refine (greatestTarget_eq _).trans ?_
  rw [judgeFloor_pq, show Panel.holdsCap = fun p : Panel => (p.dose.map DoseFields.capHeld).getD false from funext holdsCap_eq,
    List.filter_map, List.map_map]
  rfl

/-- The records after the sample. -/
theorem sampled_queue (s : State) : (sampled s).pq.queue = s.pq.queue.map fun p => { p with
    dose := p.dose.map fun d => { d with
      capHeld := d.capHeld || (decide (p.state ≠ .done)
        && decide (∃ a ∈ p.arrival, a ≤ s.pp + s.par.arcLen + s.mot.vref * s.mot.vref / (2 * s.par.aDn))) } } := by
  have limit : s.pp + s.horizonNow = s.pp + s.par.arcLen + s.mot.vref * s.mot.vref / (2 * s.par.aDn) := (add_assoc ..).symm
  refine List.map_congr_left fun p _ => ?_
  rw [limit]
  exact markCap_eq p _

/-- Settles O26: the sample up to the floor condition, and then what judging that leaves. -/
theorem doseSampleDosesTheProbes : Obligations.DoseSampleDosesTheProbes := by
  intro s
  have dose := judgeFloor_dose (sampled s)
  have pq := judgeFloor_pq (sampled s)
  have below := belowFloor_iff (sampled s)
  have vDose : (judgeFloor (sampled s)).dose.vDose = (sampled s).dose.vDose := by rw [dose]
  have dMax : (judgeFloor (sampled s)).dose.dMax = (sampled s).dose.dMax := by rw [dose]
  have kMin : (judgeFloor (sampled s)).dose.kMin = (sampled s).dose.kMin := by rw [dose]
  have probes : (judgeFloor (sampled s)).dose.probes = (sampled s).dose.probes := by rw [dose]
  have flag : (judgeFloor (sampled s)).dose.floorFlag = (sampled s).belowFloor := by rw [dose]
  refine ⟨judgeFloor (sampled s), s.zoneFactors, rfl, doseSample_keeps, by rw [dose]; rfl, fun z => ?_, ?_, fun i b hb => ?_,
    by rw [dose]; rfl, ?_, ?_, fun none_ => ?_, fun d hd k hk => ?_, ?_, ?_, ?_⟩
  · intro r k
    have factor : s.zoneFactors.get z = zoneFactor r.lastValid s.par.thetaRef s.par.thetaStep r.sensor := six_map_get _ _ z
    rw [factor]
    exact zoneFactor_eq _ _ _ _
  · rw [probes]; exact List.length_map ..
  · refine ⟨b.sample s.heat.enables s.zoneFactors (s.mot.nip = .closed) (s.mot.vref = 0) s.trg.effects.exclude, ?_, rfl, rfl,
      rfl, fun z => ?_, fun z => ?_, ?_, ?_, ?_, sample_uncertain ..⟩
    · rw [probes]
      exact (List.getElem?_map ..).trans (congrArg (Option.map _) hb)
    · rw [sample_zones, enables_get]
    · rw [sample_dose]
      exact if_congr (by rw [decide_eq_true_iff]) rfl rfl
    · simp [Probe.sample]
    · simp [Probe.sample]
    · simp [Probe.sample]
  · rw [kMin]
    refine (leastK_eq _ _).trans ?_
    simp only [enables_get]
  · rw [dMax]; exact sampled_dMax s
  · rw [dMax] at none_
    rw [vDose]
    show doseCap _ _ _ (sampled s).dose.dMax = _
    rw [none_]
    unfold doseCap
    split <;> trivial
  · rw [dMax] at hd
    rw [kMin] at hk
    rw [vDose]
    show doseCap _ _ (sampled s).dose.kMin (sampled s).dose.dMax = _
    rw [hd, hk, doseCap_some]
    rfl
  · rw [flag, vDose]
    exact below
  · rw [pq, sampled_queue, vDose]
    refine congrArg (fun l => { s.pq with queue := l }) ?_
    rw [List.map_map]
    refine List.map_congr_left fun p _ => ?_
    have judged : (sampled s).belowFloor = decide (s.mot.line = .running ∧ (sampled s).dose.vDose < s.par.vFloor
        ∧ (sampled s).dose.vDose < s.mot.vref) := by
      rw [Bool.eq_iff_iff, decide_eq_true_iff]
      exact below
    rw [judged]
    simp [Panel.inArc, Bool.and_assoc]
  · rw [judgeFloor_flt, vDose, dMax]
    exact if_congr (and_congr below Iff.rfl) rfl rfl

end Sys2Proof.Machine
end

