-- ==== Sys2Proof/Proofs/QueuePasses.lean ====
section
/-! SUPPORT. What a count update makes of the records of the queue (`Passes`), with the records of chosen tags followed
through it: nothing is placed before its last step, the test for a decision. -/

namespace Sys2Proof.Machine
open Sys2Proof

/-- What every piece of a count update but a new arrival leaves of a record. -/
structure Panel.Lasts (p p' : Panel) : Prop where
  profile : p'.profile = p.profile
  arrival : p'.arrival = p.arrival
  arrived : p.arrived = true → p'.arrived = true

theorem Panel.Lasts.refl (p : Panel) : p.Lasts p := ⟨rfl, rfl, id⟩

theorem Panel.Lasts.trans {p q r : Panel} (h : p.Lasts q) (k : q.Lasts r) : p.Lasts r :=
  ⟨k.profile.trans h.profile, k.arrival.trans h.arrival, k.arrived ∘ h.arrived⟩

/-- `t` is reached from `s` by pieces of these kinds, which change a record with a tag of `K` in place, and by `ρ` alone. -/
inductive Passes (K : Nat → Bool) (ρ : Panel → Panel → Prop) : State → State → Prop
  | same {s t : State} (queue : t.pq.queue = s.pq.queue) (slots : t.pq.slots = s.pq.slots)
      (waiting : t.pq.waiting = s.pq.waiting) (used : s.flt.used ≤ t.flt.used)
      (frames : ∀ x ∈ s.flt.frames, x ∈ t.flt.frames) (clock : t.cnt.clock = s.cnt.clock) : Passes K ρ s t
  | map {s : State} (g : Panel → Panel) (tag : ∀ p, (g p).tag = p.tag) (lasts : ∀ p : Panel, p.Lasts (g p))
      (kept : (s.pq.queue.map Panel.tag).Nodup → ∀ p ∈ s.pq.queue, K p.tag = true → ρ p (g p)) :
      Passes K ρ s (s.upPq fun q => { q with queue := q.queue.map g })
  | back {s : State} {p p' : Panel} (free : K p.tag = false) (mem : p ∈ s.pq.queue) (tag : p'.tag = p.tag)
      (lasts : p.Lasts p') :
      Passes K ρ s (s.upPq fun q => { q with queue := insertBeforeQueued p' (without p.tag q.queue) })
  | wait {s : State} (tag : Nat) (free : K tag = false) :
      Passes K ρ s (s.upPq fun q => { q with waiting := q.waiting ++ [tag] })
  | flush {s : State} (d : Option Dir) : Passes K ρ s (flushReport d s)
  | trans {s t u : State} (h : Passes K ρ s t) (k : Passes K ρ t u) : Passes K ρ s u

variable {K : Nat → Bool} {ρ : Panel → Panel → Prop}

theorem passes_refl {s : State} : Passes K ρ s s := .same rfl rfl rfl (Nat.le_refl _) (fun _ => id) rfl

/-- A run of pieces outside the panel queue. -/
theorem passes_of_runs {b : Bool} {l : List Block} {s t : State} (r : Runs b s t) (k : Keeps l s t) (h : Block.pq ∉ l) :
    Passes K ρ s t := by
  have pq : t.pq = s.pq := k .pq h
  exact .same (by rw [pq]) (by rw [pq]) (by rw [pq]) r.tellsOn.used r.tellsOn.frames r.tellsOn.clock

/-- A change outside the panel queue, the transmit queue and the counting unit. -/
theorem passes_of_keeps {l : List Block} {s t : State} (k : Keeps l s t) (h : Block.pq ∉ l)
    (h' : Block.flt ∉ l ∧ Block.cnt ∉ l) : Passes K ρ s t := by
  have pq : t.pq = s.pq := k .pq h
  have flt : t.flt = s.flt := k .flt h'.1
  exact .same (by rw [pq]) (by rw [pq]) (by rw [pq]) (by rw [flt]) (by rw [flt]; exact fun _ => id)
    (congrArg Counting.clock (k .cnt h'.2))

theorem passes_ite {c : Prop} [Decidable c] {s t u : State} (h : Passes K ρ s t) (k : Passes K ρ s u) :
    Passes K ρ s (if c then t else u) := by
  split <;> assumption

theorem passes_foldl {α : Type} {f : State → α → State} (xs : List α) (h : ∀ s, ∀ x ∈ xs, Passes K ρ s (f s x)) (s : State) :
    Passes K ρ s (xs.foldl f s) := by
  induction xs generalizing s with
  | nil => exact passes_refl
  | cons x xs ih =>
    exact (h s x List.mem_cons_self).trans (ih (fun s y hy => h s y (List.mem_cons_of_mem _ hy)) _)

/-- One record changed in place. -/
theorem passes_updPanel {tag : Nat} {f : Panel → Panel} {s : State} (keep : ∀ p, (f p).tag = p.tag)
    (lasts : ∀ p : Panel, p.Lasts (f p)) (kept : K tag = true → ∀ p, ρ p (f p)) (refl : ∀ p, ρ p p) :
    Passes K ρ s (updPanel tag f s) := by
  refine .map _ (fun p => ?_) (fun p => ?_) fun _ p _ hp => ?_
  · split
    · exact keep p
    · rfl
  · split
    · exact lasts p
    · exact .refl p
  · split
    · next e => exact kept (e ▸ hp) p
    · exact refl p

/-! ## A report placed (07 R129) -/

/-- The records of the queue after the report that waits longest has been placed or not. -/
inductive Flushed (s t : State) : Prop
  | stays (e : t = s)
  | retired (tag : Nat) (rest : List Nat) (p : Panel) (waiting : s.pq.waiting = tag :: rest) (room : s.flt.room = true)
      (record : s.panel? tag = some p) (same : p.tag = tag)
      (pq : t.pq = { s.pq with
        queue := without tag s.pq.queue, slots := s.pq.slots.map (Slot.emptied tag), waiting := rest })
      (report : .notice s.cnt.clock (.panelReport p) ∈ t.flt.frames)
  | dropped (tag : Nat) (rest : List Nat) (waiting : s.pq.waiting = tag :: rest) (none_ : s.panel? tag = none)
      (pq : t.pq = { s.pq with waiting := rest })

theorem removePanel_pq (p : Panel) (d : Option Dir) (s : State) : (removePanel p d s).pq = { s.pq with
    queue := without p.tag s.pq.queue, slots := s.pq.slots.map (Slot.emptied p.tag) } := by
  unfold removePanel
  dsimp only
  split
  · exact orphanPanel_keeps .pq (by decide)
  · rfl

theorem flushReport_flushed (d : Option Dir) (s : State) : Flushed s (flushReport d s) := by
  cases waiting : s.pq.waiting with
  | nil =>
    refine .stays ?_
    unfold flushReport
    rw [waiting]
  | cons tag rest =>
    cases room : s.flt.room with
    | false =>
      refine .stays ?_
      unfold flushReport
      rw [waiting, room]
      rfl
    | true =>
      cases record : s.panel? tag with
      | none =>
        refine .dropped tag rest waiting record ?_
        unfold flushReport
        rw [waiting, room]
        dsimp only
        rw [record]
        rfl
      | some p =>
        have same : p.tag = tag := by simpa using List.find?_some record
        have e : flushReport d s = removePanel p d ((s.upPq fun q => { q with waiting := rest }).upFlt fun f =>
            f.place (.notice s.cnt.clock (.panelReport p))) := by
          unfold flushReport
          rw [waiting, room]
          dsimp only
          rw [record]
          rfl
        refine .retired tag rest p waiting room record same ?_ ?_
        · rw [e, removePanel_pq, same]
          rfl
        · rw [e]
          exact (removePanel_runs (b := false)).tellsOn.frames _ (self_mem_place_frames _ _)

/-! ## What passes -/

theorem passes_nodup {s t : State} (h : Passes K ρ s t) (once : (s.pq.queue.map Panel.tag).Nodup) :
    (t.pq.queue.map Panel.tag).Nodup := by
  induction h with
  | same queue => rw [queue]; exact once
  | map g tag =>
    show (List.map _ (List.map g _)).Nodup
    rw [List.map_map, show Panel.tag ∘ g = Panel.tag from funext tag]
    exact once
  | @back s p p' _ mem tag =>
    have perm : ((insertBeforeQueued p' (without p.tag s.pq.queue)).map Panel.tag).Perm (s.pq.queue.map Panel.tag) :=
      ((insertBeforeQueued_perm p' _).map _).trans (by
        rw [List.map_cons, tag]
        exact ((perm_without once mem).map Panel.tag).symm)
    exact perm.nodup_iff.mpr once
  | wait => exact once
  | @flush s d =>
    cases flushReport_flushed d s with
    | stays e => rw [e]; exact once
    | retired tag _ _ _ _ _ _ pq => rw [pq]; exact ((without_sublist tag _).map _).nodup once
    | dropped _ _ _ _ pq => rw [pq]; exact once
  | trans _ _ ih ih' => exact ih' (ih once)

/-- A report of a tag of `K` waits only while no place is free. -/
def Quiet (K : Nat → Bool) (s : State) : Prop := ∀ tag ∈ s.pq.waiting, K tag = true → 32 ≤ s.flt.used

theorem flushReport_used (d : Option Dir) (s : State) : s.flt.used ≤ (flushReport d s).flt.used :=
  (flushReport_runs (b := false)).tellsOn.used

theorem passes_quiet {s t : State} (h : Passes K ρ s t) (quiet : Quiet K s) : Quiet K t := by
  induction h with
  | same _ _ waiting used => exact fun tag ht hk => (quiet tag (waiting ▸ ht) hk).trans used
  | map | back => exact quiet
  | wait tag free =>
    intro tag' ht hk
    rcases List.mem_append.mp ht with ht | ht
    · exact quiet tag' ht hk
    · rw [List.mem_singleton.mp ht, free] at hk
      exact nomatch hk
  | @flush s d =>
    have waits : ∀ tag ∈ (flushReport d s).pq.waiting, tag ∈ s.pq.waiting := fun tag ht => by
      cases flushReport_flushed d s with
      | stays e => rwa [e] at ht
      | retired _ _ _ waiting _ _ _ pq => rw [waiting]; rw [pq] at ht; exact List.mem_cons_of_mem _ ht
      | dropped _ _ waiting _ pq => rw [waiting]; rw [pq] at ht; exact List.mem_cons_of_mem _ ht
    exact fun tag ht hk => (quiet tag (waits tag ht) hk).trans (flushReport_used d s)
  | trans _ _ ih ih' => exact ih' (ih quiet)

/-- The records of the tags of `K`, in their order. -/
def chosen (K : Nat → Bool) (l : List Panel) : List Panel := l.filter fun p => K p.tag

theorem chosen_map {g : Panel → Panel} (tag : ∀ p, (g p).tag = p.tag) (l : List Panel) :
    chosen K (l.map g) = (chosen K l).map g := by
  unfold chosen
  rw [List.filter_map]
  exact congrArg (List.map g) (List.filter_congr fun p _ => by rw [Function.comp_apply, tag])

theorem chosen_without {tag : Nat} (free : K tag = false) (l : List Panel) : chosen K (without tag l) = chosen K l := by
  unfold chosen without
  rw [List.filter_filter]
  refine List.filter_congr fun p _ => ?_
  by_cases e : p.tag = tag
  · rw [e, free]; rfl
  · simp [e]

theorem chosen_insert {p : Panel} (free : K p.tag = false) (l : List Panel) :
    chosen K (insertBeforeQueued p l) = chosen K l := by
  obtain ⟨before, after, e, e', -⟩ := insertBeforeQueued_split p l
  unfold chosen
  rw [e', e, List.filter_append, List.filter_append, List.filter_cons_of_neg (by simp [free])]

theorem forall₂_trans {l m n : List Panel} (trans : ∀ {p q r}, ρ p q → ρ q r → ρ p r) (h : List.Forall₂ ρ l m)
    (k : List.Forall₂ ρ m n) : List.Forall₂ ρ l n := by
  induction h generalizing n with
  | nil => exact k
  | cons one _ ih =>
    cases k with
    | cons two rest => exact .cons (trans one two) (ih rest)

/-- The records of the tags of `K` stay, in their order, each changed by `ρ` alone. -/
theorem passes_chosen {s t : State} (h : Passes K ρ s t) (refl : ∀ p, ρ p p) (trans : ∀ {p q r}, ρ p q → ρ q r → ρ p r)
    (once : (s.pq.queue.map Panel.tag).Nodup) (quiet : Quiet K s) :
    List.Forall₂ ρ (chosen K s.pq.queue) (chosen K t.pq.queue) := by
  have all : ∀ l : List Panel, List.Forall₂ ρ l l := fun l => by
    induction l with
    | nil => exact .nil
    | cons p l ih => exact .cons (refl p) ih
  induction h with
  | same queue => rw [queue]; exact all _
  | @map s g tag _ kept =>
    show List.Forall₂ ρ _ (chosen K (s.pq.queue.map g))
    rw [chosen_map tag, List.forall₂_map_right_iff, List.forall₂_same]
    intro p hp
    obtain ⟨mem, hk⟩ := List.mem_filter.mp hp
    exact kept once p mem hk
  | @back s p p' free _ tag =>
    show List.Forall₂ ρ _ (chosen K (insertBeforeQueued p' (without p.tag s.pq.queue)))
    rw [chosen_insert (tag ▸ free), chosen_without free]
    exact all _
  | wait => exact all _
  | @flush s d =>
    cases flushReport_flushed d s with
    | stays e => rw [e]; exact all _
    | retired tag rest p waiting room _ _ pq =>
      have free : K tag = false := by
        by_contra k
        have := quiet tag (waiting ▸ List.mem_cons_self) (by simpa using k)
        have := (room_iff _).mp room
        omega
      rw [pq]
      show List.Forall₂ ρ _ (chosen K (without tag s.pq.queue))
      rw [chosen_without free]
      exact all _
    | dropped _ _ _ _ pq => rw [pq]; exact all _
  | trans h k ih ih' =>
    have rel := ih once quiet
    have rel' := ih' (passes_nodup h once) (passes_quiet h quiet)
    exact forall₂_trans trans rel rel'

/-- Every record of the queue comes from one of its tag, that of a tag of `K` by `ρ`. -/
theorem passes_from {s t : State} (h : Passes K ρ s t) (refl : ∀ p, ρ p p) (trans : ∀ {p q r}, ρ p q → ρ q r → ρ p r)
    (once : (s.pq.queue.map Panel.tag).Nodup) :
    ∀ p' ∈ t.pq.queue, ∃ p ∈ s.pq.queue, p'.tag = p.tag ∧ p.Lasts p' ∧ (K p.tag = true → ρ p p') := by
  have same : ∀ l : List Panel, ∀ p' ∈ l, ∃ p ∈ l, p'.tag = p.tag ∧ p.Lasts p' ∧ (K p.tag = true → ρ p p') :=
    fun l p hp => ⟨p, hp, rfl, .refl p, fun _ => refl p⟩
  induction h with
  | same queue => rw [queue]; exact same _
  | map g tag lasts kept =>
    intro p' hp'
    obtain ⟨p, hp, rfl⟩ := List.mem_map.mp hp'
    exact ⟨p, hp, tag p, lasts p, kept once p hp⟩
  | @back s p p' free mem tag lasts =>
    intro q hq
    rcases List.mem_cons.mp ((insertBeforeQueued_perm _ _).mem_iff.mp hq) with rfl | hq
    · exact ⟨p, mem, tag, lasts, fun chosen => Bool.noConfusion (free.symm.trans chosen)⟩
    · exact same _ q (mem_without.mp hq).1
  | wait => exact same _
  | @flush s d =>
    intro p hp
    refine same _ p ?_
    cases flushReport_flushed d s with
    | stays e => rwa [e] at hp
    | retired _ _ _ _ _ _ _ pq => rw [pq] at hp; exact (mem_without.mp hp).1
    | dropped _ _ _ _ pq => rwa [pq] at hp
  | trans h _ ih ih' =>
    intro p hp
    obtain ⟨q, hq, tag, lasts, rel⟩ := ih' (passes_nodup h once) p hp
    obtain ⟨r, hr, tag', lasts', rel'⟩ := ih once q hq
    exact ⟨r, hr, tag.trans tag', lasts'.trans lasts, fun chosen => trans (rel' chosen) (rel (tag' ▸ chosen))⟩

/-- No insert is armed. -/
theorem passes_armed {s t : State} (h : Passes K ρ s t) : ∀ p, Slot.armed p ∈ t.pq.slots → Slot.armed p ∈ s.pq.slots := by
  induction h with
  | same _ slots => rw [slots]; exact fun _ => id
  | map | back | wait => exact fun _ => id
  | @flush s d =>
    intro p hp
    cases flushReport_flushed d s with
    | stays e => rwa [e] at hp
    | retired tag _ _ _ _ _ _ pq =>
      rw [pq] at hp
      obtain ⟨x, hx, e⟩ := List.mem_map.mp hp
      cases x with
      | armed q => exact e ▸ hx
      | empty => exact nomatch e
      | cancelled q => unfold Slot.emptied at e; dsimp only at e; split at e <;> exact nomatch e
    | dropped _ _ _ _ pq => rwa [pq] at hp
  | trans _ _ ih ih' => exact fun p hp => ih p (ih' p hp)

end Sys2Proof.Machine
end

