-- ==== Sys2Proof/Proofs/UpdatePasses.lean ====
section
/-! SUPPORT. What the operations of a count update make of the records of the queue. -/

namespace Sys2Proof.Machine
open Sys2Proof

variable {K : Nat → Bool} {ρ : Panel → Panel → Prop}

/-- The state of a panel at the end of its print, or not at it (07 R125, R126). -/
def EndsTo (old new : PanelState) : Prop := new = old ∨ new = .spoiled ∨ new = .inArc

/-- The record of a panel whose print has ended, or not (07 R125, R126). -/
def Panel.EndsPrint (p p' : Panel) : Prop := ∃ state verdict printed reason txn reject, EndsTo p.state state ∧ p' = { p with
  state := state, verdict := verdict, printed := printed, reason := reason, txn := txn
  flags := { p.flags with rejectUnmarked := reject } }

theorem Panel.EndsPrint.refl (p : Panel) : p.EndsPrint p :=
  ⟨p.state, p.verdict, p.printed, p.reason, p.txn, p.flags.rejectUnmarked, .inl rfl, rfl⟩

theorem EndsTo.trans {x y z : PanelState} (h : EndsTo x y) (k : EndsTo y z) : EndsTo x z :=
  k.elim (fun e => e ▸ h) .inr

theorem Panel.EndsPrint.trans {p q r : Panel} (h : p.EndsPrint q) (k : q.EndsPrint r) : p.EndsPrint r := by
  obtain ⟨_, _, _, _, _, _, ends, rfl⟩ := h
  obtain ⟨state, verdict, printed, reason, txn, reject, ends', rfl⟩ := k
  exact ⟨state, verdict, printed, reason, txn, reject, ends.trans ends', rfl⟩

theorem Panel.EndsPrint.dose {p p' : Panel} (h : p.EndsPrint p') : p'.dose = p.dose := by
  obtain ⟨_, _, _, _, _, _, -, rfl⟩ := h
  rfl

/-- The state of a panel at its arrival, or not at it (08 R145). -/
def ArrivesTo (old new : PanelState) : Prop := new = old ∨ new = .inArc ∧ (old = .printed ∨ old = .spoiled)

theorem arrivesTo (p : Panel) : ArrivesTo p.state (if p.state = .printed || p.state = .spoiled then .inArc else p.state) := by
  split
  · next from_ => exact .inr ⟨rfl, by simpa using from_⟩
  · exact .inl rfl

/-- The record of a panel that has arrived, or not (08 R145). -/
def Panel.Arrives (p p' : Panel) : Prop := ∃ state mismatch spliced reject, ∃ arrived,
  (p.arrived = true → arrived = true) ∧ ArrivesTo p.state state ∧ p' = { p with
    state := state, arrived := arrived
    flags := { p.flags with fabricMismatch := mismatch, spliceAffected := spliced, rejectUnmarked := reject } }

theorem Panel.Arrives.refl (p : Panel) : p.Arrives p :=
  ⟨p.state, p.flags.fabricMismatch, p.flags.spliceAffected, p.flags.rejectUnmarked, p.arrived, id, .inl rfl, rfl⟩

theorem ArrivesTo.trans {x y z : PanelState} (h : ArrivesTo x y) (k : ArrivesTo y z) : ArrivesTo x z := by
  rcases h with rfl | ⟨rfl, from_⟩
  · exact k
  · rcases k with rfl | ⟨-, h | h⟩
    · exact .inr ⟨rfl, from_⟩
    · exact nomatch h
    · exact nomatch h

theorem Panel.Arrives.trans {p q r : Panel} (h : p.Arrives q) (k : q.Arrives r) : p.Arrives r := by
  obtain ⟨_, _, _, _, arrived, old, turns, rfl⟩ := h
  obtain ⟨state, mismatch, spliced, reject, arrived', new, turns', rfl⟩ := k
  exact ⟨state, mismatch, spliced, reject, arrived', new ∘ old, turns.trans turns', rfl⟩

/-- A DONE panel stays DONE at its arrival. -/
theorem Panel.Arrives.done {p p' : Panel} (h : p.Arrives p') (done : p.state = .done) : p'.state = .done := by
  obtain ⟨_, _, _, _, _, _, turns | ⟨-, from_ | from_⟩, rfl⟩ := h
  · exact turns.trans done
  · exact absurd (done.symm.trans from_) (by simp)
  · exact absurd (done.symm.trans from_) (by simp)

/-! ## Refusals (07 R120 to R122) -/

theorem withdraw_passes {txn tag : Nat} {s : State} : Passes K ρ s (withdraw txn tag s) :=
  passes_of_runs (withdraw_runs (b := false)) withdraw_keeps (by decide)

theorem warn_passes {w : Warning} {s : State} : Passes K ρ s (warn w s) :=
  passes_of_runs (warn_runs (b := false)) warn_keeps (by decide)

theorem dropLive_passes {l : List Txn} {s : State} : Passes K ρ s (s.upPq fun q => { q with live := l }) :=
  .same rfl rfl rfl (Nat.le_refl _) (fun _ => id) rfl

theorem becomeDone_passes {tag : Nat} {d : Option Dir} {s : State} (free : K tag = false) :
    Passes K ρ s (becomeDone tag d s) := (Passes.wait tag free).trans (.flush d)

theorem refusal_passes {num : Nat} {p : Panel} {counted : Option EngineReason} {d : Option Dir} {s : State}
    (mem : p ∈ s.pq.queue) (free : K p.tag = false) : Passes K ρ s (refusal num p counted d s) := by
  have back : ∀ {live : List Txn} (p' : Panel), p'.tag = p.tag → p.Lasts p' → Passes K ρ s (s.upPq fun q =>
      { q with
        queue := insertBeforeQueued p' (without p.tag s.pq.queue), live := live
        lastEnd := endOfPlaced (without p.tag s.pq.queue) s.pp }) := fun _ tag lasts =>
    .trans (.back free mem tag lasts) (.same rfl rfl rfl (Nat.le_refl _) (fun _ => id) rfl)
  unfold refusal
  dsimp only
  split
  · refine .trans (back _ ?_ ?_) (becomeDone_passes free)
    exacts [rfl, ⟨rfl, rfl, id⟩]
  · refine back _ ?_ ?_
    exacts [rfl, ⟨rfl, rfl, id⟩]

theorem startingDeadline_passes {t : Txn} {d : Option Dir} {s : State} (free : K t.tag = false) :
    Passes K ρ s (startingDeadline t d s) := by
  unfold startingDeadline
  split
  · next p hp =>
    obtain ⟨mem, tag⟩ := find_mem_tag hp
    exact withdraw_passes.trans (refusal_passes (by rw [withdraw_pq]; exact mem) (tag ▸ free))
  · exact dropLive_passes.trans withdraw_passes

/-- A transaction that awaits its answer is none of a chosen panel. -/
def FreeStarts (K : Nat → Bool) (s : State) : Prop := ∀ t ∈ s.pq.live, t.phase = .awaitAccept → K t.tag = false

theorem withdrawStarting_passes {s : State} (free : FreeStarts K s) : Passes K ρ s (withdrawStarting s) := by
  unfold withdrawStarting
  split
  · exact passes_refl
  · next t found =>
    have tag := free t (List.mem_of_find?_eq_some found) (by simpa using List.find?_some found)
    split
    · next p hp =>
      obtain ⟨mem, same⟩ := find_mem_tag hp
      exact withdraw_passes.trans (refusal_passes (by rw [withdraw_pq]; exact mem) (same ▸ tag))
    · exact dropLive_passes.trans withdraw_passes

theorem raise_passes {c : Cause} {i : Option Nat} {s : State} (free : FreeStarts K s) : Passes K ρ s (raise c i s) := by
  have taken : ∀ {u : State}, Passes K ρ u (u.upFlt fun f => f.take (s.recordOf c i)) :=
    passes_of_runs (.latch _ rfl) upFlt_keeps (by decide)
  have suspended : ∀ {u : State}, Passes K ρ u (suspendForFault u) := passes_of_keeps upMot_keeps (by decide) (by decide)
  have moved : ∀ {u : State} {new : LineState} {e : LineEvent}, Passes K ρ u (setLine new e u) :=
    passes_of_runs (.line (faults := false) _ _) setLine_keeps (by decide)
  have noticed : ∀ {u : State} {n : Notice}, Passes K ρ u (notice n u) :=
    passes_of_runs (.notice (faults := false) _) notice_keeps (by decide)
  rw [raise_eq]
  refine .trans (.trans (t := suspendForFault (s.upFlt fun f => f.take (s.recordOf c i))) (taken.trans suspended) ?_) noticed
  rcases faultMotion_cases (s.upFlt fun f => f.take (s.recordOf c i)) with ⟨e, -⟩ | ⟨e, -⟩ | ⟨e, -⟩ <;> rw [e]
  · have stopped : Keeps [.mot, .flt] (suspendForFault (s.upFlt fun f => f.take (s.recordOf c i))) (nipOpen ((setLine .halting
        .fault (suspendForFault (s.upFlt fun f => f.take (s.recordOf c i)))).upMot fun m =>
          { m with target := 0, hold := .stopped })) :=
      keeps_then (keeps_seq setLine_keeps upMot_keeps (by decide) (by decide)) nipOpen_keeps (by decide)
    refine .trans (passes_of_runs (b := false) (.trans (.line _ _) (.trans (runs_upMot rfl) nipOpen_runs)) stopped (by decide))
      (withdrawStarting_passes ?_)
    unfold FreeStarts
    rw [show PanelQueue.live (State.pq _) = s.pq.live from congrArg PanelQueue.live (stopped .pq (by decide))]
    exact free
  · exact moved
  · exact passes_refl

/-! ## Ends of prints, and arrivals (07 R125 to R127, 08 R145) -/

theorem rejectTrigger_passes {tag : Nat} {a : Int} {d : Option Dir} {s : State} (refl : ∀ p, ρ p p)
    (marks : K tag = true → ∀ p : Panel, ρ p { p with flags := { p.flags with rejectUnmarked := true } }) :
    Passes K ρ s (rejectTrigger tag a d s) := by
  unfold rejectTrigger
  split
  · exact .trans (passes_of_keeps setTrigSlot_keeps (by decide) (by decide))
      (passes_of_runs (resolveSlot_runs (b := false)) resolveSlot_keeps (by decide))
  · refine .trans (passes_updPanel ?_ ?_ marks refl) warn_passes
    exacts [fun _ => rfl, fun _ => ⟨rfl, rfl, id⟩]

theorem afterPrint_passes {tag : Nat} {d : Option Dir} {s : State} (refl : ∀ p, ρ p p)
    (ends : K tag = true → ∀ p p' : Panel, p.EndsPrint p' → ρ p p') : Passes K ρ s (afterPrint tag d s) := by
  have inArc : Passes K ρ s (updPanel tag (fun p => { p with state := .inArc }) s) :=
    passes_updPanel (fun _ => rfl) (fun _ => ⟨rfl, rfl, id⟩)
      (fun h p => ends h p _ ⟨.inArc, p.verdict, p.printed, p.reason, p.txn, p.flags.rejectUnmarked, .inr (.inr rfl), rfl⟩) refl
  have reject : ∀ {u : State} {a : Int}, Passes K ρ u (rejectTrigger tag a d u) := rejectTrigger_passes refl
    fun h p => ends h p _ ⟨p.state, p.verdict, p.printed, p.reason, p.txn, true, .inl rfl, rfl⟩
  unfold afterPrint
  split
  · exact passes_ite (passes_ite (inArc.trans reject) inArc) passes_refl
  · exact passes_refl

theorem doneDeadline_passes {t : Txn} {d : Option Dir} {s : State} (refl : ∀ p, ρ p p)
    (ends : K t.tag = true → ∀ p p' : Panel, p.EndsPrint p' → ρ p p') : Passes K ρ s (doneDeadline t d s) := by
  refine .trans (dropLive_passes.trans withdraw_passes) (.trans (passes_updPanel ?_ ?_ (fun h p => ends h p _ ?_) refl)
    (warn_passes.trans (afterPrint_passes refl ends)))
  exacts [fun _ => rfl, fun _ => ⟨rfl, rfl, id⟩,
    ⟨.spoiled, some .spoiled, some .unknown, some .timeout, none, p.flags.rejectUnmarked, .inr (.inl rfl), rfl⟩]

theorem deadlineAt_passes {new : Int} {t : Txn} {s : State} (refl : ∀ p, ρ p p)
    (starts : t.phase = .awaitAccept → K t.tag = false)
    (ends : t.phase = .printing → K t.tag = true → ∀ p p' : Panel, p.EndsPrint p' → ρ p p') :
    Passes K ρ s (deadlineAt new s t) := by
  unfold deadlineAt
  split
  · cases phase : t.phase with
    | awaitAccept => exact passes_ite (startingDeadline_passes (starts phase)) passes_refl
    | printing => exact passes_ite (doneDeadline_passes refl (ends phase)) passes_refl
  · exact passes_refl

theorem fabricCheck_passes {p : Panel} {s : State} (refl : ∀ p, ρ p p)
    (arrives : K p.tag = true → ∀ p p' : Panel, p.Arrives p' → ρ p p') : Passes K ρ s (fabricCheck p s) := by
  refine passes_ite passes_refl (.trans (passes_updPanel ?_ ?_ (fun h p => arrives h p _ ?_) refl) warn_passes)
  exacts [fun _ => rfl, fun _ => ⟨rfl, rfl, id⟩,
    ⟨p.state, true, p.flags.spliceAffected, p.flags.rejectUnmarked, p.arrived, id, .inl rfl, rfl⟩]

theorem arrive_passes {tag : Nat} {d : Option Dir} {s : State} (refl : ∀ p, ρ p p)
    (arrives : K tag = true → ∀ p p' : Panel, p.Arrives p' → ρ p p') : Passes K ρ s (arrive tag d s) := by
  have came : ∀ {u : State}, Passes K ρ u (updPanel tag (fun p =>
      { p with
        arrived := true
        flags := { p.flags with spliceAffected := p.flags.spliceAffected || u.trg.spliceAtNip }
        state := if p.state = .printed || p.state = .spoiled then .inArc else p.state }) u) :=
    passes_updPanel (fun _ => rfl) (fun _ => ⟨rfl, rfl, fun _ => rfl⟩)
      (fun h p => arrives h p _ ⟨_, p.flags.fabricMismatch, _, p.flags.rejectUnmarked, true, fun _ => rfl, arrivesTo p, rfl⟩) refl
  have reject : ∀ {u : State} {a : Int}, Passes K ρ u (rejectTrigger tag a d u) := rejectTrigger_passes refl
    fun h p => arrives h p _ ⟨p.state, p.flags.fabricMismatch, p.flags.spliceAffected, true, p.arrived, id, .inl rfl, rfl⟩
  unfold arrive
  split
  · next p hp =>
    have checked : Passes K ρ s (fabricCheck p s) := fabricCheck_passes refl ((find_mem_tag hp).2 ▸ arrives)
    exact passes_ite ((checked.trans came).trans reject) (checked.trans came)
  · exact passes_refl

/-! ## Probes and verdicts (04 R65 to R70) -/

/-- The record of a panel with probe points handled and probes folded, or not (04 R65, R67). -/
def Panel.Dosed (p p' : Panel) : Prop := ∃ dose stopped opened excluded sparse, (p.dose = none → dose = none) ∧ p' = { p with
  dose := dose
  flags := { p.flags with stopAffected := stopped, nipOpen := opened, excluded := excluded, sparse := sparse } }

theorem Panel.Dosed.refl (p : Panel) : p.Dosed p :=
  ⟨p.dose, p.flags.stopAffected, p.flags.nipOpen, p.flags.excluded, p.flags.sparse, id, rfl⟩

theorem Panel.Dosed.trans {p q r : Panel} (h : p.Dosed q) (k : q.Dosed r) : p.Dosed r := by
  obtain ⟨_, _, _, _, _, none, rfl⟩ := h
  obtain ⟨dose, stopped, opened, excluded, sparse, none', rfl⟩ := k
  exact ⟨dose, stopped, opened, excluded, sparse, none' ∘ none, rfl⟩

theorem handlePoint_passes {pos : Int} {s : State} (refl : ∀ p, ρ p p)
    (doses : ∀ p p' : Panel, K p.tag = true → p.Dosed p' → ρ p p') :
    Passes K ρ s (handlePoint pos s) := by
  have kept : ∀ p : Panel, p.handle pos s.par.spacing = { p with dose := (p.handle pos s.par.spacing).dose } := fun p => by
    unfold Panel.handle
    split <;> rfl
  have undosed : ∀ p : Panel, p.dose = none → (p.handle pos s.par.spacing).dose = none := fun p e => by
    unfold Panel.handle
    rw [e]
    exact e
  have handled : ∀ (full : Bool), Passes K ρ s (s.upPq fun q =>
      { q with queue := q.queue.map fun p =>
          if p.pointIn (pos - 1) pos = some pos then
            let p := p.handle pos s.par.spacing
            { p with flags := { p.flags with sparse := p.flags.sparse || full } }
          else p }) := fun full => by
    refine .map _ (fun p => ?_) (fun p => ?_) fun _ p _ h => ?_
    · split
      · dsimp only; rw [kept]
      · rfl
    · split
      · refine ⟨?_, ?_, ?_⟩ <;> dsimp only <;> rw [kept]
        exact id
      · exact .refl p
    · split
      · dsimp only; rw [kept]; exact doses p _ h ⟨_, p.flags.stopAffected, p.flags.nipOpen, p.flags.excluded, _, undosed p, rfl⟩
      · exact refl p
  unfold handlePoint
  dsimp only
  split
  · exact handled _
  · exact (handled _).trans (passes_of_keeps upDose_keeps (by decide) (by decide))

theorem createProbes_passes {fuel : Nat} {old new : Int} {s : State} (refl : ∀ p, ρ p p)
    (doses : ∀ p p' : Panel, K p.tag = true → p.Dosed p' → ρ p p') :
    Passes K ρ s (createProbes fuel old new s) := by
  induction fuel generalizing s with
  | zero => exact passes_refl
  | succ fuel ih =>
    unfold createProbes
    split
    · exact (handlePoint_passes refl doses).trans ih
    · exact passes_refl

theorem exitProbes_passes {new : Int} {s : State} (refl : ∀ p, ρ p p)
    (doses : ∀ p p' : Panel, K p.tag = true → p.Dosed p' → ρ p p') :
    Passes K ρ s (exitProbes new s) := by
  have folded : ∀ {u : State} {b : Probe}, Passes K ρ u (foldProbe u b) := fun {u b} =>
    passes_foldl (f := fun s (o : Owner) => updPanel o.tag (fun p => p.fold b) s) b.owners (fun _ _ _ =>
      .map _ (fun p => by split <;> rfl) (fun p => by split <;> exact ⟨rfl, rfl, id⟩) fun _ p _ h => by
        split
        · exact doses p _ h ⟨_, _, _, _, p.flags.sparse, fun e => by rw [e]; rfl, rfl⟩
        · exact refl p) u
  exact .trans (t := s.upDose fun d => { d with probes := d.probes.dropWhile fun b => b.exit ≤ new })
    (passes_of_keeps upDose_keeps (by decide) (by decide)) (passes_foldl (f := foldProbe) _ (fun _ _ _ => folded) _)

theorem judgePanel_passes {p : Panel} {s : State} (free : K p.tag = false) (refl : ∀ p, ρ p p) :
    Passes K ρ s (judgePanel p s) := by
  unfold judgePanel
  split
  · exact passes_refl
  · dsimp only
    refine .trans (.trans (passes_updPanel ?_ ?_ ?_ refl)
      (passes_ite (passes_of_keeps upPrf_keeps (by decide) (by decide)) passes_refl)) (becomeDone_passes free)
    · exact fun _ => rfl
    · exact fun _ => ⟨rfl, rfl, id⟩
    · intro h
      rw [free] at h
      exact nomatch h

/-- The done deadline of a panel that is still PRINTING when it becomes DONE (07 R126). -/
def lateDeadline (tag : Nat) (s : State) : State :=
  match s.queued? tag with
  | some p =>
      if p.state = .printing then
        match s.pq.live.find? (fun t => t.tag = tag) with
        | some t => doneDeadline t (some .forward) s
        | none => s
      else s
  | none => s

theorem panelDone_eq (tag : Nat) (s : State) : panelDone tag s =
    ((lateDeadline tag s).queued? tag).elim (lateDeadline tag s) fun p => judgePanel p (lateDeadline tag s) := by
  have late : ∀ u : State, (match u.queued? tag with | some p => judgePanel p u | none => u) =
      (u.queued? tag).elim u fun p => judgePanel p u := fun u => by
    cases u.queued? tag <;> rfl
  rw [← late]
  rfl

theorem lateDeadline_passes {tag : Nat} {s : State} (refl : ∀ p, ρ p p)
    (ends : K tag = true → ∀ p p' : Panel, p.EndsPrint p' → ρ p p') : Passes K ρ s (lateDeadline tag s) := by
  unfold lateDeadline
  split
  · refine passes_ite ?_ passes_refl
    split
    · next t found =>
      have same : t.tag = tag := by simpa using List.find?_some found
      exact doneDeadline_passes refl (same ▸ ends)
    · exact passes_refl
  · exact passes_refl

theorem panelDone_passes {tag : Nat} {s : State} (refl : ∀ p, ρ p p) (free : K tag = false) :
    Passes K ρ s (panelDone tag s) := by
  rw [panelDone_eq]
  refine (lateDeadline_passes refl fun h => by rw [free] at h; exact nomatch h).trans ?_
  cases found : (lateDeadline tag s).queued? tag with
  | none => exact passes_refl
  | some p => exact judgePanel_passes ((find_mem_tag found).2 ▸ free) refl

end Sys2Proof.Machine
end

