-- ==== Sys2Proof/Proofs/RecordsFollowed.lean ====
section
/-! SUPPORT. One record followed through a count update of PP, to where the dose unit takes the update: the record of a tag,
found in the queue, with the pieces of the update that change it. -/

namespace Sys2Proof.Machine
open Sys2Proof

variable {ρ : Panel → Panel → Prop} {k : Nat} {q : Panel} {s t : State}

/-! ## The record of a tag -/

/-- `q` is the record of tag `k` in the queue, and its report does not wait while a place is free. -/
structure Stands (k : Nat) (q : Panel) (s : State) : Prop where
  found : s.queued? k = some q
  once : (s.pq.queue.map Panel.tag).Nodup
  quiet : Quiet (· == k) s

theorem Stands.mem (h : Stands k q s) : q ∈ s.pq.queue := (find_mem_tag h.found).1

theorem Stands.tag (h : Stands k q s) : q.tag = k := (find_mem_tag h.found).2

theorem Stands.eq (h : Stands k q s) {p : Panel} (mem : p ∈ s.pq.queue) (tag : p.tag = k) : p = q :=
  eq_of_tag h.once mem h.mem (tag.trans h.tag.symm)

theorem queued?_eq_head (k : Nat) (s : State) : s.queued? k = (chosen (· == k) s.pq.queue).head? := by
  unfold chosen State.queued?
  rw [List.head?_filter]
  rfl

/-- A record of the queue that is not DONE stands. -/
theorem QueueOk.stands (ok : QueueOk s) (mem : q ∈ s.pq.queue) (open_ : q.state ≠ .done) : Stands q.tag q s where
  found := ok.queued? mem
  once := PanelQueue.TagsOnce.queue ok.tags
  quiet := fun tag waits same => by
    obtain ⟨p, hp, tag', done⟩ := ok.waiting tag waits
    have e : tag = q.tag := by simpa using same
    exact absurd (PanelQueue.TagsOnce.eq ok.tags hp (List.mem_append_left _ mem) (tag'.trans e) ▸ done) open_

/-- Where no report waits while a place is free, every record of the queue stands. -/
theorem ReportsOk.stands (reports : ReportsOk s) (ok : QueueOk s) (mem : q ∈ s.pq.queue) : Stands q.tag q s where
  found := ok.queued? mem
  once := PanelQueue.TagsOnce.queue ok.tags
  quiet := fun _ waits _ => used_of_full (reports (List.ne_nil_of_mem waits))

/-- A record that stands passes in place. -/
theorem Stands.passes (st : Stands k q s) (h : Passes (· == k) ρ s t) (refl : ∀ p, ρ p p)
    (trans : ∀ {p q r}, ρ p q → ρ q r → ρ p r) : ∃ q', ρ q q' ∧ Stands k q' t := by
  have found := st.found
  rw [queued?_eq_head] at found
  have rel := passes_chosen h refl trans st.once st.quiet
  cases hs : chosen (· == k) s.pq.queue with
  | nil => rw [hs] at found; exact nomatch found
  | cons p l =>
    rw [hs] at found rel
    cases ht : chosen (· == k) t.pq.queue with
    | nil => rw [ht] at rel; exact nomatch rel
    | cons p' l' =>
      rw [ht] at rel
      have e : p = q := Option.some.inj found
      refine ⟨p', e ▸ (List.forall₂_cons.mp rel).1, ?_, passes_nodup h st.once, passes_quiet h st.quiet⟩
      rw [queued?_eq_head, ht]
      rfl

/-- A record that stands and is not changed. -/
theorem Stands.kept (st : Stands k q s) (h : Passes (· == k) Eq s t) : Stands k q t := by
  obtain ⟨q', e, st'⟩ := st.passes h (fun _ => rfl) Eq.trans
  rwa [e]

/-- Pieces after which the queue is mapped. -/
theorem Stands.map {g : Panel → Panel} (st : Stands k q s) (tag : ∀ p, (g p).tag = p.tag)
    (queue : t.pq.queue = s.pq.queue.map g) (waiting : t.pq.waiting = s.pq.waiting) (used : s.flt.used ≤ t.flt.used) :
    Stands k (g q) t where
  found := by
    unfold State.queued?
    rw [queue, List.find?_map]
    have e : (fun p : Panel => decide (p.tag = k)) ∘ g = fun p => decide (p.tag = k) := funext fun p => by
      rw [Function.comp_apply, tag]
    rw [e, show s.pq.queue.find? (fun p => decide (p.tag = k)) = some q from st.found]
    rfl
  once := by
    rw [queue, List.map_map, show Panel.tag ∘ g = Panel.tag from funext tag]
    exact st.once
  quiet := fun tag ht hk => (st.quiet tag (waiting ▸ ht) hk).trans used

/-- The record itself, changed in place. -/
theorem Stands.updPanel {f : Panel → Panel} (st : Stands k q s) (keep : ∀ p, (f p).tag = p.tag) :
    Stands k (f q) (updPanel k f s) := by
  have h := Stands.map (t := Machine.updPanel k f s) (g := fun p => if p.tag = k then f p else p) st
    (fun p => by split; exacts [keep p, rfl]) rfl rfl (Nat.le_refl _)
  rwa [if_pos st.tag] at h

/-- The record of another panel, changed in place. -/
theorem Stands.updOther {f : Panel → Panel} {tag : Nat} (st : Stands k q s) (keep : ∀ p, (f p).tag = p.tag)
    (other : tag ≠ k) : Stands k q (Machine.updPanel tag f s) := by
  have h := Stands.map (t := Machine.updPanel tag f s) (g := fun p => if p.tag = tag then f p else p) st
    (fun p => by split; exacts [keep p, rfl]) rfl rfl (Nat.le_refl _)
  rwa [if_neg fun e => other (e.symm.trans st.tag)] at h

/-- What leaves the panel queue alone leaves the record. -/
theorem Stands.runs {b : Bool} {l : List Block} (st : Stands k q s) (r : Runs b s t) (kept : Keeps l s t)
    (h : Block.pq ∉ l) : Stands k q t := st.kept (passes_of_runs r kept h)

theorem Stands.keeps {l : List Block} (st : Stands k q s) (kept : Keeps l s t) (h : Block.pq ∉ l)
    (h' : Block.flt ∉ l ∧ Block.cnt ∉ l) : Stands k q t := st.kept (passes_of_keeps kept h h')

/-! ## The stages of a forward count update of PP (01 R7) -/

/-- The count taken, with the fault of a position out of range (01 R3, R6). -/
def State.ranged (ticks : Ticks) (s : State) : State :=
  rangeFault .paper s.cnt.chan.paper (s.cnt.chan.paper.take ticks)
    (s.upCnt fun c => { c with chan := c.chan.set .paper (s.cnt.chan.paper.take ticks) })

/-- The triggers, windows, marks and move that a count update of PP reaches. -/
def State.tracked (old new : Int) (s : State) : State :=
  seekUpdate old new (markUpdate old new (judgeWindows .paper old new (fireCrossed .paper old new s)))

/-- The deadlines and arrivals that PP reaches (07 R119, R125, 08 R145). -/
def State.reached (new : Int) (s : State) : State := arriveReached (some .forward) (deadlineUpdate new s)

/-- The probe points and exits that PP reaches (04 R65, R67). -/
def State.probed (old new : Int) (s : State) : State :=
  exitProbes new (createProbes (pointBound s.pq.queue s.par.spacing) old new s)

/-- The panels that become DONE (04 R68). -/
def State.judged (new : Int) (s : State) : State :=
  (doneAt s.pq.queue s.par.arcLen new).foldl (fun s tag => panelDone tag s) s

/-- A forward count update of PP, as its stages. -/
theorem tickBatch_forward {ticks : Ticks} {s : State} (h : s.pp < (s.cnt.chan.paper.take ticks).count) :
    let new := (s.cnt.chan.paper.take ticks).count
    tickBatch .paper ticks s =
      decide_ (((((s.ranged ticks).tracked s.pp new).reached new).probed s.pp new).judged new) := by
  intro new
  have moved : ¬ new = s.pp := Int.ne_of_gt h
  have forward : ∀ u : State, ppUpdate s.pp new u =
      decide_ ((((u.tracked s.pp new).reached new).probed s.pp new).judged new) := fun u => by
    unfold ppUpdate
    dsimp only
    rw [if_pos h]
    rfl
  exact (if_neg moved).trans (forward _)

theorem tickBatch_still {ticks : Ticks} {s : State} (h : (s.cnt.chan.paper.take ticks).count = s.pp) :
    tickBatch .paper ticks s = s.ranged ticks := if_pos h

theorem tickBatch_reverse {ticks : Ticks} {s : State} (h : (s.cnt.chan.paper.take ticks).count < s.pp) :
    tickBatch .paper ticks s = decide_ ((s.ranged ticks).tracked s.pp (s.cnt.chan.paper.take ticks).count) := by
  have moved : ¬ (s.cnt.chan.paper.take ticks).count = s.pp := Int.ne_of_lt h
  have back : ¬ s.pp < (s.cnt.chan.paper.take ticks).count := Int.not_lt.mpr (Int.le_of_lt h)
  have reverse : ∀ u : State, ppUpdate s.pp (s.cnt.chan.paper.take ticks).count u =
      decide_ (u.tracked s.pp (s.cnt.chan.paper.take ticks).count) := fun u => by
    unfold ppUpdate
    dsimp only
    rw [if_neg back]
    rfl
  exact (if_neg moved).trans (reverse _)

/-! ## What each stage leaves unchanged -/

theorem ranged_keeps (ticks : Ticks) (s : State) : Keeps (.cnt :: faultBlocks) s (s.ranged ticks) :=
  keeps_then (keeps_mono upCnt_keeps (by decide)) rangeFault_keeps (by decide)

theorem ranged_cnt (ticks : Ticks) (s : State) : (s.ranged ticks).cnt =
    { s.cnt with chan := s.cnt.chan.set .paper (s.cnt.chan.paper.take ticks) } :=
  (rangeFault_keeps .cnt (by decide)).trans rfl

theorem ranged_pp (ticks : Ticks) (s : State) : (s.ranged ticks).pp = (s.cnt.chan.paper.take ticks).count := by
  unfold State.pp
  rw [ranged_cnt]
  rfl

theorem ranged_runs (ticks : Ticks) (s : State) : Runs true s (s.ranged ticks) := by
  refine .trans (runs_upCnt (f := fun c => { c with chan := c.chan.set .paper (s.cnt.chan.paper.take ticks) }) rfl) ?_
  unfold State.ranged rangeFault
  exact runs_ite raise_runs runs_refl

theorem tracked_keeps (old new : Int) (s : State) : Keeps [.mot, .pq, .mrk, .trg, .flt, .free] s (s.tracked old new) :=
  keeps_then (keeps_then (keeps_then (keeps_mono fireCrossed_keeps (by decide)) judgeWindows_keeps (by decide))
    markUpdate_keeps (by decide)) seekUpdate_keeps (by decide)

theorem tracked_runs {b : Bool} (old new : Int) (s : State) : Runs b s (s.tracked old new) :=
  ((fireCrossed_runs.trans judgeWindows_runs).trans markUpdate_runs).trans seekUpdate_runs

theorem reached_keeps (new : Int) (s : State) : Keeps [.prf, .pq, .head, .trg, .flt, .free] s (s.reached new) :=
  keeps_then (keeps_mono deadlineUpdate_keeps (by decide)) arriveReached_keeps (by decide)

theorem reached_runs {b : Bool} (new : Int) (s : State) : Runs b s (s.reached new) :=
  deadlineUpdate_runs.trans arriveReached_runs

theorem probed_keeps (old new : Int) (s : State) : Keeps [.pq, .dose] s (s.probed old new) :=
  keeps_then createProbes_keeps exitProbes_keeps (by decide)

theorem judged_keeps (new : Int) (s : State) : Keeps [.prf, .pq, .head, .trg, .flt, .free] s (s.judged new) :=
  keeps_foldl (fun _ _ => keeps_mono panelDone_keeps (by decide)) _ s

theorem judged_runs {b : Bool} (new : Int) (s : State) : Runs b s (s.judged new) :=
  runs_foldl (fun _ _ => panelDone_runs) _ s

end Sys2Proof.Machine
end

