-- ==== Sys2Proof/Proofs/RecordStages.lean ====
section
/-! SUPPORT. What the stages of a forward count update of PP before the dose unit make of one record of the queue. -/

namespace Sys2Proof.Machine
open Sys2Proof

variable {k : Nat} {q : Panel} {s : State}

/-! ## The count taken -/

theorem ranged_live (ticks : Ticks) (s : State) : ∀ t ∈ (s.ranged ticks).pq.live, t ∈ s.pq.live := by
  generalize hu : (s.upCnt fun c => { c with chan := c.chan.set .paper (s.cnt.chan.paper.take ticks) }) = u
  have pq : u.pq = s.pq := hu ▸ rfl
  unfold State.ranged rangeFault
  rw [hu, ← pq]
  split
  · exact raise_live
  · exact fun _ => id

theorem ranged_passes {K : Nat → Bool} {ρ : Panel → Panel → Prop} (ticks : Ticks) (s : State) (free : FreeStarts K s) :
    Passes K ρ s (s.ranged ticks) := by
  refine .trans (t := s.upCnt fun c => { c with chan := c.chan.set .paper (s.cnt.chan.paper.take ticks) })
    (.same rfl rfl rfl (Nat.le_refl _) (fun _ => id) rfl) ?_
  unfold State.ranged rangeFault
  exact passes_ite (raise_passes free) passes_refl

theorem Stands.ranged (st : Stands k q s) (free : FreeStarts (· == k) s) (ticks : Ticks) : Stands k q (s.ranged ticks) :=
  st.kept (ranged_passes ticks s free)

/-- A panel past STARTING has no transaction that awaits its answer. -/
theorem QueueOk.freeStarts (ok : QueueOk s) (mem : q ∈ s.pq.queue) (past : q.state ≠ .starting) :
    FreeStarts (· == q.tag) s := fun t ht phase => by
  obtain ⟨p, hp, tag, state⟩ := ok.live t ht
  rw [phase] at state
  by_contra h
  have same : t.tag = q.tag := by simpa using h
  exact past (ok.queue_unique hp mem (tag.trans same) ▸ state)

/-- The live transaction of a record is in its phase. -/
theorem QueueOk.phase (ok : QueueOk s) (mem : q ∈ s.pq.queue) {t : Txn} (ht : t ∈ s.pq.live) (tag : t.tag = q.tag) :
    q.state = t.phase.panelState := by
  obtain ⟨p, hp, tag', state⟩ := ok.live t ht
  exact ok.queue_unique hp mem (tag'.trans tag) ▸ state

/-! ## Marks (08 R140, R141) -/

theorem expired_congr {s u : State} (new : Int) (pq : u.pq = s.pq) (par : u.par = s.par) (slip : u.mrk.slip = s.mrk.slip) :
    u.expired new = s.expired new := by
  unfold State.expired State.markCentre
  rw [pq, par, slip]

theorem expireRecord_congr {s u : State} (pp : u.pp = s.pp) (par : u.par = s.par) (slip : u.mrk.slip = s.mrk.slip) :
    u.expireRecord = s.expireRecord := by
  funext r p
  unfold State.expireRecord State.slipArrival
  rw [pp, par, slip]

theorem crossed_keeps (old new : Int) (s : State) :
    Keeps [.trg, .flt] s (judgeWindows .paper old new (fireCrossed .paper old new s)) :=
  keeps_then fireCrossed_keeps judgeWindows_keeps (by decide)

theorem markUpdate_pq {old new : Int} (h : old < new) (s : State) : (markUpdate old new s).pq =
    { s.pq with queue := s.pq.queue.map fun p => (s.expired new).foldl (fun p q => s.expireRecord q p) p } := by
  unfold markUpdate
  rw [if_pos h, show State.pq (resolveAnchors _ _ _) = _ from resolveAnchors_keeps .pq (by decide),
    foldl_expirePanel_pq]
  rfl

theorem tracked_pq {old new : Int} (h : old < new) (s : State) : (s.tracked old new).pq =
    { s.pq with queue := s.pq.queue.map fun p => (s.expired new).foldl (fun p q => s.expireRecord q p) p } := by
  have kept := crossed_keeps old new s
  have moved : (s.tracked old new).pq = State.pq (markUpdate old new _) := seekUpdate_keeps .pq (by decide)
  rw [moved, markUpdate_pq h]
  generalize judgeWindows .paper old new (fireCrossed .paper old new s) = u at kept
  have pq : u.pq = s.pq := kept .pq (by decide)
  have par : u.par = s.par := kept .par (by decide)
  have slip : u.mrk.slip = s.mrk.slip := congrArg Marks.slip (kept .mrk (by decide))
  have pp : u.pp = s.pp := congrArg (fun c : Counting => c.chan.paper.count) (kept .cnt (by decide))
  rw [expired_congr new pq par slip, expireRecord_congr pp par slip, pq]

theorem tracked_pq_of_not {old new : Int} (h : ¬ old < new) (s : State) : (s.tracked old new).pq = s.pq := by
  have pq : State.pq (judgeWindows .paper old new (fireCrossed .paper old new s)) = s.pq :=
    crossed_keeps old new s .pq (by decide)
  have moved : (s.tracked old new).pq = State.pq (markUpdate old new _) := seekUpdate_keeps .pq (by decide)
  rw [moved, ← pq]
  unfold markUpdate
  rw [if_neg h]
  split <;> rfl

theorem Stands.tracked {old new : Int} (st : Stands k q s) (h : old < new) :
    Stands k ((s.expired new).foldl (fun p q => s.expireRecord q p) q) (s.tracked old new) :=
  st.map (foldl_expireRecord_tag s _) (by rw [tracked_pq h])
    (by rw [tracked_pq h]) (tracked_runs (b := false) old new s).tellsOn.used

/-- A record with an arrival is passed by no window. -/
theorem Stands.tracked_arrived {old new a : Int} (st : Stands k q s) (h : old < new) (arrival : q.arrival = some a) :
    Stands k q (s.tracked old new) := by
  have stays := st.tracked h
  rwa [foldl_expireRecord_other s fun r hr tag => ?_] at stays
  obtain ⟨mem, travels, -⟩ := mem_expired.mp hr
  have unset := (travelling_iff.mp travels).2.2
  rw [st.eq mem (tag.trans st.tag), arrival] at unset
  exact nomatch unset

/-! ## Deadlines (07 R119, R125) -/

theorem deadlineAt_calm {new : Int} {t : Txn} (found : s.queued? t.tag = some q) (phase : t.phase = .printing)
    (short : new < q.xs.getD 0 + q.length + s.par.mDone) : deadlineAt new s t = s := by
  unfold deadlineAt
  rw [found, phase]
  exact if_neg (Int.not_le.mpr short)

/-- A record whose deadline the update does not reach. -/
theorem Stands.deadlines {new : Int} (st : Stands k q s) (calm : ∀ t ∈ s.pq.live, t.tag = k →
    t.phase = .printing ∧ new < q.xs.getD 0 + q.length + s.par.mDone) : Stands k q (deadlineUpdate new s) := by
  have all : ∀ (l : List Txn) (u : State), (∀ t ∈ l, t ∈ s.pq.live) → u.par = s.par → Stands k q u →
      Stands k q (l.foldl (deadlineAt new) u) := fun l => by
    induction l with
    | nil => exact fun _ _ _ h => h
    | cons t l ih =>
      intro u sub par h
      refine ih _ (fun x hx => sub x (List.mem_cons_of_mem _ hx)) ((deadlineAt_keeps .par (by decide)).trans par) ?_
      by_cases e : t.tag = k
      · obtain ⟨phase, short⟩ := calm t (sub t List.mem_cons_self) e
        rwa [deadlineAt_calm (e ▸ h.found) phase (par ▸ short)]
      · exact h.kept (deadlineAt_passes (fun _ => rfl) (fun _ => by simpa using e)
          fun _ same => absurd (by simpa using same) e)
  exact all _ s (fun _ => id) rfl st

/-- A record whose print may end at the update. -/
theorem Stands.deadlines_end (new : Int) (st : Stands k q s) (past : ∀ t ∈ s.pq.live, t.tag = k → t.phase = .printing) :
    ∃ q', q.EndsPrint q' ∧ Stands k q' (deadlineUpdate new s) := by
  refine st.passes (passes_foldl _ (fun u t ht => deadlineAt_passes Panel.EndsPrint.refl (fun phase => ?_)
    fun _ _ _ _ => id) s) Panel.EndsPrint.refl Panel.EndsPrint.trans
  by_contra e
  have awaits := past t ht (by simpa using e)
  rw [phase] at awaits
  exact nomatch awaits

/-! ## Arrivals (08 R145) -/

theorem mem_arrivals {l : List Panel} {pp : Int} {k : Nat} :
    k ∈ arrivals l pp ↔ ∃ p ∈ l, p.tag = k ∧ p.arrived = false ∧ ∃ a, p.arrival = some a ∧ a ≤ pp := by
  unfold arrivals
  rw [List.mem_map]
  simp only [mem_sortBy, List.mem_filter, Bool.and_eq_true, Bool.not_eq_true']
  constructor
  · rintro ⟨p, ⟨mem, arrived, a⟩, tag⟩
    refine ⟨p, mem, tag, arrived, ?_⟩
    split at a
    · next x e => exact ⟨x, e, of_decide_eq_true a⟩
    · exact nomatch a
  · rintro ⟨p, mem, tag, arrived, a, e, reaches⟩
    exact ⟨p, ⟨mem, arrived, by rw [e]; exact decide_eq_true reaches⟩, tag⟩

theorem arrivals_once {l : List Panel} (once : (l.map Panel.tag).Nodup) (pp : Int) : (arrivals l pp).Nodup :=
  (((sortBy_perm _ _).map Panel.tag).nodup_iff).mpr ((List.filter_sublist.map Panel.tag).nodup once)

/-- A record that does not arrive at the update. -/
theorem Stands.arrivals_other (st : Stands k q s) (d : Option Dir)
    (not : q.arrived = true ∨ ∀ a, q.arrival = some a → s.pp < a) : Stands k q (arriveReached d s) := by
  have other : k ∉ arrivals s.pq.queue s.pp := fun h => by
    obtain ⟨p, mem, tag, arrived, a, arrival, reaches⟩ := mem_arrivals.mp h
    rw [st.eq mem tag] at arrived arrival
    rcases not with came | ahead
    · rw [came] at arrived
      exact nomatch arrived
    · have := ahead a arrival
      omega
  refine st.kept (passes_foldl (f := fun s tag => arrive tag d s) _ (fun u tag mem =>
    arrive_passes (fun _ => rfl) fun same => ?_) s)
  exact absurd (by simpa using same) fun e : tag = k => other (e ▸ mem)

/-- A record that may arrive at the update. -/
theorem Stands.arrivals_any (st : Stands k q s) (d : Option Dir) :
    ∃ q', q.Arrives q' ∧ Stands k q' (arriveReached d s) :=
  st.passes (passes_foldl (f := fun s tag => arrive tag d s) _ (fun _ _ _ =>
    arrive_passes Panel.Arrives.refl fun _ _ _ => id) s) Panel.Arrives.refl Panel.Arrives.trans

/-- A record that has arrived and whose print has ended comes to the dose unit as it stands. -/
theorem QueueOk.stands_reached {ticks : Ticks} {a new : Int} (ok : QueueOk s) (mem : q ∈ s.pq.queue)
    (arrival : q.arrival = some a) (arrived : q.arrived = true) (printed : q.state ≠ .printing) (st : Stands q.tag q s)
    (h : s.pp < new) : Stands q.tag q (((s.ranged ticks).tracked s.pp new).reached new) := by
  have seen : q.state ≠ .starting := fun e => by
    rw [(ok.unseen q mem (.inr e)).1] at arrival
    exact nomatch arrival
  have dead : ∀ t ∈ s.pq.live, t.tag ≠ q.tag := fun t ht tag => by
    have phase := ok.phase mem ht tag
    cases e : t.phase <;> rw [e] at phase
    · exact seen phase
    · exact printed phase
  have marked := (st.ranged (ok.freeStarts mem seen) ticks).tracked_arrived h arrival
  refine Stands.arrivals_other (marked.deadlines fun t ht tag => ?_) _ (.inl arrived)
  rw [tracked_pq h] at ht
  exact absurd tag (dead t (ranged_live ticks s t ht))

end Sys2Proof.Machine
end

