-- ==== Sys2Proof/Proofs/ProbePoints.lean ====
section
/-! SUPPORT. The probe points that a forward count update of PP handles (04 R64, R65): what one of them changes, and a panel
with none of them. -/

namespace Sys2Proof.Machine
open Sys2Proof

variable {k : Nat} {q : Panel} {s : State} {old new : Int}

/-- `x` is a probe point of the panel that is still to be handled: the next one, or the trailing one while final is
pending (04 R64). -/
def Panel.awaits (p : Panel) (x : Int) : Prop :=
  ∃ d, p.dose = some d ∧ (d.next = some x ∨ d.final = true ∧ x = p.trailing)

/-- `m` is the least member of `S`, none where it has none. -/
structure LeastPoint (m : Option Int) (S : Int → Prop) : Prop where
  least : ∀ x, m = some x → S x ∧ ∀ y, S y → x ≤ y
  empty : m = none → ∀ y, ¬ S y

theorem LeastPoint.some_iff {m : Option Int} {S : Int → Prop} (h : LeastPoint m S) {x : Int} :
    m = some x ↔ S x ∧ ∀ y, S y → x ≤ y := by
  refine ⟨h.least x, fun ⟨mem, least⟩ => ?_⟩
  cases e : m with
  | none => exact absurd mem (h.empty e x)
  | some y =>
    obtain ⟨mem', least'⟩ := h.least y e
    rw [Int.le_antisymm (least' x mem) (least y mem')]

theorem LeastPoint.none_iff {m : Option Int} {S : Int → Prop} (h : LeastPoint m S) : m = none ↔ ∀ y, ¬ S y := by
  refine ⟨h.empty, fun no => ?_⟩
  cases e : m with
  | none => rfl
  | some y => exact absurd (h.least y e).1 (no y)

theorem LeastPoint.congr {m : Option Int} {S T : Int → Prop} (h : LeastPoint m S) (same : ∀ x, S x ↔ T x) : LeastPoint m T :=
  (funext fun x => propext (same x) : S = T) ▸ h

theorem LeastPoint.minCap {a b : Option Int} {S T : Int → Prop} (h : LeastPoint a S) (k : LeastPoint b T) :
    LeastPoint (minCap a b) fun x => S x ∨ T x := by
  cases a with
  | none => exact k.congr fun x => (or_iff_right (h.empty rfl x)).symm
  | some x =>
    cases b with
    | none => exact h.congr fun x => (or_iff_left (k.empty rfl x)).symm
    | some y =>
      obtain ⟨mem, least⟩ := h.least x rfl
      obtain ⟨mem', least'⟩ := k.least y rfl
      refine ⟨fun z e => ?_, nofun⟩
      have z_eq : z = min x y := (Option.some.inj e).symm
      refine ⟨?_, fun w hw => ?_⟩
      · rcases Int.le_total x y with le | le
        · exact .inl (by rwa [z_eq, Int.min_eq_left le])
        · exact .inr (by rwa [z_eq, Int.min_eq_right le])
      · rcases hw with hw | hw
        · have := least w hw
          omega
        · have := least' w hw
          omega

theorem LeastPoint.some (x : Int) : LeastPoint (some x) (· = x) :=
  ⟨fun y e => ⟨(Option.some.inj e).symm, fun z hz => by rw [hz, Option.some.inj e]⟩, nofun⟩

theorem LeastPoint.none : LeastPoint none fun _ => False := ⟨nofun, fun _ _ h => h⟩

theorem LeastPoint.foldl {f : Panel → Option Int} {S : Panel → Int → Prop} (l : List Panel) (h : ∀ p ∈ l, LeastPoint (f p) (S p))
    {m : Option Int} {T : Int → Prop} (k : LeastPoint m T) :
    LeastPoint (l.foldl (fun m p => Machine.minCap m (f p)) m) fun x => T x ∨ ∃ p ∈ l, S p x := by
  induction l generalizing m T with
  | nil => exact k.congr fun x => (or_iff_left (by simp)).symm
  | cons p l ih =>
    refine (ih (fun q hq => h q (List.mem_cons_of_mem _ hq)) (k.minCap (h p List.mem_cons_self))).congr fun x => ?_
    simp only [List.mem_cons, exists_eq_or_imp, or_assoc]

theorem pointIn_least (p : Panel) (old new : Int) :
    LeastPoint (p.pointIn old new) fun x => p.awaits x ∧ old < x ∧ x ≤ new := by
  unfold Panel.pointIn Panel.awaits
  cases p.dose with
  | none => exact LeastPoint.none.congr fun x => by simp
  | some d =>
    have next : LeastPoint (d.next.filter fun x => decide (old < x) && decide (x ≤ new))
        fun x => d.next = Option.some x ∧ old < x ∧ x ≤ new := by
      cases d.next with
      | none => exact LeastPoint.none.congr fun x => by simp
      | some n =>
        rw [Option.filter]
        split
        · next inside =>
          refine (LeastPoint.some n).congr fun x => ⟨?_, fun h => (Option.some.inj h.1).symm⟩
          rintro rfl
          exact ⟨rfl, by simpa using inside⟩
        · next outside =>
          refine LeastPoint.none.congr fun x => ⟨False.elim, fun h => outside ?_⟩
          rw [Option.some.inj h.1]
          simpa using h.2
    have trailing : LeastPoint (if d.final && (decide (old < p.trailing) && decide (p.trailing ≤ new)) then
        Option.some p.trailing else Option.none) fun x => (d.final = true ∧ x = p.trailing) ∧ old < x ∧ x ≤ new := by
      split
      · next inside =>
        obtain ⟨final, above, reached⟩ : d.final = true ∧ old < p.trailing ∧ p.trailing ≤ new := by simpa using inside
        refine (LeastPoint.some p.trailing).congr fun x => ⟨?_, fun h => h.1.2⟩
        rintro rfl
        exact ⟨⟨final, rfl⟩, above, reached⟩
      · next outside =>
        refine LeastPoint.none.congr fun x => ⟨False.elim, ?_⟩
        rintro ⟨⟨final, rfl⟩, inside⟩
        exact outside (by simp [final, inside])
    refine (next.minCap trailing).congr fun x => ?_
    constructor
    · rintro (⟨e, i⟩ | ⟨e, i⟩)
      · exact ⟨⟨d, rfl, .inl e⟩, i⟩
      · exact ⟨⟨d, rfl, .inr e⟩, i⟩
    · rintro ⟨⟨d', e, one⟩, i⟩
      cases e
      exact one.imp (⟨·, i⟩) (⟨·, i⟩)

/-- A point stands alone in the interval of one that ends in it. -/
theorem pointIn_self {p : Panel} {x : Int} : p.pointIn (x - 1) x = some x ↔ p.awaits x := by
  rw [(pointIn_least p (x - 1) x).some_iff]
  exact ⟨fun h => h.1.1, fun h => ⟨⟨h, by omega, Int.le_refl _⟩, fun y hy => by omega⟩⟩

theorem nextPoint_least (l : List Panel) (old new : Int) :
    LeastPoint (nextPoint l old new) fun x => ∃ p ∈ l, p.awaits x ∧ old < x ∧ x ≤ new :=
  (LeastPoint.foldl l (fun p _ => pointIn_least p old new) LeastPoint.none).congr fun x => by rw [false_or]

/-! ## One point handled (04 R65) -/

/-- What the probe point at `pos` makes of a record. -/
def Panel.handled (pos spacing : Int) (full : Bool) (p : Panel) : Panel :=
  if p.pointIn (pos - 1) pos = some pos then
    { p.handle pos spacing with
      flags := { (p.handle pos spacing).flags with sparse := (p.handle pos spacing).flags.sparse || full } }
  else p

theorem handle_eq (p : Panel) (pos spacing : Int) : p.handle pos spacing = { p with dose := p.dose.map fun d =>
    { d with
      next := if d.next = some pos then (if pos + spacing < p.trailing then some (pos + spacing) else none) else d.next
      final := d.final && p.trailing ≠ pos } } := by
  unfold Panel.handle
  cases e : p.dose with
  | none => exact (congrArg (fun d => { p with dose := d }) e).symm.trans rfl |>.symm
  | some d => rfl

theorem handled_tag (p : Panel) (pos spacing : Int) (full : Bool) : (p.handled pos spacing full).tag = p.tag := by
  unfold Panel.handled
  split
  · rw [handle_eq]
  · rfl

theorem handled_other {p : Panel} {pos : Int} (h : ¬ p.awaits pos) (spacing : Int) (full : Bool) :
    p.handled pos spacing full = p := if_neg fun e => h (pointIn_self.mp e)

/-- The probe that joins the list at `pos`. -/
def State.probeAt (s : State) (pos : Int) : Probe :=
  ⟨(sortBy (fun p : Panel => p.arrival.getD 0) (s.pq.queue.filter fun p => p.pointIn (pos - 1) pos = some pos)).map fun p =>
      ⟨p.tag, p.trailing = pos⟩,
    pos, pos + s.par.arcLen, s.heat.enables, ⟨0, 0, 0, 0, 0, 0⟩, false, false, false, false⟩

theorem handlePoint_pq (pos : Int) (s : State) : (handlePoint pos s).pq =
    { s.pq with queue := s.pq.queue.map (Panel.handled pos s.par.spacing (decide (64 ≤ s.dose.probes.length))) } := by
  unfold handlePoint
  dsimp only
  split <;> rfl

theorem handlePoint_probes (pos : Int) (s : State) : (handlePoint pos s).dose.probes =
    if 64 ≤ s.dose.probes.length then s.dose.probes else s.dose.probes ++ [s.probeAt pos] := by
  unfold handlePoint
  dsimp only
  split
  · next h => rw [if_pos (by simpa [Config.probeCap] using h)]; rfl
  · next h => rw [if_neg (by simpa [Config.probeCap] using h)]; rfl

/-- The owners of a probe that joins are the panels whose point it is. -/
theorem probeAt_owners {s : State} {pos : Int} {o : Owner} (h : o ∈ (s.probeAt pos).owners) :
    ∃ p ∈ s.pq.queue, p.tag = o.tag ∧ p.awaits pos := by
  obtain ⟨p, hp, rfl⟩ := List.mem_map.mp h
  obtain ⟨mem, mine⟩ := List.mem_filter.mp (mem_sortBy.mp hp)
  exact ⟨p, mem, rfl, pointIn_self.mp (of_decide_eq_true mine)⟩

/-! ## A panel with no point in the interval -/

/-- The record of tag `k` stands, and the probes of the list that were not there before are none of it. -/
structure Untouched (k : Nat) (q : Panel) (before : List Probe) (s : State) : Prop where
  stands : Stands k q s
  joined : ∃ l, s.dose.probes = before ++ l ∧ ∀ b ∈ l, ∀ o ∈ b.owners, o.tag ≠ k

theorem Untouched.handlePoint {before : List Probe} {pos : Int} (h : Untouched k q before s) (no : ¬ q.awaits pos) :
    Untouched k q before (handlePoint pos s) where
  stands := by
    have st := Stands.map (t := Machine.handlePoint pos s) h.stands
      (handled_tag · pos s.par.spacing (decide (64 ≤ s.dose.probes.length))) (by rw [handlePoint_pq])
      (by rw [handlePoint_pq]) (Nat.le_of_eq (congrArg FaultMon.used (handlePoint_keeps .flt (by decide)).symm))
    rwa [handled_other no] at st
  joined := by
    obtain ⟨l, e, none⟩ := h.joined
    rw [handlePoint_probes]
    split
    · exact ⟨l, e, none⟩
    · refine ⟨l ++ [s.probeAt pos], by rw [e, List.append_assoc], fun b hb => ?_⟩
      rcases List.mem_append.mp hb with hb | hb
      · exact none b hb
      · intro o ho tag
        rw [List.mem_singleton.mp hb] at ho
        obtain ⟨p, mem, tag', awaits⟩ := probeAt_owners ho
        exact no (h.stands.eq mem (tag'.trans tag) ▸ awaits)

theorem Untouched.createProbes {before : List Probe} (fuel : Nat) (h : Untouched k q before s)
    (no : ∀ x, q.awaits x → old < x → new < x) : Untouched k q before (createProbes fuel old new s) := by
  induction fuel generalizing s with
  | zero => exact h
  | succ fuel ih =>
    unfold Machine.createProbes
    split
    · next pos e =>
      obtain ⟨_, _, _, above, reached⟩ := ((nextPoint_least _ _ _).least pos e).1
      exact ih (h.handlePoint fun awaits => Int.not_lt.mpr reached (no pos awaits above))
    · exact h

end Sys2Proof.Machine
end

