-- ==== Sys2Proof/Proofs/ProbeExits.lean ====
section
/-! SUPPORT. The probes that a forward count update of PP takes out of the list, folded into one record (04 R67). -/

namespace Sys2Proof.Machine
open Sys2Proof

variable {k : Nat} {q : Panel} {s : State}

/-! ## Minima and maxima taken in steps -/

theorem min?_toList_append (m : Option Nat) (l : List Nat) : (m.toList ++ l).min? = l.foldl foldMin m := by
  have some_ : ∀ (l : List Nat) x, l.foldl foldMin (some x) = some (l.foldl min x) := fun l => by
    induction l with
    | nil => exact fun _ => rfl
    | cons y l ih => exact fun x => ih _
  cases m with
  | some x => exact (some_ l x).symm
  | none =>
    cases l with
    | nil => rfl
    | cons y l => exact (some_ l y).symm

theorem max?_toList_append (m : Option Nat) (l : List Nat) : (m.toList ++ l).max? = l.foldl foldMax m := by
  have some_ : ∀ (l : List Nat) x, l.foldl foldMax (some x) = some (l.foldl max x) := fun l => by
    induction l with
    | nil => exact fun _ => rfl
    | cons y l ih => exact fun x => ih _
  cases m with
  | some x => exact (some_ l x).symm
  | none =>
    cases l with
    | nil => rfl
    | cons y l => exact (some_ l y).symm

theorem min?_merge (l r : List Nat) : (l.min?.toList ++ r).min? = (l ++ r).min? := by
  have start : l.min? = l.foldl foldMin none := min?_toList_append none l
  have whole : (l ++ r).min? = (l ++ r).foldl foldMin none := min?_toList_append none _
  rw [min?_toList_append, start, whole, List.foldl_append]

theorem max?_merge (l r : List Nat) : (l.max?.toList ++ r).max? = (l ++ r).max? := by
  have start : l.max? = l.foldl foldMax none := max?_toList_append none l
  have whole : (l ++ r).max? = (l ++ r).foldl foldMax none := max?_toList_append none _
  rw [max?_toList_append, start, whole, List.foldl_append]

theorem min?_congr {l r : List Nat} (h : ∀ x, x ∈ l ↔ x ∈ r) : l.min? = r.min? := by
  ext x
  rw [List.min?_eq_some_iff, List.min?_eq_some_iff]
  simp only [h]

theorem max?_congr {l r : List Nat} (h : ∀ x, x ∈ l ↔ x ∈ r) : l.max? = r.max? := by
  ext x
  rw [List.max?_eq_some_iff, List.max?_eq_some_iff]
  simp only [h]

/-! ## One probe -/

/-- The dose fields after `n` folds, at least one, of the probe. -/
def DoseFields.foldTimes (d : DoseFields) (b : Probe) (n : Nat) : DoseFields :=
  { d with
    minima := Six.ofZone fun z => ((d.minima.get z).toList ++ b.folds [z]).min?
    maximum := (d.maximum.toList ++ b.folds Zone.all).max?
    folds := d.folds + n
    uncertain := d.uncertain || b.uncertain }

theorem fold_eq (d : DoseFields) (b : Probe) : d.fold b = d.foldTimes b 1 := by
  have minima : (fun z => if b.zones.get z then foldMin (d.minima.get z) (b.dose.get z) else d.minima.get z) =
      fun z => ((d.minima.get z).toList ++ b.folds [z]).min? := funext fun z => by
    rw [min?_toList_append, Probe.folds, List.filter_singleton]
    cases b.zones.get z <;> rfl
  unfold DoseFields.fold DoseFields.foldTimes
  rw [max?_toList_append, minima]
  rfl

theorem foldTimes_fold (d : DoseFields) (b : Probe) (n : Nat) : (d.foldTimes b n).fold b = d.foldTimes b (n + 1) := by
  rw [fold_eq]
  unfold DoseFields.foldTimes
  dsimp only
  simp only [ofZone_get, min?_merge, max?_merge, Bool.or_assoc, Bool.or_self, Nat.add_assoc]
  congr 1
  · congr 1
    exact funext fun z => min?_congr fun x => by simp only [List.mem_append]; tauto
  · exact max?_congr fun x => by simp only [List.mem_append]; tauto

/-- A record with the probe folded in `n` times, at least once. -/
def Panel.foldTimes (b : Probe) (n : Nat) (p : Panel) : Panel :=
  { p with dose := p.dose.map fun d => d.foldTimes b n, flags := p.flags.after [b] }

theorem panel_fold_eq (p : Panel) (b : Probe) : p.fold b = p.foldTimes b 1 := by
  unfold Panel.fold Panel.foldTimes CondFlags.after
  simp only [List.any_cons, List.any_nil, Bool.or_false, fold_eq]

theorem panel_foldTimes_fold (p : Panel) (b : Probe) (n : Nat) : (p.foldTimes b n).fold b = p.foldTimes b (n + 1) := by
  unfold Panel.fold Panel.foldTimes CondFlags.after
  simp only [List.any_cons, List.any_nil, Bool.or_false, Option.map_map, Function.comp_def, foldTimes_fold, Bool.or_assoc,
    Bool.or_self]

/-- The probe folded into a record for each owner of its tag. -/
def Panel.foldOwners (k : Nat) (b : Probe) (owners : List Owner) (p : Panel) : Panel :=
  owners.foldl (fun p o => if o.tag = k then p.fold b else p) p

theorem foldOwners_foldTimes (k : Nat) (b : Probe) (owners : List Owner) (p : Panel) (n : Nat) :
    (p.foldTimes b n).foldOwners k b owners = p.foldTimes b (n + owners.countP fun o => o.tag = k) := by
  induction owners generalizing n with
  | nil => rfl
  | cons o l ih =>
    unfold Panel.foldOwners
    rw [List.foldl_cons]
    by_cases e : o.tag = k
    · rw [if_pos e, panel_foldTimes_fold]
      exact (ih (n + 1)).trans (by rw [List.countP_cons_of_pos (by simpa using e), Nat.add_assoc, Nat.add_comm 1])
    · rw [if_neg e]
      exact (ih n).trans (by rw [List.countP_cons_of_neg (by simpa using e)])

theorem foldOwners_none {k : Nat} {owners : List Owner} (none : ∀ o ∈ owners, o.tag ≠ k) (b : Probe) (p : Panel) :
    p.foldOwners k b owners = p := by
  induction owners with
  | nil => rfl
  | cons o l ih =>
    unfold Panel.foldOwners
    rw [List.foldl_cons, if_neg (none o List.mem_cons_self)]
    exact ih fun x hx => none x (List.mem_cons_of_mem _ hx)

theorem foldOwners_some {k : Nat} {owners : List Owner} (some : ∃ o ∈ owners, o.tag = k) (b : Probe) (p : Panel) :
    p.foldOwners k b owners = p.foldTimes b (owners.countP fun o => o.tag = k) := by
  induction owners with
  | nil => obtain ⟨o, ho, -⟩ := some; exact nomatch ho
  | cons o l ih =>
    unfold Panel.foldOwners
    rw [List.foldl_cons]
    by_cases e : o.tag = k
    · rw [if_pos e, panel_fold_eq, List.countP_cons_of_pos (by simpa using e), Nat.add_comm]
      exact foldOwners_foldTimes k b l p 1
    · rw [if_neg e, List.countP_cons_of_neg (by simpa using e)]
      obtain ⟨x, hx, tag⟩ := some
      rcases List.mem_cons.mp hx with rfl | hx
      · exact absurd tag e
      · exact ih ⟨x, hx, tag⟩

theorem Stands.foldProbe (st : Stands k q s) (b : Probe) : Stands k (q.foldOwners k b b.owners) (foldProbe s b) := by
  have all : ∀ (l : List Owner) (u : State) (p : Panel), Stands k p u →
      Stands k (p.foldOwners k b l) (l.foldl (fun s o => Machine.updPanel o.tag (fun p => p.fold b) s) u) := fun l => by
    induction l with
    | nil => exact fun _ _ h => h
    | cons o l ih =>
      intro u p h
      unfold Panel.foldOwners
      rw [List.foldl_cons, List.foldl_cons]
      by_cases e : o.tag = k
      · rw [if_pos e, e]
        exact ih _ (p.fold b) (h.updPanel (f := fun p => p.fold b) fun _ => rfl)
      · rw [if_neg e]
        exact ih _ _ (h.updOther (fun _ => rfl) e)
  exact all b.owners s q st

/-! ## The probes of an update -/

/-- The probe is one of panel `k`. -/
def Probe.ofPanel (k : Nat) (b : Probe) : Bool := b.owners.any fun o => o.tag = k

theorem after_nil (d : DoseFields) (k : Nat) : d.after [] k = d := by
  have minima : (Six.ofZone fun z => ((d.minima.get z).toList ++ ([] : List Nat)).min?) = d.minima := by
    have e : (fun z => ((d.minima.get z).toList ++ ([] : List Nat)).min?) = d.minima.get := funext fun z => by
      rw [min?_toList_append]; rfl
    rw [e]; rfl
  unfold DoseFields.after
  simp only [List.flatMap_nil, List.map_nil, List.sum_nil, List.any_nil, Bool.or_false, Nat.add_zero, minima,
    max?_toList_append, List.foldl_nil]

theorem after_cons (d : DoseFields) (b : Probe) (l : List Probe) (k : Nat) :
    d.after (b :: l) k = (d.foldTimes b (b.owners.countP fun o => o.tag = k)).after l k := by
  unfold DoseFields.after DoseFields.foldTimes
  simp only [ofZone_get, min?_merge, max?_merge, List.flatMap_cons, List.map_cons, List.sum_cons, List.any_cons,
    Bool.or_assoc, Nat.add_assoc, List.append_assoc]

theorem flags_after_cons (f : CondFlags) (b : Probe) (l : List Probe) : f.after (b :: l) = (f.after [b]).after l := by
  unfold CondFlags.after
  simp only [List.any_cons, List.any_nil, Bool.or_false, Bool.or_assoc]

theorem flags_after_nil (f : CondFlags) : f.after [] = f := by
  unfold CondFlags.after
  simp only [List.any_nil, Bool.or_false]

/-- The probes taken out leave a record as the folds of those of its panel leave it. -/
def Panel.afterGone (k : Nat) (gone : List Probe) (p : Panel) : Panel :=
  { p with dose := p.dose.map fun d => d.after gone k, flags := p.flags.after gone }

theorem afterGone_nil (k : Nat) (p : Panel) : p.afterGone k [] = p := by
  unfold Panel.afterGone
  simp only [after_nil, flags_after_nil, Option.map_id']

theorem afterGone_cons {k : Nat} {b : Probe} (l : List Probe) (p : Panel) :
    p.afterGone k (b :: l) = (p.foldTimes b (b.owners.countP fun o => o.tag = k)).afterGone k l := by
  unfold Panel.afterGone Panel.foldTimes
  simp only [Option.map_map, Function.comp_def, after_cons, flags_after_cons p.flags b l]

theorem foldl_foldOwners (k : Nat) (l : List Probe) (p : Panel) :
    l.foldl (fun p b => p.foldOwners k b b.owners) p = p.afterGone k (l.filter (Probe.ofPanel k)) := by
  induction l generalizing p with
  | nil => exact (afterGone_nil k p).symm
  | cons b l ih =>
    rw [List.foldl_cons, ih]
    by_cases own : ∃ o ∈ b.owners, o.tag = k
    · rw [foldOwners_some own, List.filter_cons_of_pos (by simpa [Probe.ofPanel] using own), afterGone_cons]
    · have none : ∀ o ∈ b.owners, o.tag ≠ k := fun o ho tag => own ⟨o, ho, tag⟩
      rw [foldOwners_none none, List.filter_cons_of_neg (by simpa [Probe.ofPanel] using none)]

/-- The exits of an update, for one record. -/
theorem Stands.exitProbes (st : Stands k q s) (new : Int) : Stands k
    (q.afterGone k ((s.dose.probes.takeWhile fun b => decide (b.exit ≤ new)).filter (Probe.ofPanel k)))
    (exitProbes new s) := by
  have all : ∀ (l : List Probe) (u : State) (p : Panel), Stands k p u →
      Stands k (l.foldl (fun p b => p.foldOwners k b b.owners) p) (l.foldl Machine.foldProbe u) := fun l => by
    induction l with
    | nil => exact fun _ _ h => h
    | cons b l ih => exact fun u p h => ih _ _ (h.foldProbe b)
  rw [← foldl_foldOwners]
  exact all _ _ q (st.keeps upDose_keeps (by decide) (by decide))

theorem exitProbes_probes (new : Int) (s : State) :
    (exitProbes new s).dose.probes = s.dose.probes.dropWhile fun b => decide (b.exit ≤ new) := by
  have kept : Keeps [.pq] (s.upDose fun d => { d with probes := d.probes.dropWhile fun b => decide (b.exit ≤ new) })
      (exitProbes new s) := keeps_foldl (fun _ _ => foldProbe_keeps) _ _
  exact congrArg Dose.probes (kept .dose (by decide))

end Sys2Proof.Machine
end

