-- ==== Sys2Proof/Proofs/EntriesKept.lean ====
section
/-! SUPPORT. The profile entries through a count update of PP: reports drop references, and a panel that becomes DONE teaches the
entry it names (06 R105, R108). -/

namespace Sys2Proof.Machine
open Sys2Proof

/-- The profile entry `m` is the same but for its reference count. -/
def EntryKept (m : Nat) (s t : State) : Prop := { t.prf.entry m with refs := 0 } = { s.prf.entry m with refs := 0 }

theorem RefsOnly.entry {s t : State} (h : RefsOnly s t) (m : Nat) : EntryKept m s t := h m

theorem entryKept_refl (m : Nat) (s : State) : EntryKept m s s := rfl

theorem EntryKept.trans {m : Nat} {s t u : State} (h : EntryKept m s t) (k : EntryKept m t u) : EntryKept m s u :=
  Eq.trans k h

theorem refsOnly_of_keeps {l : List Block} {s t : State} (k : Keeps l s t) (h : Block.prf ∉ l) : RefsOnly s t :=
  refsOnly_of_prf (k .prf h)

theorem refsOnly_ite {c : Prop} [Decidable c] {s t u : State} (h : RefsOnly s t) (k : RefsOnly s u) :
    RefsOnly s (if c then t else u) := by
  split <;> assumption

theorem refsOnly_foldl {α : Type} {f : State → α → State} (h : ∀ s x, RefsOnly s (f s x)) (l : List α) (s : State) :
    RefsOnly s (l.foldl f s) := by
  induction l generalizing s with
  | nil => exact fun _ => rfl
  | cons x l ih => exact refsOnly_trans (h s x) (ih _)

/-! ## References alone -/

theorem removePanel_refsOnly {p : Panel} {d : Option Dir} {s : State} : RefsOnly s (removePanel p d s) := by
  refine refsOnly_trans (t := dropRef p.profile s) (refsOnly_modify (g := (· - 1)) rfl) (refsOnly_of_prf ?_)
  unfold removePanel
  dsimp only
  split
  · exact orphanPanel_keeps .prf (by decide)
  · rfl

theorem flushReport_refsOnly {d : Option Dir} {s : State} : RefsOnly s (flushReport d s) := by
  unfold flushReport
  split
  · exact refsOnly_of_prf rfl
  · next tag rest _ =>
    refine refsOnly_ite ?_ (refsOnly_of_prf rfl)
    split
    · next p _ =>
      exact refsOnly_trans (t := (s.upPq fun q => { q with waiting := rest }).upFlt fun f =>
        f.place (.notice s.cnt.clock (.panelReport p))) (refsOnly_of_prf rfl) removePanel_refsOnly
    · exact refsOnly_of_prf rfl

theorem becomeDone_refsOnly {tag : Nat} {d : Option Dir} {s : State} : RefsOnly s (becomeDone tag d s) :=
  refsOnly_trans (t := s.upPq fun q => { q with waiting := q.waiting ++ [tag] }) (refsOnly_of_prf rfl) flushReport_refsOnly

theorem refusal_refsOnly {num : Nat} {p : Panel} {counted : Option EngineReason} {d : Option Dir} {s : State} :
    RefsOnly s (refusal num p counted d s) := by
  unfold refusal
  dsimp only
  split
  · exact refsOnly_trans (refsOnly_of_keeps upPq_keeps (by decide)) becomeDone_refsOnly
  · exact refsOnly_of_prf rfl

theorem startingDeadline_refsOnly {t : Txn} {d : Option Dir} {s : State} : RefsOnly s (startingDeadline t d s) := by
  unfold startingDeadline
  split
  · exact refsOnly_trans (refsOnly_of_keeps withdraw_keeps (by decide)) refusal_refsOnly
  · exact refsOnly_trans (refsOnly_of_keeps upPq_keeps (by decide)) (refsOnly_of_keeps withdraw_keeps (by decide))

theorem deadlineAt_refsOnly {new : Int} {t : Txn} {s : State} : RefsOnly s (deadlineAt new s t) := by
  have still : RefsOnly s s := fun _ => rfl
  unfold deadlineAt
  split
  · split
    · exact refsOnly_ite startingDeadline_refsOnly still
    · exact refsOnly_ite (refsOnly_of_keeps doneDeadline_keeps (by decide)) still
  · exact still

theorem ranged_refsOnly (ticks : Ticks) (s : State) : RefsOnly s (s.ranged ticks) :=
  refsOnly_of_keeps (ranged_keeps ticks s) (by decide)

theorem tracked_refsOnly (old new : Int) (s : State) : RefsOnly s (s.tracked old new) :=
  refsOnly_of_keeps (tracked_keeps old new s) (by decide)

theorem reached_refsOnly (new : Int) (s : State) : RefsOnly s (s.reached new) :=
  refsOnly_trans (refsOnly_foldl (fun _ _ => deadlineAt_refsOnly) _ s) (refsOnly_of_keeps arriveReached_keeps (by decide))

theorem probed_refsOnly (old new : Int) (s : State) : RefsOnly s (s.probed old new) :=
  refsOnly_of_keeps (probed_keeps old new s) (by decide)

/-! ## A panel that becomes DONE (04 R69, R70) -/

/-- The verdict on a panel, and the offer of its result. -/
def State.verdict (s : State) (p : Panel) (d : DoseFields) : Verdict := verdictOf p d (s.prf.entry p.profile)

/-- The record `r` of the panel `p` when it becomes DONE. -/
def State.judging (s : State) (p : Panel) (d : DoseFields) (r : Panel) : Panel :=
  { r with
    state := .done, verdict := some (s.verdict p d), offered := offers (s.verdict p d) p.flags
    dose := some { d with capHeld := false } }

/-- The profile table after the offer of a panel that becomes DONE. -/
def State.taught (s : State) (p : Panel) (d : DoseFields) (u : State) : State :=
  if offers (s.verdict p d) p.flags then
    u.upPrf fun t => { t with entries := modifyAt (fun e => e.learn d.minima) p.profile t.entries }
  else u

theorem judgePanel_eq {p : Panel} {d : DoseFields} (h : p.dose = some d) (s : State) :
    judgePanel p s = becomeDone p.tag (some .forward) (s.taught p d (updPanel p.tag (s.judging p d) s)) := by
  unfold judgePanel
  rw [h]
  rfl

theorem judgePanel_undosed {p : Panel} (h : p.dose = none) (s : State) : judgePanel p s = s := by
  unfold judgePanel
  rw [h]

theorem learn_refs (e : Entry) (offer : Six (Option Nat)) (n : Nat) :
    { e with refs := n }.learn offer = { e.learn offer with refs := n } := by
  unfold Entry.learn
  split <;> rfl

theorem entry_learnAt (t : Profiles) (offer : Six (Option Nat)) (n m : Nat) :
    { t with entries := modifyAt (fun e => e.learn offer) n t.entries }.entry m =
      if m = n then (t.entry m).learn offer else t.entry m := by
  unfold Profiles.entry Profiles.get?
  dsimp only
  rw [modifyAt_getElem?]
  split
  · cases t.entries[m]? <;> rfl
  · rfl

theorem taught_entry (s u : State) (p : Panel) (d : DoseFields) (m : Nat) : (s.taught p d u).prf.entry m =
    if offers (s.verdict p d) p.flags = true ∧ m = p.profile then (u.prf.entry m).learn d.minima else u.prf.entry m := by
  unfold State.taught
  split
  · next yes =>
    exact (entry_learnAt u.prf d.minima p.profile m).trans (by simp only [yes, true_and])
  · next no => rw [if_neg fun h => no h.1]

/-- The entry that a panel names, after it has become DONE. -/
theorem judgePanel_taught {p : Panel} {d : DoseFields} (h : p.dose = some d) (s : State) (m : Nat) :
    { (judgePanel p s).prf.entry m with refs := 0 } =
      { (if offers (s.verdict p d) p.flags = true ∧ m = p.profile then (s.prf.entry m).learn d.minima else s.prf.entry m)
        with refs := 0 } := by
  rw [judgePanel_eq h, becomeDone_refsOnly m, taught_entry]
  rfl

theorem judgePanel_entryKept {p : Panel} {m : Nat} (other : p.profile ≠ m) (s : State) : EntryKept m s (judgePanel p s) := by
  cases h : p.dose with
  | none => rw [judgePanel_undosed h]; exact entryKept_refl m s
  | some d =>
    have e := judgePanel_taught h s m
    rwa [if_neg fun k => other k.2.symm] at e

theorem lateDeadline_keeps {tag : Nat} {s : State} : Keeps [.pq, .head, .trg, .flt, .free] s (lateDeadline tag s) := by
  unfold lateDeadline
  split
  · refine keeps_ite (fun _ => ?_) fun _ => keeps_refl
    split
    · exact doneDeadline_keeps
    · exact keeps_refl
  · exact keeps_refl

/-- A panel that becomes DONE leaves the entries that it does not name. -/
theorem panelDone_entryKept {tag m : Nat} {s : State} (once : (s.pq.queue.map Panel.tag).Nodup)
    (other : ∀ p ∈ s.pq.queue, p.tag = tag → p.profile ≠ m) : EntryKept m s (panelDone tag s) := by
  have late : EntryKept m s (lateDeadline tag s) := (refsOnly_of_keeps lateDeadline_keeps (by decide)).entry m
  rw [panelDone_eq]
  cases found : (lateDeadline tag s).queued? tag with
  | none => exact late
  | some p =>
    have pass : Passes (fun _ => false) Eq s (lateDeadline tag s) := lateDeadline_passes (fun _ => rfl) nofun
    obtain ⟨mem, tag'⟩ := find_mem_tag found
    obtain ⟨q, hq, same, lasts, -⟩ := passes_from pass (fun _ => rfl) Eq.trans once p mem
    exact late.trans (judgePanel_entryKept (lasts.profile ▸ other q hq (same ▸ tag')) _)

/-- What a verdict needs of an entry. -/
structure Alike (e e' : Entry) : Prop where
  target : e'.target = e.target
  lower : e'.allowUnder = e.allowUnder
  upper : e'.allowOver = e.allowOver

theorem Alike.refl (e : Entry) : Alike e e := ⟨rfl, rfl, rfl⟩

theorem Alike.trans {e f g : Entry} (h : Alike e f) (k : Alike f g) : Alike e g :=
  ⟨k.target.trans h.target, k.lower.trans h.lower, k.upper.trans h.upper⟩

theorem Alike.of_refs {e e' : Entry} (h : { e' with refs := 0 } = { e with refs := 0 }) : Alike e e' where
  target := (congrArg Entry.target h :)
  lower := (congrArg Entry.allowUnder h :)
  upper := (congrArg Entry.allowOver h :)

theorem Alike.learn (e : Entry) (offer : Six (Option Nat)) : Alike e (e.learn offer) where
  target := (congrArg Entry.target (learn_keeps e offer) :)
  lower := (congrArg Entry.allowUnder (learn_keeps e offer) :)
  upper := (congrArg Entry.allowOver (learn_keeps e offer) :)

theorem Alike.verdictOf {e e' : Entry} (h : Alike e e') (p : Panel) (d : DoseFields) :
    verdictOf p d e' = verdictOf p d e := by
  unfold Machine.verdictOf
  rw [h.target, h.lower, h.upper]

theorem judgePanel_alike (p : Panel) (s : State) (m : Nat) : Alike (s.prf.entry m) ((judgePanel p s).prf.entry m) := by
  cases h : p.dose with
  | none => rw [judgePanel_undosed h]; exact .refl _
  | some d =>
    refine Alike.trans ?_ (.of_refs (judgePanel_taught h s m))
    split
    · exact .learn _ _
    · exact .refl _

theorem panelDone_alike (tag : Nat) (s : State) (m : Nat) : Alike (s.prf.entry m) ((panelDone tag s).prf.entry m) := by
  have late : Alike (s.prf.entry m) ((lateDeadline tag s).prf.entry m) :=
    .of_refs (refsOnly_of_keeps lateDeadline_keeps (by decide) m)
  rw [panelDone_eq]
  cases (lateDeadline tag s).queued? tag with
  | none => exact late
  | some p => exact late.trans (judgePanel_alike p _ m)

end Sys2Proof.Machine
end

