-- ==== Sys2Proof/Proofs/PanelsJudged.lean ====
section
/-! SUPPORT. The panels that become DONE at a forward count update of PP, and their reports (04 R68 to R71, 07 R129). -/

namespace Sys2Proof.Machine
open Sys2Proof

variable {k : Nat} {q : Panel} {s t : State}

/-! ## What is left of a panel that has become DONE -/

/-- The panel `k` has become DONE with the record `q`: its report waits, or it has been retired with it. -/
inductive Left (k : Nat) (q : Panel) (clock : Timestamp) (s : State) : Prop
  | waits (once : (s.pq.queue.map Panel.tag).Nodup) (mem : q ∈ s.pq.queue) (tag : q.tag = k) (waits : k ∈ s.pq.waiting)
  | retired (gone : ∀ p ∈ s.pq.queue, p.tag ≠ k) (report : .notice clock (.panelReport q) ∈ s.flt.frames)

/-- Pieces that leave the records of tag `k` alone keep what is left of it. -/
theorem passes_left (h : Passes (· == k) Eq s t) {clock : Timestamp} (now : s.cnt.clock = clock) (left : Left k q clock s) :
    t.cnt.clock = clock ∧ Left k q clock t := by
  induction h with
  | same queue _ waiting _ frames same =>
    refine ⟨same.trans now, ?_⟩
    cases left with
    | waits once mem tag waits => exact .waits (queue ▸ once) (queue ▸ mem) tag (waiting ▸ waits)
    | retired gone report => exact .retired (queue ▸ gone) (frames _ report)
  | @map s g tag lasts kept =>
    refine ⟨now, ?_⟩
    cases left with
    | waits once mem tag' waits =>
      have keeps : q = g q := kept once q mem (by simpa using tag')
      refine .waits ?_ (List.mem_map.mpr ⟨q, mem, keeps.symm⟩) tag' waits
      exact passes_nodup (K := (· == k)) (ρ := Eq) (.map g tag lasts kept) once
    | retired gone report =>
      refine .retired (fun p hp => ?_) report
      obtain ⟨r, hr, rfl⟩ := List.mem_map.mp hp
      exact tag r ▸ gone r hr
  | @back s p p' free mem tag lasts =>
    refine ⟨now, ?_⟩
    cases left with
    | waits once mem' tag' waits =>
      refine .waits (passes_nodup (K := (· == k)) (ρ := Eq) (.back free mem tag lasts) once) ?_ tag' waits
      refine (insertBeforeQueued_perm _ _).mem_iff.mpr (List.mem_cons_of_mem _ (mem_without.mpr ⟨mem', fun e => ?_⟩))
      rw [← e, tag'] at free
      simp at free
    | retired gone report =>
      refine .retired (fun r hr => ?_) report
      rcases List.mem_cons.mp ((insertBeforeQueued_perm _ _).mem_iff.mp hr) with rfl | hr
      · exact tag ▸ gone p mem
      · exact gone r (mem_without.mp hr).1
  | wait =>
    refine ⟨now, ?_⟩
    cases left with
    | waits once mem tag waits => exact .waits once mem tag (List.mem_append_left _ waits)
    | retired gone report => exact .retired gone report
  | @flush s d =>
    have frames := (flushReport_runs (b := false) (d := d) (s := s)).tellsOn
    refine ⟨frames.clock.trans now, ?_⟩
    cases left with
    | retired gone report =>
      refine .retired (fun p hp => gone p ?_) (frames.frames _ report)
      cases flushReport_flushed d s with
      | stays e => rwa [e] at hp
      | retired _ _ _ _ _ _ _ pq => rw [pq] at hp; exact (mem_without.mp hp).1
      | dropped _ _ _ _ pq => rwa [pq] at hp
    | waits once mem tag waits =>
      have found : s.panel? k = some q := by
        unfold State.panel?
        rw [List.find?_append]
        cases e : s.pq.queue.find? fun p => p.tag = k with
        | none => exact absurd tag (by simpa using List.find?_eq_none.mp e q mem)
        | some p =>
          obtain ⟨mem', tag'⟩ := find_mem_tag (s := s) e
          rw [eq_of_tag once mem' mem (tag'.trans tag.symm)]
          rfl
      cases flushReport_flushed d s with
      | stays e => rw [e]; exact .waits once mem tag waits
      | retired tag' rest p waiting room record same pq report =>
        by_cases own : tag' = k
        · rw [own, found] at record
          refine .retired (fun p hp => ?_) ?_
          · rw [pq] at hp
            exact own ▸ (mem_without.mp hp).2
          · rw [Option.some.inj record, ← now]
            exact report
        · rw [waiting] at waits
          refine .waits ?_ ?_ tag ?_
          · exact passes_nodup (K := (· == k)) (ρ := Eq) (.flush d) once
          · rw [pq]
            exact mem_without.mpr ⟨mem, fun e => own (e.symm.trans tag)⟩
          · rw [pq]
            exact (List.mem_cons.mp waits).resolve_left (Ne.symm own)
      | dropped tag' rest waiting record pq =>
        rw [waiting] at waits
        refine .waits ?_ (by rw [pq]; exact mem) tag ?_
        · exact passes_nodup (K := (· == k)) (ρ := Eq) (.flush d) once
        · rw [pq]
          refine (List.mem_cons.mp waits).resolve_left fun e => ?_
          rw [← e, found] at record
          exact nomatch record
  | trans _ _ ih ih' =>
    obtain ⟨now', left'⟩ := ih now left
    exact ih' now' left'

/-! ## One panel -/

/-- A record that stands is left as it is when it becomes DONE. -/
theorem Stands.left (st : Stands k q s) (d : Option Dir) : Left k q s.cnt.clock (becomeDone k d s) :=
  (passes_left (s := s.upPq fun q => { q with waiting := q.waiting ++ [k] }) (.flush d) rfl
    (.waits st.once st.mem st.tag (List.mem_append_right _ List.mem_cons_self))).2

theorem taught_keeps (s : State) (p : Panel) (d : DoseFields) (u : State) : Keeps [.prf] u (s.taught p d u) := by
  unfold State.taught
  split
  · exact upPrf_keeps
  · exact keeps_refl

/-- A record that stands is DONE, judged, and left. -/
theorem Stands.judge (st : Stands k q s) {d : DoseFields} (h : q.dose = some d) :
    Left k (s.judging q d q) s.cnt.clock (judgePanel q s) := by
  have changed := st.updPanel (f := s.judging q d) fun _ => rfl
  have left := (changed.keeps (taught_keeps s q d _) (by decide) (by decide)).left (some .forward)
  have cnt : State.cnt (s.taught q d (Machine.updPanel k (s.judging q d) s)) = s.cnt :=
    taught_keeps s q d _ .cnt (by decide)
  rw [cnt] at left
  rwa [judgePanel_eq h, st.tag]

/-- A record that stands becomes DONE, at the end of its print where it is still PRINTING (07 R126). -/
theorem Stands.panelDone (st : Stands k q s) : ∃ r, q.EndsPrint r ∧ (q.state ≠ .printing → r = q)
    ∧ Stands k r (lateDeadline k s) ∧ Machine.panelDone k s = judgePanel r (lateDeadline k s) := by
  have judge : ∀ {r : Panel}, Stands k r (lateDeadline k s) →
      Machine.panelDone k s = judgePanel r (lateDeadline k s) := fun h => by
    rw [panelDone_eq, h.found]
    rfl
  by_cases prints : q.state = .printing
  · obtain ⟨r, ends, st'⟩ := st.passes (lateDeadline_passes (tag := k) Panel.EndsPrint.refl fun _ _ _ => id)
      Panel.EndsPrint.refl Panel.EndsPrint.trans
    exact ⟨r, ends, fun no => absurd prints no, st', judge st'⟩
  · have calm : lateDeadline k s = s := by
      unfold lateDeadline
      rw [st.found]
      exact if_neg prints
    have st' : Stands k q (lateDeadline k s) := by rwa [calm]
    exact ⟨q, .refl q, fun _ => rfl, st', judge st'⟩

theorem mem_doneAt {l : List Panel} {arcLen new : Int} :
    k ∈ doneAt l arcLen new ↔ ∃ p ∈ l, p.tag = k ∧ p.dosed = true ∧ p.trailing + arcLen ≤ new := by
  unfold doneAt
  rw [List.mem_map]
  simp only [mem_sortBy, List.mem_filter, Bool.and_eq_true, decide_eq_true_eq]
  exact ⟨fun ⟨p, ⟨mem, done⟩, tag⟩ => ⟨p, mem, tag, done⟩, fun ⟨p, mem, tag, done⟩ => ⟨p, ⟨mem, done⟩, tag⟩⟩

theorem doneAt_once {l : List Panel} (once : (l.map Panel.tag).Nodup) (arcLen new : Int) : (doneAt l arcLen new).Nodup :=
  (((sortBy_perm _ _).map Panel.tag).nodup_iff).mpr ((List.filter_sublist.map Panel.tag).nodup once)

theorem panelsDone_passes {ρ : Panel → Panel → Prop} {K : Nat → Bool} (l : List Nat) (refl : ∀ p, ρ p p)
    (free : ∀ tag ∈ l, K tag = false) (s : State) : Passes K ρ s (l.foldl (fun s tag => Machine.panelDone tag s) s) :=
  passes_foldl (f := fun s tag => Machine.panelDone tag s) l (fun _ tag ht => panelDone_passes refl (free tag ht)) s

/-- A panel that does not become DONE at the update. -/
theorem Stands.judged_other {new : Int} (st : Stands k q s) (not : q.dosed = true → new < q.trailing + s.par.arcLen) :
    Stands k q (s.judged new) := by
  refine st.kept (panelsDone_passes _ (fun _ => rfl) (fun tag ht => ?_) s)
  by_contra e
  have same : tag = k := by simpa using e
  obtain ⟨p, mem, tag', dosed, reaches⟩ := mem_doneAt.mp (same ▸ ht)
  rw [st.eq mem tag'] at dosed reaches
  have := not dosed
  omega

/-- The panels that become DONE before a panel of the update, and after it. -/
theorem doneAt_split {new : Int} (once : (s.pq.queue.map Panel.tag).Nodup) (mem : k ∈ doneAt s.pq.queue s.par.arcLen new) :
    ∃ before after, doneAt s.pq.queue s.par.arcLen new = before ++ k :: after ∧ k ∉ before ∧ k ∉ after := by
  obtain ⟨before, after, e⟩ := List.append_of_mem mem
  have nodup := doneAt_once once s.par.arcLen new
  rw [e] at nodup
  obtain ⟨-, rest, apart⟩ := List.nodup_append.mp nodup
  exact ⟨before, after, e, fun h => apart k h k List.mem_cons_self rfl, (List.nodup_cons.mp rest).1⟩

theorem other_tag {l : List Nat} (h : k ∉ l) : ∀ tag ∈ l, (tag == k) = false := fun tag ht => by
  rw [beq_eq_false_iff_ne]
  rintro rfl
  exact h ht

theorem panelsDone_alike (l : List Nat) (s : State) (m : Nat) :
    Alike (s.prf.entry m) ((l.foldl (fun s tag => Machine.panelDone tag s) s).prf.entry m) := by
  induction l generalizing s with
  | nil => exact .refl _
  | cons tag l ih => exact (panelDone_alike tag s m).trans (ih _)

theorem Alike.judging {u : State} (h : Alike (s.prf.entry q.profile) (u.prf.entry q.profile)) (d : DoseFields) :
    u.judging q d = s.judging q d := by
  have verdict : u.verdict q d = s.verdict q d := h.verdictOf q d
  funext r
  unfold State.judging
  rw [verdict]

/-- A panel that becomes DONE at the update is left judged, by its entry as the update has found it, at the end of its
print where it was still PRINTING. -/
theorem Stands.judged {new : Int} (st : Stands k q s) (open_ : q.state ≠ .done) {d : DoseFields} (h : q.dose = some d)
    (reaches : q.trailing + s.par.arcLen ≤ new) : ∃ r, q.EndsPrint r ∧ (q.state ≠ .printing → r = q)
      ∧ Left k (s.judging r d r) s.cnt.clock (s.judged new) := by
  have dosed : q.dosed = true := by simp [Panel.dosed, h, open_]
  obtain ⟨before, after, e, first, rest⟩ := doneAt_split st.once (mem_doneAt.mpr ⟨q, st.mem, st.tag, dosed, reaches⟩)
  unfold State.judged
  rw [e, List.foldl_append, List.foldl_cons]
  have kept := st.kept (panelsDone_passes before (fun _ => rfl) (other_tag first) s)
  have alike := panelsDone_alike before s q.profile
  have clock : State.cnt (before.foldl (fun s tag => Machine.panelDone tag s) s) = s.cnt :=
    keeps_foldl (f := fun s tag => Machine.panelDone tag s) (fun _ _ => panelDone_keeps) before s .cnt (by decide)
  generalize before.foldl (fun s tag => Machine.panelDone tag s) s = u at kept alike clock
  obtain ⟨r, ends, same, late, judge⟩ := kept.panelDone
  have kept' : Keeps [.pq, .head, .trg, .flt, .free] u (lateDeadline k u) := lateDeadline_keeps
  have profile : r.profile = q.profile := by
    obtain ⟨_, _, _, _, _, _, -, rfl⟩ := ends
    rfl
  rw [← show (lateDeadline k u).prf = u.prf from kept' .prf (by decide), ← profile] at alike
  have clock' : (lateDeadline k u).cnt = s.cnt := (kept' .cnt (by decide)).trans clock
  have left := late.judge (ends.dose.trans h)
  rw [alike.judging, clock'] at left
  refine ⟨r, ends, same, ?_⟩
  rw [judge]
  have now : (judgePanel r (lateDeadline k u)).cnt.clock = s.cnt.clock := by
    rw [show (judgePanel r (lateDeadline k u)).cnt = _ from judgePanel_keeps .cnt (by decide), clock']
  exact (passes_left (panelsDone_passes after (fun _ => rfl) (other_tag rest) _) now left).2

/-! ## The test for a decision that ends the update (07 R115) -/

/-- No armed insert has the tag. -/
def NotArmed (k : Nat) (s : State) : Prop := ∀ p, Slot.armed p ∈ s.pq.slots → p.tag ≠ k

/-- A decision leaves every record but that of its candidate, an armed insert or a QUEUED panel. -/
theorem decide_queue (s : State) : decide_ s = s ∨ ∃ p p', ((p ∈ s.pq.queue ∧ p.state = .queued) ∨ Slot.armed p ∈ s.pq.slots)
    ∧ p'.tag = p.tag ∧ p'.arrival = p.arrival ∧ p'.state = .starting
    ∧ (decide_ s).pq.queue = insertPlaced p' (without p.tag s.pq.queue) ∧ (decide_ s).pq.waiting = s.pq.waiting := by
  unfold decide_
  split
  · next slot p candidate =>
    split
    · refine .inr ⟨p, { p with
        state := .starting, xs := some (max (s.pq.lastEnd + s.par.gap) (s.pp + s.par.lead)), txn := some s.pq.nextTxn
        gains := some (s.prf.entry p.profile).trims }, ?_, rfl, rfl, rfl, rfl, rfl⟩
      rcases candidate_cases candidate with ⟨-, mem, queued⟩ | ⟨i, -, armed⟩
      · exact .inl ⟨mem, queued⟩
      · exact .inr (List.mem_of_getElem? armed)
    · exact .inl rfl
  · exact .inl rfl

theorem decide_left {clock : Timestamp} (left : Left k q clock s) (done : q.state ≠ .queued) (armed : NotArmed k s) :
    Left k q clock (decide_ s) := by
  rcases decide_queue s with e | ⟨p, p', from_, tag, -, -, queue, waiting⟩
  · rwa [e]
  have frames : (decide_ s).flt = s.flt := decide_keeps .flt (by decide)
  cases left with
  | retired gone report =>
    refine .retired (fun r hr => ?_) (frames ▸ report)
    rw [queue] at hr
    rcases List.mem_cons.mp ((insertPlaced_perm _ _).mem_iff.mp hr) with rfl | hr
    · rcases from_ with ⟨mem, -⟩ | slot
      · exact tag ▸ gone p mem
      · exact tag ▸ armed p slot
    · exact gone r (mem_without.mp hr).1
  | waits once mem tag' waits =>
    have other : p.tag ≠ k := by
      rcases from_ with ⟨mem', queued⟩ | slot
      · intro e
        rw [eq_of_tag once mem mem' (tag'.trans e.symm)] at done
        exact done queued
      · exact armed p slot
    refine .waits ?_ ?_ tag' (waiting ▸ waits)
    · rw [queue]
      refine (((insertPlaced_perm _ _).map Panel.tag).nodup_iff).mpr (List.nodup_cons.mpr ⟨fun h => ?_, ?_⟩)
      · obtain ⟨r, hr, e⟩ := List.mem_map.mp h
        exact (mem_without.mp hr).2 (e.trans tag)
      · exact ((without_sublist p.tag _).map _).nodup once
    · rw [queue]
      exact (insertPlaced_perm _ _).mem_iff.mpr (List.mem_cons_of_mem _ (mem_without.mpr ⟨mem, fun e => other (e ▸ tag')⟩))

/-- What is left of a panel is its one record, where it is in the queue. -/
theorem Left.eq {clock : Timestamp} (left : Left k q clock s) : ∀ p ∈ s.pq.queue, p.tag = k → p = q := by
  cases left with
  | waits once mem tag _ => exact fun p hp tag' => eq_of_tag once hp mem (tag'.trans tag.symm)
  | retired gone _ => exact fun p hp tag' => absurd tag' (gone p hp)

/-- A decision leaves a record that is neither QUEUED nor an armed insert's. -/
theorem Stands.decide (st : Stands k q s) (placed : q.state ≠ .queued) (armed : NotArmed k s) : Stands k q (decide_ s) := by
  rcases decide_queue s with e | ⟨p, p', source, tag, -, -, queue, waiting⟩
  · rwa [e]
  have flt : (decide_ s).flt = s.flt := decide_keeps .flt (by decide)
  have other : p.tag ≠ k := by
    rcases source with ⟨mem, queued⟩ | slot
    · exact fun e => placed (st.eq mem e ▸ queued)
    · exact armed p slot
  refine ⟨?_, ?_, fun t ht => flt ▸ st.quiet t (waiting ▸ ht)⟩
  · have kept : chosen (· == k) (decide_ s).pq.queue = chosen (· == k) s.pq.queue := by
      obtain ⟨before, after, e, e', -⟩ := insertPlaced_split p' (without p.tag s.pq.queue)
      rw [queue, e', ← chosen_without (K := (· == k)) (by simpa using other) s.pq.queue, e]
      unfold chosen
      rw [List.filter_append, List.filter_append, List.filter_cons_of_neg (by simpa [tag] using other)]
    rw [queued?_eq_head, kept, ← queued?_eq_head]
    exact st.found
  · rw [queue]
    refine (((insertPlaced_perm _ _).map Panel.tag).nodup_iff).mpr (List.nodup_cons.mpr ⟨fun h => ?_, ?_⟩)
    · obtain ⟨r, hr, e⟩ := List.mem_map.mp h
      exact (mem_without.mp hr).2 (e.trans tag)
    · exact ((without_sublist p.tag _).map _).nodup st.once

/-! ## The inserts -/

theorem tracked_slots (old new : Int) (s : State) : (s.tracked old new).pq.slots = s.pq.slots := by
  by_cases h : old < new
  · rw [tracked_pq h]
  · rw [tracked_pq_of_not h]

/-- With no tag chosen the stages of an update pass. -/
theorem reached_passes (new : Int) (s : State) : Passes (fun _ => false) Eq s (s.reached new) :=
  (passes_foldl (f := deadlineAt new) s.pq.live (fun _ _ _ => deadlineAt_passes (fun _ => rfl) (fun _ => rfl)
    fun _ no => Bool.noConfusion no) s).trans
  (passes_foldl (f := fun s tag => arrive tag (some .forward) s) _ (fun _ _ _ => arrive_passes (fun _ => rfl)
    fun no => Bool.noConfusion no) _)

theorem probed_passes (old new : Int) (s : State) : Passes (fun _ => false) Eq s (s.probed old new) :=
  (createProbes_passes (fun _ => rfl) fun _ _ no => Bool.noConfusion no).trans
    (exitProbes_passes (fun _ => rfl) fun _ _ no => Bool.noConfusion no)

theorem judged_passes (new : Int) (s : State) : Passes (fun _ => false) Eq s (s.judged new) :=
  panelsDone_passes _ (fun _ => rfl) (fun _ _ => rfl) s

/-- A count update of PP arms no insert. -/
theorem judged_armed (ticks : Ticks) (old new : Int) (s : State) (p : Panel)
    (h : Slot.armed p ∈ (((((s.ranged ticks).tracked old new).reached new).probed old new).judged new).pq.slots) :
    Slot.armed p ∈ s.pq.slots := by
  have reached := passes_armed (reached_passes new _) p (passes_armed (probed_passes old new _) p
    (passes_armed (judged_passes new _) p h))
  rw [tracked_slots] at reached
  exact passes_armed (ranged_passes (K := fun _ => false) (ρ := Eq) ticks s fun _ _ _ => rfl) p reached

/-- No insert armed at the end of an update has the tag of a record of the queue. -/
theorem QueueOk.notArmed (ok : QueueOk s) (mem : q ∈ s.pq.queue) (ticks : Ticks) (old new : Int) :
    NotArmed q.tag (((((s.ranged ticks).tracked old new).reached new).probed old new).judged new) := fun p hp tag =>
  PanelQueue.TagsOnce.apart ok.tags mem (mem_inserts.mpr (.inl (judged_armed ticks old new s p hp))) tag.symm

end Sys2Proof.Machine
end

