-- ==== Sys2Proof/Proofs/DoseArithmetic.lean ====
section
/-! PROOF. The dose increment, the verdict, and a panel that becomes DONE (04 R60, R67 to R71). -/

namespace Sys2Proof.Machine
open Sys2Proof

variable {k : Nat} {q : Panel} {d : DoseFields} {s : State} {old new : Int}

/-- A panel with its last probe points handled awaits none. -/
theorem not_awaits (h : q.dose = some d) (next : d.next = none) (final : d.final = false) (x : Int) : ¬ q.awaits x := by
  rintro ⟨d', e, point⟩
  cases Option.some.inj (h.symm.trans e)
  rcases point with point | ⟨point, -⟩
  · exact nomatch next.symm.trans point
  · exact nomatch final.symm.trans point

/-- Probes of other panels at the end of the list leave what an update takes out of it for a panel. -/
theorem filter_takeWhile_append {P : Probe → Bool} (before l : List Probe) (none : ∀ b ∈ l, ∀ o ∈ b.owners, o.tag ≠ k) :
    ((before ++ l).takeWhile P).filter (Probe.ofPanel k) = (before.takeWhile P).filter (Probe.ofPanel k) := by
  rw [List.takeWhile_append]
  split
  · next all =>
    have unowned : (l.takeWhile P).filter (Probe.ofPanel k) = [] := List.filter_eq_nil_iff.mpr fun b hb => by
      simpa [Probe.ofPanel] using none b ((List.takeWhile_sublist P).subset hb)
    rw [List.filter_append, unowned, List.append_nil, (List.takeWhile_prefix P).eq_of_length all]
  · rfl

/-- The record of a panel with no point in the interval, after the probes and exits of the update. -/
theorem Stands.probed (st : Stands k q s) (no : ∀ x, q.awaits x → old < x → new < x) :
    Stands k (q.afterGone k (s.leaving k new)) (s.probed old new) := by
  obtain ⟨stands, l, probes, none⟩ := Untouched.createProbes (before := s.dose.probes)
    (pointBound s.pq.queue s.par.spacing) ⟨st, [], (List.append_nil _).symm, fun _ h => nomatch h⟩ no
  have exits := stands.exitProbes new
  rw [probes, filter_takeWhile_append _ l none] at exits
  exact exits

/-- The panel of O25 at the stage where panels become DONE. -/
theorem QueueOk.stands_probed {ticks : Ticks} {a : Int} (ok : QueueOk s) (mem : q ∈ s.pq.queue) (h : q.dose = some d)
    (arrival : q.arrival = some a) (arrived : q.arrived = true) (printed : q.state ≠ .printing) (open_ : q.state ≠ .done)
    (next : d.next = none) (final : d.final = false) (forward : s.pp < new) :
    Stands q.tag (q.afterGone q.tag (s.leaving q.tag new))
      ((((s.ranged ticks).tracked s.pp new).reached new).probed s.pp new) := by
  have reached := ok.stands_reached (ticks := ticks) mem arrival arrived printed (ok.stands mem open_) forward
  have probes : State.dose (((s.ranged ticks).tracked s.pp new).reached new) = s.dose := by
    rw [show State.dose (State.reached _ _) = _ from reached_keeps new _ .dose (by decide),
      show State.dose (State.tracked _ _ _) = _ from tracked_keeps s.pp new _ .dose (by decide)]
    exact ranged_keeps ticks s .dose (by decide)
  have stands := reached.probed (old := s.pp) (new := new) fun x awaits => absurd awaits (not_awaits h next final x)
  unfold State.leaving at stands ⊢
  rwa [probes] at stands

/-- The stages of an update before verdicts change the entries in their references alone. -/
theorem probed_alike (ticks : Ticks) (s : State) (old new : Int) :
    RefsOnly s ((((s.ranged ticks).tracked old new).reached new).probed old new) :=
  refsOnly_trans (refsOnly_trans (refsOnly_trans (ranged_refsOnly ticks s) (tracked_refsOnly old new _))
    (reached_refsOnly new _)) (probed_refsOnly old new _)

theorem probed_par (ticks : Ticks) (s : State) (old new : Int) :
    State.par ((((s.ranged ticks).tracked old new).reached new).probed old new) = s.par := by
  rw [show State.par (State.probed _ _ _) = _ from probed_keeps old new _ .par (by decide),
    show State.par (State.reached _ _) = _ from reached_keeps new _ .par (by decide),
    show State.par (State.tracked _ _ _) = _ from tracked_keeps old new _ .par (by decide)]
  exact ranged_keeps ticks s .par (by decide)

theorem probed_clock (ticks : Ticks) (s : State) (old new : Int) :
    (State.cnt ((((s.ranged ticks).tracked old new).reached new).probed old new)).clock = s.cnt.clock := by
  rw [show State.cnt (State.probed _ _ _) = _ from probed_keeps old new _ .cnt (by decide),
    show State.cnt (State.reached _ _) = _ from reached_keeps new _ .cnt (by decide),
    show State.cnt (State.tracked _ _ _) = _ from tracked_keeps old new _ .cnt (by decide), ranged_cnt]

theorem offers_iff (v : Verdict) (f : CondFlags) : offers v f = true ↔ v ≠ .spoiled ∧ v ≠ .uncertain ∧ f.stopAffected = false
    ∧ f.nipOpen = false ∧ f.spliceAffected = false ∧ f.excluded = false ∧ f.sparse = false := by
  simp [offers, and_assoc]

/-- Settles O25: the table by `increment_eq` and `increment_range`, the verdict by `verdictOf_eq`; a panel with no probe
point left is carried by each stage of the update as it stands, but for the probes folded into it, and is then judged. -/
theorem doseArithmeticFollowsItsTables : Obligations.DoseArithmeticFollowsItsTables := by
  unfold Obligations.DoseArithmeticFollowsItsTables
  refine ⟨⟨fun k low high => ⟨increment_eq low, increment_range low high⟩, by decide +kernel, by decide +kernel,
    by decide +kernel⟩, fun p d e => verdictOf_eq p d e, ?_⟩
  intro ticks s ok new forward q mem d h a arrival arrived printed open_ reaches next final _
  refine ⟨_, rfl, ?_⟩
  have stands := ok.stands_probed (ticks := ticks) mem h arrival arrived printed open_ next final forward
  have alike := Alike.of_refs (probed_alike ticks s s.pp new q.profile)
  have clock := probed_clock ticks s s.pp new
  have armed := ok.notArmed mem ticks s.pp new
  have par := probed_par ticks s s.pp new
  rw [show tickBatch .paper ticks s = _ from tickBatch_forward forward]
  generalize (((s.ranged ticks).tracked s.pp new).reached new).probed s.pp new = u at stands alike clock armed par
  have dose : (q.afterGone q.tag (s.leaving q.tag new)).dose = some (d.after (s.leaving q.tag new) q.tag) := by
    unfold Panel.afterGone
    rw [h]
    rfl
  have trailing : (q.afterGone q.tag (s.leaving q.tag new)).trailing + u.par.arcLen ≤ new := by
    show q.arrival.getD 0 + q.length + _ ≤ new
    rw [arrival, par]
    exact reaches
  obtain ⟨r, -, same, judged⟩ := stands.judged open_ dose trailing
  rw [same printed] at judged
  have left := decide_left judged (by simp [State.judging]) armed
  rw [clock, Alike.judging (q := q.afterGone q.tag (s.leaving q.tag new)) alike] at left
  intro gone d' v f affected q'
  have offered : offers v f = decide (v ≠ .spoiled ∧ v ≠ .uncertain ∧ ¬affected) := by
    rw [Bool.eq_iff_iff, offers_iff, decide_eq_true_eq]
    simp [affected]
  have record : s.judging (q.afterGone q.tag gone) d' (q.afterGone q.tag gone) = q' :=
    congrArg (fun o => { q with
      state := .done, verdict := some v, dose := some { d' with capHeld := false }, flags := f, offered := o }) offered
  rw [record] at left
  cases left with
  | waits _ mem _ waits => exact .inl ⟨mem, waits⟩
  | retired gone report => exact .inr ⟨gone, report⟩

end Sys2Proof.Machine
end

