-- ==== Sys2Proof/Proofs/Learning.lean ====
section
/-! PROOF. What a count update of PP teaches the profile entries (06 R108, R109, 04 R70). -/

namespace Sys2Proof.Machine
open Sys2Proof

variable {k m : Nat} {q : Panel} {s : State} {new : Int}

/-! ## The panels that an update makes DONE -/

theorem flushReport_subset (d : Option Dir) (s : State) : ∀ p ∈ (flushReport d s).pq.queue, p ∈ s.pq.queue := by
  intro p hp
  cases flushReport_flushed d s with
  | stays e => rwa [e] at hp
  | retired _ _ _ _ _ _ _ pq => rw [pq] at hp; exact (mem_without.mp hp).1
  | dropped _ _ _ _ pq => rwa [pq] at hp

theorem becomeDone_subset (tag : Nat) (d : Option Dir) (s : State) :
    ∀ p ∈ (becomeDone tag d s).pq.queue, p ∈ s.pq.queue := flushReport_subset d _

theorem judgePanel_done {p : Panel} {d : DoseFields} (h : p.dose = some d) (s : State) :
    ∀ r ∈ (judgePanel p s).pq.queue, r.tag = p.tag → r.state = .done := by
  intro r hr tag
  rw [judgePanel_eq h] at hr
  have kept : r ∈ (State.pq (s.taught p d (updPanel p.tag (s.judging p d) s))).queue :=
    becomeDone_subset _ _ _ r hr
  rw [show State.pq (State.taught _ _ _ _) = _ from taught_keeps s p d _ .pq (by decide)] at kept
  obtain ⟨x, -, rfl⟩ := List.mem_map.mp kept
  split
  · rfl
  · next other =>
    rw [if_neg other] at tag
    exact absurd tag other

/-- The records of a dosed panel are DONE once it has become DONE. -/
theorem panelDone_done {k : Nat} {s : State} (once : (s.pq.queue.map Panel.tag).Nodup)
    (dosed : ∀ p ∈ s.pq.queue, p.tag = k → p.dose ≠ none) :
    ∀ p ∈ (panelDone k s).pq.queue, p.tag = k → p.state = .done := by
  intro p hp tag
  rw [panelDone_eq] at hp
  have late : Passes (fun _ => true) Panel.EndsPrint s (lateDeadline k s) := lateDeadline_passes Panel.EndsPrint.refl
    fun _ _ _ => id
  cases found : (lateDeadline k s).queued? k with
  | none =>
    rw [found] at hp
    exact absurd tag (by simpa using List.find?_eq_none.mp found p hp)
  | some r =>
    obtain ⟨mem, tag'⟩ := find_mem_tag found
    obtain ⟨q, hq, same, -, ends⟩ := passes_from late Panel.EndsPrint.refl Panel.EndsPrint.trans once r mem
    cases dose : r.dose with
    | none => exact absurd ((ends rfl).dose.symm.trans dose) (dosed q hq (same.symm.trans tag'))
    | some d =>
      rw [found] at hp
      exact judgePanel_done dose _ p hp (tag.trans tag'.symm)

/-- The panels that an update makes DONE are DONE after it, where they are still in the queue. -/
theorem judged_done (once : (s.pq.queue.map Panel.tag).Nodup) (mem : k ∈ doneAt s.pq.queue s.par.arcLen new) :
    ∀ p ∈ (s.judged new).pq.queue, p.tag = k → p.state = .done := by
  obtain ⟨before, after, e, first, rest⟩ := doneAt_split once mem
  have stays : ∀ (l : List Nat), k ∉ l → ∀ u : State, (u.pq.queue.map Panel.tag).Nodup →
      ((l.foldl (fun s tag => panelDone tag s) u).pq.queue.map Panel.tag).Nodup
      ∧ ∀ p ∈ (l.foldl (fun s tag => panelDone tag s) u).pq.queue, p.tag = k → p ∈ u.pq.queue := fun l h u once => by
    have pass := panelsDone_passes (K := (· == k)) (ρ := Eq) l (fun _ => rfl) (other_tag h) u
    refine ⟨passes_nodup pass once, fun p hp tag => ?_⟩
    obtain ⟨r, hr, tag', -, same⟩ := passes_from pass (fun _ => rfl) Eq.trans once p hp
    rw [← same (by simpa using tag'.symm.trans tag)]
    exact hr
  unfold State.judged
  rw [e, List.foldl_append, List.foldl_cons]
  obtain ⟨once', before'⟩ := stays before first s once
  have nodup := passes_nodup (panelDone_passes (K := fun _ => false) (ρ := Eq) (tag := k) (fun _ => rfl) rfl) once'
  intro p hp tag
  refine panelDone_done once' (fun r hr tag' none => ?_) p ((stays after rest _ nodup).2 p hp tag) tag
  obtain ⟨r', hr', tag'', dosed, -⟩ := mem_doneAt.mp mem
  rw [eq_of_tag once (before' r hr tag') hr' (tag'.trans tag''.symm)] at none
  rw [Panel.dosed, none] at dosed
  exact nomatch dosed

/-! ## Records traced back to the start of an update -/

theorem foldl_expireRecord_kept (s : State) (l : List Panel) (p : Panel) :
    (l.foldl (fun p q => s.expireRecord q p) p).state = p.state
    ∧ (l.foldl (fun p q => s.expireRecord q p) p).profile = p.profile := by
  induction l generalizing p with
  | nil => exact ⟨rfl, rfl⟩
  | cons q l ih =>
    obtain ⟨state, profile⟩ := ih (s.expireRecord q p)
    have one : (s.expireRecord q p).state = p.state ∧ (s.expireRecord q p).profile = p.profile := by
      unfold State.expireRecord
      split <;> exact ⟨rfl, rfl⟩
    exact ⟨state.trans one.1, profile.trans one.2⟩

theorem tracked_from {old new : Int} (h : old < new) (s : State) : ∀ p' ∈ (s.tracked old new).pq.queue, ∃ p ∈ s.pq.queue,
    p'.tag = p.tag ∧ p'.state = p.state ∧ p'.profile = p.profile := by
  rw [tracked_pq h]
  intro p' hp'
  obtain ⟨p, hp, rfl⟩ := List.mem_map.mp hp'
  exact ⟨p, hp, foldl_expireRecord_tag s _ p, foldl_expireRecord_kept s _ p⟩

theorem tracked_once {old new : Int} (h : old < new) {s : State} (once : (s.pq.queue.map Panel.tag).Nodup) :
    ((s.tracked old new).pq.queue.map Panel.tag).Nodup := by
  rw [tracked_pq h, List.map_map]
  rwa [show Panel.tag ∘ (fun p => (s.expired new).foldl (fun p q => s.expireRecord q p) p) = Panel.tag from
    funext (foldl_expireRecord_tag s _)]

/-- The record comes from one of its tag and profile, DONE if that is. -/
def Traced (p p' : Panel) : Prop := p'.profile = p.profile ∧ (p.state = .done → p'.state = .done)

theorem traced_refl (p : Panel) : Traced p p := ⟨rfl, id⟩

theorem Traced.trans {p q r : Panel} (h : Traced p q) (k : Traced q r) : Traced p r :=
  ⟨k.1.trans h.1, k.2 ∘ h.2⟩

/-- A record where panels become DONE, traced back to the start of the update. -/
theorem QueueOk.probed_from (ok : QueueOk s) (ticks : Ticks) (h : s.pp < new) :
    ((((((s.ranged ticks).tracked s.pp new).reached new).probed s.pp new)).pq.queue.map Panel.tag).Nodup
    ∧ ∀ p' ∈ ((((s.ranged ticks).tracked s.pp new).reached new).probed s.pp new).pq.queue,
        ∃ p ∈ s.pq.queue, p'.tag = p.tag ∧ Traced p p' := by
  have once := PanelQueue.TagsOnce.queue ok.tags
  let K : Nat → Bool := fun tag => decide (∀ t ∈ s.pq.live, t.tag ≠ tag)
  have free : ∀ t ∈ s.pq.live, K t.tag = false := fun t ht => decide_eq_false fun all => all t ht rfl
  have live : ∀ t ∈ ((s.ranged ticks).tracked s.pp new).pq.live, K t.tag = false := fun t ht => by
    rw [tracked_pq h] at ht
    exact free t (ranged_live ticks s t ht)
  have ranged : Passes K Traced s (s.ranged ticks) := ranged_passes ticks s fun t ht _ => free t ht
  have deadlines : Passes K Traced ((s.ranged ticks).tracked s.pp new)
      (deadlineUpdate new ((s.ranged ticks).tracked s.pp new)) :=
    passes_foldl (f := deadlineAt new) _ (fun _ t ht => deadlineAt_passes traced_refl (fun _ => live t ht)
      fun _ chosen => Bool.noConfusion ((live t ht).symm.trans chosen)) _
  have arrived : Passes K Traced _ (((s.ranged ticks).tracked s.pp new).reached new) :=
    passes_foldl (f := fun s tag => arrive tag (some .forward) s) _ (fun _ _ _ => arrive_passes traced_refl
      fun _ p p' a => ⟨by obtain ⟨_, _, _, _, _, -, -, rfl⟩ := a; rfl, a.done⟩) (deadlineUpdate new _)
  have doses : ∀ p p' : Panel, K p.tag = true → p.Dosed p' → Traced p p' := fun _ _ _ dosed => by
    obtain ⟨_, _, _, _, _, -, rfl⟩ := dosed
    exact ⟨rfl, id⟩
  have probed : Passes K Traced _ ((((s.ranged ticks).tracked s.pp new).reached new).probed s.pp new) :=
    (createProbes_passes traced_refl doses).trans (exitProbes_passes traced_refl doses)
  have later := (deadlines.trans arrived).trans probed
  have nodup := tracked_once h (passes_nodup ranged once)
  refine ⟨passes_nodup later nodup, fun p hp => ?_⟩
  obtain ⟨p₂, mem₂, tag₂, lasts₂, rel₂⟩ := passes_from later traced_refl Traced.trans nodup p hp
  obtain ⟨p₁, mem₁, tag₁, state₁, profile₁⟩ := tracked_from h _ p₂ mem₂
  obtain ⟨p₀, mem₀, tag₀, lasts₀, rel₀⟩ := passes_from ranged traced_refl Traced.trans once p₁ mem₁
  have tag : p.tag = p₀.tag := tag₂.trans (tag₁.trans tag₀)
  refine ⟨p₀, mem₀, tag, lasts₂.profile.trans (profile₁.trans lasts₀.profile), fun done => ?_⟩
  have chosen : K p₀.tag = true := decide_eq_true fun t ht same => by
    have phase := ok.phase mem₀ ht same
    rw [done] at phase
    revert phase
    cases t.phase <;> simp [Phase.panelState]
  exact (rel₂ (tag₁ ▸ tag₀ ▸ chosen)).2 (state₁.trans ((rel₀ chosen).2 done))

/-- The decision that ends an update places no panel that the update has made DONE. -/
theorem decided_done (once : (s.pq.queue.map Panel.tag).Nodup) (mem : k ∈ doneAt s.pq.queue s.par.arcLen new)
    (armed : NotArmed k (s.judged new)) : ∀ q ∈ (decide_ (s.judged new)).pq.queue, q.tag = k → q.state = .done := by
  have judged := judged_done once mem
  generalize s.judged new = u at judged armed
  intro q hq tag
  rcases decide_queue u with e | ⟨p, p', source, same, -, -, queue, -⟩
  · exact judged q (e ▸ hq) tag
  · rw [queue] at hq
    rcases List.mem_cons.mp ((insertPlaced_perm _ _).mem_iff.mp hq) with rfl | hq
    · rcases source with ⟨mem', queued⟩ | slot
      · exact absurd ((judged p mem' (same.symm.trans tag)).symm.trans queued) (by simp)
      · exact absurd (same.symm.trans tag) (armed p slot)
    · exact judged q (mem_without.mp hq).1 tag

/-- A panel that the update makes DONE was not DONE before it, and is in no other state after it. -/
theorem QueueOk.judged_tag (ok : QueueOk s) (ticks : Ticks) (h : s.pp < new) {u : State}
    (hu : (((s.ranged ticks).tracked s.pp new).reached new).probed s.pp new = u)
    (mem : k ∈ doneAt u.pq.queue u.par.arcLen new) :
    ∃ q ∈ s.pq.queue, q.tag = k ∧ (∀ p ∈ u.pq.queue, p.tag = k → q.profile = p.profile) ∧ q.state ≠ .done
      ∧ ∀ q' ∈ (decide_ (u.judged new)).pq.queue, q'.tag = k → q'.state = .done := by
  obtain ⟨once, from_⟩ := ok.probed_from ticks h
  rw [hu] at once from_
  obtain ⟨p, hp, tag, dosed, -⟩ := mem_doneAt.mp mem
  obtain ⟨q, hq, same, profile, done⟩ := from_ p hp
  have armed := ok.notArmed hq ticks s.pp new
  rw [hu, ← same, tag] at armed
  refine ⟨q, hq, same.symm.trans tag, fun r hr tag' => ?_, fun e => ?_, decided_done once mem armed⟩
  · rw [eq_of_tag once hr hp (tag'.trans tag.symm)]
    exact profile.symm
  · rw [Panel.dosed, done e] at dosed
    simp at dosed

/-! ## The entries -/

theorem panelsDone_entryKept (l : List Nat) {s : State} (once : (s.pq.queue.map Panel.tag).Nodup)
    (other : ∀ tag ∈ l, ∀ p ∈ s.pq.queue, p.tag = tag → p.profile ≠ m) :
    EntryKept m s (l.foldl (fun s tag => panelDone tag s) s) := by
  induction l generalizing s with
  | nil => exact entryKept_refl m s
  | cons tag l ih =>
    have pass : Passes (fun _ => false) Eq s (panelDone tag s) := panelDone_passes (fun _ => rfl) rfl
    refine (panelDone_entryKept once (other tag List.mem_cons_self)).trans (ih (passes_nodup pass once) ?_)
    intro tag' ht p hp e
    obtain ⟨r, hr, same, lasts, -⟩ := passes_from pass (fun _ => rfl) Eq.trans once p hp
    exact lasts.profile ▸ other tag' (List.mem_cons_of_mem _ ht) r hr (same.symm.trans e)

/-- The profile `m` is named by no panel that the update to `t` makes DONE, but by `k`. -/
def Unnamed (m : Nat) (k : Option Nat) (s t : State) : Prop := ∀ q ∈ s.pq.queue, q.profile = m →
  some q.tag = k ∨ q.state = .done ∨ ∃ q' ∈ t.pq.queue, q'.tag = q.tag ∧ q'.state ≠ .done

/-- A panel that becomes DONE and is not the one left out names another entry. -/
theorem QueueOk.names_other (ok : QueueOk s) (ticks : Ticks) (h : s.pp < new) {u : State} {except : Option Nat}
    (hu : (((s.ranged ticks).tracked s.pp new).reached new).probed s.pp new = u)
    (unnamed : Unnamed m except s (decide_ (u.judged new))) {tag : Nat} (mem : tag ∈ doneAt u.pq.queue u.par.arcLen new)
    (not : some tag ≠ except) : ∀ p ∈ u.pq.queue, p.tag = tag → p.profile ≠ m := by
  obtain ⟨q, hq, same, profile, open_, final⟩ := ok.judged_tag ticks h hu mem
  intro p hp tag' named
  rcases unnamed q hq ((profile p hp tag').trans named) with one | done | ⟨q', hq', same', open'⟩
  · exact not (same ▸ one)
  · exact open_ done
  · exact open' (final q' hq' (same'.trans same))

/-- An entry that no panel becoming DONE names. -/
theorem tickBatch_entryKept (ok : QueueOk s) (ticks : Ticks) (unnamed : Unnamed m none s (tickBatch .paper ticks s)) :
    EntryKept m s (tickBatch .paper ticks s) := by
  rcases Int.lt_trichotomy s.pp (s.cnt.chan.paper.take ticks).count with forward | still | reverse
  · rw [show tickBatch .paper ticks s = _ from tickBatch_forward forward] at unnamed ⊢
    have alike := probed_alike ticks s s.pp (s.cnt.chan.paper.take ticks).count
    have once := (ok.probed_from ticks forward).1
    generalize hu : (((s.ranged ticks).tracked s.pp (s.cnt.chan.paper.take ticks).count).reached
      (s.cnt.chan.paper.take ticks).count).probed s.pp (s.cnt.chan.paper.take ticks).count = u at unnamed alike once
    refine (alike.entry m).trans (.trans (panelsDone_entryKept _ once fun tag ht => ?_)
      ((refsOnly_of_keeps decide_keeps (by decide)).entry m))
    exact ok.names_other ticks forward hu unnamed ht nofun
  · rw [tickBatch_still still.symm]
    exact (ranged_refsOnly ticks s).entry m
  · rw [tickBatch_reverse reverse]
    exact (refsOnly_trans (refsOnly_trans (ranged_refsOnly ticks s) (tracked_refsOnly _ _ _))
      (refsOnly_of_keeps decide_keeps (by decide))).entry m

/-- The entry named by one panel that becomes DONE learns from it alone. -/
theorem Stands.judged_entry (st : Stands k q s) (printed : q.state ≠ .printing) (open_ : q.state ≠ .done) {d : DoseFields}
    (h : q.dose = some d) (reaches : q.trailing + s.par.arcLen ≤ new)
    (others : ∀ tag ∈ doneAt s.pq.queue s.par.arcLen new, tag ≠ k → ∀ p ∈ s.pq.queue, p.tag = tag → p.profile ≠ q.profile) :
    { (s.judged new).prf.entry q.profile with refs := 0 } =
      { (if offers (s.verdict q d) q.flags = true then (s.prf.entry q.profile).learn d.minima else s.prf.entry q.profile)
        with refs := 0 } := by
  have dosed : q.dosed = true := by simp [Panel.dosed, h, open_]
  obtain ⟨before, after, e, first, rest⟩ := doneAt_split st.once (mem_doneAt.mpr ⟨q, st.mem, st.tag, dosed, reaches⟩)
  have named : ∀ tag, tag ∈ before ∨ tag ∈ after → ∀ p ∈ s.pq.queue, p.tag = tag → p.profile ≠ q.profile := fun tag ht => by
    refine others tag (e ▸ ?_) ?_
    · rcases ht with ht | ht
      · exact List.mem_append_left _ ht
      · exact List.mem_append_right _ (List.mem_cons_of_mem _ ht)
    · rintro rfl
      exact ht.elim first rest
  have pass : Passes (fun _ => false) Eq s (before.foldl (fun s tag => Machine.panelDone tag s) s) :=
    panelsDone_passes before (fun _ => rfl) (fun _ _ => rfl) s
  have before' : EntryKept q.profile s (before.foldl (fun s tag => Machine.panelDone tag s) s) :=
    panelsDone_entryKept before st.once fun tag ht => named tag (.inl ht)
  have kept := st.kept (panelsDone_passes before (fun _ => rfl) (other_tag first) s)
  unfold State.judged
  rw [e, List.foldl_append, List.foldl_cons]
  generalize before.foldl (fun s tag => Machine.panelDone tag s) s = u at pass before' kept
  have pass' := pass.trans (panelDone_passes (K := fun _ => false) (tag := k) (fun _ => rfl) rfl)
  have after' : EntryKept q.profile (Machine.panelDone k u)
      (after.foldl (fun s tag => Machine.panelDone tag s) (Machine.panelDone k u)) :=
    panelsDone_entryKept after (passes_nodup pass' st.once) fun tag ht p hp e => by
      obtain ⟨r, hr, same, lasts, -⟩ := passes_from pass' (fun _ => rfl) Eq.trans st.once p hp
      exact lasts.profile ▸ named tag (.inr ht) r hr (same.symm.trans e)
  refine Eq.trans after' ?_
  obtain ⟨r, -, same, -, judge⟩ := kept.panelDone
  have late : (lateDeadline k u).prf = u.prf := lateDeadline_keeps .prf (by decide)
  rw [judge, same printed, judgePanel_taught h, late]
  have verdict : (lateDeadline k u).verdict q d = s.verdict q d :=
    (congrArg (fun t : Profiles => verdictOf q d (t.entry q.profile)) late).trans ((Alike.of_refs before').verdictOf q d)
  rw [verdict]
  simp only [and_true]
  split
  · exact (learn_refs _ _ 0).symm.trans ((congrArg (fun e : Entry => e.learn d.minima) before').trans (learn_refs _ _ 0))
  · exact before'

/-- Settles O31: the learning update by its case equations; at a count update of PP the entries change, but for their
references, where a panel becomes DONE alone, and each panel that does is traced back to its record before the update. -/
theorem learningKeepsTheTrimsInRange : Obligations.LearningKeepsTheTrimsInRange := by
  unfold Obligations.LearningKeepsTheTrimsInRange
  refine ⟨fun e offer => ⟨learn_still, learn_keeps e offer, fun on => ⟨learn_learned on, fun z => ?_⟩,
    fun range z => learn_range (range z)⟩, fun ticks s ok => ⟨_, rfl, fun m unnamed => ?_⟩, ?_⟩
  · cases named : offer.get z with
    | none => exact learn_unnamed named
    | some x =>
      rw [learn_named on named]
      refine ⟨?_, learnTrim_range _ _ _⟩
      unfold learnTrim learnGoal learnDelta
      rw [clamp_eq_max_min (by decide), clamp_eq_max_min (by decide), clamp_eq_max_min (by decide)]
      rfl
  · exact tickBatch_entryKept ok ticks fun q hq name => .inr (unnamed q hq name)
  · intro ticks s ok new forward q mem d h a arrival arrived printed open_ reaches next final _
    refine ⟨_, rfl, ?_⟩
    intro gone d' v f offering unnamed
    have stands := ok.stands_probed (ticks := ticks) mem h arrival arrived printed open_ next final forward
    have alike := probed_alike ticks s s.pp new q.profile
    have par := probed_par ticks s s.pp new
    rw [show tickBatch .paper ticks s = _ from tickBatch_forward forward] at unnamed ⊢
    generalize hu : (((s.ranged ticks).tracked s.pp new).reached new).probed s.pp new = u at stands alike par unnamed
    have dose : (q.afterGone q.tag gone).dose = some d' := by
      unfold Panel.afterGone
      rw [h]
      rfl
    have trailing : (q.afterGone q.tag gone).trailing + u.par.arcLen ≤ new := by
      show q.arrival.getD 0 + q.length + _ ≤ new
      rw [arrival, par]
      exact reaches
    have taught := stands.judged_entry printed open_ dose trailing fun tag ht other =>
      ok.names_other ticks forward (except := some q.tag) hu (fun p hp named =>
        (unnamed p hp named).imp (congrArg some) id) ht fun e => other (Option.some.inj e)
    have prf : State.prf (decide_ (u.judged new)) = (u.judged new).prf := decide_keeps .prf (by decide)
    have verdict : u.verdict (q.afterGone q.tag gone) d' = v := (Alike.of_refs alike).verdictOf _ d'
    rw [verdict] at taught
    rw [prf]
    refine (show _ = { (if offers v f = true then (u.prf.entry q.profile).learn d'.minima else u.prf.entry q.profile) with
      refs := 0 } from taught).trans ?_
    have offered : offers v f = true ↔ offering := offers_iff v f
    have learnt : ∀ e e' : Entry, { e' with refs := 0 } = { e with refs := 0 } →
        { e'.learn d'.minima with refs := 0 } = { e.learn d'.minima with refs := 0 } := fun e e' same =>
      (learn_refs _ _ 0).symm.trans ((congrArg (fun e : Entry => e.learn d'.minima) same).trans (learn_refs _ _ 0))
    by_cases yes : offering
    · rw [if_pos yes, if_pos (offered.mpr yes)]
      exact learnt _ _ alike
    · rw [if_neg yes, if_neg fun e => yes (offered.mp e)]
      exact alike

end Sys2Proof.Machine
end

