-- ==== Sys2Proof/Proofs/ArrivalFields.lean ====
section
/-! SUPPORT. The dose fields set with an arrival (04 R63, R64), and the records through an arrival at a mark (08 R138, R145). -/

namespace Sys2Proof.Machine
open Sys2Proof

/-! ## The fields -/

theorem doseFieldsAt_passed (pp a length spacing : Int) : (doseFieldsAt pp a length spacing).2 = decide (a ≤ pp) := rfl

theorem doseFieldsAt_eq (pp a length spacing : Int) : (doseFieldsAt pp a length spacing).1 =
    { next := (doseFieldsAt pp a length spacing).1.next, final := decide (pp < a + length), folds := 0,
      minima := ⟨none, none, none, none, none, none⟩, maximum := none, uncertain := false, capHeld := false } := rfl

/-- The point is one of a panel, above PP. -/
def PointAbove (pp a length spacing n : Int) : Prop :=
  pp < n ∧ (a ≤ n ∧ n < a + length ∧ (n - a) % spacing = 0 ∨ n = a + length)

/-- The least multiple of the spacing above PP is the first point on the panel that lies above it. -/
theorem first_spaced {pp a spacing : Int} (hs : 0 < spacing) (ha : a ≤ pp) :
    pp < a + ((pp - a) / spacing + 1) * spacing ∧ a ≤ a + ((pp - a) / spacing + 1) * spacing
    ∧ (a + ((pp - a) / spacing + 1) * spacing - a) % spacing = 0
    ∧ ∀ n, pp < n → (n - a) % spacing = 0 → a + ((pp - a) / spacing + 1) * spacing ≤ n := by
  have above := Int.lt_ediv_add_one_mul_self (pp - a) hs
  refine ⟨by omega, by omega, ?_, fun n hn spaced => ?_⟩
  · rw [add_sub_cancel_left, Int.mul_emod_left]
  · have multiple : (n - a) / spacing * spacing = n - a := Int.ediv_mul_cancel (Int.dvd_of_emod_eq_zero spaced)
    have quotient : (pp - a) / spacing < (n - a) / spacing := by
      refine Int.ediv_lt_of_lt_mul hs ?_
      omega
    have := Int.mul_le_mul_of_nonneg_right (show (pp - a) / spacing + 1 ≤ (n - a) / spacing by omega) (Int.le_of_lt hs)
    omega

/-- The next point set with an arrival is the least above PP. -/
theorem doseFieldsAt_least {pp a length spacing : Int} (hs : 0 < spacing) :
    LeastPoint (doseFieldsAt pp a length spacing).1.next (PointAbove pp a length spacing) := by
  by_cases ahead : pp < a + length
  · have next : ∀ first : Int, (pp < a → first = a) → (a ≤ pp → first = a + ((pp - a) / spacing + 1) * spacing) →
        LeastPoint (some (min first (a + length))) (PointAbove pp a length spacing) := fun first early late => by
      have point : pp < first ∧ a ≤ first ∧ (first - a) % spacing = 0
          ∧ ∀ n, pp < n → a ≤ n → (n - a) % spacing = 0 → first ≤ n := by
        rcases Int.lt_or_le pp a with before | passed
        · rw [early before]
          exact ⟨before, Int.le_refl a, by rw [Int.sub_self, Int.zero_emod], fun _ _ le _ => le⟩
        · rw [late passed]
          obtain ⟨above, on, spaced, least⟩ := first_spaced hs passed
          exact ⟨above, on, spaced, fun n hn _ => least n hn⟩
      obtain ⟨above, on, spaced, least⟩ := point
      refine ⟨fun x e => ?_, nofun⟩
      rw [← Option.some.inj e]
      refine ⟨⟨by omega, ?_⟩, fun y hy => ?_⟩
      · rcases Int.lt_or_le first (a + length) with short | beyond
        · rw [Int.min_eq_left (Int.le_of_lt short)]
          exact .inl ⟨on, short, spaced⟩
        · exact .inr (Int.min_eq_right beyond)
      · rcases hy.2 with ⟨le, -, mult⟩ | e
        · have := least y hy.1 le mult
          omega
        · omega
    have e : (doseFieldsAt pp a length spacing).1.next =
        some (min (if pp < a then a else a + ((pp - a) / spacing + 1) * spacing) (a + length)) :=
      if_pos (decide_eq_true ahead)
    rw [e]
    exact next _ (fun h => if_pos h) fun h => if_neg (Int.not_lt.mpr h)
  · have e : (doseFieldsAt pp a length spacing).1.next = none := if_neg (by simpa using ahead)
    rw [e]
    refine LeastPoint.none.congr fun n => ⟨False.elim, ?_⟩
    rintro ⟨above, ⟨-, short, -⟩ | rfl⟩
    · omega
    · exact ahead above

theorem doseFieldsAt_fresh {pp a length spacing : Int} (hs : 0 < spacing) :
    FreshDose pp a length spacing (doseFieldsAt pp a length spacing).1 :=
  ⟨fun _ => (doseFieldsAt_least hs).some_iff, doseFieldsAt_eq pp a length spacing⟩

/-- No point set with an arrival is one that PP has reached. -/
theorem fresh_awaits {p : Panel} {pp a length spacing : Int} (hs : 0 < spacing)
    (dose : p.dose = some (doseFieldsAt pp a length spacing).1) (trailing : p.trailing = a + length) {x : Int}
    (h : p.awaits x) : pp < x := by
  obtain ⟨d, e, point⟩ := h
  cases Option.some.inj (dose.symm.trans e)
  rcases point with next | ⟨final, rfl⟩
  · exact ((doseFieldsAt_least hs).least x next).1.1
  · rw [trailing]
    exact of_decide_eq_true final

/-! ## Records mapped by arrivals -/

/-- Every record of the queue is left in its place, having arrived or not. -/
def Arrivals (s t : State) : Prop := ∃ g : Panel → Panel, t.pq.queue = s.pq.queue.map g ∧ ∀ p : Panel, p.Arrives (g p)

theorem arrivals_of_pq {s t : State} (h : t.pq = s.pq) : Arrivals s t :=
  ⟨id, by rw [h, List.map_id], Panel.Arrives.refl⟩

theorem Arrivals.trans {s t u : State} (h : Arrivals s t) (k : Arrivals t u) : Arrivals s u := by
  obtain ⟨g, e, arrives⟩ := h
  obtain ⟨f, e', arrives'⟩ := k
  exact ⟨f ∘ g, by rw [e', e, List.map_map], fun p => (arrives p).trans (arrives' (g p))⟩

theorem arrivals_updPanel {tag : Nat} {f : Panel → Panel} {s : State} (h : ∀ p : Panel, p.Arrives (f p)) :
    Arrivals s (updPanel tag f s) :=
  ⟨fun p => if p.tag = tag then f p else p, rfl, fun p => by
    dsimp only
    split
    · exact h p
    · exact .refl p⟩

theorem rejectTrigger_arrivals {tag : Nat} {a : Int} {d : Option Dir} {s : State} :
    Arrivals s (rejectTrigger tag a d s) := by
  unfold rejectTrigger
  split
  · refine arrivals_of_pq ?_
    rw [show State.pq (resolveSlot _ _ _ _) = _ from resolveSlot_keeps .pq (by decide)]
    exact setTrigSlot_keeps .pq (by decide)
  · refine .trans (arrivals_updPanel (f := fun p => { p with flags := { p.flags with rejectUnmarked := true } })
      fun p => ?_) (arrivals_of_pq (warn_keeps .pq (by decide)))
    exact ⟨p.state, p.flags.fabricMismatch, p.flags.spliceAffected, true, p.arrived, id, .inl rfl, rfl⟩

theorem fabricCheck_arrivals {p : Panel} {s : State} : Arrivals s (fabricCheck p s) := by
  unfold fabricCheck
  dsimp only
  split
  · exact arrivals_of_pq rfl
  · refine .trans (arrivals_updPanel (f := fun p => { p with flags := { p.flags with fabricMismatch := true } })
      fun p => ?_) (arrivals_of_pq (warn_keeps .pq (by decide)))
    exact ⟨p.state, true, p.flags.spliceAffected, p.flags.rejectUnmarked, p.arrived, id, .inl rfl, rfl⟩

theorem arrive_arrivals {tag : Nat} {d : Option Dir} {s : State} : Arrivals s (arrive tag d s) := by
  have came : ∀ u : State, Arrivals u (updPanel tag (fun p =>
      { p with
        arrived := true
        flags := { p.flags with spliceAffected := p.flags.spliceAffected || u.trg.spliceAtNip }
        state := if p.state = .printed || p.state = .spoiled then .inArc else p.state }) u) := fun u =>
    arrivals_updPanel fun p =>
      ⟨_, p.flags.fabricMismatch, _, p.flags.rejectUnmarked, true, fun _ => rfl, arrivesTo p, rfl⟩
  unfold arrive
  split
  · next p _ =>
    refine (fabricCheck_arrivals (p := p)).trans ?_
    generalize fabricCheck p s = u
    refine (came u).trans ?_
    dsimp only
    split
    · exact rejectTrigger_arrivals
    · exact arrivals_of_pq rfl
  · exact arrivals_of_pq rfl

theorem arriveReached_arrivals {d : Option Dir} {s : State} : Arrivals s (arriveReached d s) := by
  unfold arriveReached
  generalize arrivals s.pq.queue s.pp = l
  induction l generalizing s with
  | nil => exact arrivals_of_pq rfl
  | cons tag l ih => exact arrive_arrivals.trans ih

end Sys2Proof.Machine
end

