-- ==== Sys2Proof/Proofs/MarksFollowed.lean ====
section
/-! PROOF. Marks in windows, windows missed, and the arrivals they set (08 R135 to R143). -/

namespace Sys2Proof.Machine
open Sys2Proof

variable {k : Nat} {q : Panel} {s : State} {old new : Int}

/-! ## The tracker at a forward count update (08 R137, R140, R143) -/

theorem missStep_mrk (tag : Nat) (s : State) : (missStep tag s).mrk = { s.mrk with state := s.mrk.state.miss } := by
  unfold missStep
  dsimp only
  split
  · exact warn_keeps .mrk (by decide)
  · rfl

theorem missStep_lost {s : State} (tag : Nat) (holdover : s.mrk.state = .holdover) :
    Noticed (.warning (.markLost s.mrk.slip tag)) s (missStep tag s) := by
  unfold missStep
  dsimp only
  rw [if_pos holdover]
  exact (notice_noticed _ _).before rfl

theorem expirePanel_mrk (s : State) (q : Panel) :
    (expirePanel s q).mrk = if q.hasWindow then { s.mrk with state := s.mrk.state.miss } else s.mrk := by
  unfold expirePanel
  dsimp only
  split
  · exact missStep_mrk _ _
  · rfl

/-- Each panel with a window is a miss step. -/
theorem foldl_expirePanel_mrk (l : List Panel) (s : State) : (l.foldl expirePanel s).mrk =
    { s.mrk with state := TrackState.miss^[l.countP Panel.hasWindow] s.mrk.state } := by
  induction l generalizing s with
  | nil => rfl
  | cons q l ih =>
    rw [List.foldl_cons, ih, expirePanel_mrk]
    cases window : q.hasWindow
    · rw [List.countP_cons_of_neg (by simp [window])]; rfl
    · rw [List.countP_cons_of_pos window]; rfl

theorem miss_iterate (n : Nat) (x : TrackState) :
    TrackState.miss^[n] x = if n = 0 then x else if n = 1 ∧ x = .locked then .holdover else .unlocked := by
  have fixed : ∀ n, TrackState.miss^[n] .unlocked = .unlocked := Function.iterate_fixed rfl
  match n with
  | 0 => rfl
  | 1 => cases x <;> rfl
  | n + 2 =>
    have twice : TrackState.miss (TrackState.miss x) = .unlocked := by cases x <;> rfl
    rw [Function.iterate_add_apply, show TrackState.miss^[2] x = _ from twice, fixed]
    simp

/-- The windows that end are those of the slip, whatever the high point. -/
theorem expired_high (s : State) (new : Int) :
    (s.upMrk fun m => { m with high := max m.high new }).expired new = s.expired new := rfl

theorem markUpdate_mrk (forward : old < new) (s : State) : (markUpdate old new s).mrk = { s.mrk with
    high := max s.mrk.high new
    state := TrackState.miss^[(s.expired new).countP Panel.hasWindow] s.mrk.state } := by
  unfold markUpdate
  rw [if_pos forward, show State.mrk (resolveAnchors _ _ _) = _ from resolveAnchors_keeps .mrk (by decide)]
  dsimp only
  rw [foldl_expirePanel_mrk, expired_high]
  rfl

theorem tracked_mrk (forward : old < new) (s : State) : (s.tracked old new).mrk = { s.mrk with
    high := max s.mrk.high new
    state := TrackState.miss^[(s.expired new).countP Panel.hasWindow] s.mrk.state } := by
  have kept := crossed_keeps old new s
  have moved : (s.tracked old new).mrk = State.mrk (markUpdate old new _) := seekUpdate_keeps .mrk (by decide)
  rw [moved, markUpdate_mrk forward]
  generalize judgeWindows .paper old new (fireCrossed .paper old new s) = u at kept
  have mrk : u.mrk = s.mrk := kept .mrk (by decide)
  rw [mrk, expired_congr new (kept .pq (by decide)) (kept .par (by decide)) (congrArg Marks.slip mrk)]

theorem tracked_mrk_reverse (reverse : new < old) (s : State) : (s.tracked old new).mrk =
    if new < s.mrk.high - s.par.wM then { s.mrk with state := .unlocked } else s.mrk := by
  have kept := crossed_keeps old new s
  have moved : (s.tracked old new).mrk = State.mrk (markUpdate old new _) := seekUpdate_keeps .mrk (by decide)
  rw [moved]
  generalize judgeWindows .paper old new (fireCrossed .paper old new s) = u at kept
  rw [← show u.mrk = s.mrk from kept .mrk (by decide), ← show u.par = s.par from kept .par (by decide)]
  unfold markUpdate
  rw [if_neg (Int.not_lt.mpr (Int.le_of_lt reverse))]
  split <;> rfl

/-- A panel is in MISSED where its window, or its would-be one, ends. -/
theorem expired_countP (new : Int) (s : State) : (s.expired new).countP Panel.hasWindow =
    s.pq.queue.countP fun q => q.hasWindow && (q.xs.any fun x => decide (s.markCentre x + s.par.wM < new)) := by
  unfold State.expired
  rw [(sortBy_perm _ _).countP_eq, List.countP_filter]
  refine List.countP_congr fun q _ => ?_
  unfold Panel.hasWindow
  cases q.xs <;> cases q.travelling <;> cases q.expectsMark <;> cases q.markResult <;> simp

/-- A lone miss in HOLDOVER is warned of (08 R137). -/
theorem tracked_lost (forward : old < new) (holdover : s.mrk.state = .holdover)
    (one : (s.expired new).countP Panel.hasWindow = 1) (mem : q ∈ s.expired new) (window : q.hasWindow = true) :
    Noticed (.warning (.markLost s.mrk.slip q.tag)) s (s.tracked old new) := by
  have lost : ∀ (l : List Panel) (u : State), u.mrk.state = .holdover → l.countP Panel.hasWindow = 1 → q ∈ l →
      Noticed (.warning (.markLost u.mrk.slip q.tag)) u (l.foldl expirePanel u) := by
    intro l
    induction l with
    | nil => exact fun _ _ _ h => nomatch h
    | cons p l ih =>
      intro u hold one mem
      have runs : ∀ v : State, TellsOn v (l.foldl expirePanel v) := fun v =>
        (runs_foldl (b := false) (fun _ _ => expirePanel_runs) l v).tellsOn
      have clock : (expirePanel u p).cnt.clock = u.cnt.clock := (expirePanel_runs (b := false)).tellsOn.clock
      rw [List.foldl_cons]
      cases windowed : p.hasWindow with
      | false =>
        have mem' : q ∈ l := (List.mem_cons.mp mem).resolve_left fun e => by
          rw [e, windowed] at window
          exact nomatch window
        rw [List.countP_cons_of_neg (by simp [windowed])] at one
        have same : (expirePanel u p).mrk = u.mrk := by rw [expirePanel_mrk, windowed]; rfl
        have next := ih (expirePanel u p) (by rw [same]; exact hold) one mem'
        rw [same] at next
        exact next.before clock
      | true =>
        rw [List.countP_cons_of_pos windowed] at one
        have e : q = p := (List.mem_cons.mp mem).resolve_right fun mem' => by
          have := List.countP_pos_iff.mpr ⟨q, mem', window⟩
          omega
        subst e
        refine Noticed.seen ?_ (runs _)
        unfold expirePanel
        dsimp only
        rw [if_pos windowed]
        exact (missStep_lost (s := setArrival q.tag (u.slipArrival (q.xs.getD 0)) (updPanel q.tag _ u)) q.tag hold).before rfl
  have kept := crossed_keeps old new s
  have moved : TellsOn (markUpdate old new (judgeWindows .paper old new (fireCrossed .paper old new s)))
      (s.tracked old new) := (seekUpdate_runs (b := false)).tellsOn
  refine Noticed.seen ?_ moved
  generalize judgeWindows .paper old new (fireCrossed .paper old new s) = u at kept
  have mrk : u.mrk = s.mrk := kept .mrk (by decide)
  have expired := expired_congr new (s := s) (kept .pq (by decide)) (kept .par (by decide)) (congrArg Marks.slip mrk)
  have clock : u.cnt.clock = s.cnt.clock := congrArg Counting.clock (kept .cnt (by decide))
  unfold markUpdate
  rw [if_pos forward]
  refine Noticed.seen ?_ (resolveAnchors_runs (b := false)).tellsOn
  rw [expired_high, expired]
  have warned := lost (s.expired new) (u.upMrk fun m => { m with high := max m.high new })
    (by rw [← holdover, ← mrk]; rfl) one mem
  rw [← mrk]
  exact warned.before clock

end Sys2Proof.Machine
end

