-- ==== Sys2Proof/Proofs/Windows.lean ====
section
/-! SUPPORT. A travelling panel through a forward count update of PP (08 R135 to R141, 04 R63, R64). -/

namespace Sys2Proof.Machine
open Sys2Proof

variable {k : Nat} {q : Panel} {s : State} {new : Int}

/-- What no piece of an update after the tracker changes of a record. -/
structure Panel.Marked (p p' : Panel) : Prop where
  length : p'.length = p.length
  arrival : p'.arrival = p.arrival
  result : p'.markResult = p.markResult
  missed : p'.flags.markMissed = p.flags.markMissed

/-- A record on its way, neither QUEUED nor DONE. -/
structure Panel.Goes (p p' : Panel) : Prop extends p.Marked p' where
  placed : p.state ≠ .queued → p'.state ≠ .queued
  open_ : p.state ≠ .done → p'.state ≠ .done

theorem Panel.Marked.trans {p q r : Panel} (h : p.Marked q) (k : q.Marked r) : p.Marked r :=
  ⟨k.length.trans h.length, k.arrival.trans h.arrival, k.result.trans h.result, k.missed.trans h.missed⟩

theorem Panel.Goes.trans {p q r : Panel} (h : p.Goes q) (k : q.Goes r) : p.Goes r :=
  ⟨h.toMarked.trans k.toMarked, k.placed ∘ h.placed, k.open_ ∘ h.open_⟩

theorem Panel.EndsPrint.goes {p p' : Panel} (h : p.EndsPrint p') : p.Goes p' := by
  obtain ⟨_, _, _, _, _, _, ends, rfl⟩ := h
  refine ⟨⟨rfl, rfl, rfl, rfl⟩, fun no => ?_, fun no => ?_⟩
  · rcases ends with rfl | rfl | rfl
    exacts [no, nofun, nofun]
  · rcases ends with rfl | rfl | rfl
    exacts [no, nofun, nofun]

theorem Panel.Arrives.goes {p p' : Panel} (h : p.Arrives p') : p.Goes p' := by
  obtain ⟨_, _, _, _, _, -, turns, rfl⟩ := h
  refine ⟨⟨rfl, rfl, rfl, rfl⟩, fun no => ?_, fun no => ?_⟩
  · rcases turns with rfl | ⟨rfl, -⟩
    exacts [no, nofun]
  · rcases turns with rfl | ⟨rfl, -⟩
    exacts [no, nofun]

theorem Panel.Dosed.goes {p p' : Panel} (h : p.Dosed p') : p.Goes p' := by
  obtain ⟨_, _, _, _, _, -, rfl⟩ := h
  exact ⟨⟨rfl, rfl, rfl, rfl⟩, id, id⟩

theorem Panel.Dosed.undosed {p p' : Panel} (h : p.Dosed p') (unset : p.dose = none) : p'.dose = none := by
  obtain ⟨_, _, _, _, _, undosed, rfl⟩ := h
  exact undosed unset

/-- The dose fields of a record, with the mark of a passed point. -/
def Panel.SameDose (p p' : Panel) : Prop := p'.dose = p.dose ∧ p'.flags.sparse = p.flags.sparse

theorem Panel.EndsPrint.sameDose {p p' : Panel} (h : p.EndsPrint p') : p.SameDose p' := by
  obtain ⟨_, _, _, _, _, _, -, rfl⟩ := h
  exact ⟨rfl, rfl⟩

theorem Panel.Arrives.sameDose {p p' : Panel} (h : p.Arrives p') : p.SameDose p' := by
  obtain ⟨_, _, _, _, _, -, -, rfl⟩ := h
  exact ⟨rfl, rfl⟩

theorem Panel.Goes.awaits {p p' : Panel} (h : p.Goes p') (dose : p'.dose = p.dose) {x : Int} (a : p'.awaits x) :
    p.awaits x := by
  unfold Panel.awaits Panel.trailing at *
  rwa [dose, h.arrival, h.length] at a

/-- PRINTING, PRINTED or SPOILED. -/
def PanelState.underway (x : PanelState) : Prop := x = .printing ∨ x = .printed ∨ x = .spoiled

theorem underway_not {x y : PanelState} (h : x.underway) (not : ¬ y.underway) : x ≠ y := fun e => not (e ▸ h)

/-- The record of a panel after the marks of an update. -/
def State.marked (s : State) (new : Int) (q : Panel) : Panel :=
  (s.expired new).foldl (fun p q => s.expireRecord q p) q

/-- A panel that was printed comes to the dose unit with what its mark has set. -/
theorem QueueOk.underway_reached (ok : QueueOk s) (mem : q ∈ s.pq.queue) (way : q.state.underway) (ticks : Ticks)
    (forward : s.pp < new) : Stands q.tag q (s.ranged ticks)
      ∧ ∃ p, Stands q.tag p (((s.ranged ticks).tracked s.pp new).reached new)
        ∧ ((s.ranged ticks).marked new q).Goes p ∧ ((s.ranged ticks).marked new q).SameDose p := by
  have starts : q.state ≠ .starting := underway_not way (by simp [PanelState.underway])
  have st := (ok.stands mem (underway_not way (by simp [PanelState.underway]))).ranged (ok.freeStarts mem starts) ticks
  refine ⟨st, ?_⟩
  obtain ⟨r, ends, st'⟩ := (st.tracked forward).deadlines_end new fun t ht tag => by
    rw [tracked_pq forward] at ht
    have phase := ok.phase mem (ranged_live ticks s t ht) tag
    cases e : t.phase with
    | awaitAccept => rw [e] at phase; exact absurd phase starts
    | printing => rfl
  obtain ⟨p, arrives, st''⟩ := st'.arrivals_any (some .forward)
  exact ⟨p, st'', ends.goes.trans arrives.goes, arrives.sameDose.1.trans ends.sameDose.1,
    arrives.sameDose.2.trans ends.sameDose.2⟩

/-- … and to where panels become DONE: with its dose fields as they were, where the update handles no point of it and no
probe of it is in the list. -/
theorem QueueOk.underway_probed (ok : QueueOk s) (mem : q ∈ s.pq.queue) (way : q.state.underway) (ticks : Ticks)
    (forward : s.pp < new) : ∃ p, Stands q.tag p ((((s.ranged ticks).tracked s.pp new).reached new).probed s.pp new)
      ∧ ((s.ranged ticks).marked new q).Goes p
      ∧ (((s.ranged ticks).marked new q).dose = none → p.dose = none)
      ∧ ((∀ x, ((s.ranged ticks).marked new q).awaits x → new < x) → (∀ b ∈ s.dose.probes, ∀ o ∈ b.owners, o.tag ≠ q.tag) →
          ((s.ranged ticks).marked new q).SameDose p) := by
  obtain ⟨-, r, st, goes, dose⟩ := ok.underway_reached mem way ticks forward
  by_cases still : (∀ x, ((s.ranged ticks).marked new q).awaits x → new < x)
      ∧ ∀ b ∈ s.dose.probes, ∀ o ∈ b.owners, o.tag ≠ q.tag
  · obtain ⟨ahead, none⟩ := still
    have stays := st.probed (old := s.pp) (new := new) fun x awaits _ => ahead x (goes.awaits dose.1 awaits)
    have probes : State.dose (((s.ranged ticks).tracked s.pp new).reached new) = s.dose := by
      rw [show State.dose (State.reached _ _) = _ from reached_keeps new _ .dose (by decide),
        show State.dose (State.tracked _ _ _) = _ from tracked_keeps s.pp new _ .dose (by decide)]
      exact ranged_keeps ticks s .dose (by decide)
    have gone : State.leaving (((s.ranged ticks).tracked s.pp new).reached new) q.tag new = [] := by
      unfold State.leaving
      rw [probes]
      exact List.filter_eq_nil_iff.mpr fun b hb => by
        simpa using none b ((List.takeWhile_sublist _).subset hb)
    rw [gone, afterGone_nil] at stays
    exact ⟨r, stays, goes, dose.1.trans, fun _ _ => dose⟩
  · obtain ⟨p, dosed, st'⟩ := st.passes ((createProbes_passes Panel.Dosed.refl fun _ _ _ => id).trans
      (exitProbes_passes Panel.Dosed.refl fun _ _ _ => id)) Panel.Dosed.refl Panel.Dosed.trans
    exact ⟨p, st', goes.trans dosed.goes, fun none => dosed.undosed (dose.1.trans none), fun ahead none => absurd ⟨ahead, none⟩ still⟩

/-- A panel that was printed, after the update. -/
theorem QueueOk.underway_after (ok : QueueOk s) (mem : q ∈ s.pq.queue) (way : q.state.underway) (ticks : Ticks)
    (forward : s.pp < (s.cnt.chan.paper.take ticks).count) :
    let new := (s.cnt.chan.paper.take ticks).count
    let m := (s.ranged ticks).marked new q
    ((m.dose ≠ none → new < m.trailing + s.par.arcLen) → ∃ q' ∈ (tickBatch .paper ticks s).pq.queue, q'.tag = q.tag)
    ∧ ∀ q' ∈ (tickBatch .paper ticks s).pq.queue, q'.tag = q.tag → m.Marked q'
      ∧ ((∀ x, m.awaits x → new < x) → (∀ b ∈ s.dose.probes, ∀ o ∈ b.owners, o.tag ≠ q.tag) →
          (∀ d, m.dose = some d → d.capHeld = false) → m.SameDose q') := by
  intro new m
  obtain ⟨p, st, goes, undosed, dose⟩ := ok.underway_probed mem way ticks forward
  have armed := ok.notArmed mem ticks s.pp new
  have par := probed_par ticks s s.pp new
  have way' : m.state.underway := by
    have state : m.state = q.state := (foldl_expireRecord_kept _ _ q).1
    rwa [state]
  have placed : p.state ≠ .queued := goes.placed (underway_not way' (by simp [PanelState.underway]))
  have open_ : p.state ≠ .done := goes.open_ (underway_not way' (by simp [PanelState.underway]))
  have trailing : p.trailing = m.trailing := by
    unfold Panel.trailing
    rw [goes.arrival, goes.length]
  rw [show tickBatch .paper ticks s = _ from tickBatch_forward forward]
  generalize (((s.ranged ticks).tracked s.pp new).reached new).probed s.pp new = u at st armed par
  by_cases done : p.dosed = true ∧ p.trailing + u.par.arcLen ≤ new
  · refine ⟨fun short => ?_, fun q' hq' tag => ?_⟩
    · have := short fun none => by
        rw [Panel.dosed, undosed none] at done
        exact nomatch done.1
      rw [trailing, par] at done
      omega
    · cases hd : p.dose with
      | none => rw [Panel.dosed, hd] at done; exact nomatch done.1
      | some d =>
        obtain ⟨r, ends, -, left⟩ := st.judged open_ hd done.2
        rw [(decide_left left (by simp [State.judging]) armed).eq q' hq' tag]
        have kept := goes.trans ends.goes
        refine ⟨⟨kept.length, kept.arrival, kept.result, kept.missed⟩, fun ahead none cap => ?_⟩
        obtain ⟨same, sparse⟩ := dose ahead none
        refine ⟨?_, ends.sameDose.2.trans sparse⟩
        have fields : m.dose = some d := same.symm.trans hd
        show some { d with capHeld := false } = m.dose
        rw [fields, ← cap d fields]
  · have stays := (st.judged_other (new := new) fun dosed => by
      by_contra short
      exact done ⟨dosed, by omega⟩).decide placed armed
    refine ⟨fun _ => ⟨p, stays.mem, stays.tag⟩, fun q' hq' tag => ?_⟩
    rw [stays.eq hq' tag]
    exact ⟨goes.toMarked, fun ahead none _ => dose ahead none⟩

end Sys2Proof.Machine
end

