-- ==== Sys2Proof/Proofs/GoodMarks.lean ====
section
/-! PROOF. Marks in windows, and the arrivals that marks and missed windows set (08 R135 to R143, 04 R63, R64). -/

namespace Sys2Proof.Machine
open Sys2Proof

variable {q : Panel} {s : State} {new : Int}

/-! ## Windows (08 R135, R136) -/

theorem expectsMark_iff {q : Panel} :
    q.expectsMark = true ↔ q.mark = true ∧ ¬(q.state = .spoiled ∧ q.printed = some (.len 0)) := by
  simp [Panel.expectsMark, imp_iff_not_or]

theorem hasWindow_iff {q : Panel} : q.hasWindow = true ↔
    (q.xs ≠ none ∧ q.state.underway ∧ q.arrival = none) ∧ q.expectsMark = true ∧ q.markResult = none := by
  unfold Panel.hasWindow PanelState.underway
  rw [← travelling_iff]
  simp [and_assoc]

theorem inWindow_iff {s : State} {p : Int} {q : Panel} : s.inWindow p q = true ↔
    ∃ x, q.xs = some x ∧ q.state.underway ∧ q.arrival = none ∧ q.markResult = none ∧ q.expectsMark = true
      ∧ s.markCentre x - s.par.wM ≤ p ∧ p ≤ s.markCentre x + s.par.wM := by
  unfold State.inWindow
  rw [Bool.and_eq_true, hasWindow_iff]
  cases q.xs with
  | none => simp
  | some x =>
    simp only [inRange, Bool.and_eq_true, decide_eq_true_eq, ne_eq, reduceCtorEq, not_false_eq_true, true_and,
      Option.some.injEq, exists_eq_left']
    tauto

/-! ## A good mark (08 R138) -/

/-- The arrival that a mark at `p` gives a panel placed at `xs`. -/
def State.markArrival (s : State) (xs p : Int) : Int :=
  xs + s.par.lPn + markCorrection (p - (xs + s.par.lMs)) s.par.lMs s.par.lPn

/-- The record of a good mark, before it may arrive. -/
def State.goodRecord (s : State) (xs p : Int) (q : Panel) : Panel :=
  { q with
    markResult := some (.error (p - (xs + s.par.lMs))), arrival := some (s.markArrival xs p)
    dose := some (doseFieldsAt s.pp (s.markArrival xs p) q.length s.par.spacing).1
    flags := { q.flags with sparse := q.flags.sparse || decide (s.markArrival xs p ≤ s.pp) } }

/-- The queue with the record of a good mark. -/
def State.withGoodMark (s : State) (tag : Nat) (xs p : Int) : State :=
  setArrival tag (s.markArrival xs p) (updPanel tag (fun q => { q with markResult := some (.error (p - (xs + s.par.lMs))) }) s)

/-- The triggers anchored to the panel of a good mark resolved. -/
def State.markResolved (s : State) (tag : Nat) (xs p : Int) : State :=
  resolveAnchors [(tag, s.markArrival xs p)] none (s.withGoodMark tag xs p)

theorem goodMark_eq (tag : Nat) (xs p : Int) (s : State) : goodMark tag xs p s =
    arriveReached none ((s.markResolved tag xs p).upMrk fun m =>
      m.good (markSlip (p - (xs + s.par.lMs)) (s.markResolved tag xs p).par.lMs) (s.markResolved tag xs p).par.gain
        (s.markResolved tag xs p).par.tol) := rfl

theorem markResolved_keeps (tag : Nat) (xs p : Int) (s : State) :
    Keeps [.trg, .flt, .free] (s.withGoodMark tag xs p) (s.markResolved tag xs p) := resolveAnchors_keeps

/-- A good mark leaves every record of its tag with what it sets, having arrived or not. -/
theorem goodMark_record (xs p : Int) (s : State) (mem : q ∈ s.pq.queue) :
    ∃ q' ∈ (goodMark q.tag xs p s).pq.queue, (s.goodRecord xs p q).Arrives q' := by
  have marked : s.goodRecord xs p q ∈ (s.withGoodMark q.tag xs p).pq.queue :=
    List.mem_map.mpr ⟨{ q with markResult := some (.error (p - (xs + s.par.lMs))) },
      List.mem_map.mpr ⟨q, mem, if_pos rfl⟩, if_pos rfl⟩
  have resolved : (s.markResolved q.tag xs p).pq = _ := markResolved_keeps q.tag xs p s .pq (by decide)
  rw [goodMark_eq]
  generalize s.markResolved q.tag xs p = u at resolved
  obtain ⟨g, queue, arrives⟩ := arriveReached_arrivals (d := none) (s := u.upMrk fun m =>
    m.good (markSlip (p - (xs + s.par.lMs)) u.par.lMs) u.par.gain u.par.tol)
  refine ⟨g (s.goodRecord xs p q), ?_, arrives _⟩
  rw [queue]
  refine List.mem_map_of_mem ?_
  show _ ∈ u.pq.queue
  rwa [resolved]

theorem goodMark_mrk (tag : Nat) (xs p : Int) (s : State) : (goodMark tag xs p s).mrk =
    s.mrk.good (markSlip (p - (xs + s.par.lMs)) s.par.lMs) s.par.gain s.par.tol := by
  have par : (s.markResolved tag xs p).par = s.par := markResolved_keeps tag xs p s .par (by decide)
  have mrk : (s.markResolved tag xs p).mrk = s.mrk := markResolved_keeps tag xs p s .mrk (by decide)
  rw [goodMark_eq, show State.mrk (arriveReached _ _) = _ from arriveReached_keeps .mrk (by decide), ← par, ← mrk]
  rfl

theorem markCapture_good (forward : s.cnt.chan.paper.dir = .forward)
    (found : s.pq.queue.find? (s.inWindow s.pp) = some q) : ∃ u : State, u.pq = s.pq ∧ u.par = s.par ∧ u.pp = s.pp
      ∧ u.mrk = s.mrk ∧ (markCapture s).pq = (goodMark q.tag (q.xs.getD 0) s.pp u).pq
      ∧ (markCapture s).mrk = (goodMark q.tag (q.xs.getD 0) s.pp u).mrk := by
  have judged : judgeMark (s.captureOf .paper) (s.upCnt fun k => { k with markCap := some (s.captureOf .paper) }) =
      goodMark q.tag (q.xs.getD 0) s.pp (s.upCnt fun k => { k with markCap := some (s.captureOf .paper) }) := by
    unfold judgeMark
    rw [if_neg (by rw [show Capture.dir _ = _ from forward]; simp)]
    split
    · next r hr =>
      cases Option.some.inj (hr.symm.trans found)
      rfl
    · next hr => exact nomatch hr.symm.trans found
  refine ⟨s.upCnt fun k => { k with markCap := some (s.captureOf .paper) }, rfl, rfl, rfl, rfl, ?_, ?_⟩
  · unfold markCapture
    dsimp only
    rw [show State.pq (captureEnds _ _ _) = _ from captureEnds_keeps .pq (by decide), judged]
  · unfold markCapture
    dsimp only
    rw [show State.mrk (captureEnds _ _ _) = _ from captureEnds_keeps .mrk (by decide), judged]

/-! ## The record of a panel whose window ends (08 R140, R141) -/

theorem marked_expired (once : (s.pq.queue.map Panel.tag).Nodup) (h : q ∈ s.expired new) :
    s.marked new q = s.expireRecord q q := foldl_expireRecord_own s (expired_once new once) h rfl

theorem marked_other (once : (s.pq.queue.map Panel.tag).Nodup) (mem : q ∈ s.pq.queue) (h : q ∉ s.expired new) :
    s.marked new q = q := foldl_expireRecord_other s fun _ hr tag =>
  h (eq_of_tag once (mem_expired.mp hr).1 mem tag ▸ hr)

/-- The dose fields set with an arrival are those of `fresh` in O11. -/
theorem fresh_of_sameDose {q p q' : Panel} {pp a spacing : Int} (hs : 0 < spacing)
    (dose : p.dose = some (doseFieldsAt pp a q.length spacing).1)
    (sparse : p.flags.sparse = (q.flags.sparse || decide (a ≤ pp))) (same : p.SameDose q') :
    (∃ d, q'.dose = some d ∧ FreshDose pp a q.length spacing d) ∧ q'.flags.sparse = (q.flags.sparse || decide (a ≤ pp)) :=
  ⟨⟨_, same.1.trans dose, doseFieldsAt_fresh hs⟩, same.2.trans sparse⟩

/-! ## A forward count update -/

/-- What the ends of windows need of the state is the same once the count has been taken. -/
theorem ranged_marks (ticks : Ticks) (s : State) :
    (s.ranged ticks).mrk = s.mrk ∧ (s.ranged ticks).markCentre = s.markCentre
    ∧ (s.ranged ticks).slipArrival = s.slipArrival ∧ (s.ranged ticks).par = s.par := by
  have mrk : (s.ranged ticks).mrk = s.mrk := ranged_keeps ticks s .mrk (by decide)
  have par : (s.ranged ticks).par = s.par := ranged_keeps ticks s .par (by decide)
  refine ⟨mrk, funext fun x => ?_, funext fun x => ?_, par⟩
  · unfold State.markCentre
    rw [mrk, par]
  · unfold State.slipArrival
    rw [mrk, par]

/-- The record of a travelling panel, where its window or would-be window ends. -/
theorem expireRecord_own {x : Int} (u : State) (hx : q.xs = some x) : u.expireRecord q q = { q with
    markResult := if q.hasWindow then some .missed else q.markResult
    arrival := some (u.slipArrival x), dose := some (doseFieldsAt u.pp (u.slipArrival x) q.length u.par.spacing).1
    flags := { q.flags with
      markMissed := q.flags.markMissed || q.hasWindow
      sparse := q.flags.sparse || decide (u.slipArrival x ≤ u.pp) } } := by
  have arrival : u.slipArrival (q.xs.getD 0) = u.slipArrival x := by rw [hx]; rfl
  unfold State.expireRecord
  rw [if_pos rfl, arrival]
  rfl

/-- A travelling panel after a forward count update: its window, or would-be window, has ended or not. -/
theorem QueueOk.travels_after (ok : QueueOk s) (mem : q ∈ s.pq.queue) (way : q.state.underway) (unset : q.arrival = none)
    {x : Int} (hx : q.xs = some x) (ticks : Ticks) (forward : s.pp < (s.cnt.chan.paper.take ticks).count) :
    let new := (s.cnt.chan.paper.take ticks).count
    let t := tickBatch .paper ticks s
    let a := s.slipArrival x
    let past := s.markCentre x + s.par.wM < new
    (past → new < a + q.length + s.par.arcLen → ∃ q' ∈ t.pq.queue, q'.tag = q.tag)
    ∧ ∀ q' ∈ t.pq.queue, q'.tag = q.tag →
      (q'.arrival ≠ none → 0 < s.par.spacing → (∀ b ∈ s.dose.probes, ∀ o ∈ b.owners, o.tag ≠ q.tag) →
        (∃ d, q'.dose = some d ∧ FreshDose new a q.length s.par.spacing d)
          ∧ q'.flags.sparse = (q.flags.sparse || decide (a ≤ new)))
      ∧ if past ∧ q.expectsMark = true ∧ q.markResult = none then
          q'.markResult = some .missed ∧ q'.flags.markMissed = true ∧ q'.arrival = some a
        else
          q'.markResult = q.markResult ∧ q'.flags.markMissed = q.flags.markMissed
          ∧ q'.arrival = if past ∧ ¬ q.expectsMark = true then some a else none := by
  intro new t a past
  obtain ⟨st, -⟩ := ok.underway_reached mem way ticks forward
  obtain ⟨stays, after⟩ := ok.underway_after mem way ticks forward
  obtain ⟨-, centre, slip, par⟩ := ranged_marks ticks s
  have travels : q.travelling = true := travelling_iff.mpr ⟨by simp [hx], way, unset⟩
  have window : q.hasWindow = true ↔ q.expectsMark = true ∧ q.markResult = none := by
    rw [hasWindow_iff]
    exact and_iff_right ⟨by simp [hx], way, unset⟩
  have expired : q ∈ (s.ranged ticks).expired new ↔ past ∧ (q.hasWindow = true ∨ q.expectsMark = false) := by
    rw [mem_expired, centre, par, hx]
    constructor
    · rintro ⟨-, -, ends, y, e, beyond⟩
      cases e
      exact ⟨beyond, ends⟩
    · exact fun ⟨beyond, ends⟩ => ⟨st.mem, travels, ends, x, rfl, beyond⟩
  by_cases ends : q ∈ (s.ranged ticks).expired new
  · obtain ⟨beyond, why⟩ := expired.mp ends
    have marked := (marked_expired st.once ends).trans (expireRecord_own _ hx)
    rw [slip, par, ranged_pp] at marked
    have spaced : ((s.ranged ticks).marked new q).trailing = a + q.length := by rw [marked]; rfl
    have dose : ((s.ranged ticks).marked new q).dose = some (doseFieldsAt new a q.length s.par.spacing).1 := by rw [marked]
    refine ⟨fun _ short => stays fun _ => by rw [spaced]; exact short, fun q' hq' tag => ⟨fun _ hs none => ?_, ?_⟩⟩
    · refine fresh_of_sameDose hs dose (by rw [marked]) ((after q' hq' tag).2 (fun y awaits => ?_) none fun d e => ?_)
      · exact fresh_awaits hs dose spaced awaits
      · rw [dose] at e
        cases e
        rfl
    · obtain ⟨-, arrival, result, missed⟩ := (after q' hq' tag).1
      rw [marked] at arrival result missed
      split
      · next h =>
        have windowed := window.mpr h.2
        rw [windowed] at result missed
        exact ⟨result, missed.trans (Bool.or_true _), arrival⟩
      · next h =>
        have no : ¬ q.hasWindow = true := fun w => h ⟨beyond, window.mp w⟩
        have unmarked : ¬ q.expectsMark = true := by simpa using why.resolve_left no
        rw [Bool.eq_false_iff.mpr no] at result missed
        rw [if_pos ⟨beyond, unmarked⟩]
        exact ⟨result, missed.trans (Bool.or_false _), arrival⟩
  · have marked := marked_other st.once st.mem ends
    refine ⟨fun _ _ => stays fun dosed => ?_, fun q' hq' tag => ?_⟩
    · rw [marked] at dosed
      exact absurd ((ok.measured q mem).mp unset) dosed
    · obtain ⟨-, arrival, result, missed⟩ := (after q' hq' tag).1
      rw [marked] at arrival result missed
      have none : q'.arrival = none := arrival.trans unset
      refine ⟨fun some => absurd none some, ?_⟩
      split
      · next h => exact absurd (expired.mpr ⟨h.1, .inl (window.mpr h.2)⟩) ends
      · rw [if_neg fun h => ends (expired.mpr ⟨h.1, .inr (by simpa using h.2)⟩)]
        exact ⟨result, missed, none⟩

/-- The windows missed at an update, in the words of O11. -/
theorem missed_iff {new : Int} {q : Panel} : (q.hasWindow && q.xs.any fun x => decide (s.markCentre x + s.par.wM < new)) = true ↔
    ((q.state = .printing ∨ q.state = .printed ∨ q.state = .spoiled) ∧ q.arrival = none)
    ∧ (q.mark = true ∧ ¬(q.state = .spoiled ∧ q.printed = some (.len 0))) ∧ q.markResult = none
    ∧ ∃ x, q.xs = some x ∧ s.markCentre x + s.par.wM < new := by
  rw [Bool.and_eq_true, hasWindow_iff, expectsMark_iff, Option.any_eq_true]
  simp only [decide_eq_true_eq, PanelState.underway]
  constructor
  · exact fun ⟨⟨⟨_, way, unset⟩, expects, result⟩, past⟩ => ⟨⟨way, unset⟩, expects, result, past⟩
  · exact fun ⟨⟨way, unset⟩, expects, result, x, hx, past⟩ =>
      ⟨⟨⟨by simp [hx], way, unset⟩, expects, result⟩, x, hx, past⟩

/-! ## The fault of a position out of range takes no panel on its way (07 R122) -/

theorem withdrawStarting_queue (s : State) : (withdrawStarting s).pq.queue = s.pq.queue ∨
    ∃ t ∈ s.pq.live, t.phase = .awaitAccept ∧ ∃ p : Panel, p.tag = t.tag ∧ p ∈ s.pq.queue
      ∧ (withdrawStarting s).pq.queue = insertBeforeQueued (p.refused none) (without p.tag s.pq.queue) := by
  unfold withdrawStarting
  split
  · exact .inl rfl
  · next t found =>
    split
    · next p hp =>
      obtain ⟨mem, tag⟩ := find_mem_tag hp
      refine .inr ⟨t, List.mem_of_find?_eq_some found, by simpa using List.find?_some found, p, tag, mem, ?_⟩
      show insertBeforeQueued _ (without p.tag (State.pq (withdraw t.num t.tag s)).queue) = _
      rw [withdraw_pq]
      rfl
    · rw [withdraw_pq]
      exact .inl rfl

theorem ranged_queue (ticks : Ticks) (s : State) : (s.ranged ticks).pq.queue = s.pq.queue ∨
    ∃ t ∈ s.pq.live, t.phase = .awaitAccept ∧ ∃ p : Panel, p.tag = t.tag ∧ p ∈ s.pq.queue
      ∧ (s.ranged ticks).pq.queue = insertBeforeQueued (p.refused none) (without p.tag s.pq.queue) := by
  generalize hu : (s.upCnt fun c => { c with chan := c.chan.set .paper (s.cnt.chan.paper.take ticks) }) = u
  have pq : u.pq = s.pq := hu ▸ rfl
  unfold State.ranged rangeFault
  rw [hu, ← pq]
  split
  · rw [raise_eq, show State.pq (notice _ _) = _ from notice_keeps .pq (by decide)]
    generalize hv : (u.upFlt fun f => f.take (u.recordOf .positionRange (some Chan.paper.num))) = v
    have pq' : v.pq = u.pq := hv ▸ rfl
    rw [← pq']
    rcases faultMotion_cases v with ⟨e, -⟩ | ⟨e, -⟩ | ⟨e, -⟩ <;> rw [e]
    · have kept : Keeps [.mot, .flt] v (nipOpen ((setLine .halting .fault (suspendForFault v)).upMot fun m =>
          { m with target := 0, hold := .stopped })) :=
        keeps_then (keeps_then (keeps_then (t := suspendForFault v) (keeps_mono upMot_keeps (by decide)) setLine_keeps
          (by decide)) upMot_keeps (by decide)) nipOpen_keeps (by decide)
      have cases_ := withdrawStarting_queue (nipOpen ((setLine .halting .fault (suspendForFault v)).upMot fun m =>
          { m with target := 0, hold := .stopped }))
      rwa [show State.pq (nipOpen _) = _ from kept .pq (by decide)] at cases_
    · rw [show State.pq (setLine _ _ _) = _ from setLine_keeps .pq (by decide)]
      exact .inl rfl
    · exact .inl rfl
  · exact .inl rfl

/-- The windows of panels on their way are counted alike before and after the count is taken. -/
theorem QueueOk.ranged_countP (ok : QueueOk s) (ticks : Ticks) (P : Panel → Bool)
    (way : ∀ p, P p = true → p.state.underway) : (s.ranged ticks).pq.queue.countP P = s.pq.queue.countP P := by
  rcases ranged_queue ticks s with e | ⟨t, ht, phase, p, tag, mem, e⟩
  · rw [e]
  · have starts : p.state = .starting := by
      have state := ok.phase mem ht tag.symm
      rwa [phase] at state
    have not : ∀ {r : Panel} {x : PanelState}, r.state = x → ¬ x.underway → P r = false := fun e no => by
      by_contra h
      exact no (e ▸ way _ (by simpa using h))
    have once := PanelQueue.TagsOnce.queue ok.tags
    rw [e, (insertBeforeQueued_perm (p.refused none) _).countP_eq, (perm_without once mem).countP_eq,
      List.countP_cons_of_neg (by simp [not (r := p.refused none) (x := .queued) rfl (by simp [PanelState.underway])]),
      List.countP_cons_of_neg (by simp [not starts (by simp [PanelState.underway])])]

/-- The rest of a forward count update leaves the tracker as its stage has left it. -/
theorem tickBatch_mrk (ticks : Ticks) (forward : s.pp < (s.cnt.chan.paper.take ticks).count) :
    (tickBatch .paper ticks s).mrk = ((s.ranged ticks).tracked s.pp (s.cnt.chan.paper.take ticks).count).mrk
    ∧ TellsOn ((s.ranged ticks).tracked s.pp (s.cnt.chan.paper.take ticks).count) (tickBatch .paper ticks s) := by
  rw [show tickBatch .paper ticks s = _ from tickBatch_forward forward]
  generalize (s.ranged ticks).tracked s.pp (s.cnt.chan.paper.take ticks).count = u
  have probed : Keeps [.pq, .dose] (u.reached (s.cnt.chan.paper.take ticks).count) _ :=
    probed_keeps s.pp (s.cnt.chan.paper.take ticks).count _
  refine ⟨?_, (((reached_runs (b := false) _ u).trans (runs_of_keeps probed (by decide))).trans
    ((judged_runs _ _).trans decide_runs)).tellsOn⟩
  rw [show State.mrk (decide_ _) = _ from decide_keeps .mrk (by decide),
    show State.mrk (State.judged _ _) = _ from judged_keeps _ _ .mrk (by decide),
    show State.mrk (State.probed _ _ _) = _ from probed .mrk (by decide)]
  exact reached_keeps _ u .mrk (by decide)

/-- Settles O11: a window by `inWindow_iff`; the record of a good mark by `goodMark_record`; at a count update the tracker by
`tracked_mrk`, and each travelling panel by `QueueOk.travels_after`. -/
theorem goodMarkSetsTheArrival : Obligations.GoodMarkSetsTheArrival := by
  unfold Obligations.GoodMarkSetsTheArrival
  refine ⟨fun s p q => ?_, fun s q forward found => ?_, fun ticks s ok => ?_⟩
  · rw [inWindow_iff, expectsMark_iff]
    simp only [PanelState.underway, and_assoc]
    rfl
  · obtain ⟨x, hx, -, -, -, -, low, high⟩ := inWindow_iff.mp (List.find?_some found)
    obtain ⟨u, pq, par, pp, mrk, queue, tracker⟩ := markCapture_good forward found
    obtain ⟨q', mem, arrives⟩ := goodMark_record (q.xs.getD 0) s.pp u (pq ▸ List.mem_of_find?_eq_some found)
    have xs : q.xs.getD 0 = x := by rw [hx]; rfl
    rw [xs] at mem arrives queue tracker
    have same := arrives.sameDose
    have tag : q'.tag = q.tag := by obtain ⟨_, _, _, _, _, -, -, rfl⟩ := arrives; rfl
    obtain ⟨⟨-, arrival, result, -⟩, -, -⟩ := arrives.goes
    unfold State.goodRecord State.markArrival at same arrival result
    rw [par] at same arrival result
    rw [pp] at same
    rw [goodMark_mrk, mrk, par] at tracker
    refine ⟨x, markCapture s, q', hx, rfl, queue ▸ mem, tag, low, high, result, arrival, ?_, tracker, fun hs _ _ => ?_⟩
    · rw [same.1]
      rfl
    · exact fresh_of_sameDose hs rfl rfl same
  · intro new centre arrival travels expects past missed n
    have count : ((s.ranged ticks).expired new).countP Panel.hasWindow = n := by
      obtain ⟨-, mid, -, par⟩ := ranged_marks ticks s
      rw [expired_countP, mid, par]
      refine (ok.ranged_countP ticks _ fun p hp => ?_).trans (List.countP_congr fun p _ => ?_)
      · exact (missed_iff.mp hp).1.1
      · rw [missed_iff, decide_eq_true_eq]
        exact Iff.rfl
    refine ⟨_, rfl, fun still => ?_, fun reverse => ?_, fun forward => ⟨?_, fun one hold q mem lost => ?_, ?_⟩⟩
    · rw [show tickBatch .paper ticks s = _ from tickBatch_still still]
      exact (ranged_marks ticks s).1
    · obtain ⟨mrk, -, -, par⟩ := ranged_marks ticks s
      rw [show tickBatch .paper ticks s = _ from tickBatch_reverse reverse,
        show State.mrk (decide_ _) = _ from decide_keeps .mrk (by decide), tracked_mrk_reverse reverse, mrk, par]
    · rw [(tickBatch_mrk ticks forward).1, tracked_mrk forward, count, miss_iterate, (ranged_marks ticks s).1]
    · obtain ⟨mrk, mid, -, par⟩ := ranged_marks ticks s
      have window := missed_iff.mpr lost
      obtain ⟨has, -⟩ := Bool.and_eq_true_iff.mp window
      obtain ⟨x, hx, ends⟩ := lost.2.2.2
      have st := (ok.underway_reached mem lost.1.1 ticks forward).1
      have expired : q ∈ (s.ranged ticks).expired new := mem_expired.mpr
        ⟨st.mem, travelling_iff.mpr ⟨by simp [hx], lost.1.1, lost.1.2⟩, .inl has, x, hx, by rw [mid, par]; exact ends⟩
      have warned := tracked_lost forward (by rw [mrk]; exact hold) (count.trans one) expired has
      rw [mrk] at warned
      exact (warned.before (by rw [ranged_cnt])).seen (tickBatch_mrk ticks forward).2
    · intro q mem way x hx
      obtain ⟨stays, after⟩ := ok.travels_after mem way.1 way.2 hx ticks forward
      have past_iff : past q ↔ s.markCentre x + s.par.wM < new := by
        refine ⟨?_, fun h => ⟨x, hx, h⟩⟩
        rintro ⟨y, e, h⟩
        cases hx.symm.trans e
        exact h
      refine ⟨fun h => stays (past_iff.mp h), fun q' hq' tag => ?_⟩
      obtain ⟨fresh, marks⟩ := after q' hq' tag
      refine ⟨fun set hs _ none => fresh set hs none, ?_⟩
      have iff₁ : (past q ∧ expects q ∧ q.markResult = none) ↔
          (s.markCentre x + s.par.wM < new ∧ q.expectsMark = true ∧ q.markResult = none) := by
        rw [past_iff, expectsMark_iff]
      have iff₂ : (past q ∧ ¬ expects q) ↔ (s.markCentre x + s.par.wM < new ∧ ¬ q.expectsMark = true) := by
        rw [past_iff, expectsMark_iff]
      rw [if_congr iff₁ rfl rfl, if_congr iff₂ rfl rfl]
      exact marks

end Sys2Proof.Machine
end

