-- ==== Sys2Proof/Proofs/ArrivalsHold.lean ====
section
/-! SUPPORT. An arrival once set holds while its record stays in the queue (08 R144). -/

namespace Sys2Proof.Machine
open Sys2Proof

variable {k : Nat} {a : Int} {s t : State}

/-- Every record of tag `k` has the arrival `a`. -/
structure ArrivalIs (k : Nat) (a : Int) (s : State) : Prop where
  tags : s.pq.TagsOnce
  arrival : ∀ r ∈ s.pq.records, r.tag = k → r.arrival = some a

/-- … and there is one. -/
structure ArrivalHeld (k : Nat) (a : Int) (s : State) : Prop extends ArrivalIs k a s where
  held : ∃ r ∈ s.pq.records, r.tag = k

/-- A record that nothing has touched since its admission (07 R112). -/
def Panel.Untouched (r : Panel) : Prop := r.arrival = none ∧ r.dose = none ∧ r.printed = none ∧ r.attempts = 0

/-- Every record of tag `k` has the arrival `a`, or is new. -/
structure ArrivalOrNew (k : Nat) (a : Int) (s : State) : Prop where
  tags : s.pq.TagsOnce
  arrival : ∀ r ∈ s.pq.records, r.tag = k → r.arrival = some a ∨ r.Untouched

theorem ArrivalIs.moves {b : Bool} (h : ArrivalIs k a s) (m : Moves b s t) : ArrivalIs k a t where
  tags := m.tags h.tags
  arrival := fun r hr tag => by
    obtain ⟨p, hp, same, arrival, -⟩ := m.descends h.tags r hr
    exact arrival a (h.arrival p hp (same.symm.trans tag))

theorem ArrivalHeld.of_pq (h : ArrivalHeld k a s) (pq : t.pq = s.pq) : ArrivalHeld k a t where
  tags := pq ▸ h.tags
  arrival := pq ▸ h.arrival
  held := pq ▸ h.held

theorem ArrivalOrNew.moves (h : ArrivalOrNew k a s) (m : Moves false s t) : ArrivalOrNew k a t where
  tags := m.tags h.tags
  arrival := fun r hr tag => by
    obtain ⟨p, hp, same, arrival, kin⟩ := m.descends h.tags r hr
    refine (h.arrival p hp (same.symm.trans tag)).imp (arrival a) fun ⟨unset, dose, printed, attempts⟩ => ?_
    have k := kin rfl
    exact ⟨k.arrival.trans unset, k.dose.trans dose, k.printed.trans printed, k.attempts.trans attempts⟩

/-- A tag that is held is not admitted again. -/
theorem ArrivalHeld.admits (h : ArrivalHeld k a s) (m : Admits s t) : ArrivalIs k a t where
  tags := m.tags h.tags
  arrival := fun r hr tag => by
    obtain ⟨p, -, free, perm⟩ := m.records
    obtain ⟨x, hx, same⟩ := h.held
    rcases List.mem_cons.mp (perm.mem_iff.mp hr) with rfl | hr
    · exact absurd (same.trans tag.symm) (free x hx)
    · exact h.arrival r hr tag

theorem ArrivalOrNew.admits (h : ArrivalOrNew k a s) (m : Admits s t) : ArrivalOrNew k a t where
  tags := m.tags h.tags
  arrival := fun r hr tag => by
    obtain ⟨p, new, -, perm⟩ := m.records
    rcases List.mem_cons.mp (perm.mem_iff.mp hr) with rfl | hr
    · exact .inr ⟨new.arrival, new.dose, new.printed, new.attempts⟩
    · exact h.arrival r hr tag

/-- However many commands are carried out, a record of the tag has its arrival or is new. -/
theorem arrivalOrNew_link (k : Nat) (a : Int) : LinkInvariant (ArrivalOrNew k a) where
  link := fun h f _ => h.moves (moves_of_keeps f (by decide))
  op := fun {s} c h => by
    rcases hostOp_moves c s with m | ⟨u, admits, m⟩
    · exact h.moves m
    · exact (h.admits admits).moves m
  report := fun h => h.moves flushReport_moves
  decision := fun h => h.moves decide_moves

/-! ## One command (11 R179) -/

theorem ArrivalHeld.op (h : ArrivalHeld k a s) (c : Instr) : ArrivalIs k a (hostOp c s).1 := by
  rcases hostOp_moves c s with m | ⟨u, admits, m⟩
  · exact h.toArrivalIs.moves m
  · exact (h.admits admits).moves m

theorem ArrivalHeld.carryOut (h : ArrivalHeld k a s) {kind tag : Byte} {op : State → State × Reply}
    (hop : ∀ u, ArrivalHeld k a u → ArrivalIs k a (op u).1) : ArrivalIs k a (carryOut kind tag op s) := by
  have acted := hop _ (h.of_pq (t := s.upFlt fun f => { f with kept := true }) rfl)
  exact acted.moves (b := false) (moves_of_keeps answer_keeps (by decide))

theorem ArrivalHeld.runFrame (h : ArrivalHeld k a s) (f : Frame) : ArrivalIs k a (runFrame f s) := by
  unfold Machine.runFrame
  split
  · exact h.carryOut fun _ hu => hu.toArrivalIs
  · exact h.carryOut fun _ hu => hu.toArrivalIs
  · exact h.carryOut fun _ hu => hu.op _

/-- A frame that finds the command buffer empty is the one command taken. -/
theorem ArrivalHeld.hostFrameArrives (h : ArrivalHeld k a s) (empty : s.lnk.buffer = []) (f : Frame) :
    ArrivalIs k a (hostFrameArrives s f) := by
  have restarted : ArrivalHeld k a (restartLink s) := h.of_pq (restartLink_keeps .pq (by decide))
  unfold Machine.hostFrameArrives
  dsimp only
  split
  · have buffered : bufferFrame f (restartLink s) = (restartLink s).upLnk fun l => { l with buffer := [f] } := by
      unfold bufferFrame
      have nothing : (restartLink s).lnk.buffer = [] := empty
      rw [if_pos (by rw [nothing]; decide)]
      unfold State.upLnk
      dsimp only
      rw [nothing, List.nil_append]
    have one : ∀ u : State, u.lnk.buffer = [f] →
        takeWaiting u = if u.flt.room then Machine.runFrame f (popFrame u) else u := fun u hu => by
      unfold takeWaiting
      rw [hu, List.length_singleton]
      simp only [takeFrames, hu]
    rw [buffered, one ((restartLink s).upLnk fun l => { l with buffer := [f] }) rfl]
    split
    · exact (restarted.of_pq (t := popFrame ((restartLink s).upLnk fun l => { l with buffer := [f] })) rfl).runFrame f
    · exact (restarted.of_pq (t := (restartLink s).upLnk fun l => { l with buffer := [f] }) rfl).toArrivalIs
  · exact restarted.toArrivalIs

theorem ArrivalHeld.hostCommand (h : ArrivalHeld k a s) (empty : s.lnk.buffer = []) (c : Instr) :
    ArrivalIs k a (hostCommand c s) := by
  unfold Machine.hostCommand
  split
  · unfold hostExec
    split
    · exact (h.of_pq (restartLink_keeps .pq (by decide))).carryOut fun _ hu => hu.op c
    · exact h.hostFrameArrives empty _
  · exact h.toArrivalIs

/-- A place that is freed takes no command where none waits. -/
theorem ArrivalIs.frameSent (h : ArrivalIs k a s) (empty : s.lnk.buffer = []) : ArrivalIs k a (frameSent s) := by
  unfold Machine.frameSent
  split
  · exact h
  · next x _ =>
    have sent : ArrivalIs k a ((changeSpeed x.newBaud s).upFlt fun f => { f with current := none }.begin_) :=
      (h.moves (b := false) (moves_of_keeps changeSpeed_keeps (by decide))).moves (b := false)
        (moves_of_keeps upFlt_keeps (by decide))
    have still : ((changeSpeed x.newBaud s).upFlt fun f => { f with current := none }.begin_).lnk.buffer = [] := by
      unfold changeSpeed
      split <;> exact empty
    generalize (changeSpeed x.newBaud s).upFlt (fun f => { f with current := none }.begin_) = u at sent still
    have reported : ArrivalIs k a (flushReport none u) := sent.moves (b := false) flushReport_moves
    have buffer : (flushReport none u).lnk = u.lnk := flushReport_keeps .lnk (by decide)
    unfold placeFreed
    dsimp only
    split
    · rw [takeWaiting_empty (by rw [show State.lnk (decide_ _) = _ from decide_keeps .lnk (by decide), buffer, still])]
      exact reported.moves (b := false) decide_moves
    · rw [takeWaiting_empty (by rw [buffer, still])]
      exact reported

/-! ## Every row -/

theorem QueueOk.arrivalHeld (ok : QueueOk s) {p : Panel} (mem : p ∈ s.pq.queue) (arrival : p.arrival = some a) :
    ArrivalHeld p.tag a s where
  tags := ok.tags
  arrival := fun r hr tag => by rw [PanelQueue.TagsOnce.eq ok.tags hr (mem_records.mpr (.inl mem)) tag]; exact arrival
  held := ⟨p, mem_records.mpr (.inl mem), rfl⟩

theorem resetPart_arrivalIs (k : Nat) (a : Int) (s : State) : ArrivalIs k a (resetPart s) := by
  have cleared : ArrivalIs k a s.cleared :=
    ⟨List.nodup_nil,
      by simp [State.cleared, State.reset, PanelQueue.records, PanelQueue.inserts, Slot.panel?]⟩
  have limited : ArrivalIs k a s.limited := cleared.moves (b := true) (moves_of_keeps limited_keeps (by decide))
  rw [resetPart_of_limited]
  split
  · exact limited.moves (b := true) estopActs_moves
  · exact limited

/-- Outside the command buffer and VALID_FRAME, a record of the tag has its arrival. -/
theorem ArrivalHeld.exec {c : Instr} (h : ArrivalHeld k a s) (empty : s.lnk.buffer = [])
    (one : ∀ bytes, c ≠ .validFrame bytes) (e : exec c s = .next t) : ArrivalIs k a t := by
  cases hf : commandFrame c with
  | some f =>
    rw [exec_host hf] at e
    cases e
    exact h.hostCommand empty c
  | none =>
    cases c with
    | powerOnReset | resetn => cases e; exact resetPart_arrivalIs k a s
    | validFrame bytes => exact absurd rfl (one bytes)
    | unknownCommand => cases e; exact h.hostFrameArrives empty _
    | frameSent => cases e; exact h.toArrivalIs.frameSent empty
    | _ => exact h.toArrivalIs.moves (row_moves (by simp [Instr.linkRow, hf]) (by simp) e)

theorem ArrivalOrNew.exec {c : Instr} (h : ArrivalOrNew k a s) (link : Instr.linkRow c = true)
    (e : Machine.exec c s = .next t) : ArrivalOrNew k a t := by
  cases hf : commandFrame c with
  | some f =>
    rw [exec_host hf] at e
    cases e
    exact (arrivalOrNew_link k a).hostCommand h
  | none =>
    cases c with
    | validFrame => cases e; exact (arrivalOrNew_link k a).receive h
    | unknownCommand => cases e; exact (arrivalOrNew_link k a).hostFrameArrives h
    | frameSent => cases e; exact (arrivalOrNew_link k a).frameSent h
    | _ => simp [Instr.linkRow, hf] at link

/-- A row, whatever it is. -/
theorem QueueOk.arrival_exec (ok : QueueOk s) {c : Instr} (e : exec c s = .next t) {p q : Panel} (mem : p ∈ s.pq.queue)
    (arrival : p.arrival = some a) (mem' : q ∈ t.pq.queue) (tag : q.tag = p.tag) :
    q.arrival = some a ∨ (s.lnk.buffer ≠ [] ∨ ∃ bytes, c = .validFrame bytes) ∧ q.Untouched := by
  have held := ok.arrivalHeld mem arrival
  have record := mem_records.mpr (.inl mem')
  by_cases single : s.lnk.buffer = [] ∧ ∀ bytes, c ≠ .validFrame bytes
  · exact .inl ((held.exec single.1 single.2 e).arrival q record tag)
  · have several : s.lnk.buffer ≠ [] ∨ ∃ bytes, c = .validFrame bytes := by
      by_contra no
      obtain ⟨empty, other⟩ := not_or.mp no
      exact single ⟨not_not.mp empty, fun bytes e => other ⟨bytes, e⟩⟩
    cases link : Instr.linkRow c with
    | true =>
      have start : ArrivalOrNew p.tag a s := ⟨held.tags, fun r hr tag => .inl (held.arrival r hr tag)⟩
      exact ((start.exec link e).arrival q record tag).imp id (⟨several, ·⟩)
    | false =>
      refine .inl (ArrivalIs.arrival (s := t) ?_ q record tag)
      by_cases reset : c = .powerOnReset ∨ c = .resetn
      · rcases reset with rfl | rfl <;> cases e <;> exact resetPart_arrivalIs _ a s
      · exact held.toArrivalIs.moves (row_moves link (not_or.mp reset) e)

end Sys2Proof.Machine
end

