-- ==== Sys2Proof/Proofs/PointsTaken.lean ====
section
/-! SUPPORT. The probe points of a forward count update of PP, all of them (04 R64, R65): they are taken in ascending order,
each gives one probe while the list has a place, and each panel is left with the points beyond the update. -/

namespace Sys2Proof.Machine
open Sys2Proof

variable {p : Panel} {d : DoseFields} {s t : State} {sp old new pos x : Int} {full : Bool}

/-! ## The points of one panel -/

/-- The next probe point lies on the panel (04 R64). -/
def Panel.PointOn (p : Panel) : Prop :=
  ∀ d, p.dose = some d → ∀ n, d.next = some n → n ≤ p.trailing ∧ (p.arrival.getD 0 ≤ n ∨ n = p.trailing)

theorem handles_iff (h : p.dose = some d) : p.handles sp old new x = true ↔ (old < x ∧ x ≤ new)
    ∧ ((∃ n, d.next = some n ∧ old < n ∧ n ≤ x ∧ (x = n ∨ x < p.trailing ∧ (x - n) % sp = 0))
      ∨ d.final = true ∧ x = p.trailing) := by
  unfold Panel.handles Panel.trailing
  rw [h]
  dsimp only
  cases d.next <;> simp

theorem not_handles (h : p.dose = none) : p.handles sp old new x = false := by
  unfold Panel.handles
  rw [h]

/-- What a record that handles a point has. -/
theorem dose_of_handles (h : p.handles sp old new x = true) : ∃ d, p.dose = some d := by
  cases e : p.dose with
  | none => rw [not_handles e] at h; exact nomatch h
  | some d => exact ⟨d, rfl⟩

theorem handles_of_awaits (h : p.awaits x) (inside : old < x ∧ x ≤ new) : p.handles sp old new x = true := by
  obtain ⟨d, hd, point⟩ := h
  refine (handles_iff hd).mpr ⟨inside, point.imp (fun next => ⟨x, next, inside.1, Int.le_refl x, .inl rfl⟩) id⟩

/-- The least point that is handled is awaited. -/
theorem awaits_of_handles (h : p.handles sp old new x = true) : ∃ y, p.awaits y ∧ (old < y ∧ y ≤ new) ∧ y ≤ x := by
  obtain ⟨d, hd⟩ := dose_of_handles h
  obtain ⟨inside, ⟨n, next, above, le, -⟩ | ⟨final, e⟩⟩ := (handles_iff hd).mp h
  · exact ⟨n, ⟨d, hd, .inl next⟩, ⟨above, Int.le_trans le inside.2⟩, le⟩
  · exact ⟨x, ⟨d, hd, .inr ⟨final, e⟩⟩, inside, Int.le_refl x⟩

/-- `pos` is a point of the interval, and no point of it that the panel awaits lies below. -/
structure Panel.LeastFor (old new pos : Int) (p : Panel) : Prop where
  inside : old < pos ∧ pos ≤ new
  least : ∀ y, p.awaits y → old < y → y ≤ new → pos ≤ y

theorem Panel.LeastFor.awaits_iff (h : p.LeastFor old new pos) : p.awaits pos ↔ p.handles sp old new pos = true := by
  refine ⟨fun a => handles_of_awaits a h.inside, fun a => ?_⟩
  obtain ⟨y, awaits, inside, le⟩ := awaits_of_handles a
  rwa [Int.le_antisymm (h.least y awaits inside.1 inside.2) le]

/-- The dose fields with the point at `pos` handled. -/
def DoseFields.handled (pos sp trailing : Int) (d : DoseFields) : DoseFields :=
  { d with
    next := if d.next = some pos then (if pos + sp < trailing then some (pos + sp) else none) else d.next
    final := d.final && trailing ≠ pos }

theorem handled_eq (h : p.awaits pos) : p.handled pos sp full =
    { p with
      dose := p.dose.map (DoseFields.handled pos sp p.trailing)
      flags := { p.flags with sparse := p.flags.sparse || full } } := by
  unfold Panel.handled
  rw [if_pos (pointIn_self.mpr h), handle_eq]
  rfl

theorem handled_trailing (p : Panel) (pos sp : Int) (full : Bool) : (p.handled pos sp full).trailing = p.trailing := by
  unfold Panel.handled
  split
  · rw [handle_eq]; rfl
  · rfl

theorem handled_arrival (p : Panel) (pos sp : Int) (full : Bool) : (p.handled pos sp full).arrival = p.arrival := by
  unfold Panel.handled
  split
  · rw [handle_eq]
  · rfl

/-- The next multiple of the spacing after a point. -/
theorem spaced_after (above : pos < x) : (x - pos) % sp = 0 ↔ pos + sp ≤ x ∧ (x - (pos + sp)) % sp = 0 := by
  have e : x - (pos + sp) = x - pos - sp := by omega
  rw [e, Int.sub_emod_right]
  refine ⟨fun h => ⟨?_, h⟩, fun h => h.2⟩
  have := Int.le_of_dvd (by omega) (Int.dvd_of_emod_eq_zero h)
  omega

/-- A point handled is not handled again, and no other is left out. -/
theorem handled_handles (hs : 0 < sp) (h : p.LeastFor old new pos) :
    (p.handled pos sp full).handles sp old new x = true ↔ p.handles sp old new x = true ∧ x ≠ pos := by
  by_cases aw : p.awaits pos
  · obtain ⟨d, hd, point⟩ := aw
    have dose : (p.handled pos sp full).dose = some (d.handled pos sp p.trailing) := by
      rw [handled_eq ⟨d, hd, point⟩, hd]; rfl
    rw [handles_iff dose, handles_iff hd, handled_trailing, and_assoc (a := old < x ∧ x ≤ new)]
    refine and_congr_right fun inside => ?_
    have final : ((d.handled pos sp p.trailing).final = true ∧ x = p.trailing) ↔
        (d.final = true ∧ x = p.trailing) ∧ x ≠ pos := by
      simp only [DoseFields.handled, Bool.and_eq_true, decide_eq_true_eq]
      constructor
      · rintro ⟨⟨f, ne⟩, rfl⟩; exact ⟨⟨f, rfl⟩, ne⟩
      · rintro ⟨⟨f, rfl⟩, ne⟩; exact ⟨⟨f, ne⟩, rfl⟩
    rw [final, or_and_right]
    refine or_congr ?_ Iff.rfl
    by_cases next : d.next = some pos
    · have e : (d.handled pos sp p.trailing).next = if pos + sp < p.trailing then some (pos + sp) else none := if_pos next
      rw [e]
      constructor
      · rintro ⟨n, hn, -, le, rest⟩
        split at hn
        · next short =>
          cases hn
          refine ⟨⟨pos, next, h.inside.1, by omega, .inr ?_⟩, by omega⟩
          rcases rest with rfl | ⟨below, spaced⟩
          · exact ⟨short, by rw [show pos + sp - pos = sp by omega, Int.emod_self]⟩
          · exact ⟨below, (spaced_after (by omega)).mpr ⟨le, spaced⟩⟩
        · exact nomatch hn
      · rintro ⟨⟨n, hn, -, le, rest⟩, ne⟩
        cases next.symm.trans hn
        obtain ⟨below, spaced⟩ := rest.resolve_left ne
        obtain ⟨le', spaced'⟩ := (spaced_after (by omega)).mp spaced
        exact ⟨pos + sp, if_pos (by omega), by have := h.inside.1; omega, le', .inr ⟨below, spaced'⟩⟩
    · have e : (d.handled pos sp p.trailing).next = d.next := if_neg next
      obtain ⟨-, trailing⟩ := point.resolve_left next
      rw [e]
      refine ⟨fun k => ⟨k, ?_⟩, And.left⟩
      rintro rfl
      obtain ⟨n, hn, -, -, rfl | ⟨below, -⟩⟩ := k
      · exact next hn
      · omega
  · rw [handled_other aw]
    refine ⟨fun k => ⟨k, ?_⟩, And.left⟩
    rintro rfl
    exact aw (h.awaits_iff.mpr k)

theorem handled_pointOn (hs : 0 < sp) (on : p.PointOn) : (p.handled pos sp full).PointOn := by
  by_cases aw : p.awaits pos
  · intro d' hd' n hn
    rw [handled_trailing, handled_arrival]
    rw [handled_eq aw] at hd'
    obtain ⟨d, hd, rfl⟩ := Option.map_eq_some_iff.mp hd'
    unfold DoseFields.handled at hn
    dsimp only at hn
    split at hn
    · next next =>
      have := on d hd pos next
      split at hn
      · cases hn; omega
      · exact nomatch hn
    · exact on d hd n hn
  · rwa [handled_other aw]

/-! ## How many there are -/

/-- A bound on the points that the panel still awaits (04 R64). -/
def Panel.pointsLeft (sp : Int) (p : Panel) : Nat :=
  p.dose.elim 0 fun d => (d.next.elim 0 fun n => ((p.trailing - n) / sp).toNat + 1) + d.final.toNat

theorem pointsLeft_pos (h : p.awaits x) : 0 < p.pointsLeft sp := by
  obtain ⟨d, hd, next | ⟨final, -⟩⟩ := h
  · simp only [Panel.pointsLeft, hd, next, Option.elim_some]; omega
  · simp only [Panel.pointsLeft, hd, final, Option.elim_some, Bool.toNat_true]; omega

theorem handled_pointsLeft (hs : 0 < sp) : (p.handled pos sp full).pointsLeft sp ≤ p.pointsLeft sp
    ∧ (p.awaits pos → (p.handled pos sp full).pointsLeft sp < p.pointsLeft sp) := by
  by_cases aw : p.awaits pos
  · suffices less : (p.handled pos sp full).pointsLeft sp < p.pointsLeft sp from ⟨Nat.le_of_lt less, fun _ => less⟩
    obtain ⟨d, hd, point⟩ := aw
    have dose : (p.handled pos sp full).dose = some (d.handled pos sp p.trailing) := by
      rw [handled_eq ⟨d, hd, point⟩, hd]; rfl
    unfold Panel.pointsLeft
    rw [dose, hd, handled_trailing]
    simp only [Option.elim_some, DoseFields.handled]
    by_cases next : d.next = some pos
    · have final : (d.final && decide (p.trailing ≠ pos)).toNat ≤ d.final.toNat := by
        cases d.final
        · simp
        · exact Bool.toNat_le _
      rw [if_pos next, next]
      split
      · next short =>
        have e : (p.trailing - (pos + sp)) / sp = (p.trailing - pos) / sp - 1 := by
          rw [show p.trailing - (pos + sp) = p.trailing - pos + (-1) * sp by omega, Int.add_mul_ediv_right _ _ (by omega)]
          omega
        have low : 1 ≤ (p.trailing - pos) / sp := (Int.le_ediv_iff_mul_le hs).mpr (by omega)
        simp only [Option.elim_some, e]
        omega
      · simp only [Option.elim_some, Option.elim_none]
        omega
    · obtain ⟨final, e⟩ := point.resolve_left next
      rw [if_neg next, final, ← e]
      simp
  · rw [handled_other aw]
    exact ⟨Nat.le_refl _, fun a => absurd a aw⟩

theorem pointsLeft_le (hs : 0 < sp) (on : p.PointOn) : p.pointsLeft sp ≤ (floorDiv p.length sp).toNat + 2 := by
  unfold Panel.pointsLeft
  cases hd : p.dose with
  | none => exact Nat.zero_le _
  | some d =>
    have final : d.final.toNat ≤ 1 := Bool.toNat_le _
    cases hn : d.next with
    | none => simp only [Option.elim_some, hn, Option.elim_none]; omega
    | some n =>
      obtain ⟨-, on | rfl⟩ := on d hd n hn
      · have le : (p.trailing - n) / sp ≤ p.length / sp :=
          Int.ediv_le_ediv hs (by have e : p.trailing = p.arrival.getD 0 + p.length := rfl; omega)
        simp only [Option.elim_some, hn, floorDiv]
        omega
      · simp only [Option.elim_some, hn, Int.sub_self, Int.zero_ediv, Int.toNat_zero]
        omega

theorem sum_le_pointBound (hs : 0 < sp) {l : List Panel} (on : ∀ p ∈ l, p.PointOn) :
    (l.map (Panel.pointsLeft sp)).sum ≤ pointBound l sp := by
  have shift : ∀ (l : List Panel) (n : Nat), (∀ p ∈ l, p.PointOn) → n + (l.map (Panel.pointsLeft sp)).sum ≤
      l.foldl (fun n p => n + (floorDiv p.length sp).toNat + 2) n := fun l => by
    induction l with
    | nil => exact fun n _ => Nat.le_refl n
    | cons p l ih =>
      intro n on
      have := pointsLeft_le hs (on p List.mem_cons_self)
      refine Nat.le_trans ?_ (ih _ fun q hq => on q (List.mem_cons_of_mem _ hq))
      rw [List.map_cons, List.sum_cons]
      dsimp only
      omega
  have := shift l 0 on
  unfold pointBound
  omega

/-! ## What the update leaves of a panel -/

/-- The record after all its points of the interval have been handled, those of `late` with the list full. -/
def Panel.swept (sp old new : Int) (late : List Int) (p : Panel) : Panel :=
  { p with
    dose := p.dose.map fun d =>
      { d with
        next := pointAfter d.next sp p.trailing old new
        final := d.final && !decide (old < p.trailing ∧ p.trailing ≤ new) }
    flags := { p.flags with sparse := p.flags.sparse || late.any fun x => p.handles sp old new x } }

/-- The next point after a point that is handled, and after all that follow it. -/
theorem pointAfter_handled (hs : 0 < sp) (trailing : Int) (inside : old < pos ∧ pos ≤ new) :
    pointAfter (if pos + sp < trailing then some (pos + sp) else none) sp trailing old new =
      pointAfter (some pos) sp trailing old new := by
  have here : pointAfter (some pos) sp trailing old new =
      if pos + ((new - pos) / sp + 1) * sp < trailing then some (pos + ((new - pos) / sp + 1) * sp) else none :=
    if_pos inside
  rw [here]
  by_cases short : pos + sp < trailing
  · rw [if_pos short]
    by_cases reached : pos + sp ≤ new
    · have after : pointAfter (some (pos + sp)) sp trailing old new =
          if pos + sp + ((new - (pos + sp)) / sp + 1) * sp < trailing then
            some (pos + sp + ((new - (pos + sp)) / sp + 1) * sp) else none := if_pos ⟨by omega, reached⟩
      have e : (new - (pos + sp)) / sp = (new - pos) / sp - 1 := by
        rw [show new - (pos + sp) = new - pos + (-1) * sp by omega, Int.add_mul_ediv_right _ _ (by omega)]
        omega
      rw [after, e, show pos + sp + ((new - pos) / sp - 1 + 1) * sp = pos + ((new - pos) / sp + 1) * sp by ring]
    · have after : pointAfter (some (pos + sp)) sp trailing old new = some (pos + sp) := if_neg fun h => reached h.2
      rw [after, Int.ediv_eq_zero_of_lt (by omega) (by omega), Int.zero_add, Int.one_mul, if_pos short]
  · have low : 0 ≤ (new - pos) / sp * sp := Int.mul_nonneg (Int.ediv_nonneg (by omega) (by omega)) (by omega)
    rw [if_neg short, if_neg (by rw [Int.add_mul, Int.one_mul]; omega)]
    rfl

/-- A panel with no point in the interval is left as it is. -/
theorem swept_none (no : ∀ x, p.awaits x → old < x → ¬ x ≤ new) : p.swept sp old new [] = p := by
  unfold Panel.swept
  rw [List.any_nil, Bool.or_false]
  have dose : (p.dose.map fun d => { d with
      next := pointAfter d.next sp p.trailing old new
      final := d.final && !decide (old < p.trailing ∧ p.trailing ≤ new) }) = p.dose := by
    cases hd : p.dose with
    | none => rfl
    | some d =>
      have next : pointAfter d.next sp p.trailing old new = d.next := by
        cases hn : d.next with
        | none => rfl
        | some n => exact if_neg fun h => no n ⟨d, hd, .inl hn⟩ h.1 h.2
      have final : (d.final && !decide (old < p.trailing ∧ p.trailing ≤ new)) = d.final := by
        cases hf : d.final with
        | false => rfl
        | true =>
          have out : ¬ (old < p.trailing ∧ p.trailing ≤ new) := fun h => no _ ⟨d, hd, .inr ⟨hf, rfl⟩⟩ h.1 h.2
          rw [decide_eq_false out]
          rfl
      rw [Option.map_some, next, final]
  rw [dose]

/-- One point handled, and then the others. -/
theorem swept_handled (hs : 0 < sp) (h : p.LeastFor old new pos) {late : List Int} (other : pos ∉ late) :
    (p.handled pos sp full).swept sp old new late = p.swept sp old new (if full = true then pos :: late else late) := by
  have late_eq : (late.any fun x => (p.handled pos sp full).handles sp old new x) =
      late.any fun x => p.handles sp old new x := by
    rw [Bool.eq_iff_iff, List.any_eq_true, List.any_eq_true]
    refine exists_congr fun x => and_congr_right fun hx => ?_
    rw [handled_handles hs h]
    exact and_iff_left fun e => other (e ▸ hx)
  have sparse : (p.flags.sparse || (p.handles sp old new pos && full) || late.any fun x => p.handles sp old new x) =
      (p.flags.sparse || (if full = true then pos :: late else late).any fun x => p.handles sp old new x) := by
    cases full <;> simp [Bool.or_assoc]
  by_cases aw : p.awaits pos
  · obtain ⟨d, hd, point⟩ := aw
    have final : (d.final && decide (p.trailing ≠ pos) && !decide (old < p.trailing ∧ p.trailing ≤ new)) =
        (d.final && !decide (old < p.trailing ∧ p.trailing ≤ new)) := by
      by_cases e : p.trailing = pos
      · rw [e, decide_eq_true h.inside]; simp
      · rw [decide_eq_true e, Bool.and_true]
    have next : pointAfter (d.handled pos sp p.trailing).next sp p.trailing old new =
        pointAfter d.next sp p.trailing old new := by
      unfold DoseFields.handled
      dsimp only
      split
      · next e => rw [e, pointAfter_handled hs _ h.inside]
      · rfl
    unfold Panel.swept at *
    rw [late_eq, handled_trailing, ← sparse, h.awaits_iff.mp ⟨d, hd, point⟩]
    rw [handled_eq ⟨d, hd, point⟩, hd]
    simp only [Option.map_some, Bool.true_and]
    rw [next]
    unfold DoseFields.handled
    dsimp only
    rw [final]
  · unfold Panel.swept
    have unhandled : p.handles sp old new pos = false := by simpa using mt h.awaits_iff.mpr aw
    rw [late_eq, ← sparse, handled_other aw, unhandled, Bool.false_and, Bool.or_false]

/-! ## The points of an update -/

/-- The panels whose point `x` is, in the order of their A (04 R65). -/
def State.handlers (s : State) (old new x : Int) : List Panel :=
  sortBy (fun p : Panel => p.arrival.getD 0) (s.pq.queue.filter fun p => p.handles s.par.spacing old new x)

theorem mem_handlers : p ∈ s.handlers old new x ↔ p ∈ s.pq.queue ∧ p.handles s.par.spacing old new x = true :=
  mem_sortBy.trans List.mem_filter

/-- The probe that the point at `pos` gives. -/
def State.probeTaken (s : State) (old new pos : Int) : Probe :=
  ⟨(s.handlers old new pos).map fun p => ⟨p.tag, p.trailing = pos⟩,
    pos, pos + s.par.arcLen, s.heat.enables, ⟨0, 0, 0, 0, 0, 0⟩, false, false, false, false⟩

/-- `points` are the probe points of the update from `old` to `new`, and `joined` the probes that they give. -/
structure Taken (old new : Int) (s t : State) (points : List Int) (joined : List Probe) : Prop where
  rise : points.Pairwise (· < ·)
  members : ∀ x, x ∈ points ↔ ∃ p ∈ s.pq.queue, p.handles s.par.spacing old new x = true
  pq : t.pq = { s.pq with
    queue := s.pq.queue.map (Panel.swept s.par.spacing old new (points.drop (64 - s.dose.probes.length))) }
  probes : t.dose.probes = s.dose.probes ++ joined
  entries : joined.map Probe.entry = points.take (64 - s.dose.probes.length)
  joins : ∀ b ∈ joined, b = s.probeTaken old new b.entry

/-- An update with no point in its interval. -/
theorem taken_none (no : ∀ p ∈ s.pq.queue, ∀ x, p.awaits x → old < x → ¬ x ≤ new) : Taken old new s s [] [] where
  rise := .nil
  members := fun x => ⟨nofun, fun ⟨p, hp, handles⟩ => by
    obtain ⟨y, awaits, inside, -⟩ := awaits_of_handles handles
    exact absurd inside.2 (no p hp y awaits inside.1)⟩
  pq := by
    have same : s.pq.queue.map (Panel.swept s.par.spacing old new ([].drop (64 - s.dose.probes.length))) = s.pq.queue := by
      rw [List.drop_nil]
      exact (List.map_congr_left fun p hp => swept_none (no p hp)).trans (List.map_id' _)
    rw [same]
  probes := (List.append_nil _).symm
  entries := by rw [List.take_nil]; rfl
  joins := nofun

theorem sortBy_map {α : Type} {g : α → α} {key : α → Int} (same : ∀ x, key (g x) = key x) (l : List α) :
    sortBy key (l.map g) = (sortBy key l).map g := by
  have insert : ∀ (x : α) (l : List α), insertBy key (g x) (l.map g) = (insertBy key x l).map g := fun x l => by
    induction l with
    | nil => rfl
    | cons y l ih =>
      simp only [List.map_cons, insertBy, same]
      split
      · rfl
      · rw [List.map_cons, ← ih]
  induction l with
  | nil => rfl
  | cons x l ih => exact (congrArg (insertBy key (g x)) ih).trans (insert x _)

/-- The probe of a later point does not show the point handled. -/
theorem probeTaken_handled (hs : 0 < s.par.spacing) (least : ∀ p ∈ s.pq.queue, p.LeastFor old new pos) (other : x ≠ pos) :
    (handlePoint pos s).probeTaken old new x = s.probeTaken old new x := by
  have par : (handlePoint pos s).par = s.par := handlePoint_keeps .par (by decide)
  have heat : (handlePoint pos s).heat = s.heat := handlePoint_keeps .heat (by decide)
  have handlers : (handlePoint pos s).handlers old new x =
      (s.handlers old new x).map (Panel.handled pos s.par.spacing (decide (64 ≤ s.dose.probes.length))) := by
    have same : s.pq.queue.filter ((fun p => p.handles s.par.spacing old new x) ∘
        Panel.handled pos s.par.spacing (decide (64 ≤ s.dose.probes.length))) =
        s.pq.queue.filter fun p => p.handles s.par.spacing old new x := by
      refine List.filter_congr fun p hp => ?_
      rw [Function.comp_apply, Bool.eq_iff_iff, handled_handles hs (least p hp)]
      exact and_iff_left other
    unfold State.handlers
    rw [handlePoint_pq, par, List.filter_map, same, sortBy_map fun p => by rw [handled_arrival]]
  unfold State.probeTaken
  rw [handlers, par, heat, List.map_map]
  refine congrArg (fun l : List Owner => (⟨l, x, x + s.par.arcLen, s.heat.enables, ⟨0, 0, 0, 0, 0, 0⟩, false, false, false,
    false⟩ : Probe)) (List.map_congr_left fun p _ => ?_)
  rw [Function.comp_apply, handled_tag, handled_trailing]

theorem probeAt_eq (least : ∀ p ∈ s.pq.queue, p.LeastFor old new pos) : s.probeAt pos = s.probeTaken old new pos := by
  have same : (s.pq.queue.filter fun p => p.pointIn (pos - 1) pos = some pos) =
      s.pq.queue.filter fun p => p.handles s.par.spacing old new pos := by
    refine List.filter_congr fun p hp => ?_
    rw [Bool.eq_iff_iff, decide_eq_true_eq, pointIn_self]
    exact (least p hp).awaits_iff
  unfold State.probeAt State.probeTaken State.handlers
  rw [same]

/-- The least point of an update, and the others. -/
theorem Taken.cons (hs : 0 < s.par.spacing) (least : ∀ p ∈ s.pq.queue, p.LeastFor old new pos)
    (mine : ∃ p ∈ s.pq.queue, p.awaits pos) {points : List Int} {joined : List Probe}
    (h : Taken old new (handlePoint pos s) t points joined) : Taken old new s t (pos :: points)
      (if 64 ≤ s.dose.probes.length then joined else s.probeTaken old new pos :: joined) := by
  have par : (handlePoint pos s).par = s.par := handlePoint_keeps .par (by decide)
  have rest : ∀ x, x ∈ points ↔ (∃ p ∈ s.pq.queue, p.handles s.par.spacing old new x = true) ∧ x ≠ pos := fun x => by
    rw [h.members, handlePoint_pq, par]
    simp only [List.mem_map, exists_exists_and_eq_and]
    constructor
    · rintro ⟨p, hp, handles⟩
      obtain ⟨handles, ne⟩ := (handled_handles hs (least p hp)).mp handles
      exact ⟨⟨p, hp, handles⟩, ne⟩
    · rintro ⟨⟨p, hp, handles⟩, ne⟩
      exact ⟨p, hp, (handled_handles hs (least p hp)).mpr ⟨handles, ne⟩⟩
  have fresh : pos ∉ points := fun h => ((rest pos).mp h).2 rfl
  have probes := handlePoint_probes pos s
  rw [probeAt_eq least] at probes
  refine ⟨List.pairwise_cons.mpr ⟨fun x hx => ?_, h.rise⟩, fun x => ?_, ?_, ?_, ?_, fun b hb => ?_⟩
  · obtain ⟨⟨p, hp, handles⟩, ne⟩ := (rest x).mp hx
    obtain ⟨y, awaits, inside, le⟩ := awaits_of_handles handles
    have := (least p hp).least y awaits inside.1 inside.2
    omega
  · rw [List.mem_cons, rest]
    by_cases e : x = pos
    · obtain ⟨p, hp, awaits⟩ := mine
      simp only [e, true_or, true_iff]
      exact ⟨p, hp, (least p hp).awaits_iff.mp awaits⟩
    · simp [e]
  · rw [h.pq, handlePoint_pq, par, probes]
    simp only [List.map_map]
    refine congrArg (fun l => { s.pq with queue := l }) (List.map_congr_left fun p hp => ?_)
    rw [Function.comp_apply, swept_handled hs (least p hp) fun mem => fresh (List.mem_of_mem_drop mem)]
    split
    · next full =>
      have full : 64 ≤ s.dose.probes.length := of_decide_eq_true full
      rw [if_pos full, show 64 - s.dose.probes.length = 0 by omega]
      rfl
    · next free =>
      have free : ¬ 64 ≤ s.dose.probes.length := fun h => free (decide_eq_true h)
      rw [if_neg free, List.length_append, List.length_singleton,
        show 64 - s.dose.probes.length = 64 - (s.dose.probes.length + 1) + 1 by omega, List.drop_succ_cons]
  · rw [h.probes, probes]
    split
    · rfl
    · rw [List.append_assoc]; rfl
  · have entries := h.entries
    rw [probes] at entries
    split
    · next full =>
      rw [if_pos full, show 64 - s.dose.probes.length = 0 by omega, List.take_zero] at entries
      rw [entries, show 64 - s.dose.probes.length = 0 by omega, List.take_zero]
    · next free =>
      rw [if_neg free, List.length_append, List.length_singleton] at entries
      rw [List.map_cons, entries, show 64 - s.dose.probes.length = 64 - (s.dose.probes.length + 1) + 1 by omega,
        List.take_succ_cons]
      rfl
  · have later : b ∈ joined → b = s.probeTaken old new b.entry := fun mem => by
      refine (h.joins b mem).trans (probeTaken_handled hs least fun e => fresh ?_)
      have entry : b.entry ∈ joined.map Probe.entry := List.mem_map.mpr ⟨b, mem, rfl⟩
      rw [h.entries] at entry
      exact e ▸ List.mem_of_mem_take entry
    split at hb
    · exact later hb
    · rcases List.mem_cons.mp hb with rfl | hb
      · rfl
      · exact later hb

/-- The probe points of an update taken (04 R65). -/
def State.pointed (old new : Int) (s : State) : State := createProbes (pointBound s.pq.queue s.par.spacing) old new s

/-- The update takes all its points where the fuel reaches. -/
theorem createProbes_taken (fuel : Nat) (hs : 0 < s.par.spacing) (on : ∀ p ∈ s.pq.queue, p.PointOn)
    (enough : (s.pq.queue.map (Panel.pointsLeft s.par.spacing)).sum ≤ fuel) :
    ∃ points joined, Taken old new s (createProbes fuel old new s) points joined := by
  induction fuel generalizing s with
  | zero =>
    refine ⟨[], [], taken_none fun p hp x awaits _ _ => ?_⟩
    have := pointsLeft_pos (sp := s.par.spacing) awaits
    have := List.single_le_sum (l := s.pq.queue.map (Panel.pointsLeft s.par.spacing)) (fun _ _ => Nat.zero_le _) _
      (List.mem_map.mpr ⟨p, hp, rfl⟩)
    omega
  | succ fuel ih =>
    have points := nextPoint_least s.pq.queue old new
    unfold createProbes
    split
    · next pos e =>
      obtain ⟨⟨p, hp, awaits, inside⟩, below⟩ := points.least pos e
      have least : ∀ p ∈ s.pq.queue, p.LeastFor old new pos := fun p hp =>
        ⟨inside, fun y awaits above reached => below y ⟨p, hp, awaits, above, reached⟩⟩
      have par : (handlePoint pos s).par = s.par := handlePoint_keeps .par (by decide)
      have queue : (handlePoint pos s).pq.queue =
          s.pq.queue.map (Panel.handled pos s.par.spacing (decide (64 ≤ s.dose.probes.length))) := by rw [handlePoint_pq]
      obtain ⟨points, joined, taken⟩ := @ih (handlePoint pos s) (par ▸ hs)
        (fun q hq => by
          rw [queue] at hq
          obtain ⟨r, hr, rfl⟩ := List.mem_map.mp hq
          exact handled_pointOn hs (on r hr))
        (by
          rw [par, queue, List.map_map]
          have less : (s.pq.queue.map (Panel.pointsLeft s.par.spacing ∘
              Panel.handled pos s.par.spacing (decide (64 ≤ s.dose.probes.length)))).sum <
              (s.pq.queue.map (Panel.pointsLeft s.par.spacing)).sum :=
            List.sum_lt_sum _ _ (fun q _ => (handled_pointsLeft hs).1) ⟨p, hp, (handled_pointsLeft hs).2 awaits⟩
          omega)
      exact ⟨_, _, taken.cons hs least ⟨p, hp, awaits⟩⟩
    · next e => exact ⟨[], [], taken_none fun p hp x awaits above reached =>
        points.empty e x ⟨p, hp, awaits, above, reached⟩⟩

theorem pointed_taken (hs : 0 < s.par.spacing) (on : ∀ p ∈ s.pq.queue, p.PointOn) :
    ∃ points joined, Taken old new s (s.pointed old new) points joined :=
  createProbes_taken _ hs on (sum_le_pointBound hs on)

end Sys2Proof.Machine
end

