-- ==== Sys2Proof/Proofs/TriggersKept.lean ====
section
/-! SUPPORT. The trigger table through a forward count update of PP: what a panel that leaves frees, what a crossing and an
arrival at a mark change, and what no piece of the update changes (09 R153 to R156). -/

namespace Sys2Proof.Machine
open Sys2Proof

variable {s t u : State}

/-! ## Panels that leave (09 R156) -/

/-- Only entries that wait for an arrival may have been freed. -/
def Orphaned (s t : State) : Prop := ∃ f : TrigSlot → TrigSlot,
  (∀ x : TrigSlot, (∀ tag, x.awaits tag = false) → f x = x) ∧ t.trg = { s.trg with slots := s.trg.slots.map f }

theorem orphaned_of_trg (h : t.trg = s.trg) : Orphaned s t := ⟨id, fun _ _ => rfl, by rw [List.map_id]; exact h⟩

theorem orphaned_of_keeps {l : List Block} (h : Keeps l s t) (h' : Block.trg ∉ l) : Orphaned s t :=
  orphaned_of_trg (h .trg h')

theorem Orphaned.trans (h : Orphaned s t) (k : Orphaned t u) : Orphaned s u := by
  obtain ⟨f, calm, e⟩ := h
  obtain ⟨g, calm', e'⟩ := k
  refine ⟨g ∘ f, fun x hx => ?_, by rw [e', e, List.map_map]⟩
  rw [Function.comp_apply, calm x hx, calm' x hx]

theorem orphaned_ite {c : Prop} [Decidable c] (h : Orphaned s t) (k : Orphaned s u) : Orphaned s (if c then t else u) := by
  split <;> assumption

theorem orphaned_foldl {α : Type} {f : State → α → State} (l : List α) (h : ∀ s, ∀ x ∈ l, Orphaned s (f s x)) (s : State) :
    Orphaned s (l.foldl f s) := by
  induction l generalizing s with
  | nil => exact orphaned_of_trg rfl
  | cons x l ih => exact (h s x List.mem_cons_self).trans (ih (fun s y hy => h s y (List.mem_cons_of_mem _ hy)) _)

theorem Orphaned.fabric (h : Orphaned s t) : FabricSame s t := by
  obtain ⟨f, -, e⟩ := h
  exact ⟨_, _, _, e⟩

theorem Orphaned.pulses (h : Orphaned s t) : t.trg.pulses = s.trg.pulses := by
  obtain ⟨f, -, e⟩ := h
  rw [e]

/-- An entry that waits for no arrival stays. -/
theorem Orphaned.slot (h : Orphaned s t) {x : TrigSlot} (mem : x ∈ s.trg.slots) (calm : ∀ tag, x.awaits tag = false) :
    x ∈ t.trg.slots := by
  obtain ⟨f, same, e⟩ := h
  rw [e]
  exact List.mem_map.mpr ⟨x, mem, same x calm⟩

theorem orphanPanel_orphaned {tag : Nat} {d : Option Dir} : Orphaned s (orphanPanel tag d s) := by
  refine ⟨_, fun x hx => ?_, orphanWhere_trg (c := TrigSlot.awaits tag) (fun x hx => ?_) s⟩
  · rw [hx tag]
    rfl
  · cases x with
    | free => exact nomatch hx
    | held o e => exact ⟨o, e, rfl⟩

theorem removePanel_orphaned {p : Panel} {d : Option Dir} : Orphaned s (removePanel p d s) := by
  unfold removePanel
  dsimp only
  split
  · exact orphanPanel_orphaned (s := dropRef p.profile (s.upPq fun q =>
      { q with queue := without p.tag q.queue, slots := q.slots.map (Slot.emptied p.tag) }))
  · exact orphaned_of_trg rfl

theorem flushReport_orphaned {d : Option Dir} : Orphaned s (flushReport d s) := by
  unfold flushReport
  split
  · exact orphaned_of_trg rfl
  · next tag rest _ =>
    refine orphaned_ite ?_ (orphaned_of_trg rfl)
    split
    · next p _ => exact removePanel_orphaned (s := (s.upPq fun q => { q with waiting := rest }).upFlt fun f =>
        f.place (.notice s.cnt.clock (.panelReport p)))
    · exact orphaned_of_trg rfl

theorem becomeDone_orphaned {tag : Nat} {d : Option Dir} : Orphaned s (becomeDone tag d s) :=
  flushReport_orphaned (s := s.upPq fun q => { q with waiting := q.waiting ++ [tag] })

theorem refusal_orphaned {num : Nat} {p : Panel} {counted : Option EngineReason} {d : Option Dir} :
    Orphaned s (refusal num p counted d s) := by
  unfold refusal
  dsimp only
  split
  · exact (orphaned_of_keeps upPq_keeps (by decide)).trans becomeDone_orphaned
  · exact orphaned_of_trg rfl

theorem startingDeadline_orphaned {t : Txn} {d : Option Dir} : Orphaned s (startingDeadline t d s) := by
  unfold startingDeadline
  split
  · exact (orphaned_of_keeps withdraw_keeps (by decide)).trans refusal_orphaned
  · exact (orphaned_of_keeps upPq_keeps (by decide)).trans (orphaned_of_keeps withdraw_keeps (by decide))

theorem ranged_orphaned (ticks : Ticks) (s : State) : Orphaned s (s.ranged ticks) :=
  orphaned_of_keeps (ranged_keeps ticks s) (by decide)

theorem judgePanel_orphaned {p : Panel} : Orphaned s (judgePanel p s) := by
  cases h : p.dose with
  | none =>
    unfold judgePanel
    rw [h]
    exact orphaned_of_trg rfl
  | some d =>
    rw [judgePanel_eq h]
    exact (orphaned_of_trg (s := s) (t := updPanel p.tag (s.judging p d) s) rfl).trans
      ((orphaned_of_keeps (taught_keeps s p d _) (by decide)).trans becomeDone_orphaned)

/-! ## Crossings and arrivals at a mark (09 R153, R155) -/

/-- A HOST entry with a position. -/
def TrigSlot.Settled (x : TrigSlot) : Prop := ∃ e : Trigger, x = .held .host e ∧ e.position ≠ none

/-- A free slot stays free, a HOST entry with a position stays one. -/
structure TrigSlot.Goes (x y : TrigSlot) : Prop where
  free : x = .free → y = .free
  settled : x.Settled → y.Settled

theorem TrigSlot.Goes.refl (x : TrigSlot) : x.Goes x := ⟨id, id⟩

theorem TrigSlot.Goes.trans {x y z : TrigSlot} (h : x.Goes y) (k : y.Goes z) : x.Goes z :=
  ⟨k.free ∘ h.free, k.settled ∘ h.settled⟩

/-- Every slot goes so, and of the rest windows and pulses alone may have changed. -/
structure Crossed (s t : State) : Prop where
  same : FabricSame s t
  length : t.trg.slots.length = s.trg.slots.length
  slots : ∀ (j : Nat) x, s.trg.slots[j]? = some x → ∃ y, t.trg.slots[j]? = some y ∧ x.Goes y

theorem crossed_of_slots (same : FabricSame s t) (h : t.trg.slots = s.trg.slots) : Crossed s t :=
  ⟨same, by rw [h], fun j x hx => ⟨x, by rw [h]; exact hx, .refl x⟩⟩

theorem Crossed.trans (h : Crossed s t) (k : Crossed t u) : Crossed s u := by
  refine ⟨fabricSame_trans h.same k.same, k.length.trans h.length, fun j x hx => ?_⟩
  obtain ⟨y, hy, goes⟩ := h.slots j x hx
  obtain ⟨z, hz, goes'⟩ := k.slots j y hy
  exact ⟨z, hz, goes.trans goes'⟩

theorem Crossed.free (h : Crossed s t) (mem : .free ∈ s.trg.slots) : .free ∈ t.trg.slots := by
  obtain ⟨j, hj⟩ := List.getElem?_of_mem mem
  obtain ⟨y, hy, goes⟩ := h.slots j _ hj
  exact List.mem_of_getElem? (goes.free rfl ▸ hy)

theorem Crossed.full (h : Crossed s t) (full : ∀ x ∈ s.trg.slots, x.Settled) : ∀ x ∈ t.trg.slots, x.Settled := by
  intro y hy
  obtain ⟨j, hj⟩ := List.getElem?_of_mem hy
  have lt : j < s.trg.slots.length := h.length ▸ (List.getElem?_eq_some_iff.mp hj).1
  obtain ⟨z, hz, goes⟩ := h.slots j _ (List.getElem?_eq_getElem lt)
  cases hj.symm.trans hz
  exact goes.settled (full _ (List.getElem_mem lt))

/-- One slot written. -/
theorem Crossed.write (h : Crossed s t) (same : FabricSame t u) {i : Nat} {x y : TrigSlot}
    (slots : u.trg.slots = t.trg.slots.set i y) (at_ : s.trg.slots[i]? = some x) (goes : x.Goes y) : Crossed s u := by
  refine ⟨fabricSame_trans h.same same, by rw [slots, List.length_set, h.length], fun j z hz => ?_⟩
  rw [slots, List.getElem?_set]
  split
  · next e =>
    cases e
    cases at_.symm.trans hz
    rw [if_pos (h.length ▸ (List.getElem?_eq_some_iff.mp at_).1)]
    exact ⟨y, rfl, goes⟩
  · exact h.slots j z hz

theorem fire_slots {i : Nat} {o : Origin} {e : Trigger} {d : Option Dir} {late : Bool} :
    (fire i o e d late s).trg.slots = s.trg.slots.set i (e.afterFire o) := by
  have written : ∀ u : State, u.trg.slots = s.trg.slots →
      (setTrigSlot i (e.afterFire o) u).trg.slots = s.trg.slots.set i (e.afterFire o) := fun u h => by rw [← h]; rfl
  unfold fire
  refine written _ ?_
  cases e.action with
  | notify => exact congrArg TrigUnit.slots triggerNotice_trg
  | pulse o' =>
    dsimp only
    split
    · exact (congrArg TrigUnit.slots triggerNotice_trg).trans rfl
    · rfl

theorem afterFire_goes (o : Origin) (e : Trigger) : (TrigSlot.held o e).Goes (e.afterFire o) := by
  refine ⟨nofun, fun ⟨x, same, at_⟩ => ?_⟩
  cases same
  unfold Trigger.afterFire
  cases e.rep with
  | keep => exact ⟨e, rfl, at_⟩
  | oneShot => exact ⟨_, rfl, at_⟩

theorem mem_firings {slots : List TrigSlot} {axis : Axis} {old new : Int} {i : Nat} {o : Origin} {e : Trigger}
    (h : (i, o, e) ∈ firings slots axis old new) : slots[i]? = some (.held o e) := by
  unfold firings at h
  obtain ⟨⟨p, hit⟩, mem, rfl⟩ := List.mem_map.mp h
  obtain ⟨⟨j, x⟩, indexes, fires⟩ := List.mem_filterMap.mp (mem_sortBy.mp mem)
  obtain ⟨m, e', at_⟩ := mem_indexed.mp indexes
  cases x with
  | free => exact nomatch fires
  | held o' t' =>
    obtain ⟨_, -, same⟩ := Option.map_eq_some_iff.mp fires
    cases same
    rwa [e', Nat.zero_add]

theorem fireCrossed_crossed {axis : Axis} {old new : Int} : Crossed s (fireCrossed axis old new s) := by
  have all : ∀ (l : List (Nat × Origin × Trigger)), (∀ h ∈ l, s.trg.slots[h.1]? = some (.held h.2.1 h.2.2)) → ∀ u,
      Crossed s u → Crossed s (l.foldl (fun s h => fire h.1 h.2.1 h.2.2 (some (updateDir old new)) false s) u) := fun l => by
    induction l with
    | nil => exact fun _ _ h => h
    | cons x l ih =>
      exact fun at_ u h => ih (fun y hy => at_ y (List.mem_cons_of_mem _ hy)) _
        (h.write fire_fabricSame fire_slots (at_ x List.mem_cons_self) (afterFire_goes _ _))
  exact all _ (fun ⟨i, o, e⟩ h => mem_firings h) s (crossed_of_slots (fabricSame_of_trg rfl) rfl)

theorem resolveSlot_crossed {i : Nat} {a : Int} {d : Option Dir} : Crossed s (resolveSlot i a d s) := by
  have start : Crossed s s := crossed_of_slots (fabricSame_of_trg rfl) rfl
  unfold resolveSlot
  split
  · next o e at_ =>
    have goes : ∀ p : Int, (TrigSlot.held o e).Goes (.held o { e with position := some p }) := fun p =>
      ⟨nofun, fun ⟨x, same, _⟩ => by cases same; exact ⟨_, rfl, nofun⟩⟩
    have written : ∀ p : Int, Crossed s (setTrigSlot i (.held o { e with position := some p }) s) := fun p =>
      start.write ⟨_, _, _, rfl⟩ rfl at_ (goes p)
    dsimp only
    split
    · exact (written _).write fire_fabricSame fire_slots at_ ((goes _).trans (afterFire_goes _ _))
    · exact written _
  · exact start

theorem resolveAnchors_crossed {set : List (Nat × Int)} {d : Option Dir} : Crossed s (resolveAnchors set d s) := by
  unfold resolveAnchors
  generalize List.range s.trg.slots.length = l
  induction l generalizing s with
  | nil => exact crossed_of_slots (fabricSame_of_trg rfl) rfl
  | cons i l ih =>
    refine .trans ?_ ih
    dsimp only
    split
    · exact resolveSlot_crossed
    · exact crossed_of_slots (fabricSame_of_trg rfl) rfl

theorem judgeWindow_slots {axis : Axis} {dir : Dir} {count : Int} {i : Nat} :
    (judgeWindow axis dir count s i).trg.slots = s.trg.slots := by
  unfold judgeWindow
  split
  · split
    · dsimp only
      split
      · rw [notice_trg]; rfl
      · rfl
    · rfl
  · rfl

theorem judgeWindows_crossed {axis : Axis} {old new : Int} : Crossed s (judgeWindows axis old new s) := by
  unfold judgeWindows
  generalize List.range s.trg.windows.length = l
  induction l generalizing s with
  | nil => exact crossed_of_slots (fabricSame_of_trg rfl) rfl
  | cons i l ih => exact (crossed_of_slots judgeWindow_fabricSame judgeWindow_slots).trans ih

theorem crossed_of_keeps {l : List Block} (h : Keeps l s t) (h' : Block.trg ∉ l) : Crossed s t :=
  crossed_of_slots (fabricSame_of_trg (h .trg h')) (by rw [h .trg h'])

theorem markUpdate_crossed {old new : Int} : Crossed s (markUpdate old new s) := by
  unfold markUpdate
  split
  · have expired : Keeps [.pq, .mrk, .flt] s (((s.upMrk fun m => { m with high := max m.high new }).expired new).foldl
        expirePanel (s.upMrk fun m => { m with high := max m.high new })) :=
      keeps_trans (keeps_mono upMrk_keeps (by decide)) (keeps_foldl (fun _ _ => expirePanel_keeps) _ _)
    exact (crossed_of_keeps expired (by decide)).trans resolveAnchors_crossed
  · split
    · exact crossed_of_slots (fabricSame_of_trg rfl) rfl
    · exact crossed_of_slots (fabricSame_of_trg rfl) rfl

theorem tracked_crossed (old new : Int) (s : State) : Crossed s (s.tracked old new) :=
  ((fireCrossed_crossed.trans judgeWindows_crossed).trans markUpdate_crossed).trans
    (crossed_of_keeps seekUpdate_keeps (by decide))

theorem Orphaned.crossed (h : Orphaned s t) : Crossed s t := by
  obtain ⟨f, calm, e⟩ := h
  refine ⟨⟨_, _, _, e⟩, by rw [e, List.length_map], fun j x hx => ⟨f x, by rw [e, List.getElem?_map, hx]; rfl, ?_⟩⟩
  refine ⟨?_, ?_⟩
  · rintro rfl
    exact calm _ fun _ => rfl
  · rintro ⟨e', rfl, at_⟩
    rw [calm _ fun tag => ?_]
    · exact ⟨e', rfl, at_⟩
    · simp [TrigSlot.awaits, at_]

end Sys2Proof.Machine
end

