-- ==== Sys2Proof/Proofs/RecordsTraced.lean ====
section
/-! SUPPORT. Where the records of the queue come from in a forward count update of PP, and an update in which one panel alone
is spoiled: its reject trigger is the only one (07 R127). -/

namespace Sys2Proof.Machine
open Sys2Proof

variable {σ τ : Panel → Panel → Prop} {k : Nat} {s t u : State}

/-- What the probe points of a panel are found by. -/
structure Panel.Keyed (p p' : Panel) : Prop where
  tag : p'.tag = p.tag
  length : p'.length = p.length
  arrival : p'.arrival = p.arrival
  dose : p'.dose = p.dose

theorem Panel.Keyed.refl (p : Panel) : p.Keyed p := ⟨rfl, rfl, rfl, rfl⟩

theorem Panel.Keyed.trans {p q r : Panel} (h : p.Keyed q) (k : q.Keyed r) : p.Keyed r :=
  ⟨k.tag.trans h.tag, k.length.trans h.length, k.arrival.trans h.arrival, k.dose.trans h.dose⟩

/-- No record begins to print or is spoiled. -/
structure Panel.Calmly (p p' : Panel) : Prop where
  tag : p'.tag = p.tag
  prints : p'.state = .printing → p.state = .printing
  spoiled : p'.state = .spoiled → p.state = .spoiled

theorem Panel.Calmly.refl (p : Panel) : p.Calmly p := ⟨rfl, id, id⟩

theorem Panel.Calmly.trans {p q r : Panel} (h : p.Calmly q) (k : q.Calmly r) : p.Calmly r :=
  ⟨k.tag.trans h.tag, h.prints ∘ k.prints, h.spoiled ∘ k.spoiled⟩

/-- Both. -/
structure Panel.Returns (p p' : Panel) : Prop where
  keyed : p.Keyed p'
  calmly : p.Calmly p'

theorem Panel.Returns.refl (p : Panel) : p.Returns p := ⟨.refl p, .refl p⟩

theorem Panel.Returns.trans {p q r : Panel} (h : p.Returns q) (k : q.Returns r) : p.Returns r :=
  ⟨h.keyed.trans k.keyed, h.calmly.trans k.calmly⟩

/-- Each record of the queue comes from one by `σ`. -/
def From (σ : Panel → Panel → Prop) (s t : State) : Prop := ∀ p' ∈ t.pq.queue, ∃ p ∈ s.pq.queue, σ p p'

theorem From.mono (h : From σ s t) (k : ∀ p p', σ p p' → τ p p') : From τ s t := fun p' hp' => by
  obtain ⟨p, hp, rel⟩ := h p' hp'
  exact ⟨p, hp, k p p' rel⟩

theorem From.trans (h : From σ s t) (k : From σ t u) (trans : ∀ {p q r}, σ p q → σ q r → σ p r) : From σ s u :=
  fun r hr => by
    obtain ⟨q, hq, rel⟩ := k r hr
    obtain ⟨p, hp, rel'⟩ := h q hq
    exact ⟨p, hp, trans rel' rel⟩

theorem from_of_subset (refl : ∀ p, σ p p) (h : ∀ p ∈ t.pq.queue, p ∈ s.pq.queue) : From σ s t :=
  fun p hp => ⟨p, h p hp, refl p⟩

theorem from_of_pq (refl : ∀ p, σ p p) (h : t.pq.queue = s.pq.queue) : From σ s t :=
  from_of_subset refl fun _ hp => h ▸ hp

theorem from_foldl {α : Type} {f : State → α → State} (refl : ∀ p, σ p p) (trans : ∀ {p q r}, σ p q → σ q r → σ p r)
    (l : List α) (h : ∀ s, ∀ x ∈ l, From σ s (f s x)) (s : State) : From σ s (l.foldl f s) := by
  induction l generalizing s with
  | nil => exact from_of_pq refl rfl
  | cons x l ih =>
    exact (h s x List.mem_cons_self).trans (ih (fun s y hy => h s y (List.mem_cons_of_mem _ hy)) _) trans

theorem from_map {g : Panel → Panel} (h : t.pq.queue = s.pq.queue.map g) (rel : ∀ p, σ p (g p)) : From σ s t := by
  intro p' hp'
  rw [h] at hp'
  obtain ⟨p, hp, rfl⟩ := List.mem_map.mp hp'
  exact ⟨p, hp, rel p⟩

theorem from_updPanel {tag : Nat} {f : Panel → Panel} (refl : ∀ p, σ p p) (rel : ∀ p, σ p (f p)) :
    From σ s (updPanel tag f s) :=
  from_map (g := fun p => if p.tag = tag then f p else p) rfl fun p => by
    split
    · exact rel p
    · exact refl p

/-- One record put back, changed by `σ`. -/
theorem from_back {p p' : Panel} (refl : ∀ p, σ p p) (mem : p ∈ s.pq.queue) (rel : σ p p')
    (h : t.pq.queue = insertBeforeQueued p' (without p.tag s.pq.queue)) : From σ s t := by
  intro q hq
  rw [h] at hq
  rcases List.mem_cons.mp ((insertBeforeQueued_perm _ _).mem_iff.mp hq) with rfl | hq
  · exact ⟨p, mem, rel⟩
  · exact ⟨q, (mem_without.mp hq).1, refl q⟩

/-! ## Refusals (07 R120 to R122) -/

theorem refused_returns (p : Panel) (counted : Option EngineReason) : p.Returns (p.refused counted) :=
  ⟨⟨rfl, rfl, rfl, rfl⟩, rfl, nofun, nofun⟩

theorem refusal_from {num : Nat} {p : Panel} {counted : Option EngineReason} {d : Option Dir} (mem : p ∈ s.pq.queue) :
    From Panel.Returns s (refusal num p counted d s) := by
  have skipped : p.Returns { p.refused counted with state := .done, verdict := some .skipped } :=
    ⟨⟨rfl, rfl, rfl, rfl⟩, rfl, nofun, nofun⟩
  unfold refusal
  dsimp only
  split
  · refine .trans (from_back Panel.Returns.refl mem skipped ?_)
      (from_of_subset Panel.Returns.refl (becomeDone_subset p.tag d _)) Panel.Returns.trans
    rfl
  · exact from_back Panel.Returns.refl mem (refused_returns p counted) rfl

theorem startingDeadline_from {x : Txn} {d : Option Dir} : From Panel.Returns s (startingDeadline x d s) := by
  unfold startingDeadline
  split
  · next p hp =>
    refine .trans (from_of_pq Panel.Returns.refl (by rw [withdraw_pq])) (refusal_from ?_) Panel.Returns.trans
    rw [withdraw_pq]
    exact (find_mem_tag hp).1
  · exact from_of_pq Panel.Returns.refl (by rw [withdraw_pq]; rfl)

theorem ranged_from (ticks : Ticks) (s : State) : From Panel.Returns s (s.ranged ticks) := by
  rcases ranged_queue ticks s with e | ⟨_, _, _, p, _, mem, e⟩
  · exact from_of_pq Panel.Returns.refl e
  · exact from_back Panel.Returns.refl mem (refused_returns p none) e

/-! ## Deadlines and arrivals -/

theorem arrives_returns {p p' : Panel} (h : p.Arrives p') : p.Returns p' := by
  obtain ⟨state, _, _, _, _, _, turns, rfl⟩ := h
  refine ⟨⟨rfl, rfl, rfl, rfl⟩, rfl, fun e => ?_, fun e => ?_⟩
  · rcases turns with rfl | ⟨rfl, -⟩
    exacts [e, nomatch e]
  · rcases turns with rfl | ⟨rfl, -⟩
    exacts [e, nomatch e]

theorem rejectTrigger_from {tag : Nat} {a : Int} {d : Option Dir} : From Panel.Returns s (rejectTrigger tag a d s) := by
  obtain ⟨g, e, arrives⟩ := rejectTrigger_arrivals (tag := tag) (a := a) (d := d) (s := s)
  exact from_map e fun p => arrives_returns (arrives p)

theorem doneDeadline_from {x : Txn} {d : Option Dir} : From Panel.Keyed s (doneDeadline x d s) := by
  have inArc : ∀ {u : State} {tag : Nat}, From Panel.Keyed u (updPanel tag (fun p => { p with state := .inArc }) u) :=
    from_updPanel Panel.Keyed.refl fun _ => ⟨rfl, rfl, rfl, rfl⟩
  have ends : ∀ u : State, From Panel.Keyed u (afterPrint x.tag d u) := fun u => by
    unfold afterPrint
    split
    · split
      · dsimp only
        split
        · exact inArc.trans (rejectTrigger_from.mono fun _ _ => Panel.Returns.keyed) Panel.Keyed.trans
        · exact inArc
      · exact from_of_pq Panel.Keyed.refl rfl
    · exact from_of_pq Panel.Keyed.refl rfl
  have warned : ∀ (w : Warning) (u : State), From Panel.Keyed u (warn w u) := fun w u =>
    from_of_pq Panel.Keyed.refl (congrArg PanelQueue.queue (warn_keeps .pq (by decide)))
  have spoils : ∀ u : State, From Panel.Keyed u (updPanel x.tag (fun p =>
      { p with
        state := .spoiled, verdict := some .spoiled, printed := some .unknown, txn := none
        reason := some .timeout }) u) := fun u => from_updPanel Panel.Keyed.refl fun _ => ⟨rfl, rfl, rfl, rfl⟩
  have withdrawn : From Panel.Keyed s
      (withdraw x.num x.tag (s.upPq fun q => { q with live := dropTxn x.num x.tag q.live })) :=
    from_of_pq Panel.Keyed.refl (by rw [withdraw_pq]; rfl)
  exact ((withdrawn.trans (spoils _) Panel.Keyed.trans).trans (warned _ _) Panel.Keyed.trans).trans (ends _)
    Panel.Keyed.trans

theorem deadlineAt_from {new : Int} {x : Txn} : From Panel.Keyed s (deadlineAt new s x) := by
  unfold deadlineAt
  split
  · cases x.phase with
    | awaitAccept =>
      dsimp only
      split
      · exact startingDeadline_from.mono fun _ _ => Panel.Returns.keyed
      · exact from_of_pq Panel.Keyed.refl rfl
    | printing =>
      dsimp only
      split
      · exact doneDeadline_from
      · exact from_of_pq Panel.Keyed.refl rfl
  · exact from_of_pq Panel.Keyed.refl rfl

theorem reached_from (new : Int) (s : State) : From Panel.Keyed s (s.reached new) := by
  obtain ⟨g, e, arrives⟩ := arriveReached_arrivals (d := some .forward) (s := deadlineUpdate new s)
  exact .trans (from_foldl Panel.Keyed.refl Panel.Keyed.trans s.pq.live (fun _ _ _ => deadlineAt_from) s)
    (from_map e fun p => (arrives_returns (arrives p)).keyed) Panel.Keyed.trans

/-! ## One panel alone spoiled -/

/-- No panel prints, and none but that of tag `k` is spoiled. -/
def Calm (k : Nat) (s : State) : Prop := ∀ p ∈ s.pq.queue, p.state ≠ .printing ∧ (p.state = .spoiled → p.tag = k)

theorem Calm.from (h : Calm k s) (f : From Panel.Calmly s t) : Calm k t := fun p' hp' => by
  obtain ⟨p, hp, rel⟩ := f p' hp'
  exact ⟨(h p hp).1 ∘ rel.prints, fun spoiled => rel.tag.trans ((h p hp).2 (rel.spoiled spoiled))⟩

theorem Calm.ranged (h : Calm k s) (ticks : Ticks) : Calm k (s.ranged ticks) :=
  h.from ((ranged_from ticks s).mono fun _ _ => Panel.Returns.calmly)

theorem Calm.tracked {old new : Int} (h : Calm k s) (forward : old < new) : Calm k (s.tracked old new) :=
  h.from fun p' hp' => by
    obtain ⟨p, hp, tag, state, -⟩ := tracked_from forward s p' hp'
    exact ⟨p, hp, tag, fun e => state ▸ e, fun e => state ▸ e⟩

/-- With no panel printing, a deadline refuses a STARTING panel alone. -/
theorem Calm.deadlines {new : Int} (h : Calm k s) (starts : ∀ x ∈ s.pq.live, x.phase = .awaitAccept) :
    Calm k (deadlineUpdate new s) ∧ Orphaned s (deadlineUpdate new s) := by
  have one : ∀ u, ∀ x ∈ s.pq.live, From Panel.Returns u (deadlineAt new u x) ∧ Orphaned u (deadlineAt new u x) :=
    fun u x hx => by
      unfold deadlineAt
      split
      · rw [starts x hx]
        dsimp only
        split
        · exact ⟨startingDeadline_from, startingDeadline_orphaned⟩
        · exact ⟨from_of_pq Panel.Returns.refl rfl, orphaned_of_trg rfl⟩
      · exact ⟨from_of_pq Panel.Returns.refl rfl, orphaned_of_trg rfl⟩
  exact ⟨h.from ((from_foldl Panel.Returns.refl Panel.Returns.trans _ (fun u x hx => (one u x hx).1) s).mono
    fun _ _ => Panel.Returns.calmly), orphaned_foldl _ (fun u x hx => (one u x hx).2) s⟩

theorem Calm.arrive {tag : Nat} {d : Option Dir} (h : Calm k s) : Calm k (arrive tag d s) := by
  obtain ⟨g, e, arrives⟩ := arrive_arrivals (tag := tag) (d := d) (s := s)
  exact h.from (from_map e fun p => (arrives_returns (arrives p)).calmly)

/-- A panel that is not spoiled arrives without a reject trigger. -/
theorem arrive_orphaned {tag : Nat} {d : Option Dir} (h : ∀ p, s.queued? tag = some p → p.state ≠ .spoiled) :
    Orphaned s (arrive tag d s) := by
  unfold Machine.arrive
  split
  · next p hp =>
    rw [if_neg (h p hp)]
    exact (orphaned_of_keeps fabricCheck_keeps (by decide)).trans (orphaned_of_keeps updPanel_keeps (by decide))
  · exact orphaned_of_trg rfl

theorem Calm.arrivals {d : Option Dir} {l : List Nat} (h : Calm k s) (other : k ∉ l) :
    Calm k (l.foldl (fun s tag => Machine.arrive tag d s) s)
      ∧ Orphaned s (l.foldl (fun s tag => Machine.arrive tag d s) s) := by
  induction l generalizing s with
  | nil => exact ⟨h, orphaned_of_trg rfl⟩
  | cons tag l ih =>
    obtain ⟨calm, rest⟩ := ih (h.arrive (tag := tag) (d := d)) fun mem => other (List.mem_cons_of_mem _ mem)
    refine ⟨calm, .trans (arrive_orphaned fun p hp spoiled => ?_) rest⟩
    obtain ⟨mem, same⟩ := find_mem_tag hp
    exact other (((h p mem).2 spoiled).symm.trans same ▸ List.mem_cons_self)

theorem Calm.probed {old new : Int} (h : Calm k s) (once : (s.pq.queue.map Panel.tag).Nodup) :
    Calm k (s.probed old new) := by
  have passes : Passes (fun _ => true) Panel.Dosed s (s.probed old new) :=
    (createProbes_passes Panel.Dosed.refl fun _ _ _ => id).trans (exitProbes_passes Panel.Dosed.refl fun _ _ _ => id)
  refine h.from fun p' hp' => ?_
  obtain ⟨p, hp, tag, -, rel⟩ := passes_from passes Panel.Dosed.refl Panel.Dosed.trans once p' hp'
  obtain ⟨_, _, _, _, _, -, rfl⟩ := rel rfl
  exact ⟨p, hp, rfl, id, id⟩

/-- With no panel printing, a panel becomes DONE without a reject trigger. -/
theorem Calm.panelDone {tag : Nat} (h : Calm k s) : Calm k (panelDone tag s) ∧ Orphaned s (Machine.panelDone tag s) := by
  have calm : lateDeadline tag s = s := by
    unfold lateDeadline
    split
    · next p hp => exact if_neg (h p (find_mem_tag hp).1).1
    · rfl
  rw [panelDone_eq, calm]
  cases found : s.queued? tag with
  | none => exact ⟨h, orphaned_of_trg rfl⟩
  | some p =>
    refine ⟨fun r hr => ?_, judgePanel_orphaned⟩
    have hr : r ∈ (judgePanel p s).pq.queue := hr
    cases hd : p.dose with
    | none =>
      unfold judgePanel at hr
      rw [hd] at hr
      exact h r hr
    | some d =>
      rw [judgePanel_eq hd] at hr
      have kept : r ∈ (State.pq (s.taught p d (updPanel p.tag (s.judging p d) s))).queue := becomeDone_subset _ _ _ r hr
      rw [show State.pq (State.taught _ _ _ _) = _ from taught_keeps s p d _ .pq (by decide)] at kept
      obtain ⟨x, hx, rfl⟩ := List.mem_map.mp kept
      split
      · exact ⟨nofun, nofun⟩
      · exact h x hx

theorem Calm.judged {new : Int} (h : Calm k s) : Orphaned s (s.judged new) := by
  have all : ∀ (l : List Nat) (u : State), Calm k u →
      Orphaned u (l.foldl (fun s tag => Machine.panelDone tag s) u) := fun l => by
    induction l with
    | nil => exact fun _ _ => orphaned_of_trg rfl
    | cons tag l ih => exact fun u hu => hu.panelDone.2.trans (ih _ hu.panelDone.1)
  exact all _ s h

end Sys2Proof.Machine
end

