-- ==== Sys2Proof/Proofs/Arriving.lean ====
section
/-! SUPPORT. One panel at its arrival: the fabric check, the splice, its state, and the reject trigger of a spoiled one (07
R126, R127, 08 R145, R147, 09 R155, R156, R164). -/

namespace Sys2Proof.Machine
open Sys2Proof

variable {k : Nat} {q : Panel} {s t : State}

/-! ## The record -/

/-- The fabric at the nip is not that of the panel (08 R147). -/
def State.mismatched (s : State) (q : Panel) : Bool :=
  (s.trg.nip.map fun n => (s.prf.entry n).media) ≠ some (s.prf.entry q.profile).media

/-- The record of a panel at its arrival, `reject` where no slot is free for its reject trigger. -/
def Panel.arriving (s : State) (reject : Bool) (q : Panel) : Panel :=
  { q with
    arrived := true
    state := if q.state = .printed || q.state = .spoiled then .inArc else q.state
    flags := { q.flags with
      fabricMismatch := q.flags.fabricMismatch || s.mismatched q
      spliceAffected := q.flags.spliceAffected || s.trg.spliceAtNip
      rejectUnmarked := q.flags.rejectUnmarked || reject } }

/-- No slot is free. -/
def State.noSlot (s : State) : Bool := (indexOf TrigSlot.isFree s.trg.slots).isNone

theorem fabricCheck_stands (st : Stands k q s) : Stands k
    { q with flags := { q.flags with fabricMismatch := q.flags.fabricMismatch || s.mismatched q } } (fabricCheck q s) := by
  obtain rfl := st.tag
  unfold fabricCheck State.mismatched
  dsimp only
  split
  · next same =>
    rw [decide_eq_false (not_not.mpr same), Bool.or_false]
    exact st
  · next other =>
    rw [decide_eq_true other, Bool.or_true]
    exact (st.updPanel (f := fun p => { p with flags := { p.flags with fabricMismatch := true } }) fun _ => rfl).runs
      (b := false) warn_runs warn_keeps (by decide)

theorem rejectTrigger_none {tag : Nat} {a : Int} {d : Option Dir} (h : s.noSlot = true) : rejectTrigger tag a d s =
    warn (.triggerFull tag) (updPanel tag (fun p => { p with flags := { p.flags with rejectUnmarked := true } }) s) := by
  unfold rejectTrigger
  rw [Option.isNone_iff_eq_none.mp h]

theorem rejectTrigger_stands (st : Stands k q s) (a : Int) (d : Option Dir) : Stands k
    { q with flags := { q.flags with rejectUnmarked := q.flags.rejectUnmarked || s.noSlot } } (rejectTrigger k a d s) := by
  cases h : s.noSlot with
  | true =>
    rw [rejectTrigger_none h, Bool.or_true]
    exact (st.updPanel (f := fun p => { p with flags := { p.flags with rejectUnmarked := true } }) fun _ => rfl).runs
      (b := false) warn_runs warn_keeps (by decide)
  | false =>
    rw [Bool.or_false]
    obtain ⟨i, free⟩ := Option.isSome_iff_exists.mp (Option.isNone_eq_false_iff.mp h)
    unfold rejectTrigger
    rw [free]
    dsimp only
    exact (st.keeps setTrigSlot_keeps (by decide) (by decide)).runs (b := false) resolveSlot_runs resolveSlot_keeps
      (by decide)

/-- The record of a panel that comes to the nip, with a splice at it or not. -/
def Panel.came (spliced : Bool) (p : Panel) : Panel :=
  { p with
    arrived := true
    flags := { p.flags with spliceAffected := p.flags.spliceAffected || spliced }
    state := if p.state = .printed || p.state = .spoiled then .inArc else p.state }

/-- A panel that arrives: it is checked, it comes to the nip, and it gets its reject trigger where it is spoiled. -/
theorem arrive_eq (st : Stands k q s) (d : Option Dir) : arrive k d s =
    let u := updPanel k (Panel.came s.trg.spliceAtNip) (fabricCheck q s)
    if q.state = .spoiled then rejectTrigger k (q.arrival.getD 0) d u else u := by
  have trg : (fabricCheck q s).trg = s.trg := fabricCheck_keeps .trg (by decide)
  unfold arrive
  rw [st.found, ← trg]
  rfl

theorem came_trg (tag : Nat) (q : Panel) (s : State) (f : Panel → Panel) : (updPanel tag f (fabricCheck q s)).trg = s.trg :=
  (updPanel_keeps .trg (by decide)).trans (fabricCheck_keeps .trg (by decide))

/-- The record of a panel that arrives. -/
theorem arrive_stands (st : Stands k q s) (d : Option Dir) :
    Stands k (q.arriving s (decide (q.state = .spoiled) && s.noSlot)) (arrive k d s) := by
  have came := (fabricCheck_stands st).updPanel (f := Panel.came s.trg.spliceAtNip) fun _ => rfl
  rw [arrive_eq st]
  dsimp only
  split
  · next spoiled =>
    have rejected := rejectTrigger_stands came (q.arrival.getD 0) d
    have slots : State.noSlot (updPanel k (Panel.came s.trg.spliceAtNip) (fabricCheck q s)) = s.noSlot :=
      congrArg (fun u : TrigUnit => (indexOf TrigSlot.isFree u.slots).isNone) (came_trg k q s _)
    rw [slots] at rejected
    rw [show (decide (q.state = .spoiled) && s.noSlot) = s.noSlot by rw [decide_eq_true spoiled]; rfl]
    exact rejected
  · next sound =>
    rw [show (decide (q.state = .spoiled) && s.noSlot) = false by rw [decide_eq_false sound]; rfl]
    unfold Panel.arriving
    rw [Bool.or_false]
    exact came

/-! ## The warning and the trigger -/

theorem fabricCheck_noticed (h : s.mismatched q = true) : Noticed (.warning (.fabricMismatch q.tag
    (s.prf.entry q.profile).media (s.trg.nip.map fun n => (s.prf.entry n).media))) s (fabricCheck q s) := by
  unfold fabricCheck
  dsimp only
  rw [if_neg (of_decide_eq_true h)]
  exact notice_noticed _ _

theorem arrive_noticed (st : Stands k q s) (h : s.mismatched q = true) (d : Option Dir) : Noticed (.warning
    (.fabricMismatch k (s.prf.entry q.profile).media (s.trg.nip.map fun n => (s.prf.entry n).media))) s
      (arrive k d s) := by
  have checked := fabricCheck_noticed h
  rw [st.tag] at checked
  have came := checked.seen (runs_of_keeps (b := false) (updPanel_keeps (tag := k) (f := Panel.came s.trg.spliceAtNip))
    (by decide)).tellsOn
  rw [arrive_eq st]
  dsimp only
  split
  · exact came.seen (rejectTrigger_runs (b := false)).tellsOn
  · exact came

theorem indexOf_none {α : Type} {f : α → Bool} {l : List α} (h : indexOf f l = none) : ∀ x ∈ l, f x = false := by
  induction l with
  | nil => exact nofun
  | cons x xs ih =>
    unfold indexOf at h
    split at h
    · exact nomatch h
    · next hx =>
      intro y hy
      rcases List.mem_cons.mp hy with rfl | hy
      · simpa using hx
      · exact ih (Option.map_eq_none_iff.mp h) y hy

theorem resolveSlot_eq {i : Nat} {o : Origin} {e : Trigger} {a p : Int} {d : Option Dir}
    (at_ : s.trg.slots[i]? = some (.held o e))
    (hp : clamp (-Config.countLimit) Config.countLimit (a + (e.anchor.map Prod.snd).getD 0) = p) : resolveSlot i a d s =
      let e' := { e with position := some p }
      if e.armed && e'.passed s.pp p then fire i o e' d true (setTrigSlot i (.held o e') s)
      else setTrigSlot i (.held o e') s := by
  subst hp
  unfold resolveSlot
  rw [at_]
  rfl

/-- The reject trigger of a panel before its position is resolved. -/
def State.rejectWaits (s : State) (tag : Nat) : Trigger :=
  ⟨.paper, none, some (tag, s.par.arcLen + s.par.dMark), .forward, .pulse .markout, .oneShot, true⟩

theorem rejectTrigger_some {i : Nat} {a : Int} {d : Option Dir} (found : indexOf TrigSlot.isFree s.trg.slots = some i) :
    rejectTrigger k a d s =
      let v := setTrigSlot i (.held .panel (s.reject k a)) (setTrigSlot i (.held .panel (s.rejectWaits k)) s)
      if max (-2000000000) (min 2000000000 (a + (s.par.arcLen + s.par.dMark))) ≤ s.pp then
        fire i .panel (s.reject k a) d true v
      else v := by
  obtain ⟨x, hx, -⟩ := indexOf_some found
  have at_ : (setTrigSlot i (.held .panel (s.rejectWaits k)) s).trg.slots[i]? = some (.held .panel (s.rejectWaits k)) :=
    List.getElem?_set_self (List.getElem?_eq_some_iff.mp hx).1
  have resolved := resolveSlot_eq (d := d) at_ (clamp_eq_max_min (v := a + (s.par.arcLen + s.par.dMark)) (by decide))
  have e : rejectTrigger k a d s = resolveSlot i a d (setTrigSlot i (.held .panel (s.rejectWaits k)) s) := by
    unfold rejectTrigger
    rw [found]
    rfl
  rw [e, resolved]
  refine if_congr ?_ rfl rfl
  exact decide_eq_true_iff

theorem fire_late {i : Nat} {o : Origin} {e : Trigger} {out : Output} {d : Dir} (h : e.action = .pulse out) :
    (fire i o e (some d) true s).trg.pulses = s.trg.pulses.set out (some ⟨0, (s.par.wOut.get out).toNat⟩)
    ∧ Noticed (.triggerFired i o e.action e.position (e.anchor.map Prod.fst) (s.axisCount e.axis) d .late) s
        (fire i o e (some d) true s) := by
  unfold fire
  rw [h]
  dsimp only
  rw [if_pos rfl]
  refine ⟨?_, ?_⟩
  · exact (congrArg TrigUnit.pulses triggerNotice_trg).trans rfl
  · unfold triggerNotice noticeDir
    rw [h]
    exact (notice_noticed _ (startPulse out s)).seen (setTrigSlot_runs (b := false)).tellsOn

/-- The reject trigger of a panel, where a slot is free. -/
theorem rejectTrigger_free {a : Int} (free : .free ∈ s.trg.slots) :
    let mark := max (-2000000000) (min 2000000000 (a + (s.par.arcLen + s.par.dMark)))
    if s.pp < mark then .held .panel (s.reject k a) ∈ (rejectTrigger k a (some .forward) s).trg.slots
    else (rejectTrigger k a (some .forward) s).trg.pulses.markout = some ⟨0, s.par.wOut.markout.toNat⟩
      ∧ ∃ i, Noticed (.triggerFired i .panel (.pulse .markout) (some mark) (some k) s.pp .forward .late) s
          (rejectTrigger k a (some .forward) s) := by
  intro mark
  cases found : indexOf TrigSlot.isFree s.trg.slots with
  | none => exact nomatch indexOf_none found _ free
  | some i =>
    obtain ⟨x, hx, -⟩ := indexOf_some found
    have lt : i < s.trg.slots.length := (List.getElem?_eq_some_iff.mp hx).1
    rw [rejectTrigger_some found]
    dsimp only
    split
    · next ahead =>
      rw [if_neg (Int.not_le.mpr ahead)]
      refine List.mem_of_getElem? (i := i) (List.getElem?_set_self ?_)
      exact (List.length_set).symm ▸ lt
    · next passed =>
      rw [if_pos (Int.not_lt.mp passed)]
      obtain ⟨pulses, noticed⟩ := fire_late (i := i) (o := .panel) (e := s.reject k a) (d := .forward)
        (s := setTrigSlot i (.held .panel (s.reject k a)) (setTrigSlot i (.held .panel (s.rejectWaits k)) s)) rfl
      exact ⟨by rw [pulses]; rfl, i, noticed⟩

end Sys2Proof.Machine
end

