-- ==== Sys2Proof/Proofs/ArrivalsReached.lean ====
section
/-! SUPPORT. The arrivals of a forward count update of PP, for one panel: its record, the fabric warning, and the reject
trigger of the one that is spoiled (08 R145, R147, 07 R127, 09 R155, R156). -/

namespace Sys2Proof.Machine
open Sys2Proof

variable {k : Nat} {q : Panel} {s t u : State} {a : Int}

/-! ## The fabric at the nip and the splices stay -/

theorem resolveSlot_fabricSame {i : Nat} {d : Option Dir} : FabricSame s (resolveSlot i a d s) := resolveSlot_crossed.same

theorem fabricSame_of_keeps {l : List Block} (h : Keeps l s t) (h' : Block.trg ∉ l) : FabricSame s t :=
  fabricSame_of_trg (h .trg h')

theorem rejectTrigger_fabricSame {tag : Nat} {d : Option Dir} : FabricSame s (rejectTrigger tag a d s) := by
  unfold rejectTrigger
  split
  · exact fabricSame_trans ⟨_, _, _, rfl⟩ resolveSlot_fabricSame
  · exact fabricSame_trans (fabricSame_of_keeps updPanel_keeps (by decide)) (fabricSame_of_keeps warn_keeps (by decide))

theorem afterPrint_fabricSame {tag : Nat} {d : Option Dir} : FabricSame s (afterPrint tag d s) := by
  unfold afterPrint
  split
  · split
    · dsimp only
      split
      · exact fabricSame_trans (fabricSame_of_keeps updPanel_keeps (by decide)) rejectTrigger_fabricSame
      · exact fabricSame_of_keeps updPanel_keeps (by decide)
    · exact fabricSame_of_trg rfl
  · exact fabricSame_of_trg rfl

theorem doneDeadline_fabricSame {x : Txn} {d : Option Dir} : FabricSame s (doneDeadline x d s) := by
  have withdrawn : FabricSame s (withdraw x.num x.tag (s.upPq fun q => { q with live := dropTxn x.num x.tag q.live })) :=
    fabricSame_of_trg (withdraw_keeps .trg (by decide))
  exact fabricSame_trans (fabricSame_trans (fabricSame_trans withdrawn (fabricSame_of_keeps updPanel_keeps (by decide)))
    (fabricSame_of_keeps warn_keeps (by decide))) afterPrint_fabricSame

theorem deadlineAt_fabricSame {new : Int} {x : Txn} : FabricSame s (deadlineAt new s x) := by
  unfold deadlineAt
  split
  · cases x.phase with
    | awaitAccept =>
      dsimp only
      split
      · exact startingDeadline_orphaned.fabric
      · exact fabricSame_of_trg rfl
    | printing =>
      dsimp only
      split
      · exact doneDeadline_fabricSame
      · exact fabricSame_of_trg rfl
  · exact fabricSame_of_trg rfl

theorem deadlineUpdate_fabricSame (new : Int) (s : State) : FabricSame s (deadlineUpdate new s) :=
  fabricSame_foldl (fun _ _ => deadlineAt_fabricSame) _ s

theorem arrive_fabricSame {tag : Nat} {d : Option Dir} : FabricSame s (arrive tag d s) := by
  unfold arrive
  split
  · next p _ =>
    have came : ∀ f, FabricSame s (updPanel tag f (fabricCheck p s)) := fun f => fabricSame_of_trg (came_trg tag p s f)
    dsimp only
    split
    · exact fabricSame_trans (came _) rejectTrigger_fabricSame
    · exact came _
  · exact fabricSame_of_trg rfl

/-- The check of an arriving panel depends on the fabrics alone. -/
theorem arriving_congr (same : FabricSame s t) (refs : RefsOnly s t) (reject : Bool) (q : Panel) :
    q.arriving t reject = q.arriving s reject
    ∧ t.trg.nip.map (fun n => (t.prf.entry n).media) = s.trg.nip.map (fun n => (s.prf.entry n).media)
    ∧ (t.prf.entry q.profile).media = (s.prf.entry q.profile).media := by
  have media : ∀ n, (t.prf.entry n).media = (s.prf.entry n).media := fun n => (congrArg Entry.media (refs n) :)
  obtain ⟨_, _, _, e⟩ := same
  have nip : t.trg.nip = s.trg.nip := by rw [e]
  have splices : t.trg.splices = s.trg.splices := by rw [e]
  refine ⟨?_, by rw [nip]; simp only [media], media _⟩
  unfold Panel.arriving State.mismatched TrigUnit.spliceAtNip
  rw [nip, splices]
  simp only [media]

/-! ## The reject trigger -/

/-- The reject trigger of panel `k` at the arrival `a` holds a slot, or has fired LATE (07 R127, 09 R155). -/
def Rejected (k : Nat) (a : Int) (s t : State) : Prop :=
  let mark := max (-2000000000) (min 2000000000 (a + (s.par.arcLen + s.par.dMark)))
  if s.pp < mark then .held .panel (s.reject k a) ∈ t.trg.slots
  else t.trg.pulses.markout = some ⟨0, s.par.wOut.markout.toNat⟩
    ∧ ∃ i, Noticed (.triggerFired i .panel (.pulse .markout) (some mark) (some k) s.pp .forward .late) s t

theorem Rejected.later (h : Rejected k a s t) (orphaned : Orphaned t u) (tells : TellsOn t u) : Rejected k a s u := by
  unfold Rejected at *
  dsimp only at *
  split at h
  · next ahead =>
    rw [if_pos ahead]
    exact orphaned.slot h fun _ => rfl
  · next passed =>
    rw [if_neg passed]
    obtain ⟨pulse, i, noticed⟩ := h
    exact ⟨by rw [orphaned.pulses]; exact pulse, i, noticed.seen tells⟩

theorem Rejected.before (h : Rejected k a t u) (par : t.par = s.par) (pp : t.pp = s.pp)
    (clock : t.cnt.clock = s.cnt.clock) : Rejected k a s u := by
  unfold Rejected State.reject Noticed at *
  rwa [par, pp, clock] at h

/-- A spoiled panel that arrives with a slot free. -/
theorem arrive_rejected (st : Stands k q s) (spoiled : q.state = .spoiled) (free : .free ∈ s.trg.slots)
    (arrival : q.arrival = some a) : Rejected k a s (arrive k (some .forward) s) := by
  have checked : Keeps [.pq, .flt] s (updPanel k (Panel.came s.trg.spliceAtNip) (fabricCheck q s)) :=
    keeps_then fabricCheck_keeps updPanel_keeps (by decide)
  have clock := congrArg Counting.clock (checked .cnt (by decide))
  have trg := checked .trg (by decide)
  have par := checked .par (by decide)
  have pp : State.pp _ = s.pp := congrArg (fun c : Counting => c.chan.paper.count) (checked .cnt (by decide))
  rw [arrive_eq st, arrival]
  dsimp only
  rw [if_pos spoiled]
  generalize updPanel k (Panel.came s.trg.spliceAtNip) (fabricCheck q s) = u at clock trg par pp
  exact Rejected.before (rejectTrigger_free (k := k) (a := a) (trg ▸ free)) par pp clock

/-- A spoiled panel that arrives with every slot held. -/
theorem arrive_full (st : Stands k q s) (spoiled : q.state = .spoiled) (full : s.noSlot = true) (d : Option Dir) :
    Noticed (.warning (.triggerFull k)) s (arrive k d s) := by
  have checked : Keeps [.pq, .flt] s (updPanel k (Panel.came s.trg.spliceAtNip) (fabricCheck q s)) :=
    keeps_then fabricCheck_keeps updPanel_keeps (by decide)
  have clock := congrArg Counting.clock (checked .cnt (by decide))
  have slots : State.noSlot (updPanel k (Panel.came s.trg.spliceAtNip) (fabricCheck q s)) = true := by
    unfold State.noSlot at *
    rwa [checked .trg (by decide)]
  rw [arrive_eq st]
  dsimp only
  rw [if_pos spoiled, rejectTrigger_none slots]
  exact (notice_noticed _ _).before clock

theorem noSlot_of_full (full : ∀ x ∈ s.trg.slots, x.Settled) : s.noSlot = true := by
  unfold State.noSlot
  cases found : indexOf TrigSlot.isFree s.trg.slots with
  | none => rfl
  | some i =>
    obtain ⟨x, hx, free⟩ := indexOf_some found
    obtain ⟨e, rfl, -⟩ := full x (List.mem_of_getElem? hx)
    exact nomatch free

/-! ## The arrivals of the update -/

/-- What the arrivals of an update make of a panel among them. -/
structure Arrived (k : Nat) (q : Panel) (a : Int) (s t : State) (reject : Bool) : Prop where
  stands : Stands k (q.arriving s reject) t
  sound : q.state ≠ .spoiled → reject = false
  checked : s.mismatched q = true → Noticed (.warning
    (.fabricMismatch k (s.prf.entry q.profile).media (s.trg.nip.map fun n => (s.prf.entry n).media))) s t
  rejected : Calm k s → q.state = .spoiled → .free ∈ s.trg.slots → Rejected k a s t
  full : Calm k s → q.state = .spoiled → (∀ x ∈ s.trg.slots, x.Settled) →
    reject = true ∧ Noticed (.warning (.triggerFull k)) s t

theorem arrivals_split (once : (s.pq.queue.map Panel.tag).Nodup) (mem : k ∈ arrivals s.pq.queue s.pp) :
    ∃ before after, arrivals s.pq.queue s.pp = before ++ k :: after ∧ k ∉ before ∧ k ∉ after := by
  obtain ⟨before, after, e⟩ := List.append_of_mem mem
  have nodup := arrivals_once once s.pp
  rw [e] at nodup
  obtain ⟨-, rest, apart⟩ := List.nodup_append.mp nodup
  exact ⟨before, after, e, fun h => apart k h k List.mem_cons_self rfl, (List.nodup_cons.mp rest).1⟩

theorem arrivals_pass (l : List Nat) (d : Option Dir) (other : k ∉ l) (s : State) :
    Passes (· == k) Eq s (l.foldl (fun s tag => arrive tag d s) s) :=
  passes_foldl (f := fun s tag => arrive tag d s) l (fun _ tag mem => arrive_passes (fun _ => rfl) fun same =>
    absurd (by simpa using same) fun e : tag = k => other (e ▸ mem)) s

theorem arriveReached_arrived (st : Stands k q s) (arrival : q.arrival = some a) (new : q.arrived = false)
    (reaches : a ≤ s.pp) : ∃ reject, Arrived k q a s (arriveReached (some .forward) s) reject := by
  obtain ⟨before, after, e, first, rest⟩ := arrivals_split st.once
    (mem_arrivals.mpr ⟨q, st.mem, st.tag, new, a, arrival, reaches⟩)
  unfold arriveReached
  rw [e, List.foldl_append, List.foldl_cons]
  have kept := st.kept (arrivals_pass before (some .forward) first s)
  have blocks : Keeps [.pq, .trg, .flt, .free] s (before.foldl (fun s tag => arrive tag (some .forward) s) s) :=
    keeps_foldl (f := fun s tag => arrive tag (some .forward) s) (fun _ _ => keeps_mono arrive_keeps (by decide)) before s
  have same : FabricSame s (before.foldl (fun s tag => arrive tag (some .forward) s) s) :=
    fabricSame_foldl (f := fun s tag => arrive tag (some .forward) s) (fun _ _ => arrive_fabricSame) before s
  have calm : Calm k s → _ := fun h => h.arrivals (d := some .forward) first
  generalize before.foldl (fun s tag => arrive tag (some .forward) s) s = u at kept blocks same calm
  obtain ⟨record, nip, media⟩ := arriving_congr same (refsOnly_of_keeps blocks (by decide))
    (decide (q.state = .spoiled) && u.noSlot) q
  have par : u.par = s.par := blocks .par (by decide)
  have cnt : u.cnt = s.cnt := blocks .cnt (by decide)
  have clock : u.cnt.clock = s.cnt.clock := congrArg Counting.clock cnt
  have pp : u.pp = s.pp := congrArg (fun c : Counting => c.chan.paper.count) cnt
  have came := arrive_stands kept (some .forward)
  rw [record] at came
  have tells : ∀ v, TellsOn v (after.foldl (fun s tag => arrive tag (some .forward) s) v) := fun v =>
    (runs_foldl (b := false) (f := fun s tag => arrive tag (some .forward) s) (fun _ _ => arrive_runs) after v).tellsOn
  refine ⟨decide (q.state = .spoiled) && u.noSlot, came.kept (arrivals_pass after _ rest _), fun sound => ?_, fun mis => ?_,
    fun h spoiled free => ?_, fun h spoiled full => ?_⟩
  · rw [decide_eq_false sound, Bool.false_and]
  · have mis' : u.mismatched q = true := by
      unfold State.mismatched at *
      rwa [nip, media]
    have noticed := arrive_noticed kept mis' (some .forward)
    rw [nip, media] at noticed
    exact (noticed.before clock).seen (tells _)
  · obtain ⟨calm, orphaned⟩ := calm h
    have rejected := arrive_rejected kept spoiled (orphaned.slot free fun _ => rfl) arrival
    exact (rejected.before par pp clock).later ((calm.arrive (tag := k)).arrivals rest).2 (tells _)
  · obtain ⟨calm, orphaned⟩ := calm h
    have none := noSlot_of_full (orphaned.crossed.full full)
    refine ⟨by rw [decide_eq_true spoiled, none]; rfl, ?_⟩
    exact ((arrive_full kept spoiled none _).before clock).seen (tells _)

end Sys2Proof.Machine
end

