-- ==== Sys2Proof/Proofs/PanelsReached.lean ====
section
/-! SUPPORT. A panel with an arrival through the stages of a forward count update of PP before the dose unit: the end of its
print, and its arrival at the nip (07 R125 to R127, 08 R145, R147, 09 R164). -/

namespace Sys2Proof.Machine
open Sys2Proof

variable {k : Nat} {q : Panel} {s : State} {a new : Int}

/-- The record of a panel after the arrivals of an update, among them or not. -/
def Panel.passed (arrives mismatch spliced reject : Bool) (q : Panel) : Panel :=
  { q with
    arrived := q.arrived || arrives
    state := if arrives = true ∧ (q.state = .printed ∨ q.state = .spoiled) then .inArc else q.state
    flags := { q.flags with
      fabricMismatch := q.flags.fabricMismatch || (arrives && mismatch)
      spliceAffected := q.flags.spliceAffected || (arrives && spliced)
      rejectUnmarked := q.flags.rejectUnmarked || (arrives && reject) } }

theorem passed_not (mismatch spliced reject : Bool) (q : Panel) : q.passed false mismatch spliced reject = q := by
  simp [Panel.passed]

theorem passed_arriving (s : State) (reject : Bool) (q : Panel) :
    q.passed true (s.mismatched q) s.trg.spliceAtNip reject = q.arriving s reject := by
  simp [Panel.passed, Panel.arriving]

theorem passed_keyed (arrives mismatch spliced reject : Bool) (q : Panel) :
    q.Keyed (q.passed arrives mismatch spliced reject) :=
  ⟨rfl, rfl, rfl, rfl⟩

theorem Panel.EndsPrint.keyed {p p' : Panel} (h : p.EndsPrint p') : p.Keyed p' := by
  obtain ⟨_, _, _, _, _, _, -, rfl⟩ := h
  exact ⟨rfl, rfl, rfl, rfl⟩

/-- A panel with an arrival is past STARTING. -/
theorem QueueOk.past (ok : QueueOk s) (mem : q ∈ s.pq.queue) (arrival : q.arrival = some a) :
    q.state ≠ .queued ∧ q.state ≠ .starting := by
  constructor <;> intro e
  · rw [(ok.unseen q mem (.inl e)).1] at arrival
    exact nomatch arrival
  · rw [(ok.unseen q mem (.inr e)).1] at arrival
    exact nomatch arrival

/-- The done deadline of the panel lies beyond the update (07 R125). -/
def Panel.short (q : Panel) (s : State) (new : Int) : Prop := ∃ x, q.xs = some x ∧ new < x + q.length + s.par.mDone

/-- A panel with an arrival after the deadlines of an update. -/
theorem QueueOk.deadlines_record {ticks : Ticks} (ok : QueueOk s) (st : Stands q.tag q s) (arrival : q.arrival = some a)
    (forward : s.pp < new) : ∃ p, q.EndsPrint p ∧ (q.state ≠ .printing ∨ q.short s new → p = q)
      ∧ Stands q.tag p (deadlineUpdate new ((s.ranged ticks).tracked s.pp new)) := by
  have past := ok.past st.mem arrival
  have marked := (st.ranged (ok.freeStarts st.mem past.2) ticks).tracked_arrived forward arrival
  have live : ∀ x ∈ ((s.ranged ticks).tracked s.pp new).pq.live, x ∈ s.pq.live := fun x hx => by
    rw [tracked_pq forward] at hx
    exact ranged_live ticks s x hx
  have par : ((s.ranged ticks).tracked s.pp new).par = s.par :=
    (tracked_keeps s.pp new _ .par (by decide)).trans (ranged_keeps ticks s .par (by decide))
  have prints : ∀ x ∈ s.pq.live, x.tag = q.tag → x.phase = .printing ∧ q.state = .printing := fun x hx tag => by
    have phase := ok.phase st.mem hx tag
    cases e : x.phase <;> rw [e] at phase
    · exact absurd phase past.2
    · exact ⟨rfl, phase⟩
  by_cases calm : q.state ≠ .printing ∨ q.short s new
  · refine ⟨q, .refl q, fun _ => rfl, marked.deadlines fun x hx tag => ?_⟩
    obtain ⟨phase, state⟩ := prints x (live x hx) tag
    obtain ⟨y, xs, short⟩ := calm.resolve_left (not_not.mpr state)
    exact ⟨phase, by rw [xs, par]; exact short⟩
  · obtain ⟨p, ends, stands⟩ := marked.deadlines_end new fun x hx tag => (prints x (live x hx) tag).1
    exact ⟨p, ends, fun h => absurd h calm, stands⟩

/-! ## The blocks up to the arrivals -/

section
variable (ticks : Ticks) (forward : s.pp < new)

/-- The deadlines of an update taken (07 R119, R125). -/
def State.timed (ticks : Ticks) (new : Int) (s : State) : State := deadlineUpdate new ((s.ranged ticks).tracked s.pp new)

theorem timed_par : (s.timed ticks new).par = s.par :=
  (deadlineUpdate_keeps .par (by decide)).trans
    ((tracked_keeps s.pp new _ .par (by decide)).trans (ranged_keeps ticks s .par (by decide)))

theorem timed_cnt : (s.timed ticks new).cnt = (s.ranged ticks).cnt :=
  (deadlineUpdate_keeps .cnt (by decide)).trans (tracked_keeps s.pp new _ .cnt (by decide))

theorem timed_pp (h : (s.cnt.chan.paper.take ticks).count = new) : (s.timed ticks new).pp = new := by
  have pp : (s.timed ticks new).pp = (s.ranged ticks).pp :=
    congrArg (fun c : Counting => c.chan.paper.count) (timed_cnt ticks)
  rw [pp, ranged_pp, h]

theorem timed_clock : (s.timed ticks new).cnt.clock = s.cnt.clock := by rw [timed_cnt, ranged_cnt]

theorem timed_fabricSame : FabricSame s (s.timed ticks new) :=
  fabricSame_trans (fabricSame_trans (ranged_orphaned ticks s).fabric (tracked_crossed s.pp new _).same)
    (deadlineUpdate_fabricSame new _)

theorem timed_refsOnly : RefsOnly s (s.timed ticks new) :=
  refsOnly_trans (refsOnly_trans (ranged_refsOnly ticks s) (tracked_refsOnly s.pp new _))
    (refsOnly_foldl (fun _ _ => deadlineAt_refsOnly) _ _)

/-- Where no panel prints, the update up to the arrivals leaves it so, and the trigger table with them. -/
theorem QueueOk.timed_calm (ok : QueueOk s) (calm : Calm k s) (forward : s.pp < new) :
    Calm k (s.timed ticks new) ∧ Crossed s (s.timed ticks new) := by
  have starts : ∀ x ∈ ((s.ranged ticks).tracked s.pp new).pq.live, x.phase = .awaitAccept := fun x hx => by
    rw [tracked_pq forward] at hx
    obtain ⟨p, hp, -, state⟩ := ok.live x (ranged_live ticks s x hx)
    cases e : x.phase with
    | awaitAccept => rfl
    | printing =>
      rw [e] at state
      exact absurd state (calm p hp).1
  obtain ⟨timed, orphaned⟩ := ((calm.ranged ticks).tracked forward).deadlines (new := new) starts
  exact ⟨timed, ((ranged_orphaned ticks s).crossed.trans (tracked_crossed s.pp new _)).trans orphaned.crossed⟩

end

/-! ## The panel at the dose unit -/

/-- A panel with an arrival comes to the dose unit as `p` with its arrival, if it is one of the update. -/
structure Reaches (ticks : Ticks) (q : Panel) (a : Int) (s : State) (new : Int) (p : Panel) (reject : Bool) : Prop where
  ends : q.EndsPrint p
  calm : q.state ≠ .printing ∨ q.short s new → p = q
  stands : Stands q.tag (p.passed (!q.arrived && decide (a ≤ new)) (s.mismatched q) s.trg.spliceAtNip reject)
    (((s.ranged ticks).tracked s.pp new).reached new)
  sound : p.state ≠ .spoiled → reject = false
  checked : q.arrived = false → a ≤ new → s.mismatched q = true → Noticed (.warning
    (.fabricMismatch q.tag (s.prf.entry q.profile).media (s.trg.nip.map fun n => (s.prf.entry n).media))) s
    (((s.ranged ticks).tracked s.pp new).reached new)
  rejected : q.arrived = false → a ≤ new → Calm q.tag s → q.state = .spoiled → .free ∈ s.trg.slots →
    Rejected q.tag a (s.timed ticks new) (((s.ranged ticks).tracked s.pp new).reached new)
  full : q.arrived = false → a ≤ new → Calm q.tag s → q.state = .spoiled → (∀ x ∈ s.trg.slots, x.Settled) →
    reject = true ∧ Noticed (.warning (.triggerFull q.tag)) s (((s.ranged ticks).tracked s.pp new).reached new)

theorem QueueOk.reaches {ticks : Ticks} (ok : QueueOk s) (st : Stands q.tag q s) (arrival : q.arrival = some a)
    (forward : s.pp < new) (count : (s.cnt.chan.paper.take ticks).count = new) :
    ∃ p reject, Reaches ticks q a s new p reject := by
  obtain ⟨p, ends, calm, stands⟩ := ok.deadlines_record (ticks := ticks) st arrival forward
  have keyed := ends.keyed
  have pp := timed_pp (s := s) ticks count
  have clock := timed_clock (s := s) (new := new) ticks
  have arrived : p.arrived = q.arrived := by
    obtain ⟨_, _, _, _, _, _, -, rfl⟩ := ends
    rfl
  have profile : p.profile = q.profile := by
    obtain ⟨_, _, _, _, _, _, -, rfl⟩ := ends
    rfl
  have mismatched : s.mismatched p = s.mismatched q := by
    unfold State.mismatched
    rw [profile]
  by_cases arrives : q.arrived = false ∧ a ≤ new
  · obtain ⟨new_, reaches⟩ := arrives
    obtain ⟨reject, here⟩ := arriveReached_arrived (s := s.timed ticks new) stands (keyed.arrival.trans arrival)
      (arrived.trans new_) (Int.le_trans reaches (Int.le_of_eq pp.symm))
    obtain ⟨record, nip, media⟩ := arriving_congr (timed_fabricSame ticks)
      (timed_refsOnly (s := s) (new := new) ticks) reject p
    have warned : (s.timed ticks new).mismatched p = s.mismatched q := by
      rw [← mismatched]
      unfold State.mismatched
      rw [nip, media]
    refine ⟨p, reject, ends, calm, ?_, here.sound, fun _ _ mis => ?_, fun _ _ alone spoiled free => ?_,
      fun _ _ alone spoiled full => ?_⟩
    · have stands := here.stands
      rw [record, ← passed_arriving, mismatched] at stands
      rw [new_, decide_eq_true reaches]
      exact stands
    · have noticed := here.checked (warned.trans mis)
      rw [nip, media, profile] at noticed
      exact noticed.before clock
    · obtain ⟨calm', crossed⟩ := ok.timed_calm ticks alone forward
      have same : p = q := calm (.inl (by rw [spoiled]; nofun))
      exact here.rejected calm' (same ▸ spoiled) (crossed.free free)
    · obtain ⟨calm', crossed⟩ := ok.timed_calm ticks alone forward
      have same : p = q := calm (.inl (by rw [spoiled]; nofun))
      obtain ⟨reject, noticed⟩ := here.full calm' (same ▸ spoiled) (crossed.full full)
      exact ⟨reject, noticed.before clock⟩
  · refine ⟨p, false, ends, calm, ?_, fun _ => rfl, fun n r => absurd ⟨n, r⟩ arrives, fun n r => absurd ⟨n, r⟩ arrives,
      fun n r => absurd ⟨n, r⟩ arrives⟩
    have stays : (!q.arrived && decide (a ≤ new)) = false := by
      by_contra h
      simp only [Bool.not_eq_false, Bool.and_eq_true, Bool.not_eq_true', decide_eq_true_eq] at h
      exact arrives h
    rw [stays, passed_not]
    refine stands.arrivals_other _ ?_
    rw [arrived, keyed.arrival, show State.pp (deadlineUpdate new _) = new from pp]
    cases e : q.arrived with
    | true => exact .inl rfl
    | false =>
      refine .inr fun b hb => ?_
      cases arrival.symm.trans hb
      exact Int.not_le.mp fun le => arrives ⟨e, le⟩

end Sys2Proof.Machine
end

