-- ==== Sys2Proof/Proofs/PointsFollow.lean ====
section
/-! SUPPORT. The probe points of a forward count update of PP are those of the records as the update has found them (04 R64,
R65): a panel whose arrival it sets has no point in its interval. -/

namespace Sys2Proof.Machine
open Sys2Proof

variable {q : Panel} {s : State} {ticks : Ticks} {a old new x : Int}

theorem Panel.Keyed.handles {p p' : Panel} (h : p.Keyed p') (sp old new x : Int) :
    p'.handles sp old new x = p.handles sp old new x := by
  unfold Panel.handles
  rw [h.dose, h.arrival, h.length]

/-- The arrival of the record has been set at `new`. -/
def Panel.FreshAt (new sp : Int) (p : Panel) : Prop :=
  ∃ a, p.arrival = some a ∧ p.dose = some (doseFieldsAt new a p.length sp).1

theorem Panel.FreshAt.awaits {p : Panel} {sp : Int} (h : p.FreshAt new sp) (hs : 0 < sp) (k : p.awaits x) : new < x := by
  obtain ⟨a, arrival, dose⟩ := h
  exact fresh_awaits hs dose (by unfold Panel.trailing; rw [arrival]; rfl) k

theorem Panel.FreshAt.not_handles {p : Panel} {sp : Int} (h : p.FreshAt new sp) (hs : 0 < sp) :
    p.handles sp old new x = false := by
  by_contra k
  obtain ⟨y, awaits, inside, -⟩ := awaits_of_handles (by simpa using k)
  have := h.awaits hs awaits
  omega

theorem Panel.FreshAt.pointOn {p : Panel} {sp : Int} (h : p.FreshAt new sp) (hs : 0 < sp) : p.PointOn := by
  obtain ⟨a, arrival, dose⟩ := h
  intro d hd n hn
  cases dose.symm.trans hd
  unfold Panel.trailing
  rw [arrival]
  obtain ⟨-, ⟨on, short, -⟩ | e⟩ := ((doseFieldsAt_least hs).least n hn).1
  · exact ⟨Int.le_of_lt short, .inl on⟩
  · exact ⟨Int.le_of_eq e, .inr e⟩

theorem QueueOk.reached_once (ok : QueueOk s) (ticks : Ticks) (forward : s.pp < new) :
    ((((s.ranged ticks).tracked s.pp new).reached new).pq.queue.map Panel.tag).Nodup :=
  passes_nodup (reached_passes new _) (tracked_once forward (passes_nodup
    (ranged_passes (K := fun _ => false) (ρ := Eq) ticks s fun _ _ _ => rfl) (PanelQueue.TagsOnce.queue ok.tags)))

/-- Every record at the dose unit is one that the update has found, or has its arrival set at the update. -/
theorem QueueOk.reached_source (ok : QueueOk s) (forward : s.pp < new) (count : (s.cnt.chan.paper.take ticks).count = new) :
    ∀ p' ∈ (((s.ranged ticks).tracked s.pp new).reached new).pq.queue, ∃ p ∈ s.pq.queue, p'.tag = p.tag
      ∧ (p.Keyed p' ∨ p'.FreshAt new s.par.spacing) := by
  intro p' hp'
  obtain ⟨v, hv, keyed⟩ := reached_from new _ p' hp'
  rw [tracked_pq forward] at hv
  obtain ⟨u, hu, rfl⟩ := List.mem_map.mp hv
  obtain ⟨p, hp, returns⟩ := ranged_from ticks s u hu
  refine ⟨p, hp, keyed.tag.trans ((foldl_expireRecord_tag _ _ u).trans returns.keyed.tag), ?_⟩
  have once : ((s.ranged ticks).pq.queue.map Panel.tag).Nodup := passes_nodup
    (ranged_passes (K := fun _ => false) (ρ := Eq) ticks s fun _ _ _ => rfl) (PanelQueue.TagsOnce.queue ok.tags)
  by_cases own : ∃ r ∈ (s.ranged ticks).expired new, r.tag = u.tag
  · obtain ⟨r, hr, tag⟩ := own
    rw [foldl_expireRecord_own _ (expired_once new once) hr tag] at keyed
    have pp : (s.ranged ticks).pp = new := (ranged_pp ticks s).trans count
    have par : (s.ranged ticks).par = s.par := ranged_keeps ticks s .par (by decide)
    have e : (s.ranged ticks).expireRecord r u = _ := if_pos tag.symm
    rw [e] at keyed
    refine .inr ⟨_, keyed.arrival, keyed.dose.trans ?_⟩
    rw [keyed.length, pp, par]
  · rw [foldl_expireRecord_other _ fun r hr tag => own ⟨r, hr, tag⟩] at keyed
    exact .inl (returns.keyed.trans keyed)

theorem QueueOk.reached_pointOn (ok : QueueOk s) (points : PointsOk s) (hs : 0 < s.par.spacing) (forward : s.pp < new)
    (count : (s.cnt.chan.paper.take ticks).count = new) :
    ∀ p' ∈ (((s.ranged ticks).tracked s.pp new).reached new).pq.queue, p'.PointOn := by
  intro p' hp'
  obtain ⟨p, hp, -, keyed | fresh⟩ := ok.reached_source forward count p' hp'
  · intro d hd n hn
    have dose : p.dose = some d := keyed.dose.symm.trans hd
    cases arrival : p.arrival with
    | none => exact nomatch ((ok.measured p hp).mp arrival).symm.trans dose
    | some a =>
      obtain ⟨low, high⟩ := points p hp a arrival d dose n hn
      unfold Panel.trailing
      rw [keyed.arrival, keyed.length, arrival]
      exact ⟨high, .inl low⟩
  · exact fresh.pointOn hs

/-- A record that handles a point is one that the update has found. -/
theorem QueueOk.reached_handles (ok : QueueOk s) (hs : 0 < s.par.spacing) (forward : s.pp < new)
    (count : (s.cnt.chan.paper.take ticks).count = new) {p' : Panel}
    (hp' : p' ∈ (((s.ranged ticks).tracked s.pp new).reached new).pq.queue)
    (h : p'.handles s.par.spacing s.pp new x = true) :
    ∃ p ∈ s.pq.queue, p.Keyed p' ∧ p.handles s.par.spacing s.pp new x = true := by
  obtain ⟨p, hp, -, keyed | fresh⟩ := ok.reached_source forward count p' hp'
  · exact ⟨p, hp, keyed, (keyed.handles ..).symm.trans h⟩
  · rw [fresh.not_handles hs] at h
    exact nomatch h

/-- A record that the update has found handling a point comes to the dose unit with it. -/
theorem QueueOk.handles_reached (ok : QueueOk s) (reports : ReportsOk s) (forward : s.pp < new)
    (count : (s.cnt.chan.paper.take ticks).count = new) (hq : q ∈ s.pq.queue)
    (h : q.handles s.par.spacing s.pp new x = true) :
    ∃ p' ∈ (((s.ranged ticks).tracked s.pp new).reached new).pq.queue, q.Keyed p'
      ∧ p'.handles s.par.spacing s.pp new x = true := by
  obtain ⟨d, hd⟩ := dose_of_handles h
  cases arrival : q.arrival with
  | none => exact nomatch ((ok.measured q hq).mp arrival).symm.trans hd
  | some a =>
    obtain ⟨p, reject, reaches⟩ := ok.reaches (reports.stands ok hq) arrival forward count
    have keyed := reaches.ends.keyed.trans
      (passed_keyed (!q.arrived && decide (a ≤ new)) (s.mismatched q) s.trg.spliceAtNip reject p)
    exact ⟨_, reaches.stands.mem, keyed, (keyed.handles ..).trans h⟩

/-- The owners of a probe that joins are the panels whose point it is, in the order of their A (04 R65). -/
theorem QueueOk.probeTaken_owners (ok : QueueOk s) (reports : ReportsOk s) (hs : 0 < s.par.spacing) (forward : s.pp < new)
    (count : (s.cnt.chan.paper.take ticks).count = new) (x : Int) {r : State}
    (hr : r = ((s.ranged ticks).tracked s.pp new).reached new) (par : r.par = s.par) : ∃ ps : List Panel,
      ps.Perm (s.pq.queue.filter fun p => p.handles s.par.spacing s.pp new x)
      ∧ ps.Pairwise (fun p q => p.arrival.getD 0 ≤ q.arrival.getD 0)
      ∧ (r.probeTaken s.pp new x).owners = ps.map fun p => ⟨p.tag, decide (p.arrival.getD 0 + p.length = x)⟩ := by
  have once : (r.pq.queue.map Panel.tag).Nodup := hr ▸ ok.reached_once ticks forward
  have mem : ∀ p', p' ∈ r.handlers s.pp new x ↔ p' ∈ r.pq.queue ∧ p'.handles s.par.spacing s.pp new x = true := fun p' =>
    par ▸ mem_handlers
  have found : ∀ p' ∈ r.handlers s.pp new x, ∃ p ∈ s.pq.queue, (s.queued? p'.tag).getD p' = p ∧ p.Keyed p'
      ∧ p.handles s.par.spacing s.pp new x = true := fun p' hp' => by
    obtain ⟨mem, handles⟩ := (mem p').mp hp'
    obtain ⟨p, hp, keyed, handles⟩ := ok.reached_handles (ticks := ticks) hs forward count (hr ▸ mem) handles
    exact ⟨p, hp, by rw [keyed.tag, ok.queued? hp]; rfl, keyed, handles⟩
  have tags : ((r.handlers s.pp new x).map fun p' => (s.queued? p'.tag).getD p').map Panel.tag =
      (r.handlers s.pp new x).map Panel.tag := by
    rw [List.map_map]
    refine List.map_congr_left fun p' hp' => ?_
    obtain ⟨p, -, e, keyed, -⟩ := found p' hp'
    rw [Function.comp_apply, e, keyed.tag]
  have nodup : ((r.handlers s.pp new x).map Panel.tag).Nodup :=
    (((sortBy_perm _ _).map Panel.tag).nodup_iff).mpr ((List.filter_sublist.map Panel.tag).nodup once)
  refine ⟨(r.handlers s.pp new x).map fun p' => (s.queued? p'.tag).getD p', ?_, ?_, ?_⟩
  · refine (List.perm_ext_iff_of_nodup (List.Nodup.of_map Panel.tag (tags ▸ nodup))
      ((List.Nodup.of_map Panel.tag (PanelQueue.TagsOnce.queue ok.tags)).filter _)).mpr fun p => ?_
    rw [List.mem_map, List.mem_filter]
    constructor
    · rintro ⟨p', hp', rfl⟩
      obtain ⟨p, hp, e, -, handles⟩ := found p' hp'
      exact e ▸ ⟨hp, handles⟩
    · rintro ⟨hp, handles⟩
      obtain ⟨p', hp', keyed, handles'⟩ := ok.handles_reached (ticks := ticks) reports forward count hp handles
      exact ⟨p', (mem p').mpr ⟨hr ▸ hp', handles'⟩, by rw [keyed.tag, ok.queued? hp]; rfl⟩
  · have sorted := sortBy_pairwise (S := fun _ _ => True) (fun p : Panel => p.arrival.getD 0)
      (l := r.pq.queue.filter fun p => p.handles r.par.spacing s.pp new x) (List.pairwise_of_forall fun _ _ => trivial)
    rw [List.pairwise_map]
    refine List.Pairwise.imp_of_mem (fun {p' q'} hp' hq' le => ?_) sorted
    obtain ⟨p, -, e, keyed, -⟩ := found p' hp'
    obtain ⟨q, -, e', keyed', -⟩ := found q' hq'
    rw [e, e', ← keyed.arrival, ← keyed'.arrival]
    exact le.elim Int.le_of_lt fun h => Int.le_of_eq h.1
  · unfold State.probeTaken
    rw [List.map_map]
    refine List.map_congr_left fun p' hp' => ?_
    obtain ⟨p, -, e, keyed, -⟩ := found p' hp'
    unfold Panel.trailing
    rw [Function.comp_apply, e, keyed.tag, keyed.arrival, keyed.length]

end Sys2Proof.Machine
end

