-- ==== Sys2Proof/Proofs/RecordsLeft.lean ====
section
/-! SUPPORT. What a forward count update of PP leaves of a panel with an arrival: its record at the end of the update, in the
queue or in its report (04 R65 to R71, 07 R129). -/

namespace Sys2Proof.Machine
open Sys2Proof

variable {k : Nat} {q : Panel} {s t : State} {ticks : Ticks} {a new : Int}

/-! ## Every panel whose A is reached has arrived (08 R145) -/

theorem arrive_arrived {tag : Nat} {d : Option Dir} {s : State} :
    ∀ p ∈ (arrive tag d s).pq.queue, p.tag = tag → p.arrived = true := by
  unfold arrive
  split
  · next r hr =>
    have came : ∀ (f : Panel → Panel) (u : State), (∀ p, (f p).arrived = true) → (∀ p, (f p).tag = p.tag) →
        ∀ p ∈ (updPanel tag f u).pq.queue, p.tag = tag → p.arrived = true := fun f u h same p hp own => by
      obtain ⟨x, -, rfl⟩ := List.mem_map.mp hp
      split
      · exact h x
      · next other =>
        rw [if_neg other] at own
        exact absurd own other
    dsimp only
    split
    · intro p hp own
      obtain ⟨g, e, arrives⟩ := rejectTrigger_arrivals (tag := tag) (a := r.arrival.getD 0) (d := d)
        (s := updPanel tag (Panel.came (fabricCheck r s).trg.spliceAtNip) (fabricCheck r s))
      have hp : p ∈ (rejectTrigger tag (r.arrival.getD 0) d
        (updPanel tag (Panel.came (fabricCheck r s).trg.spliceAtNip) (fabricCheck r s))).pq.queue := hp
      rw [e] at hp
      obtain ⟨x, hx, rfl⟩ := List.mem_map.mp hp
      obtain ⟨_, _, _, _, _, stays, -, e'⟩ := arrives x
      have arrived := came (Panel.came (fabricCheck r s).trg.spliceAtNip) (fabricCheck r s) (fun _ => rfl)
        (fun _ => rfl) x hx (by rw [e'] at own; exact own)
      rw [e']
      exact stays arrived
    · exact came _ _ (fun _ => rfl) fun _ => rfl
  · next none =>
    intro p hp own
    exact absurd own (by simpa using List.find?_eq_none.mp none p hp)

theorem arriveReached_all {d : Option Dir} {s : State} : ∀ p ∈ (arriveReached d s).pq.queue, ∀ a, p.arrival = some a →
    a ≤ s.pp → p.arrived = true := by
  have fold : ∀ (l : List Nat) (u : State) (k : Nat), (k ∈ l ∨ ∀ p ∈ u.pq.queue, p.tag = k → p.arrived = true) →
      ∀ p ∈ (l.foldl (fun s tag => arrive tag d s) u).pq.queue, p.tag = k → p.arrived = true := fun l => by
    induction l with
    | nil => exact fun u k h => h.resolve_left nofun
    | cons tag l ih =>
      intro u k h
      refine ih _ k ?_
      by_cases e : tag = k
      · exact .inr (e ▸ arrive_arrived)
      · refine h.imp (fun mem => (List.mem_cons.mp mem).resolve_left (Ne.symm e)) fun all p hp own => ?_
        obtain ⟨g, queue, arrives⟩ := arrive_arrivals (tag := tag) (d := d) (s := u)
        rw [queue] at hp
        obtain ⟨x, hx, rfl⟩ := List.mem_map.mp hp
        obtain ⟨_, _, _, _, _, stays, -, e'⟩ := arrives x
        rw [e'] at own ⊢
        exact stays (all x hx own)
  intro p hp a arrival reaches
  obtain ⟨g, queue, arrives⟩ := arriveReached_arrivals (d := d) (s := s)
  have hp' := hp
  rw [queue] at hp'
  obtain ⟨x, hx, e⟩ := List.mem_map.mp hp'
  obtain ⟨_, _, _, _, _, stays, -, e'⟩ := e ▸ arrives x
  by_cases came : x.arrived = true
  · rw [e']
    exact stays came
  · refine fold _ s p.tag (.inl (mem_arrivals.mpr ⟨x, hx, ?_, by simpa using came, a, ?_, reaches⟩)) p hp rfl
    · rw [e']
    · rw [e'] at arrival
      exact arrival

/-- The record placed by a decision has its arrival and its arrived mark unchanged. -/
theorem decide_source (s : State) : ∀ q ∈ (decide_ s).pq.queue, ∃ p, (p ∈ s.pq.queue ∨ Slot.armed p ∈ s.pq.slots)
    ∧ q.arrival = p.arrival ∧ q.arrived = p.arrived := by
  intro q hq
  unfold decide_ at hq
  split at hq
  · next slot p candidate =>
    split at hq
    · rcases List.mem_cons.mp ((insertPlaced_perm _ _).mem_iff.mp hq) with rfl | hq
      · refine ⟨p, ?_, rfl, rfl⟩
        rcases candidate_cases candidate with ⟨-, mem, -⟩ | ⟨i, -, armed⟩
        · exact .inl mem
        · exact .inr (List.mem_of_getElem? armed)
      · exact ⟨q, .inl (mem_without.mp hq).1, rfl, rfl⟩
    · exact ⟨q, .inl hq, rfl, rfl⟩
  · exact ⟨q, .inl hq, rfl, rfl⟩

theorem QueueOk.all_arrived (ok : QueueOk s) (ticks : Ticks) (forward : s.pp < (s.cnt.chan.paper.take ticks).count) :
    ∀ q ∈ (tickBatch .paper ticks s).pq.queue, ∀ a, q.arrival = some a → a ≤ (s.cnt.chan.paper.take ticks).count →
      q.arrived = true := by
  rw [show tickBatch .paper ticks s = _ from tickBatch_forward forward]
  have pp := timed_pp (s := s) ticks rfl
  have once := ok.reached_once ticks forward
  generalize (s.cnt.chan.paper.take ticks).count = new at pp once
  intro q hq a arrival reaches
  obtain ⟨p, source, same, arrived⟩ := decide_source _ q hq
  rw [arrived]
  rw [same] at arrival
  rcases source with mem | armed
  · have pass := (probed_passes s.pp new (((s.ranged ticks).tracked s.pp new).reached new)).trans (judged_passes new _)
    obtain ⟨r, hr, -, lasts, -⟩ := passes_from pass (fun _ => rfl) Eq.trans once p mem
    exact lasts.arrived (arriveReached_all r hr a (lasts.arrival.symm.trans arrival)
      (Int.le_trans reaches (Int.le_of_eq pp.symm)))
  · rw [(ok.armed p (judged_armed ticks s.pp _ s p armed)).2.1] at arrival
    exact nomatch arrival

/-! ## The record at the end of the update -/

/-- A panel that has become DONE at the update, where `done`, or stands as it came to the verdicts. -/
structure Panel.Finally (done : Prop) (p q' : Panel) : Prop where
  stays : ¬ done → q' = p
  judged : done → ∃ r v o d, p.EndsPrint r ∧ (p.state ≠ .printing → r = p) ∧ p.dose = some d
    ∧ q' = { r with state := .done, verdict := some v, offered := o, dose := some { d with capHeld := false } }

theorem Left.leaves {clock : Timestamp} (h : Left k q clock t) (tag : q.tag = k) (now : s.cnt.clock = clock) :
    Leaves k q s t := by
  refine ⟨tag, ?_⟩
  cases h with
  | waits _ mem _ _ => exact .inl mem
  | retired _ report => exact .inr (now ▸ report)

/-- A panel with dose fields through the verdicts and the decision. -/
theorem Stands.finally {d : DoseFields} (st : Stands k q s) (dose : q.dose = some d) (placed : q.state ≠ .queued)
    (armed : NotArmed k (s.judged new)) : ∃ q', Leaves k q' s (decide_ (s.judged new))
      ∧ q.Finally (q.state ≠ .done ∧ q.trailing + s.par.arcLen ≤ new) q' := by
  by_cases done : q.state ≠ .done ∧ q.trailing + s.par.arcLen ≤ new
  · obtain ⟨r, ends, same, left⟩ := st.judged done.1 dose done.2
    have tag : (s.judging r d r).tag = k := by
      obtain ⟨_, _, _, _, _, _, -, rfl⟩ := ends
      exact st.tag
    refine ⟨_, (decide_left left nofun armed).leaves tag rfl, fun no => absurd done no, fun _ =>
      ⟨r, _, _, d, ends, same, dose, rfl⟩⟩
  · have stands := (st.judged_other (new := new) fun dosed => ?_).decide placed armed
    · exact ⟨q, ⟨st.tag, .inl stands.mem⟩, fun _ => rfl, fun h => absurd h done⟩
    · refine Int.not_le.mp fun reaches => done ⟨?_, reaches⟩
      unfold Panel.dosed at dosed
      simp only [Bool.and_eq_true, decide_eq_true_eq] at dosed
      simpa using dosed.2

end Sys2Proof.Machine
end

