-- ==== Sys2Proof/Proofs/ProbesFollow.lean ====
section
/-! PROOF. Arrivals hold, and at a forward count update of PP panels arrive and probes join and leave (04 R62 to R68, 07 R126 to
R129, 08 R144, R145, R147, 09 R155, R156, R164). -/

namespace Sys2Proof.Machine
open Sys2Proof

variable {q : Panel} {s : State} {ticks : Ticks} {a new : Int}

/-! ## The probes of the update -/

/-- The state that the probe points of a forward count update of PP find. -/
def State.arrived (ticks : Ticks) (new : Int) (s : State) : State := ((s.ranged ticks).tracked s.pp new).reached new

theorem arrived_par (ticks : Ticks) (s : State) (new : Int) : (s.arrived ticks new).par = s.par :=
  (reached_keeps new _ .par (by decide)).trans
    ((tracked_keeps s.pp new _ .par (by decide)).trans (ranged_keeps ticks s .par (by decide)))

theorem arrived_dose (ticks : Ticks) (s : State) (new : Int) : (s.arrived ticks new).dose = s.dose :=
  (reached_keeps new _ .dose (by decide)).trans
    ((tracked_keeps s.pp new _ .dose (by decide)).trans (ranged_keeps ticks s .dose (by decide)))

theorem arrived_zones (ticks : Ticks) (s : State) (new : Int) : (s.arrived ticks new).heat = s.heat :=
  (reached_keeps new _ .heat (by decide)).trans
    ((tracked_keeps s.pp new _ .heat (by decide)).trans (ranged_keeps ticks s .heat (by decide)))

/-- The probe points of the update, and the probes that they give. -/
theorem QueueOk.taken (ok : QueueOk s) (points : PointsOk s) (hs : 0 < s.par.spacing) (forward : s.pp < new)
    (count : (s.cnt.chan.paper.take ticks).count = new) : ∃ pts joined, Taken s.pp new (s.arrived ticks new)
      ((s.arrived ticks new).pointed s.pp new) pts joined := by
  exact pointed_taken (arrived_par ticks s new ▸ hs) (ok.reached_pointOn points hs forward count)

/-! ## The record of a panel with an arrival -/

/-- The record of a panel where the panels of the update become DONE. -/
def Panel.updated (sp old new : Int) (late : List Int) (gone : List Probe) (arrives mismatch spliced reject : Bool)
    (p : Panel) : Panel :=
  ((p.passed arrives mismatch spliced reject).swept sp old new late).afterGone p.tag gone

section
variable {sp old : Int} {late : List Int} {gone : List Probe} {arrives mismatch spliced reject : Bool} {p : Panel}
  {d : DoseFields}

theorem Panel.Keyed.trailing {p p' : Panel} (h : p.Keyed p') : p'.trailing = p.trailing := by
  unfold Panel.trailing
  rw [h.arrival, h.length]

theorem updated_dose (h : p.dose = some d) : (p.updated sp old new late gone arrives mismatch spliced reject).dose =
    some { d.after gone p.tag with
      next := pointAfter d.next sp p.trailing old new
      final := d.final && !decide (old < p.trailing ∧ p.trailing ≤ new) } := by
  show Option.map _ (Option.map _ p.dose) = _
  rw [h]
  rfl

theorem updated_state : (p.updated sp old new late gone arrives mismatch spliced reject).state =
    if arrives = true ∧ (p.state = .printed ∨ p.state = .spoiled) then .inArc else p.state := rfl

/-- A panel that is not printing, or not DONE, is not so at its arrival. -/
theorem updated_ne {x : PanelState} (h : p.state ≠ x) (inArc : x ≠ .inArc) :
    (p.updated sp old new late gone arrives mismatch spliced reject).state ≠ x := by
  rw [updated_state]
  split
  · exact inArc.symm
  · exact h

/-- What is left of a panel is its record in what no piece of the update changes. -/
theorem finally_eq {done : Prop} {q' : Panel} (ends : q.EndsPrint p)
    (h : (p.updated sp old new late gone arrives mismatch spliced reject).Finally done q') : q' = { q with
      state := q'.state, verdict := q'.verdict, printed := q'.printed, reason := q'.reason, txn := q'.txn
      offered := q'.offered, arrived := q.arrived || arrives, flags := q'.flags, dose := q'.dose } := by
  obtain ⟨_, _, _, _, _, _, -, rfl⟩ := ends
  by_cases hd : done
  · obtain ⟨r, v, o, d, ⟨_, _, _, _, _, _, -, rfl⟩, -, -, rfl⟩ := h.judged hd
    rfl
  · rw [h.stays hd]
    rfl

theorem finally_dose {done : Prop} [Decidable done] {q' : Panel} (ends : q.EndsPrint p) (dose : q.dose = some d)
    (h : (p.updated sp old new late gone arrives mismatch spliced reject).Finally done q') : q'.dose =
      some { d.after gone q.tag with
        next := pointAfter d.next sp q.trailing old new
        final := d.final && !decide (old < q.trailing ∧ q.trailing ≤ new)
        capHeld := d.capHeld && !decide done } := by
  have updated := updated_dose (sp := sp) (old := old) (new := new) (late := late) (gone := gone) (arrives := arrives)
    (mismatch := mismatch) (spliced := spliced) (reject := reject) (ends.keyed.dose.trans dose)
  rw [ends.keyed.trailing, ends.keyed.tag] at updated
  by_cases hd : done
  · obtain ⟨r, v, o, d', -, -, at_, rfl⟩ := h.judged hd
    cases updated.symm.trans at_
    rw [decide_eq_true hd, Bool.not_true, Bool.and_false]
  · rw [h.stays hd, updated, decide_eq_false hd, Bool.not_false, Bool.and_true]
    rfl

theorem finally_flags {done : Prop} {q' : Panel} (ends : q.EndsPrint p)
    (h : (p.updated sp old new late gone arrives mismatch spliced reject).Finally done q') : q'.flags =
      { q.flags.after gone with
        sparse := q.flags.sparse || late.any fun x => q.handles sp old new x
        fabricMismatch := q.flags.fabricMismatch || (arrives && mismatch)
        spliceAffected := q.flags.spliceAffected || (arrives && spliced)
        rejectUnmarked := q'.flags.rejectUnmarked } := by
  obtain ⟨_, _, _, _, _, _, -, rfl⟩ := ends
  by_cases hd : done
  · obtain ⟨r, v, o, d, ⟨_, _, _, _, _, _, -, rfl⟩, -, -, rfl⟩ := h.judged hd
    rfl
  · rw [h.stays hd]
    rfl

/-- A panel that was not printing keeps what the end of a print sets. -/
theorem finally_print {done : Prop} {q' : Panel}
    (h : (q.updated sp old new late gone arrives mismatch spliced reject).Finally done q') (ended : q.state ≠ .printing) :
    (q'.printed = q.printed ∧ q'.reason = q.reason ∧ q'.txn = q.txn)
    ∧ q'.flags.rejectUnmarked = (q.flags.rejectUnmarked || (arrives && reject)) := by
  by_cases hd : done
  · obtain ⟨r, v, o, d, -, same, -, rfl⟩ := h.judged hd
    rw [same (updated_ne ended nofun)]
    exact ⟨⟨rfl, rfl, rfl⟩, rfl⟩
  · rw [h.stays hd]
    exact ⟨⟨rfl, rfl, rfl⟩, rfl⟩

end

/-- The probes of panel `k` that the update takes out of the list (04 R67). -/
def State.goneOf (s : State) (joined : List Probe) (new : Int) (k : Nat) : List Probe :=
  ((s.dose.probes ++ joined).takeWhile fun b => decide (b.exit ≤ new)).filter (Probe.ofPanel k)

/-- The panel `q`, whose print the deadlines have left as `p`, where the panels of the update become DONE. -/
def Panel.followed (s : State) (a new : Int) (pts : List Int) (joined : List Probe) (reject : Bool) (q p : Panel) : Panel :=
  p.updated s.par.spacing s.pp new (pts.drop (64 - s.dose.probes.length)) (s.goneOf joined new q.tag)
    (!q.arrived && decide (a ≤ new)) (s.mismatched q) s.trg.spliceAtNip reject

/-- The panel becomes DONE at the update (04 R68). -/
def Panel.completes (s : State) (a new : Int) (q : Panel) : Prop := q.state ≠ .done ∧ a + q.length + s.par.arcLen ≤ new

theorem followed_completes {s : State} {reject : Bool} {pts : List Int} {joined : List Probe} {p : Panel}
    (reaches : Reaches ticks q a s new p reject) (arrival : q.arrival = some a) :
    ((q.followed s a new pts joined reject p).state ≠ .done
      ∧ (q.followed s a new pts joined reject p).trailing + s.par.arcLen ≤ new) = q.completes s a new := by
  have trailing : (q.followed s a new pts joined reject p).trailing = a + q.length := by
    have e : (q.followed s a new pts joined reject p).trailing = p.trailing := rfl
    rw [e, reaches.ends.keyed.trailing]
    unfold Panel.trailing
    rw [arrival]
    rfl
  unfold Panel.completes
  rw [trailing]
  refine propext (and_congr_left fun _ => ⟨fun h done => h ?_, fun h => updated_ne (reaches.ends.goes.open_ h) nofun⟩)
  have same := reaches.calm (.inl (by rw [done]; nofun))
  unfold Panel.followed
  rw [same, updated_state, done]
  simp

/-- A panel with an arrival through the whole update: as it reaches the dose unit, and as it is left. -/
theorem QueueOk.follows {d : DoseFields} (ok : QueueOk s) (st : Stands q.tag q s) (arrival : q.arrival = some a)
    (dose : q.dose = some d) (forward : s.pp < new) (count : (s.cnt.chan.paper.take ticks).count = new) {pts : List Int}
    {joined : List Probe} (taken : Taken s.pp new (s.arrived ticks new)
      ((s.arrived ticks new).pointed s.pp new) pts joined) :
    ∃ p reject, Reaches ticks q a s new p reject ∧ ∃ q', Leaves q.tag q' s (tickBatch .paper ticks s)
      ∧ (q.followed s a new pts joined reject p).Finally (q.completes s a new) q' := by
  obtain ⟨p, reject, reaches⟩ := ok.reaches st arrival forward count
  refine ⟨p, reject, reaches, ?_⟩
  have keyed := reaches.ends.keyed
  have par := arrived_par ticks s new
  have probes := congrArg Dose.probes (arrived_dose ticks s new)
  have armed := ok.notArmed st.mem ticks s.pp new
  have clock := probed_clock ticks s s.pp new
  have par' := probed_par ticks s s.pp new
  have stands := Stands.map (g := Panel.swept s.par.spacing s.pp new (pts.drop (64 - s.dose.probes.length)))
    (t := (s.arrived ticks new).pointed s.pp new) reaches.stands (fun _ => rfl)
    (by rw [taken.pq, par, probes]; rfl) (by rw [taken.pq]; rfl)
    (Nat.le_of_eq (congrArg FaultMon.used (createProbes_keeps .flt (by decide)).symm))
  have exits := stands.exitProbes new
  rw [taken.probes, probes] at exits
  have record : Stands q.tag (q.followed s a new pts joined reject p)
      ((((s.ranged ticks).tracked s.pp new).reached new).probed s.pp new) := by
    unfold Panel.followed Panel.updated
    rw [keyed.tag]
    exact exits
  have tick : tickBatch .paper ticks s =
      decide_ (((((s.ranged ticks).tracked s.pp new).reached new).probed s.pp new).judged new) := by
    subst count
    exact tickBatch_forward forward
  rw [tick, ← followed_completes (pts := pts) (joined := joined) reaches arrival, ← par']
  generalize (((s.ranged ticks).tracked s.pp new).reached new).probed s.pp new = u at record armed clock
  have placed : p.state ≠ .queued := reaches.ends.goes.placed (ok.past st.mem arrival).1
  obtain ⟨q', leaves, final⟩ := record.finally (new := new) (updated_dose (keyed.dose.trans dose)) (updated_ne placed nofun)
    armed
  refine ⟨q', ?_, final⟩
  unfold Leaves at *
  rwa [clock] at leaves

/-! ## The rest of the update -/

/-- What follows the arrivals of an update keeps its notices. -/
theorem arrived_tells (ticks : Ticks) (forward : s.pp < new) (count : (s.cnt.chan.paper.take ticks).count = new) :
    TellsOn (s.arrived ticks new) (tickBatch .paper ticks s) := by
  subst count
  rw [show tickBatch .paper ticks s = _ from tickBatch_forward forward]
  exact ((runs_of_keeps (b := false) (probed_keeps s.pp _ _) (by decide)).trans
    ((judged_runs _ _).trans decide_runs)).tellsOn

/-- Where one panel alone is spoiled, what follows the arrivals keeps its reject trigger. -/
theorem QueueOk.arrived_orphaned (ok : QueueOk s) (calm : Calm q.tag s) (forward : s.pp < new)
    (count : (s.cnt.chan.paper.take ticks).count = new) : Orphaned (s.arrived ticks new) (tickBatch .paper ticks s) := by
  have timed := (ok.timed_calm ticks calm forward).1
  obtain ⟨g, e, arrives⟩ := arriveReached_arrivals (d := some .forward) (s := s.timed ticks new)
  have reached : Calm q.tag (s.arrived ticks new) := timed.from (from_map e fun p => (arrives_returns (arrives p)).calmly)
  have once := ok.reached_once ticks forward
  subst count
  rw [show tickBatch .paper ticks s = _ from tickBatch_forward forward]
  exact ((orphaned_of_keeps (probed_keeps s.pp _ _) (by decide)).trans (reached.probed once).judged).trans
    (orphaned_of_keeps decide_keeps (by decide))

theorem tickBatch_probes {pts : List Int} {joined : List Probe} (forward : s.pp < new)
    (count : (s.cnt.chan.paper.take ticks).count = new) (taken : Taken s.pp new (s.arrived ticks new)
      ((s.arrived ticks new).pointed s.pp new) pts joined) :
    (tickBatch .paper ticks s).dose.probes = (s.dose.probes ++ joined).dropWhile fun b => decide (b.exit ≤ new) := by
  have probes := congrArg Dose.probes (arrived_dose ticks s new)
  subst count
  rw [show tickBatch .paper ticks s = _ from tickBatch_forward forward,
    show State.dose (decide_ _) = _ from decide_keeps .dose (by decide),
    show State.dose (State.judged _ _) = _ from judged_keeps _ _ .dose (by decide)]
  unfold State.probed
  rw [exitProbes_probes]
  exact congrArg _ (taken.probes.trans (congrArg (· ++ joined) probes))

/-- A panel that is spoiled, alone in being so. -/
theorem QueueOk.calm (ok : QueueOk s) (mem : q ∈ s.pq.queue) (spoiled : q.state = .spoiled)
    (alone : ∀ p ∈ s.pq.queue, p.state = .spoiled ∨ p.state = .printing → p.tag = q.tag) : Calm q.tag s := by
  refine fun p hp => ⟨fun prints => ?_, fun h => alone p hp (.inl h)⟩
  rw [ok.queue_unique hp mem (alone p hp (.inr prints)), spoiled] at prints
  exact nomatch prints

/-- A reject trigger, read where the update begins. -/
theorem rejected_at {k : Nat} {u t : State} (par : u.par = s.par) (pp : u.pp = new) (clock : u.cnt.clock = s.cnt.clock)
    (h : Rejected k a u t) :
    let mark := max (-2000000000) (min 2000000000 (a + (s.par.arcLen + s.par.dMark)))
    if new < mark then .held .panel (s.reject k a) ∈ t.trg.slots
    else t.trg.pulses.markout = some ⟨0, s.par.wOut.markout.toNat⟩
      ∧ ∃ i, Noticed (.triggerFired i .panel (.pulse .markout) (some mark) (some k) new .forward .late) s t := by
  unfold Rejected State.reject Noticed at h
  rwa [par, pp, clock] at h

/-- Settles O40: the first clause by `QueueOk.arrival_exec`; the probe points by `createProbes_taken`, at the records that
the update has found; a panel with an arrival by `QueueOk.follows`. -/
theorem arrivalsHoldAndProbesFollow : Obligations.ArrivalsHoldAndProbesFollow := by
  unfold Obligations.ArrivalsHoldAndProbesFollow
  refine ⟨fun c s t ok e p mem a arrival q mem' tag => ok.arrival_exec e mem arrival mem' tag,
    fun ticks s ok reports points hs => ?_⟩
  intro new forward
  obtain ⟨pts, joined, taken⟩ := ok.taken (ticks := ticks) points hs forward rfl
  have par := arrived_par ticks s new
  have probes := congrArg Dose.probes (arrived_dose ticks s new)
  have tells := arrived_tells ticks forward rfl
  have entries := taken.entries
  rw [probes] at entries
  refine ⟨_, pts, joined, rfl, ok.all_arrived ticks forward, taken.rise, fun x => ?_, entries, fun b hb => ?_, ?_⟩
  · rw [taken.members, par]
    constructor
    · rintro ⟨p', hp', handles⟩
      obtain ⟨p, hp, -, handles⟩ := ok.reached_handles hs forward rfl hp' handles
      exact ⟨p, hp, handles⟩
    · rintro ⟨p, hp, handles⟩
      obtain ⟨p', hp', -, handles⟩ := ok.handles_reached reports forward rfl hp handles
      exact ⟨p', hp', handles⟩
  · have joins := taken.joins b hb
    obtain ⟨ps, perm, ascend, owners⟩ := ok.probeTaken_owners reports hs forward rfl b.entry rfl par
    have shape : { (s.arrived ticks new).probeTaken s.pp new b.entry with owners := [] } =
        { owners := [], entry := b.entry, exit := b.entry + s.par.arcLen, zones := s.heat.zones.map ZoneRec.enable } := by
      unfold State.probeTaken
      rw [par, arrived_zones]
      rfl
    exact ⟨(congrArg (fun b : Probe => { b with owners := [] }) joins).trans shape, ps, perm, ascend,
      (congrArg Probe.owners joins).trans owners⟩
  · intro list
    refine ⟨tickBatch_probes forward rfl taken, fun q mem a arrival d dose => ?_⟩
    intro gone trailing done arrives media nip spliced mark reject alone full
    obtain ⟨p, rejects, reaches, q', leaves, final⟩ := ok.follows (reports.stands ok mem) arrival dose forward rfl taken
    have arrives_iff : (!q.arrived && decide (a ≤ new)) = true ↔ arrives := by simp [arrives]
    have end_ : q.trailing = trailing := by unfold Panel.trailing; rw [arrival]; rfl
    have mark_eq : mark = max (-2000000000) (min 2000000000 (a + (s.par.arcLen + s.par.dMark))) := by
      simp only [mark, Int.add_assoc]
    have reject_eq : reject = s.reject q.tag a := by
      simp only [reject, State.reject, mark_eq]
    have arrives_or : (q.arrived || (!q.arrived && decide (a ≤ new))) = (q.arrived || decide (a ≤ new)) := by
      cases q.arrived <;> rfl
    have mismatch : s.mismatched q = decide (nip ≠ some media) := rfl
    have splices : s.trg.spliceAtNip = decide spliced := by
      rw [Bool.eq_iff_iff, decide_eq_true_iff]
      simp [TrigUnit.spliceAtNip, spliced]
    have both : (!q.arrived && decide (a ≤ new)) = decide arrives := by
      rw [Bool.eq_iff_iff, arrives_iff, decide_eq_true_iff]
    have calm : q.state = .spoiled → alone → Calm q.tag s := ok.calm mem
    have same : q.state ≠ .printing → p = q := fun h => reaches.calm (.inl h)
    have finally_ : q.state ≠ .printing → (q.followed s a new pts joined rejects q).Finally (q.completes s a new) q' :=
      fun h => by
        have left := final
        rwa [same h] at left
    refine ⟨fun ⟨fresh, at_⟩ other => ?_, fun ⟨fresh, at_⟩ spoiled one free => ?_, fun ⟨fresh, at_⟩ spoiled one all => ?_,
      q', leaves, ?_, fun h => ?_, fun not ended => ?_, fun not prints short => ?_, fun not ended => ?_, fun ended => ?_,
      ?_, ?_,
      fun ⟨fresh, at_⟩ spoiled one all => ?_, fun ended sound => ?_⟩
    · exact (reaches.checked fresh at_ (mismatch.trans (decide_eq_true other))).seen tells
    · have kept := (reaches.rejected fresh at_ (calm spoiled one) spoiled free).later
        (ok.arrived_orphaned (calm spoiled one) forward rfl) tells
      have at_new := rejected_at (timed_par (new := new) ticks) (timed_pp ticks rfl) (timed_clock ticks) kept
      rw [← mark_eq] at at_new
      rw [reject_eq]
      exact at_new
    · exact (reaches.full fresh at_ (calm spoiled one) spoiled all).2.seen tells
    · rw [← arrives_or]
      exact finally_eq reaches.ends final
    · obtain ⟨_, _, _, _, -, -, -, rfl⟩ := final.judged h
      rfl
    · rw [(finally_ ended).stays not]
      exact if_congr (and_congr_left' arrives_iff) rfl rfl
    · have same := reaches.calm (.inr short)
      rw [final.stays not, same]
      exact (if_neg (by rw [prints]; simp)).trans prints
    · rw [(finally_ ended).stays not]
      exact ⟨rfl, rfl⟩
    · exact (finally_print (finally_ ended) ended).1
    · have dosed := finally_dose (done := q.state ≠ .done ∧ a + q.length + s.par.arcLen ≤ new) reaches.ends dose final
      rw [end_] at dosed
      exact dosed
    · have flags := finally_flags reaches.ends final
      rw [both, mismatch, splices, ← Bool.decide_and, ← Bool.decide_and] at flags
      exact flags
    · have ended : q.state ≠ .printing := by rw [spoiled]; nofun
      rw [(finally_print (finally_ ended) ended).2, (reaches.full fresh at_ (calm spoiled one) spoiled all).1, both,
        decide_eq_true (⟨fresh, at_⟩ : arrives)]
      simp
    · rw [(finally_print (finally_ ended) ended).2, both]
      by_cases h : arrives
      · rw [reaches.sound (by rw [same ended]; exact sound h), Bool.and_false, Bool.or_false]
      · rw [decide_eq_false h, Bool.false_and, Bool.or_false]

end Sys2Proof.Machine
end
